-- ==== Sys2Proof/Word.lean ====
section
/-!
DEFINITION. The word types of the KX-4096 (R4, R5) and their plainest arithmetic.
-/

namespace Sys2Proof

/-- A byte of memory. -/
abbrev Byte := BitVec 8

/-- A 32-bit lane value or instruction word. -/
abbrev Word32 := BitVec 32

/-- A 64-bit scalar, address or control register. -/
abbrev Word := BitVec 64

/-- A set of lanes of one group: bit `i` is lane `i`. -/
abbrev Mask := BitVec 32

end Sys2Proof
end

