-- ==== Sys2Proof/Syntax.lean ====
section
/-!
DEFINITION. The steps of the KX-4096: one constructor for each row of spec/opcode_table.json. A row with an
encoding is an instruction word (R33 to R50) and carries its fields as bits; a row without one is an event, a whole and
indivisible step of some engine, of the manager or of the outside world, and carries the numbers that name its subject.
-/

namespace Sys2Proof

/-- Who receives decision records (R122): a group, or an upper sequencer context. -/
inductive Party where
  | group (g : Nat)
  | context (c : Nat)
deriving DecidableEq, Repr

/-- The unit that containment fences (R26; the code is TSTAT of cause 17, R190). -/
inductive FenceUnit where
  /-- A 4 KiB HBM page, by physical page number. -/
  | page (frame : Nat)
  /-- An HBM stack's channel, by stack number. -/
  | channel (stack : Nat)
  | core (core : Nat)
  | cluster (cl : Nat)
deriving DecidableEq, Repr

/-- What the source of a layer fetch delivered (R321 to R323). -/
inductive FetchOutcome where
  /-- The bytes stand in memory this module can read (SRCKIND 0, 2 and 3). -/
  | inMemory
  /-- SRCKIND 1: the bytes that the NVMe controller returned. -/
  | nvme (data : List (BitVec 8))
  /-- The source failed: the ERR code 1 (source error), 2 (link lost) or 4 (contained error) of R321. -/
  | failed (err : Nat)
deriving DecidableEq, Repr

/-- The sender of a PCIe or CXL.io request (R274): the host, or a device behind a root port. -/
inductive Requester where
  | host
  /-- A device: its root port and function there, PASID (none: the port's default ASID), and whether the address is already
  translated (ATS, R399). -/
  | device (port fn : Nat) (pasid : Option Nat) (translated : Bool)
deriving DecidableEq, Repr

/-- Registers with no behaviour of their own (R399, R402, R411, R414, R433). -/
inductive DevReg where
  | bpcWord0 (core n : Nat)
  | bpcWord1 (core n : Nat)
  | dbgctl (core : Nat)
  | trbase (core : Nat)
  | smpbase (core : Nat)
  | cfreq (cl : Nat)
  | droopth (cl : Nat)
  | pairlim (cl : Nat)
  | crec (cl : Nat)
  | fbcap
  | rqbase (fn : Nat)
  | rqridx (fn : Nat)
  | fnid (fn : Nat)
  /-- A root port's entry for a PASID, its default ASID, and the ATS enable of a function behind it (R399): written with the new value in
  [15:0], bit 63 set for an entry that is there. -/
  | portPasid (port pasid : Nat)
  | portDefault (port : Nat)
  | portAts (port fn : Nat)
deriving DecidableEq, Repr

/-- One request record of a function (R430, R431, R435): its function, its position in the ring when it came through
the ring, and words 0 to 6. -/
structure Request where
  fn   : Nat
  slot : Option Nat
  w0   : BitVec 64
  w1   : BitVec 64
  w2   : BitVec 64
  w3   : BitVec 64
  w4   : BitVec 64
  w5   : BitVec 64
  w6   : BitVec 64
deriving DecidableEq, Repr

/-- What a provisioning message writes (R373). -/
inductive ProvisionAction where
  | setKey (keyid : Nat) (qx qy : Nat)
  | setFirmwareFlag (keyid : Nat) (flag : Bool)
  | raiseFloor (keyid : Nat) (floor : Nat)
  | revoke (keyid : Nat)
deriving DecidableEq, Repr

/-- A provisioning message over MCTP (R373): its action, the signed bytes and the signature of key 0. -/
structure ProvisionMsg where
  action : ProvisionAction
  bytes  : List (BitVec 8)
  sigR   : Nat
  sigS   : Nat
deriving DecidableEq, Repr

/-- The hang watchdogs of R410. -/
inductive Watchdog where
  | blockContext (c : Nat)
  | fentos (thread : Nat)
deriving DecidableEq, Repr

/-- The pairs of accesses a RISC-V FENCE names (R273). -/
inductive HartFence where
  | rwRw | rRw | rwW | tso | io
  /-- Any other FENCE, by its predecessor and successor sets. -/
  | other (pred succ : BitVec 4)
deriving DecidableEq, Repr

/-- The operations of an atomic that always writes (R238), which are those of the RISC-V AMOs. -/
inductive RmwOp where
  | swap | add | xor | and | or | min | max | minu | maxu
deriving DecidableEq, Repr

/-- One access of a system-core hart (R273), or a write of its satp (R389). -/
inductive HartAccess where
  | load (va : BitVec 64) (n : Nat)
  | store (va : BitVec 64) (data : List (BitVec 8))
  | amo (op : RmwOp) (va : BitVec 64) (wide : Bool) (value : BitVec 64) (aq rl : Bool)
  | lr (va : BitVec 64) (wide : Bool) (aq rl : Bool)
  | sc (va : BitVec 64) (wide : Bool) (value : BitVec 64) (aq rl : Bool)
  | fence (f : HartFence)
  | satp (value : BitVec 64)
deriving DecidableEq, Repr

/-- What an access of a peer module's agent does to this module's HBM (R276): atomics are performed as this module's own are (R238, R239). -/
inductive PeerOp where
  | read
  | write (data : List (BitVec 8))
  | rmw (op : RmwOp) (value : BitVec 64)
  | cas (compare value : BitVec 64)
deriving DecidableEq, Repr

/-- A function of a device behind a root port (R399). -/
structure PortFunction where
  port : Nat
  fn   : Nat
deriving DecidableEq, Repr

/-- The steps of the machine, one constructor per row of the opcode table; the rows that only the outside world starts stand last. In a word, `m` is the switch marker (R34), `p`
the predicate field [23:21] of formats A and B, `k` a scope code, `d`, `a`, `b` register fields, `t` a type code. -/
inductive Instr where
  /-- `BR` (R164). Conditional branch at the named sequencer scope; at lane scope it may split the unit. -/
  | br (m : BitVec 1) (k : BitVec 3) (c : BitVec 5) (o : BitVec 16)
  /-- `JMP` (R164). Unconditional jump at the named scope. -/
  | jmp (m : BitVec 1) (k : BitVec 3) (o : BitVec 16)
  /-- `CALL` (R164). Pushes a call-stack entry and transfers to the target. -/
  | call (m : BitVec 1) (k : BitVec 3) (o : BitVec 16)
  /-- `RET` (R164). Pops a call-stack entry; on an empty upper-level stack ends the context's work with END records. -/
  | ret (m : BitVec 1) (k : BitVec 3)
  /-- `LOOP` (R166). Opens a hardware loop level with a count read once, or skips the body when the count is 0. -/
  | loop (m : BitVec 1) (k : BitVec 3) (c : BitVec 5) (o : BitVec 16)
  /-- `LBRK` (R168). Leaves the innermost loop level when its condition holds; at lane scope it is a lane branch. -/
  | lbrk (m : BitVec 1) (k : BitVec 3) (c : BitVec 5)
  /-- `BAR` (R173). The owning context emits its pending segment and stops until every receiver has completed the earlier records. -/
  | bar (m : BitVec 1) (k : BitVec 3)
  /-- `NOP` (R169). Occupies one issue slot and changes nothing. -/
  | nop (m : BitVec 1)
  /-- `RCV` (R152). Reconvergence token: the unit arrives at its innermost entry when the depth matches. -/
  | rcv (m : BitVec 1)
  /-- `EXIT` (R155). Removes the active lanes from the unit and from every reconvergence entry; the group ends when no lane remains. -/
  | exit (m : BitVec 1)
  /-- `MASK_ALL` (R157). Opens a mask region over every live lane of the group. -/
  | maskAll (m : BitVec 1)
  /-- `MASK_REST` (R157). Restores the saved mask and closes the region. -/
  | maskRest (m : BitVec 1)
  /-- `YIELD` (R169). Ends the unit's run after this word without parking. -/
  | yield (m : BitVec 1)
  /-- `UP` (R170). Sends a value upward to the context of the named scope for combining by the given mode. -/
  | up (m : BitVec 1) (d : BitVec 5) (a : BitVec 5) (k : BitVec 3) (y : BitVec 3)
  /-- `DOWN_SEND` (R172). Stages a register value in a slot of the next SEG record the context emits. -/
  | downSend (m : BitVec 1) (d : BitVec 5) (a : BitVec 5) (k : BitVec 3)
  /-- `DOWN_READ` (R172). Copies a decision value into a register of the executing level. -/
  | downRead (m : BitVec 1) (d : BitVec 5) (a : BitVec 5) (k : BitVec 3)
  /-- `CLAIM` (R140). Appends zeroed register chunks from the block's pool, or fails without change. -/
  | claim (m : BitVec 1) (d : BitVec 5) (a : BitVec 5)
  /-- `GIVEBACK` (R140). Returns the last chunks of the allotment to the block's pool after their writes complete. -/
  | giveback (m : BitVec 1) (a : BitVec 5)
  /-- `VWIN` (R175). Sets the group's register window base. -/
  | vwin (m : BitVec 1) (a : BitVec 5)
  /-- `REGROUP` (R158). Drains and waits until every named group has arrived, then packs live lanes into groups. -/
  | regroup (m : BitVec 1) (d : BitVec 5) (a : BitVec 5)
  /-- `ROLE` (R141). Drains, resizes the allotment to the role preset, sets VWIN and ROLE and jumps to the role entry. -/
  | role (m : BitVec 1) (a : BitVec 5)
  /-- `SPAWN` (R178). Creates free groups at a kernel entry all-or-nothing and writes a status word. -/
  | spawn (m : BitVec 1) (d : BitVec 5) (a : BitVec 5) (b : BitVec 5)
  /-- `SUSPEND` (R135). Arms a watch and tests an event counter; suspends the group or retires the block until a wake. -/
  | suspend (m : BitVec 1) (k : BitVec 3) (n : BitVec 5) (o : BitVec 16)
  /-- `FMT_SET` (R179). Writes the unit's FMT, with the format fault on an invalid value. -/
  | fmtSet (m : BitVec 1) (a : BitVec 5)
  /-- `FMT_GET` (R179). Reads the unit's FMT into a scalar. -/
  | fmtGet (m : BitVec 1) (d : BitVec 5)
  /-- `SADD` (R77). Scalar add. -/
  | sadd (m : BitVec 1) (d : BitVec 5) (a : BitVec 5) (b : BitVec 5) (t : BitVec 2)
  /-- `SSUB` (R77). Scalar subtract. -/
  | ssub (m : BitVec 1) (d : BitVec 5) (a : BitVec 5) (b : BitVec 5) (t : BitVec 2)
  /-- `SMUL` (R77). Scalar multiply, low half. -/
  | smul (m : BitVec 1) (d : BitVec 5) (a : BitVec 5) (b : BitVec 5) (t : BitVec 2)
  /-- `SMULH` (R77). Scalar multiply, high half. -/
  | smulh (m : BitVec 1) (d : BitVec 5) (a : BitVec 5) (b : BitVec 5) (t : BitVec 2)
  /-- `SDIV` (R77). Scalar divide toward zero with defined divide-by-zero and overflow results. -/
  | sdiv (m : BitVec 1) (d : BitVec 5) (a : BitVec 5) (b : BitVec 5) (t : BitVec 2)
  /-- `SMIN` (R77). Scalar minimum. -/
  | smin (m : BitVec 1) (d : BitVec 5) (a : BitVec 5) (b : BitVec 5) (t : BitVec 2)
  /-- `SMAX` (R77). Scalar maximum. -/
  | smax (m : BitVec 1) (d : BitVec 5) (a : BitVec 5) (b : BitVec 5) (t : BitVec 2)
  /-- `SAND` (R78). Scalar bitwise AND. -/
  | sand (m : BitVec 1) (d : BitVec 5) (a : BitVec 5) (b : BitVec 5) (t : BitVec 2)
  /-- `SOR` (R78). Scalar bitwise OR. -/
  | sor (m : BitVec 1) (d : BitVec 5) (a : BitVec 5) (b : BitVec 5) (t : BitVec 2)
  /-- `SXOR` (R78). Scalar bitwise XOR. -/
  | sxor (m : BitVec 1) (d : BitVec 5) (a : BitVec 5) (b : BitVec 5) (t : BitVec 2)
  /-- `SSHL` (R78). Scalar shift left. -/
  | sshl (m : BitVec 1) (d : BitVec 5) (a : BitVec 5) (b : BitVec 5) (t : BitVec 2)
  /-- `SSHR` (R78). Scalar logical shift right. -/
  | sshr (m : BitVec 1) (d : BitVec 5) (a : BitVec 5) (b : BitVec 5) (t : BitVec 2)
  /-- `SSAR` (R78). Scalar arithmetic shift right. -/
  | ssar (m : BitVec 1) (d : BitVec 5) (a : BitVec 5) (b : BitVec 5) (t : BitVec 2)
  /-- `SSET` (R79). Writes 1 when the condition holds between two scalars, else 0. -/
  | sset (m : BitVec 1) (d : BitVec 5) (a : BitVec 5) (b : BitVec 5) (t : BitVec 2) (c : BitVec 3)
  /-- `SSEL` (R80). Selects one of two scalars by a third. -/
  | ssel (m : BitVec 1) (d : BitVec 5) (a : BitVec 5) (b : BitVec 5) (c : BitVec 5)
  /-- `SLI` (R81). Adds a sign-extended immediate to a scalar. -/
  | sli (m : BitVec 1) (d : BitVec 5) (a : BitVec 5) (i : BitVec 14)
  /-- `SLUI` (R81). Adds the immediate times 2^26 to a scalar. -/
  | slui (m : BitVec 1) (d : BitVec 5) (a : BitVec 5) (i : BitVec 14)
  /-- `SLD` (R82). Scalar load, optionally acquiring. -/
  | sld (m : BitVec 1) (d : BitVec 5) (a : BitVec 5) (b : BitVec 5) (w : BitVec 2) (x : BitVec 1) (o : BitVec 2) (k : BitVec 3)
  /-- `SST` (R82). Scalar store, optionally releasing. -/
  | sst (m : BitVec 1) (d : BitVec 5) (a : BitVec 5) (b : BitVec 5) (w : BitVec 2) (o : BitVec 2) (k : BitVec 3)
  /-- `VADD` (R84). Vector integer add, wrapping or saturating. -/
  | vadd (m : BitVec 1) (p : BitVec 3) (d : BitVec 6) (a : BitVec 6) (b : BitVec 6) (t : BitVec 3)
  /-- `VSUB` (R84). Vector integer subtract. -/
  | vsub (m : BitVec 1) (p : BitVec 3) (d : BitVec 6) (a : BitVec 6) (b : BitVec 6) (t : BitVec 3)
  /-- `VMUL` (R84). Vector integer multiply. -/
  | vmul (m : BitVec 1) (p : BitVec 3) (d : BitVec 6) (a : BitVec 6) (b : BitVec 6) (t : BitVec 3)
  /-- `VMULH` (R84). Vector integer multiply high word. -/
  | vmulh (m : BitVec 1) (p : BitVec 3) (d : BitVec 6) (a : BitVec 6) (b : BitVec 6) (t : BitVec 3)
  /-- `VMAD` (R84). Vector integer multiply-add with tied destination. -/
  | vmad (m : BitVec 1) (p : BitVec 3) (d : BitVec 6) (a : BitVec 6) (b : BitVec 6) (t : BitVec 3)
  /-- `VMIN` (R84). Vector integer minimum. -/
  | vmin (m : BitVec 1) (p : BitVec 3) (d : BitVec 6) (a : BitVec 6) (b : BitVec 6) (t : BitVec 3)
  /-- `VMAX` (R84). Vector integer maximum. -/
  | vmax (m : BitVec 1) (p : BitVec 3) (d : BitVec 6) (a : BitVec 6) (b : BitVec 6) (t : BitVec 3)
  /-- `VABS` (R86). Vector absolute value without saturation. -/
  | vabs (m : BitVec 1) (p : BitVec 3) (d : BitVec 6) (a : BitVec 6)
  /-- `VAND` (R87). Vector bitwise AND. -/
  | vand (m : BitVec 1) (p : BitVec 3) (d : BitVec 6) (a : BitVec 6) (b : BitVec 6)
  /-- `VOR` (R87). Vector bitwise OR. -/
  | vor (m : BitVec 1) (p : BitVec 3) (d : BitVec 6) (a : BitVec 6) (b : BitVec 6)
  /-- `VXOR` (R87). Vector bitwise XOR. -/
  | vxor (m : BitVec 1) (p : BitVec 3) (d : BitVec 6) (a : BitVec 6) (b : BitVec 6)
  /-- `VANDN` (R87). Vector a AND NOT b. -/
  | vandn (m : BitVec 1) (p : BitVec 3) (d : BitVec 6) (a : BitVec 6) (b : BitVec 6)
  /-- `VSHL` (R88). Vector shift left by register. -/
  | vshl (m : BitVec 1) (p : BitVec 3) (d : BitVec 6) (a : BitVec 6) (b : BitVec 6)
  /-- `VSHR` (R88). Vector logical shift right by register. -/
  | vshr (m : BitVec 1) (p : BitVec 3) (d : BitVec 6) (a : BitVec 6) (b : BitVec 6)
  /-- `VSAR` (R88). Vector arithmetic shift right by register. -/
  | vsar (m : BitVec 1) (p : BitVec 3) (d : BitVec 6) (a : BitVec 6) (b : BitVec 6)
  /-- `VCLZ` (R89). Counts leading zero bits per lane. -/
  | vclz (m : BitVec 1) (p : BitVec 3) (d : BitVec 6) (a : BitVec 6)
  /-- `VPOPC` (R89). Counts one bits per lane. -/
  | vpopc (m : BitVec 1) (p : BitVec 3) (d : BitVec 6) (a : BitVec 6)
  /-- `VSAT` (R90). Clamps each lane to a given bit width. -/
  | vsat (m : BitVec 1) (p : BitVec 3) (d : BitVec 6) (a : BitVec 6) (w : BitVec 6) (t : BitVec 1)
  /-- `VSEL` (R91). Selects per lane between two registers by a predicate. -/
  | vsel (m : BitVec 1) (p : BitVec 3) (d : BitVec 6) (a : BitVec 6) (b : BitVec 6) (n : BitVec 3)
  /-- `VSET` (R92). Writes a predicate from an integer comparison of two registers. -/
  | vset (m : BitVec 1) (p : BitVec 3) (c : BitVec 3) (n : BitVec 3) (a : BitVec 6) (b : BitVec 6) (t : BitVec 3)
  /-- `VSET_IMM` (R92). Writes a predicate from an integer comparison with an immediate. -/
  | vsetImm (m : BitVec 1) (p : BitVec 3) (c : BitVec 3) (n : BitVec 3) (a : BitVec 6) (i : BitVec 8) (t : BitVec 1)
  /-- `PAND` (R93). Predicate AND. -/
  | pand (m : BitVec 1) (p : BitVec 3) (d : BitVec 3) (a : BitVec 3) (b : BitVec 3)
  /-- `POR` (R93). Predicate OR. -/
  | por (m : BitVec 1) (p : BitVec 3) (d : BitVec 3) (a : BitVec 3) (b : BitVec 3)
  /-- `PXOR` (R93). Predicate XOR. -/
  | pxor (m : BitVec 1) (p : BitVec 3) (d : BitVec 3) (a : BitVec 3) (b : BitVec 3)
  /-- `PNOT` (R93). Predicate NOT. -/
  | pnot (m : BitVec 1) (p : BitVec 3) (d : BitVec 3) (a : BitVec 3)
  /-- `VMOV` (R94). Copies a vector register. -/
  | vmov (m : BitVec 1) (p : BitVec 3) (d : BitVec 6) (a : BitVec 6)
  /-- `VBCAST` (R94). Broadcasts the low word of a scalar to every active lane. -/
  | vbcast (m : BitVec 1) (p : BitVec 3) (d : BitVec 6) (a : BitVec 5)
  /-- `VLANE` (R94). Writes each lane's current lane number. -/
  | vlane (m : BitVec 1) (p : BitVec 3) (d : BitVec 6)
  /-- `VRAND` (R94). Advances each lane's generator state and writes it. -/
  | vrand (m : BitVec 1) (p : BitVec 3) (d : BitVec 6)
  /-- `VADD_IMM` (R85). Vector integer add of an immediate. -/
  | vaddImm (m : BitVec 1) (p : BitVec 3) (d : BitVec 6) (a : BitVec 6) (i : BitVec 8) (t : BitVec 1)
  /-- `VMUL_IMM` (R85). Vector integer multiply by an immediate. -/
  | vmulImm (m : BitVec 1) (p : BitVec 3) (d : BitVec 6) (a : BitVec 6) (i : BitVec 8) (t : BitVec 1)
  /-- `VSHL_IMM` (R88). Vector shift left by an immediate. -/
  | vshlImm (m : BitVec 1) (p : BitVec 3) (d : BitVec 6) (a : BitVec 6) (n : BitVec 5) (t : BitVec 1)
  /-- `VSHR_IMM` (R88). Vector logical shift right by an immediate. -/
  | vshrImm (m : BitVec 1) (p : BitVec 3) (d : BitVec 6) (a : BitVec 6) (n : BitVec 5) (t : BitVec 1)
  /-- `VSAR_IMM` (R88). Vector arithmetic shift right by an immediate. -/
  | vsarImm (m : BitVec 1) (p : BitVec 3) (d : BitVec 6) (a : BitVec 6) (n : BitVec 5) (t : BitVec 1)
  /-- `VMOV_IMM` (R94). Writes a sign-extended immediate to each active lane. -/
  | vmovImm (m : BitVec 1) (p : BitVec 3) (d : BitVec 6) (i : BitVec 8)
  /-- `VVOTE_ALL` (R108). Writes whether a predicate holds in all active lanes. -/
  | vvoteAll (m : BitVec 1) (p : BitVec 3) (d : BitVec 3) (a : BitVec 3)
  /-- `VVOTE_ANY` (R108). Writes whether a predicate holds in any active lane. -/
  | vvoteAny (m : BitVec 1) (p : BitVec 3) (d : BitVec 3) (a : BitVec 3)
  /-- `VVOTE_BALLOT` (R108). Writes a scalar bit mask of active lanes where a predicate holds. -/
  | vvoteBallot (m : BitVec 1) (p : BitVec 3) (d : BitVec 5) (a : BitVec 3)
  /-- `VSHFL` (R109). Reads a register from another lane chosen by index, up, down or xor mode. -/
  | vshfl (m : BitVec 1) (p : BitVec 3) (d : BitVec 6) (a : BitVec 6) (b : BitVec 5) (f : BitVec 2)
  /-- `VRED` (R110). Reduces the active lanes by the fixed pairwise tree. -/
  | vred (m : BitVec 1) (p : BitVec 3) (d : BitVec 6) (a : BitVec 6) (t : BitVec 2) (f : BitVec 3)
  /-- `VSCAN` (R110). Writes each lane's inclusive prefix by the fixed tree. -/
  | vscan (m : BitVec 1) (p : BitVec 3) (d : BitVec 6) (a : BitVec 6) (t : BitVec 2) (f : BitVec 3)
  /-- `VEXT` (R111). Extracts one lane's value into a scalar. -/
  | vext (m : BitVec 1) (p : BitVec 3) (d : BitVec 5) (a : BitVec 6) (b : BitVec 5)
  /-- `VINS` (R112). Inserts a scalar into one active lane. -/
  | vins (m : BitVec 1) (p : BitVec 3) (d : BitVec 6) (a : BitVec 5) (b : BitVec 5)
  /-- `VFADD` (R96). Vector floating-point add. -/
  | vfadd (m : BitVec 1) (p : BitVec 3) (d : BitVec 6) (a : BitVec 6) (b : BitVec 6) (t : BitVec 3)
  /-- `VFSUB` (R96). Vector floating-point subtract. -/
  | vfsub (m : BitVec 1) (p : BitVec 3) (d : BitVec 6) (a : BitVec 6) (b : BitVec 6) (t : BitVec 3)
  /-- `VFMUL` (R96). Vector floating-point multiply. -/
  | vfmul (m : BitVec 1) (p : BitVec 3) (d : BitVec 6) (a : BitVec 6) (b : BitVec 6) (t : BitVec 3)
  /-- `VFMA` (R96). Vector fused multiply-add with one rounding. -/
  | vfma (m : BitVec 1) (p : BitVec 3) (d : BitVec 6) (a : BitVec 6) (b : BitVec 6) (t : BitVec 3)
  /-- `VFMIN` (R97). Vector floating-point minimum. -/
  | vfmin (m : BitVec 1) (p : BitVec 3) (d : BitVec 6) (a : BitVec 6) (b : BitVec 6) (t : BitVec 3)
  /-- `VFMAX` (R97). Vector floating-point maximum. -/
  | vfmax (m : BitVec 1) (p : BitVec 3) (d : BitVec 6) (a : BitVec 6) (b : BitVec 6) (t : BitVec 3)
  /-- `VFSET` (R98). Writes a predicate from a floating-point comparison. -/
  | vfset (m : BitVec 1) (p : BitVec 3) (c : BitVec 3) (n : BitVec 3) (a : BitVec 6) (b : BitVec 6) (t : BitVec 3)
  /-- `VFRCP` (R99). Reciprocal rounded once. -/
  | vfrcp (m : BitVec 1) (p : BitVec 3) (d : BitVec 6) (a : BitVec 6) (t : BitVec 3)
  /-- `VFRSQ` (R99). Reciprocal square root rounded once. -/
  | vfrsq (m : BitVec 1) (p : BitVec 3) (d : BitVec 6) (a : BitVec 6) (t : BitVec 3)
  /-- `VFSQRT` (R99). Square root rounded once. -/
  | vfsqrt (m : BitVec 1) (p : BitVec 3) (d : BitVec 6) (a : BitVec 6) (t : BitVec 3)
  /-- `VFEX2` (R99). Base-2 exponential rounded once. -/
  | vfex2 (m : BitVec 1) (p : BitVec 3) (d : BitVec 6) (a : BitVec 6) (t : BitVec 3)
  /-- `VFLG2` (R99). Base-2 logarithm rounded once. -/
  | vflg2 (m : BitVec 1) (p : BitVec 3) (d : BitVec 6) (a : BitVec 6) (t : BitVec 3)
  /-- `VFSIN` (R99). Sine of pi times the operand. -/
  | vfsin (m : BitVec 1) (p : BitVec 3) (d : BitVec 6) (a : BitVec 6) (t : BitVec 3)
  /-- `VFCOS` (R99). Cosine of pi times the operand. -/
  | vfcos (m : BitVec 1) (p : BitVec 3) (d : BitVec 6) (a : BitVec 6) (t : BitVec 3)
  /-- `VCVT` (R102). Converts the lane's elements between formats. -/
  | vcvt (m : BitVec 1) (p : BitVec 3) (d : BitVec 6) (a : BitVec 6) (u : BitVec 4) (v : BitVec 4)
  /-- `VQUANT` (R103). Quantises a row into a narrow format with block scales and scale words. -/
  | vquant (m : BitVec 1) (p : BitVec 3) (d : BitVec 6) (a : BitVec 6) (u : BitVec 4)
  /-- `VDQ` (R105). Dequantises packed elements using their scale word. -/
  | vdq (m : BitVec 1) (p : BitVec 3) (d : BitVec 6) (a : BitVec 6) (u : BitVec 4)
  /-- `VCBDEC` (R106). Decodes two CB2 indices into sixteen E4M3 weights. -/
  | vcbdec (m : BitVec 1) (p : BitVec 3) (d : BitVec 6) (a : BitVec 6)
  /-- `VLD` (R114). Vector load at scalar base plus per-lane offset. -/
  | vld (m : BitVec 1) (p : BitVec 3) (d : BitVec 6) (a : BitVec 6) (b : BitVec 5) (w : BitVec 3)
  /-- `VLD_IMM` (R114). Vector word load at scalar base plus scaled immediate plus 4 times lane. -/
  | vldImm (m : BitVec 1) (p : BitVec 3) (d : BitVec 6) (a : BitVec 5) (i : BitVec 8)
  /-- `VST` (R115). Vector store at scalar base plus per-lane offset. -/
  | vst (m : BitVec 1) (p : BitVec 3) (d : BitVec 6) (a : BitVec 6) (b : BitVec 5) (w : BitVec 3)
  /-- `VST_IMM` (R115). Vector word store at scalar base plus scaled immediate. -/
  | vstImm (m : BitVec 1) (p : BitVec 3) (d : BitVec 6) (a : BitVec 5) (i : BitVec 8)
  /-- `VLDU` (R116). One load broadcast to every active lane. -/
  | vldu (m : BitVec 1) (p : BitVec 3) (d : BitVec 6) (b : BitVec 5) (w : BitVec 3)
  /-- `VPRF` (R117). Prefetch request for tile-cache lines; never faults. -/
  | vprf (m : BitVec 1) (p : BitVec 3) (a : BitVec 6) (b : BitVec 5)
  /-- `VLD_ACQ` (R118). Vector word load followed by one acquire at a scope. -/
  | vldAcq (m : BitVec 1) (p : BitVec 3) (d : BitVec 6) (a : BitVec 6) (b : BitVec 5) (k : BitVec 3)
  /-- `VST_REL` (R118). One release at a scope followed by a vector word store. -/
  | vstRel (m : BitVec 1) (p : BitVec 3) (d : BitVec 6) (a : BitVec 6) (b : BitVec 5) (k : BitVec 3)
  /-- `ATOM_ADD` (R239). Atomic fetch-add. -/
  | atomAdd (m : BitVec 1) (d : BitVec 5) (a : BitVec 5) (b : BitVec 5) (w : BitVec 1) (o : BitVec 2) (k : BitVec 3)
  /-- `ATOM_AND` (R239). Atomic fetch-AND. -/
  | atomAnd (m : BitVec 1) (d : BitVec 5) (a : BitVec 5) (b : BitVec 5) (w : BitVec 1) (o : BitVec 2) (k : BitVec 3)
  /-- `ATOM_OR` (R239). Atomic fetch-OR. -/
  | atomOr (m : BitVec 1) (d : BitVec 5) (a : BitVec 5) (b : BitVec 5) (w : BitVec 1) (o : BitVec 2) (k : BitVec 3)
  /-- `ATOM_XOR` (R239). Atomic fetch-XOR. -/
  | atomXor (m : BitVec 1) (d : BitVec 5) (a : BitVec 5) (b : BitVec 5) (w : BitVec 1) (o : BitVec 2) (k : BitVec 3)
  /-- `ATOM_MIN` (R239). Atomic minimum, signed or unsigned. -/
  | atomMin (m : BitVec 1) (d : BitVec 5) (a : BitVec 5) (b : BitVec 5) (u : BitVec 1) (w : BitVec 1) (o : BitVec 2) (k : BitVec 3)
  /-- `ATOM_MAX` (R239). Atomic maximum, signed or unsigned. -/
  | atomMax (m : BitVec 1) (d : BitVec 5) (a : BitVec 5) (b : BitVec 5) (u : BitVec 1) (w : BitVec 1) (o : BitVec 2) (k : BitVec 3)
  /-- `ATOM_XCHG` (R239). Atomic exchange. -/
  | atomXchg (m : BitVec 1) (d : BitVec 5) (a : BitVec 5) (b : BitVec 5) (w : BitVec 1) (o : BitVec 2) (k : BitVec 3)
  /-- `ATOM_CAS` (R239). Atomic compare-and-swap. -/
  | atomCas (m : BitVec 1) (d : BitVec 5) (a : BitVec 5) (b : BitVec 5) (w : BitVec 1) (o : BitVec 2) (k : BitVec 3)
  /-- `FENCE` (R236). Full fence: release then acquire at a scope. -/
  | fence (m : BitVec 1) (k : BitVec 3)
  /-- `FENCE_ACQ` (R236). Acquire fence at a scope. -/
  | fenceAcq (m : BitVec 1) (k : BitVec 3)
  /-- `FENCE_REL` (R236). Release fence at a scope. -/
  | fenceRel (m : BitVec 1) (k : BitVec 3)
  /-- `FENCE_FLUSH` (R236). Makes all earlier accesses visible at sys and cleans and invalidates the context's cached lines. -/
  | fenceFlush (m : BitVec 1)
  /-- `EVINC` (R242). Releasing 64-bit increment of an event counter that wakes its watchers. -/
  | evinc (m : BitVec 1) (a : BitVec 5) (b : BitVec 5) (k : BitVec 3)
  /-- `WAITA` (R243). Arms a watch and reads a word; suspends the unit while it equals the given value. -/
  | waita (m : BitVec 1) (d : BitVec 5) (a : BitVec 5) (b : BitVec 5)
  /-- `WAKEA` (R245). Wakes every unit waiting on a sector. -/
  | wakea (m : BitVec 1) (a : BitVec 5)
  /-- `TLD` (R249). Starts a tile transfer from a tensor tile into scratchpad. -/
  | tld (m : BitVec 1) (d : BitVec 5) (a : BitVec 5) (b : BitVec 5) (k : BitVec 3) (o : BitVec 2)
  /-- `TST` (R249). Starts a tile transfer from scratchpad into a tensor tile. -/
  | tst (m : BitVec 1) (d : BitVec 5) (a : BitVec 5) (b : BitVec 5) (k : BitVec 3) (o : BitVec 2)
  /-- `TCLN` (R252). Starts a write-back of the dirty sectors of a tile's lines. -/
  | tcln (m : BitVec 1) (d : BitVec 5) (b : BitVec 5) (k : BitVec 3)
  /-- `TINV` (R252). Starts a write-back and invalidation of a tile's lines. -/
  | tinv (m : BitVec 1) (d : BitVec 5) (b : BitVec 5) (k : BitVec 3)
  /-- `TDESC` (R253). Starts the replacement of a tensor descriptor entry from a memory image. -/
  | tdesc (m : BitVec 1) (d : BitVec 5) (a : BitVec 5) (b : BitVec 5)
  /-- `SPALLOC` (R254). Pins and zeroes tile-cache lines as fallback scratchpad, all or nothing. -/
  | spalloc (m : BitVec 1) (d : BitVec 5) (a : BitVec 5) (b : BitVec 5)
  /-- `SPFREE` (R255). Releases pinned fallback lines after the group's accesses to them complete. -/
  | spfree (m : BitVec 1) (a : BitVec 5) (b : BitVec 5)
  /-- `SPNEXT` (R256). Finds the next pinned range at or above an offset. -/
  | spnext (m : BitVec 1) (d : BitVec 5) (a : BitVec 5)
  /-- `QBIND` (R180). Binds a queue register to an engine queue, pool or stream queue. -/
  | qbind (m : BitVec 1) (q : BitVec 4) (s : BitVec 5)
  /-- `QPUSH` (R181). Pushes an entry from scalars into the bound queue, stalling while it is full. -/
  | qpush (m : BitVec 1) (q : BitVec 4) (s : BitVec 5) (n : BitVec 3)
  /-- `QPOP` (R181). Pops the oldest continuation entry of a pool into scalars, stalling while empty. -/
  | qpop (m : BitVec 1) (q : BitVec 4) (s : BitVec 5) (n : BitVec 3)
  /-- `QTRY_PUSH` (R181). Pushes when it would not stall and writes a success predicate. -/
  | qtryPush (m : BitVec 1) (q : BitVec 4) (s : BitVec 5) (n : BitVec 3) (f : BitVec 3)
  /-- `QTRY_POP` (R181). Pops when it would not stall and writes a success predicate. -/
  | qtryPop (m : BitVec 1) (q : BitVec 4) (s : BitVec 5) (n : BitVec 3) (f : BitVec 3)
  /-- `QSTAT` (R182). Writes a snapshot status word of the bound queue. -/
  | qstat (m : BitVec 1) (q : BitVec 4) (s : BitVec 5)
  /-- `TWAIT` (R314). Waits until a token is not pending, then reads it. -/
  | twait (m : BitVec 1) (a : BitVec 5)
  /-- `VQPOP` (R316). Pops 4 times W bytes from a stream queue into lanes. -/
  | vqpop (m : BitVec 1) (p : BitVec 3) (d : BitVec 6) (q : BitVec 4)
  /-- `ACWIN_SET` (R290). Leader sets a group's accumulator window after its tasks complete. -/
  | acwinSet (m : BitVec 1) (d : BitVec 5) (a : BitVec 5) (b : BitVec 5)
  /-- `ACWIN_CLAIM` (R290). Leader appends zeroed accumulator rows to the block's allotment or is refused. -/
  | acwinClaim (m : BitVec 1) (d : BitVec 5) (a : BitVec 5)
  /-- `ACWIN_FREE` (R290). Leader returns the top rows of the allotment to the core. -/
  | acwinFree (m : BitVec 1) (d : BitVec 5) (a : BitVec 5)
  /-- `ACRD` (R301). Reads accumulator elements into a vector register. -/
  | acrd (m : BitVec 1) (p : BitVec 3) (d : BitVec 6) (b : BitVec 5)
  /-- `ACWR` (R301). Writes a vector register into accumulator elements. -/
  | acwr (m : BitVec 1) (p : BitVec 3) (d : BitVec 6) (b : BitVec 5)
  /-- `ACCLR` (R302). Zeroes a range of accumulator rows of the window. -/
  | acclr (m : BitVec 1) (a : BitVec 5)
  /-- `SPK24` (R303). Packs 2:4 structured sparsity and writes metadata. -/
  | spk24 (m : BitVec 1) (p : BitVec 3) (d : BitVec 6) (a : BitVec 6) (b : BitVec 6)
  /-- `CBLD` (R304). Loads a CB2 shape table from memory and installs it whole. -/
  | cbld (m : BitVec 1) (a : BitVec 5)
  /-- `LACQ` (R326). Takes a hold on a resident layer, requesting and waiting for it when absent. -/
  | lacq (m : BitVec 1) (d : BitVec 5) (a : BitVec 5)
  /-- `LREL` (R327). Releases at dev and ends one hold on a layer. -/
  | lrel (m : BitVec 1) (a : BitVec 5)
  /-- `LSTAT` (R327). Reads a residency word with an acquire at dev. -/
  | lstat (m : BitVec 1) (d : BitVec 5) (a : BitVec 5)
  /-- `LSTAT_RETRY` (R327). Reads a residency word and moves a failed layer back to arriving with a new fetch request. -/
  | lstatRetry (m : BitVec 1) (d : BitVec 5) (a : BitVec 5)
  /-- `WDONE` (R346). Completes a continuation record after the group's engine work drains, with optional join decrement. -/
  | wdone (m : BitVec 1) (d : BitVec 5) (a : BitVec 5) (b : BitVec 5)
  /-- `WDONE_FAIL` (R346). Completes a continuation record with failed status. -/
  | wdoneFail (m : BitVec 1) (d : BitVec 5) (a : BitVec 5) (b : BitVec 5)
  /-- `WSIG` (R348). Raises a signal word to the maximum of old and new with a release at dev. -/
  | wsig (m : BitVec 1) (a : BitVec 5) (b : BitVec 5)
  /-- `QRESTART` (R349). Restarts a queue in error state from its repaired read index. -/
  | qrestart (m : BitVec 1) (d : BitVec 5) (a : BitVec 5)
  /-- `SHP_SET` (R365). Releases at sys and writes the shape slot's true count once. -/
  | shpSet (m : BitVec 1) (d : BitVec 5) (a : BitVec 5) (b : BitVec 5)
  /-- `SHP_GET` (R366). Writes the block's confirmation status and count. -/
  | shpGet (m : BitVec 1) (d : BitVec 5)
  /-- `SHP_CONF` (R367). Waits until the block is confirmed, acquires at sys and writes the true count. -/
  | shpConf (m : BitVec 1) (d : BitVec 5)
  /-- `SALLOC` (R368). Takes bytes from the block's arena slice by advancing its cursor. -/
  | salloc (m : BitVec 1) (d : BitVec 5) (a : BitVec 5)
  /-- `TRAP` (R194). Raises the trap-instruction cause with its code. -/
  | trap (m : BitVec 1) (i : BitVec 14)
  /-- `CSRR` (R195). Reads a control register into a scalar. -/
  | csrr (m : BitVec 1) (d : BitVec 5) (c : BitVec 12)
  /-- `CSRW` (R195). Writes a control register from a scalar, with the register's own checks. -/
  | csrw (m : BitVec 1) (a : BitVec 5) (c : BitVec 12)
  /-- `SEQSV` (R202). Writes the image of a frozen sequencer context to memory. -/
  | seqsv (m : BitVec 1) (d : BitVec 5) (a : BitVec 5) (b : BitVec 5)
  /-- `SEQLD` (R202). Loads a checked sequencer image into a frozen context. -/
  | seqld (m : BitVec 1) (d : BitVec 5) (a : BitVec 5) (b : BitVec 5)
  /-- `FRAGSV` (R204). Writes the group's unit state image to memory. -/
  | fragsv (m : BitVec 1) (d : BitVec 5) (a : BitVec 5)
  /-- `FRAGLD` (R204). Loads a checked unit state image into the group. -/
  | fragld (m : BitVec 1) (d : BitVec 5) (a : BitVec 5)
  /-- `RTE` (R206). Pushes the replay list, leaves trap mode and resumes every unit. -/
  | rte (m : BitVec 1)
  /-- `BRK` (R426). Raises the brk cause. -/
  | brk (m : BitVec 1)
  /-- `TMARK` (R426). Writes a MARK trace packet while trace is on. -/
  | tmark (m : BitVec 1) (a : BitVec 5)
  /-- `TSC` (R426). Reads the cluster cycle counter. -/
  | tsc (m : BitVec 1) (d : BitVec 5)
  /-- `TSR` (R426). Reads the reference time counter. -/
  | tsr (m : BitVec 1) (d : BitVec 5)
  /-- `HINT_IMM` (R44). Widens the immediate field of the next word. -/
  | hintImm (m : BitVec 1) (i : BitVec 24)
  /-- `HINT_MOD` (R45). Overrides rounding or forces saturation for the next word. -/
  | hintMod (m : BitVec 1) (r : BitVec 3) (s : BitVec 2)
  /-- `HINT_SCHED` (R46). Gives pairing advice for the next word. -/
  | hintSched (m : BitVec 1) (h : BitVec 1) (a : BitVec 2)
  /-- `ISSUE_CYCLE` (R341). A scheduler's issue cycle: arbitration, run continuation and dual issue. -/
  | issueCycle (core sched : Nat)
  /-- `SWITCH_UNPARK` (R34). A group parked by a switch marker returns to arbitration when its outstanding register writes complete. -/
  | switchUnpark (g u : Nat)
  /-- `INTERLOCK_REISSUE` (R35). A held instruction reissues after 8 cycles or at its operand's completion. -/
  | interlockReissue (g u : Nat)
  /-- `LOAD_COMPLETE` (R113). A memory access's data returns and its register write completes. -/
  | loadComplete (op : Nat)
  /-- `TAKEN_SIDE_READY` (R148). A detached taken-side fragment becomes ready once its target word is in the buffer. -/
  | takenSideReady (g u : Nat)
  /-- `QUEUE_STALL_RESUME` (R17). A push or pop stalled on a full or empty queue proceeds when room or an entry appears. -/
  | queueStallResume (g u : Nat)
  /-- `TAKE_RECORD` (R128). A receiver takes its next decision record, setting decision values and starting or ending. -/
  | takeRecord (p : Party)
  /-- `EMIT_SEGMENT` (R125). An upper context scans code and emits a segment record once every receiver has room. -/
  | emitSegment (c : Nat)
  /-- `UP_COMBINE` (R132). Once every live sender has sent, the context combines the values into its register. -/
  | upCombine (c : Nat)
  /-- `BARRIER_RELEASE` (R173). A context waiting at bar resumes scanning once all receivers complete earlier records. -/
  | barrierRelease (c : Nat)
  /-- `UPPER_CONTEXT_FAULT_DELIVERY` (R193). The reporting group takes a frozen upper context's fault at its next boundary. -/
  | upperContextFaultDelivery (c : Nat)
  /-- `WATCHED_SECTOR_WRITE` (R244). A write to a watched sector wakes suspended units and waiters. -/
  | watchedSectorWrite (sector : Nat)
  /-- `TICK_1MS` (R135). The 1 ms reference tick wakes suspended units and retests wait packets and shape slots. -/
  | tick1ms
  /-- `WATCH_ENTRY_GRANT` (R246). A unit waiting for a free watch entry takes it and tests and arms as one action. -/
  | watchEntryGrant (core : Nat)
  /-- `BLOCK_RETIRE` (R137). After every group completes and drains, suspend.b writes the block to a suspension slot and frees its core. -/
  | blockRetire (b : Nat)
  /-- `REGROUP_COMPLETE` (R159). After the last arrival the live lanes move and the participants resume. -/
  | regroupComplete (g : Nat)
  /-- `PLACER_TAKE_ENTRY` (R340). The cluster's placer takes a launch or resume entry and places blocks where room allows. -/
  | placerTakeEntry (cl : Nat)
  /-- `MATRIX_TASK_START` (R295). The tile scheduler starts the oldest ready task on a free engine. -/
  | matrixTaskStart (core : Nat)
  /-- `MATRIX_TASK_COMMIT` (R296). A task commits its result rows, writes its completion word and ORs its flags. -/
  | matrixTaskCommit (core eng : Nat)
  /-- `COPY_COMMAND_START` (R308). A channel starts its next command once the previous has written its last byte. -/
  | copyCommandStart (cl ch : Nat)
  /-- `COPY_COMMAND_COMPLETE` (R312). A copy command ends and writes its completion word after any release. -/
  | copyCommandComplete (cl ch : Nat)
  /-- `STREAM_DELIVERY` (R315). Stream bytes enter the stream queue as room frees. -/
  | streamDelivery (core sq : Nat)
  /-- `TILE_TRANSFER_COMPLETE` (R249). A tile transfer finishes moving its sectors and writes its status word. -/
  | tileTransferComplete (op : Nat)
  /-- `CACHE_MAINTENANCE_COMPLETE` (R252). All write-backs of tcln or tinv are acknowledged and the status is written. -/
  | cacheMaintenanceComplete (op : Nat)
  /-- `TDESC_COMPLETE` (R253). The new descriptor is in use on every core and the status is written. -/
  | tdescComplete (op : Nat)
  /-- `ATOMIC_REPLY` (R277). A remote atomic's reply returns and writes its destination. -/
  | atomicReply (op : Nat)
  /-- `WALK_REQUEST` (R394). A walker engine takes a translation request, merging identical ones. -/
  | walkRequest (req : Nat)
  /-- `WALK_COMPLETE` (R395). A routine ends with a leaf, not present or malformed, delivered to requesters. -/
  | walkComplete (wlk : Nat)
  /-- `FAULT_RING_POLL` (R434). The walker rereads FRIDX every 1 µs to write a held fault record. -/
  | faultRingPoll (asid : Nat)
  /-- `PARKED_REISSUE` (R121). After its walk the parked group reissues the instruction under its unfinished mask. -/
  | parkedReissue (g u : Nat)
  /-- `ASYNC_TRAP_ENTRY` (R191). A pending asynchronous request is taken at each unit's next instruction boundary. -/
  | asyncTrapEntry (g : Nat)
  /-- `PREEMPTION_REQUEST` (R197). The manager pre-empts a grid: contexts freeze and every group takes cause 24. -/
  | preemptionRequest (grid : Nat) (tag : BitVec 64)
  /-- `PREEMPT_TASK_DEADLINE` (R199). At 2 µs after the request incomplete matrix tasks are abandoned to the replay list. -/
  | preemptTaskDeadline (grid : Nat)
  /-- `PREEMPT_COPY_DEADLINE` (R199). At 8 µs after the request undrained copy commands are cancelled to the replay list. -/
  | preemptCopyDeadline (grid : Nat)
  /-- `SAMPLING_POINT` (R420). Every 2^SMPJ cycles a scheduler writes a sample record of one group. -/
  | samplingPoint (core sched : Nat)
  /-- `TRACE_OVF_WRITE` (R423). After a drop the device writes an OVF packet as soon as one fits. -/
  | traceOvfWrite (core : Nat)
  /-- `QUEUE_MAP` (R334). The manager maps a waiting queue to a free or reclaimed Fentos thread. -/
  | queueMap (q : Nat)
  /-- `WAIT_PACKET_SATISFIED` (R335). A Fentos thread's wait packet condition holds and the thread resumes. -/
  | waitPacketSatisfied (thread : Nat)
  /-- `FETCH_RECORD` (R336). A thread reads and validates the next work record of its queue. -/
  | fetchRecord (q : Nat)
  /-- `POOL_PUSH` (R336). A thread pushes the entry into the target pool when room exists and wakes sleepers. -/
  | poolPush (q : Nat)
  /-- `RETIREMENT` (R345). The oldest completed record retires: join decrement, STATUS, signal and RIDX. -/
  | retirement (q : Nat)
  /-- `RUNG_COMPLETE` (R350). All paths acknowledge the new generation; the rung reports and re-pushes or completes records. -/
  | rungComplete (rung : Nat)
  /-- `CONFIRMATION` (R358). The grid reads a valid shape slot and confirms, trims or squashes blocks. -/
  | confirmation (grid : Nat)
  /-- `LAYER_FETCH_START` (R323). A model context starts fetching its lowest arriving layer, evicting if the pool lacks pages. -/
  | layerFetchStart (mdl : Nat)
  /-- `EVICTION_COMPLETE` (R322). An evicting layer's pages are unmapped and it becomes absent with a release. -/
  | evictionComplete (mdl layer : Nat)
  /-- `CREATE_PARTITION` (R435). OP 1 creates a partition and raises timed clusters to FLOOR. -/
  | createPartition (r : Request)
  /-- `CREATE_CONTEXT` (R435). OP 2 creates a context with an ASID and address-space entry. -/
  | createContext (r : Request)
  /-- `DESTROY_CONTEXT` (R435). OP 2 destroys a context. -/
  | destroyContext (r : Request)
  /-- `CREATE_QUEUE` (R337). OP 3 creates a queue and sets its state. -/
  | createQueue (r : Request)
  /-- `DESTROY_QUEUE` (R435). OP 3 destroys a queue. -/
  | destroyQueue (r : Request)
  /-- `LOAD_IMAGE` (R375). OP 4 checks and loads a Tuithen image, writing its status. -/
  | loadImage (r : Request)
  /-- `REGISTER_MODEL_CONTEXT` (R321). OP 5 registers a model context and writes every residency word. -/
  | registerModelContext (r : Request)
  /-- `INVALIDATE` (R398). OP 6 invalidates translations for an ASID range. -/
  | invalidate (r : Request)
  /-- `FAULT_REPLY_RETRY` (R396). OP 7 retry answers a fault record and reruns the walk. -/
  | faultReplyRetry (r : Request)
  /-- `FAULT_REPLY_FAIL` (R396). OP 7 fail answers a fault record and gives requesters the precise fault. -/
  | faultReplyFail (r : Request)
  /-- `PREEMPT_GRID` (R197). OP 8 pre-empt requests pre-emption of a grid with a tag. -/
  | preemptGrid (r : Request)
  /-- `RESTORE_GRID` (R207). OP 8 restore releases a waiting restore launch record. -/
  | restoreGrid (r : Request)
  /-- `RESET_QUEUE` (R351). OP 9 queue rung. -/
  | resetQueue (r : Request)
  /-- `SET_STOPALL` (R417). OP 10 sets or clears STOPALL for a PID. -/
  | setStopall (r : Request)
  /-- `FLL_STEP` (R401). A cluster FLL moves one 25 MHz step per 100 ns toward its target. -/
  | fllStep (cl : Nat)
  /-- `CURRENT_WINDOW_END` (R404). Every 16 cycles the cluster updates its current record. -/
  | currentWindowEnd (cl : Nat)
  /-- `STRETCH_END` (R406). After 6 stretched cycles the clock returns to normal and half issue runs. -/
  | stretchEnd (cl : Nat)
  /-- `HALF_ISSUE_END` (R406). After 64 cycles of half issue dual issue resumes. -/
  | halfIssueEnd (cl : Nat)
  /-- `WATCHDOG_FIRE` (R410). A hang watchdog reaches its limit and is reported to the manager. -/
  | watchdogFire (dog : Watchdog)
  /-- `DIRTY_SECTOR_WRITE_BACK` (R268). A dirty sector is written back when its line is replaced, making a plain store visible beyond its core at a moment the device does not state. -/
  | dirtySectorWriteBack (core asid tid : Nat) (sector : Nat)
  /-- `SYSTEM_CHANNEL_COMMAND` (R309). The manager's command on a copy engine's system channel, such as a page zero fill. -/
  | systemChannelCommand (cl : Nat) (w : List (BitVec 64))
  /-- `HOST_ATOMICOP_COMPLETION` (R275). A PCIe AtomicOp completion returns, or Unsupported Request raises the page-kind fault. -/
  | hostAtomicopCompletion (op : Nat) (unsupported : Bool)
  /-- `DEBUG_HALT` (R417). A stop of a PID makes its groups take cause 26 and halts its harts. -/
  | debugHalt (pid : BitVec 24)
  /-- `CONTAINMENT` (R26). An uncorrectable error fences its unit, logs it and faults the consuming access. -/
  | containment (unit : FenceUnit)
  /-- `LAYER_FETCH_END` (R322). A fetch ends and the layer is published resident or marked failed. -/
  | layerFetchEnd (mdl : Nat) (outcome : FetchOutcome)
  /-- `HOST_POSTED_WRITE` (R274). A PCIe or CXL.io posted write from the host or a device reaches HBM. -/
  | hostPostedWrite (req : Requester) (addr : Nat) (data : List (BitVec 8)) (relaxed : Bool)
  /-- `HOST_READ` (R274). A PCIe read from the host or a device is performed after earlier posted writes. -/
  | hostRead (req : Requester) (addr n : Nat)
  /-- `PAGE_REQUEST` (R399). A root-port device's page request enters the replayable fault path. -/
  | pageRequest (port : Nat) (pasid : Option Nat) (va : BitVec 64) (cls : Nat)
  /-- `ATS_TRANSLATION_REQUEST` (R399). A root-port device asks for an address translation. -/
  | atsTranslationRequest (device : PortFunction) (pasid : Option Nat) (va : BitVec 64) (cls : Nat)
  /-- `PEER_ACCESS` (R276). An access of `n` bytes from a peer module arrives over Odsil Link and is performed at the L2. -/
  | peerAccess (port addr n : Nat) (op : PeerOp)
  /-- `FLIT_RECEIVE` (R437). A link port receives and acknowledges a flit. -/
  | flitReceive (port : Nat) (seq : BitVec 16)
  /-- `FLIT_REPLAY_TIMEOUT` (R437). An unacknowledged flit is replayed after 2 µs; after 8 replays the port goes down. -/
  | flitReplayTimeout (port : Nat)
  /-- `BOOT` (R427). Power-on or whole-device reset runs the boot stages. -/
  | boot
  /-- `RQWIDX_DOORBELL` (R433). A host write to RQWIDX signals new requests in the function's ring. -/
  | rqwidxDoorbell (fn : Nat) (value : BitVec 64)
  /-- `RQCFG_WRITE` (R433). A write to RQCFG enables or disables request taking. -/
  | rqcfgWrite (fn : Nat) (value : BitVec 64)
  /-- `FNSTAT_WRITE` (R433). A write of 1 clears the function's ERR bit. -/
  | fnstatWrite (fn : Nat) (value : BitVec 64)
  /-- `REGISTER_WRITE` (R414). A write to a register with no behaviour of its own, checked for reserved values. -/
  | registerWrite (reg : DevReg) (value : BitVec 64)
  /-- `RESET_ENGINE` (R351). OP 9 engine rung. -/
  | resetEngine (r : Request)
  /-- `RESET_PARTITION` (R351). OP 9 partition rung. -/
  | resetPartition (r : Request)
  /-- `RESET_DIE` (R351). OP 9 die rung. -/
  | resetDie (r : Request)
  /-- `FUNCTION_LEVEL_RESET` (R351). Function-level reset of one host-visible function. -/
  | functionLevelReset (r : Request)
  /-- `WHOLE_DEVICE_RESET` (R351). Whole-device reset erases keys and ends all work. -/
  | wholeDeviceReset (r : Request)
  /-- `PROVISIONING_MESSAGE` (R373). A key-0-signed MCTP message writes keys, firmware flags and floors. -/
  | provisioningMessage (msg : ProvisionMsg)
  /-- `KEY_SLOT_LOAD` (R400). The management controller loads, replaces or erases an encryption key slot. -/
  | keySlotLoad (slot : Nat) (erase : Bool)
  /-- `RACK_CAP_MESSAGE` (R411). A newer PLDM cap message applies at once with its lease. -/
  | rackCapMessage (seq : BitVec 32) (cap : BitVec 16) (lease : BitVec 32)
  /-- `CAP_LEASE_EXPIRY` (R411). An expired lease sets the cap to FBCAP. -/
  | capLeaseExpiry
  /-- `DROOP_TRIP` (R406). The rail falls below threshold and starts stretch and half issue. -/
  | droopTrip (cl droopMv : Nat)
  /-- `BELLOWS_SAMPLE` (R409). Every 1 µs the network-on-chip controller steps its frequency by queue occupancy. -/
  | bellowsSample (die occupied capacity : Nat)
  /-- `LINK_PORT_RETRAIN` (R437). System software retrains a link port that has gone down, so that it carries flits again. -/
  | linkPortRetrain (port : Nat)
  /-- `ATS_INVALIDATE_COMPLETION` (R398). A root-port device reports that it has dropped the ATS translations covered by an invalidation. -/
  | atsInvalidateCompletion (port inv : Nat)
  /-- `SYSTEM_CORE_ACCESS` (R273). A system-core hart performs a load, store, AMO or FENCE on module memory under its page kind. -/
  | systemCoreAccess (hart : Nat) (acc : HartAccess)
deriving DecidableEq, Repr

end Sys2Proof
end

