-- ==== Sys2Proof/Decode.lean ====
section
/-!
DEFINITION. Decoding and encoding of the 32-bit instruction word (R33, R36, R47), from the opcode map: total on any
bytes, refusing by name. A word that no row of the map covers is no instruction (R48). The fields of a row are taken out
here, once; whether their codes are allowed is the check of the unit that executes the word (R49, R50).
-/

namespace Sys2Proof

/-- Why bytes are not an instruction word. -/
inductive DecodeError where
  /-- Fewer than four bytes. -/
  | truncated
  /-- The opcode is 0x00, 0x7F or unassigned (R48). -/
  | unassignedOpcode
  /-- The function value is not listed, or a reserved field is not zero (R48). -/
  | reservedField
deriving DecidableEq, Repr

/-- The `n` bits of `w` from bit `lo` up. -/
def fld (w lo n : Nat) : Nat := w / 2 ^ lo % 2 ^ n

/-- The `n` bits of `w` from bit `lo` up, as bits. -/
def bfld (w lo n : Nat) : BitVec n := BitVec.ofNat n (w / 2 ^ lo)

/-- The rows of opcode 0x01 (R47). -/
def decodeOp01 (w : Nat) : Except DecodeError Instr :=
  .ok (.br (bfld w 31 1) (bfld w 21 3) (bfld w 16 5) (bfld w 0 16))

/-- The rows of opcode 0x02 (R47). -/
def decodeOp02 (w : Nat) : Except DecodeError Instr :=
  if fld w 16 5 = 0 then
    .ok (.jmp (bfld w 31 1) (bfld w 21 3) (bfld w 0 16))
  else
  .error .reservedField

/-- The rows of opcode 0x03 (R47). -/
def decodeOp03 (w : Nat) : Except DecodeError Instr :=
  if fld w 16 5 = 0 then
    .ok (.call (bfld w 31 1) (bfld w 21 3) (bfld w 0 16))
  else
  .error .reservedField

/-- The rows of opcode 0x04 (R47). -/
def decodeOp04 (w : Nat) : Except DecodeError Instr :=
  if fld w 0 21 = 0 then
    .ok (.ret (bfld w 31 1) (bfld w 21 3))
  else
  .error .reservedField

/-- The rows of opcode 0x05 (R47). -/
def decodeOp05 (w : Nat) : Except DecodeError Instr :=
  .ok (.loop (bfld w 31 1) (bfld w 21 3) (bfld w 16 5) (bfld w 0 16))

/-- The rows of opcode 0x06 (R47). -/
def decodeOp06 (w : Nat) : Except DecodeError Instr :=
  if fld w 0 16 = 0 then
    .ok (.lbrk (bfld w 31 1) (bfld w 21 3) (bfld w 16 5))
  else
  .error .reservedField

/-- The rows of opcode 0x07 (R47). -/
def decodeOp07 (w : Nat) : Except DecodeError Instr :=
  if fld w 0 21 = 0 then
    .ok (.bar (bfld w 31 1) (bfld w 21 3))
  else
  .error .reservedField

/-- The rows of opcode 0x08 (R47). -/
def decodeOp08 (w : Nat) : Except DecodeError Instr :=
  if fld w 0 24 = 0 then
    .ok (.nop (bfld w 31 1))
  else
  if fld w 0 24 = 1 then
    .ok (.rcv (bfld w 31 1))
  else
  if fld w 0 24 = 2 then
    .ok (.exit (bfld w 31 1))
  else
  if fld w 0 24 = 3 then
    .ok (.maskAll (bfld w 31 1))
  else
  if fld w 0 24 = 4 then
    .ok (.maskRest (bfld w 31 1))
  else
  if fld w 0 24 = 5 then
    .ok (.yield (bfld w 31 1))
  else
  .error .reservedField

/-- The rows of opcode 0x09 (R47). -/
def decodeOp09 (w : Nat) : Except DecodeError Instr :=
  if fld w 0 3 = 0 ∧ fld w 9 5 = 0 then
    .ok (.up (bfld w 31 1) (bfld w 19 5) (bfld w 14 5) (bfld w 6 3) (bfld w 3 3))
  else
  .error .reservedField

/-- The rows of opcode 0x0A (R47). -/
def decodeOp0A (w : Nat) : Except DecodeError Instr :=
  if fld w 0 6 = 0 ∧ fld w 9 5 = 0 then
    .ok (.downSend (bfld w 31 1) (bfld w 19 5) (bfld w 14 5) (bfld w 6 3))
  else
  if fld w 0 6 = 32 ∧ fld w 9 5 = 0 then
    .ok (.downRead (bfld w 31 1) (bfld w 19 5) (bfld w 14 5) (bfld w 6 3))
  else
  .error .reservedField

/-- The rows of opcode 0x0B (R47). -/
def decodeOp0B (w : Nat) : Except DecodeError Instr :=
  if fld w 0 14 = 0 then
    .ok (.claim (bfld w 31 1) (bfld w 19 5) (bfld w 14 5))
  else
  if fld w 0 14 = 1 ∧ fld w 19 5 = 0 then
    .ok (.giveback (bfld w 31 1) (bfld w 14 5))
  else
  if fld w 0 14 = 2 ∧ fld w 19 5 = 0 then
    .ok (.vwin (bfld w 31 1) (bfld w 14 5))
  else
  if fld w 0 14 = 3 then
    .ok (.regroup (bfld w 31 1) (bfld w 19 5) (bfld w 14 5))
  else
  if fld w 0 14 = 4 ∧ fld w 19 5 = 0 then
    .ok (.role (bfld w 31 1) (bfld w 14 5))
  else
  .error .reservedField

/-- The rows of opcode 0x0C (R47). -/
def decodeOp0C (w : Nat) : Except DecodeError Instr :=
  if fld w 0 9 = 0 then
    .ok (.spawn (bfld w 31 1) (bfld w 19 5) (bfld w 14 5) (bfld w 9 5))
  else
  .error .reservedField

/-- The rows of opcode 0x0D (R47). -/
def decodeOp0D (w : Nat) : Except DecodeError Instr :=
  .ok (.suspend (bfld w 31 1) (bfld w 21 3) (bfld w 16 5) (bfld w 0 16))

/-- The rows of opcode 0x0E (R47). -/
def decodeOp0E (w : Nat) : Except DecodeError Instr :=
  if fld w 0 14 = 0 ∧ fld w 19 5 = 0 then
    .ok (.fmtSet (bfld w 31 1) (bfld w 14 5))
  else
  if fld w 0 19 = 1 then
    .ok (.fmtGet (bfld w 31 1) (bfld w 19 5))
  else
  .error .reservedField

/-- The rows of opcode 0x10 (R47). -/
def decodeOp10 (w : Nat) : Except DecodeError Instr :=
  if fld w 0 7 = 0 then
    .ok (.sadd (bfld w 31 1) (bfld w 19 5) (bfld w 14 5) (bfld w 9 5) (bfld w 7 2))
  else
  if fld w 0 7 = 16 then
    .ok (.ssub (bfld w 31 1) (bfld w 19 5) (bfld w 14 5) (bfld w 9 5) (bfld w 7 2))
  else
  if fld w 0 7 = 32 then
    .ok (.smul (bfld w 31 1) (bfld w 19 5) (bfld w 14 5) (bfld w 9 5) (bfld w 7 2))
  else
  if fld w 0 7 = 48 then
    .ok (.smulh (bfld w 31 1) (bfld w 19 5) (bfld w 14 5) (bfld w 9 5) (bfld w 7 2))
  else
  if fld w 0 7 = 64 then
    .ok (.sdiv (bfld w 31 1) (bfld w 19 5) (bfld w 14 5) (bfld w 9 5) (bfld w 7 2))
  else
  if fld w 0 7 = 80 then
    .ok (.smin (bfld w 31 1) (bfld w 19 5) (bfld w 14 5) (bfld w 9 5) (bfld w 7 2))
  else
  if fld w 0 7 = 96 then
    .ok (.smax (bfld w 31 1) (bfld w 19 5) (bfld w 14 5) (bfld w 9 5) (bfld w 7 2))
  else
  .error .reservedField

/-- The rows of opcode 0x11 (R47). -/
def decodeOp11 (w : Nat) : Except DecodeError Instr :=
  if fld w 0 7 = 0 then
    .ok (.sand (bfld w 31 1) (bfld w 19 5) (bfld w 14 5) (bfld w 9 5) (bfld w 7 2))
  else
  if fld w 0 7 = 16 then
    .ok (.sor (bfld w 31 1) (bfld w 19 5) (bfld w 14 5) (bfld w 9 5) (bfld w 7 2))
  else
  if fld w 0 7 = 32 then
    .ok (.sxor (bfld w 31 1) (bfld w 19 5) (bfld w 14 5) (bfld w 9 5) (bfld w 7 2))
  else
  if fld w 0 7 = 48 then
    .ok (.sshl (bfld w 31 1) (bfld w 19 5) (bfld w 14 5) (bfld w 9 5) (bfld w 7 2))
  else
  if fld w 0 7 = 64 then
    .ok (.sshr (bfld w 31 1) (bfld w 19 5) (bfld w 14 5) (bfld w 9 5) (bfld w 7 2))
  else
  if fld w 0 7 = 80 then
    .ok (.ssar (bfld w 31 1) (bfld w 19 5) (bfld w 14 5) (bfld w 9 5) (bfld w 7 2))
  else
  .error .reservedField

/-- The rows of opcode 0x12 (R47). -/
def decodeOp12 (w : Nat) : Except DecodeError Instr :=
  if fld w 0 4 = 0 then
    .ok (.sset (bfld w 31 1) (bfld w 19 5) (bfld w 14 5) (bfld w 9 5) (bfld w 7 2) (bfld w 4 3))
  else
  .error .reservedField

/-- The rows of opcode 0x13 (R47). -/
def decodeOp13 (w : Nat) : Except DecodeError Instr :=
  if fld w 5 4 = 0 then
    .ok (.ssel (bfld w 31 1) (bfld w 19 5) (bfld w 14 5) (bfld w 9 5) (bfld w 0 5))
  else
  .error .reservedField

/-- The rows of opcode 0x14 (R47). -/
def decodeOp14 (w : Nat) : Except DecodeError Instr :=
  .ok (.sli (bfld w 31 1) (bfld w 19 5) (bfld w 14 5) (bfld w 0 14))

/-- The rows of opcode 0x15 (R47). -/
def decodeOp15 (w : Nat) : Except DecodeError Instr :=
  .ok (.slui (bfld w 31 1) (bfld w 19 5) (bfld w 14 5) (bfld w 0 14))

/-- The rows of opcode 0x16 (R47). -/
def decodeOp16 (w : Nat) : Except DecodeError Instr :=
  if fld w 0 1 = 0 then
    .ok (.sld (bfld w 31 1) (bfld w 19 5) (bfld w 14 5) (bfld w 9 5) (bfld w 7 2) (bfld w 6 1) (bfld w 4 2) (bfld w 1 3))
  else
  .error .reservedField

/-- The rows of opcode 0x17 (R47). -/
def decodeOp17 (w : Nat) : Except DecodeError Instr :=
  if fld w 0 1 = 0 ∧ fld w 6 1 = 0 then
    .ok (.sst (bfld w 31 1) (bfld w 19 5) (bfld w 14 5) (bfld w 9 5) (bfld w 7 2) (bfld w 4 2) (bfld w 1 3))
  else
  .error .reservedField

/-- The rows of opcode 0x20 (R47). -/
def decodeOp20 (w : Nat) : Except DecodeError Instr :=
  .ok (.vadd (bfld w 31 1) (bfld w 21 3) (bfld w 15 6) (bfld w 9 6) (bfld w 3 6) (bfld w 0 3))

/-- The rows of opcode 0x21 (R47). -/
def decodeOp21 (w : Nat) : Except DecodeError Instr :=
  .ok (.vsub (bfld w 31 1) (bfld w 21 3) (bfld w 15 6) (bfld w 9 6) (bfld w 3 6) (bfld w 0 3))

/-- The rows of opcode 0x22 (R47). -/
def decodeOp22 (w : Nat) : Except DecodeError Instr :=
  .ok (.vmul (bfld w 31 1) (bfld w 21 3) (bfld w 15 6) (bfld w 9 6) (bfld w 3 6) (bfld w 0 3))

/-- The rows of opcode 0x23 (R47). -/
def decodeOp23 (w : Nat) : Except DecodeError Instr :=
  .ok (.vmulh (bfld w 31 1) (bfld w 21 3) (bfld w 15 6) (bfld w 9 6) (bfld w 3 6) (bfld w 0 3))

/-- The rows of opcode 0x24 (R47). -/
def decodeOp24 (w : Nat) : Except DecodeError Instr :=
  .ok (.vmad (bfld w 31 1) (bfld w 21 3) (bfld w 15 6) (bfld w 9 6) (bfld w 3 6) (bfld w 0 3))

/-- The rows of opcode 0x25 (R47). -/
def decodeOp25 (w : Nat) : Except DecodeError Instr :=
  .ok (.vmin (bfld w 31 1) (bfld w 21 3) (bfld w 15 6) (bfld w 9 6) (bfld w 3 6) (bfld w 0 3))

/-- The rows of opcode 0x26 (R47). -/
def decodeOp26 (w : Nat) : Except DecodeError Instr :=
  .ok (.vmax (bfld w 31 1) (bfld w 21 3) (bfld w 15 6) (bfld w 9 6) (bfld w 3 6) (bfld w 0 3))

/-- The rows of opcode 0x27 (R47). -/
def decodeOp27 (w : Nat) : Except DecodeError Instr :=
  if fld w 0 9 = 0 then
    .ok (.vabs (bfld w 31 1) (bfld w 21 3) (bfld w 15 6) (bfld w 9 6))
  else
  .error .reservedField

/-- The rows of opcode 0x28 (R47). -/
def decodeOp28 (w : Nat) : Except DecodeError Instr :=
  if fld w 0 3 = 0 then
    .ok (.vand (bfld w 31 1) (bfld w 21 3) (bfld w 15 6) (bfld w 9 6) (bfld w 3 6))
  else
  if fld w 0 3 = 1 then
    .ok (.vor (bfld w 31 1) (bfld w 21 3) (bfld w 15 6) (bfld w 9 6) (bfld w 3 6))
  else
  if fld w 0 3 = 2 then
    .ok (.vxor (bfld w 31 1) (bfld w 21 3) (bfld w 15 6) (bfld w 9 6) (bfld w 3 6))
  else
  if fld w 0 3 = 3 then
    .ok (.vandn (bfld w 31 1) (bfld w 21 3) (bfld w 15 6) (bfld w 9 6) (bfld w 3 6))
  else
  .error .reservedField

/-- The rows of opcode 0x29 (R47). -/
def decodeOp29 (w : Nat) : Except DecodeError Instr :=
  if fld w 0 3 = 0 then
    .ok (.vshl (bfld w 31 1) (bfld w 21 3) (bfld w 15 6) (bfld w 9 6) (bfld w 3 6))
  else
  if fld w 0 3 = 1 then
    .ok (.vshr (bfld w 31 1) (bfld w 21 3) (bfld w 15 6) (bfld w 9 6) (bfld w 3 6))
  else
  if fld w 0 3 = 2 then
    .ok (.vsar (bfld w 31 1) (bfld w 21 3) (bfld w 15 6) (bfld w 9 6) (bfld w 3 6))
  else
  .error .reservedField

/-- The rows of opcode 0x2A (R47). -/
def decodeOp2A (w : Nat) : Except DecodeError Instr :=
  if fld w 0 9 = 0 then
    .ok (.vclz (bfld w 31 1) (bfld w 21 3) (bfld w 15 6) (bfld w 9 6))
  else
  if fld w 0 9 = 1 then
    .ok (.vpopc (bfld w 31 1) (bfld w 21 3) (bfld w 15 6) (bfld w 9 6))
  else
  .error .reservedField

/-- The rows of opcode 0x2B (R47). -/
def decodeOp2B (w : Nat) : Except DecodeError Instr :=
  if fld w 1 2 = 0 then
    .ok (.vsat (bfld w 31 1) (bfld w 21 3) (bfld w 15 6) (bfld w 9 6) (bfld w 3 6) (bfld w 0 1))
  else
  .error .reservedField

/-- The rows of opcode 0x2C (R47). -/
def decodeOp2C (w : Nat) : Except DecodeError Instr :=
  .ok (.vsel (bfld w 31 1) (bfld w 21 3) (bfld w 15 6) (bfld w 9 6) (bfld w 3 6) (bfld w 0 3))

/-- The rows of opcode 0x2D (R47). -/
def decodeOp2D (w : Nat) : Except DecodeError Instr :=
  .ok (.vset (bfld w 31 1) (bfld w 21 3) (bfld w 18 3) (bfld w 15 3) (bfld w 9 6) (bfld w 3 6) (bfld w 0 3))

/-- The rows of opcode 0x2F (R47). -/
def decodeOp2F (w : Nat) : Except DecodeError Instr :=
  .ok (.vsetImm (bfld w 31 1) (bfld w 21 3) (bfld w 18 3) (bfld w 15 3) (bfld w 9 6) (bfld w 1 8) (bfld w 0 1))

/-- The rows of opcode 0x30 (R47). -/
def decodeOp30 (w : Nat) : Except DecodeError Instr :=
  if fld w 0 3 = 0 ∧ fld w 6 3 = 0 ∧ fld w 12 3 = 0 ∧ fld w 18 3 = 0 then
    .ok (.pand (bfld w 31 1) (bfld w 21 3) (bfld w 15 3) (bfld w 9 3) (bfld w 3 3))
  else
  if fld w 0 3 = 1 ∧ fld w 6 3 = 0 ∧ fld w 12 3 = 0 ∧ fld w 18 3 = 0 then
    .ok (.por (bfld w 31 1) (bfld w 21 3) (bfld w 15 3) (bfld w 9 3) (bfld w 3 3))
  else
  if fld w 0 3 = 2 ∧ fld w 6 3 = 0 ∧ fld w 12 3 = 0 ∧ fld w 18 3 = 0 then
    .ok (.pxor (bfld w 31 1) (bfld w 21 3) (bfld w 15 3) (bfld w 9 3) (bfld w 3 3))
  else
  if fld w 0 9 = 3 ∧ fld w 12 3 = 0 ∧ fld w 18 3 = 0 then
    .ok (.pnot (bfld w 31 1) (bfld w 21 3) (bfld w 15 3) (bfld w 9 3))
  else
  .error .reservedField

/-- The rows of opcode 0x31 (R47). -/
def decodeOp31 (w : Nat) : Except DecodeError Instr :=
  if fld w 0 9 = 0 then
    .ok (.vmov (bfld w 31 1) (bfld w 21 3) (bfld w 15 6) (bfld w 9 6))
  else
  if fld w 0 9 = 1 ∧ fld w 14 1 = 0 then
    .ok (.vbcast (bfld w 31 1) (bfld w 21 3) (bfld w 15 6) (bfld w 9 5))
  else
  if fld w 0 15 = 2 then
    .ok (.vlane (bfld w 31 1) (bfld w 21 3) (bfld w 15 6))
  else
  if fld w 0 15 = 3 then
    .ok (.vrand (bfld w 31 1) (bfld w 21 3) (bfld w 15 6))
  else
  .error .reservedField

/-- The rows of opcode 0x32 (R47). -/
def decodeOp32 (w : Nat) : Except DecodeError Instr :=
  .ok (.vaddImm (bfld w 31 1) (bfld w 21 3) (bfld w 15 6) (bfld w 9 6) (bfld w 1 8) (bfld w 0 1))

/-- The rows of opcode 0x33 (R47). -/
def decodeOp33 (w : Nat) : Except DecodeError Instr :=
  .ok (.vmulImm (bfld w 31 1) (bfld w 21 3) (bfld w 15 6) (bfld w 9 6) (bfld w 1 8) (bfld w 0 1))

/-- The rows of opcode 0x35 (R47). -/
def decodeOp35 (w : Nat) : Except DecodeError Instr :=
  if fld w 6 3 = 0 then
    .ok (.vshlImm (bfld w 31 1) (bfld w 21 3) (bfld w 15 6) (bfld w 9 6) (bfld w 1 5) (bfld w 0 1))
  else
  if fld w 6 3 = 2 then
    .ok (.vshrImm (bfld w 31 1) (bfld w 21 3) (bfld w 15 6) (bfld w 9 6) (bfld w 1 5) (bfld w 0 1))
  else
  if fld w 6 3 = 4 then
    .ok (.vsarImm (bfld w 31 1) (bfld w 21 3) (bfld w 15 6) (bfld w 9 6) (bfld w 1 5) (bfld w 0 1))
  else
  .error .reservedField

/-- The rows of opcode 0x36 (R47). -/
def decodeOp36 (w : Nat) : Except DecodeError Instr :=
  if fld w 0 1 = 0 ∧ fld w 9 6 = 0 then
    .ok (.vmovImm (bfld w 31 1) (bfld w 21 3) (bfld w 15 6) (bfld w 1 8))
  else
  .error .reservedField

/-- The rows of opcode 0x38 (R47). -/
def decodeOp38 (w : Nat) : Except DecodeError Instr :=
  if fld w 0 9 = 0 ∧ fld w 12 3 = 0 ∧ fld w 18 3 = 0 then
    .ok (.vvoteAll (bfld w 31 1) (bfld w 21 3) (bfld w 15 3) (bfld w 9 3))
  else
  if fld w 0 9 = 1 ∧ fld w 12 3 = 0 ∧ fld w 18 3 = 0 then
    .ok (.vvoteAny (bfld w 31 1) (bfld w 21 3) (bfld w 15 3) (bfld w 9 3))
  else
  if fld w 0 9 = 2 ∧ fld w 12 3 = 0 ∧ fld w 20 1 = 0 then
    .ok (.vvoteBallot (bfld w 31 1) (bfld w 21 3) (bfld w 15 5) (bfld w 9 3))
  else
  .error .reservedField

/-- The rows of opcode 0x39 (R47). -/
def decodeOp39 (w : Nat) : Except DecodeError Instr :=
  if fld w 2 1 = 0 ∧ fld w 8 1 = 0 then
    .ok (.vshfl (bfld w 31 1) (bfld w 21 3) (bfld w 15 6) (bfld w 9 6) (bfld w 3 5) (bfld w 0 2))
  else
  .error .reservedField

/-- The rows of opcode 0x3A (R47). -/
def decodeOp3A (w : Nat) : Except DecodeError Instr :=
  if fld w 5 4 = 0 then
    .ok (.vred (bfld w 31 1) (bfld w 21 3) (bfld w 15 6) (bfld w 9 6) (bfld w 3 2) (bfld w 0 3))
  else
  .error .reservedField

/-- The rows of opcode 0x3B (R47). -/
def decodeOp3B (w : Nat) : Except DecodeError Instr :=
  if fld w 5 4 = 0 then
    .ok (.vscan (bfld w 31 1) (bfld w 21 3) (bfld w 15 6) (bfld w 9 6) (bfld w 3 2) (bfld w 0 3))
  else
  .error .reservedField

/-- The rows of opcode 0x3C (R47). -/
def decodeOp3C (w : Nat) : Except DecodeError Instr :=
  if fld w 0 3 = 0 ∧ fld w 8 1 = 0 ∧ fld w 20 1 = 0 then
    .ok (.vext (bfld w 31 1) (bfld w 21 3) (bfld w 15 5) (bfld w 9 6) (bfld w 3 5))
  else
  .error .reservedField

/-- The rows of opcode 0x3D (R47). -/
def decodeOp3D (w : Nat) : Except DecodeError Instr :=
  if fld w 0 3 = 0 ∧ fld w 8 1 = 0 ∧ fld w 14 1 = 0 then
    .ok (.vins (bfld w 31 1) (bfld w 21 3) (bfld w 15 6) (bfld w 9 5) (bfld w 3 5))
  else
  .error .reservedField

/-- The rows of opcode 0x40 (R47). -/
def decodeOp40 (w : Nat) : Except DecodeError Instr :=
  .ok (.vfadd (bfld w 31 1) (bfld w 21 3) (bfld w 15 6) (bfld w 9 6) (bfld w 3 6) (bfld w 0 3))

/-- The rows of opcode 0x41 (R47). -/
def decodeOp41 (w : Nat) : Except DecodeError Instr :=
  .ok (.vfsub (bfld w 31 1) (bfld w 21 3) (bfld w 15 6) (bfld w 9 6) (bfld w 3 6) (bfld w 0 3))

/-- The rows of opcode 0x42 (R47). -/
def decodeOp42 (w : Nat) : Except DecodeError Instr :=
  .ok (.vfmul (bfld w 31 1) (bfld w 21 3) (bfld w 15 6) (bfld w 9 6) (bfld w 3 6) (bfld w 0 3))

/-- The rows of opcode 0x43 (R47). -/
def decodeOp43 (w : Nat) : Except DecodeError Instr :=
  .ok (.vfma (bfld w 31 1) (bfld w 21 3) (bfld w 15 6) (bfld w 9 6) (bfld w 3 6) (bfld w 0 3))

/-- The rows of opcode 0x44 (R47). -/
def decodeOp44 (w : Nat) : Except DecodeError Instr :=
  .ok (.vfmin (bfld w 31 1) (bfld w 21 3) (bfld w 15 6) (bfld w 9 6) (bfld w 3 6) (bfld w 0 3))

/-- The rows of opcode 0x45 (R47). -/
def decodeOp45 (w : Nat) : Except DecodeError Instr :=
  .ok (.vfmax (bfld w 31 1) (bfld w 21 3) (bfld w 15 6) (bfld w 9 6) (bfld w 3 6) (bfld w 0 3))

/-- The rows of opcode 0x46 (R47). -/
def decodeOp46 (w : Nat) : Except DecodeError Instr :=
  .ok (.vfset (bfld w 31 1) (bfld w 21 3) (bfld w 18 3) (bfld w 15 3) (bfld w 9 6) (bfld w 3 6) (bfld w 0 3))

/-- The rows of opcode 0x47 (R47). -/
def decodeOp47 (w : Nat) : Except DecodeError Instr :=
  if fld w 0 3 = 0 ∧ fld w 6 3 = 0 then
    .ok (.vfrcp (bfld w 31 1) (bfld w 21 3) (bfld w 15 6) (bfld w 9 6) (bfld w 3 3))
  else
  if fld w 0 3 = 1 ∧ fld w 6 3 = 0 then
    .ok (.vfrsq (bfld w 31 1) (bfld w 21 3) (bfld w 15 6) (bfld w 9 6) (bfld w 3 3))
  else
  if fld w 0 3 = 2 ∧ fld w 6 3 = 0 then
    .ok (.vfsqrt (bfld w 31 1) (bfld w 21 3) (bfld w 15 6) (bfld w 9 6) (bfld w 3 3))
  else
  if fld w 0 3 = 3 ∧ fld w 6 3 = 0 then
    .ok (.vfex2 (bfld w 31 1) (bfld w 21 3) (bfld w 15 6) (bfld w 9 6) (bfld w 3 3))
  else
  if fld w 0 3 = 4 ∧ fld w 6 3 = 0 then
    .ok (.vflg2 (bfld w 31 1) (bfld w 21 3) (bfld w 15 6) (bfld w 9 6) (bfld w 3 3))
  else
  if fld w 0 3 = 5 ∧ fld w 6 3 = 0 then
    .ok (.vfsin (bfld w 31 1) (bfld w 21 3) (bfld w 15 6) (bfld w 9 6) (bfld w 3 3))
  else
  if fld w 0 3 = 6 ∧ fld w 6 3 = 0 then
    .ok (.vfcos (bfld w 31 1) (bfld w 21 3) (bfld w 15 6) (bfld w 9 6) (bfld w 3 3))
  else
  .error .reservedField

/-- The rows of opcode 0x48 (R47). -/
def decodeOp48 (w : Nat) : Except DecodeError Instr :=
  if fld w 0 1 = 0 then
    .ok (.vcvt (bfld w 31 1) (bfld w 21 3) (bfld w 15 6) (bfld w 9 6) (bfld w 5 4) (bfld w 1 4))
  else
  .error .reservedField

/-- The rows of opcode 0x49 (R47). -/
def decodeOp49 (w : Nat) : Except DecodeError Instr :=
  if fld w 0 5 = 0 then
    .ok (.vquant (bfld w 31 1) (bfld w 21 3) (bfld w 15 6) (bfld w 9 6) (bfld w 5 4))
  else
  .error .reservedField

/-- The rows of opcode 0x4A (R47). -/
def decodeOp4A (w : Nat) : Except DecodeError Instr :=
  if fld w 0 5 = 0 then
    .ok (.vdq (bfld w 31 1) (bfld w 21 3) (bfld w 15 6) (bfld w 9 6) (bfld w 5 4))
  else
  .error .reservedField

/-- The rows of opcode 0x4B (R47). -/
def decodeOp4B (w : Nat) : Except DecodeError Instr :=
  if fld w 0 9 = 0 then
    .ok (.vcbdec (bfld w 31 1) (bfld w 21 3) (bfld w 15 6) (bfld w 9 6))
  else
  .error .reservedField

/-- The rows of opcode 0x50 (R47). -/
def decodeOp50 (w : Nat) : Except DecodeError Instr :=
  if fld w 8 1 = 0 then
    .ok (.vld (bfld w 31 1) (bfld w 21 3) (bfld w 15 6) (bfld w 9 6) (bfld w 3 5) (bfld w 0 3))
  else
  .error .reservedField

/-- The rows of opcode 0x51 (R47). -/
def decodeOp51 (w : Nat) : Except DecodeError Instr :=
  if fld w 0 1 = 0 ∧ fld w 14 1 = 0 then
    .ok (.vldImm (bfld w 31 1) (bfld w 21 3) (bfld w 15 6) (bfld w 9 5) (bfld w 1 8))
  else
  .error .reservedField

/-- The rows of opcode 0x52 (R47). -/
def decodeOp52 (w : Nat) : Except DecodeError Instr :=
  if fld w 8 1 = 0 then
    .ok (.vst (bfld w 31 1) (bfld w 21 3) (bfld w 15 6) (bfld w 9 6) (bfld w 3 5) (bfld w 0 3))
  else
  .error .reservedField

/-- The rows of opcode 0x53 (R47). -/
def decodeOp53 (w : Nat) : Except DecodeError Instr :=
  if fld w 0 1 = 0 ∧ fld w 14 1 = 0 then
    .ok (.vstImm (bfld w 31 1) (bfld w 21 3) (bfld w 15 6) (bfld w 9 5) (bfld w 1 8))
  else
  .error .reservedField

/-- The rows of opcode 0x54 (R47). -/
def decodeOp54 (w : Nat) : Except DecodeError Instr :=
  if fld w 8 7 = 0 then
    .ok (.vldu (bfld w 31 1) (bfld w 21 3) (bfld w 15 6) (bfld w 3 5) (bfld w 0 3))
  else
  .error .reservedField

/-- The rows of opcode 0x55 (R47). -/
def decodeOp55 (w : Nat) : Except DecodeError Instr :=
  if fld w 0 3 = 0 ∧ fld w 8 1 = 0 ∧ fld w 15 6 = 0 then
    .ok (.vprf (bfld w 31 1) (bfld w 21 3) (bfld w 9 6) (bfld w 3 5))
  else
  .error .reservedField

/-- The rows of opcode 0x56 (R47). -/
def decodeOp56 (w : Nat) : Except DecodeError Instr :=
  if fld w 8 1 = 0 then
    .ok (.vldAcq (bfld w 31 1) (bfld w 21 3) (bfld w 15 6) (bfld w 9 6) (bfld w 3 5) (bfld w 0 3))
  else
  .error .reservedField

/-- The rows of opcode 0x57 (R47). -/
def decodeOp57 (w : Nat) : Except DecodeError Instr :=
  if fld w 8 1 = 0 then
    .ok (.vstRel (bfld w 31 1) (bfld w 21 3) (bfld w 15 6) (bfld w 9 6) (bfld w 3 5) (bfld w 0 3))
  else
  .error .reservedField

/-- The rows of opcode 0x58 (R47). -/
def decodeOp58 (w : Nat) : Except DecodeError Instr :=
  if fld w 6 3 = 0 then
    .ok (.atomAdd (bfld w 31 1) (bfld w 19 5) (bfld w 14 5) (bfld w 9 5) (bfld w 5 1) (bfld w 3 2) (bfld w 0 3))
  else
  if fld w 6 3 = 1 then
    .ok (.atomAnd (bfld w 31 1) (bfld w 19 5) (bfld w 14 5) (bfld w 9 5) (bfld w 5 1) (bfld w 3 2) (bfld w 0 3))
  else
  if fld w 6 3 = 2 then
    .ok (.atomOr (bfld w 31 1) (bfld w 19 5) (bfld w 14 5) (bfld w 9 5) (bfld w 5 1) (bfld w 3 2) (bfld w 0 3))
  else
  if fld w 6 3 = 3 then
    .ok (.atomXor (bfld w 31 1) (bfld w 19 5) (bfld w 14 5) (bfld w 9 5) (bfld w 5 1) (bfld w 3 2) (bfld w 0 3))
  else
  if fld w 7 2 = 2 then
    .ok (.atomMin (bfld w 31 1) (bfld w 19 5) (bfld w 14 5) (bfld w 9 5) (bfld w 6 1) (bfld w 5 1) (bfld w 3 2) (bfld w 0 3))
  else
  if fld w 7 2 = 3 then
    .ok (.atomMax (bfld w 31 1) (bfld w 19 5) (bfld w 14 5) (bfld w 9 5) (bfld w 6 1) (bfld w 5 1) (bfld w 3 2) (bfld w 0 3))
  else
  .error .reservedField

/-- The rows of opcode 0x59 (R47). -/
def decodeOp59 (w : Nat) : Except DecodeError Instr :=
  if fld w 6 3 = 0 then
    .ok (.atomXchg (bfld w 31 1) (bfld w 19 5) (bfld w 14 5) (bfld w 9 5) (bfld w 5 1) (bfld w 3 2) (bfld w 0 3))
  else
  if fld w 6 3 = 4 then
    .ok (.atomCas (bfld w 31 1) (bfld w 19 5) (bfld w 14 5) (bfld w 9 5) (bfld w 5 1) (bfld w 3 2) (bfld w 0 3))
  else
  .error .reservedField

/-- The rows of opcode 0x5A (R47). -/
def decodeOp5A (w : Nat) : Except DecodeError Instr :=
  if fld w 3 21 = 0 then
    .ok (.fence (bfld w 31 1) (bfld w 0 3))
  else
  if fld w 3 21 = 1 then
    .ok (.fenceAcq (bfld w 31 1) (bfld w 0 3))
  else
  if fld w 3 21 = 2 then
    .ok (.fenceRel (bfld w 31 1) (bfld w 0 3))
  else
  if fld w 0 24 = 24 then
    .ok (.fenceFlush (bfld w 31 1))
  else
  .error .reservedField

/-- The rows of opcode 0x5B (R47). -/
def decodeOp5B (w : Nat) : Except DecodeError Instr :=
  if fld w 3 6 = 0 ∧ fld w 19 5 = 0 then
    .ok (.evinc (bfld w 31 1) (bfld w 14 5) (bfld w 9 5) (bfld w 0 3))
  else
  .error .reservedField

/-- The rows of opcode 0x5C (R47). -/
def decodeOp5C (w : Nat) : Except DecodeError Instr :=
  if fld w 0 9 = 0 then
    .ok (.waita (bfld w 31 1) (bfld w 19 5) (bfld w 14 5) (bfld w 9 5))
  else
  if fld w 0 14 = 1 ∧ fld w 19 5 = 0 then
    .ok (.wakea (bfld w 31 1) (bfld w 14 5))
  else
  .error .reservedField

/-- The rows of opcode 0x5D (R47). -/
def decodeOp5D (w : Nat) : Except DecodeError Instr :=
  if fld w 0 3 = 0 ∧ fld w 8 1 = 0 then
    .ok (.tld (bfld w 31 1) (bfld w 19 5) (bfld w 14 5) (bfld w 9 5) (bfld w 5 3) (bfld w 3 2))
  else
  if fld w 0 3 = 1 ∧ fld w 8 1 = 0 then
    .ok (.tst (bfld w 31 1) (bfld w 19 5) (bfld w 14 5) (bfld w 9 5) (bfld w 5 3) (bfld w 3 2))
  else
  if fld w 0 5 = 2 ∧ fld w 8 1 = 0 ∧ fld w 14 5 = 0 then
    .ok (.tcln (bfld w 31 1) (bfld w 19 5) (bfld w 9 5) (bfld w 5 3))
  else
  if fld w 0 5 = 3 ∧ fld w 8 1 = 0 ∧ fld w 14 5 = 0 then
    .ok (.tinv (bfld w 31 1) (bfld w 19 5) (bfld w 9 5) (bfld w 5 3))
  else
  if fld w 0 9 = 4 then
    .ok (.tdesc (bfld w 31 1) (bfld w 19 5) (bfld w 14 5) (bfld w 9 5))
  else
  .error .reservedField

/-- The rows of opcode 0x5E (R47). -/
def decodeOp5E (w : Nat) : Except DecodeError Instr :=
  if fld w 0 9 = 0 then
    .ok (.spalloc (bfld w 31 1) (bfld w 19 5) (bfld w 14 5) (bfld w 9 5))
  else
  if fld w 0 9 = 1 ∧ fld w 19 5 = 0 then
    .ok (.spfree (bfld w 31 1) (bfld w 14 5) (bfld w 9 5))
  else
  if fld w 0 14 = 2 then
    .ok (.spnext (bfld w 31 1) (bfld w 19 5) (bfld w 14 5))
  else
  .error .reservedField

/-- The rows of opcode 0x60 (R47). -/
def decodeOp60 (w : Nat) : Except DecodeError Instr :=
  if fld w 0 15 = 0 then
    .ok (.qbind (bfld w 31 1) (bfld w 20 4) (bfld w 15 5))
  else
  .error .reservedField

/-- The rows of opcode 0x61 (R47). -/
def decodeOp61 (w : Nat) : Except DecodeError Instr :=
  if fld w 0 12 = 0 then
    .ok (.qpush (bfld w 31 1) (bfld w 20 4) (bfld w 15 5) (bfld w 12 3))
  else
  .error .reservedField

/-- The rows of opcode 0x62 (R47). -/
def decodeOp62 (w : Nat) : Except DecodeError Instr :=
  if fld w 0 12 = 0 then
    .ok (.qpop (bfld w 31 1) (bfld w 20 4) (bfld w 15 5) (bfld w 12 3))
  else
  .error .reservedField

/-- The rows of opcode 0x63 (R47). -/
def decodeOp63 (w : Nat) : Except DecodeError Instr :=
  if fld w 0 1 = 0 ∧ fld w 4 8 = 0 then
    .ok (.qtryPush (bfld w 31 1) (bfld w 20 4) (bfld w 15 5) (bfld w 12 3) (bfld w 1 3))
  else
  if fld w 0 1 = 1 ∧ fld w 4 8 = 0 then
    .ok (.qtryPop (bfld w 31 1) (bfld w 20 4) (bfld w 15 5) (bfld w 12 3) (bfld w 1 3))
  else
  .error .reservedField

/-- The rows of opcode 0x64 (R47). -/
def decodeOp64 (w : Nat) : Except DecodeError Instr :=
  if fld w 0 15 = 0 then
    .ok (.qstat (bfld w 31 1) (bfld w 20 4) (bfld w 15 5))
  else
  .error .reservedField

/-- The rows of opcode 0x65 (R47). -/
def decodeOp65 (w : Nat) : Except DecodeError Instr :=
  if fld w 0 14 = 0 ∧ fld w 19 5 = 0 then
    .ok (.twait (bfld w 31 1) (bfld w 14 5))
  else
  .error .reservedField

/-- The rows of opcode 0x66 (R47). -/
def decodeOp66 (w : Nat) : Except DecodeError Instr :=
  if fld w 0 9 = 0 ∧ fld w 13 2 = 0 then
    .ok (.vqpop (bfld w 31 1) (bfld w 21 3) (bfld w 15 6) (bfld w 9 4))
  else
  .error .reservedField

/-- The rows of opcode 0x68 (R47). -/
def decodeOp68 (w : Nat) : Except DecodeError Instr :=
  if fld w 0 9 = 0 then
    .ok (.acwinSet (bfld w 31 1) (bfld w 19 5) (bfld w 14 5) (bfld w 9 5))
  else
  if fld w 0 14 = 1 then
    .ok (.acwinClaim (bfld w 31 1) (bfld w 19 5) (bfld w 14 5))
  else
  if fld w 0 14 = 2 then
    .ok (.acwinFree (bfld w 31 1) (bfld w 19 5) (bfld w 14 5))
  else
  .error .reservedField

/-- The rows of opcode 0x69 (R47). -/
def decodeOp69 (w : Nat) : Except DecodeError Instr :=
  if fld w 0 3 = 0 ∧ fld w 8 7 = 0 then
    .ok (.acrd (bfld w 31 1) (bfld w 21 3) (bfld w 15 6) (bfld w 3 5))
  else
  .error .reservedField

/-- The rows of opcode 0x6A (R47). -/
def decodeOp6A (w : Nat) : Except DecodeError Instr :=
  if fld w 0 3 = 0 ∧ fld w 8 7 = 0 then
    .ok (.acwr (bfld w 31 1) (bfld w 21 3) (bfld w 15 6) (bfld w 3 5))
  else
  .error .reservedField

/-- The rows of opcode 0x6B (R47). -/
def decodeOp6B (w : Nat) : Except DecodeError Instr :=
  if fld w 0 14 = 0 ∧ fld w 19 5 = 0 then
    .ok (.acclr (bfld w 31 1) (bfld w 14 5))
  else
  .error .reservedField

/-- The rows of opcode 0x6C (R47). -/
def decodeOp6C (w : Nat) : Except DecodeError Instr :=
  if fld w 0 3 = 0 then
    .ok (.spk24 (bfld w 31 1) (bfld w 21 3) (bfld w 15 6) (bfld w 9 6) (bfld w 3 6))
  else
  .error .reservedField

/-- The rows of opcode 0x6D (R47). -/
def decodeOp6D (w : Nat) : Except DecodeError Instr :=
  if fld w 0 14 = 0 ∧ fld w 19 5 = 0 then
    .ok (.cbld (bfld w 31 1) (bfld w 14 5))
  else
  .error .reservedField

/-- The rows of opcode 0x70 (R47). -/
def decodeOp70 (w : Nat) : Except DecodeError Instr :=
  if fld w 0 14 = 0 then
    .ok (.lacq (bfld w 31 1) (bfld w 19 5) (bfld w 14 5))
  else
  .error .reservedField

/-- The rows of opcode 0x71 (R47). -/
def decodeOp71 (w : Nat) : Except DecodeError Instr :=
  if fld w 0 14 = 0 ∧ fld w 19 5 = 0 then
    .ok (.lrel (bfld w 31 1) (bfld w 14 5))
  else
  .error .reservedField

/-- The rows of opcode 0x72 (R47). -/
def decodeOp72 (w : Nat) : Except DecodeError Instr :=
  if fld w 0 14 = 0 then
    .ok (.lstat (bfld w 31 1) (bfld w 19 5) (bfld w 14 5))
  else
  if fld w 0 14 = 1 then
    .ok (.lstatRetry (bfld w 31 1) (bfld w 19 5) (bfld w 14 5))
  else
  .error .reservedField

/-- The rows of opcode 0x73 (R47). -/
def decodeOp73 (w : Nat) : Except DecodeError Instr :=
  if fld w 0 9 = 0 then
    .ok (.wdone (bfld w 31 1) (bfld w 19 5) (bfld w 14 5) (bfld w 9 5))
  else
  if fld w 0 9 = 1 then
    .ok (.wdoneFail (bfld w 31 1) (bfld w 19 5) (bfld w 14 5) (bfld w 9 5))
  else
  .error .reservedField

/-- The rows of opcode 0x74 (R47). -/
def decodeOp74 (w : Nat) : Except DecodeError Instr :=
  if fld w 0 9 = 0 ∧ fld w 19 5 = 0 then
    .ok (.wsig (bfld w 31 1) (bfld w 14 5) (bfld w 9 5))
  else
  .error .reservedField

/-- The rows of opcode 0x75 (R47). -/
def decodeOp75 (w : Nat) : Except DecodeError Instr :=
  if fld w 0 14 = 0 then
    .ok (.qrestart (bfld w 31 1) (bfld w 19 5) (bfld w 14 5))
  else
  .error .reservedField

/-- The rows of opcode 0x76 (R47). -/
def decodeOp76 (w : Nat) : Except DecodeError Instr :=
  if fld w 0 9 = 0 then
    .ok (.shpSet (bfld w 31 1) (bfld w 19 5) (bfld w 14 5) (bfld w 9 5))
  else
  if fld w 0 19 = 1 then
    .ok (.shpGet (bfld w 31 1) (bfld w 19 5))
  else
  if fld w 0 19 = 2 then
    .ok (.shpConf (bfld w 31 1) (bfld w 19 5))
  else
  .error .reservedField

/-- The rows of opcode 0x77 (R47). -/
def decodeOp77 (w : Nat) : Except DecodeError Instr :=
  if fld w 0 14 = 0 then
    .ok (.salloc (bfld w 31 1) (bfld w 19 5) (bfld w 14 5))
  else
  .error .reservedField

/-- The rows of opcode 0x78 (R47). -/
def decodeOp78 (w : Nat) : Except DecodeError Instr :=
  if fld w 14 10 = 0 then
    .ok (.trap (bfld w 31 1) (bfld w 0 14))
  else
  .error .reservedField

/-- The rows of opcode 0x79 (R47). -/
def decodeOp79 (w : Nat) : Except DecodeError Instr :=
  if fld w 12 7 = 0 then
    .ok (.csrr (bfld w 31 1) (bfld w 19 5) (bfld w 0 12))
  else
  if fld w 12 2 = 2 ∧ fld w 19 5 = 0 then
    .ok (.csrw (bfld w 31 1) (bfld w 14 5) (bfld w 0 12))
  else
  .error .reservedField

/-- The rows of opcode 0x7A (R47). -/
def decodeOp7A (w : Nat) : Except DecodeError Instr :=
  if fld w 0 9 = 0 then
    .ok (.seqsv (bfld w 31 1) (bfld w 19 5) (bfld w 14 5) (bfld w 9 5))
  else
  if fld w 0 9 = 1 then
    .ok (.seqld (bfld w 31 1) (bfld w 19 5) (bfld w 14 5) (bfld w 9 5))
  else
  if fld w 0 14 = 2 then
    .ok (.fragsv (bfld w 31 1) (bfld w 19 5) (bfld w 14 5))
  else
  if fld w 0 14 = 3 then
    .ok (.fragld (bfld w 31 1) (bfld w 19 5) (bfld w 14 5))
  else
  if fld w 0 24 = 4 then
    .ok (.rte (bfld w 31 1))
  else
  .error .reservedField

/-- The rows of opcode 0x7B (R47). -/
def decodeOp7B (w : Nat) : Except DecodeError Instr :=
  if fld w 0 24 = 0 then
    .ok (.brk (bfld w 31 1))
  else
  if fld w 0 14 = 1 ∧ fld w 19 5 = 0 then
    .ok (.tmark (bfld w 31 1) (bfld w 14 5))
  else
  if fld w 0 19 = 2 then
    .ok (.tsc (bfld w 31 1) (bfld w 19 5))
  else
  if fld w 0 19 = 3 then
    .ok (.tsr (bfld w 31 1) (bfld w 19 5))
  else
  .error .reservedField

/-- The rows of opcode 0x7C (R47). -/
def decodeOp7C (w : Nat) : Except DecodeError Instr :=
  .ok (.hintImm (bfld w 31 1) (bfld w 0 24))

/-- The rows of opcode 0x7D (R47). -/
def decodeOp7D (w : Nat) : Except DecodeError Instr :=
  if fld w 0 19 = 0 then
    .ok (.hintMod (bfld w 31 1) (bfld w 21 3) (bfld w 19 2))
  else
  .error .reservedField

/-- The rows of opcode 0x7E (R47). -/
def decodeOp7E (w : Nat) : Except DecodeError Instr :=
  if fld w 3 21 = 0 then
    .ok (.hintSched (bfld w 31 1) (bfld w 2 1) (bfld w 0 2))
  else
  .error .reservedField

/-- A 32-bit word, by the opcode map of R47: bit 31 is the switch marker, bits [30:24] the opcode (R33).
Codes inside a row's fields are checked by the unit that executes the word (R49, R50; WellFormed.lean). -/
def decodeWord (w : Nat) : Except DecodeError Instr :=
  match fld w 24 7 with
  | 0x01 => decodeOp01 w
  | 0x02 => decodeOp02 w
  | 0x03 => decodeOp03 w
  | 0x04 => decodeOp04 w
  | 0x05 => decodeOp05 w
  | 0x06 => decodeOp06 w
  | 0x07 => decodeOp07 w
  | 0x08 => decodeOp08 w
  | 0x09 => decodeOp09 w
  | 0x0A => decodeOp0A w
  | 0x0B => decodeOp0B w
  | 0x0C => decodeOp0C w
  | 0x0D => decodeOp0D w
  | 0x0E => decodeOp0E w
  | 0x10 => decodeOp10 w
  | 0x11 => decodeOp11 w
  | 0x12 => decodeOp12 w
  | 0x13 => decodeOp13 w
  | 0x14 => decodeOp14 w
  | 0x15 => decodeOp15 w
  | 0x16 => decodeOp16 w
  | 0x17 => decodeOp17 w
  | 0x20 => decodeOp20 w
  | 0x21 => decodeOp21 w
  | 0x22 => decodeOp22 w
  | 0x23 => decodeOp23 w
  | 0x24 => decodeOp24 w
  | 0x25 => decodeOp25 w
  | 0x26 => decodeOp26 w
  | 0x27 => decodeOp27 w
  | 0x28 => decodeOp28 w
  | 0x29 => decodeOp29 w
  | 0x2A => decodeOp2A w
  | 0x2B => decodeOp2B w
  | 0x2C => decodeOp2C w
  | 0x2D => decodeOp2D w
  | 0x2F => decodeOp2F w
  | 0x30 => decodeOp30 w
  | 0x31 => decodeOp31 w
  | 0x32 => decodeOp32 w
  | 0x33 => decodeOp33 w
  | 0x35 => decodeOp35 w
  | 0x36 => decodeOp36 w
  | 0x38 => decodeOp38 w
  | 0x39 => decodeOp39 w
  | 0x3A => decodeOp3A w
  | 0x3B => decodeOp3B w
  | 0x3C => decodeOp3C w
  | 0x3D => decodeOp3D w
  | 0x40 => decodeOp40 w
  | 0x41 => decodeOp41 w
  | 0x42 => decodeOp42 w
  | 0x43 => decodeOp43 w
  | 0x44 => decodeOp44 w
  | 0x45 => decodeOp45 w
  | 0x46 => decodeOp46 w
  | 0x47 => decodeOp47 w
  | 0x48 => decodeOp48 w
  | 0x49 => decodeOp49 w
  | 0x4A => decodeOp4A w
  | 0x4B => decodeOp4B w
  | 0x50 => decodeOp50 w
  | 0x51 => decodeOp51 w
  | 0x52 => decodeOp52 w
  | 0x53 => decodeOp53 w
  | 0x54 => decodeOp54 w
  | 0x55 => decodeOp55 w
  | 0x56 => decodeOp56 w
  | 0x57 => decodeOp57 w
  | 0x58 => decodeOp58 w
  | 0x59 => decodeOp59 w
  | 0x5A => decodeOp5A w
  | 0x5B => decodeOp5B w
  | 0x5C => decodeOp5C w
  | 0x5D => decodeOp5D w
  | 0x5E => decodeOp5E w
  | 0x60 => decodeOp60 w
  | 0x61 => decodeOp61 w
  | 0x62 => decodeOp62 w
  | 0x63 => decodeOp63 w
  | 0x64 => decodeOp64 w
  | 0x65 => decodeOp65 w
  | 0x66 => decodeOp66 w
  | 0x68 => decodeOp68 w
  | 0x69 => decodeOp69 w
  | 0x6A => decodeOp6A w
  | 0x6B => decodeOp6B w
  | 0x6C => decodeOp6C w
  | 0x6D => decodeOp6D w
  | 0x70 => decodeOp70 w
  | 0x71 => decodeOp71 w
  | 0x72 => decodeOp72 w
  | 0x73 => decodeOp73 w
  | 0x74 => decodeOp74 w
  | 0x75 => decodeOp75 w
  | 0x76 => decodeOp76 w
  | 0x77 => decodeOp77 w
  | 0x78 => decodeOp78 w
  | 0x79 => decodeOp79 w
  | 0x7A => decodeOp7A w
  | 0x7B => decodeOp7B w
  | 0x7C => decodeOp7C w
  | 0x7D => decodeOp7D w
  | 0x7E => decodeOp7E w
  | _ => .error .unassignedOpcode

/-- The little-endian value of a list of bytes (R5). -/
def leValue : List (BitVec 8) → Nat
  | [] => 0
  | b :: bs => b.toNat + 256 * leValue bs

/-- The `n` low bytes of a number, least significant first (R5). -/
def leBytes : Nat → Nat → List (BitVec 8)
  | 0, _ => []
  | n + 1, v => BitVec.ofNat 8 v :: leBytes n (v / 256)

/-- The instruction at the head of a byte list, and the rest: a word is four bytes, little-endian (R33). -/
def decode (bs : List (BitVec 8)) : Except DecodeError (Instr × List (BitVec 8)) :=
  match bs with
  | b0 :: b1 :: b2 :: b3 :: rest =>
    match decodeWord (leValue [b0, b1, b2, b3]) with
    | .ok i => .ok (i, rest)
    | .error e => .error e
  | _ => .error .truncated

/-- The host's question about one row of the opcode table: what the decoder reads from the bits `w` of an instruction
of `nbits` bits (bit 0 the least significant of the word), laid out as memory holds it. -/
def decodeTableWord (nbits w : Nat) : Option Instr :=
  match decode (leBytes 4 (w % 2 ^ nbits)) with
  | .ok (i, _) => some i
  | .error _ => none

/-- A word from its fixed bits and its fields, each field given with the place of its lowest bit. -/
def pack (fixed : Nat) : List (Nat × Nat) → Nat
  | [] => fixed
  | (v, lo) :: fs => v * 2 ^ lo + pack fixed fs

/-- The word of an instruction, as a number below 2^32; none for an event, which has no word. -/
def encodeNat : Instr → Option Nat
  | .br m k c o => some (pack 0x01000000 [(m.toNat, 31), (k.toNat, 21), (c.toNat, 16), (o.toNat, 0)])
  | .jmp m k o => some (pack 0x02000000 [(m.toNat, 31), (k.toNat, 21), (o.toNat, 0)])
  | .call m k o => some (pack 0x03000000 [(m.toNat, 31), (k.toNat, 21), (o.toNat, 0)])
  | .ret m k => some (pack 0x04000000 [(m.toNat, 31), (k.toNat, 21)])
  | .loop m k c o => some (pack 0x05000000 [(m.toNat, 31), (k.toNat, 21), (c.toNat, 16), (o.toNat, 0)])
  | .lbrk m k c => some (pack 0x06000000 [(m.toNat, 31), (k.toNat, 21), (c.toNat, 16)])
  | .bar m k => some (pack 0x07000000 [(m.toNat, 31), (k.toNat, 21)])
  | .nop m => some (pack 0x08000000 [(m.toNat, 31)])
  | .rcv m => some (pack 0x08000001 [(m.toNat, 31)])
  | .exit m => some (pack 0x08000002 [(m.toNat, 31)])
  | .maskAll m => some (pack 0x08000003 [(m.toNat, 31)])
  | .maskRest m => some (pack 0x08000004 [(m.toNat, 31)])
  | .yield m => some (pack 0x08000005 [(m.toNat, 31)])
  | .up m d a k y => some (pack 0x09000000 [(m.toNat, 31), (d.toNat, 19), (a.toNat, 14), (k.toNat, 6), (y.toNat, 3)])
  | .downSend m d a k => some (pack 0x0A000000 [(m.toNat, 31), (d.toNat, 19), (a.toNat, 14), (k.toNat, 6)])
  | .downRead m d a k => some (pack 0x0A000020 [(m.toNat, 31), (d.toNat, 19), (a.toNat, 14), (k.toNat, 6)])
  | .claim m d a => some (pack 0x0B000000 [(m.toNat, 31), (d.toNat, 19), (a.toNat, 14)])
  | .giveback m a => some (pack 0x0B000001 [(m.toNat, 31), (a.toNat, 14)])
  | .vwin m a => some (pack 0x0B000002 [(m.toNat, 31), (a.toNat, 14)])
  | .regroup m d a => some (pack 0x0B000003 [(m.toNat, 31), (d.toNat, 19), (a.toNat, 14)])
  | .role m a => some (pack 0x0B000004 [(m.toNat, 31), (a.toNat, 14)])
  | .spawn m d a b => some (pack 0x0C000000 [(m.toNat, 31), (d.toNat, 19), (a.toNat, 14), (b.toNat, 9)])
  | .suspend m k n o => some (pack 0x0D000000 [(m.toNat, 31), (k.toNat, 21), (n.toNat, 16), (o.toNat, 0)])
  | .fmtSet m a => some (pack 0x0E000000 [(m.toNat, 31), (a.toNat, 14)])
  | .fmtGet m d => some (pack 0x0E000001 [(m.toNat, 31), (d.toNat, 19)])
  | .sadd m d a b t => some (pack 0x10000000 [(m.toNat, 31), (d.toNat, 19), (a.toNat, 14), (b.toNat, 9), (t.toNat, 7)])
  | .ssub m d a b t => some (pack 0x10000010 [(m.toNat, 31), (d.toNat, 19), (a.toNat, 14), (b.toNat, 9), (t.toNat, 7)])
  | .smul m d a b t => some (pack 0x10000020 [(m.toNat, 31), (d.toNat, 19), (a.toNat, 14), (b.toNat, 9), (t.toNat, 7)])
  | .smulh m d a b t => some (pack 0x10000030 [(m.toNat, 31), (d.toNat, 19), (a.toNat, 14), (b.toNat, 9), (t.toNat, 7)])
  | .sdiv m d a b t => some (pack 0x10000040 [(m.toNat, 31), (d.toNat, 19), (a.toNat, 14), (b.toNat, 9), (t.toNat, 7)])
  | .smin m d a b t => some (pack 0x10000050 [(m.toNat, 31), (d.toNat, 19), (a.toNat, 14), (b.toNat, 9), (t.toNat, 7)])
  | .smax m d a b t => some (pack 0x10000060 [(m.toNat, 31), (d.toNat, 19), (a.toNat, 14), (b.toNat, 9), (t.toNat, 7)])
  | .sand m d a b t => some (pack 0x11000000 [(m.toNat, 31), (d.toNat, 19), (a.toNat, 14), (b.toNat, 9), (t.toNat, 7)])
  | .sor m d a b t => some (pack 0x11000010 [(m.toNat, 31), (d.toNat, 19), (a.toNat, 14), (b.toNat, 9), (t.toNat, 7)])
  | .sxor m d a b t => some (pack 0x11000020 [(m.toNat, 31), (d.toNat, 19), (a.toNat, 14), (b.toNat, 9), (t.toNat, 7)])
  | .sshl m d a b t => some (pack 0x11000030 [(m.toNat, 31), (d.toNat, 19), (a.toNat, 14), (b.toNat, 9), (t.toNat, 7)])
  | .sshr m d a b t => some (pack 0x11000040 [(m.toNat, 31), (d.toNat, 19), (a.toNat, 14), (b.toNat, 9), (t.toNat, 7)])
  | .ssar m d a b t => some (pack 0x11000050 [(m.toNat, 31), (d.toNat, 19), (a.toNat, 14), (b.toNat, 9), (t.toNat, 7)])
  | .sset m d a b t c => some (pack 0x12000000 [(m.toNat, 31), (d.toNat, 19), (a.toNat, 14), (b.toNat, 9), (t.toNat, 7), (c.toNat, 4)])
  | .ssel m d a b c => some (pack 0x13000000 [(m.toNat, 31), (d.toNat, 19), (a.toNat, 14), (b.toNat, 9), (c.toNat, 0)])
  | .sli m d a i => some (pack 0x14000000 [(m.toNat, 31), (d.toNat, 19), (a.toNat, 14), (i.toNat, 0)])
  | .slui m d a i => some (pack 0x15000000 [(m.toNat, 31), (d.toNat, 19), (a.toNat, 14), (i.toNat, 0)])
  | .sld m d a b w x o k => some (pack 0x16000000 [(m.toNat, 31), (d.toNat, 19), (a.toNat, 14), (b.toNat, 9), (w.toNat, 7), (x.toNat, 6), (o.toNat, 4), (k.toNat, 1)])
  | .sst m d a b w o k => some (pack 0x17000000 [(m.toNat, 31), (d.toNat, 19), (a.toNat, 14), (b.toNat, 9), (w.toNat, 7), (o.toNat, 4), (k.toNat, 1)])
  | .vadd m p d a b t => some (pack 0x20000000 [(m.toNat, 31), (p.toNat, 21), (d.toNat, 15), (a.toNat, 9), (b.toNat, 3), (t.toNat, 0)])
  | .vsub m p d a b t => some (pack 0x21000000 [(m.toNat, 31), (p.toNat, 21), (d.toNat, 15), (a.toNat, 9), (b.toNat, 3), (t.toNat, 0)])
  | .vmul m p d a b t => some (pack 0x22000000 [(m.toNat, 31), (p.toNat, 21), (d.toNat, 15), (a.toNat, 9), (b.toNat, 3), (t.toNat, 0)])
  | .vmulh m p d a b t => some (pack 0x23000000 [(m.toNat, 31), (p.toNat, 21), (d.toNat, 15), (a.toNat, 9), (b.toNat, 3), (t.toNat, 0)])
  | .vmad m p d a b t => some (pack 0x24000000 [(m.toNat, 31), (p.toNat, 21), (d.toNat, 15), (a.toNat, 9), (b.toNat, 3), (t.toNat, 0)])
  | .vmin m p d a b t => some (pack 0x25000000 [(m.toNat, 31), (p.toNat, 21), (d.toNat, 15), (a.toNat, 9), (b.toNat, 3), (t.toNat, 0)])
  | .vmax m p d a b t => some (pack 0x26000000 [(m.toNat, 31), (p.toNat, 21), (d.toNat, 15), (a.toNat, 9), (b.toNat, 3), (t.toNat, 0)])
  | .vabs m p d a => some (pack 0x27000000 [(m.toNat, 31), (p.toNat, 21), (d.toNat, 15), (a.toNat, 9)])
  | .vand m p d a b => some (pack 0x28000000 [(m.toNat, 31), (p.toNat, 21), (d.toNat, 15), (a.toNat, 9), (b.toNat, 3)])
  | .vor m p d a b => some (pack 0x28000001 [(m.toNat, 31), (p.toNat, 21), (d.toNat, 15), (a.toNat, 9), (b.toNat, 3)])
  | .vxor m p d a b => some (pack 0x28000002 [(m.toNat, 31), (p.toNat, 21), (d.toNat, 15), (a.toNat, 9), (b.toNat, 3)])
  | .vandn m p d a b => some (pack 0x28000003 [(m.toNat, 31), (p.toNat, 21), (d.toNat, 15), (a.toNat, 9), (b.toNat, 3)])
  | .vshl m p d a b => some (pack 0x29000000 [(m.toNat, 31), (p.toNat, 21), (d.toNat, 15), (a.toNat, 9), (b.toNat, 3)])
  | .vshr m p d a b => some (pack 0x29000001 [(m.toNat, 31), (p.toNat, 21), (d.toNat, 15), (a.toNat, 9), (b.toNat, 3)])
  | .vsar m p d a b => some (pack 0x29000002 [(m.toNat, 31), (p.toNat, 21), (d.toNat, 15), (a.toNat, 9), (b.toNat, 3)])
  | .vclz m p d a => some (pack 0x2A000000 [(m.toNat, 31), (p.toNat, 21), (d.toNat, 15), (a.toNat, 9)])
  | .vpopc m p d a => some (pack 0x2A000001 [(m.toNat, 31), (p.toNat, 21), (d.toNat, 15), (a.toNat, 9)])
  | .vsat m p d a w t => some (pack 0x2B000000 [(m.toNat, 31), (p.toNat, 21), (d.toNat, 15), (a.toNat, 9), (w.toNat, 3), (t.toNat, 0)])
  | .vsel m p d a b n => some (pack 0x2C000000 [(m.toNat, 31), (p.toNat, 21), (d.toNat, 15), (a.toNat, 9), (b.toNat, 3), (n.toNat, 0)])
  | .vset m p c n a b t => some (pack 0x2D000000 [(m.toNat, 31), (p.toNat, 21), (c.toNat, 18), (n.toNat, 15), (a.toNat, 9), (b.toNat, 3), (t.toNat, 0)])
  | .vsetImm m p c n a i t => some (pack 0x2F000000 [(m.toNat, 31), (p.toNat, 21), (c.toNat, 18), (n.toNat, 15), (a.toNat, 9), (i.toNat, 1), (t.toNat, 0)])
  | .pand m p d a b => some (pack 0x30000000 [(m.toNat, 31), (p.toNat, 21), (d.toNat, 15), (a.toNat, 9), (b.toNat, 3)])
  | .por m p d a b => some (pack 0x30000001 [(m.toNat, 31), (p.toNat, 21), (d.toNat, 15), (a.toNat, 9), (b.toNat, 3)])
  | .pxor m p d a b => some (pack 0x30000002 [(m.toNat, 31), (p.toNat, 21), (d.toNat, 15), (a.toNat, 9), (b.toNat, 3)])
  | .pnot m p d a => some (pack 0x30000003 [(m.toNat, 31), (p.toNat, 21), (d.toNat, 15), (a.toNat, 9)])
  | .vmov m p d a => some (pack 0x31000000 [(m.toNat, 31), (p.toNat, 21), (d.toNat, 15), (a.toNat, 9)])
  | .vbcast m p d a => some (pack 0x31000001 [(m.toNat, 31), (p.toNat, 21), (d.toNat, 15), (a.toNat, 9)])
  | .vlane m p d => some (pack 0x31000002 [(m.toNat, 31), (p.toNat, 21), (d.toNat, 15)])
  | .vrand m p d => some (pack 0x31000003 [(m.toNat, 31), (p.toNat, 21), (d.toNat, 15)])
  | .vaddImm m p d a i t => some (pack 0x32000000 [(m.toNat, 31), (p.toNat, 21), (d.toNat, 15), (a.toNat, 9), (i.toNat, 1), (t.toNat, 0)])
  | .vmulImm m p d a i t => some (pack 0x33000000 [(m.toNat, 31), (p.toNat, 21), (d.toNat, 15), (a.toNat, 9), (i.toNat, 1), (t.toNat, 0)])
  | .vshlImm m p d a n t => some (pack 0x35000000 [(m.toNat, 31), (p.toNat, 21), (d.toNat, 15), (a.toNat, 9), (n.toNat, 1), (t.toNat, 0)])
  | .vshrImm m p d a n t => some (pack 0x35000080 [(m.toNat, 31), (p.toNat, 21), (d.toNat, 15), (a.toNat, 9), (n.toNat, 1), (t.toNat, 0)])
  | .vsarImm m p d a n t => some (pack 0x35000100 [(m.toNat, 31), (p.toNat, 21), (d.toNat, 15), (a.toNat, 9), (n.toNat, 1), (t.toNat, 0)])
  | .vmovImm m p d i => some (pack 0x36000000 [(m.toNat, 31), (p.toNat, 21), (d.toNat, 15), (i.toNat, 1)])
  | .vvoteAll m p d a => some (pack 0x38000000 [(m.toNat, 31), (p.toNat, 21), (d.toNat, 15), (a.toNat, 9)])
  | .vvoteAny m p d a => some (pack 0x38000001 [(m.toNat, 31), (p.toNat, 21), (d.toNat, 15), (a.toNat, 9)])
  | .vvoteBallot m p d a => some (pack 0x38000002 [(m.toNat, 31), (p.toNat, 21), (d.toNat, 15), (a.toNat, 9)])
  | .vshfl m p d a b f => some (pack 0x39000000 [(m.toNat, 31), (p.toNat, 21), (d.toNat, 15), (a.toNat, 9), (b.toNat, 3), (f.toNat, 0)])
  | .vred m p d a t f => some (pack 0x3A000000 [(m.toNat, 31), (p.toNat, 21), (d.toNat, 15), (a.toNat, 9), (t.toNat, 3), (f.toNat, 0)])
  | .vscan m p d a t f => some (pack 0x3B000000 [(m.toNat, 31), (p.toNat, 21), (d.toNat, 15), (a.toNat, 9), (t.toNat, 3), (f.toNat, 0)])
  | .vext m p d a b => some (pack 0x3C000000 [(m.toNat, 31), (p.toNat, 21), (d.toNat, 15), (a.toNat, 9), (b.toNat, 3)])
  | .vins m p d a b => some (pack 0x3D000000 [(m.toNat, 31), (p.toNat, 21), (d.toNat, 15), (a.toNat, 9), (b.toNat, 3)])
  | .vfadd m p d a b t => some (pack 0x40000000 [(m.toNat, 31), (p.toNat, 21), (d.toNat, 15), (a.toNat, 9), (b.toNat, 3), (t.toNat, 0)])
  | .vfsub m p d a b t => some (pack 0x41000000 [(m.toNat, 31), (p.toNat, 21), (d.toNat, 15), (a.toNat, 9), (b.toNat, 3), (t.toNat, 0)])
  | .vfmul m p d a b t => some (pack 0x42000000 [(m.toNat, 31), (p.toNat, 21), (d.toNat, 15), (a.toNat, 9), (b.toNat, 3), (t.toNat, 0)])
  | .vfma m p d a b t => some (pack 0x43000000 [(m.toNat, 31), (p.toNat, 21), (d.toNat, 15), (a.toNat, 9), (b.toNat, 3), (t.toNat, 0)])
  | .vfmin m p d a b t => some (pack 0x44000000 [(m.toNat, 31), (p.toNat, 21), (d.toNat, 15), (a.toNat, 9), (b.toNat, 3), (t.toNat, 0)])
  | .vfmax m p d a b t => some (pack 0x45000000 [(m.toNat, 31), (p.toNat, 21), (d.toNat, 15), (a.toNat, 9), (b.toNat, 3), (t.toNat, 0)])
  | .vfset m p c n a b t => some (pack 0x46000000 [(m.toNat, 31), (p.toNat, 21), (c.toNat, 18), (n.toNat, 15), (a.toNat, 9), (b.toNat, 3), (t.toNat, 0)])
  | .vfrcp m p d a t => some (pack 0x47000000 [(m.toNat, 31), (p.toNat, 21), (d.toNat, 15), (a.toNat, 9), (t.toNat, 3)])
  | .vfrsq m p d a t => some (pack 0x47000001 [(m.toNat, 31), (p.toNat, 21), (d.toNat, 15), (a.toNat, 9), (t.toNat, 3)])
  | .vfsqrt m p d a t => some (pack 0x47000002 [(m.toNat, 31), (p.toNat, 21), (d.toNat, 15), (a.toNat, 9), (t.toNat, 3)])
  | .vfex2 m p d a t => some (pack 0x47000003 [(m.toNat, 31), (p.toNat, 21), (d.toNat, 15), (a.toNat, 9), (t.toNat, 3)])
  | .vflg2 m p d a t => some (pack 0x47000004 [(m.toNat, 31), (p.toNat, 21), (d.toNat, 15), (a.toNat, 9), (t.toNat, 3)])
  | .vfsin m p d a t => some (pack 0x47000005 [(m.toNat, 31), (p.toNat, 21), (d.toNat, 15), (a.toNat, 9), (t.toNat, 3)])
  | .vfcos m p d a t => some (pack 0x47000006 [(m.toNat, 31), (p.toNat, 21), (d.toNat, 15), (a.toNat, 9), (t.toNat, 3)])
  | .vcvt m p d a u v => some (pack 0x48000000 [(m.toNat, 31), (p.toNat, 21), (d.toNat, 15), (a.toNat, 9), (u.toNat, 5), (v.toNat, 1)])
  | .vquant m p d a u => some (pack 0x49000000 [(m.toNat, 31), (p.toNat, 21), (d.toNat, 15), (a.toNat, 9), (u.toNat, 5)])
  | .vdq m p d a u => some (pack 0x4A000000 [(m.toNat, 31), (p.toNat, 21), (d.toNat, 15), (a.toNat, 9), (u.toNat, 5)])
  | .vcbdec m p d a => some (pack 0x4B000000 [(m.toNat, 31), (p.toNat, 21), (d.toNat, 15), (a.toNat, 9)])
  | .vld m p d a b w => some (pack 0x50000000 [(m.toNat, 31), (p.toNat, 21), (d.toNat, 15), (a.toNat, 9), (b.toNat, 3), (w.toNat, 0)])
  | .vldImm m p d a i => some (pack 0x51000000 [(m.toNat, 31), (p.toNat, 21), (d.toNat, 15), (a.toNat, 9), (i.toNat, 1)])
  | .vst m p d a b w => some (pack 0x52000000 [(m.toNat, 31), (p.toNat, 21), (d.toNat, 15), (a.toNat, 9), (b.toNat, 3), (w.toNat, 0)])
  | .vstImm m p d a i => some (pack 0x53000000 [(m.toNat, 31), (p.toNat, 21), (d.toNat, 15), (a.toNat, 9), (i.toNat, 1)])
  | .vldu m p d b w => some (pack 0x54000000 [(m.toNat, 31), (p.toNat, 21), (d.toNat, 15), (b.toNat, 3), (w.toNat, 0)])
  | .vprf m p a b => some (pack 0x55000000 [(m.toNat, 31), (p.toNat, 21), (a.toNat, 9), (b.toNat, 3)])
  | .vldAcq m p d a b k => some (pack 0x56000000 [(m.toNat, 31), (p.toNat, 21), (d.toNat, 15), (a.toNat, 9), (b.toNat, 3), (k.toNat, 0)])
  | .vstRel m p d a b k => some (pack 0x57000000 [(m.toNat, 31), (p.toNat, 21), (d.toNat, 15), (a.toNat, 9), (b.toNat, 3), (k.toNat, 0)])
  | .atomAdd m d a b w o k => some (pack 0x58000000 [(m.toNat, 31), (d.toNat, 19), (a.toNat, 14), (b.toNat, 9), (w.toNat, 5), (o.toNat, 3), (k.toNat, 0)])
  | .atomAnd m d a b w o k => some (pack 0x58000040 [(m.toNat, 31), (d.toNat, 19), (a.toNat, 14), (b.toNat, 9), (w.toNat, 5), (o.toNat, 3), (k.toNat, 0)])
  | .atomOr m d a b w o k => some (pack 0x58000080 [(m.toNat, 31), (d.toNat, 19), (a.toNat, 14), (b.toNat, 9), (w.toNat, 5), (o.toNat, 3), (k.toNat, 0)])
  | .atomXor m d a b w o k => some (pack 0x580000C0 [(m.toNat, 31), (d.toNat, 19), (a.toNat, 14), (b.toNat, 9), (w.toNat, 5), (o.toNat, 3), (k.toNat, 0)])
  | .atomMin m d a b u w o k => some (pack 0x58000100 [(m.toNat, 31), (d.toNat, 19), (a.toNat, 14), (b.toNat, 9), (u.toNat, 6), (w.toNat, 5), (o.toNat, 3), (k.toNat, 0)])
  | .atomMax m d a b u w o k => some (pack 0x58000180 [(m.toNat, 31), (d.toNat, 19), (a.toNat, 14), (b.toNat, 9), (u.toNat, 6), (w.toNat, 5), (o.toNat, 3), (k.toNat, 0)])
  | .atomXchg m d a b w o k => some (pack 0x59000000 [(m.toNat, 31), (d.toNat, 19), (a.toNat, 14), (b.toNat, 9), (w.toNat, 5), (o.toNat, 3), (k.toNat, 0)])
  | .atomCas m d a b w o k => some (pack 0x59000100 [(m.toNat, 31), (d.toNat, 19), (a.toNat, 14), (b.toNat, 9), (w.toNat, 5), (o.toNat, 3), (k.toNat, 0)])
  | .fence m k => some (pack 0x5A000000 [(m.toNat, 31), (k.toNat, 0)])
  | .fenceAcq m k => some (pack 0x5A000008 [(m.toNat, 31), (k.toNat, 0)])
  | .fenceRel m k => some (pack 0x5A000010 [(m.toNat, 31), (k.toNat, 0)])
  | .fenceFlush m => some (pack 0x5A000018 [(m.toNat, 31)])
  | .evinc m a b k => some (pack 0x5B000000 [(m.toNat, 31), (a.toNat, 14), (b.toNat, 9), (k.toNat, 0)])
  | .waita m d a b => some (pack 0x5C000000 [(m.toNat, 31), (d.toNat, 19), (a.toNat, 14), (b.toNat, 9)])
  | .wakea m a => some (pack 0x5C000001 [(m.toNat, 31), (a.toNat, 14)])
  | .tld m d a b k o => some (pack 0x5D000000 [(m.toNat, 31), (d.toNat, 19), (a.toNat, 14), (b.toNat, 9), (k.toNat, 5), (o.toNat, 3)])
  | .tst m d a b k o => some (pack 0x5D000001 [(m.toNat, 31), (d.toNat, 19), (a.toNat, 14), (b.toNat, 9), (k.toNat, 5), (o.toNat, 3)])
  | .tcln m d b k => some (pack 0x5D000002 [(m.toNat, 31), (d.toNat, 19), (b.toNat, 9), (k.toNat, 5)])
  | .tinv m d b k => some (pack 0x5D000003 [(m.toNat, 31), (d.toNat, 19), (b.toNat, 9), (k.toNat, 5)])
  | .tdesc m d a b => some (pack 0x5D000004 [(m.toNat, 31), (d.toNat, 19), (a.toNat, 14), (b.toNat, 9)])
  | .spalloc m d a b => some (pack 0x5E000000 [(m.toNat, 31), (d.toNat, 19), (a.toNat, 14), (b.toNat, 9)])
  | .spfree m a b => some (pack 0x5E000001 [(m.toNat, 31), (a.toNat, 14), (b.toNat, 9)])
  | .spnext m d a => some (pack 0x5E000002 [(m.toNat, 31), (d.toNat, 19), (a.toNat, 14)])
  | .qbind m q s => some (pack 0x60000000 [(m.toNat, 31), (q.toNat, 20), (s.toNat, 15)])
  | .qpush m q s n => some (pack 0x61000000 [(m.toNat, 31), (q.toNat, 20), (s.toNat, 15), (n.toNat, 12)])
  | .qpop m q s n => some (pack 0x62000000 [(m.toNat, 31), (q.toNat, 20), (s.toNat, 15), (n.toNat, 12)])
  | .qtryPush m q s n f => some (pack 0x63000000 [(m.toNat, 31), (q.toNat, 20), (s.toNat, 15), (n.toNat, 12), (f.toNat, 1)])
  | .qtryPop m q s n f => some (pack 0x63000001 [(m.toNat, 31), (q.toNat, 20), (s.toNat, 15), (n.toNat, 12), (f.toNat, 1)])
  | .qstat m q s => some (pack 0x64000000 [(m.toNat, 31), (q.toNat, 20), (s.toNat, 15)])
  | .twait m a => some (pack 0x65000000 [(m.toNat, 31), (a.toNat, 14)])
  | .vqpop m p d q => some (pack 0x66000000 [(m.toNat, 31), (p.toNat, 21), (d.toNat, 15), (q.toNat, 9)])
  | .acwinSet m d a b => some (pack 0x68000000 [(m.toNat, 31), (d.toNat, 19), (a.toNat, 14), (b.toNat, 9)])
  | .acwinClaim m d a => some (pack 0x68000001 [(m.toNat, 31), (d.toNat, 19), (a.toNat, 14)])
  | .acwinFree m d a => some (pack 0x68000002 [(m.toNat, 31), (d.toNat, 19), (a.toNat, 14)])
  | .acrd m p d b => some (pack 0x69000000 [(m.toNat, 31), (p.toNat, 21), (d.toNat, 15), (b.toNat, 3)])
  | .acwr m p d b => some (pack 0x6A000000 [(m.toNat, 31), (p.toNat, 21), (d.toNat, 15), (b.toNat, 3)])
  | .acclr m a => some (pack 0x6B000000 [(m.toNat, 31), (a.toNat, 14)])
  | .spk24 m p d a b => some (pack 0x6C000000 [(m.toNat, 31), (p.toNat, 21), (d.toNat, 15), (a.toNat, 9), (b.toNat, 3)])
  | .cbld m a => some (pack 0x6D000000 [(m.toNat, 31), (a.toNat, 14)])
  | .lacq m d a => some (pack 0x70000000 [(m.toNat, 31), (d.toNat, 19), (a.toNat, 14)])
  | .lrel m a => some (pack 0x71000000 [(m.toNat, 31), (a.toNat, 14)])
  | .lstat m d a => some (pack 0x72000000 [(m.toNat, 31), (d.toNat, 19), (a.toNat, 14)])
  | .lstatRetry m d a => some (pack 0x72000001 [(m.toNat, 31), (d.toNat, 19), (a.toNat, 14)])
  | .wdone m d a b => some (pack 0x73000000 [(m.toNat, 31), (d.toNat, 19), (a.toNat, 14), (b.toNat, 9)])
  | .wdoneFail m d a b => some (pack 0x73000001 [(m.toNat, 31), (d.toNat, 19), (a.toNat, 14), (b.toNat, 9)])
  | .wsig m a b => some (pack 0x74000000 [(m.toNat, 31), (a.toNat, 14), (b.toNat, 9)])
  | .qrestart m d a => some (pack 0x75000000 [(m.toNat, 31), (d.toNat, 19), (a.toNat, 14)])
  | .shpSet m d a b => some (pack 0x76000000 [(m.toNat, 31), (d.toNat, 19), (a.toNat, 14), (b.toNat, 9)])
  | .shpGet m d => some (pack 0x76000001 [(m.toNat, 31), (d.toNat, 19)])
  | .shpConf m d => some (pack 0x76000002 [(m.toNat, 31), (d.toNat, 19)])
  | .salloc m d a => some (pack 0x77000000 [(m.toNat, 31), (d.toNat, 19), (a.toNat, 14)])
  | .trap m i => some (pack 0x78000000 [(m.toNat, 31), (i.toNat, 0)])
  | .csrr m d c => some (pack 0x79000000 [(m.toNat, 31), (d.toNat, 19), (c.toNat, 0)])
  | .csrw m a c => some (pack 0x79002000 [(m.toNat, 31), (a.toNat, 14), (c.toNat, 0)])
  | .seqsv m d a b => some (pack 0x7A000000 [(m.toNat, 31), (d.toNat, 19), (a.toNat, 14), (b.toNat, 9)])
  | .seqld m d a b => some (pack 0x7A000001 [(m.toNat, 31), (d.toNat, 19), (a.toNat, 14), (b.toNat, 9)])
  | .fragsv m d a => some (pack 0x7A000002 [(m.toNat, 31), (d.toNat, 19), (a.toNat, 14)])
  | .fragld m d a => some (pack 0x7A000003 [(m.toNat, 31), (d.toNat, 19), (a.toNat, 14)])
  | .rte m => some (pack 0x7A000004 [(m.toNat, 31)])
  | .brk m => some (pack 0x7B000000 [(m.toNat, 31)])
  | .tmark m a => some (pack 0x7B000001 [(m.toNat, 31), (a.toNat, 14)])
  | .tsc m d => some (pack 0x7B000002 [(m.toNat, 31), (d.toNat, 19)])
  | .tsr m d => some (pack 0x7B000003 [(m.toNat, 31), (d.toNat, 19)])
  | .hintImm m i => some (pack 0x7C000000 [(m.toNat, 31), (i.toNat, 0)])
  | .hintMod m r s => some (pack 0x7D000000 [(m.toNat, 31), (r.toNat, 21), (s.toNat, 19)])
  | .hintSched m h a => some (pack 0x7E000000 [(m.toNat, 31), (h.toNat, 2), (a.toNat, 0)])
  | _ => none

end Sys2Proof
end

