-- ==== Sys2Proof/Config.lean ====
section
/-!
DEFINITION. What one module fixes (R1, R10, R51, R219, R288, R307, R339, R372) and the free values: constants without a body, for
what the spec leaves open. No statement can see a free value, so what is said of the model holds whatever it is.
-/

namespace Sys2Proof.Config

def coresPerCluster : Nat := 16
def clustersPerDie : Nat := 32
def dies : Nat := 8
def clusters : Nat := 256
def slicesPerSched : Nat := 16
def chunksPerLane : Nat := 32
def groupSlots : Nat := 32
def blockContexts : Nat := 4
def clusterContexts : Nat := 16
def queueDepth : Nat := 8
def callDepth : Nat := 16
def loopLevels : Nat := 3
def acRows : Nat := 2048
def taskQueue : Nat := 64
def channelDepth : Nat := 16
def commandLimit : Nat := 32
def streamBytes : Nat := 4096
def poolEntries : Nat := 256
def watchEntries : Nat := 64
def markedLines : Nat := 128
def markedInSet : Nat := 8
def suspSlot : Nat := 73728
def isaLevel : Nat := 1
/-- The reset value of FMT (R65). -/
def fmtReset : Word := 0x0000000001000111

/-- The n-th open choice of the machine: which of several permitted steps comes next, or which of several permitted outcomes
an action has. Applied to the counter `draws` of the state. -/
opaque choice : Nat → Nat

/-- A byte of memory read under another key than it was written under: an unrelated value (R400). -/
opaque unrelatedByte : (addr oldKey newKey : Nat) → Byte

/-- The hash of an ordinary line's tag for a number of sets, before it is reduced to a set (R219). -/
opaque lineSet : (asid tid line sets : Nat) → Nat

/-- What a routine of the walkers asks for next, or how it ends (R395). -/
inductive RoutineMove where
  | load (pa : Nat)
  /-- Physical base, page size (0 for 4 KiB, 1 for 64 KiB, 2 for 2 MiB, 3 for 1 GiB), permissions, ordering kind and key. -/
  | leaf (base size : Nat) (r w x p : Bool) (ord key : Nat)
  | notPresent
  | malformed
  /-- It breaks its contract otherwise than by a table load too many: it runs for too long. -/
  | breach
deriving DecidableEq, Repr, Inhabited

/-- Whether the firmware image of the walkers brings a routine for a FORMAT from 2 to 7 (R395). -/
opaque hasRoutine : (format : Nat) → Bool

/-- What a routine starts with (R395): the address, the ASID, the permission class, the level, and words 0 and 1 of the address-space entry. -/
structure RoutineStart where
  va     : Word
  asid   : Nat
  cls    : Nat
  level1 : Bool
  w0     : Word
  w1     : Word
deriving DecidableEq, Repr

/-- The routine of a FORMAT from 2 to 7: what it does next after some table loads (R395). -/
opaque routine : (format : Nat) → RoutineStart → (loads : List Word) → RoutineMove

/-- The image in the firmware slot of an engine class, kept where no reset reaches (R377). -/
opaque slotImage : (engine : Nat) → List Byte

/-- The walker engine of a die, from 0 to 7, that serves an address space and address bits [23:12], before it is reduced to eight (R394). -/
opaque walker : (asid bits : Nat) → Nat

/-- A value that the spec leaves open, one for each draw. -/
opaque freeWord : (draw : Nat) → Word

/-- The X coordinate of public key 0, fixed at manufacture (R373). -/
opaque key0X : Nat

/-- The Y coordinate of public key 0, fixed at manufacture (R373). -/
opaque key0Y : Nat

end Sys2Proof.Config
end

