-- ==== Sys2Proof/Machine/State.lean ====
section
/-!
DEFINITION. The state of the module as plain data: everything the spec gives the machine. Parts that are many (groups,
blocks, contexts, clusters, cores) are lists of records that carry their numbers; a cluster or core that no record lists is at its
reset values. Sparse contents (registers of a lane, scratchpad, accumulators, memory) are canonical lists of a key and a
value, keys strictly rising and no value equal to what an unlisted key reads as.
-/

namespace Sys2Proof.Machine

/-- Sparse contents: key and value pairs in canonical form. -/
abbrev Sparse (α : Type) := List (Nat × α)

/-- Why the machine stops. Every one is safe: the model stops where the hardware could go on in a way the spec does not give. -/
inductive Fault where
  /-- A byte access to a physical address outside every range of R428. No step raises it: each such access ends in the answer or the fault that
  the spec gives its requester. Safe. -/
  | noSuchAddress (addr : Nat)
deriving DecidableEq, Repr

/-- Why a step has no meaning. -/
inductive Refusal where
  /-- Raised by exec's arm of an instruction that has no meaning yet. Safe. -/
  | notModelled (mnemonic : String)
  /-- Raised by an event whose subject does not exist or whose enabling condition does not hold: the spec gives no such step there.
  Safe. -/
  | notEnabled (event : String)
  /-- Raised by a word when no unit and no upper context is the one that issues. Safe. -/
  | nobodyIssues
deriving DecidableEq, Repr

/-- Who performs the next instruction step: a unit of a group, by its number, or an upper context. -/
inductive Agent where
  | unit (g u : Nat)
  | context (c : Nat)
deriving DecidableEq, Repr

/-- A hardware loop level (R130): count, first and last PC of the body. -/
structure LoopLevel where
  count : Word
  first : Word
  last  : Word
deriving DecidableEq, Repr

/-- A call-stack entry (R131): the return PC and the loop levels open at the call. -/
structure CallEntry where
  ret   : Word
  loops : Nat
deriving DecidableEq, Repr

/-- A hint waiting for its second word (R43 to R46). -/
inductive Hint where
  | imm (payload : BitVec 24)
  | modifier (rnd : BitVec 3) (sat : BitVec 2)
  | sched (heavy : BitVec 1) (advice : BitVec 2)
deriving DecidableEq, Repr

/-- Why a unit does not issue, with its stall reason. -/
inductive Wait where
  | ready
  /-- Arrived at `rcv`, with the PC at it (R152, reason 12). -/
  | arrived
  /-- Fused at an `rcv` whose back edge leaves the segment, when the unit that completed the join ended or left: takes the scope fault of that
  word when it is next chosen (R126, R152). -/
  | edgeOut
  /-- Parked on translation (R121, reason 9). -/
  | parked
  /-- Parked by a switch marker (R34, reason 6). -/
  | switchPark
  /-- Held by the interlock (R35, reason 7). -/
  | hold
  /-- A detached taken side whose target word is not in the buffer yet (R148, reason 12). -/
  | takenSide
  /-- Stalled at its word, which is tested again when the unit is chosen; the stall reason. -/
  | stall (reason : Nat)
  /-- Completed its segment (R126, reason 5 or 10). -/
  | segmentDone
  /-- Stands at a Joint word as its sender (R198, reason 5). -/
  | joint
  /-- Suspended by `suspend.g` or `waita` on a sector, to go on at its PC when woken (R135, R243, reason 11). -/
  | suspended (sector : Nat)
  /-- Waiting in `lacq` for a write to the sector (R326, reason 20). -/
  | layer (sector : Nat)
  /-- Waiting for a free watch entry (R246, reason 11 or 20). -/
  | watchEntry (reason : Nat)
  /-- Arrived at `regroup` with the value of its operand (R158, reason 23). -/
  | regrouping (i : Instr) (named : Word)
deriving DecidableEq, Repr

/-- A unit of a group: the undivided group, a fragment, or the handler unit (R149, R188). -/
structure GUnit where
  /-- The unit's number within its group; no two units the group ever had share one. -/
  uid    : Nat
  mask   : Mask
  pc     : Word
  fmt    : Word
  /-- Open loop levels, innermost first. -/
  loops  : List LoopLevel
  /-- Call stack, newest entry first. -/
  stack  : List CallEntry
  /-- Index of the innermost reconvergence entry. -/
  entry  : Option Nat
  /-- The saved mask of an open `mask.all` region (R157). -/
  region : Option Mask
  wait   : Wait
  hint   : Option Hint
  /-- Lanes that have not completed the memory word at the PC, once some have or the unit has parked there (R121). -/
  unfinished : Option Mask
  /-- Lanes of that word on strongly ordered or release-consistent pages have completed (R121, R262). -/
  ordered : Bool
  /-- The next word issues without a breakpoint check (R415). -/
  skipBp : Bool
  /-- The value of the state's step counter when the unit last became ready (R148). -/
  since  : Nat
deriving DecidableEq, Repr

/-- A valid reconvergence entry (R150). -/
structure Recon where
  fmts   : Word
  join   : Mask
  arr    : Mask
  /-- Bits [56:2] of the lane branch's PC. -/
  bpc    : BitVec 55
  depth  : Nat
  parent : Option Nat
deriving DecidableEq, Repr

/-- What a unit's receiver executes (R126): nothing taken yet, a segment with its first and last PC, or code without a segment (a
free group, a grid context, a handler unit). -/
inductive Segment where
  | none
  | upTo (first last : Word)
  | unbounded
deriving DecidableEq, Repr

/-- A trap's cause number with TVAL, TSTAT and TLANE (R190). -/
structure TrapInfo where
  cause : Nat
  tval  : Word
  tstat : Word
  tlane : Mask
deriving DecidableEq, Repr

/-- The trap registers of a group (R187 to R196). -/
structure TrapRegs where
  tmode  : Bool
  tcause : Word
  tval   : Word
  tlane  : Mask
  tstat  : Word
  tunit  : Nat
  tscr   : Vector Word 4
  savea  : Word
deriving DecidableEq, Repr

/-- A trap to be taken: the unit, what the trap registers receive, what the resume PC skips, and whether it is asynchronous (R188,
R192). -/
structure Draining where
  unit  : Nat
  info  : TrapInfo
  skip  : Word
  async : Bool
deriving DecidableEq, Repr

/-- An entry of a replay list (R200, R205): the record, the queue register that pushed it and its binding. -/
structure ReplayEntry where
  /-- Order of acceptance. -/
  id      : Nat
  record  : List Word
  queue   : Nat
  binding : Word
deriving DecidableEq, Repr

/-- What trace and sampling remember of a group (R420 to R424). -/
structure TraceState where
  /-- REASON of the SYNC that the next word's packet stream needs first; none when none is due. -/
  syncDue   : Option Nat
  packets   : Nat
  /-- Words issued after the word that caused the previous packet. -/
  words     : Nat
  lastUnit  : Option Nat
  /-- The group has issued a word since its previous sample. -/
  issued    : Bool
deriving DecidableEq, Repr

/-- A resident group (R39, R140, R142, R144, R188). -/
structure Group where
  id      : Nat
  core    : Nat
  slot    : Nat
  /-- First slice of the gang within its scheduler. -/
  gang    : Nat
  width   : Nat
  block   : Nat
  /-- The group's index in its block. -/
  index   : Nat
  free    : Bool
  sregs   : Vector Word 32
  /-- Bit r: `s`r is a pending token or awaits a completion's write (R16). -/
  pending : BitVec 32
  /-- Bit r: `s`r holds a completion word that no instruction has read (R424). -/
  unread  : BitVec 32
  /-- Faults that the first instruction to read a completed token raises (R16). -/
  tokFaults : List (Nat × TrapInfo)
  /-- Lane `l` of allotment register `r`, at key 32 r + l; unlisted reads 0 (R23). -/
  vregs   : Sparse Word32
  /-- Chunks of 8 registers in the allotment (R140). -/
  chunks  : Nat
  vwin    : Nat
  /-- Lane masks of p0 to p7; the entry of p0 is never read (R41). -/
  preds   : Vector Mask 8
  gens    : Vector Word32 32
  /-- Lanes that have not executed `exit`. -/
  live    : Mask
  rgmap   : Vector Word 6
  fflg    : BitVec 6
  role    : Nat
  acbase  : Word
  aclim   : Word
  qb      : Vector Word 16
  dvals   : Vector Word 6
  /-- Unconsumed decision records, oldest first (R127). -/
  queue   : List (BitVec 512)
  nextSeq : BitVec 24
  segment : Segment
  baseDepth : Nat
  /-- Ascending by lowest lane (R192). -/
  units   : List GUnit
  nextUid : Nat
  recon   : List (Nat × Recon)
  handler : Option GUnit
  trap    : TrapRegs
  /-- The group stopped for a double fault (R189). -/
  doubleFault : Bool
  /-- Halted by cause 22, 23 or 26 until `rte` (R416). -/
  halted  : Bool
  /-- Asynchronous requests not taken yet (R191). -/
  async   : List TrapInfo
  /-- A trap that the group enters once the AtomicOps it has issued are complete (R188). -/
  draining : Option Draining
  replay  : List ReplayEntry
  lastIssue : Nat
  /-- PID and THREAD of the joined name (R413). -/
  pid     : BitVec 24
  thread  : BitVec 16
  trace   : TraceState
deriving DecidableEq, Repr

/-- A link from a context to one receiver: the receiver's number by R203 (group index, block index or rank), the next SEQ, and how many
records of the log a late receiver has still to take (R447). -/
structure Link where
  dest : Party
  key  : Nat
  seq  : BitVec 24
  behind : Nat
deriving DecidableEq, Repr

/-- What an upper context is doing. -/
inductive CtxState where
  | scanning
  /-- Its queue is empty and its segment is complete (R129). -/
  | needRecord
  | atBar
  | atJoint
  /-- Waits for its receivers at a word of class Joint that is no instruction, and faults when it performs its own part (R50, R124). -/
  | badJoint (word : Nat)
  /-- Has sent its value at a Send word and waits for the combination (R198). -/
  | sending
  /-- Scans no further after a Foreign word (R124). -/
  | stopped
  /-- `suspend.b` has found its counter low and waits for drains and a slot; whether a wake-up has come (R137). -/
  | retiring (sector : Nat) (target : Word) (woken : Bool)
  /-- Its block lies in a suspension slot (R137). -/
  | retired
  /-- A grid context that reads `k0` or would end before confirmation (R357). -/
  | unconfirmed
  /-- Has emitted END; kept while late receivers still take its record log (R447). -/
  | finished
deriving DecidableEq, Repr

/-- An upper sequencer context: scope 2 block, 3 cluster, 4 grid (R122, R142). -/
structure Ctx where
  id      : Nat
  scope   : Nat
  grid    : Nat
  /-- The block of a block context. -/
  block   : Nat
  /-- The cluster it lives on. -/
  cluster : Nat
  /-- The rank of a cluster-scope context (R123). -/
  rank    : Nat
  regs    : Vector Word 16
  pc      : Word
  /-- First PC of the pending, unemitted run. -/
  start   : Word
  segment : Segment
  baseDepth : Nat
  dvals   : Vector Word 6
  sdv     : BitVec 6
  sd      : Vector Word 6
  loops   : List LoopLevel
  stack   : List CallEntry
  queue   : List (BitVec 512)
  nextSeq : BitVec 24
  links   : List Link
  /-- The record log of R447, oldest first; kept while `logging`. -/
  log     : List (BitVec 512)
  logging : Bool
  logBase : Word
  state   : CtxState
  frozen  : Bool
  /-- Its state has been saved by `seqsv` and not loaded since (R206). -/
  saved   : Bool
  fault   : Option TrapInfo
  /-- The group that has taken the fault (R193). -/
  reporter : Option Nat
  /-- A failed walk: its page and the TSTAT bits. -/
  walkFault : Option (Nat × Word)
  /-- The Joint or Send word at which it stands, and that word's PC (R124). -/
  joint   : Option (Instr × Word)
  /-- A value sent upward by a Send word and not combined yet. -/
  sent    : Option Word
  /-- The senders of the Joint word at which it stands, and the values of senders that have ended since (R132, R171). -/
  parties : List Party
  got     : List (Word × Word)
  /-- The hint of a pair whose second word is the context's own (R43). -/
  hint    : Option Hint
  /-- Progress ticks spent waiting without progress (R410), and what its receivers had completed at the last tick. -/
  watchdog : Nat
  watchMark : Nat
deriving DecidableEq, Repr

/-- A role preset (R141, R332). -/
structure Role where
  entry : Int
  valloc : Nat
  vwin  : Nat
  valid : Bool
deriving DecidableEq, Repr

/-- A launch descriptor (R332, R354). -/
structure LaunchDesc where
  entry : Word
  nblk : Nat
  cset : Nat
  ngrp : Nat
  width : Nat
  split : Nat
  fused : Bool
  fallback : Bool
  carve : Nat
  regp : Nat
  acres : Nat
  chmask : BitVec 16
  sqmask : BitVec 16
  savebase : Word
  savestride : Word
  roleof : BitVec 128
  roles : List Role
  gargs : List Word
  bargs : List Word
  pred : Nat
  slot : Word
  psel : Nat
  site : BitVec 32
  aslice : Nat
  abase : Word
deriving DecidableEq, Repr

/-- Whether a block runs, is retired in a suspension slot (R137), or has ended and its accumulator rows wait for its tasks
(R305). -/
inductive BlockState where
  | running
  | spent
  /-- Retired on a watched sector; the slot's number. -/
  | retired (sector slot : Nat) (woken : Bool)
deriving DecidableEq, Repr

/-- The part of a block's register pool that lies in one gang: its scheduler, first slice and slices, and the chunks that the block has
reserved there and no group holds (R140, R144). -/
structure PoolShare where
  sched  : Nat
  gang   : Nat
  slices : Nat
  chunks : Nat
deriving DecidableEq, Repr

/-- A placed block (R122, R137, R140, R220, R288, R326, R360). -/
structure Block where
  id      : Nat
  grid    : Nat
  asid    : Nat
  core    : Nat
  /-- Its index in the grid (`b0` at creation). -/
  index   : Nat
  /-- Rank and size of its cluster set; the set's first block index names the set (R222). -/
  rank    : Nat
  setSize : Nat
  timed   : Bool
  /-- Group indices the block has ever held. -/
  held    : Mask
  carveStart : Nat
  carve   : Nat
  /-- Scratchpad bytes by offset; unlisted reads 0 (R220). -/
  pad     : Sparse Byte
  fallback : Bool
  /-- Pinned fallback lines by index ⌊o / 256⌋ (R229). -/
  pinned  : List Nat
  regPool : List PoolShare
  acRows  : Nat
  acResv  : Nat
  /-- Accumulator element `e` of block row `r`, at key 16 r + e; unlisted reads 0 (R287, R288). -/
  acc     : Sparse Word32
  /-- Residency words held by `lacq` (R326): physical address and key. -/
  holds   : List (Nat × Nat)
  confirmed : Bool
  tail    : Bool
  state   : BlockState
  /-- The groups of a retired block, as its slot keeps them (R137). -/
  saved   : List Group
deriving DecidableEq, Repr

/-- A grid: one launch, or the tail of one (R340, R357 to R359). -/
structure Grid where
  id      : Nat
  asid    : Nat
  partition : Nat
  home    : Nat
  qid     : Nat
  pos     : Nat
  prio    : Nat
  timed   : Bool
  desc    : LaunchDesc
  /-- The first block index not placed yet, and the index after the last one. -/
  next    : Nat
  count   : Nat
  /-- Clusters that hold a cluster-scope context, in rank order. -/
  ranks   : List Nat
  predicted : Bool
  confirmed : Bool
  tail    : Bool
  /-- The tag of a restore launch (R207). -/
  restore : Option Word
  preempted : Bool
  /-- Pre-empted before confirmation: its blocks have stopped, and their squash waits for pages that walk (R361, R363). -/
  stopped : Bool
  /-- The grid's END has been emitted and every block has ended. -/
  ended   : Bool
  /-- STATUS of its record when it ends: 0, or 1 by R358. -/
  status  : Nat
  /-- `k0` of the grid: P before confirmation, the true count after (R358, R366). -/
  k0      : Word
  /-- The pages of walks for the grid that have failed (R357, R361). -/
  walkFault : List Nat
  /-- Blocks placed whose cursor word is not zeroed yet, since its page walks (R357). -/
  cursors : List Nat
deriving DecidableEq, Repr

/-- A kernel-table entry of a loaded image, as `spawn` reads it (R178, R445): the PC of entry e, where it exists. -/
structure Kernel where
  start   : Word
  entries : List (Option Word)
deriving DecidableEq, Repr

/-- A layer of a model context (R320), with what the fetch machinery knows of it. -/
structure Layer where
  check   : Nat
  srcaddr : Word
  srclen  : Nat
  srckind : Nat
  srcq    : Nat
  wsize   : Nat
  wbase   : Word
  pin     : Bool
  /-- Physical address of its residency word, and the key of its page. -/
  resWord : Nat
  resKey  : Nat
  /-- Frames of the pool mapped behind its weights while it is fetched, resident or evicting. -/
  frames  : List Nat
  /-- Order in which it became resident (R324). -/
  since   : Nat
deriving DecidableEq, Repr

/-- A registered model context (R320 to R324). -/
structure Model where
  id      : Nat
  asid    : Nat
  lookahead : Nat
  pri     : Nat
  layers  : List Layer
  /-- Free frames of the residency pool. -/
  pool    : List Nat
  nvmeTable : Nat
  nvmeEntries : Nat
  /-- The layer whose fetch runs. -/
  fetching : Option Nat
deriving DecidableEq, Repr

/-- A context (R64, R196, R226, R374, R389). -/
structure Context where
  asid    : Nat
  fn      : Nat
  partition : Nat
  /-- Handler entry PC; none until an image with a runtime is loaded. -/
  tvec    : Option Word
  rtver   : Nat
  /-- Entries of the four shape tables that differ from the reset table, at key 512 t + n (R64). -/
  shapes  : Sparse Word32
  /-- Valid or written entries of the tensor descriptor table (R226); unlisted entries have VALID 0. -/
  tensors : List (Nat × BitVec 512)
  kernels : List Kernel
  /-- Virtual address above every section placed so far (R370). -/
  codeTop : Word
  images  : Nat
deriving DecidableEq, Repr

/-- A timed record admitted and not retired (R343). -/
structure Admitted where
  qid : Nat
  pos : Nat
  cores : Nat
  budget : Nat
  deadline : Nat
  pushed : Bool
deriving DecidableEq, Repr

/-- A partition (R342, R435). -/
structure Partition where
  id      : Nat
  fn      : Nat
  /-- Its clusters in rank order. -/
  clusters : List Nat
  timed   : Bool
  /-- FLOOR as a STEP (R402). -/
  floor   : Nat
  share   : Nat
  suspBase : Word
  suspSlots : Nat
  /-- Watchdog limit in progress ticks; 0 disables (R410). -/
  watchLimit : Nat
  admitted : List Admitted
  /-- The request that created it, until every cluster of it has reached FLOOR (R401). -/
  creating : Option Request
deriving DecidableEq, Repr

/-- A fetched record of a queue (R334, R336). -/
structure Fetched where
  pos     : Nat
  record  : List Word
  desc    : Option LaunchDesc
  /-- The entry stands in its pool. -/
  pushed  : Bool
  /-- STATUS once the record completed (R345). -/
  status  : Option Nat
  /-- Step 3 of R336 is over: no dependence, or it has been met. -/
  depMet  : Bool
  /-- Step 4 of R336 is over. -/
  admittedOk : Bool
  /-- Its grid was pre-empted before confirmation: the manager keeps the entry until a restore names it (R363). -/
  kept    : Bool
  /-- Progress ticks spent with the push pending (R410). -/
  watchdog : Nat
  /-- The queue's generation when it was pushed (R333), and the block that popped its continuation (R351). -/
  gen     : BitVec 32
  /-- The die whose thread has fetched it (R356). -/
  die     : Nat
  holder  : Option Nat
  /-- A rung that runs covers it (R351). -/
  hit     : Bool
deriving DecidableEq, Repr

/-- A wait packet of a Fentos thread (R335): its words, the place of the word watched, and whether its condition has held at a test. -/
structure WaitPacket where
  addr  : Word
  value : Word
  mask  : Word
  cond  : Nat
  /-- Physical address and key of the word watched. -/
  pa    : Nat
  key   : Nat
  /-- The position whose dependence is waited for; none for WIDX. -/
  pos   : Option Nat
  met   : Bool
deriving DecidableEq, Repr

/-- A queue (R329, R334 to R337). -/
structure Queue where
  qid     : Nat
  fn      : Nat
  asid    : Nat
  partition : Nat
  /-- Physical address of the descriptor, and its virtual address. -/
  desc    : Nat
  descVa  : Word
  timed   : Bool
  state   : Nat
  err     : Nat
  gen     : BitVec 32
  fetchedCount : Nat
  /-- Die and thread number of the mapped Fentos thread. -/
  thread  : Option (Nat × Nat)
  idleSince : Nat
  records : List Fetched
  pid     : BitVec 24
  tid     : BitVec 16
  /-- OP 8 restores received: position and tag. -/
  restores : List (Nat × Word)
  /-- Key of the descriptor's page, and the pages of walks for the queue that have failed (R338, R345). -/
  descKey : Nat
  walkFault : List Nat
  /-- The wait packet of its thread, while armed (R335). -/
  packet  : Option WaitPacket
deriving DecidableEq, Repr

/-- A pool entry: a continuation, a launch, or the resume of a retired block (R333, R339). -/
inductive PoolEntry where
  | cont (words : List Word)
  | launch (qid pos : Nat) (tailFrom : Option Nat)
  | resume (block : Nat)
deriving DecidableEq, Repr

/-- A translated leaf (R391, R395). -/
structure Leaf where
  frame : Nat
  r : Bool
  w : Bool
  x : Bool
  p : Bool
  ord : Nat
  key : Nat
deriving DecidableEq, Repr

/-- A cached translation of one 4 KiB page (R398). -/
structure TlbEntry where
  asid : Nat
  page : Nat
  leaf : Leaf
deriving DecidableEq, Repr

/-- Who waits for a walk (R397, R432). A unit waits at the lowest of its addresses in the page. -/
inductive Waiter where
  | unit (g u : Nat) (va : Word)
  | context (c : Nat)
  /-- A command of a channel, by its number. -/
  | copy (cl ch id : Nat)
  | layer (mdl : Nat)
  | queue (qid : Nat)
  | rootPort (port : Nat)
  | grid (grid : Nat)
  /-- The device's accesses to cursor words of a grid's arena (R357, R368). -/
  | arena (grid : Nat)
deriving DecidableEq, Repr

/-- A translation request or the walk that serves it (R394 to R396). -/
structure Walk where
  id      : Nat
  asid    : Nat
  page    : Nat
  /-- 0 read, 1 write, 2 fetch (R432). -/
  cls     : Nat
  level1  : Bool
  waiters : List Waiter
  die     : Nat
  /-- 0 requested, 1 running on an engine, 2 faulted and held for the ring, 3 waits for a reply. -/
  phase   : Nat
  /-- The fault-ring index once written, and whether the fault is one of protection. -/
  index   : Nat
  prot    : Bool
  va      : Word
deriving DecidableEq, Repr

/-- Where the bytes of an access lie. -/
inductive Place where
  /-- Offset in a block's scratchpad. -/
  | pad (block off : Nat)
  /-- Translated: physical address, ordering kind, key and virtual address. -/
  | phys (pa ord key : Nat) (va : Word)
deriving DecidableEq, Repr

/-- A register write that has issued and not completed (R34, R35, R113, R277): a load's lanes, or a scalar. -/
structure PendingWrite where
  id    : Nat
  group : Nat
  /-- Allotment register of the low half, and whether a pair is written; none for a scalar. -/
  vreg  : Option (Nat × Bool)
  sreg  : Nat
  /-- Lane and value. -/
  lanes : List (Nat × Word)
  /-- An atomic's reply, not a load's data (R277). -/
  reply : Bool
deriving DecidableEq, Repr

/-- An AtomicOp in flight to a completer outside the module (R275, R277). -/
structure HostAtomic where
  id : Nat
  group : Nat
  /-- The unit that issued it, and that unit's mask. -/
  unit : Nat
  lanes : Mask
  op : Nat
  wide : Bool
  place : Place
  operand : Word
  swap : Word
  sreg : Nat
  /-- The scope of its acquire. -/
  acq : Option Nat
deriving DecidableEq, Repr

/-- A cached sector of a core's tile cache (R223, R230): its data, the mask of bytes written, and the unconfirmed block
that marked it (R283). -/
structure Sector where
  core : Nat
  asid : Nat
  tid  : Nat
  /-- The line's coordinates as one number (R223), the sector's row in the line, and the virtual sector number (virtual address / 32). -/
  line : Nat
  row  : Nat
  vsec : Nat
  /-- Physical address of the sector. -/
  pa   : Nat
  /-- The ordering kind of its page (R259). -/
  ord  : Nat
  key  : Nat
  data : BitVec 256
  dirty : BitVec 32
  marked : Option Nat
  /-- Its bytes have been stored to through another view of the same cache since it was fetched (R231, R266). -/
  stale : Bool
  /-- The transfers and copy commands that have written it, by number, until it is written back (R251, R281). -/
  moves : List Nat
  /-- Groups whose touch set holds the sector (R424). -/
  touch : List Nat
  /-- Of a marked sector: whether a fence of its block lies after the stores that it holds (R231, R283). -/
  fenced : Bool
deriving DecidableEq, Repr

/-- A watch entry (R135, R243, R246, R326). -/
structure Watch where
  sector : Nat
  group  : Nat
  unit   : Nat
deriving DecidableEq, Repr

/-- A tile task accepted by the tile scheduler (R291 to R296). -/
structure Task where
  id     : Nat
  group  : Nat
  block  : Nat
  record : List Word
  /-- Its first block row and the count. -/
  row    : Nat
  rows   : Nat
  /-- Its group's window at acceptance: first block row and the row beyond (R305). -/
  window : Nat × Nat
  /-- Commands, tasks and transfers on which it depends, by number (R295). -/
  deps   : List Nat
  /-- Allotment registers of its register streams that it has not read yet: first and count (R292, R305). -/
  streams : List (Nat × Nat)
  /-- The register streams, once read. -/
  kept   : List (List Byte)
  /-- The shape tables as they stood when it started (R298). -/
  shapes : Sparse Word32
  queue  : Nat
  binding : Word
deriving DecidableEq, Repr

/-- A copy command accepted by a channel (R308, R310). -/
structure CopyCmd where
  id     : Nat
  group  : Nat
  block  : Nat
  asid   : Nat
  core   : Nat
  record : List Word
  level1 : Bool
  queue  : Nat
  binding : Word
  started : Bool
  /-- A stream's bytes delivered and popped (R315, R319); of another command the sectors or elements moved so far. -/
  moved  : Nat
  popped : Nat
  /-- What bytes that the command has written held before, by their virtual address, where it may still read them (R313). -/
  kept   : List (Nat × Nat)
  /-- A walk for it that failed: the page and the TSTAT bits (R312). -/
  walkFault : Option (Nat × Word)
deriving DecidableEq, Repr

/-- Who accesses memory: its core, whether the cluster's L1 is fused (R228), its address space, its group and block, and
whether the block is unconfirmed (R283). -/
structure Accessor where
  core  : Nat
  fused : Bool
  asid  : Nat
  group : Option Nat
  block : Option Nat
  unconfirmed : Bool
deriving DecidableEq, Repr

/-- A line of a view: tensor id and tile coordinates (R223, R225). -/
structure Line where
  tid : Nat
  t0  : Nat
  t1  : Nat
  t2  : Nat
  t3  : Nat
deriving DecidableEq, Repr

/-- A sector of a view: its line, its row there, its virtual sector number, and where its bytes lie. -/
structure SectorRef where
  line : Line
  row  : Nat
  vsec : Nat
  pa   : Nat
  ord  : Nat
  key  : Nat
deriving DecidableEq, Repr

/-- A tile transfer, cache maintenance or descriptor write after issue (R249, R252, R253). A transfer holds, for each
32-byte row of its range in a block's scratchpad, the sector of the tile, or none for an absent row. -/
inductive TileJob where
  | transfer (load : Bool) (scope : Option Nat) (padBlock padOff : Nat) (rows : List (Option SectorRef))
  /-- The lines of the tile, or none for every line of the id. -/
  | maintain (inval : Bool) (scope tid : Nat) (lines : Option (List Line))
  | describe (entry : Nat) (image : BitVec 512)
deriving DecidableEq, Repr

/-- A tile job with its group, status register and the sectors it moves (R250). -/
structure TileOp where
  id    : Nat
  group : Nat
  sreg  : Nat
  job   : TileJob
deriving DecidableEq, Repr

/-- A stream queue of a core (R307, R315): bytes delivered and not popped, oldest first, each with the number of its command. -/
structure Stream where
  sq    : Nat
  bytes : List (Nat × Byte)
deriving DecidableEq, Repr

/-- An issue scheduler (R34, R341, R420): the unit in its run and the issue cycles the run has lasted, the slot sampled last. -/
structure Sched where
  run     : Option (Nat × Nat)
  runLen  : Nat
  sampled : Nat
  /-- `tsc` of the cluster at its last issue cycle. -/
  cycle   : Nat
  /-- The state's step counter at its last 32 issues, newest first (R148). -/
  recent  : List Nat
  /-- What has issued in the first slot of its current cycle: group, charge, and whether the second slot stays empty (R405). -/
  first   : Option (Nat × Nat × Bool)
  /-- The second slot of the cycle is filled. -/
  paired  : Bool
deriving DecidableEq, Repr

/-- A core (R1, R219, R246, R294, R315, R414). -/
structure Core where
  num     : Nat
  /-- Split in KiB; 0 until a block is placed (R219). -/
  split   : Nat
  /-- ASID of the last block begun here (R232). -/
  lastAsid : Option Nat
  watches : List Watch
  watchQueue : List (Nat × Nat)
  scheds  : Vector Sched 4
  tasks   : List Task
  engines : Vector (Option Task) 2
  streams : List Stream
  bpc0    : Vector Word 8
  bpc1    : Vector Word 8
  dbgctl  : Word
  trbase  : Word
  smpbase : Word
  /-- Packets that issued words have caused and the issue hardware has not written yet, oldest first (R421). -/
  packets : List (Nat × List Word)
  /-- A dropped packet waits for its OVF packet: LOST at the drop (R423). -/
  ovfDue  : Option Word
  fenced  : Bool
deriving DecidableEq, Repr

/-- Where a droop sequence stands (R406): none, 6 stretched cycles, then 64 cycles of half issue. -/
inductive Droop where
  | none
  | stretch
  | half
deriving DecidableEq, Repr

/-- A cluster (R1, R228, R307, R339, R401 to R408). -/
structure Cluster where
  num     : Nat
  partition : Option Nat
  step    : Nat
  target  : Nat
  droopth : Nat
  pairlim : Nat
  crec    : Nat
  /-- Charge summed in the running window of 16 cycles (R404). -/
  window  : Nat
  tsc     : Word
  droop   : Droop
  /-- `tsc` at the first cycle of half issue (R406). -/
  halfFrom : Nat
  /-- `tsc` at the start of the last stretch (R406). -/
  lastStretch : Option Nat
  fused   : Bool
  /-- Pool entries with their priority, oldest first (R339). -/
  pool    : List (Nat × PoolEntry)
  /-- Entries of join decrements that wait for room in the pool (R347). -/
  waiting : List (Nat × PoolEntry)
  channels : List (Nat × List CopyCmd)
  /-- Completion words the system channel reported to the manager (R309). -/
  sysDone : List Word
  fenced  : Bool
deriving DecidableEq, Repr

/-- A predictor entry (R356): tag (ASID and SITE[31:6]) and up to four counts, oldest first. -/
structure Predictor where
  die  : Nat
  index : Nat
  asid : Nat
  site : Nat
  counts : List Nat
deriving DecidableEq, Repr

/-- The entry of an address space as the requesters see it until an invalidation (R389, R398), with the fault ring's own indexes. -/
structure AddrSpace where
  asid : Nat
  fn   : Nat
  w0   : Word
  root : Word
  ring : Word
  /-- Records the device has written into the ring (FWIDX of R434). -/
  nextIndex : Nat
deriving DecidableEq, Repr

/-- A host-visible function's BAR0 registers (R433). -/
structure Func where
  num    : Nat
  rqbase : Word
  en     : Bool
  log2   : Nat
  rqwidx : Word
  rqridx : Word
  err    : Bool
  flr    : Bool
  /-- MSI-X vectors raised, newest first (R433). -/
  msix   : List Nat
  /-- After an error no request is taken until EN has been written 0 and then 1. -/
  blocked : Bool
deriving DecidableEq, Repr

/-- A public key of the system die (R373). -/
structure PubKey where
  id : Nat
  x : Nat
  y : Nat
  revoked : Bool
  firmware : Bool
  floor : Nat
deriving DecidableEq, Repr

/-- Entries of the persistent log (R375, R377, R410, R412, R427). -/
inductive LogEntry where
  | refusedImage (code : Nat) (digest : List Byte)
  | slotFailed (engine : Nat)
  | bootStage (stage : Nat)
  | watchdog (dog : Watchdog)
  | contained (unit : FenceUnit)
  | walkBreach (asid : Nat)
  | writeSkipped (addr : Nat)
  | atsRefused (port : Nat)
  | doubleFault (group : Nat)
deriving DecidableEq, Repr

/-- A reset rung that runs (R350, R351). -/
inductive Rung where
  | queue (qid : Nat) | engine (target : Nat) | partition (id : Nat) | die (n : Nat) | function (fn : Nat)
  /-- Containment of a core or a cluster, which acts like a rung (R353). -/
  | fence (unit : FenceUnit)
deriving DecidableEq, Repr

/-- A running rung: its covered queues and the requests that wait for it (R350, R352). -/
structure RungRun where
  id      : Nat
  rung    : Rung
  queues  : List Nat
  requests : List Request
deriving DecidableEq, Repr

/-- A link port (R437, R438). -/
structure LinkPort where
  port    : Nat
  down    : Bool
  expect  : BitVec 16
  unacked : List (BitVec 16)
  replays : Nat
  acked   : List (BitVec 16)
deriving DecidableEq, Repr

/-- A sector of a system core's caches: physical sector number, key, data, bytes written (R273). -/
structure HartSector where
  sector : Nat
  key    : Nat
  data   : BitVec 256
  dirty  : BitVec 32
deriving DecidableEq, Repr

/-- A system-core hart as the device sees it (R273, R417, R429). -/
structure Hart where
  num    : Nat
  asid   : Nat
  pid    : BitVec 24
  thread : BitVec 16
  halted : Bool
  /-- Sectors of its own caches (R273). -/
  cache  : List HartSector
  /-- The physical address and the bytes of its load reservation (R273). -/
  reserved : Option (Nat × Nat)
  lastLoad : Word
deriving DecidableEq, Repr

/-- A translation that a device behind a root port holds (R398 to R400): address space, page, frame and key. -/
structure HeldTranslation where
  asid  : Nat
  page  : Nat
  frame : Nat
  key   : Nat
deriving DecidableEq, Repr

/-- A root port's tables (R399): PASID to ASID, the default ASID, the functions of its devices whose ATS is enabled, and the translations (ASID,
page and key) that its devices hold. -/
structure RootPort where
  port    : Nat
  pasids  : List (Nat × Nat)
  default : Option Nat
  ats     : List Nat
  held    : List HeldTranslation
  /-- Responses sent: page-request and translation answers, newest first. -/
  replies : List Word
deriving DecidableEq, Repr

/-- What a restore must match of a pre-empted grid (R207): its tag and address space, and the grid while it still stands. -/
structure Shelved where
  tag   : Word
  asid  : Nat
  grid  : Nat
  carve : Nat
  fused : Bool
  width : Nat
deriving DecidableEq, Repr

/-- An invalidation that has not completed (R398): ASID, first page, page count (none: the whole space), its request, and the root ports
whose devices have still to drop translations. -/
structure Invalidation where
  id : Nat
  asid : Nat
  first : Nat
  count : Option Nat
  request : Option Request
  ports : List Nat
deriving DecidableEq, Repr

/-- The power caps of the rack (R411). -/
structure Caps where
  seq    : BitVec 32
  cap    : Nat
  lease  : Nat
  /-- Reference time at which the lease ends; none when FBCAP applies. -/
  expiry : Option Nat
  fbcap  : Nat
deriving DecidableEq, Repr

/-- The module. -/
structure State where
  /-- Events that are due, in order: what the engines, the timers and the outside world do next. -/
  due      : List Instr
  /-- Who performs the next instruction step. -/
  sel      : Option Agent
  /-- The model's own: how many open choices have been drawn, how many steps issued, the next unused number. -/
  draws    : Nat
  steps    : Nat
  ids      : Nat
  tsr      : Word
  /-- Bytes of physical memory (R428): what the L2s and the completers hold. -/
  mem      : List Host.Cell
  /-- The key epoch under which a module-HBM sector was written, where it is not 0. -/
  sectorKeys : Sparse Nat
  /-- Dies whose HBM holds unrelated values wherever no sector has been written since (R351, R427), with a number of that loss. -/
  lost     : List (Nat × Nat)
  /-- Epoch of the key in a loaded key slot (R400); an unlisted slot is empty. -/
  keySlots : List (Nat × Nat)
  /-- Pages and HBM channels that containment has fenced (R26). -/
  poison   : List FenceUnit
  /-- Writes of groups over a link port that was down, by group and address: the next release at `sys` reports them (R438). -/
  unsettled : List (Nat × Word)
  cache    : List Sector
  tlb      : List TlbEntry
  /-- Pages that the device itself has mapped: layers of models and sections of code images (R323, R375). -/
  mapped   : List TlbEntry
  walks    : List Walk
  spaces   : List AddrSpace
  /-- Physical base of the table of address-space entries (R389). -/
  spaceBase : Word
  contexts : List Context
  partitions : List Partition
  queues   : List Queue
  grids    : List Grid
  ctxs     : List Ctx
  blocks   : List Block
  groups   : List Group
  clusters : List Cluster
  cores    : List Core
  writes   : List PendingWrite
  atomics  : List HostAtomic
  tileOps  : List TileOp
  models   : List Model
  predictors : List Predictor
  funcs    : List Func
  keys     : List PubKey
  /-- Engine classes by number (0 management controller, 1 Fentos, 2 walkers, 3 copy engines, 4 system cores), and whether the last check of
  their firmware slot passed: the engine then runs the slot's image, otherwise the boot ROM's (R377). -/
  slots    : List (Nat × Bool)
  log      : List LogEntry
  rungs    : List RungRun
  links    : List LinkPort
  harts    : List Hart
  ports    : List RootPort
  invals   : List Invalidation
  /-- PIDs whose STOPALL is 1 (R417). -/
  stopall  : List (BitVec 24)
  caps     : Caps
  /-- Network-on-chip frequency of each die in MHz (R409). -/
  bellows  : Vector Nat 8
  /-- Boot stages completed, 0 to 6 (R427). -/
  boot     : Nat
  /-- Record logs of pre-empted grids, by base (R447). -/
  logs     : List (Word × List (BitVec 512))
  /-- Pre-empted grids that have not been restored (R197, R207). -/
  shelved  : List Shelved
  /-- Values returned to readers outside the module: address and bytes, newest first (R274, R276). -/
  replies  : List (Nat × List Byte)
deriving DecidableEq, Repr

/-- The module right after reset (R427): no context, no work, memory with nothing listed, boot about to run. -/
def State.reset : State :=
  { due := [], sel := none, draws := 0, steps := 0, ids := 1, tsr := 0, mem := [], sectorKeys := [], lost := [], keySlots := [],
    poison := [], unsettled := [], cache := [], tlb := [], mapped := [], walks := [], spaces := [], spaceBase := 0, contexts := [], partitions := [], queues := [],
    grids := [], ctxs := [], blocks := [], groups := [], clusters := [], cores := [], writes := [], atomics := [],
    tileOps := [], models := [], predictors := [], funcs := [], keys := [], slots := [], log := [], rungs := [],
    links := [], harts := [], ports := [], invals := [], stopall := [],
    caps := { seq := 0, cap := 4200, lease := 0, expiry := none, fbcap := 4200 },
    bellows := Vector.replicate 8 800, boot := 0, logs := [], shelved := [], replies := [] }

end Sys2Proof.Machine
end

