-- ==== Sys2Proof/Machine/Bits.lean ====
section
/-!
DEFINITION. Bit fields, byte order, lane masks and the sparse contents that memory and register files share.
-/

namespace Sys2Proof.Machine

/-- Bits [hi:lo] of a 64-bit value as a number (R4). -/
def bits (w : Word) (hi lo : Nat) : Nat := w.toNat / 2 ^ lo % 2 ^ (hi + 1 - lo)

/-- Bit n of a 64-bit value. -/
def bit (w : Word) (n : Nat) : Bool := w.getLsbD n

/-- A field value placed at bit lo. -/
def place (v lo : Nat) : Word := BitVec.ofNat 64 (v * 2 ^ lo)

/-- A truth value as a number. -/
def flag (b : Bool) : Nat := if b then 1 else 0

/-- The signed value of the low n bits of a number. -/
def signedOf (n v : Nat) : Int := if v % 2 ^ n < 2 ^ (n - 1) then (v % 2 ^ n : Int) else (v % 2 ^ n : Int) - 2 ^ n

/-- The lanes of a mask in ascending order. -/
def lanesOf (m : Mask) : List Nat := (List.range 32).filter fun i => m.getLsbD i

/-- The mask of one lane. -/
def laneBit (i : Nat) : Mask := (1#32) <<< i

/-- How many lanes a mask holds. -/
def countLanes (m : Mask) : Nat := (lanesOf m).length

/-- The lowest lane of a mask; 32 when it is empty. -/
def lowestLane (m : Mask) : Nat := (lanesOf m).headD 32

/-- The mask whose lane i holds `f i`. -/
def maskOf (f : Nat → Bool) : Mask :=
  (List.range 32).foldl (fun m i => if f i then m ||| laneBit i else m) 0

/-- The value at a key of sparse contents, or what an unlisted key reads as. -/
def sget {α : Type} (dflt : α) : Sparse α → Nat → α
  | [], _ => dflt
  | (k, v) :: rest, key => if k = key then v else sget dflt rest key

/-- Sparse contents with a value put before the first greater key. -/
def sinsert {α : Type} : Sparse α → Nat → α → Sparse α
  | [], key, v => [(key, v)]
  | (k, w) :: rest, key, v => if key < k then (key, v) :: (k, w) :: rest else (k, w) :: sinsert rest key v

/-- Sparse contents without a key. -/
def sremove {α : Type} : Sparse α → Nat → Sparse α
  | [], _ => []
  | (k, w) :: rest, key => if k = key then sremove rest key else (k, w) :: sremove rest key

/-- Sparse contents after a write: the written value stands at the key, and a value equal to what an unlisted key reads as
removes the entry. -/
def sset {α : Type} [DecidableEq α] (dflt : α) (m : Sparse α) (key : Nat) (v : α) : Sparse α :=
  if v = dflt then sremove m key else sinsert (sremove m key) key v

/-- Keys above a bound, strictly rising, and no value equal to the default. -/
def swfFrom {α : Type} [DecidableEq α] (dflt : α) : Nat → Sparse α → Bool
  | _, [] => true
  | lo, (k, v) :: rest => decide (lo ≤ k) && (decide (v ≠ dflt) && swfFrom dflt (k + 1) rest)

/-- The canonical form of sparse contents. -/
def swf {α : Type} [DecidableEq α] (dflt : α) (m : Sparse α) : Bool := swfFrom dflt 0 m

/-- Sparse contents without the keys that satisfy a test. -/
def sdrop {α : Type} (p : Nat → Bool) (m : Sparse α) : Sparse α := m.filter fun kv => !p kv.1

/-- Byte i of a 256-bit sector. -/
def sectorByte (d : BitVec 256) (i : Nat) : Byte := d.extractLsb' (8 * i) 8

/-- A sector with byte i replaced. -/
def setSectorByte (d : BitVec 256) (i : Nat) (b : Byte) : BitVec 256 :=
  (d &&& ~~~((255#256) <<< (8 * i))) ||| ((b.setWidth 256) <<< (8 * i))

/-- The little-endian number of some bytes (R5). -/
def bytesValue (bs : List Byte) : Nat := leValue' bs
where
  leValue' : List Byte → Nat
    | [] => 0
    | b :: rest => b.toNat + 256 * leValue' rest

/-- The n little-endian bytes of a number (R5). -/
def valueBytes : Nat → Nat → List Byte
  | 0, _ => []
  | n + 1, v => BitVec.ofNat 8 v :: valueBytes n (v / 256)

/-- A 64-byte record's words from its bytes, and the other way (R5). -/
def bytesWords : Nat → List Byte → List Word
  | 0, _ => []
  | n + 1, bs => BitVec.ofNat 64 (bytesValue (bs.take 8)) :: bytesWords n (bs.drop 8)

/-- The bytes of a list of 64-bit words. -/
def wordsBytes (ws : List Word) : List Byte := ws.flatMap fun w => valueBytes 8 w.toNat

/-- Word n of a record; 0 beyond its end. -/
def wordAt (ws : List Word) (n : Nat) : Word := ws.getD n 0

/-- Bits [hi:lo] of word n of a record. -/
def fieldOf (rcd : List Word) (n hi lo : Nat) : Nat := bits (wordAt rcd n) hi lo

/-- A record of 512 bits as eight words, and back (R127). -/
def recordWords (r : BitVec 512) : List Word := (List.range 8).map fun i => r.extractLsb' (64 * i) 64

/-- Eight words as a record of 512 bits. -/
def wordsRecord (ws : List Word) : BitVec 512 :=
  (List.range 8).foldl (fun r i => r ||| ((wordAt ws i).setWidth 512 <<< (64 * i))) 0

/-- Replace the first element that satisfies a test. -/
def replaceFirst {α : Type} (p : α → Bool) (f : α → α) : List α → List α
  | [] => []
  | x :: xs => if p x then f x :: xs else x :: replaceFirst p f xs

/-- Put a record in the place of the one with its number, or at the end. -/
def upsert {α : Type} (key : α → Nat) (x : α) : List α → List α
  | [] => [x]
  | y :: ys => if key y = key x then x :: ys else y :: upsert key x ys

/-- Insert into a list that ascends by a key. -/
def insertBy {α : Type} (key : α → Nat) (x : α) : List α → List α
  | [] => [x]
  | y :: ys => if key x < key y then x :: y :: ys else y :: insertBy key x ys

/-- A list in ascending order of a key; equal keys keep their order. -/
def sortBy {α : Type} (key : α → Nat) (xs : List α) : List α := xs.foldl (fun acc x => insertBy key x acc) []

end Sys2Proof.Machine
end

