-- ==== Sys2Proof/Machine/Check.lean ====
section
/-!
DEFINITION. The checks of R49 that depend only on the word and its hint: codes and reserved values (check 2), register
numbers and pairs (check 3), and whether the word can use the hint (check 4). All of them raise the illegal-instruction
fault at the unit that executes the word (R50).
-/

namespace Sys2Proof.Machine

/-- Whether a register number is one of the file that field [20:16] names at a scope (R162). -/
def regInFile (scope : BitVec 3) (c : BitVec 5) : Bool :=
  match scope.toNat with
  | 0 => decide (c.toNat < 8)
  | 1 => true
  | 2 => decide (c.toNat < 16)
  | 3 => decide (c.toNat < 8)
  | 4 => decide (c.toNat < 16)
  | _ => false

/-- Whether the executing scope `sc` (1 for a group, 2 to 4 for a context) owns a word of this scope (R162, R163). -/
def owns (sc : Nat) (k : BitVec 3) : Bool := if k.toNat ≤ 1 then decide (sc = 1) else decide (sc = k.toNat)

/-- Scope code 0 to 4 and, at its owner, a register of the scope's file (R42, R162, R163). -/
def scopedReg (sc : Nat) (k : BitVec 3) (c : BitVec 5) : Bool :=
  decide (k.toNat ≤ 4) && (!owns sc k || regInFile k c)

/-- The signed word offset of format C, widened by `hint.imm` (R44). -/
def wordOffset (h : Option Hint) (o : BitVec 16) : Int :=
  match h with
  | some (.imm p) => signedOf 40 (p.toNat * 2 ^ 16 + o.toNat)
  | _ => signedOf 16 o.toNat

/-- The imm14 of `sli` and `slui`, widened by `hint.imm` (R44). -/
def imm14 (h : Option Hint) (i : BitVec 14) : Int :=
  match h with
  | some (.imm p) => signedOf 38 (p.toNat * 2 ^ 14 + i.toNat)
  | _ => signedOf 14 i.toNat

/-- The imm8 of format B as 32 bits: sign-extended or, for `.z32`, zero-extended; {payload, imm8} after `hint.imm` (R44, R85). -/
def imm8 (h : Option Hint) (unsigned : Bool) (i : BitVec 8) : Word32 :=
  match h with
  | some (.imm p) => p ++ i
  | _ => if unsigned then i.setWidth 32 else i.signExtend 32

/-- The width in bits of a number format (R51). -/
def formatWidth (code : Nat) : Nat :=
  match code with
  | 0 => 64 | 1 => 32 | 2 => 16 | 3 => 16 | 4 => 8 | 5 => 8 | 6 => 4 | 7 => 8 | 8 => 8 | 9 => 4 | 10 => 32
  | _ => 16

/-- Elements per lane of a conversion between two widths (R101). -/
def elementsPerLane (ws wd : Nat) : Nat := max 1 (32 / min ws wd)

/-- Registers of the group that holds the elements of one side of a conversion (R101). -/
def groupSize (own other : Nat) : Nat := elementsPerLane own other * own / 32

/-- An even register field (R40). -/
def even6 (f : BitVec 6) : Bool := decide (f.toNat % 2 = 0)

/-- Fields that must be even when the float type is `.f64` (R40, R95). -/
def pairs64 (t : BitVec 3) (fs : List (BitVec 6)) : Bool := !decide (t.toNat = 0) || fs.all even6

/-- Alignment of the register group whose size FMT.BFMT decides; nothing to check when BFMT has no size (R101, R103, R105). -/
def bfmtGroup (bfmt code : Nat) (f : BitVec 6) : Bool :=
  decide (3 < bfmt) || decide (f.toNat % groupSize (formatWidth bfmt) (formatWidth code) = 0)

/-- The control-register numbers of R196. -/
def csrExists (n : Nat) : Bool :=
  decide (n ≤ 0xD) || (decide (0x10 ≤ n) && decide (n ≤ 0x22)) || (decide (0x100 ≤ n) && decide (n ≤ 0x10C)) ||
    (decide (0x110 ≤ n) && decide (n ≤ 0x112))

/-- Checks 2 and 3 of R49 for a word whose opcode is assigned, at the executing scope, with FMT.BFMT of the unit. Events
have no word and always pass. -/
def codesOk (h : Option Hint) (sc bfmt : Nat) : Instr → Bool
  | .br _ k c _ => scopedReg sc k c
  | .jmp _ k _ => decide (k.toNat ≤ 4)
  | .call _ k _ => decide (k.toNat ≤ 4)
  | .ret _ k => decide (k.toNat ≤ 4)
  | .loop _ k c o =>
    decide (k.toNat ≤ 4) && (decide (k.toNat ≤ 1) || scopedReg sc k c) && (!owns sc k || decide (2 ≤ wordOffset h o))
  | .lbrk _ k c => scopedReg sc k c
  | .bar _ k => decide (2 ≤ k.toNat) && decide (k.toNat ≤ 4)
  | .up _ d a k y =>
    decide (2 ≤ k.toNat) && decide (k.toNat ≤ 4) && decide (y.toNat ≤ 5) && (decide (sc ≠ k.toNat) || regInFile k d) &&
      (decide (sc + 1 ≠ k.toNat) || regInFile (k - 1) a)
  | .downSend _ d a k =>
    decide (2 ≤ k.toNat) && decide (k.toNat ≤ 4) && (!owns sc k || (decide (d.toNat ≤ 5) && regInFile k a))
  | .downRead _ d a k =>
    decide (1 ≤ k.toNat) && decide (k.toNat ≤ 3) && (!owns sc k || (decide (a.toNat ≤ 5) && regInFile k d))
  | .suspend _ k n _ => (decide (k.toNat = 1) || decide (k.toNat = 2)) && decide (n.toNat ≤ 30)
  | .sset _ _ _ _ _ c => decide (c.toNat ≤ 5)
  | .sld _ _ _ _ w x o k =>
    decide (o.toNat ≤ 1) && decide (k.toNat ≤ 4) && (decide (w.toNat ≠ 3) || decide (x.toNat = 0)) &&
      (decide (o.toNat ≠ 0) || decide (k.toNat = 0))
  | .sst _ _ _ _ _ o k =>
    (decide (o.toNat = 0) || decide (o.toNat = 2)) && decide (k.toNat ≤ 4) && (decide (o.toNat ≠ 0) || decide (k.toNat = 0))
  | .vadd _ _ _ _ _ t | .vsub _ _ _ _ _ t | .vmul _ _ _ _ _ t | .vmulh _ _ _ _ _ t | .vmad _ _ _ _ _ t
  | .vmin _ _ _ _ _ t | .vmax _ _ _ _ _ t => decide (t.toNat ≤ 1)
  | .vsat _ _ _ _ w _ => decide (1 ≤ w.toNat) && decide (w.toNat ≤ 32)
  | .vset _ _ c n _ _ t => decide (c.toNat ≤ 5) && decide (n.toNat ≠ 0) && decide (t.toNat ≤ 1)
  | .vsetImm _ _ c n _ _ _ => decide (c.toNat ≤ 5) && decide (n.toNat ≠ 0)
  | .pand _ _ d _ _ | .por _ _ d _ _ | .pxor _ _ d _ _ | .pnot _ _ d _ | .vvoteAll _ _ d _ | .vvoteAny _ _ d _ =>
    decide (d.toNat ≠ 0)
  | .vred _ _ d a t f | .vscan _ _ d a t f =>
    decide (f.toNat ≤ 5) && (decide (t.toNat ≤ 1) || decide (f.toNat ≤ 2)) &&
      (decide (t.toNat ≠ 3) || (even6 d && even6 a))
  | .vfadd _ _ d a b t | .vfsub _ _ d a b t | .vfmul _ _ d a b t | .vfma _ _ d a b t | .vfmin _ _ d a b t
  | .vfmax _ _ d a b t => decide (t.toNat ≤ 4) && pairs64 t [d, a, b]
  | .vfset _ _ c n a b t => decide (c.toNat ≤ 6) && decide (n.toNat ≠ 0) && decide (t.toNat ≤ 4) && pairs64 t [a, b]
  | .vfrcp _ _ d a t | .vfrsq _ _ d a t | .vfsqrt _ _ d a t => decide (t.toNat ≤ 3) && pairs64 t [d, a]
  | .vfex2 _ _ _ _ t | .vflg2 _ _ _ _ t | .vfsin _ _ _ _ t | .vfcos _ _ _ _ t =>
    decide (1 ≤ t.toNat) && decide (t.toNat ≤ 3)
  | .vcvt _ _ d a u v =>
    decide (u.toNat ≤ 10) && decide (v.toNat ≤ 10) &&
      decide (d.toNat % groupSize (formatWidth u.toNat) (formatWidth v.toNat) = 0) &&
      decide (a.toNat % groupSize (formatWidth v.toNat) (formatWidth u.toNat) = 0)
  | .vquant _ _ d a u =>
    decide (4 ≤ u.toNat) && decide (u.toNat ≤ 9) && even6 d && bfmtGroup bfmt u.toNat a
  | .vdq _ _ d a u => decide (4 ≤ u.toNat) && decide (u.toNat ≤ 9) && even6 a && bfmtGroup bfmt u.toNat d
  | .vcbdec _ _ d _ => decide (d.toNat % 4 = 0)
  | .vld _ _ d _ _ w | .vldu _ _ d _ w => decide (w.toNat ≤ 5) && (decide (w.toNat ≠ 5) || even6 d)
  | .vst _ _ d _ _ w =>
    (decide (w.toNat = 0) || decide (w.toNat = 2) || decide (w.toNat = 4) || decide (w.toNat = 5)) &&
      (decide (w.toNat ≠ 5) || even6 d)
  | .vldAcq _ _ _ _ _ k | .vstRel _ _ _ _ _ k => decide (k.toNat ≤ 4)
  | .atomAdd _ _ _ _ _ o k | .atomAnd _ _ _ _ _ o k | .atomOr _ _ _ _ _ o k | .atomXor _ _ _ _ _ o k
  | .atomMin _ _ _ _ _ _ o k | .atomMax _ _ _ _ _ _ o k | .atomXchg _ _ _ _ _ o k =>
    decide (o.toNat ≤ 2) && decide (k.toNat ≤ 4)
  | .atomCas _ _ _ b _ o k => decide (o.toNat ≤ 2) && decide (k.toNat ≤ 4) && decide (b.toNat ≤ 30)
  | .fence _ k | .fenceAcq _ k | .fenceRel _ k | .evinc _ _ _ k => decide (k.toNat ≤ 4)
  | .tld _ _ _ b k o =>
    decide (o.toNat ≤ 1) && decide (k.toNat ≤ 4) && (decide (o.toNat ≠ 0) || decide (k.toNat = 0)) && decide (b.toNat ≤ 30)
  | .tst _ _ _ b k o =>
    (decide (o.toNat = 0) || decide (o.toNat = 2)) && decide (k.toNat ≤ 4) && (decide (o.toNat ≠ 0) || decide (k.toNat = 0)) &&
      decide (b.toNat ≤ 30)
  | .tcln _ _ b k | .tinv _ _ b k => decide (k.toNat ≤ 4) && decide (b.toNat ≤ 30)
  | .qpush _ _ s n | .qpop _ _ s n => decide (s.toNat + n.toNat + 1 ≤ 32)
  | .qtryPush _ _ s n f | .qtryPop _ _ s n f => decide (s.toNat + n.toNat + 1 ≤ 32) && decide (f.toNat ≠ 0)
  | .spk24 _ _ d a b => even6 a && decide (d ≠ b)
  | .csrr _ _ c => csrExists c.toNat
  | .csrw _ _ c => csrExists c.toNat
  | .hintMod _ r s => decide (r.toNat ≤ 5) && decide (s.toNat ≤ 1) && (decide (r.toNat ≠ 0) || decide (s.toNat ≠ 0))
  | .hintSched _ _ a => decide (a.toNat ≠ 3)
  | _ => true

/-- The three hint words (R43). -/
def isHint : Instr → Bool
  | .hintImm _ _ | .hintMod _ _ _ | .hintSched _ _ _ => true
  | _ => false

/-- The words whose field `hint.imm` widens (R44). -/
def usesImm : Instr → Bool
  | .br _ _ _ _ | .jmp _ _ _ | .call _ _ _ | .loop _ _ _ _ | .suspend _ _ _ _ | .sli _ _ _ _ | .slui _ _ _ _
  | .vaddImm _ _ _ _ _ _ | .vmulImm _ _ _ _ _ _ | .vmovImm _ _ _ _ | .vsetImm _ _ _ _ _ _ _
  | .vldImm _ _ _ _ _ | .vstImm _ _ _ _ _ => true
  | _ => false

/-- The words that the RND modifier serves: opcodes 0x40 to 0x43, 0x48 to 0x4A, and 0x3A and 0x3B with a float type (R45). -/
def usesRnd : Instr → Bool
  | .vfadd _ _ _ _ _ _ | .vfsub _ _ _ _ _ _ | .vfmul _ _ _ _ _ _ | .vfma _ _ _ _ _ _ | .vcvt _ _ _ _ _ _
  | .vquant _ _ _ _ _ | .vdq _ _ _ _ _ => true
  | .vred _ _ _ _ t _ | .vscan _ _ _ _ t _ => decide (2 ≤ t.toNat)
  | _ => false

/-- The words that the SAT modifier serves (R45). -/
def usesSat : Instr → Bool
  | .vadd _ _ _ _ _ _ | .vsub _ _ _ _ _ _ | .vmul _ _ _ _ _ _ | .vmad _ _ _ _ _ _ | .vaddImm _ _ _ _ _ _
  | .vmulImm _ _ _ _ _ _ | .vfadd _ _ _ _ _ _ | .vfsub _ _ _ _ _ _ | .vfmul _ _ _ _ _ _ | .vfma _ _ _ _ _ _
  | .vcvt _ _ _ _ _ _ | .vquant _ _ _ _ _ | .vdq _ _ _ _ _ => true
  | _ => false

/-- Check 4 of R49: whether a word can stand after the hint in force (R43 to R46). -/
def hintOk (h : Option Hint) (i : Instr) : Bool :=
  match h with
  | none => true
  | some (.imm _) => usesImm i
  | some (.modifier r s) =>
    (decide (r.toNat = 0) || usesRnd i) && (decide (s.toNat = 0) || usesSat i) && !isHint i
  | some (.sched _ _) => !isHint i

/-- Words that only trap mode may use: check 5 of R49, where it does not depend on a control register (R187, R204). -/
def privileged : Instr → Bool
  | .seqsv _ _ _ _ | .seqld _ _ _ _ | .fragsv _ _ _ | .fragld _ _ _ | .rte _ => true
  | .csrr _ _ c | .csrw _ _ c => decide (0x100 ≤ c.toNat) && decide (c.toNat ≠ 0x107) || decide (c.toNat = 0x002)
  | _ => false

/-- Control registers that `csrw` may write at a level (R195, R196). -/
def csrWritable (level1 : Bool) (n : Nat) : Bool :=
  decide (n ≤ 1) ||
    (level1 && (decide (n = 2) || decide (n = 5) || decide (n = 6) || decide (n = 7) ||
      (decide (0x10 ≤ n) && decide (n ≤ 0x1F)) || (decide (0x100 ≤ n) && decide (n ≤ 0x104)) || decide (n = 0x106) ||
      (decide (0x108 ≤ n) && decide (n ≤ 0x10C))))

/-- The scope whose file a word's registers belong to: that of its scope field, where a context owns it or combines its values, else the
group's (R42, R162). -/
def ownerScope : Instr → Nat
  | .br _ k _ _ | .jmp _ k _ | .call _ k _ | .ret _ k | .loop _ k _ _ | .lbrk _ k _ | .bar _ k | .up _ _ _ k _
  | .downSend _ _ _ k | .downRead _ _ _ k => max 1 k.toNat
  | _ => 1

/-- The scope whose units send at an `up` (R170); else the scope of the word's owner. -/
def senderScope : Instr → Nat
  | .up _ _ _ k _ => max 1 (k.toNat - 1)
  | i => ownerScope i

end Sys2Proof.Machine
end

