-- ==== Sys2Proof/Machine/Operands.lean ====
section
/-!
DEFINITION. Which registers each word reads and writes: group scalars, and window-relative vector fields with the number of
registers of each. The interlock and the tokens (R16, R35) and the bounds check (R40) are made on these lists.
-/

namespace Sys2Proof.Machine

/-- Group scalars that a word reads (R36, R47). Of a pair that a field names, both. -/
def sReads : Instr → List Nat
  | .br _ k c _ | .lbrk _ k c => if k.toNat = 1 then [c.toNat] else []
  | .loop _ k c _ => if k.toNat ≤ 1 then [c.toNat] else []
  | .up _ _ a k _ => if k.toNat = 2 then [a.toNat] else []
  | .suspend _ _ n _ => [n.toNat, n.toNat + 1]
  | .claim _ _ a | .giveback _ a | .vwin _ a | .regroup _ _ a | .role _ a | .fmtSet _ a => [a.toNat]
  | .spawn _ _ a b => [a.toNat, b.toNat]
  | .sadd _ _ a b _ | .ssub _ _ a b _ | .smul _ _ a b _ | .smulh _ _ a b _ | .sdiv _ _ a b _ | .smin _ _ a b _
  | .smax _ _ a b _ | .sand _ _ a b _ | .sor _ _ a b _ | .sxor _ _ a b _ | .sshl _ _ a b _ | .sshr _ _ a b _
  | .ssar _ _ a b _ | .sset _ _ a b _ _ => [a.toNat, b.toNat]
  | .ssel _ _ a b c => [a.toNat, b.toNat, c.toNat]
  | .sli _ _ a _ | .slui _ _ a _ => [a.toNat]
  | .sld _ _ a b _ _ _ _ => [a.toNat, b.toNat]
  | .sst _ d a b _ _ _ => [d.toNat, a.toNat, b.toNat]
  | .vbcast _ _ _ a => [a.toNat]
  | .vshfl _ _ _ _ b _ | .vext _ _ _ _ b => [b.toNat]
  | .vins _ _ _ a b => [a.toNat, b.toNat]
  | .vld _ _ _ _ b _ | .vst _ _ _ _ b _ | .vldu _ _ _ b _ | .vprf _ _ _ b | .vldAcq _ _ _ _ b _
  | .vstRel _ _ _ _ b _ => [b.toNat]
  | .vldImm _ _ _ a _ | .vstImm _ _ _ a _ => [a.toNat]
  | .atomAdd _ _ a b _ _ _ | .atomAnd _ _ a b _ _ _ | .atomOr _ _ a b _ _ _ | .atomXor _ _ a b _ _ _
  | .atomMin _ _ a b _ _ _ _ | .atomMax _ _ a b _ _ _ _ | .atomXchg _ _ a b _ _ _ => [a.toNat, b.toNat]
  | .atomCas _ _ a b _ _ _ => [a.toNat, b.toNat, b.toNat + 1]
  | .evinc _ a b _ | .waita _ _ a b | .wsig _ a b | .spfree _ a b => [a.toNat, b.toNat]
  | .wakea _ a | .twait _ a | .acclr _ a | .cbld _ a | .lrel _ a | .tmark _ a | .csrw _ a _ => [a.toNat]
  | .tld _ _ a b _ _ | .tst _ _ a b _ _ => [a.toNat, b.toNat, b.toNat + 1]
  | .tcln _ _ b _ | .tinv _ _ b _ => [b.toNat, b.toNat + 1]
  | .tdesc _ _ a b | .spalloc _ _ a b | .acwinSet _ _ a b | .wdone _ _ a b | .wdoneFail _ _ a b | .shpSet _ _ a b
  | .seqsv _ _ a b | .seqld _ _ a b => [a.toNat, b.toNat]
  | .spnext _ _ a | .acwinClaim _ _ a | .acwinFree _ _ a | .lacq _ _ a | .lstat _ _ a | .lstatRetry _ _ a
  | .qrestart _ _ a | .salloc _ _ a | .fragsv _ _ a | .fragld _ _ a => [a.toNat]
  | .qbind _ _ s => [s.toNat]
  | .qpush _ _ s n | .qtryPush _ _ s n _ => (List.range (n.toNat + 1)).map fun j => s.toNat + j
  | .acrd _ _ _ b | .acwr _ _ _ b => [b.toNat]
  | _ => []

/-- Group scalars that a word writes. -/
def sWrites : Instr → List Nat
  | .downRead _ d _ k => if k.toNat = 1 then [d.toNat] else []
  | .claim _ d _ | .regroup _ d _ | .spawn _ d _ _ | .fmtGet _ d => [d.toNat]
  | .sadd _ d _ _ _ | .ssub _ d _ _ _ | .smul _ d _ _ _ | .smulh _ d _ _ _ | .sdiv _ d _ _ _ | .smin _ d _ _ _
  | .smax _ d _ _ _ | .sand _ d _ _ _ | .sor _ d _ _ _ | .sxor _ d _ _ _ | .sshl _ d _ _ _ | .sshr _ d _ _ _
  | .ssar _ d _ _ _ | .sset _ d _ _ _ _ | .ssel _ d _ _ _ => [d.toNat]
  | .sli _ d _ _ | .slui _ d _ _ => [d.toNat]
  | .sld _ d _ _ _ _ _ _ => [d.toNat]
  | .vvoteBallot _ _ d _ | .vext _ _ d _ _ => [d.toNat]
  | .atomAdd _ d _ _ _ _ _ | .atomAnd _ d _ _ _ _ _ | .atomOr _ d _ _ _ _ _ | .atomXor _ d _ _ _ _ _
  | .atomMin _ d _ _ _ _ _ _ | .atomMax _ d _ _ _ _ _ _ | .atomXchg _ d _ _ _ _ _ | .atomCas _ d _ _ _ _ _ => [d.toNat]
  | .waita _ d _ _ => [d.toNat]
  | .tld _ d _ _ _ _ | .tst _ d _ _ _ _ => [d.toNat]
  | .tcln _ d _ _ | .tinv _ d _ _ => [d.toNat]
  | .tdesc _ d _ _ | .spalloc _ d _ _ | .acwinSet _ d _ _ | .wdone _ d _ _ | .wdoneFail _ d _ _ | .shpSet _ d _ _
  | .seqsv _ d _ _ | .seqld _ d _ _ => [d.toNat]
  | .spnext _ d _ | .acwinClaim _ d _ | .acwinFree _ d _ | .lacq _ d _ | .lstat _ d _ | .lstatRetry _ d _
  | .qrestart _ d _ | .salloc _ d _ | .fragsv _ d _ | .fragld _ d _ => [d.toNat]
  | .shpGet _ d | .shpConf _ d | .tsc _ d | .tsr _ d => [d.toNat]
  | .qpop _ _ s n | .qtryPop _ _ s n _ => (List.range (n.toNat + 1)).map fun j => s.toNat + j
  | .qstat _ _ s => [s.toNat]
  | .csrr _ d _ => [d.toNat]
  | _ => []

/-- Registers per operand of a vector float type: a pair for `.f64` (R40, R95). -/
def floatRegs (t : BitVec 3) : Nat := if t.toNat = 0 then 2 else 1

/-- Registers per operand of a vector access width: a pair for `.b64` (R40, R114). -/
def widthRegs (w : BitVec 3) : Nat := if w.toNat = 5 then 2 else 1

/-- Vector fields that a word reads, each with its number of registers (R40, R101). -/
def vReads (bfmt : Nat) : Instr → List (Nat × Nat)
  | .vadd _ _ _ a b _ | .vsub _ _ _ a b _ | .vmul _ _ _ a b _ | .vmulh _ _ _ a b _ | .vmin _ _ _ a b _
  | .vmax _ _ _ a b _ => [(a.toNat, 1), (b.toNat, 1)]
  | .vmad _ _ d a b _ => [(d.toNat, 1), (a.toNat, 1), (b.toNat, 1)]
  | .vabs _ _ _ a | .vclz _ _ _ a | .vpopc _ _ _ a | .vmov _ _ _ a | .vcbdec _ _ _ a => [(a.toNat, 1)]
  | .vand _ _ _ a b | .vor _ _ _ a b | .vxor _ _ _ a b | .vandn _ _ _ a b | .vshl _ _ _ a b | .vshr _ _ _ a b
  | .vsar _ _ _ a b => [(a.toNat, 1), (b.toNat, 1)]
  | .vsat _ _ _ a _ _ => [(a.toNat, 1)]
  | .vsel _ _ _ a b _ => [(a.toNat, 1), (b.toNat, 1)]
  | .vset _ _ _ _ a b _ => [(a.toNat, 1), (b.toNat, 1)]
  | .vsetImm _ _ _ _ a _ _ => [(a.toNat, 1)]
  | .vaddImm _ _ _ a _ _ | .vmulImm _ _ _ a _ _ => [(a.toNat, 1)]
  | .vshlImm _ _ _ a _ _ | .vshrImm _ _ _ a _ _ | .vsarImm _ _ _ a _ _ => [(a.toNat, 1)]
  | .vshfl _ _ _ a _ _ | .vext _ _ _ a _ => [(a.toNat, 1)]
  | .vred _ _ _ a t _ | .vscan _ _ _ a t _ => [(a.toNat, if t.toNat = 3 then 2 else 1)]
  | .vfadd _ _ _ a b t | .vfsub _ _ _ a b t | .vfmul _ _ _ a b t | .vfmin _ _ _ a b t | .vfmax _ _ _ a b t =>
    [(a.toNat, floatRegs t), (b.toNat, floatRegs t)]
  | .vfma _ _ d a b t => [(d.toNat, floatRegs t), (a.toNat, floatRegs t), (b.toNat, floatRegs t)]
  | .vfset _ _ _ _ a b t => [(a.toNat, floatRegs t), (b.toNat, floatRegs t)]
  | .vfrcp _ _ _ a t | .vfrsq _ _ _ a t | .vfsqrt _ _ _ a t | .vfex2 _ _ _ a t | .vflg2 _ _ _ a t
  | .vfsin _ _ _ a t | .vfcos _ _ _ a t => [(a.toNat, floatRegs t)]
  | .vcvt _ _ _ a u v => [(a.toNat, groupSize (formatWidth v.toNat) (formatWidth u.toNat))]
  | .vquant _ _ _ a u =>
    if bfmt ≤ 3 then [(a.toNat, groupSize (formatWidth bfmt) (formatWidth u.toNat))] else [(a.toNat, 1)]
  | .vdq _ _ _ a _ => [(a.toNat, 2)]
  | .vld _ _ _ a _ _ | .vprf _ _ a _ | .vldAcq _ _ _ a _ _ => [(a.toNat, 1)]
  | .vst _ _ d a _ w => [(d.toNat, widthRegs w), (a.toNat, 1)]
  | .vstRel _ _ d a _ _ => [(d.toNat, 1), (a.toNat, 1)]
  | .vstImm _ _ d _ _ | .acwr _ _ d _ => [(d.toNat, 1)]
  | .spk24 _ _ _ a _ => [(a.toNat, 2)]
  | _ => []

/-- Vector fields that a word writes, each with its number of registers (R40, R101). -/
def vWrites (bfmt : Nat) : Instr → List (Nat × Nat)
  | .vadd _ _ d _ _ _ | .vsub _ _ d _ _ _ | .vmul _ _ d _ _ _ | .vmulh _ _ d _ _ _ | .vmin _ _ d _ _ _
  | .vmax _ _ d _ _ _ | .vmad _ _ d _ _ _ => [(d.toNat, 1)]
  | .vabs _ _ d _ | .vclz _ _ d _ | .vpopc _ _ d _ | .vmov _ _ d _ => [(d.toNat, 1)]
  | .vcbdec _ _ d _ => [(d.toNat, 4)]
  | .vand _ _ d _ _ | .vor _ _ d _ _ | .vxor _ _ d _ _ | .vandn _ _ d _ _ | .vshl _ _ d _ _ | .vshr _ _ d _ _
  | .vsar _ _ d _ _ => [(d.toNat, 1)]
  | .vsat _ _ d _ _ _ | .vsel _ _ d _ _ _ => [(d.toNat, 1)]
  | .vbcast _ _ d _ => [(d.toNat, 1)]
  | .vlane _ _ d | .vrand _ _ d => [(d.toNat, 1)]
  | .vaddImm _ _ d _ _ _ | .vmulImm _ _ d _ _ _ => [(d.toNat, 1)]
  | .vshlImm _ _ d _ _ _ | .vshrImm _ _ d _ _ _ | .vsarImm _ _ d _ _ _ => [(d.toNat, 1)]
  | .vmovImm _ _ d _ => [(d.toNat, 1)]
  | .vshfl _ _ d _ _ _ => [(d.toNat, 1)]
  | .vins _ _ d _ _ => [(d.toNat, 1)]
  | .vred _ _ d _ t _ | .vscan _ _ d _ t _ => [(d.toNat, if t.toNat = 3 then 2 else 1)]
  | .vfadd _ _ d _ _ t | .vfsub _ _ d _ _ t | .vfmul _ _ d _ _ t | .vfmin _ _ d _ _ t | .vfmax _ _ d _ _ t
  | .vfma _ _ d _ _ t => [(d.toNat, floatRegs t)]
  | .vfrcp _ _ d _ t | .vfrsq _ _ d _ t | .vfsqrt _ _ d _ t | .vfex2 _ _ d _ t | .vflg2 _ _ d _ t
  | .vfsin _ _ d _ t | .vfcos _ _ d _ t => [(d.toNat, floatRegs t)]
  | .vcvt _ _ d _ u v => [(d.toNat, groupSize (formatWidth u.toNat) (formatWidth v.toNat))]
  | .vquant _ _ d _ _ => [(d.toNat, 2)]
  | .vdq _ _ d _ u =>
    if bfmt ≤ 3 then [(d.toNat, groupSize (formatWidth bfmt) (formatWidth u.toNat))] else [(d.toNat, 1)]
  | .vld _ _ d _ _ w => [(d.toNat, widthRegs w)]
  | .vldu _ _ d _ w => [(d.toNat, widthRegs w)]
  | .vldImm _ _ d _ _ => [(d.toNat, 1)]
  | .vldAcq _ _ d _ _ _ => [(d.toNat, 1)]
  | .vqpop _ _ d _ | .acrd _ _ d _ => [(d.toNat, 1)]
  | .spk24 _ _ d _ b => [(d.toNat, 1), (b.toNat, 1)]
  | _ => []

/-- The predicate that field [23:21] of formats A and B names; p0 for every other word (R36, R70). -/
def predField : Instr → Nat
  | .vadd _ p _ _ _ _ | .vsub _ p _ _ _ _ | .vmul _ p _ _ _ _ | .vmulh _ p _ _ _ _ | .vmad _ p _ _ _ _
  | .vmin _ p _ _ _ _ | .vmax _ p _ _ _ _ => p.toNat
  | .vabs _ p _ _ | .vclz _ p _ _ | .vpopc _ p _ _ | .vmov _ p _ _ | .vcbdec _ p _ _ => p.toNat
  | .vand _ p _ _ _ | .vor _ p _ _ _ | .vxor _ p _ _ _ | .vandn _ p _ _ _ | .vshl _ p _ _ _ | .vshr _ p _ _ _
  | .vsar _ p _ _ _ => p.toNat
  | .vsat _ p _ _ _ _ | .vsel _ p _ _ _ _ => p.toNat
  | .vset _ p _ _ _ _ _ | .vsetImm _ p _ _ _ _ _ => p.toNat
  | .pand _ p _ _ _ | .por _ p _ _ _ | .pxor _ p _ _ _ => p.toNat
  | .pnot _ p _ _ | .vvoteAll _ p _ _ | .vvoteAny _ p _ _ => p.toNat
  | .vvoteBallot _ p _ _ => p.toNat
  | .vbcast _ p _ _ => p.toNat
  | .vlane _ p _ | .vrand _ p _ => p.toNat
  | .vaddImm _ p _ _ _ _ | .vmulImm _ p _ _ _ _ => p.toNat
  | .vshlImm _ p _ _ _ _ | .vshrImm _ p _ _ _ _ | .vsarImm _ p _ _ _ _ => p.toNat
  | .vmovImm _ p _ _ => p.toNat
  | .vshfl _ p _ _ _ _ => p.toNat
  | .vred _ p _ _ _ _ | .vscan _ p _ _ _ _ => p.toNat
  | .vext _ p _ _ _ => p.toNat
  | .vins _ p _ _ _ => p.toNat
  | .vfadd _ p _ _ _ _ | .vfsub _ p _ _ _ _ | .vfmul _ p _ _ _ _ | .vfma _ p _ _ _ _ | .vfmin _ p _ _ _ _
  | .vfmax _ p _ _ _ _ => p.toNat
  | .vfset _ p _ _ _ _ _ => p.toNat
  | .vfrcp _ p _ _ _ | .vfrsq _ p _ _ _ | .vfsqrt _ p _ _ _ | .vfex2 _ p _ _ _ | .vflg2 _ p _ _ _
  | .vfsin _ p _ _ _ | .vfcos _ p _ _ _ => p.toNat
  | .vcvt _ p _ _ _ _ => p.toNat
  | .vquant _ p _ _ _ | .vdq _ p _ _ _ => p.toNat
  | .vld _ p _ _ _ _ | .vst _ p _ _ _ _ => p.toNat
  | .vldImm _ p _ _ _ | .vstImm _ p _ _ _ => p.toNat
  | .vldu _ p _ _ _ => p.toNat
  | .vprf _ p _ _ => p.toNat
  | .vldAcq _ p _ _ _ _ | .vstRel _ p _ _ _ _ => p.toNat
  | .vqpop _ p _ _ => p.toNat
  | .acrd _ p _ _ | .acwr _ p _ _ => p.toNat
  | .spk24 _ p _ _ _ => p.toNat
  | _ => 0

/-- Whether a word has format A or B, and so an active mask (R36, R70). -/
def hasMask : Instr → Bool
  | .vadd .. | .vsub .. | .vmul .. | .vmulh .. | .vmad .. | .vmin .. | .vmax .. | .vabs .. | .vand .. | .vor .. | .vxor ..
  | .vandn .. | .vshl .. | .vshr .. | .vsar .. | .vclz .. | .vpopc .. | .vsat .. | .vsel .. | .vset .. | .vsetImm ..
  | .pand .. | .por .. | .pxor .. | .pnot .. | .vmov .. | .vbcast .. | .vlane .. | .vrand .. | .vaddImm .. | .vmulImm ..
  | .vshlImm .. | .vshrImm .. | .vsarImm .. | .vmovImm .. | .vvoteAll .. | .vvoteAny .. | .vvoteBallot .. | .vshfl ..
  | .vred .. | .vscan .. | .vext .. | .vins .. | .vfadd .. | .vfsub .. | .vfmul .. | .vfma .. | .vfmin .. | .vfmax ..
  | .vfset .. | .vfrcp .. | .vfrsq .. | .vfsqrt .. | .vfex2 .. | .vflg2 .. | .vfsin .. | .vfcos .. | .vcvt .. | .vquant ..
  | .vdq .. | .vcbdec .. | .vld .. | .vldImm .. | .vst .. | .vstImm .. | .vldu .. | .vprf .. | .vldAcq .. | .vstRel ..
  | .vqpop .. | .acrd .. | .acwr .. | .spk24 .. => true
  | _ => false

/-- The switch marker of a word (R34). -/
def markerOf (i : Instr) : Bool :=
  match encodeNat i with
  | some w => decide (w / 2 ^ 31 % 2 = 1)
  | none => false

/-- The word of an instruction as TVAL gives it (R190). -/
def wordOf (i : Instr) : Word :=
  match encodeNat i with
  | some w => BitVec.ofNat 64 w
  | none => 0

end Sys2Proof.Machine
end

