-- ==== Sys2Proof/Machine/Flags.lean ====
section
/-!
DEFINITION. The format register FMT (R65, R66), the sticky flags FFLG (R67), the rounding mode and saturation in force (R45,
R56, R57), and the generator of a lane (R58).
-/

namespace Sys2Proof.Machine

/-- Rounding modes in FMT's coding (R57). -/
inductive Mode where
  | rn | rz | ru | rd | rs
deriving DecidableEq, Repr

/-- FMT fields (R65). -/
def fmtA (f : Word) : Nat := bits f 3 0
/-- FMT.BFMT. -/
def fmtB (f : Word) : Nat := bits f 7 4
/-- FMT.CFMT. -/
def fmtC (f : Word) : Nat := bits f 11 8
/-- FMT.RND. -/
def fmtRnd (f : Word) : Nat := bits f 14 12
/-- FMT.FTZ. -/
def fmtFtz (f : Word) : Bool := bit f 15
/-- FMT.SAT. -/
def fmtSat (f : Word) : Bool := bit f 16
/-- FMT.SCM. -/
def fmtScm (f : Word) : Nat := bits f 18 17
/-- FMT.CBT. -/
def fmtCbt (f : Word) : Nat := bits f 20 19
/-- FMT.QTH. -/
def fmtQth (f : Word) : Nat := bits f 24 21

/-- The permitted combinations of AFMT, BFMT and CFMT (R66). -/
def combinationOk (a b c : Nat) : Bool :=
  (decide (a = 0) && decide (b = 0) && decide (c = 0)) ||
  (decide (a = 1) && decide (b = 1) && decide (c = 1)) ||
  ((decide (a = 2) || decide (a = 3)) && decide (b = a) && decide (c = 1)) ||
  ((decide (a = 4) || decide (a = 5)) && (decide (b = 4) || decide (b = 5)) && decide (c = 1)) ||
  (decide (a = 6) && decide (b = 6) && decide (c = 1)) ||
  (decide (7 ≤ a) && decide (a ≤ 9) && decide (7 ≤ b) && decide (b ≤ 9) && decide (c = 10)) ||
  (decide (a = 11) && decide (2 ≤ b) && decide (b ≤ 6) && decide (c = 1))

/-- A value that `fmt.set` accepts (R65, R66). -/
def fmtOk (f : Word) : Bool :=
  decide (bits f 63 25 = 0) && decide (fmtScm f ≠ 3) && decide (fmtRnd f ≤ 4) && combinationOk (fmtA f) (fmtB f) (fmtC f)

/-- A mode from FMT's code; 5 to 7 never stand in FMT (R66). -/
def modeOfFmt (code : Nat) : Mode :=
  match code with
  | 1 => .rz | 2 => .ru | 3 => .rd | 4 => .rs | _ => .rn

/-- The rounding mode in force: the modifier's when it names one, else FMT's (R57). -/
def modeInForce (fmt : Word) (h : Option Hint) : Mode :=
  match h with
  | some (.modifier r _) => if r.toNat = 0 then modeOfFmt (fmtRnd fmt) else modeOfFmt (r.toNat - 1)
  | _ => modeOfFmt (fmtRnd fmt)

/-- Whether saturation is in force (R45, R56). -/
def satInForce (fmt : Word) (h : Option Hint) : Bool :=
  fmtSat fmt || (match h with
    | some (.modifier _ s) => decide (s.toNat = 1)
    | _ => false)

/-- `rs` taken as `rn`, as reductions and matrix tasks round (R68, R69). -/
def nearestForRs (m : Mode) : Mode := if m = .rs then .rn else m

/-- FFLG bits (R67). -/
def NX : BitVec 6 := 1
/-- Underflow. -/
def UF : BitVec 6 := 2
/-- Overflow. -/
def OF : BitVec 6 := 4
/-- Division by zero. -/
def DZ : BitVec 6 := 8
/-- Invalid. -/
def NV : BitVec 6 := 16
/-- An integer result was saturated. -/
def SA : BitVec 6 := 32

/-- The next generator state (R58). -/
def genNext (x : Word32) : Word32 :=
  let x := x ^^^ (x <<< 13)
  let x := x ^^^ (x >>> 17)
  x ^^^ (x <<< 5)

/-- The generator state of lane i at group creation (R58). -/
def genReset (i : Nat) : Word32 := 0x6C8E9CF5#32 ^^^ BitVec.ofNat 32 (i * 0x00010001)

end Sys2Proof.Machine
end

