-- ==== Sys2Proof/Machine/Regs.lean ====
section
/-!
DEFINITION. Named reads and writes of the registers of a group (R39 to R42), of its units, and of the records of the
state.
-/

namespace Sys2Proof.Machine

/-! ### Records of the state -/

/-- The group with a number. -/
def State.group? (s : State) (id : Nat) : Option Group := s.groups.find? fun g => decide (g.id = id)

/-- The state with a group's record replaced. -/
def State.setGroup (s : State) (g : Group) : State := { s with groups := upsert Group.id g s.groups }

/-- The state without a group. -/
def State.dropGroup (s : State) (id : Nat) : State := 
  { s with groups := s.groups.filter (fun g => decide (g.id ≠ id)), unsettled := s.unsettled.filter fun x => decide (x.1 ≠ id) }

/-- The block with a number. -/
def State.block? (s : State) (id : Nat) : Option Block := s.blocks.find? fun b => decide (b.id = id)

/-- The state with a block's record replaced. -/
def State.setBlock (s : State) (b : Block) : State := { s with blocks := upsert Block.id b s.blocks }

/-- An inert block, where no block has the number. -/
def noBlock (id : Nat) : Block :=
  { id := id, grid := 0, asid := 0, core := 0, index := 0, rank := 0, setSize := 1, timed := false, held := 0, carveStart := 0,
    carve := 0, pad := [], fallback := false, pinned := [], regPool := [], acRows := 0, acResv := 0, acc := [], holds := [],
    confirmed := true, tail := false, state := .running, saved := [] }

/-- Whether a share of a register pool lies in a group's gang (R144). -/
def PoolShare.isOf (x : PoolShare) (g : Group) : Bool := decide (x.sched = g.slot % 4) && decide (x.gang = g.gang)

/-- Chunks that a block's register pool holds in the lanes of a group (R140). -/
def Block.poolOf (b : Block) (g : Group) : Nat := ((b.regPool.find? fun x => x.isOf g).map (·.chunks)).getD 0

/-- Chunks of a block's register pool. -/
def Block.poolTotal (b : Block) : Nat := b.regPool.foldl (fun n x => n + x.chunks) 0

/-- Chunks taken out of the part of a block's register pool that lies in a group's lanes (R140). -/
def Block.poolTake (b : Block) (g : Group) (n : Nat) : Block :=
  { b with regPool := b.regPool.map fun x => if x.isOf g then { x with chunks := x.chunks - n } else x }

/-- Chunks of a group's lanes given back to its block's register pool (R140). -/
def Block.poolGive (b : Block) (g : Group) (n : Nat) : Block :=
  if b.regPool.any fun x => x.isOf g then
    { b with regPool := b.regPool.map fun x => if x.isOf g then { x with chunks := x.chunks + n } else x }
  else { b with regPool := b.regPool ++ [{ sched := g.slot % 4, gang := g.gang, slices := g.width / 4, chunks := n }] }

/-- Whether a block occupies its core: it is not retired and has not ended. -/
def Block.onCore (b : Block) : Bool := decide (b.state = .running)

/-- The block of a group. -/
def State.blockOf (s : State) (g : Group) : Block := (s.block? g.block).getD (noBlock g.block)

/-- The grid with a number. -/
def State.grid? (s : State) (id : Nat) : Option Grid := s.grids.find? fun k => decide (k.id = id)

/-- The state with a grid's record replaced. -/
def State.setGrid (s : State) (k : Grid) : State := { s with grids := upsert Grid.id k s.grids }

/-- The upper context with a number. -/
def State.ctx? (s : State) (id : Nat) : Option Ctx := s.ctxs.find? fun c => decide (c.id = id)

/-- The state with an upper context's record replaced. -/
def State.setCtx (s : State) (c : Ctx) : State := { s with ctxs := upsert Ctx.id c s.ctxs }

/-- The context (address space) of an ASID. -/
def State.context? (s : State) (asid : Nat) : Option Context := s.contexts.find? fun x => decide (x.asid = asid)

/-- The state with a context's record replaced. -/
def State.setContext (s : State) (x : Context) : State := { s with contexts := upsert Context.asid x s.contexts }

/-- The partition with a number. -/
def State.partition? (s : State) (id : Nat) : Option Partition := s.partitions.find? fun p => decide (p.id = id)

/-- The state with a partition's record replaced. -/
def State.setPartition (s : State) (p : Partition) : State := { s with partitions := upsert Partition.id p s.partitions }

/-- The queue with a number. -/
def State.queue? (s : State) (qid : Nat) : Option Queue := s.queues.find? fun q => decide (q.qid = qid)

/-- The state with a queue's record replaced. -/
def State.setQueue (s : State) (q : Queue) : State := { s with queues := upsert Queue.qid q s.queues }

/-- A scheduler that has issued nothing. -/
def schedReset : Sched := { run := none, runLen := 0, sampled := 0, cycle := 0, recent := [], first := none, paired := false }

/-- A core at its reset values (R219, R414): DBGCTL with SMPJ 8, TRLOG 12 and SMPLOG 12. -/
def coreReset (num : Nat) : Core :=
  { num := num, split := 0, lastAsid := none, watches := [], watchQueue := [],
    scheds := Vector.replicate 4 schedReset, tasks := [],
    engines := Vector.replicate 2 none, streams := [], bpc0 := Vector.replicate 8 0, bpc1 := Vector.replicate 8 0,
    dbgctl := place 8 37 ||| place 12 32 ||| place 12 27, trbase := 0, smpbase := 0, packets := [], ovfDue := none, fenced := false }

/-- A cluster at its reset values (R402): STEP 16, DROOPTH 40, PAIRLIM 128, CREC 0. -/
def clusterReset (num : Nat) : Cluster :=
  { num := num, partition := none, step := 16, target := 16, droopth := 40, pairlim := 128, crec := 0, window := 0, tsc := 0,
    droop := .none, halfFrom := 0, lastStretch := none, fused := false, pool := [], waiting := [], channels := [], sysDone := [], fenced := false }

/-- A core's record; an unlisted core is at its reset values. -/
def State.core (s : State) (num : Nat) : Core := (s.cores.find? fun c => decide (c.num = num)).getD (coreReset num)

/-- The state with a core's record replaced. -/
def State.setCore (s : State) (c : Core) : State := { s with cores := upsert Core.num c s.cores }

/-- A cluster's record; an unlisted cluster is at its reset values. -/
def State.cluster (s : State) (num : Nat) : Cluster :=
  (s.clusters.find? fun c => decide (c.num = num)).getD (clusterReset num)

/-- The state with a cluster's record replaced. -/
def State.setCluster (s : State) (c : Cluster) : State := { s with clusters := upsert Cluster.num c s.clusters }

/-- The cluster of a core (R10). -/
def clusterOfCore (core : Nat) : Nat := core / Config.coresPerCluster

/-- The die of a cluster (R10). -/
def dieOfCluster (cl : Nat) : Nat := cl / Config.clustersPerDie

/-- A new number and the state that has used it. -/
def State.fresh (s : State) : Nat × State := (s.ids, { s with ids := s.ids + 1 })

/-- A free choice among `n` outcomes (n at least 1) and the state that has drawn it. -/
def State.draw (s : State) (n : Nat) : Nat × State := (Config.choice s.draws % n, { s with draws := s.draws + 1 })

/-- A value that the spec leaves open and the state that has drawn it. -/
def State.freeWord (s : State) : Word × State := (Config.freeWord s.draws, { s with draws := s.draws + 1 })

/-- The state with an event due last. -/
def State.later (s : State) (e : Instr) : State := { s with due := s.due ++ [e] }

/-- The state with an entry in the persistent log. -/
def State.logged (s : State) (e : LogEntry) : State := { s with log := s.log ++ [e] }

/-! ### Engines in a reset (R351, R435) -/

/-- Die, kind (0 matrix, 1 copy, 2 Fentos, 3 walker), cluster of the module, and core and matrix engine of an engine rung's target. -/
structure EngineName where
  die : Nat
  kind : Nat
  cluster : Nat
  core : Nat
  engine : Nat
deriving DecidableEq, Repr

/-- An engine rung's target as R435 lays it out. -/
def engineName (t : Nat) : EngineName :=
  let cl := Config.clustersPerDie * (t % 8) + t / 32 % 32
  { die := t % 8, kind := t / 8 % 4, cluster := cl, core := Config.coresPerCluster * cl + t / 2048 % 16, engine := t / 1024 % 2 }

/-- Whether an engine rung runs on an engine that satisfies a test. -/
def State.engineDown (s : State) (p : EngineName → Bool) : Bool :=
  s.rungs.any fun r => match r.rung with
    | .engine t => p (engineName t)
    | _ => false

/-- Whether a matrix engine is being reset. -/
def State.matrixDown (s : State) (core e : Nat) : Bool :=
  s.engineDown fun n => decide (n.kind = 0) && decide (n.core = core) && decide (n.engine = e)

/-- Whether a copy engine is being reset. -/
def State.copyDown (s : State) (cl : Nat) : Bool := s.engineDown fun n => decide (n.kind = 1) && decide (n.cluster = cl)

/-- Whether a die's Fentos complex is being reset. -/
def State.fentosDown (s : State) (die : Nat) : Bool := s.engineDown fun n => decide (n.kind = 2) && decide (n.die = die)

/-- Whether a rung or a containment resets a core (R351, R353). -/
def State.rungHasCore (s : State) (r : Rung) (core : Nat) : Bool :=
  let cl := core / Config.coresPerCluster
  match r with
  | .partition p => ((s.partitions.find? fun x => decide (x.id = p)).map fun x => x.clusters.contains cl).getD false
  | .die d => decide (cl / Config.clustersPerDie = d)
  | .fence (.core c) => decide (c = core)
  | .fence (.cluster c) => decide (c = cl)
  | _ => false

/-- Whether a rung or a containment that runs has stopped a core (R350, R353). -/
def State.clusterDown (s : State) (core : Nat) : Bool := s.rungs.any fun r => s.rungHasCore r.rung core

/-! ### Units -/

/-- The units that may issue: the handler unit in trap mode, else the group's units (R188). -/
def Group.active (g : Group) : List GUnit :=
  if g.trap.tmode then (match g.handler with | some h => [h] | none => []) else g.units

/-- The unit with a number among those that may issue. -/
def Group.unit? (g : Group) (uid : Nat) : Option GUnit := g.active.find? fun u => decide (u.uid = uid)

/-- Units in ascending order of lowest lane (R192). -/
def sortUnits (us : List GUnit) : List GUnit := sortBy (fun u => lowestLane u.mask) us

/-- The group with a unit's record replaced. -/
def Group.setUnit (g : Group) (u : GUnit) : Group :=
  if g.trap.tmode then { g with handler := some u }
  else { g with units := g.units.map fun x => if x.uid = u.uid then u else x }

/-- The call depth of a unit (R131). -/
def GUnit.depth (u : GUnit) : Nat := u.stack.length

/-- The current mask of a unit (R70, R157): inside a region every live lane. -/
def currentMask (g : Group) (u : GUnit) : Mask := if u.region.isSome then g.live else u.mask

/-! ### Scalars, vectors, predicates -/

/-- Group scalar r; s0 reads as zero (R41). -/
def Group.s (g : Group) (r : Nat) : Word := if r = 0 then 0 else (g.sregs[r]?).getD 0

/-- The group with scalar r written: a write to s0 is discarded, and a write takes away a completion that no instruction has
read (R16, R41). -/
def Group.setS (g : Group) (r : Nat) (v : Word) : Group :=
  if r = 0 then g
  else { g with sregs := g.sregs.setIfInBounds r v, tokFaults := g.tokFaults.filter (fun t => decide (t.1 ≠ r)),
                unread := g.unread &&& ~~~((1#32) <<< r) }

/-- Allotment register r of a lane (R140). -/
def Group.vreg (g : Group) (r lane : Nat) : Word32 := sget 0 g.vregs (32 * r + lane)

/-- The group with an allotment register of a lane written. -/
def Group.setVreg (g : Group) (r lane : Nat) (v : Word32) : Group := { g with vregs := sset 0 g.vregs (32 * r + lane) v }

/-- Window-relative register f of a lane (R40). -/
def Group.v (g : Group) (f lane : Nat) : Word32 := g.vreg (g.vwin + f) lane

/-- The register pair of a lane: the low half lies in f (R40). -/
def Group.v64 (g : Group) (f lane : Nat) : Word := g.v (f + 1) lane ++ g.v f lane

/-- The group with window-relative register f of a lane written. -/
def Group.setV (g : Group) (f lane : Nat) (v : Word32) : Group := g.setVreg (g.vwin + f) lane v

/-- The group with register f of several lanes written. -/
def Group.setVs (g : Group) (f : Nat) (ws : List (Nat × Word32)) : Group :=
  ws.foldl (fun g w => g.setV f w.1 w.2) g

/-- The group with a register pair of several lanes written. -/
def Group.setV64s (g : Group) (f : Nat) (ws : List (Nat × Word)) : Group :=
  ws.foldl (fun g w => (g.setV f w.1 (w.2.extractLsb' 0 32)).setV (f + 1) w.1 (w.2.extractLsb' 32 32)) g

/-- The lanes in which predicate n is true; p0 is true in every lane (R41). -/
def Group.p (g : Group) (n : Nat) : Mask := if n = 0 then ~~~0 else (g.preds[n]?).getD 0

/-- The group with predicate n written in the lanes of a mask; p0 is never written (R41). -/
def Group.setP (g : Group) (n : Nat) (lanes value : Mask) : Group :=
  if n = 0 then g else { g with preds := g.preds.setIfInBounds n ((g.p n &&& ~~~lanes) ||| (value &&& lanes)) }

/-- The generator state of a lane (R58). -/
def Group.gen (g : Group) (lane : Nat) : Word32 := (g.gens[lane]?).getD 0

/-- The group with a lane's generator state written. -/
def Group.setGen (g : Group) (lane : Nat) (v : Word32) : Group := { g with gens := g.gens.setIfInBounds lane v }

/-- The group with flags ORed into FFLG (R67). -/
def Group.raise (g : Group) (fl : BitVec 6) : Group := { g with fflg := g.fflg ||| fl }

/-- VALLOC: eight registers a chunk (R140). -/
def Group.valloc (g : Group) : Nat := 8 * g.chunks

/-- The active mask of a word of format A or B (R70). -/
def activeMask (g : Group) (u : GUnit) (p : Nat) : Mask := currentMask g u &&& g.p p

/-- The level of the group: 1 in trap mode (R187, R188). -/
def Group.level1 (g : Group) : Bool := g.trap.tmode

/-! ### The upper contexts' files -/

/-- Register r of an upper context (R39). -/
def Ctx.r (c : Ctx) (r : Nat) : Word := (c.regs[r]?).getD 0

/-- The context with register r written. -/
def Ctx.setR (c : Ctx) (r : Nat) (v : Word) : Ctx := { c with regs := c.regs.setIfInBounds r v }

/-- The call depth of a context (R131). -/
def Ctx.depth (c : Ctx) : Nat := c.stack.length

/-- The die on which a group runs. -/
def dieOfCore (core : Nat) : Nat := dieOfCluster (clusterOfCore core)

end Sys2Proof.Machine
end

