-- ==== Sys2Proof/Machine/Memory.lean ====
section
/-!
DEFINITION. Memory as programs see it: physical ranges (R428), the home of each byte with encryption (R230, R272, R400),
watched sectors (R244), the tile caches with their written-byte masks and marked sectors (R223 to R231, R283), releases
and acquires (R230, R236, R264), windows (R221), and translation through the TLB (R388, R393, R398).
-/

namespace Sys2Proof.Machine

/-! ### The home of bytes -/

/-- The module's HBM (R428). -/
def isHbm (pa : Nat) : Bool := decide (pa < 2 ^ 41)

/-- Host memory (R428). -/
def isHost (pa : Nat) : Bool := decide (2 ^ 48 ≤ pa) && decide (pa < 2 ^ 49)

/-- Memory of a device behind a root port (R428). -/
def isDevice (pa : Nat) : Bool := decide (2 ^ 49 ≤ pa) && decide (pa < 2 ^ 49 + 8 * 2 ^ 44)

/-- HBM of a peer module (R428). -/
def isPeer (pa : Nat) : Bool := decide (2 ^ 50 ≤ pa) && decide (pa < 2 ^ 50 + 12 * 2 ^ 41)

/-- The physical ranges that exist (R428). -/
def physOk (pa : Nat) : Bool := isHbm pa || isHost pa || isDevice pa || isPeer pa

/-- What a byte of memory that nothing has written reads as. DESIGN CHOICE: the spec gives no contents of HBM after boot
(R427) and none of memory outside the module. -/
def emptyByte : Byte := 0

/-- The canonical form of memory: addresses strictly rising, and no byte listed that an unlisted address reads as. -/
def Memory.wf (mem : List Host.Cell) : Bool := swf emptyByte mem

/-- The epoch of the key in a slot; 0 for an empty slot (R400). -/
def State.epoch (s : State) (key : Nat) : Nat :=
  match s.keySlots.find? fun k => decide (k.1 = key) with
  | some k => k.2
  | none => 0

/-- The number of the loss of contents that covers an address of module HBM (R351, R427): two stacks of 2^37 bytes lie at each die. -/
def State.lostAt (s : State) (pa : Nat) : Option Nat := (s.lost.find? fun x => decide (x.1 = pa / 2 ^ 38)).map (·.2)

/-- The byte at its home, read under a key: an unrelated value where the sector was written under another key, or has not been written
since its contents were lost (R400, R427). -/
def State.homeByte (s : State) (key pa : Nat) : Byte :=
  let v := sget emptyByte s.mem pa
  let e := sget 0 s.sectorKeys (pa / 32)
  if !isHbm pa then v
  else if e = 0 then (match s.lostAt pa with
    | some n => Config.unrelatedByte pa n (s.epoch key)
    | none => v)
  else if e = s.epoch key then v
  else Config.unrelatedByte pa e (s.epoch key)

/-- The bytes at a home, read under a key. -/
def State.homeBytes (s : State) (key pa n : Nat) : List Byte := (List.range n).map fun i => s.homeByte key (pa + i)

/-- One byte stored at its home: the only operation that writes physical memory. -/
def State.poke (s : State) (pa : Nat) (b : Byte) : State := { s with mem := sset emptyByte s.mem pa b }

/-- Bytes stored at consecutive home addresses. -/
def State.pokes (s : State) (pa : Nat) : List Byte → State
  | [] => s
  | b :: bs => (s.poke pa b).pokes (pa + 1) bs

/-- The sector is written under the key of a slot from now on (R400). -/
def State.keyed (s : State) (key pa : Nat) : State :=
  if isHbm pa then { s with sectorKeys := sset 0 s.sectorKeys (pa / 32) (s.epoch key) } else s

/-- A sector about to be written under a key under which its contents do not read: they turn into what they read as (R400). -/
def State.renew (s : State) (key pa : Nat) : State :=
  let e := sget 0 s.sectorKeys (pa / 32)
  if isHbm pa && (if e = 0 then (s.lostAt pa).isSome else decide (e ≠ s.epoch key)) then
    s.pokes (pa / 32 * 32) (s.homeBytes key (pa / 32 * 32) 32)
  else s

/-- Whether a unit or a retired block watches a sector (R135, R243, R326). -/
def State.watched (s : State) (sector : Nat) : Bool :=
  (s.cores.any fun c => c.watches.any fun w => decide (w.sector = sector)) ||
  (s.blocks.any fun b => match b.state with
    | .retired sec _ woken => decide (sec = sector) && !woken
    | _ => false) ||
  (s.ctxs.any fun c => match c.state with
    | .retiring sec _ woken => decide (sec = sector) && !woken
    | _ => false)

/-- Whether the condition of a wait packet holds for the word as it stands at its home (R335). -/
def State.packetHolds (s : State) (p : WaitPacket) : Bool :=
  let v := BitVec.ofNat 64 (bytesValue (s.homeBytes p.key p.pa 8)) &&& p.mask
  match p.cond with
  | 0 => decide (p.value.toNat ≤ v.toNat)
  | 1 => decide (v ≠ p.value)
  | _ => decide (v = p.value)

/-- The armed wait packets whose words lie in sectors that satisfy a test, tested (R335). -/
def State.testPackets (s : State) (p : Nat → Bool) : State :=
  { s with queues := s.queues.map fun (q : Queue) => match q.packet with
      | some x => if p (x.pa / 32) && s.packetHolds x then { q with packet := some { x with met := true } } else q
      | none => q }

/-- The load reservations of harts on a sector, lost (R273). -/
def State.loseReservations (s : State) (sector : Nat) : State :=
  { s with harts := s.harts.map fun (h : Hart) => if h.reserved.map (fun x => x.1 / 32) = some sector then { h with reserved := none } else h }

/-- A write to a sector: wait packets on it are tested (R335), load reservations on it are lost, and if it is watched, its wake-up is due (R244). -/
def State.notify (s0 : State) (sector : Nat) : State :=
  let s := (s0.testPackets fun x => decide (x = sector)).loseReservations sector
  if s.watched sector && !(s.due.any fun e => decide (e = .watchedSectorWrite sector))
  then s.later (.watchedSectorWrite sector) else s

/-- Whether an address lies in the memory of a peer module whose link port is down (R428, R437). -/
def State.portDown (s : State) (pa : Nat) : Bool := isPeer pa && s.links.any fun l => l.down && decide (l.port = (pa - 2 ^ 50) / 2 ^ 41)

/-- A write to a home: one over a link port that is down is performed at the peer once, or not at all (R438). -/
def State.settles (s : State) (pa : Nat) (k : State → State) : State :=
  if s.portDown pa then
    let (n, s) := s.draw 2
    if n = 0 then s else k s
  else k s

/-- Bytes of one sector written where they lie, and the sector's watchers woken. -/
def State.putHome (s : State) (key pa : Nat) (bs : List Byte) : State := (((s.renew key pa).pokes pa bs).keyed key pa).notify (pa / 32)

/-- Bytes of one sector stored at their home under a key. -/
def State.storeHome (s : State) (key pa : Nat) (bs : List Byte) : State := s.settles pa fun s => s.putHome key pa bs

/-- Bytes of one sector that a mask selects, stored at their home. -/
def State.storeMasked (s : State) (key pa : Nat) (mask : BitVec 32) (data : BitVec 256) : State :=
  if mask = 0 then s
  else s.settles pa fun s =>
    (((lanesOf mask).foldl (fun s i => s.poke (pa + i) (sectorByte data i)) (s.renew key pa)).keyed key pa).notify (pa / 32)

/-- A write of a group over a link port that is down is remembered until a release at `sys` reports it (R438). -/
def State.owe (s : State) (group : Option Nat) (pa : Nat) (va : Word) : State :=
  match group with
  | some g => if s.portDown pa && !s.unsettled.any (fun x => decide (x.1 = g)) then { s with unsettled := s.unsettled ++ [(g, va)] } else s
  | none => s

/-- Bytes stored from an address on, sector by sector in ascending order. -/
def State.storeRange (s : State) (key pa : Nat) (bs : List Byte) : State :=
  go s pa bs (bs.length / 32 + 2)
where
  go (s : State) (pa : Nat) (bs : List Byte) : Nat → State
    | 0 => s
    | fuel + 1 =>
      if bs.isEmpty then s
      else
        let n := 32 - pa % 32
        go (s.storeHome key pa (bs.take n)) (pa + n) (bs.drop n) fuel

/-- The 32 bytes of a sector at its home. -/
def State.homeSector (s : State) (key pa : Nat) : BitVec 256 :=
  BitVec.ofNat 256 (bytesValue (s.homeBytes key (pa / 32 * 32) 32))

/-- The TSTAT code under which a byte cannot be read: that of the fenced unit that holds it, a page or an HBM channel, or 0 where the link
port to it is down (R26, R190, R428, R438). -/
def State.poisoned (s : State) (pa : Nat) : Option Nat :=
  if s.poison.contains (.page (pa / 4096)) then some 0
  else if isHbm pa && s.poison.contains (.channel (pa / 2 ^ 37)) then some 1
  else if s.portDown pa then some 0
  else none

/-- The TSTAT code under which a block's scratchpad and accumulators cannot be read: that of the fenced core or cluster that holds them (R26,
R190). -/
def State.padPoison (s : State) (block : Nat) : Option Nat :=
  (s.block? block).bind fun b =>
    if (s.core b.core).fenced then some 2 else if (s.cluster (clusterOfCore b.core)).fenced then some 3 else none

/-! ### Tile caches -/

/-- The line of the linear view that holds a virtual address (R225). -/
def linearLine (va : Nat) : Line := { tid := 0, t0 := va / 256, t1 := 0, t2 := 0, t3 := 0 }

/-- The coordinates as one number. -/
def Line.no (l : Line) : Nat := l.t0 + 2 ^ 64 * (l.t1 + 2 ^ 32 * (l.t2 + 2 ^ 24 * l.t3))

/-- The home slice of a line in a fused L1 (R228). -/
def sliceOf (l : Line) : Nat :=
  let t0 := if l.tid = 0 then l.t0 ^^^ (l.t0 / 2 ^ 12) ^^^ (l.t0 / 2 ^ 24) ^^^ (l.t0 / 2 ^ 36) else l.t0
  let h := (l.tid ^^^ t0 ^^^ l.t1 ^^^ l.t2 ^^^ l.t3) % 2 ^ 12
  (h ^^^ (h / 16) ^^^ (h / 256)) % 16

/-- The core whose tile cache holds a line for an accessor (R228). -/
def cacheCore (a : Accessor) (l : Line) : Nat :=
  if a.fused then clusterOfCore a.core * Config.coresPerCluster + sliceOf l else a.core

/-- Whether a sector is held by tile caches at all: module HBM on RC and UN pages (R260, R272). -/
def cacheable (r : SectorRef) : Bool := isHbm r.pa && decide (r.ord ≠ 0)

/-- Whether a cached sector is the unmarked copy of a reference for an accessor: tag and row agree, wherever the sector's bytes lie (R223, R227). -/
def isCopy (a : Accessor) (r : SectorRef) (x : Sector) : Bool :=
  decide (x.core = cacheCore a r.line) && decide (x.asid = a.asid) && decide (x.tid = r.line.tid) &&
    decide (x.line = r.line.no) && decide (x.row = r.row) && decide (x.marked = none)

/-- Whether a cached sector is marked unconfirmed by the accessor's block and holds the same bytes (R283). -/
def isMarked (a : Accessor) (r : SectorRef) (x : Sector) : Bool :=
  decide (x.core = a.core) && decide (x.marked = a.block) && decide (x.marked ≠ none) && decide (x.pa = r.pa)

/-- Data with the bytes of a mask taken from another sector. -/
def overlay (base top : BitVec 256) (mask : BitVec 32) : BitVec 256 :=
  (lanesOf mask).foldl (fun d i => setSectorByte d i (sectorByte top i)) base

/-- A new cached sector. -/
def newSector (a : Accessor) (r : SectorRef) (data : BitVec 256) (dirty : BitVec 32) (marked : Option Nat) : Sector :=
  { core := if marked.isSome then a.core else cacheCore a r.line, asid := a.asid, tid := r.line.tid, line := r.line.no, row := r.row,
    vsec := r.vsec, pa := r.pa, ord := r.ord, key := r.key, data := data, dirty := dirty, marked := marked,
    stale := false, moves := [], touch := [], fenced := false }

/-- The cached sectors of an accessor's context in its tile cache or its cluster's fused L1. -/
def inCache (a : Accessor) (x : Sector) : Bool :=
  decide (x.asid = a.asid) &&
    (if a.fused then decide (clusterOfCore x.core = clusterOfCore a.core) else decide (x.core = a.core))

/-- Sets of a core's tile cache by its split (R219). -/
def cacheSets (splitKib : Nat) : Nat := (640 - splitKib) * 1024 / 4096

/-- The slice and set of the pinned line with an index (R254). -/
def pinSet (fused : Bool) (core sets n : Nat) : Nat × Nat :=
  if fused then (clusterOfCore core * Config.coresPerCluster + n % 16, n / 16 % sets) else (core, n % sets)

/-- The sets that pinned lines of all resident blocks take. -/
def State.pinnedSets (s : State) : List (Nat × Nat) :=
  (s.blocks.filter (·.onCore)).flatMap fun b =>
    let fused := (s.cluster (clusterOfCore b.core)).fused
    b.pinned.map fun n => pinSet fused b.core (cacheSets (s.core b.core).split) n

/-- The set of an ordinary line in the tile cache of a core, which is not architectural (R219). -/
def State.lineSet (s : State) (core : Nat) (tag : Nat × Nat × Nat) : Nat :=
  let n := cacheSets (s.core core).split
  Config.lineSet tag.1 tag.2.1 tag.2.2 n % n

/-- Whether the sixteen ways of the set of a line are all pinned, so that an access that misses allocates no line (R229). -/
def State.noWay (s : State) (a : Accessor) (r : SectorRef) : Bool :=
  let core := cacheCore a r.line
  let pins := s.pinnedSets.filter fun p => decide (p.1 = core)
  decide (16 ≤ pins.length) && decide (16 ≤ pins.count (core, s.lineSet core (a.asid, r.line.tid, r.line.no)))

/-- Whether the line of a cached sector holds a marked sector, so that it is never replaced (R360). -/
def State.heldLine (s : State) (x : Sector) : Bool :=
  s.cache.any fun y => decide (y.core = x.core) && decide (y.asid = x.asid) && decide (y.tid = x.tid) && decide (y.line = x.line) &&
    decide (y.marked ≠ none)

/-- Data with the accessor's own unconfirmed stores to the same bytes, the latest last (R283). What another view holds is seen for
certain once a fence lies between, and otherwise by a free choice (R231). -/
def State.withMarked (s : State) (a : Accessor) (r : SectorRef) (d : BitVec 256) : State × BitVec 256 :=
  if a.unconfirmed then
    let certain := fun (x : Sector) => x.fenced || (decide (x.tid = r.line.tid) && decide (x.line = r.line.no))
    let (other, s) := if s.cache.any fun x => isMarked a r x && !certain x then s.draw 2 else (0, s)
    (s, s.cache.foldr (fun x d => if isMarked a r x && (certain x || decide (other = 0)) then overlay d x.data x.dirty else d) d)
  else (s, d)

/-- A sector read through a view. Where the tile cache holds it clean, a free choice says whether the line has been
replaced since (R268); a miss fetches it, where a way of its set is free for it (R229). Bytes that no cache holds are read at their
completer. -/
def State.readSector (s : State) (a : Accessor) (r : SectorRef) : State × BitVec 256 :=
  if !cacheable r then s.withMarked a r (s.homeSector r.key r.pa)
  else
    match s.cache.find? (isCopy a r) with
    | some x =>
      let (kept, s) := if decide (x.dirty = 0) && !s.heldLine x then s.draw 2 else (0, s)
      if kept = 0 then s.withMarked a r x.data
      else
        let d := s.homeSector r.key r.pa
        { s with cache := replaceFirst (isCopy a r) (fun _ => newSector a r d 0 none) s.cache }.withMarked a r d
    | none =>
      let d := s.homeSector r.key r.pa
      (if s.noWay a r then s else { s with cache := newSector a r d 0 none :: s.cache }).withMarked a r d

/-- A sector as an instruction fetch reads it: through the linear view, leaving the cache as it stands (R225). -/
def State.peekSector (s : State) (a : Accessor) (r : SectorRef) : BitVec 256 :=
  if !cacheable r then s.homeSector r.key r.pa
  else
    match s.cache.find? (isCopy a r) with
    | some x => x.data
    | none => s.homeSector r.key r.pa

/-- Whether a dirty sector must be visible before another one of the same transfer, at a higher address (R251, R281). -/
def movedBefore (x y : Sector) : Bool :=
  (x.moves.any fun n => y.moves.contains n) && decide (x.vsec < y.vsec)

/-- Sectors with those of a list, from high to low addresses, that must be visible before one of them (R251, R281). -/
def withLower (ys : List Sector) : List Sector → List Sector
  | [] => ys
  | x :: rest => withLower (if ys.any (movedBefore x) then x :: ys else ys) rest

/-- The unmarked dirty bytes of the sectors that satisfy a test, written back to their home: only the bytes written since the sector was
fetched or last written back (R230). What one transfer wrote below such a sector is written back with it (R251). -/
def State.writeBack (s : State) (p : Sector → Bool) : State :=
  let dirty := s.cache.filter fun x => decide (x.marked = none) && decide (x.dirty ≠ 0)
  let all := withLower (dirty.filter p) (sortBy Sector.vsec (dirty.filter fun x => !x.moves.isEmpty)).reverse
  let q := fun (x : Sector) => decide (x.marked = none) && decide (x.dirty ≠ 0) && (p x || decide (x ∈ all))
  let s' := (s.cache.filter q).foldl (fun s x => s.storeMasked x.key x.pa x.dirty x.data) s
  { s' with cache := s'.cache.map fun x => if q x then { x with dirty := 0, moves := [] } else x }

/-- The unmarked clean sectors that satisfy a test, dropped. -/
def State.dropClean (s : State) (p : Sector → Bool) : State :=
  { s with cache := s.cache.filter fun x => !(p x && decide (x.marked = none) && decide (x.dirty = 0)) }

/-- A cached sector with some bytes written. Its addresses are those of the reference, unless it was formed under an earlier entry of its tensor
id (R227). -/
def Sector.wrote (x : Sector) (a : Accessor) (r : SectorRef) (mask : BitVec 32) (data : BitVec 256) : Sector :=
  let x := if x.vsec = r.vsec then { x with pa := r.pa, key := r.key, ord := r.ord } else x
  { x with data := overlay x.data data mask, dirty := x.dirty ||| mask, touch := x.touch.filter fun g => decide (a.group = some g) }

/-- The copies of a sector's bytes that the same cache holds through other views are older than a store to it (R231). -/
def State.ageViews (s : State) (a : Accessor) (r : SectorRef) : State :=
  let other := fun (x : Sector) => inCache a x && decide (x.pa = r.pa) && decide (x.marked = none) && !isCopy a r x
  { s with cache := s.cache.map fun x => if other x then { x with stale := true } else x }

/-- Some bytes of a sector written through a view. An unconfirmed block's store goes into a marked sector of its own core, after
the dirty sector it shadows has been written back (R283, R360). A store that misses in a set without a free way is performed at the home (R229). -/
def State.writeSector (s : State) (a : Accessor) (r : SectorRef) (mask : BitVec 32) (data : BitVec 256) : State :=
  if a.unconfirmed && decide (r.ord ≠ 0) then
    let same := fun (x : Sector) => isMarked a r x && decide (x.tid = r.line.tid) && decide (x.line = r.line.no) && !x.fenced
    let s := if s.cache.any same then s else s.writeBack (isCopy a r)
    match s.cache.find? same with
    | some x => { s with cache := x.wrote a r mask data :: s.cache.filter fun x => !same x }
    | none => { s with cache := newSector a r (overlay 0 data mask) mask a.block :: s.cache }
  else if !cacheable r then (s.owe a.group r.pa (BitVec.ofNat 64 (32 * r.vsec))).storeMasked r.key r.pa mask data
  else
    let s := s.ageViews a r
    match s.cache.find? (isCopy a r) with
    | some _ => { s with cache := replaceFirst (isCopy a r) (fun x => x.wrote a r mask data) s.cache }
    | none =>
      if s.noWay a r then s.storeMasked r.key r.pa mask data
      else { s with cache := newSector a r (overlay (s.homeSector r.key r.pa) data mask) mask none :: s.cache }

/-- A whole sector written by a transfer or a copy command; what it wrote before becomes visible before a sector that no cache holds
(R230, R251, R281). -/
def State.writeMoved (s : State) (a : Accessor) (r : SectorRef) (move : Nat) (data : BitVec 256) : State :=
  if cacheable r || a.unconfirmed then
    let s := s.writeSector a r (~~~0) data
    let tag := fun (x : Sector) => if x.moves.contains move then x else { x with moves := move :: x.moves }
    if r.ord = 2 then s else { s with cache := replaceFirst (fun x => isCopy a r x || isMarked a r x) tag s.cache }
  else (if r.ord = 2 then s else s.writeBack fun x => x.moves.contains move).writeSector a r (~~~0) data

/-- The lines of a core that hold marked sectors (R360). -/
def State.markedLines (s : State) (core : Nat) : List (Nat × Nat × Nat) :=
  ((s.cache.filter fun x => decide (x.core = core) && decide (x.marked ≠ none)).map fun x => (x.asid, x.tid, x.line)).eraseDups

/-- Whether no set of a core's tile cache would hold more than eight of some lines (R360). -/
def State.setRoom (s : State) (core : Nat) (lines : List (Nat × Nat × Nat)) : Bool :=
  decide (lines.length ≤ Config.markedInSet) ||
    (let sets := lines.map fun l => s.lineSet core l
     sets.all fun x => decide (sets.count x ≤ Config.markedInSet))

/-- Whether an unconfirmed block may mark some lines on its core (R360). -/
def State.markRoom (s : State) (a : Accessor) (lines : List Line) : Bool :=
  let have_ := s.markedLines a.core
  let more := (lines.map fun l => (a.asid, l.tid, l.no)).eraseDups.filter fun l => !have_.contains l
  more.isEmpty || (decide (have_.length + more.length ≤ Config.markedLines) && s.setRoom a.core (more ++ have_))

/-- Whether the point of a scope lies beyond the accessor's cache (R264). -/
def beyondCache (a : Accessor) (scope : Nat) : Bool := decide (3 ≤ scope) || (decide (scope = 2) && !a.fused)

/-- The cached sectors of an accessor's context on pages that a release or an acquire orders (R261). -/
def ordersSector (a : Accessor) (x : Sector) : Bool := inCache a x && decide (x.ord ≠ 2)

/-- A release at a scope: the dirty sectors are written back to the scope's point (R230, R261, R264). -/
def State.release (s : State) (a : Accessor) (scope : Nat) : State :=
  if beyondCache a scope then s.writeBack (ordersSector a) else s

/-- Whether a context has tensor views (R226). -/
def State.hasViews (s : State) (asid : Nat) : Bool := ((s.context? asid).map fun x => !x.tensors.isEmpty).getD false

/-- An acquire at a scope (R230, R261, R264, R266, R283): partly written sectors are written back, and every clean line of the context is dropped;
marked sectors stay. Where the scope's point is the cache itself, what one view holds dirty reaches the others, and a clean line that another
view has overtaken is dropped. -/
def State.acquire (s : State) (a : Accessor) (scope : Nat) : State :=
  if beyondCache a scope then
    (s.writeBack fun x => ordersSector a x && decide (x.dirty ≠ ~~~0)).dropClean (ordersSector a)
  else if s.hasViews a.asid then (s.writeBack (ordersSector a)).dropClean fun x => ordersSector a x && x.stale
  else s

/-- Whether a cached sector shares its bytes with another view of the accessor's cache (R231). -/
def State.sharesView (s : State) (a : Accessor) (x : Sector) : Bool :=
  x.stale || s.cache.any fun y => inCache a y && decide (y.pa = x.pa) && (decide (y.tid ≠ x.tid) || decide (y.line ≠ x.line) || decide (y.row ≠ x.row))

/-- A fence's separation of views: what the cache holds dirty reaches every view, and no view keeps an older copy (R231, R236). Of the sectors on
unordered pages, only those that two views share are separated (R261). What an unconfirmed block has stored is fenced from then on (R283). -/
def State.separateViews (s : State) (a : Accessor) : State :=
  let p := fun (x : Sector) => inCache a x && (decide (x.ord ≠ 2) || s.sharesView a x)
  let s := (s.writeBack p).dropClean p
  if a.unconfirmed then { s with cache := s.cache.map fun x => if decide (x.marked = a.block) then { x with fenced := true } else x } else s

/-- Every dirty sector of the accessor's context written back and every clean line of it dropped (R236). -/
def State.flushCache (s : State) (a : Accessor) : State := (s.writeBack (inCache a)).dropClean (inCache a)

/-- The dirty bytes of the sectors that hold a physical sector, written back from the accessor's cache, and those copies dropped, as
before an atomic (R240). -/
def State.expel (s : State) (a : Accessor) (pa : Nat) : State :=
  let p := fun (x : Sector) => inCache a x && decide (x.pa = pa / 32 * 32)
  (s.writeBack p).dropClean p

/-! ### Scratchpad and windows -/

/-- The number under which a scratchpad sector is watched. -/
def padSector (block off : Nat) : Nat := 2 ^ 60 + block * 2 ^ 20 + off / 32

/-- Whether n bytes at an offset lie in a block's scratchpad: within the carve-out, or, for a block without a carve-out, in a
pinned line (R220, R229). -/
def padOk (b : Block) (off n : Nat) : Bool :=
  if b.carve = 0 then
    decide (n ≤ 256 - off % 256) && b.pinned.contains (off / 256)
  else decide (off + n ≤ b.carve)

/-- The bytes of a scratchpad. -/
def padBytes (b : Block) (off n : Nat) : List Byte := (List.range n).map fun i => sget 0 b.pad (off + i)

/-- A block with bytes of its scratchpad written. -/
def setPad (b : Block) (off : Nat) (bs : List Byte) : Block :=
  { b with pad := (bs.zipIdx).foldl (fun p x => sset 0 p (off + x.2) x.1) b.pad }

/-- Bytes stored in a block's scratchpad, their watchers woken. -/
def State.storePad (s : State) (block off : Nat) (bs : List Byte) : State :=
  match s.block? block with
  | some b => (s.setBlock (setPad b off bs)).notify (padSector block off)
  | none => s

/-- The live block of rank k in a block's cluster set (R222). -/
def State.setMember (s : State) (b : Block) (k : Nat) : Option Block :=
  s.blocks.find? fun x => decide (x.grid = b.grid) && decide (x.index + b.rank = b.index + k) && decide (x.rank = k) &&
    decide (x.setSize = b.setSize) && decide (x.state = .running)

/-- Where a generic address leads (R221, R388). -/
inductive Where where
  | pad (block off : Nat)
  /-- A local-window address that names no storage. -/
  | nowhere
  | translated (va : Nat)
  | nonCanonical
deriving DecidableEq, Repr

/-- The window decode of an address for n bytes accessed by a group of block b (R221). -/
def State.locate (s : State) (b : Block) (va : Word) (n : Nat) : Where :=
  if bits va 63 56 = 0xFF then
    let off := bits va 23 0
    if bits va 63 48 = 0xFF00 then
      (if bits va 47 24 = 0 && padOk b off n then .pad b.id off else .nowhere)
    else if bits va 63 48 = 0xFF01 then
      (if bits va 47 30 = 0 && decide (bits va 29 24 < b.setSize) then
        (match s.setMember b (bits va 29 24) with
          | some x => if off + n ≤ x.carve then .pad x.id off else .nowhere
          | none => .nowhere)
       else .nowhere)
    else .nowhere
  else if bits va 63 56 = 0 then .translated va.toNat
  else .nonCanonical

/-- A local-window address (R221). -/
def inWindows (va : Word) : Bool := decide (bits va 63 56 = 0xFF)

/-! ### Translation -/

/-- Permission classes of an access (R393): read, write, fetch, and an atomic, which needs both read and write. -/
inductive Access where
  | read | write | fetch | atomic
deriving DecidableEq, Repr

/-- Whether a leaf permits an access (R393). -/
def permits (l : Leaf) (c : Access) (level1 : Bool) : Bool :=
  (match c with
    | .read => l.r
    | .write => l.w
    | .fetch => l.x
    | .atomic => l.r && l.w) && (!l.p || level1)

/-- Whether the key slot that a module-HBM page names is empty (R393). -/
def State.keyMissing (s : State) (l : Leaf) : Bool := isHbm l.frame && decide (s.epoch l.key = 0)

/-- The TLB's leaf for an address, where it permits the access; otherwise the access walks (R393, R398). -/
def State.translate (s : State) (asid va : Nat) (c : Access) (level1 : Bool) : Option Leaf :=
  match s.tlb.find? fun e => decide (e.asid = asid) && decide (e.page = va / 4096) with
  | some e => if permits e.leaf c level1 && !s.keyMissing e.leaf then some e.leaf else none
  | none => none

/-- The physical address of a virtual address under a leaf of its 4 KiB page. -/
def leafAddr (l : Leaf) (va : Nat) : Nat := l.frame + va % 4096

/-- The reference of the linear view's sector that holds a translated address. -/
def linearRef (l : Leaf) (va : Nat) : SectorRef :=
  { line := linearLine va, row := va / 32 % 8, vsec := va / 32, pa := leafAddr l va / 32 * 32, ord := l.ord, key := l.key }

/-- The TSTAT bits of a page fault (R190, R397). -/
def pageStat (c : Access) (protection : Bool) : Word :=
  place (flag (decide (c = .write) || decide (c = .atomic))) 0 ||| place (flag (decide (c = .fetch))) 1 |||
    place (flag (!protection)) 2 ||| place (flag protection) 3

/-! ### Accesses within one sector -/

/-- The place of an access that translates. -/
def physPlace (l : Leaf) (va : Word) : Place := .phys (leafAddr l va.toNat) l.ord l.key va

/-- The sector of a place outside the windows. -/
def placeRef (pa ord key : Nat) (va : Word) : SectorRef :=
  { line := linearLine va.toNat, row := va.toNat / 32 % 8, vsec := va.toNat / 32, pa := pa / 32 * 32, ord := ord, key := key }

/-- The 32 bytes of the sector at a place, as an access reads them. -/
def State.sectorAt (s : State) (a : Accessor) (pl : Place) : State × BitVec 256 :=
  match pl with
  | .pad block off =>
    match s.block? block with
    | some b => (s, BitVec.ofNat 256 (bytesValue (padBytes b (off / 32 * 32) 32)))
    | none => (s, 0)
  | .phys pa ord key va => s.readSector a (placeRef pa ord key va)

/-- Where the bytes of a place begin in their sector. -/
def placeOffset : Place → Nat
  | .pad _ off => off % 32
  | .phys pa _ _ _ => pa % 32

/-- n bytes read at a place that lie in one sector. -/
def State.load (s : State) (a : Accessor) (pl : Place) (n : Nat) : State × Nat :=
  let (s, d) := s.sectorAt a pl
  (s, d.toNat / 2 ^ (8 * placeOffset pl) % 2 ^ (8 * n))

/-- n bytes stored at a place that lie in one sector. -/
def State.store (s : State) (a : Accessor) (pl : Place) (n : Nat) (v : Nat) : State :=
  match pl with
  | .pad block off => s.storePad block off (valueBytes n v)
  | .phys pa ord key va =>
    s.writeSector a (placeRef pa ord key va) (BitVec.ofNat 32 ((2 ^ n - 1) * 2 ^ (pa % 32)))
      (BitVec.ofNat 256 (v % 2 ^ (8 * n) * 2 ^ (8 * (pa % 32))))

/-- The watch number of the sector at a place. -/
def placeSector : Place → Nat
  | .pad block off => padSector block off
  | .phys pa _ _ _ => pa / 32

/-- n bytes at a place as they stand at their home, for an atomic or a test made there (R135, R240, R243). -/
def State.homeValue (s : State) (pl : Place) (n : Nat) : Nat :=
  match pl with
  | .pad block off =>
    match s.block? block with
    | some b => bytesValue (padBytes b off n)
    | none => 0
  | .phys pa _ key _ => bytesValue (s.homeBytes key pa n)

/-- n bytes stored at the home of a place. -/
def State.storeHomeValue (s : State) (pl : Place) (n v : Nat) : State :=
  match pl with
  | .pad block off => s.storePad block off (valueBytes n v)
  | .phys pa _ key _ => s.storeHome key pa (valueBytes n v)

/-- Before an access at the home: the accessor's dirty bytes of the sector are written back and its copies dropped (R240). -/
def State.expelPlace (s : State) (a : Accessor) (pl : Place) : State :=
  match pl with
  | .pad _ _ => s
  | .phys pa _ _ _ => s.expel a pa

/-- The ordering kind of a place; windows behave as release-consistent pages (R259). -/
def placeOrd : Place → Nat
  | .pad _ _ => 1
  | .phys _ ord _ _ => ord

/-- Whether the accessor's cache holds the sector of a place. -/
def State.holdsPlace (s : State) (a : Accessor) (pl : Place) : Bool :=
  match pl with
  | .pad _ _ => true
  | .phys pa ord key va =>
    let r := placeRef pa ord key va
    cacheable r && s.cache.any (isCopy a r)

/-- The error code of a place's sector, if it holds bad data (R26). -/
def State.placePoison (s : State) (pl : Place) : Option Nat :=
  match pl with
  | .pad block _ => s.padPoison block
  | .phys pa _ _ _ => s.poisoned pa

/-! ### Fetching a word -/

/-- What a fetch finds. -/
inductive Fetch where
  | word (w : Nat)
  /-- The target cannot be fetched: TSTAT of the instruction-fetch fault (R165, R221). -/
  | fault (tstat : Word)
  /-- The page's ordering field holds the reserved code (R233). -/
  | badKind
  /-- The word holds an uncorrectable error of a fenced unit of this kind (R26). -/
  | bad (code : Nat)
  /-- No translation is held: the requester waits for a walk (R121, R397). -/
  | miss

/-- The word at a PC under an address space (R33, R225). -/
def State.fetchWord (s : State) (a : Accessor) (level1 : Bool) (pc : Word) : Fetch :=
  if bits pc 63 56 ≠ 0 then .fault (pageStat .fetch false)
  else
    match s.translate a.asid pc.toNat .fetch level1 with
    | none => .miss
    | some l =>
      if l.ord = 3 then .badKind
      else
        match s.poisoned (leafAddr l pc.toNat) with
        | some code => .bad code
        | none => .word ((s.peekSector a (linearRef l pc.toNat)).toNat / 2 ^ (8 * (pc.toNat % 32)) % 2 ^ 32)

end Sys2Proof.Machine
end

