-- ==== Sys2Proof/Machine/Trace.lean ====
section
/-!
DEFINITION. Trace (R413, R421, R422, R424): the packets that a group's words cause. A packet is kept by its core until
the issue hardware writes it into the ring, in the issue cycle that follows.
-/

namespace Sys2Proof.Machine

/-- One step of CRC-32C over eight bits, reflected polynomial 0x82F63B78. PRESUMED (the CRC of that name). -/
def crcBits : Nat → Word32 → Word32
  | 0, c => c
  | n + 1, c => crcBits n (if c.getLsbD 0 then (c >>> 1) ^^^ 0x82F63B78#32 else c >>> 1)

/-- CRC-32C of some bytes (R421). -/
def crc32c (bs : List Byte) : Word32 :=
  ~~~(bs.foldl (fun c b => crcBits 8 (c ^^^ b.setWidth 32)) (~~~0))

/-- GID of a group (R196). -/
def groupGid (g : Group) : Word := place g.core 12 ||| place g.slot 7

/-- The joined name of a group (R413). -/
def joinedName (g : Group) : Word := g.pid ++ g.thread ++ (groupGid g).extractLsb' 0 24

/-- Who accesses memory for a group. -/
def State.accessor (s : State) (g : Group) : Accessor :=
  let b := s.blockOf g
  { core := g.core, fused := (s.cluster (clusterOfCore g.core)).fused, asid := b.asid, group := some g.id, block := some b.id,
    unconfirmed := !b.confirmed }

/-- Whether a group writes trace packets: TREN is 1 for its context and it is not in trap mode (R414, R421). -/
def State.tracing (s : State) (g : Group) : Bool :=
  let c := s.core g.core
  bit c.dbgctl 23 && decide (bits c.dbgctl 15 0 = (s.accessor g).asid) && !g.trap.tmode

/-- Whether a group also writes touchmark records (R424). -/
def State.replaying (s : State) (g : Group) : Bool := s.tracing g && bit (s.core g.core).dbgctl 24

/-- Word 0 of a packet (R421): TYPE, slot, lowest lane, and bits [49:0]. -/
def packetHead (g : Group) (type low rest : Nat) : Word :=
  place type 60 ||| place g.slot 55 ||| place low 50 ||| place (rest % 2 ^ 50) 0

/-- A packet of a group, put behind the packets its core holds. -/
def State.packet (s : State) (g : Group) (ws : List Word) : State :=
  let c := s.core g.core
  s.setCore { c with packets := c.packets ++ [(g.id, ws)] }

/-- A group to which an event of R422 has happened: its SYNC holds the lowest code that applies. -/
def Group.syncFor (g : Group) (reason : Nat) : Group :=
  { g with trace := { g.trace with syncDue := some (min reason (g.trace.syncDue.getD reason)) } }

/-- A group that has written a packet (R421, R422). -/
def Group.wrotePacket (g : Group) : Group :=
  let g := { g with trace := { g.trace with packets := g.trace.packets + 1, words := 0 } }
  if 512 ≤ g.trace.packets then g.syncFor 6 else g

/-- A VALUE packet of a group, when it writes touchmark records (R424). -/
def State.traceValue (s : State) (g : Group) (u : GUnit) (source dv : Nat) (ws : List Word) : State × Group :=
  if s.replaying g && !ws.isEmpty then
    let pad := if ws.length % 2 = 0 then [0] else []
    (s.packet g (packetHead g 9 (lowestLane u.mask) (place (ws.length - 1) 44 ||| place source 40 ||| place dv 34).toNat ::
      ws ++ pad), g.wrotePacket)
  else (s, g)

/-- The SYNC packet of a group before a word at a unit (R421, R422). -/
def syncPacket (s : State) (g : Group) (u : GUnit) (reason : Nat) : List Word :=
  let len := match g.segment with
    | .upTo first last => (last - first).toNat / 4
    | _ => 2 ^ 24 - 1
  let crc := if u.stack.isEmpty then 0 else (crc32c (u.stack.reverse.flatMap fun e => valueBytes 8 e.ret.toNat)).toNat
  [packetHead g 1 (lowestLane u.mask) (reason * 2 ^ 47 + s.tsr.toNat % 2 ^ 47), place (bits u.pc 56 2) 0, joinedName g,
    place len 0 ||| place u.depth 24 ||| place u.loops.length 29 ||| place (flag (decide (1 < g.units.length))) 31 |||
      place crc 32]

/-- What the trace writes before a word that a unit issues: the SYNC that is due, or UNIT when another unit issued last
(R421, R422). The group's touch set empties at a SYNC. -/
def State.traceIssue (s : State) (g : Group) (u : GUnit) : State × Group :=
  if s.tracing g then
    match g.trace.syncDue with
    | some r =>
      let s := s.packet g (syncPacket s g u r)
      let s := { s with cache := s.cache.map fun x => { x with touch := x.touch.filter fun n => decide (n ≠ g.id) } }
      (s, { g with trace := { g.trace with syncDue := none, packets := 0, words := 1, lastUnit := some u.uid } })
    | none =>
      if g.trace.lastUnit = some u.uid || g.trace.lastUnit = none then
        (s, { g with trace := { g.trace with words := g.trace.words + 1, lastUnit := some u.uid } })
      else
        let s := s.packet g [packetHead g 4 (lowestLane u.mask) (g.trace.words * 2 ^ 18), 0]
        let g := g.wrotePacket
        (s, { g with trace := { g.trace with words := 1, lastUnit := some u.uid } })
  else (s, g)

/-- The TAKEN packet of a transfer of control (R421). -/
def State.traceTaken (s : State) (g : Group) (u : GUnit) (pc target : Word) : State × Group :=
  if s.tracing g then
    (s.packet g [packetHead g 2 (lowestLane u.mask) (bits pc 33 2 * 2 ^ 18), place (bits target 56 2) 0], g.wrotePacket)
  else (s, g)

/-- The SPLIT packet of a lane branch (R421). -/
def State.traceSplit (s : State) (g : Group) (u : GUnit) (pc : Word) (takenDetached : Bool) (m : Mask) : State × Group :=
  if s.tracing g then
    (s.packet g [packetHead g 3 (lowestLane u.mask) (bits pc 33 2 * 2 ^ 18 + flag takenDetached * 2 ^ 17), m.setWidth 64],
      g.wrotePacket)
  else (s, g)

/-- The TRAP packet of a group that takes a trap; its touch set empties (R421, R424). -/
def State.traceTrap (s : State) (g : Group) (low cause : Nat) (resume : Word) : State :=
  if s.tracing g then
    let s := s.packet g [packetHead g 5 low (cause * 2 ^ 42), place (bits resume 56 2) 0]
    { s with cache := s.cache.map fun x => { x with touch := x.touch.filter fun n => decide (n ≠ g.id) } }
  else s

/-- The touch set of a group empties at every acquire and fence (R424). -/
def State.untouch (s : State) (g : Group) : State :=
  { s with cache := s.cache.map fun x => { x with touch := x.touch.filter fun n => decide (n ≠ g.id) } }

/-- A TOUCH packet for a sector that a load has read, unless the sector is in the group's touch set; a cached sector then
enters it (R424). -/
def State.traceTouch (s : State) (g : Group) (u : GUnit) (va : Word) (inSet : Sector → Bool) (d : BitVec 256) : State × Group :=
  if s.replaying g then
    if s.cache.any fun x => inSet x && x.touch.contains g.id then (s, g)
    else
      let s := s.packet g ([packetHead g 8 (lowestLane u.mask) 0, va] ++ (List.range 4).map fun i => d.extractLsb' (64 * i) 64)
      ({ s with cache := s.cache.map fun x => if inSet x then { x with touch := g.id :: x.touch } else x }, g.wrotePacket)
  else (s, g)

end Sys2Proof.Machine
end

