-- ==== Sys2Proof/Machine/TileOps.lean ====
section
/-!
DEFINITION. The part of tile transfers, cache maintenance and descriptor writes that runs after issue, and the writing of
completion words into token registers (R16, R249 to R253).
-/

namespace Sys2Proof.Machine

/-- A completion word written into a token register: the register is no longer pending, and a failure is raised by the first
instruction that reads it. `s0` has no token (R16). -/
def Group.complete (g : Group) (r : Nat) (v : Word) (fault : Option TrapInfo) : Group :=
  if r = 0 then g
  else
    let g := { g.setS r v with pending := g.pending &&& ~~~((1#32) <<< r), unread := g.unread ||| (1#32) <<< r }
    match fault with
    | some t => { g with tokFaults := (r, t) :: g.tokFaults }
    | none => g

/-- The group with a token register pending (R16). -/
def Group.pend (g : Group) (r : Nat) : Group :=
  if r = 0 then g else { g with pending := g.pending ||| (1#32) <<< r }

/-- Whether a scalar is a pending token (R16). -/
def Group.isPending (g : Group) (r : Nat) : Bool := decide (r ≠ 0) && g.pending.getLsbD r

/-- A completion word written for a group's work, with flags (R16, R296). -/
def State.writeToken (s : State) (gid tok : Nat) (v : Word) (fl : BitVec 6) (fault : Option TrapInfo) : State :=
  match s.group? gid with
  | some g => s.setGroup ((g.raise fl).complete tok v fault)
  | none => s

/-- The rows of a tile transfer moved in order, each sector as one access; an uncorrectable error stops it (R248 to R251).
Answers the state, the sectors moved, and the address and code of an error. -/
def moveRows (a : Accessor) (op : Nat) (load : Bool) (padBlock : Nat) :
    State → Nat → Nat → List (Option SectorRef) → State × Nat × Option (Word × Nat)
  | s, _, n, [] => (s, n, none)
  | s, off, n, none :: rest =>
    let s := if load then s.storePad padBlock off (List.replicate 32 0) else s
    moveRows a op load padBlock s (off + 32) n rest
  | s, off, n, some r :: rest =>
    match s.poisoned r.pa with
    | some code => (s, n, some (BitVec.ofNat 64 (32 * r.vsec), code))
    | none =>
      if load then
        let (s, d) := s.readSector a r
        moveRows a op load padBlock (s.storePad padBlock off (valueBytes 32 d.toNat)) (off + 32) (n + 1) rest
      else
        let d := match s.block? padBlock with
          | some b => bytesValue (padBytes b off 32)
          | none => 0
        moveRows a op load padBlock (s.writeMoved a r op (BitVec.ofNat 256 d)) (off + 32) (n + 1) rest

/-- Whether a cached sector belongs to the lines that maintenance names (R252). -/
def maintained (a : Accessor) (tid : Nat) (lines : Option (List Line)) (x : Sector) : Bool :=
  inCache a x && decide (x.tid = tid) &&
    (match lines with
      | none => true
      | some ls => ls.any fun l => decide (l.no = x.line))

/-- How many distinct lines some sectors lie in. -/
def lineCount (xs : List Sector) : Nat := ((xs.map fun x => (x.core, x.tid, x.line)).eraseDups).length

/-- A tile operation performed, its status word written into the register that names it (R249 to R253). -/
def State.completeTile (s : State) (op : TileOp) : State :=
  let s := { s with tileOps := s.tileOps.filter fun o => decide (o.id ≠ op.id) }
  match s.group? op.group with
  | none => s
  | some g =>
    let a := s.accessor g
    match op.job with
    | .transfer load scope padBlock padOff rows =>
      let s := match scope with
        | some k => if load then s else s.release a k
        | none => s
      let (s, n, err) := moveRows a op.id load padBlock s padOff 0 rows
      let s := match scope with
        | some k => if load then s.acquire a k else s.release a k
        | none => s
      let st := if err.isSome then 4 else 0
      let fault := err.map fun e =>
        { cause := 17, tval := e.1, tstat := BitVec.ofNat 64 e.2, tlane := 0 : TrapInfo }
      match s.group? op.group with
      | some g => s.setGroup (g.complete op.sreg (place st 60 ||| place n 0) fault)
      | none => s
    | .maintain inval _ tid lines =>
      let p := maintained a tid lines
      let n := lineCount (s.cache.filter fun x => p x && decide (x.marked = none) && (inval || decide (x.dirty ≠ 0)))
      let s := s.writeBack p
      let s := if inval then s.dropClean p else s
      match s.group? op.group with
      | some g => s.setGroup (g.complete op.sreg (place n 0) none)
      | none => s
    | .describe entry image =>
      let s := match s.context? a.asid with
        | some x => s.setContext { x with tensors := upsert (·.1) (entry, image) x.tensors }
        | none => s
      match s.group? op.group with
      | some g => s.setGroup (g.complete op.sreg 0 none)
      | none => s

/-- Every tile operation of a group, completed in order of issue (R188, R249). -/
def State.completeTiles (s : State) (gid : Nat) : State :=
  (s.tileOps.filter fun o => decide (o.group = gid)).foldl (fun s o => s.completeTile o) s

/-- A pending register write performed (R35, R113, R277). -/
def State.completeWrite (s : State) (w : PendingWrite) : State :=
  let s := { s with writes := s.writes.filter fun x => decide (x.id ≠ w.id) }
  match s.group? w.group with
  | none => s
  | some g =>
    match w.vreg with
    | some (r, pair) =>
      let put := fun (g : Group) (lw : Nat × Word) =>
        let g := g.setVreg r lw.1 (lw.2.extractLsb' 0 32)
        if pair then g.setVreg (r + 1) lw.1 (lw.2.extractLsb' 32 32) else g
      s.setGroup (w.lanes.foldl put g)
    | none => s.setGroup (g.setS w.sreg ((w.lanes.head?.map (·.2)).getD 0))

/-- Every pending register write of a group, performed (R188). -/
def State.completeWrites (s : State) (gid : Nat) : State :=
  (s.writes.filter fun w => decide (w.group = gid)).foldl (fun s w => s.completeWrite w) s

/-- Whether a group has a register write that has issued and not completed (R34). -/
def State.writesPending (s : State) (gid : Nat) : Bool := s.writes.any fun w => decide (w.group = gid)

end Sys2Proof.Machine
end

