-- ==== Sys2Proof/Machine/Units.lean ====
section
/-!
DEFINITION. Units of a group: segments and their ends (R126), the back edge of hardware loops (R167), and the reconvergence
stack: leaving entries, fusing at `rcv` and at the end of a segment (R150 to R155).
-/

namespace Sys2Proof.Machine

/-- Whether a unit stands at its segment's base depth. The handler unit has no segment (R126, R188). -/
def atBase (g : Group) (u : GUnit) : Bool := !g.trap.tmode && decide (u.depth = g.baseDepth)

/-- Whether a PC is one to which a unit's own control may transfer: at the base depth, within the current segment or at its
end PC + 4 (R126). -/
def inSegment (g : Group) (u : GUnit) (target : Word) : Bool :=
  if atBase g u then
    match g.segment with
    | .unbounded => true
    | .none => false
    | .upTo first last => (decide (first ≤ target) && decide (target ≤ last)) || decide (target = last + 4)
  else true

/-- Whether a unit has completed its segment (R126). -/
def atEnd (g : Group) (u : GUnit) : Bool :=
  atBase g u &&
    (match g.segment with
      | .upTo _ last => decide (u.pc = last + 4)
      | _ => false)

/-- Whether a PC is the last word of a unit's segment (R43, R171). -/
def atLast (g : Group) (u : GUnit) (pc : Word) : Bool :=
  atBase g u &&
    (match g.segment with
      | .upTo _ last => decide (pc = last)
      | _ => false)

/-- The loop levels and next PC after the word at `pc` completes without transferring control (R167). -/
def backEdgeFrom (pc : Word) : List LoopLevel → List LoopLevel × Word
  | [] => ([], pc + 4)
  | l :: rest =>
    if pc = l.last then
      (if l.count - 1 = 0 then backEdgeFrom pc rest else ({ l with count := l.count - 1 } :: rest, l.first))
    else (l :: rest, pc + 4)

/-- A unit after the word at its PC completes without transferring control (R167). -/
def backEdge (u : GUnit) : GUnit :=
  let (ls, pc) := backEdgeFrom u.pc u.loops
  { u with loops := ls, pc := pc }

/-- The reconvergence entry with an index. -/
def Group.recon? (g : Group) (e : Nat) : Option Recon := (g.recon.find? fun r => decide (r.1 = e)).map (·.2)

/-- The group with a reconvergence entry replaced. -/
def Group.setRecon (g : Group) (e : Nat) (r : Recon) : Group := { g with recon := upsert (·.1) (e, r) g.recon }

/-- The group with a reconvergence entry freed. -/
def Group.freeRecon (g : Group) (e : Nat) : Group := { g with recon := g.recon.filter fun r => decide (r.1 ≠ e) }

/-- The lowest free entry index of the 32 (R150, R151); which one is taken changes no result. -/
def Group.freeEntry (g : Group) : Option Nat := (List.range 32).find? fun e => (g.recon? e).isNone

/-- The entries that a unit leaves, from its innermost one outward, while a test holds, and the nearest it keeps (R154). -/
def entriesLeft (g : Group) (p : Recon → Bool) : Nat → Option Nat → List Nat × Option Nat
  | 0, e => ([], e)
  | _, none => ([], none)
  | fuel + 1, some e =>
    match g.recon? e with
    | some r =>
      if p r then
        let (ls, keep) := entriesLeft g p fuel r.parent
        (e :: ls, keep)
      else ([], some e)
    | none => ([], none)

/-- A unit leaves the entries that satisfy a test: its lanes leave their JOIN (R154). -/
def leaveEntries (g : Group) (u : GUnit) (p : Recon → Bool) : Group × GUnit :=
  let (ls, keep) := entriesLeft g p 33 u.entry
  let g := ls.foldl (fun g e =>
    match g.recon? e with
    | some r => g.setRecon e { r with join := r.join &&& ~~~u.mask }
    | none => g) g
  (g, { u with entry := keep })

/-- The FMT that units hold in common, or another value (R153). -/
def commonFmt (us : List GUnit) (other : Word) : Word :=
  match us with
  | [] => other
  | u :: rest => if rest.all fun x => decide (x.fmt = u.fmt) then u.fmt else other

/-- Whether the back edge of the word at a unit's PC leaves its segment (R126, R167). -/
def backOut (g : Group) (u : GUnit) : Bool := decide ((backEdge u).pc ≠ u.pc + 4) && !inSegment g (backEdge u) (backEdge u).pc

/-- The units parked on an entry fuse into one unit, which completes its `rcv`; where the back edge leaves the segment it stays at the word, whose
scope fault it takes as soon as it is chosen (R126, R152, R153). -/
def fuse (steps : Nat) (g : Group) (e : Nat) (r : Recon) : Group :=
  let isParked := fun (u : GUnit) => decide (u.wait = .arrived) && decide (u.entry = some e)
  let parked := sortUnits (g.units.filter isParked)
  match parked with
  | [] => g.freeRecon e
  | lead :: _ =>
    let u := { lead with mask := r.join, fmt := commonFmt parked r.fmts, entry := r.parent, wait := .ready, since := steps }
    let u := if backOut g u then { u with wait := .edgeOut } else backEdge u
    { g.freeRecon e with units := sortUnits (u :: g.units.filter fun x => !isParked x) }

/-- Frees the entries whose JOIN is empty and fuses those whose JOIN has arrived, until none is left (R152, R154). -/
def settleEntries (steps : Nat) : Nat → Group → Group
  | 0, g => g
  | fuel + 1, g =>
    match g.recon.find? fun r => decide (r.2.join = 0) with
    | some r => settleEntries steps fuel (g.freeRecon r.1)
    | none =>
      match g.recon.find? fun r => decide (r.2.arr = r.2.join) with
      | some r => settleEntries steps fuel (fuse steps g r.1 r.2)
      | none => g

/-- Ready units at the end of the segment complete it: each leaves every entry (R126, R154). -/
def endUnits (g : Group) : Group :=
  g.units.foldl (fun g u0 =>
    match g.units.find? fun x => decide (x.uid = u0.uid) with
    | some u =>
      if (decide (u.wait = .ready)) && atEnd g u && !u.region.isSome then
        let (g, u) := leaveEntries g u fun _ => true
        { g with units := g.units.map fun x => if x.uid = u.uid then { u with wait := .segmentDone } else x }
      else g
    | none => g) g

/-- Whether a unit has reached the end of its segment, or stands at the Joint word that ends it (R126, R171). -/
def unitDone (u : GUnit) : Bool := decide (u.wait = .segmentDone) || decide (u.wait = .joint)

/-- When every unit has reached the end of the segment, they fuse into the undivided group (R126, R153). -/
def fuseAtEnd (g : Group) : Group :=
  if g.units.all unitDone then
    match sortUnits g.units with
    | [] => g
    | [_] => g
    | lead :: rest =>
      let m := rest.foldl (fun m u => m ||| u.mask) lead.mask
      let u := { lead with mask := m, fmt := commonFmt (lead :: rest) lead.fmt, entry := none }
      let u := match g.units.find? fun x => decide (x.wait = .joint) with
        | some j => { u with wait := .joint, pc := j.pc }
        | none => u
      { g with recon := [], units := [u] }
  else g

/-- What follows in a group from a change of its units: freeing and fusing, ends of the segment, and what these free and fuse
in turn (R126, R152, R154). -/
def settleUnits (steps : Nat) : Nat → Group → Group
  | 0, g => fuseAtEnd g
  | fuel + 1, g =>
    let g' := endUnits (settleEntries steps 64 g)
    if g'.recon = g.recon ∧ g'.units = g.units then fuseAtEnd g else settleUnits steps fuel g'

/-- A split by R147: the smaller side is detached, the taken side when they are equal. The unit's entry is already set. Answers the
group, the uid of the taken side, and whether the taken side was detached. -/
def splitUnit (g : Group) (u : GUnit) (taken : Mask) (uTaken uFall : GUnit → GUnit) (steps : Nat) : Group × Bool :=
  let fall := u.mask &&& ~~~taken
  let takenDetached := decide (countLanes taken ≤ countLanes fall)
  let uid := g.nextUid
  let t := uTaken { u with mask := taken, hint := none, skipBp := false }
  let f := uFall { u with mask := fall, hint := none, skipBp := false }
  -- The taken side becomes ready when its target word reaches the instruction buffer (R148).
  let (t, f) := if takenDetached then ({ t with uid := uid, wait := .takenSide }, f) else ({ t with wait := .takenSide }, { f with uid := uid })
  let (t, f) := ({ t with since := steps + 1 }, { f with since := steps + 1 })
  ({ g with nextUid := uid + 1, units := sortUnits (t :: f :: g.units.filter fun x => decide (x.uid ≠ u.uid)) }, takenDetached)

end Sys2Proof.Machine
end

