-- ==== Sys2Proof/Machine/Ops.lean ====
section
/-!
DEFINITION. The shared operations of every word: taking a trap and returning from one (R187 to R192, R206), the checks
before a word (R48, R49), the stalls on tokens and registers (R16, R35), and the completion of a word (R34, R126, R167).
-/

namespace Sys2Proof.Machine

/-- The outcome of a step of this machine. -/
abbrev Out := Host.Outcome State Fault Refusal

/-! ### Faults -/

/-- A fault of a cause whose TVAL is the instruction word and whose TLANE is the unit's mask (R190). -/
def wordFault (cause : Nat) (i : Instr) (u : GUnit) : TrapInfo :=
  { cause := cause, tval := wordOf i, tstat := 0, tlane := u.mask }

/-- The illegal-instruction fault (R48). -/
def illegal (i : Instr) (u : GUnit) : TrapInfo := wordFault 1 i u

/-- The scope fault (R124, R126, R157). -/
def scopeFault (i : Instr) (u : GUnit) : TrapInfo := wordFault 4 i u

/-- The sequencer-stack fault (R130, R131, R151, R157, R168). -/
def stackFault (i : Instr) (u : GUnit) : TrapInfo := wordFault 7 i u

/-- A fault of an address: TVAL, the TSTAT bits and the faulting lanes (R190). -/
def addrFault (cause : Nat) (va : Word) (tstat : Word) (lanes : Mask) : TrapInfo :=
  { cause := cause, tval := va, tstat := tstat, tlane := lanes }

/-! ### Taking a trap -/

/-- A unit as a trap saves it: a pair starts again at its hint (R43); a unit that has suspended is saved ready at its
target (R186, R192); one that waits at a word is saved at the word (R186, R198). -/
def saveUnit (u : GUnit) : GUnit :=
  let u := if u.hint.isSome then { u with pc := u.pc - 4, hint := none } else u
  match u.wait with
  | .arrived => u
  | .segmentDone => u
  | _ => { u with wait := .ready }

/-- Some requesters leave their waits for walks: an answer for them is discarded (R397). -/
def State.dropWaiters (s : State) (p : Waiter → Bool) : State :=
  { s with walks := s.walks.map fun (w : Walk) => { w with waiters := w.waiters.filter fun x => !p x } }

/-- The waits of a group's units, dropped: their watches (R246), and what they wait for at walks (R397). -/
def State.dropWatches (s : State) (g : Group) : State :=
  let s := s.dropWaiters fun x => match x with
    | .unit n _ _ => decide (n = g.id)
    | _ => false
  let c := s.core g.core
  s.setCore { c with watches := c.watches.filter (fun w => decide (w.group ≠ g.id)),
                     watchQueue := c.watchQueue.filter fun w => decide (w.1 ≠ g.id) }

/-- The index of a unit among the units in ascending order of lowest lane (R192). -/
def unitIndex (us : List GUnit) (uid : Nat) : Nat := (us.findIdx? fun u => decide (u.uid = uid)).getD 0

/-- The handler unit (R188): every live lane, at TVEC, three empty loop levels, an empty call stack, the reset FMT, and a region
as though open (R189). -/
def handlerUnit (uid : Nat) (live : Mask) (tvec : Word) (steps : Nat) : GUnit :=
  { uid := uid, mask := live, pc := tvec, fmt := Config.fmtReset, loops := [], stack := [], entry := none,
    region := some live, wait := .ready, hint := none, unfinished := none, ordered := false, skipBp := false, since := steps }

/-- Trap mode entered by a group whose issued instructions have completed: the trap registers, the saved units and the handler unit
(R188 to R192). `skip` is 4 for `trap` and `brk`, whose resume PC is PC + 4. -/
def enterTrap (g : Group) (uid : Nat) (t : TrapInfo) (skip : Word) (async : Bool) (tvec : Word) (steps : Nat) : Group :=
  let us := sortUnits (g.units.map fun u =>
    let u' := saveUnit u
    if u.uid = uid then { u' with pc := u'.pc + skip } else u')
  { g with
    units := us
    nextUid := g.nextUid + 1
    handler := some (handlerUnit g.nextUid g.live tvec steps)
    halted := decide (t.cause = 22) || decide (t.cause = 23) || decide (t.cause = 26)
    trap := { g.trap with tmode := true, tcause := place t.cause 0 ||| place (flag async) 8, tval := t.tval,
                          tlane := t.tlane, tstat := t.tstat, tunit := unitIndex us uid } }

/-- A double fault: the group halts with stall reason 21, and the manager is asked to reset its queue (R189). -/
def State.doubleFault (s : State) (g : Group) (uid : Nat) : State :=
  let halt := fun (u : GUnit) => if u.uid = uid then { u with wait := .stall 21, hint := none } else u
  let s := s.setGroup { g with doubleFault := true, handler := g.handler.map halt }
  let s := s.logged (.doubleFault g.id)
  let qid := match s.block? g.block with
    | some b => (match s.grid? b.grid with | some k => k.qid | none => 0)
    | none => 0
  let fn := match s.queue? qid with | some q => q.fn | none => 0
  s.later (.resetQueue { fn := fn, slot := none, w0 := place 9 56, w1 := 0, w2 := BitVec.ofNat 64 qid, w3 := 0, w4 := 0, w5 := 0, w6 := 0 })

/-- A stop of a process (R417): every group that carries the PID receives cause 26, and its threads on system cores are halted. -/
def State.stopProcess (s : State) (pid : BitVec 24) : State :=
  let asked := fun (g : Group) =>
    if g.pid = pid && !(g.async.any fun t => decide (t.cause = 26)) then
      { g with async := g.async ++ [{ cause := 26, tval := 0, tstat := 0, tlane := g.live }] }
    else g
  let stopped := fun (h : Hart) => if h.pid = pid then { h with halted := true } else h
  { s with groups := s.groups.map asked, harts := s.harts.map stopped }

/-- Whether a cause that a group takes begins a stop: a breakpoint or `brk` under STOPALL (R417). -/
def State.beginsStop (s : State) (pid : BitVec 24) (cause : Nat) : Bool :=
  (decide (cause = 22) || decide (cause = 23)) && s.stopall.contains pid

/-- A group enters its handler (R188, steps 1 to 4): its issued instructions and tile transfers complete, its watches are dropped, and the
handler unit starts. -/
def State.enterHandler (s : State) (gid : Nat) (d : Draining) : State :=
  let s := (s.completeWrites gid).completeTiles gid
  match s.group? gid with
  | none => s
  | some g =>
    let s := s.dropWatches g
    let tvec := match s.context? (s.accessor g).asid with
      | some x => x.tvec.getD 0
      | none => 0
    let g' := enterTrap { g with draining := none } d.unit d.info d.skip d.async tvec s.steps
    let resume := ((g'.units[g'.trap.tunit]?).map (·.pc)).getD 0
    let low := ((g'.units[g'.trap.tunit]?).map (fun u => lowestLane u.mask)).getD 0
    let s := (s.traceTrap g low d.info.cause resume).setGroup g'
    if s.beginsStop g.pid d.info.cause then s.stopProcess g.pid else s

/-- A group takes a trap at a unit (R188): at once, or, where AtomicOps that it has issued are still in flight, when they are complete; no
unit of it issues until then. In trap mode a synchronous trap is a double fault (R189). -/
def State.takeTrap (s : State) (gid uid : Nat) (t : TrapInfo) (skip : Word) (async : Bool) : State :=
  let s := { s with sel := none }
  match s.group? gid with
  | none => s
  | some g =>
    if g.trap.tmode then s.doubleFault g uid
    else
      let d : Draining := { unit := uid, info := t, skip := skip, async := async }
      if s.atomics.any fun x => decide (x.group = gid) then (s.setGroup { g with draining := some d }).dropWatches g
      else s.enterHandler gid d

/-- The resume PC of unit TUNIT (R192). -/
def Group.tpc (g : Group) : Word := ((g.units[g.trap.tunit]?).map (·.pc)).getD 0

/-- An address as a PC holds it: a PC is always a multiple of 4 (R33). DESIGN CHOICE: the two low bits of a value that software writes where
a PC stands are ignored. -/
def pcOf (v : Word) : Word := v &&& ~~~3

/-- The group with the resume PC of unit TUNIT written (R192). DESIGN CHOICE: the write also drops the unit's mask of unfinished lanes, which
belongs to the word at the old PC. -/
def Group.setTpc (g : Group) (v : Word) : Group :=
  { g with units := g.units.zipIdx.map fun u => if u.2 = g.trap.tunit then { u.1 with pc := pcOf v, unfinished := none } else u.1 }

/-- A group leaves trap mode (R206, steps 2 and 3): its units resume; one that stands at the end of its segment waits for
a record. A suspended unit was saved ready. After a breakpoint, unit TUNIT issues its resume word without a check (R415). -/
def leaveTrap (g : Group) (steps : Nat) : Group :=
  let skip := decide (bits g.trap.tcause 7 0 = 22)
  let g := { g with trap := { g.trap with tmode := false }, handler := none, halted := false }
  let us := g.units.zipIdx.map fun u =>
    let u1 := { u.1 with since := steps, skipBp := skip && decide (u.2 = g.trap.tunit) }
    if u1.wait = .segmentDone && !atEnd g u1 && decide (g.segment ≠ .none) then { u1 with wait := .ready } else u1
  settleUnits steps 64 { g with units := us }

/-! ### Checks before a word -/

/-- Check 6 of R49: whether every vector field lies within VALLOC (R40). -/
def fieldsInBounds (g : Group) (u : GUnit) (i : Instr) : Bool :=
  (vReads (fmtB u.fmt) i ++ vWrites (fmtB u.fmt) i).all fun f => decide (g.vwin + f.1 + f.2 ≤ g.valloc)

/-- Whether a unit may not execute its word where it stands: its PC lies outside its segment (R206), or it has fused at an `rcv` whose back edge
leaves the segment (R126, R152). -/
def strayed (g : Group) (u : GUnit) : Bool :=
  decide (u.wait = .edgeOut) || atBase g u &&
    (match g.segment with
      | .upTo first last => !(decide (first ≤ u.pc) && decide (u.pc ≤ last))
      | _ => false)

/-- The checks of R49 in their order, and the scope fault of a unit outside its segment or on its way out of it (R126, R152, R206). -/
def gate (g : Group) (u : GUnit) (i : Instr) : Option TrapInfo :=
  if strayed g u then some (scopeFault i u)
  else if !codesOk u.hint 1 (fmtB u.fmt) i then some (illegal i u)
  else if !hintOk u.hint i then some (illegal i u)
  else if isHint i && atLast g u u.pc then some (illegal i u)
  else if privileged i && !g.level1 then some (wordFault 2 i u)
  else if (match i with
    | .csrw _ _ c => !csrWritable g.level1 c.toNat
    | _ => false) then some (illegal i u)
  else if !fieldsInBounds g u i then some { wordFault 3 i u with tlane := currentMask g u }
  else none

/-- Whether a word reads and writes nothing because its active mask is empty (R72). -/
def maskEmpty (g : Group) (u : GUnit) (i : Instr) : Bool := hasMask i && decide (activeMask g u (predField i) = 0)

/-- Whether a word names a register whose write has not completed (R35). -/
def State.heldUp (s : State) (g : Group) (u : GUnit) (i : Instr) : Bool :=
  let ss := sReads i ++ sWrites i
  let vs := vReads (fmtB u.fmt) i ++ vWrites (fmtB u.fmt) i
  (s.writes.any fun w => decide (w.group = g.id) &&
    match w.vreg with
      | some (r, pair) =>
        vs.any fun f => decide (g.vwin + f.1 ≤ r + flag pair) && decide (r < g.vwin + f.1 + f.2)
      | none => decide (w.sreg ≠ 0) && ss.contains w.sreg) ||
    s.atomics.any fun x => decide (x.group = g.id) && decide (x.sreg ≠ 0) && ss.contains x.sreg

/-- Whether a word writes a register of a stream that a task has not read yet (R305). -/
def State.streamHeld (s : State) (g : Group) (u : GUnit) (i : Instr) : Bool :=
  (s.core g.core).tasks.any fun t => decide (t.group = g.id) && t.streams.any fun r =>
    (vWrites (fmtB u.fmt) i).any fun f => decide (g.vwin + f.1 < r.1 + r.2) && decide (r.1 < g.vwin + f.1 + f.2)

/-- Whether a task of a group has not read its register stream yet (R305). -/
def State.streamUnread (s : State) (g : Group) : Bool :=
  (s.core g.core).tasks.any fun t => decide (t.group = g.id) && !t.streams.isEmpty

/-- Whether a word is ordered behind every earlier access of its group outside the module: a release or a fence at `sys`, or a word that makes one
(R236, R238, R242, R272, R346, R349, R355). -/
def ordersFar (i : Instr) : Bool :=
  let rel := fun (o : BitVec 2) (k : BitVec 3) => decide (o.toNat = 2) && decide (k.toNat = 4)
  match i with
  | .sst _ _ _ _ _ o k | .tst _ _ _ _ k o | .atomAdd _ _ _ _ _ o k | .atomAnd _ _ _ _ _ o k | .atomOr _ _ _ _ _ o k
  | .atomXor _ _ _ _ _ o k | .atomMin _ _ _ _ _ _ o k | .atomMax _ _ _ _ _ _ o k | .atomXchg _ _ _ _ _ o k | .atomCas _ _ _ _ _ o k => rel o k
  | .vstRel _ _ _ _ _ k | .fence _ k | .fenceRel _ k | .fenceAcq _ k | .evinc _ _ _ k => decide (k.toNat = 4)
  | .fenceFlush .. | .wdone .. | .wdoneFail .. | .qrestart .. | .shpSet .. => true
  | _ => false

/-- What a word waits for before it may issue: a pending token or an AtomicOp that it is ordered behind (stall reason 2), an incomplete register
write (R16, R35), or a task that has not read its stream (R305). -/
def State.stallOf (s : State) (g : Group) (u : GUnit) (i : Instr) : Option Wait :=
  if maskEmpty g u i then none
  else if (sReads i ++ sWrites i).any g.isPending then some (.stall 2)
  else if s.heldUp g u i then some .hold
  else if s.streamHeld g u i then some (.stall 15)
  else if ordersFar i && s.atomics.any fun x => decide (x.group = g.id) then some (.stall 2)
  else none

/-- The fault of a completed token that a word is the first to read, and the group after it (R16). -/
def tokenFault (g : Group) (u : GUnit) (i : Instr) : Option (TrapInfo × Group) :=
  if maskEmpty g u i then none
  else
    match g.tokFaults.find? fun t => (sReads i).contains t.1 with
    | some t =>
      some ({ t.2 with tlane := if t.2.cause = 17 then 0 else u.mask },
        { g with tokFaults := g.tokFaults.filter fun x => decide (x.1 ≠ t.1) })
    | none => none

/-! ### Charges -/

/-- The weight of a word in the current record (R403). -/
def weight (i : Instr) : Nat :=
  match i with
  | .hintImm _ _ | .hintMod _ _ _ | .hintSched _ _ _ => 0
  | .vadd .. | .vsub .. | .vmin .. | .vmax .. | .vabs .. | .vand .. | .vor .. | .vxor .. | .vandn .. | .vshl .. | .vshr ..
  | .vsar .. | .vclz .. | .vpopc .. | .vsat .. | .vsel .. | .vset .. | .vsetImm .. | .pand .. | .por .. | .pxor ..
  | .pnot .. | .vmov .. | .vbcast .. | .vlane .. | .vrand .. | .vaddImm .. | .vshlImm .. | .vshrImm .. | .vsarImm ..
  | .vmovImm .. => 1
  | .vfadd _ _ _ _ _ t | .vfsub _ _ _ _ _ t | .vfmul _ _ _ _ _ t | .vfma _ _ _ _ _ t | .vfmin _ _ _ _ _ t
  | .vfmax _ _ _ _ _ t => if t.toNat = 0 then 4 else 2
  | .vfset _ _ _ _ _ _ t => if t.toNat = 0 then 4 else 2
  | .vfrcp _ _ _ _ t | .vfrsq _ _ _ _ t | .vfsqrt _ _ _ _ t | .vfex2 _ _ _ _ t | .vflg2 _ _ _ _ t
  | .vfsin _ _ _ _ t | .vfcos _ _ _ _ t => if t.toNat = 0 then 6 else 3
  | _ => 2

/-- The charge of a word issued by a unit: its weight times its active lanes, one lane for a word without a mask (R21, R403). -/
def charge (g : Group) (u : GUnit) (i : Instr) : Nat :=
  weight i * (if hasMask i then countLanes (activeMask g u (predField i)) else 1)

/-- A word's charge as planishing counts it (R405): after `hint.sched` with `heavy` at least half of LIM. -/
def pairCharge (lim : Nat) (g : Group) (u : GUnit) (i : Instr) : Nat :=
  match u.hint with
  | some (.sched heavy _) => if heavy.toNat = 1 then max (charge g u i) (lim / 2 + 1) else charge g u i
  | _ => charge g u i

/-- Whether `hint.sched alone` leaves the second slot empty (R405). -/
def issuesAlone (u : GUnit) : Bool :=
  match u.hint with
  | some (.sched _ advice) => decide (advice.toNat = 2)
  | _ => false

/-- A scheduler after a word has issued in one of the two slots of its cycle. The word in the first slot, a hint among them, is the issue
cycle: it lengthens the run (R34, R43, R341). The word in the second slot leaves the run as it stands (R145). -/
def Sched.issued (sc : Sched) (g : Group) (uid pairCharge : Nat) (alone : Bool) (steps : Nat) : Sched :=
  if sc.first.isSome then { sc with paired := true }
  else
    { sc with run := some (g.id, uid), runLen := sc.runLen + 1, recent := (steps + 1) :: sc.recent.take 31,
              first := some (g.id, pairCharge, alone) }

/-- The charge added to the window of the group's cluster, and the scheduler's slot filled (R34, R148, R404). -/
def State.account (s : State) (g : Group) (u : GUnit) (i : Instr) : State :=
  let cl := s.cluster (clusterOfCore g.core)
  let s := s.setCluster { cl with window := cl.window + charge g u i }
  let c := s.core g.core
  let m := g.slot % 4
  let sc := ((c.scheds[m]?).getD schedReset).issued g u.uid (pairCharge cl.pairlim g u i) (issuesAlone u) s.steps
  let s := s.setCore { c with scheds := c.scheds.setIfInBounds m sc }
  { s with steps := s.steps + 1 }

/-- A scheduler whose run is one of a group's units. -/
def Sched.runsGroup (sc : Sched) (g : Group) : Bool :=
  match sc.run with
  | some r => decide (r.1 = g.id)
  | none => false

/-- The end of the run of a group in its scheduler (R34); a run of another group goes on (R145). -/
def State.endRun (s : State) (g : Group) : State :=
  let c := s.core g.core
  let m := g.slot % 4
  let sc := (c.scheds[m]?).getD schedReset
  if sc.runsGroup g then s.setCore { c with scheds := c.scheds.setIfInBounds m { sc with run := none, runLen := 0 } } else s

/-- The run of a group's scheduler goes on with another unit of the group (R148). -/
def State.setRun (s : State) (g : Group) (uid : Nat) : State :=
  let c := s.core g.core
  let m := g.slot % 4
  let sc := (c.scheds[m]?).getD schedReset
  if sc.runsGroup g then s.setCore { c with scheds := c.scheds.setIfInBounds m { sc with run := some (g.id, uid) } } else s

/-! ### Issuing a word -/

/-- What the meaning of a word answers: the state apart from the group, the group, and the unit that issued. -/
inductive Res where
  /-- The word completes and falls through to the next word, or to the back edge of a loop. -/
  | ok (s : State) (g : Group) (u : GUnit)
  /-- The word completes; the unit's next PC is set. -/
  | jump (s : State) (g : Group) (u : GUnit)
  /-- A fault: the word changes nothing. -/
  | trap (t : TrapInfo)
  /-- A fault after some lanes have completed (R120, R121). -/
  | trapAfter (s : State) (g : Group) (u : GUnit) (t : TrapInfo)
  /-- The word has changed nothing and is tried again later; its stall reason. -/
  | stall (reason : Nat)
  /-- The word has not completed; the unit's wait is set. -/
  | wait (s : State) (g : Group) (u : GUnit)
  /-- The word completes and has changed the group's units itself; the unit that keeps the issue, if one does (R148). -/
  | regrouped (s : State) (g : Group) (keeps : Option Nat)
  /-- The word completes, and with it no lane of the group remains; its end is the state's next change. -/
  | ended (s : State) (g : Group)

/-- The back edges that units take as they fuse at an `rcv` that ends a loop body (R152, R421): the unit and its next PC. -/
def fusingEdges (g : Group) : List (GUnit × Word) :=
  (g.recon.filter fun r => decide (r.2.arr = r.2.join) && decide (r.2.join ≠ 0)).filterMap fun r =>
    match sortUnits (g.units.filter fun u => decide (u.wait = .arrived) && decide (u.entry = some r.1)) with
    | lead :: _ => if (backEdge lead).pc = lead.pc + 4 || backOut g lead then none else some (lead, (backEdge lead).pc)
    | [] => none

/-- A group put back after a word of a unit, its units settled, its trace written (R126, R152, R421). -/
def State.putBack (s : State) (g : Group) : State :=
  let (s, g) := (fusingEdges g).foldl (fun sg e => sg.1.traceTaken sg.2 e.1 e.1.pc e.2) (s, g)
  s.setGroup (settleUnits s.steps 64 g)

/-- `yield` ends the unit's run (R169). -/
def endsRun : Instr → Bool
  | .yield _ => true
  | _ => false

/-- A unit's next PC and loop levels once its word has completed: the next word after a hint, the back edge after a word that falls
through, and what the word has set itself otherwise (R34, R43, R167). -/
def nextUnit (i : Instr) (u : GUnit) (falls : Bool) : GUnit :=
  if falls then (if isHint i then { u with pc := u.pc + 4 } else backEdge u) else u

/-- A unit whose word has completed: a hint before it is spent. After a hint the lanes that the pair's second word has left unfinished stay
recorded (R43, R121). -/
def GUnit.spent (u : GUnit) (i : Instr) (steps : Nat) : GUnit :=
  { u with hint := if isHint i then u.hint else none, skipBp := false, unfinished := if isHint i then u.unfinished else none,
           since := steps + 1 }

/-- A group that has issued a word. -/
def Group.issuedAt (g : Group) (steps : Nat) : Group := { g with lastIssue := steps, trace := { g.trace with issued := true } }

/-- Whether a unit parks after a word by its switch marker (R34). -/
def parks (i : Instr) (g : Group) (u : GUnit) : Bool := markerOf i && decide (u.wait = .ready) && !atEnd g u

/-- The unit put back after its word: parked by the word's marker, or else in its scheduler's run; the group's units settle (R34, R126). -/
def State.leaveWord (s : State) (i : Instr) (g : Group) (u : GUnit) : State :=
  let u := if parks i g u then { u with wait := .switchPark } else u
  let s := if decide (u.wait = .ready) && !atEnd g u && !endsRun i then s else s.endRun g
  if g.trap.tmode then s.setGroup (g.setUnit u) else s.putBack (g.setUnit u)

/-- Whether a word that falls through transfers control, by the back edge of a loop (R167). -/
def takesEdge (i : Instr) (u0 u : GUnit) (falls : Bool) : Bool := falls && decide ((nextUnit i u falls).pc ≠ u0.pc + 4)

/-- The state that has issued a word: its TAKEN packet where it takes a back edge, and its charge (R404, R421). -/
def State.issued (s : State) (i : Instr) (g0 : Group) (u0 : GUnit) (g : Group) (u : GUnit) (falls : Bool) : State × Group :=
  let (s', g) := if takesEdge i u0 u falls then s.traceTaken g u0 u0.pc (nextUnit i u falls).pc else (s, g)
  (State.account { s' with sel := none } g0 u0 i, g.issuedAt s.steps)

/-- Whether a word that falls through takes a back edge that leaves its segment: it raises the scope fault and changes nothing (R126,
R186). -/
def edgeOut (i : Instr) (g : Group) (u0 u : GUnit) : Bool :=
  takesEdge i u0 u true && !inSegment g (nextUnit i u true) (nextUnit i u true).pc

/-- The completion of a word: hint spent, back edge, segment end, switch marker, run and charge (R34, R126, R167, R404). `u0` is
the unit before the word, `u` after it. -/
def State.completeWord (s : State) (i : Instr) (g0 : Group) (u0 : GUnit) (g : Group) (u : GUnit) (falls : Bool) : State :=
  let (s', g) := s.issued i g0 u0 g u falls
  let u1 := (nextUnit i u falls).spent i s.steps
  if u1.region.isSome && !g.trap.tmode && atEnd g u1 then (s'.setGroup (g.setUnit u1)).takeTrap g.id u1.uid (scopeFault i u1) 0 false
  else s'.leaveWord i g u1

/-- The completion of a word that has changed the group's units itself: the unit that keeps the issue goes on in the run, or
parks by the word's marker (R34, R148). -/
def State.completeRegrouped (s : State) (i : Instr) (g0 : Group) (u0 : GUnit) (g : Group) (keeps : Option Nat) : State :=
  let g := { g with lastIssue := s.steps, trace := { g.trace with issued := true } }
  let s := { s with sel := none }.account g0 u0 i
  match keeps with
  | none => (s.endRun g).putBack g
  | some uid =>
    let kept := fun (x : GUnit) => decide (x.uid = uid) && decide (x.wait = .ready) && !atEnd g x
    let park := fun (x : GUnit) => if kept x && markerOf i then { x with wait := .switchPark } else x
    let s := if g.units.any kept && !markerOf i then s.setRun g uid else s.endRun g
    s.putBack { g with units := g.units.map park }

/-- What the trace writes before a word takes effect: SYNC or UNIT, and the completion words that it is the first to read
(R421, R422, R424). -/
def State.traceWord (s : State) (g : Group) (u : GUnit) (i : Instr) : State × Group :=
  if isHint i then (s, g)
  else
    let (s, g) := s.traceIssue g u
    if maskEmpty g u i then (s, g)
    else
      let rs := (sReads i).eraseDups.filter fun r => g.unread.getLsbD r
      rs.foldl (fun sg r =>
        let (s, g) := sg.1.traceValue sg.2 u 1 0 [sg.2.s r]
        (s, { g with unread := g.unread &&& ~~~((1#32) <<< r) })) (s, g)

/-- A group whose word is not counted by the trace, since it has not completed (R421). -/
def Group.unword (g : Group) : Group := { g with trace := { g.trace with words := g.trace.words - 1 } }

/-- A word issued by the selected unit: the checks of R49, the fault of a token it is the first to read, its stalls, its meaning,
and, for the one word that can end its group, `fin`. -/
def issueWith (fin : State → Nat → State) (i : Instr) (s : State) (body : State → Group → GUnit → Res) : Out :=
  match s.sel with
  | some (.unit gid uid) =>
    match s.group? gid with
    | none => .refused .nobodyIssues
    | some g =>
      match g.unit? uid with
      | none => .refused .nobodyIssues
      | some u =>
        match gate g u i with
        | some t => .next (s.takeTrap gid uid t 0 false)
        | none =>
          match s.stallOf g u i with
          | some w => .next (({ s with sel := none }.setGroup (g.setUnit { u with wait := w })).endRun g)
          | none =>
            match tokenFault g u i with
            | some (t, g') => .next ((s.setGroup g').takeTrap gid uid t 0 false)
            | none =>
              let (s1, g1) := s.traceWord g u i
              match body s1 g1 u with
              | .ok s' g' u' =>
                .next (if edgeOut i g' u u' then s.takeTrap gid uid (scopeFault i u) 0 false else s'.completeWord i g u g' u' true)
              | .jump s' g' u' => .next (s'.completeWord i g u g' u' false)
              | .trap t => .next (s.takeTrap gid uid t 0 false)
              | .trapAfter s' g' u' t => .next ((s'.setGroup (g'.setUnit u')).takeTrap gid uid t 0 false)
              | .stall r => .next ((({ s with sel := none }).setGroup (g.setUnit { u with wait := .stall r })).endRun g)
              | .wait s' g' u' =>
                .next ((({ s' with sel := none }).setGroup (g'.unword.setUnit u')).endRun g')
              | .regrouped s' g' keeps => .next (s'.completeRegrouped i g u g' keeps)
              | .ended s' g' => .next (fin ((({ s' with sel := none }.account g u i).endRun g').setGroup g') gid)
  | _ => .refused .nobodyIssues

/-- A word that makes a release at a scope: a release at `sys` that orders a write lost with its link port raises the contained-error fault, once for
the writes remembered (R438). -/
def releasing (s : State) (g : Group) (u : GUnit) (scope : Nat) (k : Res) : Res :=
  match (if scope = 4 then s.unsettled.find? fun x => decide (x.1 = g.id) else none) with
  | some (_, va) => .trapAfter { s with unsettled := s.unsettled.filter fun x => decide (x.1 ≠ g.id) } g u (addrFault 17 va 0 u.mask)
  | none => k

/-- A word that never ends its group. -/
def issue (i : Instr) (s : State) (body : State → Group → GUnit → Res) : Out := issueWith (fun s _ => s) i s body

/-- A word that reads and writes only its group: its meaning answers the group alone. -/
def issueReg (i : Instr) (s : State) (f : Group → GUnit → Group) : Out :=
  issue i s fun s g u => .ok s (f g u) u

/-- A word of format A or B that reads and writes only its group, under its active mask (R70, R72). -/
def issueLanes (i : Instr) (s : State) (f : Group → GUnit → Mask → Group) : Out :=
  issue i s fun s g u =>
    let m := activeMask g u (predField i)
    .ok s (if m = 0 then g else f g u m) u

/-- The permission class of an access (R394, R432). -/
def Access.cls : Access → Nat
  | .read => 0
  | .write => 1
  | .fetch => 2
  | .atomic => 1

/-- The engine of its die that serves a page of an address space (R394). -/
def walkerOf (asid page : Nat) : Nat := Config.walker asid (page % 2 ^ 12) % 8

/-- The engine that serves a walk. -/
def Walk.engine (w : Walk) : Nat × Nat := (w.die, walkerOf w.asid w.page)

/-- Whether an outstanding walk serves an identical request, too: the same address space, page and permission class, and no more than 64
requesters (R394). -/
def Walk.serves (w : Walk) (asid page cls die : Nat) : Bool :=
  decide (w.asid = asid) && decide (w.page = page) && decide (w.cls = cls) && decide (w.waiters.length < 64) && decide (w.die = die)

/-- Requests that an engine's queue holds (R394). -/
def walkQueue : Nat := 256

/-- Whether the engine for a page takes no further request now: its queue of requests that do not run is full (R394, R396). -/
def State.walkerFull (s : State) (asid page die : Nat) : Bool :=
  decide (walkQueue ≤ (s.walks.filter fun w => decide (w.phase ≠ 1) && decide (w.die = die)).length) &&
    decide (walkQueue ≤ (s.walks.filter fun w => decide (w.phase ≠ 1) && decide (w.engine = (die, walkerOf asid page))).length)

/-- A walk asked for on behalf of a requester: it joins an identical outstanding request, or starts one of its own (R394). Where the engine's
queue is full, nothing is asked for yet, and the requester asks again. -/
def State.requestWalk (s : State) (asid : Nat) (va : Word) (c : Access) (level1 : Bool) (die : Nat) (who : Waiter) : State :=
  let cls := c.cls
  let same := fun (w : Walk) => w.serves asid (va.toNat / 4096) cls die
  if s.walks.any same then
    { s with walks := replaceFirst same (fun w => if w.waiters.contains who then w else { w with waiters := w.waiters ++ [who] }) s.walks }
  else if s.walkerFull asid (va.toNat / 4096) die then s
  else
    let (id, s) := s.fresh
    { s with walks := s.walks ++ [{ id := id, asid := asid, page := va.toNat / 4096, cls := cls, level1 := level1,
                                    waiters := [who], die := die, phase := 0, index := 0, prot := false, va := va }] }

end Sys2Proof.Machine
end

