-- ==== Sys2Proof/Machine/Access.lean ====
section
/-!
DEFINITION. What loads, stores, atomics and waits share: the checks of an access in their order (R113, R119 to R121, R221,
R233, R235, R241), the places that its lanes reach, and parking on translation.
-/

namespace Sys2Proof.Machine

/-- The mask of some lanes. -/
def maskOfLanes (ls : List Nat) : Mask := ls.foldl (fun m l => m ||| laneBit l) 0

/-- The lowest of some addresses. -/
def lowestAddr : List (Nat × Word) → Word
  | [] => 0
  | x :: rest => rest.foldl (fun lo y => if y.2 < lo then y.2 else lo) x.2

/-- A fault of the lanes that fail a check: TVAL the lowest faulting address, TLANE the lanes, or the mask that stands for an
access made once (R116, R120, R190). -/
def laneFault (cause : Nat) (tstat : Word) (whole : Option Mask) (bad : List (Nat × Word)) : Option TrapInfo :=
  if bad.isEmpty then none
  else some (addrFault cause (lowestAddr bad) tstat (whole.getD (maskOfLanes (bad.map (·.1)))))

/-- Where one lane's access leads. -/
inductive LanePlace where
  | hit (pl : Place)
  | miss
  /-- The page's ordering field holds the reserved code (R233). -/
  | badKind
  /-- A non-canonical address (R388). -/
  | nonCanonical
deriving DecidableEq, Repr

/-- The place of n bytes at an address for a group (R221, R388, R393). -/
def State.placeAt (s : State) (g : Group) (c : Access) (n : Nat) (va : Word) : LanePlace :=
  let b := s.blockOf g
  match s.locate b va n with
  | .pad blk off => .hit (.pad blk off)
  | .nowhere => .nonCanonical
  | .nonCanonical => .nonCanonical
  | .translated _ =>
    match s.translate b.asid va.toNat c g.level1 with
    | none => .miss
    | some l => if l.ord = 3 then .badKind else .hit (physPlace l va)

/-- Checks 1 to 3 of R120 over the lanes of an access: class, alignment, scratchpad bounds. -/
def State.accessFault (s : State) (g : Group) (n : Nat) (classed aligned : Bool) (whole : Option Mask)
    (xs : List (Nat × Word)) : Option TrapInfo :=
  let b := s.blockOf g
  (laneFault 13 0 whole (if classed && b.timed then xs.filter fun x => !inWindows x.2 else [])).or
    ((laneFault 11 0 whole (if aligned then xs.filter fun x => decide (x.2.toNat % n ≠ 0) else [])).or
      (laneFault 12 0 whole (xs.filter fun x => decide (s.locate b x.2 n = .nowhere))))

/-- What the checks of an access leave: its fault, or the lanes that reach a place, those that miss, and those that are
non-canonical. -/
inductive Prepared where
  | fault (t : TrapInfo)
  | lanes (hits : List (Nat × Word × Place)) (misses bad : List (Nat × Word))

/-- The checks of R120 and the places of the lanes. -/
def State.prepare (s : State) (g : Group) (c : Access) (n : Nat) (classed aligned : Bool) (whole : Option Mask)
    (xs : List (Nat × Word)) : Prepared :=
  match s.accessFault g n classed aligned whole xs with
  | some t => .fault t
  | none =>
    match laneFault 15 3 whole (xs.filter fun x => decide (s.placeAt g c n x.2 = .badKind)) with
    | some t => .fault t
    | none =>
      .lanes
        (xs.filterMap fun x => match s.placeAt g c n x.2 with
          | .hit pl => some (x.1, x.2, pl)
          | _ => none)
        (xs.filter fun x => decide (s.placeAt g c n x.2 = .miss))
        (xs.filter fun x => decide (s.placeAt g c n x.2 = .nonCanonical))

/-- Whether rows of a transfer lie on strongly ordered pages. -/
def TileJob.strong (rows : List (Option SectorRef)) : Bool := rows.any fun r => match r with
  | some r => decide (r.ord = 0)
  | none => false

/-- Whether an outstanding tile transfer comes before a later access of n bytes at a place by its group: the access overlaps it in scratchpad
(R249) or through the linear view (R258), both lie on strongly ordered pages, or the transfer acquires (R260, R263). -/
def TileJob.before (j : TileJob) (pl : Place) (n : Nat) : Bool :=
  match j with
  | .transfer load scope pb po rows =>
    (load && scope.isSome && decide (placeOrd pl ≠ 2)) ||
      (match pl with
        | .pad block off => decide (pb = block) && decide (po < off + n) && decide (off < po + 32 * rows.length)
        | .phys pa ord _ _ => (decide (ord = 0) && TileJob.strong rows) || rows.any fun r => match r with
          | some r => decide (r.line.tid = 0) && decide (r.pa = pa / 32 * 32)
          | none => false)
  | _ => false

/-- Whether an outstanding AtomicOp comes before a later access of n bytes at a place by its group: it touches the same bytes (R258, R277), both lie
on strongly ordered pages, or it acquires at `sys` (R263, R272). -/
def HostAtomic.before (x : HostAtomic) (pl : Place) (n : Nat) : Bool :=
  (decide (x.acq = some 4) && decide (placeOrd pl ≠ 2)) ||
    (match x.place, pl with
      | .phys pa ord _ _, .phys pb ord' _ _ =>
        (decide (ord = 0) && decide (ord' = 0)) || (decide (pa < pb + n) && decide (pb < pa + (if x.wide then 8 else 4)))
      | _, _ => false)

/-- Whether an access of n bytes at a place waits for an earlier access of its group that is still under way. -/
def State.transferAt (s : State) (gid : Nat) (pl : Place) (n : Nat) : Bool :=
  (s.tileOps.any fun o => decide (o.group = gid) && o.job.before pl n) || s.atomics.any fun x => decide (x.group = gid) && x.before pl n

/-- Walks requested for lanes that miss, one for each page at its lowest address (R121, R394). -/
def State.requestWalks (s : State) (g : Group) (u : GUnit) (c : Access) (misses : List (Nat × Word)) : State :=
  let asid := (s.blockOf g).asid
  ((sortBy (fun x => x.2.toNat) misses).foldl (fun (acc : State × List Nat) x =>
    let page := x.2.toNat / 4096
    if acc.2.contains page then acc
    else (acc.1.requestWalk asid x.2 c g.level1 (dieOfCore g.core) (.unit g.id u.uid x.2), page :: acc.2)) (s, [])).1

/-- Whether every page that a unit misses has its request at a walker: a full queue makes the unit wait and ask again (R394). -/
def State.asked (s : State) (g : Group) (u : GUnit) (misses : List (Nat × Word)) : Bool :=
  misses.all fun x => s.walks.any fun w => decide (w.page = x.2.toNat / 4096) && w.waiters.any fun y => match y with
    | .unit gid uid _ => decide (gid = g.id) && decide (uid = u.uid)
    | _ => false

/-- The end of a memory word after the lanes that reach their places have completed: it completes, parks with its unfinished
lanes, or takes the page fault that no walk can mend (R121, R388). DESIGN CHOICE: where some unfinished lanes are non-canonical and others only
miss, the fault comes at once, with TVAL the lowest non-canonical address and TLANE all unfinished lanes. -/
def finishAccess (s : State) (g : Group) (u : GUnit) (c : Access) (whole : Option Mask) (misses bad : List (Nat × Word)) : Res :=
  let left := whole.getD (maskOfLanes ((misses ++ bad).map (·.1)))
  match bad with
  | _ :: _ => .trapAfter s g { u with unfinished := some left } (addrFault 14 (lowestAddr bad) (pageStat c false) left)
  | [] =>
    match misses with
    | [] => .ok s g u
    | _ :: _ =>
      let s := s.requestWalks g u c misses
      .wait s g { u with wait := if s.asked g u misses then .parked else .stall 9, unfinished := some left }

/-- A single access of a group at an address, as one lane: its fault, its place, or the wait for its translation (R82, R241). -/
def withPlace (s : State) (g : Group) (u : GUnit) (c : Access) (n : Nat) (classed aligned : Bool) (va : Word)
    (k : Place → Res) : Res :=
  match s.prepare g c n classed aligned (some u.mask) [(0, va)] with
  | .fault t => .trap t
  | .lanes hits misses bad =>
    match hits with
    | (_, _, pl) :: _ => if s.transferAt g.id pl n then .stall 2 else k pl
    | [] => finishAccess s g u c (some u.mask) misses bad

/-- Whether an access with this ordering has an effect on ordering: not on an unordered page (R233, R261). -/
def ordersAt (pl : Place) : Bool := decide (placeOrd pl ≠ 2)

/-- Every earlier access of the group performed, as a release or a fence requires (R236, R263). -/
def State.performAll (s : State) (g : Group) : State × Group :=
  if s.tileOps.any fun o => decide (o.group = g.id) then
    let s := (s.setGroup g).completeTiles g.id
    (s, (s.group? g.id).getD g)
  else (s, g)

/-- The release of a group at a scope (R230, R263, R264). -/
def State.releaseFor (s : State) (g : Group) (scope : Nat) : State × Group :=
  let (s, g) := s.performAll g
  (s.release (s.accessor g) scope, g)

/-- The acquire of a group at a scope; its touch set empties (R230, R264, R424). -/
def State.acquireFor (s : State) (g : Group) (scope : Nat) : State := (s.acquire (s.accessor g) scope).untouch g

/-- Whether an unconfirmed block holds a store to a place (R283). -/
def holdsUnconfirmed (va : Word) (pl : Place) : Bool :=
  decide (bits va 63 48 = 0xFF01) || decide (placeOrd pl = 0)

/-- Lines that stores to some places would mark (R283, R360). -/
def linesOf (hits : List (Nat × Word × Place)) : List Line :=
  hits.filterMap fun h => match h.2.2 with
    | .pad _ _ => none
    | .phys _ _ _ va => some (linearLine va.toNat)

/-- Whether a store holds with stall reason 19 (R283, R360). -/
def State.storeHolds (s : State) (g : Group) (rel : Option Nat) (hits : List (Nat × Word × Place)) : Bool :=
  let a := s.accessor g
  a.unconfirmed &&
    ((match rel with
      | some k => decide (2 ≤ k)
      | none => false) ||
      (hits.any fun h => holdsUnconfirmed h.2.1 h.2.2) || !s.markRoom a (linesOf hits))

/-- The value of n bytes extended to 64 bits. -/
def extendTo64 (n : Nat) (signed : Bool) (v : Nat) : Word :=
  if signed then BitVec.ofInt 64 (signedOf (8 * n) v) else BitVec.ofNat 64 v

/-- The copies of a place's sector that a touch set can hold (R424). -/
def inTouchSet (a : Accessor) (pl : Place) (x : Sector) : Bool :=
  match pl with
  | .pad _ _ => false
  | .phys pa ord key va =>
    let r := placeRef pa ord key va
    cacheable r && isCopy a r x

/-- One load with its TOUCH packet: the value, or the code of an uncorrectable error (R26, R424). -/
def State.loadTraced (s : State) (g : Group) (u : GUnit) (va : Word) (pl : Place) (n : Nat) : State × Group × (Nat ⊕ Nat) :=
  let a := s.accessor g
  match (if s.holdsPlace a pl then none else s.placePoison pl) with
  | some code => (s, g, .inr code)
  | none =>
    let (s, d) := s.sectorAt a pl
    let (s, g) := s.traceTouch g u (va - BitVec.ofNat 64 (va.toNat % 32)) (inTouchSet a pl) d
    (s, g, .inl (d.toNat / 2 ^ (8 * placeOffset pl) % 2 ^ (8 * n)))

/-- The contained-error fault at an address (R26, R190). -/
def containedFault (va : Word) (code : Nat) (lanes : Mask) : TrapInfo := addrFault 17 va (BitVec.ofNat 64 code) lanes

end Sys2Proof.Machine
end

