-- ==== Sys2Proof/Machine/Mem.lean ====
section
/-!
DEFINITION. Loads and stores: scalar (R82), vector (R113 to R117) and ordered (R118), with parking on translation (R121), and
the completion of a load (R35, R113).
-/

namespace Sys2Proof.Machine

/-! ### Vector accesses -/

/-- Loads performed lane by lane in ascending order, up to an uncorrectable error (R26, R120). -/
def State.loadHits (n : Nat) (s : State) (g : Group) (u : GUnit) :
    List (Nat × Word × Place) → State × Group × List (Nat × Nat) × Option (Nat × Word × Nat)
  | [] => (s, g, [], none)
  | (l, va, pl) :: rest =>
    match s.loadTraced g u va pl n with
    | (s, g, .inr code) => (s, g, [], some (l, va, code))
    | (s, g, .inl v) =>
      let (s, g, vs, e) := s.loadHits n g u rest
      (s, g, (l, v) :: vs, e)

/-- Loaded values written into a vector register, or the pair of it. -/
def Group.putLoaded (g : Group) (d : Nat) (pair : Bool) (vs : List (Nat × Word)) : Group :=
  if pair then g.setV64s d vs else g.setVs d (vs.map fun x => (x.1, x.2.setWidth 32))

/-- Whether a place lies in the local windows. -/
def isPad : Place → Bool
  | .pad _ _ => true
  | .phys _ _ _ _ => false

/-- Loaded values on their way into a register: written at once when they come from scratchpad or the word parks, else written
by LOAD_COMPLETE (R35, R75, R113, R121). -/
def deliver (s : State) (g : Group) (d : Nat) (pair now : Bool) (vs : List (Nat × Word)) : State × Group :=
  if now || vs.isEmpty then (s, g.putLoaded d pair vs)
  else
    let (id, s) := s.fresh
    ({ s with writes := s.writes ++ [{ id := id, group := g.id, vreg := some (g.vwin + d, pair), sreg := 0, lanes := vs, reply := false }] }, g)

/-- A vector load of n bytes per lane (R113, R114, R116, R118). -/
def vectorLoad (i : Instr) (d n : Nat) (signed uniform : Bool) (acq : Option Nat) (addr : Group → GUnit → Nat → Word)
    (s : State) : Out :=
  issue i s fun s g u =>
    let m0 := activeMask g u (predField i)
    if m0 = 0 then .ok s g u
    else
      let m := u.unfinished.getD m0
      let whole := if uniform then some m0 else none
      let lanes := if uniform then [lowestLane m] else lanesOf m
      match s.prepare g .read n true true whole (lanes.map fun l => (l, addr g u l)) with
      | .fault t => .trap t
      | .lanes hits misses bad =>
        if hits.any fun h => s.transferAt g.id h.2.2 n then .stall 2
        else
          let (s, g, vals, err) := s.loadHits n g u hits
          let vals := vals.map fun x => (x.1, extendTo64 n signed x.2)
          let vals := if uniform then vals.flatMap fun x => (lanesOf m0).map fun l => (l, x.2) else vals
          let now := (hits.all fun h => isPad h.2.2) || !misses.isEmpty || !bad.isEmpty || err.isSome
          let (s, g) := deliver s g d (decide (n = 8)) now vals
          match err with
          | some (l, va, code) => .trapAfter s g u (containedFault va code (whole.getD (laneBit l)))
          | none =>
            let u := { u with ordered := u.ordered && u.unfinished.isSome || hits.any fun h => ordersAt h.2.2 }
            let s := match acq with
              | some k => if misses.isEmpty && bad.isEmpty && u.ordered then s.acquireFor g k else s
              | none => s
            finishAccess s g u .read whole misses bad

/-- A vector store of n bytes per lane, lanes in ascending order, so that the highest lane's bytes stay (R115, R118). -/
def vectorStore (i : Instr) (d n : Nat) (rel : Option Nat) (addr : Group → GUnit → Nat → Word) (s : State) : Out :=
  issue i s fun s g u =>
    let m0 := activeMask g u (predField i)
    if m0 = 0 then .ok s g u
    else
      let m := u.unfinished.getD m0
      match s.prepare g .write n true true none ((lanesOf m).map fun l => (l, addr g u l)) with
      | .fault t => .trap t
      | .lanes hits misses bad =>
        if hits.any fun h => s.transferAt g.id h.2.2 n then .stall 2
        else if s.storeHolds g (if hits.any fun h => ordersAt h.2.2 then rel else none) hits then .stall 19
        else
          let orders := !hits.isEmpty && decide (m = m0) && (!misses.isEmpty || hits.any fun h => ordersAt h.2.2)
          releasing s g u (if orders then rel.getD 0 else 0) (
            let (s, g) := match rel with
              | some k => if orders then s.releaseFor g k else (s, g)
              | none => (s, g)
            let a := s.accessor g
            let data := fun l => if n = 8 then (g.v64 d l).toNat else (g.v d l).toNat
            let s := hits.foldl (fun s h => s.store a h.2.2 n (data h.1)) s
            let s := match rel with
              | some k => if hits.any fun h => ordersAt h.2.2 then s.release a k else s
              | none => s
            finishAccess s g u .write none misses bad)

/-- Bytes of an access-width code (R38). -/
def widthBytes (w : Nat) : Nat :=
  match w with
  | 0 => 1 | 1 => 1 | 2 => 2 | 3 => 2 | 4 => 4 | _ => 8

/-- Whether an access-width code sign-extends (R38). -/
def widthSigned (w : Nat) : Bool := decide (w = 1) || decide (w = 3)

/-- [`s`b + `v`a]: the offset read as unsigned 32 bits (R114). -/
def laneAddr (a : BitVec 6) (b : BitVec 5) (g : Group) (_ : GUnit) (l : Nat) : Word :=
  g.s b.toNat + (g.v a.toNat l).setWidth 64

/-- [`s`a + imm]: the immediate, widened after `hint.imm`, times 4, and 4 bytes a lane (R44, R114). -/
def stripAddr (a : BitVec 5) (i : BitVec 8) (g : Group) (u : GUnit) (l : Nat) : Word :=
  g.s a.toNat + BitVec.ofInt 64 ((imm8 u.hint false i).toInt * 4) + BitVec.ofNat 64 (4 * l)

/-- `vld` (R114). -/
def execVld (m : BitVec 1) (p : BitVec 3) (d a : BitVec 6) (b : BitVec 5) (w : BitVec 3) (s : State) : Out :=
  vectorLoad (.vld m p d a b w) d.toNat (widthBytes w.toNat) (widthSigned w.toNat) false none (laneAddr a b) s

/-- `vld.b32` with an immediate (R114). -/
def execVldImm (m : BitVec 1) (p : BitVec 3) (d : BitVec 6) (a : BitVec 5) (i : BitVec 8) (s : State) : Out :=
  vectorLoad (.vldImm m p d a i) d.toNat 4 false false none (stripAddr a i) s

/-- `vst` (R115). -/
def execVst (m : BitVec 1) (p : BitVec 3) (d a : BitVec 6) (b : BitVec 5) (w : BitVec 3) (s : State) : Out :=
  vectorStore (.vst m p d a b w) d.toNat (widthBytes w.toNat) none (laneAddr a b) s

/-- `vst.b32` with an immediate (R115). -/
def execVstImm (m : BitVec 1) (p : BitVec 3) (d : BitVec 6) (a : BitVec 5) (i : BitVec 8) (s : State) : Out :=
  vectorStore (.vstImm m p d a i) d.toNat 4 none (stripAddr a i) s

/-- `vldu` (R116): one access for every active lane. -/
def execVldu (m : BitVec 1) (p : BitVec 3) (d : BitVec 6) (b : BitVec 5) (w : BitVec 3) (s : State) : Out :=
  vectorLoad (.vldu m p d b w) d.toNat (widthBytes w.toNat) (widthSigned w.toNat) true none (fun g _ _ => g.s b.toNat) s

/-- `vprf` (R117): a request that the device may drop; it changes no result and raises no fault. -/
def execVprf (m : BitVec 1) (p : BitVec 3) (a : BitVec 6) (b : BitVec 5) (s : State) : Out :=
  issueLanes (.vprf m p a b) s fun g _ _ => g

/-- `vld.acq` (R118). -/
def execVldAcq (m : BitVec 1) (p : BitVec 3) (d a : BitVec 6) (b : BitVec 5) (k : BitVec 3) (s : State) : Out :=
  vectorLoad (.vldAcq m p d a b k) d.toNat 4 false false (some k.toNat) (laneAddr a b) s

/-- `vst.rel` (R118). -/
def execVstRel (m : BitVec 1) (p : BitVec 3) (d a : BitVec 6) (b : BitVec 5) (k : BitVec 3) (s : State) : Out :=
  vectorStore (.vstRel m p d a b k) d.toNat 4 (some k.toNat) (laneAddr a b) s

/-! ### Scalar accesses -/

/-- A scalar on its way into its register: at once from scratchpad, else by LOAD_COMPLETE; `s0` discards it (R35, R41, R82). -/
def deliverScalar (s : State) (g : Group) (d : Nat) (now reply : Bool) (v : Word) : State × Group :=
  if now || decide (d = 0) then (s, g.setS d v)
  else
    let (id, s) := s.fresh
    ({ s with writes := s.writes ++ [{ id := id, group := g.id, vreg := none, sreg := d, lanes := [(0, v)], reply := reply }] }, g)

/-- `sld` (R82). -/
def execSld (m : BitVec 1) (d a b : BitVec 5) (w : BitVec 2) (x : BitVec 1) (o : BitVec 2) (k : BitVec 3) (s : State) : Out :=
  issue (.sld m d a b w x o k) s fun s g u =>
    let n := 2 ^ w.toNat
    let va := g.s a.toNat + g.s b.toNat
    withPlace s g u .read n true true va fun pl =>
      match s.loadTraced g u va pl n with
      | (_, _, .inr code) => .trap (containedFault va code u.mask)
      | (s, g, .inl v) =>
        let s := if o.toNat = 1 ∧ ordersAt pl then s.acquireFor g k.toNat else s
        let (s, g) := deliverScalar s g d.toNat (isPad pl) false (extendTo64 n (decide (x.toNat = 1)) v)
        .ok s g u

/-- `sst` (R82). -/
def execSst (m : BitVec 1) (d a b : BitVec 5) (w : BitVec 2) (o : BitVec 2) (k : BitVec 3) (s : State) : Out :=
  issue (.sst m d a b w o k) s fun s g u =>
    let n := 2 ^ w.toNat
    let va := g.s a.toNat + g.s b.toNat
    withPlace s g u .write n true true va fun pl =>
      let rel := if o.toNat = 2 ∧ ordersAt pl then some k.toNat else none
      if s.storeHolds g rel [(0, va, pl)] then .stall 19
      else
        releasing s g u (rel.getD 0) (
          let (s, g) := match rel with
            | some k => s.releaseFor g k
            | none => (s, g)
          let s := s.store (s.accessor g) pl n (g.s d.toNat).toNat
          let s := match rel with
            | some k => s.release (s.accessor g) k
            | none => s
          .ok s g u)

/-- LOAD_COMPLETE (R35, R113): a pending register write is performed. -/
def execLoadComplete (op : Nat) (s : State) : Out :=
  match s.writes.find? fun w => decide (w.id = op) && !w.reply with
  | some w => .next (s.completeWrite w)
  | none => .refused (.notEnabled "LOAD_COMPLETE")

end Sys2Proof.Machine
end

