-- ==== Sys2Proof/Machine/Atomics.lean ====
section
/-!
DEFINITION. Atomics (R238 to R241, R275, R277), event counters (R242), fences (R236), and waiting on a word (R243 to R246).
-/

namespace Sys2Proof.Machine

/-- How the value of an atomic's operation is formed (R238): on the old value and the operand, each of the width. -/
abbrev AtomOp := Nat → Nat → Nat

/-- The PCIe AtomicOp of an atomic to host or root-port memory: 0 FetchAdd, 1 Swap, 2 CAS (R275). -/
inductive HostOp where
  | none | fetchAdd | swap | cas
deriving DecidableEq, Repr

/-- The number under which an AtomicOp is held. -/
def HostOp.no : HostOp → Nat
  | .none => 3 | .fetchAdd => 0 | .swap => 1 | .cas => 2

/-- Whether bytes lie in host memory, so that an atomic to them is a PCIe AtomicOp (R272, R275). -/
def atHost (pl : Place) : Bool :=
  match pl with
  | .pad _ _ => false
  | .phys pa _ _ _ => isHost pa

/-- Whether bytes lie in the memory of a root-port device, which takes no atomic (R275). -/
def atDevice (pl : Place) : Bool :=
  match pl with
  | .pad _ _ => false
  | .phys pa _ _ _ => isDevice pa

/-- Whether an atomic raises the page-kind fault at a place: on an unordered page, at a root-port device, or at the host where no AtomicOp performs it
(R233, R275). -/
def badKindFor (host : HostOp) (pl : Place) : Bool :=
  decide (placeOrd pl = 2) || atDevice pl || (atHost pl && decide (host = .none))

/-- An AtomicOp sent: the group goes on, and the register that receives the old value is held (R35, R275, R277). -/
def State.sendAtomic (s : State) (g : Group) (u : GUnit) (op : HostOp) (n : Nat) (pl : Place) (operand swap : Word) (d : Nat) (acq : Option Nat) : State :=
  let (id, s) := s.fresh
  { s with atomics := s.atomics ++ [{ id := id, group := g.id, unit := u.uid, lanes := u.mask, op := op.no, wide := decide (n = 8), place := pl,
                                       operand := operand, swap := swap, sreg := d, acq := acq }] }

/-- The page-kind fault of a place (R233, R261, R275). -/
def pageKindFault (va : Word) (pl : Place) (u : GUnit) : TrapInfo := addrFault 15 va (BitVec.ofNat 64 (placeOrd pl)) u.mask

/-- The old value as the destination receives it: sign-extended for `.s32` only (R239). -/
def atomResult (n : Nat) (signed : Bool) (old : Nat) : Word := extendTo64 n (signed && decide (n = 4)) old

/-- An atomic performed at the home of its bytes: the state after it and the old value. A write that does not happen (a failed
`cas`) is none (R239, R240). -/
def State.atomic (s : State) (a : Accessor) (pl : Place) (n : Nat) (f : Nat → Option Nat) : State × Nat :=
  let s := s.expelPlace a pl
  let old := s.homeValue pl n
  match f old with
  | some v => (s.storeHomeValue pl n (v % 2 ^ (8 * n)), old)
  | none => (s, old)

/-- Whether a place lies behind a link port that is down (R438). -/
def placeDown (s : State) (pl : Place) : Bool :=
  match pl with
  | .pad _ _ => false
  | .phys pa _ _ _ => s.portDown pa

/-- A posted atomic is a write, which may be lost with its link port (R438). -/
def oweAt (s : State) (g : Group) (va : Word) (pl : Place) : State :=
  match pl with
  | .pad _ _ => s
  | .phys pa _ _ _ => s.owe (some g.id) pa va

/-- An atomic word (R238 to R241, R275, R283). -/
def atomWord (i : Instr) (d a n ord scope : Nat) (signed : Bool) (host : HostOp) (operand swap : Group → Word)
    (f : Group → Nat → Option Nat) (s : State) : Out :=
  issue i s fun s g u =>
    let va := g.s a
    withPlace s g u .atomic n true true va fun pl =>
      if badKindFor host pl then .trap (pageKindFault va pl u)
      else if (s.accessor g).unconfirmed then .stall 19
      else if atHost pl then
        releasing s g u (if ord = 2 then scope else 0) (
          let (s, g) := if ord = 2 then s.releaseFor g scope else (s, g)
          .ok (s.sendAtomic g u host n pl (operand g) (swap g) d (if ord = 1 then some scope else none)) g u)
      else
        match (if d = 0 && placeDown s pl then none else s.placePoison pl) with
        | some code => .trap (containedFault va code u.mask)
        | none =>
          releasing s g u (if ord = 2 then scope else 0) (
            let (s, g) := if ord = 2 then s.releaseFor g scope else (s, g)
            let s := oweAt s g va pl
            let (s, old) := s.atomic (s.accessor g) pl n (f g)
            let s := if ord = 1 then s.acquireFor g scope else s
            let v := atomResult n signed old
            let (s, g) := s.traceValue g u 5 0 [v]
            let (s, g) := deliverScalar s g d (isPad pl) true v
            .ok s g u)

/-- An atomic of opcode 0x58 or `atom.xchg`: one operand, always a write. -/
def atomBin (i : Instr) (d a b : BitVec 5) (w : BitVec 1) (o : BitVec 2) (k : BitVec 3) (signed : Bool) (host : HostOp)
    (op : Nat → Nat → Nat → Nat) (s : State) : Out :=
  let n := if w.toNat = 1 then 8 else 4
  atomWord i d.toNat a.toNat n o.toNat k.toNat signed host (fun g => g.s b.toNat) (fun _ => 0)
    (fun g old => some (op n old ((g.s b.toNat).toNat % 2 ^ (8 * n)))) s

/-- The order of two values of n bytes by signedness. -/
def lessAt (signed : Bool) (n x y : Nat) : Bool :=
  if signed then decide (signedOf (8 * n) x < signedOf (8 * n) y) else decide (x < y)

/-- The result of an operation on an old value and an operand of n bytes (R238). -/
def rmwResult (op : RmwOp) (n old v : Nat) : Nat :=
  match op with
  | .swap => v
  | .add => old + v
  | .xor => old ^^^ v
  | .and => old &&& v
  | .or => old ||| v
  | .min => if lessAt true n v old then v else old
  | .max => if lessAt true n old v then v else old
  | .minu => if lessAt false n v old then v else old
  | .maxu => if lessAt false n old v then v else old

/-- `atom.add` (R238): wrapping. -/
def execAtomAdd (m : BitVec 1) (d a b : BitVec 5) (w : BitVec 1) (o : BitVec 2) (k : BitVec 3) (s : State) : Out :=
  atomBin (.atomAdd m d a b w o k) d a b w o k false .fetchAdd (fun _ x y => x + y) s

/-- `atom.and` (R238). -/
def execAtomAnd (m : BitVec 1) (d a b : BitVec 5) (w : BitVec 1) (o : BitVec 2) (k : BitVec 3) (s : State) : Out :=
  atomBin (.atomAnd m d a b w o k) d a b w o k false .none (fun _ x y => x &&& y) s

/-- `atom.or` (R238). -/
def execAtomOr (m : BitVec 1) (d a b : BitVec 5) (w : BitVec 1) (o : BitVec 2) (k : BitVec 3) (s : State) : Out :=
  atomBin (.atomOr m d a b w o k) d a b w o k false .none (fun _ x y => x ||| y) s

/-- `atom.xor` (R238). -/
def execAtomXor (m : BitVec 1) (d a b : BitVec 5) (w : BitVec 1) (o : BitVec 2) (k : BitVec 3) (s : State) : Out :=
  atomBin (.atomXor m d a b w o k) d a b w o k false .none (fun _ x y => x ^^^ y) s

/-- `atom.min` (R238): u 0 signed, 1 unsigned. -/
def execAtomMin (m : BitVec 1) (d a b : BitVec 5) (u w : BitVec 1) (o : BitVec 2) (k : BitVec 3) (s : State) : Out :=
  atomBin (.atomMin m d a b u w o k) d a b w o k (decide (u.toNat = 0)) .none
    (fun n x y => if lessAt (decide (u.toNat = 0)) n y x then y else x) s

/-- `atom.max` (R238). -/
def execAtomMax (m : BitVec 1) (d a b : BitVec 5) (u w : BitVec 1) (o : BitVec 2) (k : BitVec 3) (s : State) : Out :=
  atomBin (.atomMax m d a b u w o k) d a b w o k (decide (u.toNat = 0)) .none
    (fun n x y => if lessAt (decide (u.toNat = 0)) n x y then y else x) s

/-- `atom.xchg` (R238). -/
def execAtomXchg (m : BitVec 1) (d a b : BitVec 5) (w : BitVec 1) (o : BitVec 2) (k : BitVec 3) (s : State) : Out :=
  atomBin (.atomXchg m d a b w o k) d a b w o k false .swap (fun _ _ y => y) s

/-- `atom.cas` (R238, R239): a failed compare writes nothing. -/
def execAtomCas (m : BitVec 1) (d a b : BitVec 5) (w : BitVec 1) (o : BitVec 2) (k : BitVec 3) (s : State) : Out :=
  let n := if w.toNat = 1 then 8 else 4
  atomWord (.atomCas m d a b w o k) d.toNat a.toNat n o.toNat k.toNat false .cas (fun g => g.s b.toNat)
    (fun g => g.s (b.toNat + 1))
    (fun g old =>
      if old = (g.s b.toNat).toNat % 2 ^ (8 * n) then some ((g.s (b.toNat + 1)).toNat % 2 ^ (8 * n)) else none) s

/-- ATOMIC_REPLY (R277): the reply of an atomic outside the windows writes its destination. -/
def execAtomicReply (op : Nat) (s : State) : Out :=
  match s.writes.find? fun w => decide (w.id = op) && w.reply with
  | some w => .next (s.completeWrite w)
  | none => .refused (.notEnabled "ATOMIC_REPLY")

/-- The operation of an AtomicOp on the old value of n bytes (R275): what it writes, if it writes. -/
def HostAtomic.apply (h : HostAtomic) (old : Nat) : Option Nat :=
  let n := if h.wide then 8 else 4
  let x := h.operand.toNat % 2 ^ (8 * n)
  if h.op = 0 then some (old + x) else if h.op = 1 then some x
  else if old = x then some (h.swap.toNat % 2 ^ (8 * n)) else none

/-- The completer performs an AtomicOp: the state after it and the old value (R272, R275). -/
def State.hostPerforms (s : State) (h : HostAtomic) : State × Nat :=
  let n := if h.wide then 8 else 4
  let old := s.homeValue h.place n
  match h.apply old with
  | some v => (s.storeHomeValue h.place n (v % 2 ^ (8 * n)), old)
  | none => (s, old)

/-- The fault of an AtomicOp that its completer does not support (R275). -/
def HostAtomic.fault (h : HostAtomic) : TrapInfo :=
  let va := match h.place with
    | .phys _ _ _ va => va
    | .pad _ _ => 0
  addrFault 15 va (BitVec.ofNat 64 (placeOrd h.place)) h.lanes

/-- A group whose trap has waited for its AtomicOps enters its handler when none is left (R188). -/
def State.drained (s : State) (gid : Nat) : State :=
  match s.group? gid with
  | some g => (match g.draining with
    | some d => if s.atomics.any fun x => decide (x.group = gid) then s else s.enterHandler gid d
    | none => s)
  | none => s

/-- The trap of an AtomicOp that its completer does not support: it is taken in place of one that waits for the AtomicOps of the group. -/
def State.unsupported (s : State) (g : Group) (h : HostAtomic) : State :=
  let uid := if g.units.any fun u => decide (u.uid = h.unit) then h.unit else (g.units.head?.map (·.uid)).getD 0
  if g.draining.isSome then (s.setGroup { g with draining := some { unit := uid, info := h.fault, skip := 0, async := false } }).drained g.id
  else s.takeTrap g.id uid h.fault 0 false

/-- HOST_ATOMICOP_COMPLETION (R275, R277): the completer performs the operation and returns the old value, which is written into `s`d, or
Unsupported Request raises the page-kind fault. -/
def execHostAtomicopCompletion (op : Nat) (unsupported : Bool) (s : State) : Out :=
  match s.atomics.find? fun x => decide (x.id = op) with
  | none => .refused (.notEnabled "HOST_ATOMICOP_COMPLETION")
  | some h =>
    let s := { s with atomics := s.atomics.filter fun x => decide (x.id ≠ op) }
    let (s, old) := if unsupported then (s, 0) else s.hostPerforms h
    match s.group? h.group with
    | none => .next s
    | some g =>
      if unsupported then .next (s.unsupported g h)
      else
        let s := match h.acq with
          | some k => s.acquireFor g k
          | none => s
        let v := atomResult (if h.wide then 8 else 4) false old
        let u := ((g.active.find? fun x => decide (x.uid = h.unit)).or g.active.head?)
        let (s, g) := match u with
          | some u => s.traceValue (g.setS h.sreg v) u 5 0 [v]
          | none => (s, g.setS h.sreg v)
        .next ((s.setGroup g).drained g.id)

/-! ### Fences -/

/-- A fence (R236): every earlier access of the group is performed, the views are separated, and the release and the acquire
are made. A fence that releases holds in an unconfirmed block at `clu` or wider (R283). -/
def fenceWord (i : Instr) (rel : Bool) (scope : Nat) (s : State) : Out :=
  issue i s fun s g u =>
    if rel && decide (2 ≤ scope) && (s.accessor g).unconfirmed then .stall 19
    else
      releasing s g u (if rel then scope else 0) (
        let (s, g) := s.performAll g
        .ok ((s.separateViews (s.accessor g)).untouch g) g u)

/-- `fence` (R236): a release and an acquire. -/
def execFence (m : BitVec 1) (k : BitVec 3) (s : State) : Out := fenceWord (.fence m k) true k.toNat s

/-- `fence.acq` (R236). -/
def execFenceAcq (m : BitVec 1) (k : BitVec 3) (s : State) : Out := fenceWord (.fenceAcq m k) false k.toNat s

/-- `fence.rel` (R236). -/
def execFenceRel (m : BitVec 1) (k : BitVec 3) (s : State) : Out := fenceWord (.fenceRel m k) true k.toNat s

/-- `fence.flush` (R235, R236): the class fault in a timed block. -/
def execFenceFlush (m : BitVec 1) (s : State) : Out :=
  issue (.fenceFlush m) s fun s g u =>
    if (s.blockOf g).timed then .trap (addrFault 13 0 0 u.mask)
    else if (s.accessor g).unconfirmed then .stall 19
    else
      releasing s g u 4 (
        let (s, g) := s.performAll g
        let s := s.separateViews (s.accessor g)
        .ok ((s.flushCache (s.accessor g)).untouch g) g u)

/-! ### Event counters and waits -/

/-- `evinc` (R242): an `atom.add.rel.b64` whose old value is discarded; the group goes on. -/
def execEvinc (m : BitVec 1) (a b : BitVec 5) (k : BitVec 3) (s : State) : Out :=
  issue (.evinc m a b k) s fun s g u =>
    let va := g.s a.toNat
    withPlace s g u .atomic 8 false true va fun pl =>
      if badKindFor .fetchAdd pl then .trap (pageKindFault va pl u)
      else if (s.accessor g).unconfirmed then .stall 19
      else if atHost pl then
        releasing s g u k.toNat (
          let (s, g) := s.releaseFor g k.toNat
          .ok (s.sendAtomic g u .fetchAdd 8 pl (g.s b.toNat) 0 0 none) g u)
      else
        match (if placeDown s pl then none else s.placePoison pl) with
        | some code => .trap (containedFault va code u.mask)
        | none =>
          releasing s g u k.toNat (
            let (s, g) := s.releaseFor g k.toNat
            let s := oweAt s g va pl
            let (s, _) := s.atomic (s.accessor g) pl 8 fun old => some (old + (g.s b.toNat).toNat)
            .ok s g u)

/-- A watch entry taken for a unit, where the core has one free (R246). -/
def State.armWatch (s : State) (g : Group) (u : GUnit) (sector : Nat) : Option State :=
  let c := s.core g.core
  if c.watches.length < Config.watchEntries then
    some (s.setCore { c with watches := c.watches ++ [{ sector := sector, group := g.id, unit := u.uid }] })
  else none

/-- Whether a unit may take a watch entry: one is free, and no unit that asked before it waits (R246). -/
def State.mayWatch (s : State) (g : Group) (u : GUnit) : Bool :=
  let c := s.core g.core
  decide (c.watches.length < Config.watchEntries) &&
    (match c.watchQueue with
      | [] => true
      | w :: _ => decide (w = (g.id, u.uid)))

/-- `waita` (R235, R243, R246): the test and the arming are one action, made at the word's home after the group's own stores have reached it. The class
check comes first. -/
def execWaita (m : BitVec 1) (d a b : BitVec 5) (s : State) : Out :=
  issue (.waita m d a b) s fun s g u =>
    let va := g.s a.toNat
    if (s.blockOf g).timed && !inWindows va then .trap (addrFault 13 va 0 u.mask)
    else if u.region.isSome && !g.trap.tmode then .trap (scopeFault (.waita m d a b) u)
    else withPlace s g u .read 8 true true va fun pl =>
      if placeOrd pl = 2 then .trap (pageKindFault va pl u)
      else
        match s.placePoison pl with
        | some code => .trap (containedFault va code u.mask)
        | none =>
          let s := s.expelPlace (s.accessor g) pl
          let v := BitVec.ofNat 64 (s.homeValue pl 8)
          let same := decide (v = g.s b.toNat)
          let (s, g) := s.traceValue g u 5 0 [v]
          let g := g.setS d.toNat v
          if same && s.mayWatch g u then
            match s.armWatch g u (placeSector pl) with
            | some s => .ok s g { u with wait := .suspended (placeSector pl) }
            | none => .ok s g u
          else .ok s g u

/-- `wakea` (R245). -/
def execWakea (m : BitVec 1) (a : BitVec 5) (s : State) : Out :=
  issue (.wakea m a) s fun s g u =>
    let va := g.s a.toNat
    withPlace s g u .read 1 false false va fun pl => .ok (s.notify (placeSector pl)) g u

end Sys2Proof.Machine
end

