-- ==== Sys2Proof/Machine/Fetch.lean ====
section
/-!
DEFINITION. Fetching the word at a PC (R33, R165, R221, R225, R397) for a unit of a group and for an upper context, and the
illegal-instruction fault of a word that is no instruction (R48). A comparator that matches stops a unit before its word (R43, R415).
-/

namespace Sys2Proof.Machine

/-- A word that is no instruction, at a unit: the illegal-instruction fault (R48). -/
def State.undecodable (s : State) (gid uid w : Nat) : State :=
  match s.group? gid with
  | none => { s with sel := none }
  | some g =>
    match g.unit? uid with
    | none => { s with sel := none }
    | some u => s.takeTrap gid uid { cause := 1, tval := BitVec.ofNat 64 w, tstat := 0, tlane := u.mask } 0 false

/-- Whether comparator n of a group's core matches a PC for the group (R414, R415). -/
def State.comparatorHits (s : State) (g : Group) (pc : Word) (n : Nat) : Bool :=
  let c := s.core g.core
  let w0 := (c.bpc0[n]?).getD 0
  let w1 := (c.bpc1[n]?).getD 0
  let b := s.blockOf g
  let qid := ((s.grid? b.grid).map (·.qid)).getD 0
  bit w0 63 && decide (bits w0 56 2 = bits pc 56 2) && bit w1 g.slot && (bit w0 62 || decide (bits w1 63 48 = qid)) &&
    decide (bits c.dbgctl 15 0 = b.asid)

/-- The lowest comparator that hits at a unit about to issue a word. At a hint both words of the pair are compared, and none is at its second
word (R43). -/
def State.breakpoint (s : State) (g : Group) (u : GUnit) (w : Nat) : Option Nat :=
  if g.trap.tmode || u.skipBp || u.hint.isSome then none
  else
    let pair := match decodeWord w with
      | .ok i => isHint i
      | .error _ => false
    (List.range 8).find? fun n => s.comparatorHits g u.pc n || (pair && s.comparatorHits g (u.pc + 4) n)

/-- What the resume PC of a breakpoint skips: `brk`, and nothing else (R192). -/
def breakSkip (w : Nat) : Word :=
  match decodeWord w with
  | .ok (.brk _) => 4
  | _ => 0

/-- The fetch of a unit's next word: the word, or the state after the fault or the wait that stands in its place. -/
def State.fetchUnit (s : State) (gid uid : Nat) : State ⊕ Nat :=
  match s.group? gid with
  | none => .inl { s with sel := none }
  | some g =>
    match g.unit? uid with
    | none => .inl { s with sel := none }
    | some u =>
      let a := s.accessor g
      match s.fetchWord a g.level1 u.pc with
      | .word w =>
        match s.breakpoint g u w with
        | some n =>
          .inl (s.takeTrap gid uid { cause := 22, tval := BitVec.ofNat 64 n, tstat := 0, tlane := u.mask } (breakSkip w) false)
        | none => .inr w
      | .fault st => .inl (s.takeTrap gid uid (addrFault 16 u.pc st u.mask) 0 false)
      | .badKind => .inl (s.takeTrap gid uid (addrFault 15 u.pc 3 u.mask) 0 false)
      | .bad code => .inl (s.takeTrap gid uid (addrFault 17 u.pc (BitVec.ofNat 64 code) u.mask) 0 false)
      | .miss =>
        let s := { s with sel := none }.requestWalk a.asid u.pc .fetch g.level1 (dieOfCore g.core) (.unit gid uid u.pc)
        .inl ((s.setGroup (g.setUnit { u with wait := .stall 18 })).endRun g)

end Sys2Proof.Machine
end

