-- ==== Sys2Proof/Machine/Ends.lean ====
section
/-!
DEFINITION. The ends of groups, upper contexts, blocks and grids (R123, R131, R171, R214, R305, R327, R447): what each gives
back, and what ends with it.
-/

namespace Sys2Proof.Machine

/-- The value that an ended context had sent at its Send word and that has not been combined yet; a group that ends has not sent
(R132, R171, R198). -/
def State.sentBy (s : State) (p : Party) : Option (Word × Word) :=
  match p with
  | .group _ => none
  | .context c => (s.ctx? c).bind fun x => x.sent.map fun v => (v, 0)

/-- Whether a context may still gain receivers: blocks of its grid remain to be placed (R123, R447). -/
def State.mayGain (s : State) (c : Ctx) : Bool :=
  decide (3 ≤ c.scope) && (match s.grid? c.grid with
    | some k => decide (k.next < k.count)
    | none => false)

/-- A context that has ended: its record log is freed, or kept when its grid is pre-empted (R447). -/
def State.dropCtx (s : State) (c : Ctx) : State :=
  let keep := match s.grid? c.grid with
    | some k => k.preempted && c.logging
    | none => false
  let s := { s with ctxs := s.ctxs.filter fun x => decide (x.id ≠ c.id) }
  if keep then { s with logs := (c.logBase, c.log) :: s.logs } else s

/-- A receiver has ended: it is no longer a receiver of the context above it, which still counts a value that it has sent, and
which ends at once when it was the last one and none remains to be placed (R123, R171). -/
def State.unlink : Nat → State → Party → State
  | 0, s, _ => s
  | fuel + 1, s, p =>
    match s.ctxs.find? fun c => c.links.any fun l => decide (l.dest = p) with
    | none => s
    | some c =>
      let got := if c.parties.contains p then (match s.sentBy p with
        | some v => c.got ++ [v]
        | none => c.got) else c.got
      let c := { c with links := c.links.filter (fun l => decide (l.dest ≠ p)),
                        parties := c.parties.filter (fun q => decide (q ≠ p)), got := got }
      if c.links.isEmpty && !s.mayGain c then ((s.setCtx c).unlink fuel (.context c.id)).dropCtx c
      else s.setCtx c

/-- A context ends (R123): it leaves the context above it. -/
def State.endCtx (s : State) (c : Ctx) : State := ((s.unlink 4 (.context c.id)).dropCtx c)

/-- A release of a hold at the residency word's home, as `lrel` makes it (R327). -/
def State.releaseHold (s : State) (a : Accessor) (pa key : Nat) : State :=
  let s := (s.release a 3).expel a pa
  let w := BitVec.ofNat 64 (bytesValue (s.homeBytes key pa 8))
  s.storeHome key pa (valueBytes 8 (w - place 1 40).toNat)

/-- Who accesses memory for a block itself. -/
def State.blockAccessor (s : State) (b : Block) : Accessor :=
  { core := b.core, fused := (s.cluster (clusterOfCore b.core)).fused, asid := b.asid, group := none, block := some b.id,
    unconfirmed := !b.confirmed }

/-- Whether a matrix task of a block is accepted and not complete (R305). -/
def State.blockTasks (s : State) (b : Block) : Bool :=
  let c := s.core b.core
  (c.tasks.any fun t => decide (t.block = b.id)) ||
    (c.engines.toList.any fun e => match e with
      | some t => decide (t.block = b.id)
      | none => false)

/-- Commands and tasks of a group that are accepted and not complete (R200). -/
def State.outstanding (s : State) (g : Group) : Nat :=
  let c := s.core g.core
  let cl := s.cluster (clusterOfCore g.core)
  (c.tasks.filter fun t => decide (t.group = g.id)).length +
    (c.engines.toList.filter fun e => decide (e.map (·.group) = some g.id)).length +
    (cl.channels.flatMap (·.2) |>.filter fun x => decide (x.group = g.id)).length

/-- Commands and tasks of a group that are accepted and not complete, those of its replay list among them (R200, R310). -/
def State.accepted (s : State) (g : Group) : Nat := s.outstanding g + g.replay.length

/-- A core's stream queue with a number, emptied (R317). -/
def State.emptyStream (s : State) (core sq : Nat) : State :=
  let c := s.core core
  s.setCore { c with streams := c.streams.filter fun x => decide (x.sq ≠ sq) }

/-- The copy command with a number removed from its channel. -/
def State.dropCommand (s : State) (core id : Nat) : State :=
  let cl := s.cluster (clusterOfCore core)
  s.setCluster { cl with channels := cl.channels.map fun (x : Nat × List CopyCmd) => (x.1, x.2.filter fun c => decide (c.id ≠ id)) }

/-- Whether a copy command is a stream (R310). -/
def CopyCmd.isStream (c : CopyCmd) : Bool := decide (fieldOf c.record 0 63 60 = 6)

/-- SQ of a stream command (R310). -/
def CopyCmd.sq (c : CopyCmd) : Nat := fieldOf c.record 0 47 44

/-- TOK of a copy command (R310). -/
def CopyCmd.tok (c : CopyCmd) : Nat := fieldOf c.record 0 53 49

/-- The copy commands of a group that have not completed. -/
def State.commandsOf (s : State) (g : Group) : List CopyCmd :=
  ((s.cluster (clusterOfCore g.core)).channels.flatMap (·.2)).filter fun c => decide (c.group = g.id)

/-- The streams of a group, on the queues that satisfy a test, end early: their undelivered bytes are discarded, their queues are
emptied, and their tokens say how many bytes were delivered (R317). -/
def State.endStreams (s : State) (gid : Nat) (p : Nat → Bool) : State :=
  match s.group? gid with
  | none => s
  | some g =>
    ((s.commandsOf g).filter fun c => c.isStream && p c.sq).foldl (fun s c =>
      ((s.dropCommand g.core c.id).emptyStream g.core c.sq).writeToken gid c.tok (place 3 60 ||| place c.moved 0) 0 none) s

/-- The streams of an issuing group ended, as `role`, `regroup` and `suspend.b` do (R317). -/
def State.endOwnStreams (s : State) (g : Group) : State × Group :=
  let s := (s.setGroup g).endStreams g.id fun _ => true
  (s, (s.group? g.id).getD g)

/-- A core that holds no block has no split, and a cluster that holds none has no L1 mode (R219, R228). -/
def State.freeCore (s : State) (core : Nat) : State :=
  let s := if (s.blocks.any fun b => b.onCore && decide (b.core = core)) then s
    else s.setCore { s.core core with split := 0 }
  let cl := clusterOfCore core
  if (s.blocks.any fun b => b.onCore && decide (clusterOfCore b.core = cl)) then s
  else s.setCluster { s.cluster cl with fused := false }

/-- A block ends (R123, R220, R288, R305, R327): its holds are released, its core, carve-out and rows are freed. While
tasks of it are outstanding its rows stay allotted. -/
def State.endBlock (s : State) (b : Block) : State :=
  let a := s.blockAccessor b
  let s := b.holds.foldl (fun s h => s.releaseHold a h.1 h.2) s
  let s := if s.blockTasks b then s.setBlock { b with state := .spent, holds := [], pad := [], carve := 0, pinned := [] }
    else { s with blocks := s.blocks.filter fun x => decide (x.id ≠ b.id) }
  s.freeCore b.core

/-- Whether a block's context, groups and free groups have all ended (R123). An unconfirmed block stays until it is confirmed
(R360). -/
def State.blockOver (s : State) (b : Block) : Bool :=
  b.onCore && b.confirmed && !(s.groups.any fun g => decide (g.block = b.id)) &&
    !(s.ctxs.any fun c => decide (c.scope = 2) && decide (c.block = b.id))

/-- Whether a context of the upper levels is over: it has emitted END, or has no receiver, none remains to be placed, and no
late receiver still takes its log (R123, R447). -/
def State.ctxOver (s : State) (c : Ctx) : Bool :=
  decide (3 ≤ c.scope) && !s.mayGain c && (c.links.isEmpty || (decide (c.state = .finished) && c.links.all fun l => decide (l.behind = 0)))

/-- Whether a grid has ended: none of its blocks remains or remains to be placed, and no context of it (R123, R345). -/
def State.gridOver (s : State) (k : Grid) : Bool :=
  decide (k.count ≤ k.next) && !(s.blocks.any fun b => decide (b.grid = k.id) && decide (b.state ≠ .spent)) &&
    !(s.ctxs.any fun c => decide (c.grid = k.id))

/-- The record of a LAUNCH completes when its grid and the tail of it have ended (R345, R359). -/
def State.completeLaunch (s : State) (k : Grid) : State :=
  let mine := fun (x : Grid) => decide (x.qid = k.qid) && decide (x.pos = k.pos)
  if (s.grids.filter mine).all (·.ended) then
    let st := (s.grids.filter mine).foldl (fun m x => max m x.status) 0
    let done := fun (r : Fetched) => if r.pos = k.pos && decide (r.status = none) then { r with status := some st } else r
    let s := match s.queue? k.qid with
      | some q => s.setQueue { q with records := q.records.map done }
      | none => s
    { s with grids := s.grids.filter fun x => !mine x }
  else s

/-- The log of a context whose grid is wholly placed is freed once every late receiver has taken it (R447). -/
def State.freeLogs (s : State) : State :=
  { s with ctxs := s.ctxs.map fun (c : Ctx) =>
      if c.logging && !s.mayGain c && c.links.all (fun l => decide (l.behind = 0)) then
        { c with logging := false, log := [], logBase := 0 } else c }

/-- The bytes of some allotment registers as a register stream reads them (R292). -/
def Group.streamBytes (g : Group) (r : Nat × Nat) : List Byte :=
  (List.range r.2).flatMap fun k => (List.range g.width).flatMap fun l => valueBytes 4 (g.vreg (r.1 + k) l).toNat

/-- A task that has read its register streams (R305). -/
def Task.capture (t : Task) (g : Group) : Task :=
  { t with kept := t.kept ++ t.streams.map g.streamBytes, streams := [] }

/-- Blocks that have ended and whose last task has completed are gone (R305). -/
def State.dropSpent (s : State) : State :=
  { s with blocks := s.blocks.filter fun b => !(decide (b.state = .spent) && !s.blockTasks b) }

/-- What ends once something has ended: blocks, then cluster-scope and grid contexts, then grids and their records. -/
def State.sweep (s : State) : State :=
  let s := s.dropSpent
  let s := s.blocks.foldl (fun s b => match s.block? b.id with
    | some b => if s.blockOver b then s.endBlock b else s
    | none => s) s
  let s := s.ctxs.foldl (fun s c => match s.ctx? c.id with
    | some c => if decide (c.scope = 3) && s.ctxOver c then s.endCtx c else s
    | none => s) s
  let s := s.ctxs.foldl (fun s c => match s.ctx? c.id with
    | some c => if s.ctxOver c then s.endCtx c else s
    | none => s) s
  let s := s.freeLogs
  let s := { s with grids := s.grids.map fun k => if s.gridOver k then { k with ended := true } else k }
  (s.grids.filter (·.ended)).foldl (fun s k => s.completeLaunch k) s

/-- A group ends (R123): its issued instructions complete, its chunks return to the block's pool, its watches are dropped, and a fault
that it was to report goes to another group (R193). -/
def State.endGroup (s : State) (gid : Nat) : State :=
  let s := ((s.completeWrites gid).completeTiles gid).endStreams gid fun _ => true
  match s.group? gid with
  | none => s
  | some g =>
    let s := s.dropWatches g
    let s := match s.block? g.block with
      | some b => s.setBlock (b.poolGive g g.chunks)
      | none => s
    let told := fun (c : Ctx) => if c.reporter = some gid then { c with reporter := none } else c
    let s := { s with ctxs := s.ctxs.map told }
    let c := s.core g.core
    let s := s.setCore { c with tasks := c.tasks.map fun t => if t.group = gid then t.capture g else t }
    ((s.unlink 5 (.group gid)).dropGroup gid).sweep

end Sys2Proof.Machine
end

