-- ==== Sys2Proof/Machine/Context.lean ====
section
/-!
DEFINITION. The upper sequencer contexts (R122 to R134, R173, R193, R198, R447): decision records, scanning and emission, the
classes of words, and the faults of a context.
-/

namespace Sys2Proof.Machine

/-! ### Records -/

/-- A decision record but for its SEQ (R127): KIND, sender's scope, first and last PC, DV and the values it selects. -/
def mkRecord (kind scope : Nat) (first last : Word) (dv : BitVec 6) (ds : Vector Word 6) : BitVec 512 :=
  let w0 := place (bits first 56 2) 0 ||| place dv.toNat 56 ||| place kind 62
  let w1 := place scope 12 ||| place ((last - first).toNat / 4) 16
  wordsRecord (w0 :: w1 :: (List.range 6).map fun i => if dv.getLsbD i then (ds[i]?).getD 0 else 0)

/-- A record with its SEQ (R127). -/
def withSeq (r : BitVec 512) (seq : BitVec 24) : BitVec 512 := r ||| (seq.setWidth 512 <<< 104)

/-- SEQ of a record. -/
def recordSeq (r : BitVec 512) : BitVec 24 := r.extractLsb' 104 24

/-- KIND of a record. -/
def recordKind (r : BitVec 512) : Nat := (r.extractLsb' 62 2).toNat

/-- The first PC of a record's segment: SPC × 4, sign-extended from bit 56 (R127). -/
def recordFirst (r : BitVec 512) : Word := ((r.extractLsb' 0 55 ++ (0 : BitVec 2)) : BitVec 57).signExtend 64

/-- The last PC of a record's segment (R127). -/
def recordLast (r : BitVec 512) : Word := recordFirst r + 4 * (r.extractLsb' 80 24).setWidth 64

/-- Whether hardware could have emitted a record: no reserved KIND or SSC and no reserved field (R128). -/
def recordOk (r : BitVec 512) : Bool :=
  decide (recordKind r ≤ 1) && decide (r.extractLsb' 55 1 = 0) && decide (r.extractLsb' 64 12 = 0) && decide (r.extractLsb' 79 1 = 0) &&
    decide (2 ≤ (r.extractLsb' 76 3).toNat) && decide ((r.extractLsb' 76 3).toNat ≤ 4)

/-- The decision values after a record is taken (R128). -/
def takeValues (r : BitVec 512) (ds : Vector Word 6) : Vector Word 6 :=
  (List.range 6).foldl (fun ds i => if r.getLsbD (56 + i) then ds.setIfInBounds i (r.extractLsb' (128 + 64 * i) 64) else ds) ds

/-- The values a record carries, in slot order, with DV (R424). -/
def recordValues (r : BitVec 512) : List Word :=
  (List.range 6).filterMap fun i => if r.getLsbD (56 + i) then some (r.extractLsb' (128 + 64 * i) 64) else none

/-- Where a record's SEQ stands against the number that the receiver expects (R128). -/
inductive SeqTest where
  | expected | old | wrong
deriving DecidableEq, Repr

/-- The test of a SEQ: lower by at most 2²³, modulo 2²⁴, is old. -/
def seqTest (seq next : BitVec 24) : SeqTest :=
  if seq = next then .expected else if 2 ^ 23 ≤ (seq - next).toNat then .old else .wrong

/-! ### Links and emission -/

/-- Records waiting in a receiver's queue. -/
def State.queueLen (s : State) (p : Party) : Nat :=
  match p with
  | .group g => ((s.group? g).map (·.queue.length)).getD 0
  | .context c => ((s.ctx? c).map (·.queue.length)).getD 0

/-- A record put into a receiver's queue. -/
def State.pushRecord (s : State) (p : Party) (r : BitVec 512) : State :=
  match p with
  | .group g => (match s.group? g with
    | some x => s.setGroup { x with queue := x.queue ++ [r] }
    | none => s)
  | .context c => (match s.ctx? c with
    | some x => s.setCtx { x with queue := x.queue ++ [r] }
    | none => s)

/-- Units of 4 KiB that the record logs of a partition occupy (R447). -/
def State.logUnits (s : State) (part : Nat) : Nat :=
  (s.ctxs.filter fun c => c.logging && decide (((s.grid? c.grid).map (·.partition)) = some part)).foldl
    (fun n c => n + max 1 ((c.log.length + 63) / 64)) 0

/-- Blocks of a partition that lie in suspension slots (R137). -/
def State.slotsUsed (s : State) (part : Nat) : List Nat :=
  s.blocks.filterMap fun b => match b.state with
    | .retired _ slot _ => if ((s.grid? b.grid).map (·.partition)) = some part then some slot else none
    | _ => none

/-- Whether a partition's suspension area has room for some more 4 KiB units (R137, R447): a slot takes 18 of them. -/
def State.areaRoom (s : State) (part units : Nat) : Bool :=
  match s.partition? part with
  | some p => decide (s.logUnits part + 18 * (s.slotsUsed part).length + units ≤ 18 * p.suspSlots)
  | none => false

/-- Whether a context's record log can take one more record (R447). -/
def State.logRoom (s : State) (c : Ctx) : Bool :=
  !c.logging || decide (c.log.length = 0) || decide (c.log.length % 64 ≠ 0) ||
    (match s.grid? c.grid with
      | some k => s.areaRoom k.partition 1
      | none => true)

/-- Whether a context may emit a record: it has receivers, every one's queue has room, and its log has room (R129, R447). -/
def State.room (s : State) (c : Ctx) : Bool :=
  !c.links.isEmpty && (c.links.all fun l => decide (s.queueLen l.dest < Config.queueDepth)) && s.logRoom c

/-- A record emitted to every receiver, and logged; a late receiver takes it from the log (R128, R447). -/
def State.emit (s : State) (c : Ctx) (r : BitVec 512) : State × Ctx :=
  let put := fun (acc : State × List Link) (l : Link) =>
    if l.behind = 0 then (acc.1.pushRecord l.dest (withSeq r l.seq), acc.2 ++ [{ l with seq := l.seq + 1 }])
    else (acc.1, acc.2 ++ [{ l with behind := l.behind + 1 }])
  let (s, ls) := c.links.foldl put (s, [])
  (s, { c with links := ls, log := if c.logging then c.log ++ [r] else c.log })

/-- The run from START to a PC emitted, with the values staged for it (R125, R134). DESIGN CHOICE: a value that has been emitted stays in its SD
word with SDV clear, and an image shows it (R203). -/
def State.emitRun (s : State) (c : Ctx) (last : Word) : State × Ctx :=
  s.emit { c with sdv := 0 } (mkRecord 0 c.scope c.start last c.sdv c.sd)

/-- The pending run emitted without the word at PC. -/
def State.emitPending (s : State) (c : Ctx) : State × Ctx :=
  let (s, c) := s.emitRun c (c.pc - 4)
  (s, { c with start := c.pc })

/-- An END record emitted to every receiver (R127, R131). -/
def State.emitEnd (s : State) (c : Ctx) : State × Ctx := s.emit c (mkRecord 1 c.scope 0 0 0 c.sd)

/-- The first link that still takes the log, when its receiver has room, and its next record (R447). -/
def State.lagging (s : State) (c : Ctx) : Option (Link × BitVec 512) :=
  match c.links.find? fun l => decide (l.behind ≠ 0) && decide (s.queueLen l.dest < Config.queueDepth) with
  | some l => (c.log[c.log.length - l.behind]?).map fun r => (l, r)
  | none => none

/-- A context that has emitted END (R123): it is no longer a receiver of the context above. -/
def State.finishCtx (s : State) (c : Ctx) : State :=
  let s := (s.setCtx { c with state := .finished, hint := none }).unlink 4 (.context c.id)
  if c.scope = 2 then (s.dropCtx c).sweep else s.sweep

/-! ### Faults and freezing -/

/-- A fault raised by a context (R193): it freezes at the faulting word, or at the hint of its pair. -/
def State.ctxFault (s : State) (c : Ctx) (cause : Nat) (tval : Word) (extra : Nat) : State :=
  let pc := if c.hint.isSome && decide (c.joint = none) then c.pc - 4 else c.pc
  { s with sel := none }.setCtx
    { c with pc := pc, start := pc, hint := none, joint := none, sent := none, frozen := true, state := .scanning, reporter := none,
             walkFault := none,
             fault := some { cause := cause, tval := tval, tstat := place c.scope 0 ||| place extra 4, tlane := 0 } }

/-- A context frozen between emissions (R197, R198): words scanned and not emitted are scanned again, and a value sent or awaited and
not combined is discarded. -/
def freezeCtx (c : Ctx) : Ctx :=
  let c := { c with frozen := true }
  match c.state with
  | .scanning => { c with pc := c.start, hint := none }
  | .sending => { c with state := .scanning, sent := none, joint := none }
  | .badJoint _ => { c with got := [] }
  | .retiring _ _ _ => { c with state := .atJoint }
  | .atJoint => { c with got := [] }
  | _ => c

/-! ### Segments of a context -/

/-- Whether a context is at its segment's base depth (R126). -/
def Ctx.atBase (c : Ctx) : Bool := decide (c.depth = c.baseDepth)

/-- Whether a context may transfer control to a PC (R126, R165). -/
def Ctx.inSegment (c : Ctx) (target : Word) : Bool :=
  !c.atBase ||
    (match c.segment with
      | .unbounded => true
      | .none => false
      | .upTo first last => (decide (first ≤ target) && decide (target ≤ last)) || decide (target = last + 4))

/-- Whether a context has scanned its segment to the end (R126). -/
def Ctx.atEnd (c : Ctx) : Bool :=
  c.atBase && (match c.segment with
    | .upTo _ last => decide (c.pc = last + 4)
    | _ => false)

/-- Whether a PC is the last word of the segment received (R124). -/
def Ctx.atLast (c : Ctx) (pc : Word) : Bool :=
  c.atBase && (match c.segment with
    | .upTo _ last => decide (pc = last)
    | _ => false)

/-- Whether a PC is the last word of an open loop body (R124, R125). -/
def Ctx.bodyLast (c : Ctx) (pc : Word) : Bool := c.loops.any fun l => decide (l.last = pc)

/-- Who fetches for a context (R33): a block context through its core, the others through the cluster's sequencer unit, which has no
tile cache. -/
def State.ctxAccessor (s : State) (c : Ctx) : Accessor :=
  match s.block? c.block with
  | some b => if c.scope = 2 then s.blockAccessor b else
    { core := 2 ^ 20, fused := false, asid := b.asid, group := none, block := none, unconfirmed := false }
  | none => { core := 2 ^ 20, fused := false, asid := ((s.grid? c.grid).map (·.asid)).getD 0, group := none, block := none,
              unconfirmed := false }

/-- A fetch by a context; a failed walk of the page is the fault of its word (R193, R397). -/
def State.fetchCtx (s : State) (c : Ctx) (pc : Word) : Fetch :=
  match c.walkFault with
  | some (page, st) => if pc.toNat / 4096 = page then .fault st else s.fetchWord (s.ctxAccessor c) false pc
  | none => s.fetchWord (s.ctxAccessor c) false pc

/-- A walk asked for a context's fetch or test. -/
def State.ctxWalk (s : State) (c : Ctx) (va : Word) (k : Access) : State :=
  s.requestWalk (s.ctxAccessor c).asid va k false (dieOfCluster c.cluster) (.context c.id)

/-- The fault of a fetch (R190, R193): cause, and the bits that stand in TSTAT[7:4]. -/
def fetchFault : Fetch → Option (Nat × Nat)
  | .fault st => some (16, bits st 3 0)
  | .badKind => some (15, 3)
  | .bad _ => some (17, 0)
  | _ => none

/-! ### Classes of words -/

/-- The class of a word for a context (R124). -/
inductive WordClass where
  | own | joint | send | foreign | passed
deriving DecidableEq, Repr

/-- The class of a scoped word that a context of scope `sc` owns when the scope is its own. -/
def scopedClass (sc : Nat) (allowed : Bool) (k : BitVec 3) : WordClass :=
  if 5 ≤ k.toNat then .foreign
  else if k.toNat = sc && allowed then .own
  else if sc < k.toNat then .foreign
  else .passed

/-- The class of a word for the context at a scope (R50, R124, R163): it hangs on the opcode, the scope field and the form alone, whatever the
word's other fields hold. -/
def classOf (sc w : Nat) : WordClass :=
  let op := fld w 24 7
  let k : BitVec 3 := if op = 0x09 ∨ op = 0x0A then bfld w 6 3 else bfld w 21 3
  if 1 ≤ op ∧ op ≤ 7 then scopedClass sc true k
  else if op = 0x0A then scopedClass sc (decide (fld w 5 1 = 0) || decide (k.toNat ≤ 3)) k
  else if op = 0x09 then
    (if 5 ≤ k.toNat then .foreign
    else if k.toNat = sc then .joint
    else if k.toNat = sc + 1 then .send
    else if sc < k.toNat then .foreign
    else .passed)
  else if op = 0x0D then
    (if 5 ≤ k.toNat then .foreign
    else if k.toNat = sc && decide (sc = 2) then .joint
    else if sc < k.toNat then .foreign
    else .passed)
  else .passed

/-- Whether a word is a hint by its opcode (R43). -/
def hintWordOp (w : Nat) : Bool := decide (0x7C ≤ fld w 24 7) && decide (fld w 24 7 ≤ 0x7E)

/-- What stands at a context's PC: a word, or a pair of a hint and the word after it (R43, R124). -/
structure Standing where
  cls  : WordClass
  word : Option Instr
  hint : Option Hint
  /-- The first word of it that is no instruction (R48). -/
  bad  : Option Nat
  /-- The PC of the word itself. -/
  pc   : Word

/-- The hint of a hint word. -/
def hintOf : Instr → Option Hint
  | .hintImm _ p => some (.imm p)
  | .hintMod _ r x => some (.modifier r x)
  | .hintSched _ h a => some (.sched h a)
  | _ => none

/-- The instruction that a word is, if it is one. -/
def instrOf (w : Nat) : Option Instr :=
  match decodeWord w with
  | .ok i => some i
  | .error _ => none

/-- A word that stands alone, of a class. -/
def standingWord (cls : WordClass) (w : Nat) (pc : Word) : Standing :=
  { cls := cls, word := instrOf w, hint := none, bad := if (instrOf w).isSome then none else some w, pc := pc }

/-- A pair of a hint and the word after it: one word of the second word's class (R124). -/
def standingPair (sc w w2 : Nat) (pc : Word) : Standing :=
  { cls := classOf sc w2, word := instrOf w2, hint := (instrOf w).bind hintOf,
    bad := if (instrOf w).isNone then some w else if (instrOf w2).isNone then some w2 else none, pc := pc + 4 }

/-- What stands at the PC, or the fetch that fails or misses, with its address (R124). A hint stands alone only where it is the last word
of the segment or of an open loop body. -/
def State.standing (s : State) (c : Ctx) : (Fetch × Word) ⊕ Standing :=
  match s.fetchCtx c c.pc with
  | .word w =>
    if !hintWordOp w then .inr (standingWord (classOf c.scope w) w c.pc)
    else if c.atLast c.pc || c.bodyLast c.pc then .inr (standingWord .passed w c.pc)
    else
      match s.fetchCtx c (c.pc + 4) with
      | .word w2 => .inr (standingPair c.scope w w2 c.pc)
      | f => .inl (f, c.pc + 4)
  | f => .inl (f, c.pc)

/-- A context after the word at a PC completes without transferring control: the back edge of its loops (R125, R167), or the scope
fault of a back edge that leaves the segment (R126). -/
def State.ctxNext (s : State) (c : Ctx) (pc : Word) (i : Option Instr) : State :=
  let (ls, next) := backEdgeFrom pc c.loops
  if !decide (next = pc + 4) && !c.inSegment next then
    s.ctxFault c 4 ((i.map wordOf).getD 0) 0
  else
    { s with sel := none }.setCtx { c with pc := next, start := next, loops := ls, hint := none, joint := none, sent := none,
                                           state := .scanning }

/-- Whether the word at a PC may complete without transferring control: its back edge stays in the segment (R126). -/
def Ctx.backOk (c : Ctx) (pc : Word) : Bool :=
  let next := (backEdgeFrom pc c.loops).2
  decide (next = pc + 4) || c.inSegment next

/-- Whether a value that a context sends upward is discarded: the context above is not at the Joint word of its last record, or
did not count this sender when it reached the word, or this one has still to take records (R447). -/
def State.sendPast (s : State) (x : Ctx) : Bool :=
  match s.ctxs.find? fun c => c.links.any fun l => decide (l.dest = .context x.id) with
  | none => true
  | some c =>
    !c.frozen && (!x.queue.isEmpty || !(c.parties.contains (.context x.id)) ||
      (c.links.any fun l => decide (l.dest = .context x.id) && decide (l.behind ≠ 0)))

/-- A context at a Joint word, waiting for its receivers' part: the receivers live now are its senders (R124, R132, R447). -/
def Ctx.joinAt (c : Ctx) (x : Standing) (i : Option Instr) : Ctx :=
  let c := { c with start := c.pc, parties := c.links.map (fun l : Link => l.dest), got := [] }
  match i, x.bad with
  | some i, none => { c with state := .atJoint, joint := some (i, x.pc), hint := x.hint }
  | _, b => { c with state := .badJoint (b.getD 0), joint := none, hint := none }

/-- The scan of R125 from a context's PC, up to its next emission, the word it executes alone, or a wait. The context has room. -/
def scan : Nat → State → Ctx → State
  | 0, s, c => s.setCtx c
  | fuel + 1, s, c =>
    if c.atEnd then
      let (s, c) := if c.start = c.pc then (s, c) else s.emitPending c
      s.setCtx { c with state := .needRecord }
    else
      match s.standing c with
      | .inl (f, va) =>
        (match fetchFault f with
          | none => (s.ctxWalk c va .fetch).setCtx c
          | some (cause, extra) =>
            if c.start = c.pc then s.ctxFault c cause va extra
            else
              let (s, c) := s.emitPending c
              s.setCtx c)
      | .inr x =>
        if decide (c.start ≠ c.pc) && decide (2 ^ 26 < (x.pc + 4 - c.start).toNat) then
          let (s, c) := s.emitPending c
          s.setCtx c
        else if decide (x.cls ≠ .own) && decide (x.cls ≠ .foreign) && !c.backOk x.pc then
          if c.start = c.pc then s.ctxFault c 4 ((x.word.map wordOf).getD 0) 0
          else
            let (s, c) := s.emitPending c
            s.setCtx c
        else
          match x.cls, x.word with
          | .own, _ =>
            if c.start = c.pc then { s with sel := some (.context c.id) }.setCtx c
            else
              let (s, c) := s.emitPending c
              s.setCtx c
          | .send, some i =>
            if c.start ≠ c.pc then
              let (s, c) := s.emitPending c
              s.setCtx c
            else if x.bad.isSome || !codesOk x.hint c.scope 0 i || !hintOk x.hint i then
              s.ctxFault c 1 ((x.bad.map (BitVec.ofNat 64)).getD (wordOf i)) 0
            else if !c.atLast x.pc then s.ctxFault c 4 (wordOf i) 0
            else if s.sendPast c then s.ctxNext c x.pc (some i)
            else
              let v := match i with
                | .up _ _ a _ _ => c.r a.toNat
                | _ => 0
              s.setCtx { c with state := .sending, sent := some v, joint := some (i, x.pc) }
          | .send, none =>
            if c.start ≠ c.pc then
              let (s, c) := s.emitPending c
              s.setCtx c
            else s.ctxFault c 1 (BitVec.ofNat 64 (x.bad.getD 0)) 0
          | .joint, i =>
            let (s, c) := s.emitRun c x.pc
            s.setCtx (c.joinAt x i)
          | .foreign, _ =>
            let (s, c) := s.emitRun c x.pc
            s.setCtx { c with state := .stopped, pc := x.pc + 4, start := x.pc + 4 }
          | _, i =>
            if c.bodyLast x.pc then
              let (s, c) := s.emitRun c x.pc
              s.ctxNext c x.pc i
            else scan fuel s { c with pc := x.pc + 4 }

/-- Whether a context waits for a walk. -/
def State.ctxWalking (s : State) (c : Ctx) : Bool := s.walks.any fun w => w.waiters.contains (.context c.id)

/-- Whether a context can scan on (R125, R129). -/
def State.canScan (s : State) (c : Ctx) : Bool :=
  decide (c.state = .scanning) && !c.frozen && !s.ctxWalking c && s.room c && decide (s.sel ≠ some (.context c.id))

/-- `EMIT_SEGMENT` (R125, R447): a late receiver takes the next logged record, a value sent for a Joint word that has been performed is
discarded, or the context scans on and emits. -/
def execEmitSegment (cid : Nat) (s : State) : Out :=
  match s.ctx? cid with
  | none => .refused (.notEnabled "EMIT_SEGMENT")
  | some c =>
    if c.frozen then .refused (.notEnabled "EMIT_SEGMENT")
    else
      match s.lagging c with
      | some (l, r) =>
        let s := s.pushRecord l.dest (withSeq r l.seq)
        let took := fun (x : Link) => { x with seq := x.seq + 1, behind := x.behind - 1 }
        .next (s.setCtx { c with links := replaceFirst (fun x : Link => decide (x.dest = l.dest)) took c.links }).sweep
      | none =>
        match c.state, c.joint with
        | .sending, some (i, pc) =>
          if s.sendPast c then .next (s.ctxNext c pc (some i)) else .refused (.notEnabled "EMIT_SEGMENT")
        | _, _ => if s.canScan c then .next (scan (2 ^ 25) s c) else .refused (.notEnabled "EMIT_SEGMENT")

end Sys2Proof.Machine
end

