-- ==== Sys2Proof/Machine/Control.lean ====
section
/-!
DEFINITION. The control words of opcodes 0x01 to 0x0A and 0x0D (R146, R147, R151, R162 to R174), as a group and as the owning
context execute them.
-/

namespace Sys2Proof.Machine

/-! ### A context's own word -/

/-- What a word that a context executes alone does (R125). -/
inductive CtxRes where
  /-- It completes without transferring control. -/
  | fall (s : State) (c : Ctx)
  /-- It transfers control to a PC. -/
  | goto (s : State) (c : Ctx) (pc : Word)
  | fault (cause : Nat)
  /-- It holds at the word. -/
  | hold (s : State) (c : Ctx)
  /-- It has ended the context's work. -/
  | ended (s : State) (c : Ctx)

/-- A word that the selected context executes alone: the checks of its codes (R42, R49), its meaning, and where it goes on. -/
def ownWord (i : Instr) (s : State) (cid : Nat) (body : State → Ctx → CtxRes) : Out :=
  match s.ctx? cid with
  | none => .refused .nobodyIssues
  | some c =>
    if c.frozen || decide (c.state ≠ .scanning) then .next { s with sel := none }
    else if !codesOk c.hint c.scope 0 i || !hintOk c.hint i then .next (s.ctxFault c 1 (wordOf i) 0)
    else
      match body s c with
      | .fall s' c' => .next (if c.backOk c.pc then s'.ctxNext c' c.pc (some i) else s.ctxFault c 4 (wordOf i) 0)
      | .goto s' c' pc => .next ({ s' with sel := none }.setCtx { c' with pc := pc, start := pc, hint := none })
      | .fault cause => .next (s.ctxFault c cause (wordOf i) 0)
      | .hold s' c' =>
        .next ({ s' with sel := none }.setCtx { c' with pc := if c.hint.isSome then c.pc - 4 else c.pc,
                                                        start := if c.hint.isSome then c.pc - 4 else c.pc, hint := none })
      | .ended s' c' => .next ({ s' with sel := none }.finishCtx { c' with hint := none })

/-- A scoped word: the selected context's, or a unit's (R162, R163). A unit that executes one of a wider scope raises the
scope fault (R124). -/
def atScope (i : Instr) (s : State) (k : BitVec 3) (own : State → Ctx → CtxRes) (grp : State → Group → GUnit → Res) : Out :=
  match s.sel with
  | some (.context cid) => ownWord i s cid own
  | _ => issue i s fun s g u => if 2 ≤ k.toNat then .trap (scopeFault i u) else grp s g u

/-- The target of a word of format C at a PC (R164). -/
def targetOf (pc : Word) (h : Option Hint) (o : BitVec 16) : Word := pc + 4 * BitVec.ofInt 64 (wordOffset h o)

/-- Whether a grid context reads `k0` before its grid is confirmed (R357). -/
def State.readsEarly (s : State) (c : Ctx) (r : Nat) : Bool :=
  decide (c.scope = 4) && decide (r = 0) && (match s.grid? c.grid with
    | some k => k.predicted && !k.confirmed
    | none => false)

/-- A context's conditional word: it holds while it may not read `k0` (R357). -/
def ctxReads (s : State) (c : Ctx) (r : Nat) (f : Word → CtxRes) : CtxRes :=
  if s.readsEarly c r then .hold s { c with state := .unconfirmed } else f (c.r r)

/-- A transfer of control by a context, with the scope check of its target (R126, R165). -/
def ctxGoto (s : State) (c : Ctx) (pc : Word) : CtxRes := if c.inSegment pc then .goto s c pc else .fault 4

/-! ### Group-level transfers -/

/-- A transfer of control by a unit to a target, with the scope check of R126 and its TAKEN packet (R165, R421). -/
def transfer (i : Instr) (s : State) (g : Group) (u : GUnit) (target : Word) : Res :=
  if !inSegment g u target then .trap (scopeFault i u)
  else
    let (s, g) := s.traceTaken g u u.pc target
    .jump s g { u with pc := target }

/-- The reconvergence entry of a lane branch, reused or pushed: its index and the group with it (R151). -/
def branchEntry (g : Group) (u : GUnit) : Option (Nat × Group) :=
  let reuse := match u.entry with
    | some e => (g.recon? e).bind fun r => if r.bpc.toNat = bits u.pc 56 2 && decide (r.depth = u.depth) then some e else none
    | none => none
  match reuse with
  | some e => some (e, g)
  | none =>
    g.freeEntry.map fun e =>
      (e, g.setRecon e { fmts := u.fmt, join := u.mask, arr := 0, bpc := BitVec.ofNat 55 (bits u.pc 56 2), depth := u.depth,
                         parent := u.entry })

/-- A lane branch (R146, R147, R151, R157): `taken` are the lanes whose condition holds, `side` the unit after the taken
side's transfer. DESIGN CHOICE: of the faults of one word the scope comes first, then, in a region, the lack of uniformity. -/
def laneBranch (i : Instr) (s : State) (g : Group) (u : GUnit) (cond : Mask) (side : GUnit → GUnit) : Res :=
  let m := currentMask g u
  let taken := m &&& cond
  let tu := side u
  if decide (taken ≠ 0) && !inSegment g u tu.pc then .trap (scopeFault i u)
  else if u.region.isSome then
    if taken = 0 then .ok s g u
    else if taken = m then
      let (s, g) := s.traceTaken g u u.pc tu.pc
      .jump s g tu
    else .trap (wordFault 5 i u)
  else
    let fu := backEdge u
    if decide (taken ≠ m) && decide (fu.pc ≠ u.pc + 4) && !inSegment g u fu.pc then .trap (scopeFault i u)
    else
      match branchEntry g u with
      | none => .trap (stackFault i u)
      | some (e, g) =>
        let u := { u with entry := some e }
        if taken = 0 then .ok s g u
        else if taken = m then
          let (s, g) := s.traceTaken g u u.pc tu.pc
          .jump s g { side u with entry := some e }
        else
          let fallUid := if countLanes taken ≤ countLanes (m &&& ~~~taken) then u.uid else g.nextUid
          let ready := { u with unfinished := none }
          let (g, det) := splitUnit g ready taken side backEdge s.steps
          let (s, g) := s.traceSplit g u u.pc det (if det then taken else m &&& ~~~taken)
          let (s, g) := if fu.pc = u.pc + 4 then (s, g) else s.traceTaken g u u.pc fu.pc
          .regrouped s g (some fallUid)

/-- The loop levels that a return leaves: those above the count open at the call are closed (R131). -/
def closeAbove (loops : List LoopLevel) (n : Nat) : List LoopLevel := loops.drop (loops.length - n)

/-! ### Branches, jumps, calls, returns -/

/-- `br` (R164). -/
def execBr (m : BitVec 1) (k : BitVec 3) (c : BitVec 5) (o : BitVec 16) (s : State) : Out :=
  atScope (.br m k c o) s k
    (fun s x => ctxReads s x c.toNat fun v => if v ≠ 0 then ctxGoto s x (targetOf x.pc x.hint o) else .fall s x)
    fun s g u =>
      let target := targetOf u.pc u.hint o
      if k.toNat = 0 then laneBranch (.br m k c o) s g u (g.p c.toNat) fun u => { u with pc := target }
      else if g.s c.toNat ≠ 0 then transfer (.br m k c o) s g u target
      else .ok s g u

/-- `jmp` (R164). -/
def execJmp (m : BitVec 1) (k : BitVec 3) (o : BitVec 16) (s : State) : Out :=
  atScope (.jmp m k o) s k (fun s x => ctxGoto s x (targetOf x.pc x.hint o))
    fun s g u => transfer (.jmp m k o) s g u (targetOf u.pc u.hint o)

/-- `call` (R164): the target may lie anywhere (R165). -/
def execCall (m : BitVec 1) (k : BitVec 3) (o : BitVec 16) (s : State) : Out :=
  atScope (.call m k o) s k
    (fun s x =>
      if x.stack.length = Config.callDepth then .fault 7
      else .goto s { x with stack := { ret := x.pc + 4, loops := x.loops.length } :: x.stack } (targetOf x.pc x.hint o))
    fun s g u =>
      if u.stack.length = Config.callDepth then .trap (stackFault (.call m k o) u)
      else
        let target := targetOf u.pc u.hint o
        let (s, g) := s.traceTaken g u u.pc target
        .jump s g { u with pc := target, stack := { ret := u.pc + 4, loops := u.loops.length } :: u.stack }

/-- `ret` (R131, R154, R164, R167): it pops an entry, closes loop levels, leaves reconvergence entries, and applies the back edge of a
`call` at a body's last word. At an upper context with an empty stack it ends the context's work. -/
def execRet (m : BitVec 1) (k : BitVec 3) (s : State) : Out :=
  atScope (.ret m k) s k
    (fun s x =>
      match x.stack with
      | [] =>
        if (match s.grid? x.grid with
          | some q => decide (x.scope = 4) && q.predicted && !q.confirmed
          | none => false) then .hold s { x with state := .unconfirmed }
        else if s.room x then
          let (s, x) := s.emitEnd x
          .ended s x
        else .hold s x
      | e :: rest =>
        if x.atBase && decide (x.scope ≠ 4) then .fault 4
        else
          let x' := { x with stack := rest, loops := closeAbove x.loops e.loops }
          let (ls, pc) := backEdgeFrom (e.ret - 4) x'.loops
          if decide (pc ≠ e.ret) && !x'.inSegment pc then .fault 4 else .goto s { x' with loops := ls } pc)
    fun s g u =>
      match u.stack with
      | [] => .trap (stackFault (.ret m k) u)
      | e :: rest =>
        if atBase g u then .trap (scopeFault (.ret m k) u)
        else
          let u' := { u with stack := rest, loops := closeAbove u.loops e.loops }
          let (ls, pc) := backEdgeFrom (e.ret - 4) u'.loops
          if decide (pc ≠ e.ret) && !inSegment g u' pc then .trap (scopeFault (.ret m k) u)
          else
            let (s, g) := s.traceTaken g u u.pc pc
            let (g, u') := leaveEntries g { u' with loops := ls, pc := pc } fun r => decide (rest.length < r.depth)
            .jump s g u'

/-! ### Loops -/

/-- Whether a loop body that ends before a PC ends outside a segment (R126). -/
def bodyOutside (atBase : Bool) (sg : Segment) (stop : Word) : Bool :=
  atBase && (match sg with
    | .upTo first last => !(decide (first ≤ stop - 4) && decide (stop - 4 ≤ last))
    | _ => false)

/-- `loop` (R166). -/
def execLoop (m : BitVec 1) (k : BitVec 3) (c : BitVec 5) (o : BitVec 16) (s : State) : Out :=
  atScope (.loop m k c o) s k
    (fun s x => ctxReads s x c.toNat fun n =>
      let stop := targetOf x.pc x.hint o
      if bodyOutside x.atBase x.segment stop then .fault 4
      else if n = 0 then .goto s x stop
      else if x.loops.length = Config.loopLevels then .fault 7
      else .goto s { x with loops := { count := n, first := x.pc + 4, last := stop - 4 } :: x.loops } (x.pc + 4))
    fun s g u =>
      let n := g.s c.toNat
      let stop := targetOf u.pc u.hint o
      if bodyOutside (atBase g u) g.segment stop then .trap (scopeFault (.loop m k c o) u)
      else if n = 0 then .jump s g { u with pc := stop }
      else if u.loops.length = Config.loopLevels then .trap (stackFault (.loop m k c o) u)
      else .jump s g { u with pc := u.pc + 4, loops := { count := n, first := u.pc + 4, last := stop - 4 } :: u.loops }

/-- `lbrk` (R168). -/
def execLbrk (m : BitVec 1) (k : BitVec 3) (c : BitVec 5) (s : State) : Out :=
  atScope (.lbrk m k c) s k
    (fun s x =>
      match x.loops with
      | [] => .fault 7
      | l :: rest => ctxReads s x c.toNat fun v =>
        if v ≠ 0 then ctxGoto s { x with loops := rest } (l.last + 4) else .fall s x)
    fun s g u =>
      match u.loops with
      | [] => .trap (stackFault (.lbrk m k c) u)
      | l :: rest =>
        if k.toNat = 0 then laneBranch (.lbrk m k c) s g u (g.p c.toNat) fun u => { u with pc := l.last + 4, loops := rest }
        else if g.s c.toNat ≠ 0 then transfer (.lbrk m k c) s g { u with loops := rest } (l.last + 4)
        else .ok s g u

/-! ### Barriers and values -/

/-- `bar` (R173): the context stops until every receiver has completed what was emitted before. No group may execute it. -/
def execBar (m : BitVec 1) (k : BitVec 3) (s : State) : Out :=
  atScope (.bar m k) s k (fun s x => .hold s { x with state := .atBar, joint := some (.bar m k, x.pc) }) fun _ _ u => .trap (scopeFault (.bar m k) u)

/-- A unit that performs its part of a Joint word stays at the word until the context performs its own (R171, R198). DESIGN CHOICE: where the
word is the last of a loop body, the unit sends at the first pass and takes the back edge after the combination. -/
def standAtJoint (i : Instr) (s : State) (g : Group) (u : GUnit) : Res :=
  let next := backEdge u
  if decide (next.pc ≠ u.pc + 4) && !inSegment g u next.pc then .trap (scopeFault i u)
  else
    let (g, u) := leaveEntries g u fun _ => true
    .regrouped s (g.setUnit { u with wait := .joint, hint := none, skipBp := false }) none

/-- `up` (R170, R171): a group performs its part only as the last word of its segment; one that so reaches the segment's end with a region
open takes the scope fault there (R157). -/
def execUp (m : BitVec 1) (d a : BitVec 5) (k y : BitVec 3) (s : State) : Out :=
  issue (.up m d a k y) s fun s g u =>
    if decide (k.toNat ≠ 2) || !atLast g u u.pc then .trap (scopeFault (.up m d a k y) u)
    else if u.region.isSome && decide ((backEdge u).pc = u.pc + 4) then
      .trapAfter s g { u with pc := u.pc + 4, hint := none } (scopeFault (.up m d a k y) u)
    else standAtJoint (.up m d a k y) s g u

/-- `down`, send form (R134, R172). -/
def execDownSend (m : BitVec 1) (d a : BitVec 5) (k : BitVec 3) (s : State) : Out :=
  atScope (.downSend m d a k) s k
    (fun s x => ctxReads s x a.toNat fun v =>
      .fall s { x with sd := x.sd.setIfInBounds d.toNat v, sdv := x.sdv ||| (1#6) <<< d.toNat })
    fun _ _ u => .trap (scopeFault (.downSend m d a k) u)

/-- `down`, read form (R134, R172). -/
def execDownRead (m : BitVec 1) (d a : BitVec 5) (k : BitVec 3) (s : State) : Out :=
  atScope (.downRead m d a k) s k
    (fun s x => .fall s (x.setR d.toNat ((x.dvals[a.toNat]?).getD 0)))
    fun s g u => .ok s (g.setS d.toNat ((g.dvals[a.toNat]?).getD 0)) u

/-! ### Hints -/

/-- A hint word (R43): it is in force for the next word of the unit, or of the context that executes the pair. -/
def hintWord (i : Instr) (h : Hint) (s : State) : Out :=
  match s.sel with
  | some (.context cid) =>
    match s.ctx? cid with
    | none => .refused .nobodyIssues
    | some c =>
      if c.frozen || decide (c.state ≠ .scanning) then .next { s with sel := none }
      else if !codesOk none c.scope 0 i then .next (s.ctxFault c 1 (wordOf i) 0)
      else .next (s.setCtx { c with pc := c.pc + 4, hint := some h })
  | _ => issue i s fun s g u => .ok s g { u with hint := some h }

/-- `hint.imm` (R44). -/
def execHintImm (m : BitVec 1) (i : BitVec 24) (s : State) : Out := hintWord (.hintImm m i) (.imm i) s

/-- `hint.mod` (R45). -/
def execHintMod (m : BitVec 1) (r : BitVec 3) (t : BitVec 2) (s : State) : Out := hintWord (.hintMod m r t) (.modifier r t) s

/-- `hint.sched` (R46). -/
def execHintSched (m : BitVec 1) (h : BitVec 1) (a : BitVec 2) (s : State) : Out := hintWord (.hintSched m h a) (.sched h a) s

/-! ### Suspension -/

/-- The unit no longer waits for a watch entry of its core. -/
def State.unqueueWatch (s : State) (g : Group) (u : GUnit) : State :=
  let c := s.core g.core
  s.setCore { c with watchQueue := c.watchQueue.filter fun w => decide (w ≠ (g.id, u.uid)) }

/-- The unit waits for a watch entry, behind those that asked before (R246). -/
def State.queueWatch (s : State) (g : Group) (u : GUnit) : State :=
  let c := s.core g.core
  if c.watchQueue.contains (g.id, u.uid) then s else s.setCore { c with watchQueue := c.watchQueue ++ [(g.id, u.uid)] }

/-- `suspend` (R135, R137, R174). -/
def execSuspend (m : BitVec 1) (k : BitVec 3) (n : BitVec 5) (o : BitVec 16) (s : State) : Out :=
  issue (.suspend m k n o) s fun s g u =>
    let i := Instr.suspend m k n o
    let target := targetOf u.pc u.hint o
    if k.toNat = 2 then
      if g.free || g.trap.tmode || decide (1 < g.units.length) || u.region.isSome || !atLast g u u.pc then .trap (scopeFault i u)
      else if !(s.blockOf g).confirmed then .stall 19
      else
        let (s, g) := s.endOwnStreams g
        if s.outstanding g ≠ 0 then .wait s g { u with wait := .stall 22 } else standAtJoint i s g u
    else if (u.region.isSome && !g.trap.tmode) || !inSegment g u target then .trap (scopeFault i u)
    else
      let va := g.s n.toNat
      withPlace s g u .read 8 false true va fun pl =>
        if placeOrd pl = 2 then .trap (pageKindFault va pl u)
        else
          match s.placePoison pl with
          | some code => .trap (containedFault va code u.mask)
          | none =>
            let s := s.expelPlace (s.accessor g) pl
            if (g.s (n.toNat + 1)).toNat ≤ s.homeValue pl 8 then .jump (s.unqueueWatch g u) g { u with pc := target }
            else if s.mayWatch g u then
              match (s.unqueueWatch g u).armWatch g u (placeSector pl) with
              | some s => .jump s g { u with pc := target, wait := .suspended (placeSector pl) }
              | none => .wait (s.queueWatch g u) g { u with wait := .watchEntry 11 }
            else .wait (s.queueWatch g u) g { u with wait := .watchEntry 11 }

end Sys2Proof.Machine
end

