-- ==== Sys2Proof/Machine/Float.lean ====
section
/-!
DEFINITION. The number formats (R51 to R57): reading an element as an exact number, exact arithmetic, one rounding into a
destination format with its flags, and the special functions (R99) as numbers precise enough to be rounded once.
-/

namespace Sys2Proof.Machine

/-- An exact value. `fin` is ±man × 2^exp; with `sticky` the magnitude lies strictly between man × 2^exp and
(man + 1) × 2^exp. -/
inductive ExactNum where
  | nan
  | inf (neg : Bool)
  | fin (neg : Bool) (man : Nat) (exp : Int) (sticky : Bool)
deriving DecidableEq, Repr

/-- A rounded element: its bits, the flags it raises, and the generator state after it. -/
structure Rounded where
  raw   : Nat
  flags : BitVec 6
  gen   : Word32
deriving DecidableEq, Repr

/-- Mantissa bits of a floating-point format (R51). -/
def manBits (code : Nat) : Nat :=
  match code with
  | 0 => 52 | 1 => 23 | 2 => 7 | 3 => 10 | 4 => 3 | 5 => 2 | _ => 1

/-- Exponent bits of a floating-point format (R51). -/
def expBits (code : Nat) : Nat :=
  match code with
  | 0 => 11 | 1 => 8 | 2 => 8 | 3 => 5 | 4 => 4 | 5 => 5 | _ => 2

/-- The exponent bias (R51). -/
def expBias (code : Nat) : Nat := 2 ^ (expBits code - 1) - 1

/-- Whether a format is floating-point, has infinities (R51), is an integer format. -/
def isFloat (code : Nat) : Bool := decide (code ≤ 6)
/-- The IEEE-patterned formats, which have infinities and NaN at the all-ones exponent. -/
def hasInf (code : Nat) : Bool := decide (code ≤ 3) || decide (code = 5)
/-- Signed two's-complement formats. -/
def isSigned (code : Nat) : Bool := decide (code ≠ 8)

/-- The canonical NaN of a format (R52); E2M1 has none and gives +0 (R55). -/
def nanRaw (code : Nat) : Nat :=
  if hasInf code then (2 ^ expBits code - 1) * 2 ^ manBits code + 2 ^ (manBits code - 1)
  else if code = 4 then 0x7F else 0

/-- The magnitude bits of the largest finite value (R51). -/
def maxRaw (code : Nat) : Nat :=
  if hasInf code then (2 ^ expBits code - 1) * 2 ^ manBits code - 1
  else if code = 4 then 0x7E else 0x7

/-- The magnitude bits of infinity. -/
def infRaw (code : Nat) : Nat := (2 ^ expBits code - 1) * 2 ^ manBits code

/-- The sign bit's place value. -/
def signRaw (code : Nat) (neg : Bool) : Nat := if neg then 2 ^ (formatWidth code - 1) else 0

/-- A number from an integer. -/
def ofInt (v : Int) : ExactNum := .fin (decide (v < 0)) v.natAbs 0 false

/-- An element read as a number: subnormals as zero of their sign under FTZ, except in E2M1 (R51, R54). -/
def unpack (code : Nat) (ftz : Bool) (raw : Nat) : ExactNum :=
  let w := formatWidth code
  if !isFloat code then
    (if isSigned code then ofInt (signedOf w raw) else ofInt ((raw % 2 ^ w : Nat) : Int))
  else
    let raw := raw % 2 ^ w
    let neg := decide (2 ^ (w - 1) ≤ raw)
    let m := manBits code
    let e := raw / 2 ^ m % 2 ^ expBits code
    let f := raw % 2 ^ m
    if hasInf code && decide (e = 2 ^ expBits code - 1) then (if f = 0 then .inf neg else .nan)
    else if decide (code = 4) && decide (e = 15) && decide (f = 7) then .nan
    else if e = 0 then
      (if ftz && decide (code ≠ 6) then .fin neg 0 0 false else .fin neg f (1 - (expBias code : Int) - m) false)
    else .fin neg (2 ^ m + f) ((e : Int) - expBias code - m) false

/-- Rounds a magnitude man × 2^exp, or one strictly above it within one unit, to a multiple of 2^q: the multiple and whether it
was inexact (R57, R58). -/
def roundAt (mode : Mode) (neg : Bool) (gen : Word32) (man : Nat) (exp q : Int) (sticky : Bool) : Nat × Bool :=
  if q ≤ exp then
    let n := man * 2 ^ (exp - q).toNat
    let up := sticky && ((decide (mode = .ru) && !neg) || (decide (mode = .rd) && neg))
    (if up then n + 1 else n, sticky)
  else
    let k := (q - exp).toNat
    if man.log2 + 40 < k then
      -- The whole magnitude lies below 2^-39 units of the last place.
      let inexact := decide (man ≠ 0) || sticky
      let up := inexact && ((decide (mode = .ru) && !neg) || (decide (mode = .rd) && neg))
      (if up then 1 else 0, inexact)
    else
      let n := man / 2 ^ k
      let rem := man % 2 ^ k
      let inexact := decide (rem ≠ 0) || sticky
      let up := inexact && (match mode with
        | .rn => decide (2 ^ k < 2 * rem) || (decide (2 * rem = 2 ^ k) && (sticky || decide (n % 2 = 1)))
        | .rz => false
        | .ru => !neg
        | .rd => neg
        | .rs => decide (2 ^ 32 ≤ rem * 2 ^ 32 / 2 ^ k + gen.toNat))
      (if up then n + 1 else n, inexact)

/-- An overflowed result (R55). -/
def overflowRaw (code : Nat) (mode : Mode) (sat neg : Bool) : Nat :=
  if hasInf code then
    (if sat || decide (mode = .rz) || (decide (mode = .ru) && neg) || (decide (mode = .rd) && !neg)
      then signRaw code neg + maxRaw code else signRaw code neg + infRaw code)
  else if code = 4 then (if sat then signRaw code neg + 0x7E else nanRaw 4)
  else signRaw code neg + maxRaw code

/-- Whether a magnitude n × 2^q, q the exponent of its last place and n of at most 54 bits, exceeds the largest finite value (R55). -/
def exceedsMax (code : Nat) (n : Nat) (q : Int) : Bool :=
  let m : Int := manBits code
  -- The largest finite value is maxMan × 2^maxExp.
  let maxMan : Nat := if hasInf code then 2 ^ (manBits code + 1) - 1 else if code = 4 then 14 else 3
  let maxExp : Int := if hasInf code then (expBias code : Int) - m else if code = 4 then 5 else 1
  if maxExp ≤ q then decide (maxMan < n * 2 ^ (min (q - maxExp) 64).toNat)
  else decide (maxMan * 2 ^ (min (maxExp - q) 64).toNat < n)

/-- One rounding of an exact number into a floating-point format, with overflow, underflow and flush (R54, R55, R57).
`gen` is the generator state already advanced for this element when the mode is `rs`. -/
def roundFloat (code : Nat) (mode : Mode) (sat ftz : Bool) (gen : Word32) (v : ExactNum) : Nat × BitVec 6 :=
  match v with
  | .nan => (nanRaw code, NV)
  | .inf neg =>
    if hasInf code then (signRaw code neg + infRaw code, 0)
    else if code = 4 then (if sat then (signRaw 4 neg + 0x7E, NV) else (nanRaw 4, NV))
    else (signRaw code neg + maxRaw code, NV)
  | .fin neg man exp sticky =>
    if man = 0 && !sticky then (signRaw code neg, 0)
    else
      let m := manBits code
      let qu : Int := exp + man.log2 - m
      let qmin : Int := 1 - (expBias code : Int) - m
      if (expBias code : Int) + 2 < exp + man.log2 then
        (overflowRaw code mode sat neg, OF ||| NX)
      else
        let (nu, _) := roundAt mode neg gen man exp qu sticky
        if exceedsMax code nu qu then (overflowRaw code mode sat neg, OF ||| NX)
        else
          let tiny :=
            if exp + (man.log2 : Int) + 2 < 1 - (expBias code : Int) then true
            else decide ((nu : Int) * 2 ^ (qu - (qmin - m - 4)).toNat < 2 ^ (2 * m + 4))
          if tiny && ftz && decide (code ≠ 6) then (signRaw code neg, UF ||| NX)
          else
            let q := max qu qmin
            let (n, inexact) := roundAt mode neg gen man exp q sticky
            let (n, q) := if 2 ^ (m + 1) ≤ n then (n / 2, q + 1) else (n, q)
            let mag := if 2 ^ m ≤ n then (q + expBias code + m).toNat * 2 ^ m + (n - 2 ^ m) else n
            (signRaw code neg + mag,
              (if inexact then NX else 0) ||| (if tiny && inexact then UF else 0))

/-- The range of an integer format (R51). -/
def intRange (code : Nat) : Int × Int :=
  let w := formatWidth code
  if isSigned code then (-(2 ^ (w - 1) : Int), 2 ^ (w - 1) - 1) else (0, 2 ^ w - 1)

/-- The bits of an integer in a width. -/
def intRaw (w : Nat) (v : Int) : Nat := (v % (2 ^ w : Int)).toNat

/-- Conversion of a number into an integer format: round, then clamp whatever SAT holds (R56). -/
def roundInt (code : Nat) (mode : Mode) (gen : Word32) (v : ExactNum) : Nat × BitVec 6 :=
  let (lo, hi) := intRange code
  let w := formatWidth code
  match v with
  | .nan => (0, NV)
  | .inf neg => (intRaw w (if neg then lo else hi), NV)
  | .fin neg man exp sticky =>
    if 128 < exp + (man.log2 : Int) then (intRaw w (if neg then lo else hi), NV)
    else
      let (n, inexact) := roundAt mode neg gen man exp 0 sticky
      let x : Int := if neg then -(n : Int) else n
      if x < lo then (intRaw w lo, NV)
      else if hi < x then (intRaw w hi, NV)
      else (intRaw w x, if inexact then NX else 0)

/-- A number rounded into a format, the lane's generator advanced first in mode `rs` (R57, R58). -/
def roundTo (code : Nat) (mode : Mode) (sat ftz : Bool) (gen : Word32) (v : ExactNum) : Rounded :=
  let gen := if mode = .rs then genNext gen else gen
  let (raw, fl) := if isFloat code then roundFloat code mode sat ftz gen v else roundInt code mode gen v
  { raw := raw, flags := fl, gen := gen }

/-- Whether a number is a zero. -/
def isZero : ExactNum → Bool
  | .fin _ man _ sticky => decide (man = 0) && !sticky
  | _ => false

/-- The sign of a number. -/
def isNeg : ExactNum → Bool
  | .fin neg _ _ _ => neg
  | .inf neg => neg
  | .nan => false

/-- The negated number. -/
def negate : ExactNum → ExactNum
  | .fin neg man exp sticky => .fin (!neg) man exp sticky
  | .inf neg => .inf (!neg)
  | .nan => .nan

/-- The exact sum; a zero sum of opposite signs is +0, and −0 in mode `rd` (R57, R96). -/
def addNum (mode : Mode) (a b : ExactNum) : ExactNum × BitVec 6 :=
  match a, b with
  | .nan, _ => (.nan, NV)
  | _, .nan => (.nan, NV)
  | .inf x, .inf y => if x = y then (.inf x, 0) else (.nan, NV)
  | .inf x, _ => (.inf x, 0)
  | _, .inf y => (.inf y, 0)
  | .fin na ma ea _, .fin nb mb eb _ =>
    if ma = 0 ∧ mb = 0 then
      (.fin (if na = nb then na else decide (mode = .rd)) 0 0 false, 0)
    else if ma = 0 then (b, 0)
    else if mb = 0 then (a, 0)
    else
      let e := min ea eb
      let x : Int := (ma * 2 ^ (ea - e).toNat : Nat)
      let y : Int := (mb * 2 ^ (eb - e).toNat : Nat)
      let t := (if na then -x else x) + (if nb then -y else y)
      if t = 0 then (.fin (decide (mode = .rd)) 0 0 false, 0)
      else (.fin (decide (t < 0)) t.natAbs e false, 0)

/-- The exact product (R96). -/
def mulNum (a b : ExactNum) : ExactNum × BitVec 6 :=
  match a, b with
  | .nan, _ => (.nan, NV)
  | _, .nan => (.nan, NV)
  | .inf x, y => if isZero y then (.nan, NV) else (.inf (x != isNeg y), 0)
  | x, .inf y => if isZero x then (.nan, NV) else (.inf (isNeg x != y), 0)
  | .fin na ma ea _, .fin nb mb eb _ => (.fin (na != nb) (ma * mb) (ea + eb) false, 0)

/-- The exact a × b + c (R96). -/
def fmaNum (mode : Mode) (a b c : ExactNum) : ExactNum × BitVec 6 :=
  match mulNum a b with
  | (.nan, fl) => (.nan, fl)
  | (p, _) => addNum mode p c

/-- The order of two numbers, −0 equal to +0; none when unordered (R98). -/
def cmpNum (a b : ExactNum) : Option Ordering :=
  match a, b with
  | .nan, _ => none
  | _, .nan => none
  | .inf x, .inf y => some (if x = y then .eq else if x then .lt else .gt)
  | .inf x, _ => some (if x then .lt else .gt)
  | _, .inf y => some (if y then .gt else .lt)
  | .fin na ma ea _, .fin nb mb eb _ =>
    let e := min ea eb
    let x : Int := (ma * 2 ^ (ea - e).toNat : Nat)
    let y : Int := (mb * 2 ^ (eb - e).toNat : Nat)
    some (compare (if na then -x else x) (if nb then -y else y))

/-- Whether the first operand is the smaller of two numbers, with −0 below +0 (R97). -/
def lessOrSame (a b : ExactNum) : Bool :=
  match cmpNum a b with
  | some .lt => true
  | some .gt => false
  | _ => isNeg a || !isNeg b

/-- The largest n with n × n ≤ v, found bit by bit from `k` down. -/
def isqrtFrom : Nat → Nat → Nat → Nat
  | 0, _, acc => acc
  | k + 1, v, acc =>
    let t := acc + 2 ^ k
    isqrtFrom k v (if t * t ≤ v then t else acc)

/-- The integer square root. -/
def isqrt (v : Nat) : Nat := isqrtFrom (v.log2 / 2 + 1) v 0

/-- Extra bits that division and roots carry beyond the operand. -/
def workBits : Nat := 192

/-- num / den × 2^exp with `workBits` further bits (R99). -/
def ratio (neg : Bool) (num den : Nat) (exp : Int) : ExactNum :=
  let n := num * 2 ^ (workBits + den.log2)
  .fin neg (n / den) (exp - workBits - den.log2) (decide (n % den ≠ 0))

/-- √(man × 2^exp) with at least `workBits` bits (R99). -/
def rootOf (man : Nat) (exp : Int) : ExactNum :=
  let odd := exp % 2
  let m := man * 2 ^ (2 * workBits + odd.toNat)
  let r := isqrt m
  .fin false r ((exp - odd) / 2 - workBits) (decide (r * r ≠ m))

/-- 1 / a (R99). -/
def recip (a : ExactNum) : ExactNum × BitVec 6 :=
  match a with
  | .nan => (.nan, NV)
  | .inf neg => (.fin neg 0 0 false, 0)
  | .fin neg man exp _ => if man = 0 then (.inf neg, DZ) else (ratio neg 1 man (-exp), 0)

/-- √a (R99). -/
def sqrtNum (a : ExactNum) : ExactNum × BitVec 6 :=
  match a with
  | .nan => (.nan, NV)
  | .inf neg => if neg then (.nan, NV) else (.inf false, 0)
  | .fin neg man exp _ =>
    if man = 0 then (a, 0) else if neg then (.nan, NV) else (rootOf man exp, 0)

/-- 1 / √a, as √(1 / a): the quotient is cut after enough bits, and exact only for a power of four (R99). -/
def rsqrtNum (a : ExactNum) : ExactNum × BitVec 6 :=
  match a with
  | .nan => (.nan, NV)
  | .inf neg => if neg then (.nan, NV) else (.fin false 0 0 false, 0)
  | .fin neg man exp _ =>
    if man = 0 then (.inf neg, DZ)
    else if neg then (.nan, NV)
    else
      -- man × 2^exp with an even exponent; 1 / √man = √(2^(2k) / man) / 2^k.
      let odd := exp % 2
      let mm := man * 2 ^ odd.toNat
      let k := workBits + mm.log2
      let q := 2 ^ (2 * k) / mm
      let r := isqrt q
      (.fin false r (-((exp - odd) / 2) - k) (decide (r * r * mm ≠ 2 ^ (2 * k))), 0)

/-- ⌊π × 2^400⌋. PRESUMED (mathematics). -/
def piFix : Nat :=
  0x3243f6a8885a308d313198a2e03707344a4093822299f31d0082efa98ec4e6c89452821e638d01377be5466cf34e90c6cc0ac

/-- ⌊ln 2 × 2^400⌋. PRESUMED (mathematics). -/
def ln2Fix : Nat :=
  0xb17217f7d1cf79abc9e3b39803f2f6af40f343267298b62d8a0d175b8baafa2be7b876206debac98559552fb4afa1b10ed2e

/-- Sum of y^n / n! in units of 2^-p from the n-th term on. -/
def expSeries (p y : Nat) : Nat → Nat → Nat → Nat
  | 0, _, _ => 0
  | fuel + 1, n, term => term + expSeries p y fuel (n + 1) (term * y / 2 ^ p / (n + 1))

/-- 2^a, to more than 300 bits (R99). -/
def exp2Num (a : ExactNum) : ExactNum × BitVec 6 :=
  match a with
  | .nan => (.nan, NV)
  | .inf neg => (if neg then .fin false 0 0 false else .inf false, 0)
  | .fin neg man exp _ =>
    if man = 0 then (.fin false 1 0 false, 0)
    else if 0 ≤ exp then
      let n : Int := man * 2 ^ (min exp 400).toNat
      (.fin false 1 (if neg then -n else n) false, 0)
    else
      let k := (-exp).toNat
      let n : Int := if neg then -((man : Int) / 2 ^ k) - (if man % 2 ^ k = 0 then 0 else 1) else (man : Int) / 2 ^ k
      let f : Nat := if neg then (2 ^ k - man % 2 ^ k) % 2 ^ k else man % 2 ^ k
      if f = 0 then (.fin false 1 n false, 0)
      else
        let y := f * ln2Fix / 2 ^ k
        (.fin false (expSeries 400 y 110 0 (2 ^ 400)) (n - 400) true, 0)

/-- Sum of z^(2n + 1) / (2n + 1) in units of 2^-p. -/
def atanhSeries (p z2 : Nat) : Nat → Nat → Nat → Nat
  | 0, _, _ => 0
  | fuel + 1, n, pow => pow / (2 * n + 1) + atanhSeries p z2 fuel (n + 1) (pow * z2 / 2 ^ p)

/-- log₂ a, to more than 250 bits (R99). -/
def log2Num (a : ExactNum) : ExactNum × BitVec 6 :=
  match a with
  | .nan => (.nan, NV)
  | .inf neg => if neg then (.nan, NV) else (.inf false, 0)
  | .fin neg man exp _ =>
    if man = 0 then (.inf true, DZ)
    else if neg then (.nan, NV)
    else
      let l := man.log2
      let e : Int := exp + l
      if man = 2 ^ l then (ofInt e, 0)
      else
        -- man / 2^l lies in (1, 2): log₂ of it is 2 atanh((x − 1) / (x + 1)) / ln 2.
        let z := (man - 2 ^ l) * 2 ^ 400 / (man + 2 ^ l)
        let z2 := z * z / 2 ^ 400
        let at2 := 2 * atanhSeries 400 z2 140 0 z
        let fr : Nat := at2 * 2 ^ 400 / ln2Fix
        let v : Int := e * 2 ^ 400 + fr
        (.fin (decide (v < 0)) v.natAbs (-400) true, 0)

/-- Alternating series of sine: the partial sums with positive and negative terms, in units of 2^-p. -/
def sinSeries (p x2 : Nat) : Nat → Nat → Nat → Nat × Nat
  | 0, _, _ => (0, 0)
  | fuel + 1, n, term =>
    let (q, m) := sinSeries p x2 fuel (n + 2) (term * x2 / 2 ^ p / ((n + 1) * (n + 2)))
    (term + m, q)

/-- sin(π × num / 2^k) for 0 < num / 2^k < 1 / 2, to more than 300 bits. -/
def sinPi (neg : Bool) (num k : Nat) : ExactNum :=
  let p := 400 + k
  let x := num * piFix
  let x2 := x * x / 2 ^ p
  let (pos, minus) := sinSeries p x2 90 1 x
  .fin neg (pos - minus) (-(p : Int)) true

/-- sin(π × num / 2^k) for 0 ≤ num / 2^k ≤ 1 / 2, where 1 / 2 gives 1; zero is left to the caller. -/
def sinQuarter (neg : Bool) (num k : Nat) : ExactNum :=
  if 2 * num = 2 ^ k then .fin neg 1 0 false else sinPi neg num k

/-- sin(π × a) (R99). -/
def sinNum (a : ExactNum) : ExactNum × BitVec 6 :=
  match a with
  | .nan => (.nan, NV)
  | .inf _ => (.nan, NV)
  | .fin neg man exp _ =>
    if man = 0 || decide (0 ≤ exp) then (.fin neg 0 0 false, 0)
    else
      let k := (-exp).toNat
      let r := man % 2 ^ (k + 1)
      let flip := decide (2 ^ k ≤ r)
      let r := r % 2 ^ k
      if r = 0 then (.fin neg 0 0 false, 0)
      else
        let r := if 2 ^ k < 2 * r then 2 ^ k - r else r
        (sinQuarter (neg != flip) r k, 0)

/-- cos(π × a) (R99). -/
def cosNum (a : ExactNum) : ExactNum × BitVec 6 :=
  match a with
  | .nan => (.nan, NV)
  | .inf _ => (.nan, NV)
  | .fin _ man exp _ =>
    if 0 ≤ exp then
      let odd := decide (exp = 0) && decide (man % 2 = 1)
      (.fin odd 1 0 false, 0)
    else
      let k := (-exp).toNat
      let r := man % 2 ^ (k + 1)
      let r := if 2 ^ k < r then 2 ^ (k + 1) - r else r
      -- cos(π r) for 0 ≤ r ≤ 1 is sin(π (1/2 − r)).
      if 2 * r = 2 ^ k then (.fin false 0 0 false, 0)
      else if 2 * r < 2 ^ k then (sinQuarter false (2 ^ k - 2 * r) (k + 1), 0)
      else (sinQuarter true (2 * r - 2 ^ k) (k + 1), 0)

end Sys2Proof.Machine
end

