-- ==== Sys2Proof/Machine/Scalar.lean ====
section
/-!
DEFINITION. Group scalar instructions (R76 to R81, R179) and the hints (R43 to R46).
-/

namespace Sys2Proof.Machine

/-- A scalar operation by type (R76): over 64 bits, or over bits [31:0] with the result sign- or zero-extended. The operation is told
whether the type is signed. -/
def scalarBin (t : BitVec 2) (op : (w : Nat) → Bool → BitVec w → BitVec w → BitVec w) (x y : Word) : Word :=
  match t.toNat with
  | 0 => (op 32 true (x.setWidth 32) (y.setWidth 32)).signExtend 64
  | 1 => (op 32 false (x.setWidth 32) (y.setWidth 32)).setWidth 64
  | 2 => op 64 true x y
  | _ => op 64 false x y

/-- High half of the double-width product (R77). -/
def mulHigh (w : Nat) (signed : Bool) (x y : BitVec w) : BitVec w :=
  if signed then (x.signExtend (w + w) * y.signExtend (w + w)).extractLsb' w w
  else (x.setWidth (w + w) * y.setWidth (w + w)).extractLsb' w w

/-- Division rounded toward zero; all ones when the divisor is zero, x when the quotient does not fit (R77). -/
def divide (w : Nat) (signed : Bool) (x y : BitVec w) : BitVec w :=
  if y = 0 then ~~~0 else if signed then x.sdiv y else x.udiv y

/-- The order of two values by signedness. -/
def lessThan (w : Nat) (signed : Bool) (x y : BitVec w) : Bool := if signed then x.slt y else x.ult y

/-- The conditions 0 to 5 of R38 between two values. -/
def condition (c : Nat) (lt eq : Bool) : Bool :=
  match c with
  | 0 => eq
  | 1 => !eq
  | 2 => lt
  | 3 => lt || eq
  | 4 => !lt && !eq
  | _ => !lt

/-- A scalar word of two operands. -/
def scalarWord (i : Instr) (d a b : BitVec 5) (t : BitVec 2)
    (op : (w : Nat) → Bool → BitVec w → BitVec w → BitVec w) (s : State) : Out :=
  issueReg i s fun g _ => g.setS d.toNat (scalarBin t op (g.s a.toNat) (g.s b.toNat))

/-- `sadd` (R77: the sum, wrapping). -/
def execSadd (m : BitVec 1) (d a b : BitVec 5) (t : BitVec 2) (s : State) : Out :=
  scalarWord (.sadd m d a b t) d a b t (fun _ _ x y => x + y) s

/-- `ssub` (R77: the difference, wrapping). -/
def execSsub (m : BitVec 1) (d a b : BitVec 5) (t : BitVec 2) (s : State) : Out :=
  scalarWord (.ssub m d a b t) d a b t (fun _ _ x y => x - y) s

/-- `smul` (R77: the low half of the product). -/
def execSmul (m : BitVec 1) (d a b : BitVec 5) (t : BitVec 2) (s : State) : Out :=
  scalarWord (.smul m d a b t) d a b t (fun _ _ x y => x * y) s

/-- `smulh` (R77: the high half of the product). -/
def execSmulh (m : BitVec 1) (d a b : BitVec 5) (t : BitVec 2) (s : State) : Out :=
  scalarWord (.smulh m d a b t) d a b t (mulHigh) s

/-- `sdiv` (R77: the quotient). -/
def execSdiv (m : BitVec 1) (d a b : BitVec 5) (t : BitVec 2) (s : State) : Out :=
  scalarWord (.sdiv m d a b t) d a b t (divide) s

/-- `smin` (R77: the smaller). -/
def execSmin (m : BitVec 1) (d a b : BitVec 5) (t : BitVec 2) (s : State) : Out :=
  scalarWord (.smin m d a b t) d a b t (fun w sg x y => if lessThan w sg y x then y else x) s

/-- `smax` (R77: the larger). -/
def execSmax (m : BitVec 1) (d a b : BitVec 5) (t : BitVec 2) (s : State) : Out :=
  scalarWord (.smax m d a b t) d a b t (fun w sg x y => if lessThan w sg x y then y else x) s

/-- `sand` (R78). -/
def execSand (m : BitVec 1) (d a b : BitVec 5) (t : BitVec 2) (s : State) : Out :=
  scalarWord (.sand m d a b t) d a b t (fun _ _ x y => x &&& y) s

/-- `sor` (R78). -/
def execSor (m : BitVec 1) (d a b : BitVec 5) (t : BitVec 2) (s : State) : Out :=
  scalarWord (.sor m d a b t) d a b t (fun _ _ x y => x ||| y) s

/-- `sxor` (R78). -/
def execSxor (m : BitVec 1) (d a b : BitVec 5) (t : BitVec 2) (s : State) : Out :=
  scalarWord (.sxor m d a b t) d a b t (fun _ _ x y => x ^^^ y) s

/-- `sshl` (R78: the count is taken modulo the operating width). -/
def execSshl (m : BitVec 1) (d a b : BitVec 5) (t : BitVec 2) (s : State) : Out :=
  scalarWord (.sshl m d a b t) d a b t (fun w _ x y => x <<< (y.toNat % w)) s

/-- `sshr` (R78: zeros fill). -/
def execSshr (m : BitVec 1) (d a b : BitVec 5) (t : BitVec 2) (s : State) : Out :=
  scalarWord (.sshr m d a b t) d a b t (fun w _ x y => x >>> (y.toNat % w)) s

/-- `ssar` (R78: copies of the top bit fill). -/
def execSsar (m : BitVec 1) (d a b : BitVec 5) (t : BitVec 2) (s : State) : Out :=
  scalarWord (.ssar m d a b t) d a b t (fun w _ x y => x.sshiftRight (y.toNat % w)) s

/-- `sset` (R79): 1 when the condition holds, else 0. -/
def execSset (m : BitVec 1) (d a b : BitVec 5) (t : BitVec 2) (c : BitVec 3) (s : State) : Out :=
  issueReg (.sset m d a b t c) s fun g _ =>
    g.setS d.toNat (scalarBin t
      (fun w sg x y => if condition c.toNat (lessThan w sg x y) (decide (x = y)) then 1 else 0) (g.s a.toNat) (g.s b.toNat))

/-- `ssel` (R80): a when c is non-zero, else b. -/
def execSsel (m : BitVec 1) (d a b c : BitVec 5) (s : State) : Out :=
  issueReg (.ssel m d a b c) s fun g _ =>
    g.setS d.toNat (if g.s c.toNat ≠ 0 then g.s a.toNat else g.s b.toNat)

/-- `sli` (R81): a + the immediate, widened after `hint.imm` (R44). -/
def execSli (m : BitVec 1) (d a : BitVec 5) (i : BitVec 14) (s : State) : Out :=
  issueReg (.sli m d a i) s fun g u => g.setS d.toNat (g.s a.toNat + BitVec.ofInt 64 (imm14 u.hint i))

/-- `slui` (R81): a + the immediate times 2^26, modulo 2^64. -/
def execSlui (m : BitVec 1) (d a : BitVec 5) (i : BitVec 14) (s : State) : Out :=
  issueReg (.slui m d a i) s fun g u => g.setS d.toNat (g.s a.toNat + BitVec.ofInt 64 (imm14 u.hint i * 2 ^ 26))

/-- `fmt.set` (R66, R179): the unit's FMT, or the format fault with TVAL the value offered. -/
def execFmtSet (m : BitVec 1) (a : BitVec 5) (s : State) : Out :=
  issue (.fmtSet m a) s fun s g u =>
    let v := g.s a.toNat
    if fmtOk v then .ok s g { u with fmt := v }
    else .trap { cause := 10, tval := v, tstat := 0, tlane := u.mask }

/-- `fmt.get` (R179). -/
def execFmtGet (m : BitVec 1) (d : BitVec 5) (s : State) : Out :=
  issueReg (.fmtGet m d) s fun g u => g.setS d.toNat u.fmt

/-- `nop` (R169): changes nothing. -/
def execNop (m : BitVec 1) (s : State) : Out := issueReg (.nop m) s fun g _ => g

/-- `yield` (R169): the unit's run ends after this word. -/
def execYield (m : BitVec 1) (s : State) : Out :=
  issue (.yield m) s fun s g u => .ok s g { u with since := s.steps + 1 }

end Sys2Proof.Machine
end

