-- ==== Sys2Proof/Machine/VecInt.lean ====
section
/-!
DEFINITION. Vector integer, predicate and move instructions (R83 to R94).
-/

namespace Sys2Proof.Machine

/-- A lane value read by type: signed for `.s32` (0), unsigned for `.z32` (R83). -/
def laneInt (t : Nat) (x : Word32) : Int := if t = 0 then x.toInt else (x.toNat : Int)

/-- An exact result as a lane value: wrapped, or clamped to the type's range when saturation is in force, which sets SA (R83, R84). -/
def laneResult (t : Nat) (sat : Bool) (e : Int) : Word32 × BitVec 6 :=
  let lo : Int := if t = 0 then -(2 ^ 31) else 0
  let hi : Int := if t = 0 then 2 ^ 31 - 1 else 2 ^ 32 - 1
  if sat && decide (e < lo) then (BitVec.ofInt 32 lo, SA)
  else if sat && decide (hi < e) then (BitVec.ofInt 32 hi, SA)
  else (BitVec.ofInt 32 e, 0)

/-- The values of lanes written into a register and their flags ORed into FFLG (R67, R71). -/
def writeLanes (g : Group) (d : Nat) (m : Mask) (f : Nat → Word32 × BitVec 6) : Group :=
  (g.setVs d ((lanesOf m).map fun l => (l, (f l).1))).raise ((lanesOf m).foldl (fun fl l => fl ||| (f l).2) 0)

/-- A word that writes one value per lane and raises no flag. -/
def laneWord (i : Instr) (d : Nat) (f : Group → Nat → Word32) (s : State) : Out :=
  issueLanes i s fun g _ m => g.setVs d ((lanesOf m).map fun l => (l, f g l))

/-- A three-operand integer word (R84). -/
def intWord (i : Instr) (d : Nat) (t : Nat) (sat : Bool) (f : Group → Nat → Int) (s : State) : Out :=
  issueLanes i s fun g u m => writeLanes g d m fun l => laneResult t (sat && satInForce u.fmt u.hint) (f g l)

/-- A word that writes a predicate in its active lanes. -/
def predWord (i : Instr) (n : Nat) (f : Group → Nat → Bool) (s : State) : Out :=
  issueLanes i s fun g _ m => g.setP n m (maskOf (f g))

/-- `vadd` (R84). -/
def execVadd (m : BitVec 1) (p : BitVec 3) (d a b : BitVec 6) (t : BitVec 3) (s : State) : Out :=
  intWord (.vadd m p d a b t) d.toNat t.toNat true (fun g l => laneInt t.toNat (g.v a.toNat l) + laneInt t.toNat (g.v b.toNat l)) s

/-- `vsub` (R84). -/
def execVsub (m : BitVec 1) (p : BitVec 3) (d a b : BitVec 6) (t : BitVec 3) (s : State) : Out :=
  intWord (.vsub m p d a b t) d.toNat t.toNat true (fun g l => laneInt t.toNat (g.v a.toNat l) - laneInt t.toNat (g.v b.toNat l)) s

/-- `vmul` (R84). -/
def execVmul (m : BitVec 1) (p : BitVec 3) (d a b : BitVec 6) (t : BitVec 3) (s : State) : Out :=
  intWord (.vmul m p d a b t) d.toNat t.toNat true (fun g l => laneInt t.toNat (g.v a.toNat l) * laneInt t.toNat (g.v b.toNat l)) s

/-- `vmulh` (R84: the high word of the 64-bit product). -/
def execVmulh (m : BitVec 1) (p : BitVec 3) (d a b : BitVec 6) (t : BitVec 3) (s : State) : Out :=
  intWord (.vmulh m p d a b t) d.toNat t.toNat false (fun g l => (laneInt t.toNat (g.v a.toNat l) * laneInt t.toNat (g.v b.toNat l)) / 2 ^ 32) s

/-- `vmad` (R84; the first operand is tied to the destination, R37). -/
def execVmad (m : BitVec 1) (p : BitVec 3) (d a b : BitVec 6) (t : BitVec 3) (s : State) : Out :=
  intWord (.vmad m p d a b t) d.toNat t.toNat true (fun g l => laneInt t.toNat (g.v d.toNat l) * laneInt t.toNat (g.v a.toNat l) + laneInt t.toNat (g.v b.toNat l)) s

/-- `vmin` (R84). -/
def execVmin (m : BitVec 1) (p : BitVec 3) (d a b : BitVec 6) (t : BitVec 3) (s : State) : Out :=
  intWord (.vmin m p d a b t) d.toNat t.toNat false (fun g l => min (laneInt t.toNat (g.v a.toNat l)) (laneInt t.toNat (g.v b.toNat l))) s

/-- `vmax` (R84). -/
def execVmax (m : BitVec 1) (p : BitVec 3) (d a b : BitVec 6) (t : BitVec 3) (s : State) : Out :=
  intWord (.vmax m p d a b t) d.toNat t.toNat false (fun g l => max (laneInt t.toNat (g.v a.toNat l)) (laneInt t.toNat (g.v b.toNat l))) s

/-- `vadd` with an immediate, widened after `hint.imm` (R44, R85). -/
def execVaddImm (m : BitVec 1) (p : BitVec 3) (d a : BitVec 6) (i : BitVec 8) (t : BitVec 1) (s : State) : Out :=
  issueLanes (.vaddImm m p d a i t) s fun g u m =>
    writeLanes g d.toNat m fun l =>
      laneResult t.toNat (satInForce u.fmt u.hint)
        (laneInt t.toNat (g.v a.toNat l) + laneInt t.toNat (imm8 u.hint (decide (t.toNat = 1)) i))

/-- `vmul` with an immediate, widened after `hint.imm` (R44, R85). -/
def execVmulImm (m : BitVec 1) (p : BitVec 3) (d a : BitVec 6) (i : BitVec 8) (t : BitVec 1) (s : State) : Out :=
  issueLanes (.vmulImm m p d a i t) s fun g u m =>
    writeLanes g d.toNat m fun l =>
      laneResult t.toNat (satInForce u.fmt u.hint)
        (laneInt t.toNat (g.v a.toNat l) * laneInt t.toNat (imm8 u.hint (decide (t.toNat = 1)) i))

/-- `vabs` (R86: |a|; the most negative value gives itself, and never saturates). -/
def execVabs (m : BitVec 1) (p : BitVec 3) (d a : BitVec 6) (s : State) : Out :=
  laneWord (.vabs m p d a) d.toNat (fun g l => if (g.v a.toNat l).toInt < 0 then -(g.v a.toNat l) else g.v a.toNat l) s

/-- `vand` (R87). -/
def execVand (m : BitVec 1) (p : BitVec 3) (d a b : BitVec 6) (s : State) : Out :=
  laneWord (.vand m p d a b) d.toNat (fun g l => g.v a.toNat l &&& g.v b.toNat l) s

/-- `vor` (R87). -/
def execVor (m : BitVec 1) (p : BitVec 3) (d a b : BitVec 6) (s : State) : Out :=
  laneWord (.vor m p d a b) d.toNat (fun g l => g.v a.toNat l ||| g.v b.toNat l) s

/-- `vxor` (R87). -/
def execVxor (m : BitVec 1) (p : BitVec 3) (d a b : BitVec 6) (s : State) : Out :=
  laneWord (.vxor m p d a b) d.toNat (fun g l => g.v a.toNat l ^^^ g.v b.toNat l) s

/-- `vandn` (R87). -/
def execVandn (m : BitVec 1) (p : BitVec 3) (d a b : BitVec 6) (s : State) : Out :=
  laneWord (.vandn m p d a b) d.toNat (fun g l => g.v a.toNat l &&& ~~~(g.v b.toNat l)) s

/-- `vshl` (R88: by b[4:0]). -/
def execVshl (m : BitVec 1) (p : BitVec 3) (d a b : BitVec 6) (s : State) : Out :=
  laneWord (.vshl m p d a b) d.toNat (fun g l => (g.v a.toNat l) <<< ((g.v b.toNat l).toNat % 32)) s

/-- `vshr` (R88: zeros fill). -/
def execVshr (m : BitVec 1) (p : BitVec 3) (d a b : BitVec 6) (s : State) : Out :=
  laneWord (.vshr m p d a b) d.toNat (fun g l => (g.v a.toNat l) >>> ((g.v b.toNat l).toNat % 32)) s

/-- `vsar` (R88: copies of bit 31 fill). -/
def execVsar (m : BitVec 1) (p : BitVec 3) (d a b : BitVec 6) (s : State) : Out :=
  laneWord (.vsar m p d a b) d.toNat (fun g l => (g.v a.toNat l).sshiftRight ((g.v b.toNat l).toNat % 32)) s

/-- `vshl` with an immediate (R88); the type suffix changes no result. -/
def execVshlImm (m : BitVec 1) (p : BitVec 3) (d a : BitVec 6) (n : BitVec 5) (t : BitVec 1) (s : State) : Out :=
  laneWord (.vshlImm m p d a n t) d.toNat (fun g l => (g.v a.toNat l) <<< n.toNat) s

/-- `vshr` with an immediate (R88); the type suffix changes no result. -/
def execVshrImm (m : BitVec 1) (p : BitVec 3) (d a : BitVec 6) (n : BitVec 5) (t : BitVec 1) (s : State) : Out :=
  laneWord (.vshrImm m p d a n t) d.toNat (fun g l => (g.v a.toNat l) >>> n.toNat) s

/-- `vsar` with an immediate (R88); the type suffix changes no result. -/
def execVsarImm (m : BitVec 1) (p : BitVec 3) (d a : BitVec 6) (n : BitVec 5) (t : BitVec 1) (s : State) : Out :=
  laneWord (.vsarImm m p d a n t) d.toNat (fun g l => (g.v a.toNat l).sshiftRight n.toNat) s

/-- The number of leading zero bits (R89). -/
def leadingZeros (x : Word32) : Nat := if x = 0 then 32 else 31 - x.toNat.log2

/-- `vclz` (R89). -/
def execVclz (m : BitVec 1) (p : BitVec 3) (d a : BitVec 6) (s : State) : Out :=
  laneWord (.vclz m p d a) d.toNat (fun g l => BitVec.ofNat 32 (leadingZeros (g.v a.toNat l))) s

/-- `vpopc` (R89). -/
def execVpopc (m : BitVec 1) (p : BitVec 3) (d a : BitVec 6) (s : State) : Out :=
  laneWord (.vpopc m p d a) d.toNat (fun g l => BitVec.ofNat 32 (countLanes (g.v a.toNat l))) s

/-- `vsat` (R90): a clamped to w bits; a clamp sets SA. -/
def execVsat (m : BitVec 1) (p : BitVec 3) (d a : BitVec 6) (w : BitVec 6) (t : BitVec 1) (s : State) : Out :=
  issueLanes (.vsat m p d a w t) s fun g _ m =>
    writeLanes g d.toNat m fun l =>
      let x := laneInt t.toNat (g.v a.toNat l)
      let lo : Int := if t.toNat = 0 then -(2 ^ (w.toNat - 1)) else 0
      let hi : Int := if t.toNat = 0 then 2 ^ (w.toNat - 1) - 1 else 2 ^ w.toNat - 1
      if x < lo then (BitVec.ofInt 32 lo, SA) else if hi < x then (BitVec.ofInt 32 hi, SA) else (BitVec.ofInt 32 x, 0)

/-- `vsel` (R91): a where the predicate is true, b elsewhere. -/
def execVsel (m : BitVec 1) (p : BitVec 3) (d a b : BitVec 6) (n : BitVec 3) (s : State) : Out :=
  laneWord (.vsel m p d a b n) d.toNat
    (fun g l => if (g.p n.toNat).getLsbD l then g.v a.toNat l else g.v b.toNat l) s

/-- `vset` (R92). -/
def execVset (m : BitVec 1) (p : BitVec 3) (c n : BitVec 3) (a b : BitVec 6) (t : BitVec 3) (s : State) : Out :=
  predWord (.vset m p c n a b t) n.toNat
    (fun g l => condition c.toNat (decide (laneInt t.toNat (g.v a.toNat l) < laneInt t.toNat (g.v b.toNat l)))
      (decide (g.v a.toNat l = g.v b.toNat l))) s

/-- `vset` with an immediate (R92), widened after `hint.imm` (R44). -/
def execVsetImm (m : BitVec 1) (p : BitVec 3) (c n : BitVec 3) (a : BitVec 6) (i : BitVec 8) (t : BitVec 1) (s : State) : Out :=
  issueLanes (.vsetImm m p c n a i t) s fun g u m =>
    let y := imm8 u.hint (decide (t.toNat = 1)) i
    g.setP n.toNat m (maskOf fun l =>
      condition c.toNat (decide (laneInt t.toNat (g.v a.toNat l) < laneInt t.toNat y)) (decide (g.v a.toNat l = y)))

/-- `pand` (R93). -/
def execPand (m : BitVec 1) (p : BitVec 3) (d a b : BitVec 3) (s : State) : Out :=
  predWord (.pand m p d a b) d.toNat (fun g l => (g.p a.toNat).getLsbD l && (g.p b.toNat).getLsbD l) s

/-- `por` (R93). -/
def execPor (m : BitVec 1) (p : BitVec 3) (d a b : BitVec 3) (s : State) : Out :=
  predWord (.por m p d a b) d.toNat (fun g l => (g.p a.toNat).getLsbD l || (g.p b.toNat).getLsbD l) s

/-- `pxor` (R93). -/
def execPxor (m : BitVec 1) (p : BitVec 3) (d a b : BitVec 3) (s : State) : Out :=
  predWord (.pxor m p d a b) d.toNat (fun g l => (g.p a.toNat).getLsbD l != (g.p b.toNat).getLsbD l) s

/-- `pnot` (R93). -/
def execPnot (m : BitVec 1) (p : BitVec 3) (d a : BitVec 3) (s : State) : Out :=
  predWord (.pnot m p d a) d.toNat (fun g l => !(g.p a.toNat).getLsbD l) s

/-- `vmov` (R94). -/
def execVmov (m : BitVec 1) (p : BitVec 3) (d a : BitVec 6) (s : State) : Out :=
  laneWord (.vmov m p d a) d.toNat (fun g l => g.v a.toNat l) s

/-- `vbcast` (R94): the low word of a scalar. -/
def execVbcast (m : BitVec 1) (p : BitVec 3) (d : BitVec 6) (a : BitVec 5) (s : State) : Out :=
  laneWord (.vbcast m p d a) d.toNat (fun g _ => (g.s a.toNat).setWidth 32) s

/-- `vlane` (R74, R94): the current lane number. -/
def execVlane (m : BitVec 1) (p : BitVec 3) (d : BitVec 6) (s : State) : Out :=
  laneWord (.vlane m p d) d.toNat (fun _ l => BitVec.ofNat 32 l) s

/-- `vrand` (R58, R94): the generator advances, and the lane receives its new state. -/
def execVrand (m : BitVec 1) (p : BitVec 3) (d : BitVec 6) (s : State) : Out :=
  issueLanes (.vrand m p d) s fun g _ m =>
    (lanesOf m).foldl (fun g' l => (g'.setGen l (genNext (g.gen l))).setV d.toNat l (genNext (g.gen l))) g

/-- `vmov` with an immediate (R94), widened after `hint.imm` (R44). -/
def execVmovImm (m : BitVec 1) (p : BitVec 3) (d : BitVec 6) (i : BitVec 8) (s : State) : Out :=
  issueLanes (.vmovImm m p d i) s fun g u m =>
    g.setVs d.toNat ((lanesOf m).map fun l => (l, imm8 u.hint false i))

end Sys2Proof.Machine
end

