-- ==== Sys2Proof/Machine/VecFloat.lean ====
section
/-!
DEFINITION. Vector floating-point instructions and special functions (R95 to R99).
-/

namespace Sys2Proof.Machine

/-- The elements of a lane's register, or register pair, in a format, element 0 first (R53). -/
def laneElems (g : Group) (code f l : Nat) : List Nat :=
  let w := formatWidth code
  if w = 64 then [(g.v64 f l).toNat]
  else (List.range (32 / w)).map fun j => (g.v f l).toNat / 2 ^ (w * j) % 2 ^ w

/-- Elements packed into one number, element 0 lowest (R53). -/
def packElems (w : Nat) (xs : List Nat) : Nat := xs.foldr (fun x acc => x + 2 ^ w * acc) 0

/-- The elements of a lane written into a register or a pair (R53). -/
def setElems (g : Group) (code f l : Nat) (xs : List Nat) : Group :=
  let v := packElems (formatWidth code) xs
  if formatWidth code = 64 then (g.setV f l (BitVec.ofNat 32 v)).setV (f + 1) l (BitVec.ofNat 32 (v / 2 ^ 32))
  else g.setV f l (BitVec.ofNat 32 v)

/-- How an instruction rounds: destination format, mode, saturation and flush (R54 to R57). -/
structure Rounding where
  mode : Mode
  sat  : Bool
  ftz  : Bool

/-- The rounding in force for a unit's word (R45, R57). -/
def roundingOf (u : GUnit) : Rounding :=
  { mode := modeInForce u.fmt u.hint, sat := satInForce u.fmt u.hint, ftz := fmtFtz u.fmt }

/-- Exact results rounded in ascending element order, the lane's generator advancing with each in mode `rs` (R57, R58). -/
def roundElems (code : Nat) (r : Rounding) : Word32 → List (ExactNum × BitVec 6) → List Nat × BitVec 6 × Word32
  | gen, [] => ([], 0, gen)
  | gen, (v, fl) :: rest =>
    let x := roundTo code r.mode r.sat r.ftz gen v
    let (xs, fls, gen) := roundElems code r x.gen rest
    (x.raw :: xs, fl ||| x.flags ||| fls, gen)

/-- A word that rounds one result per element of each active lane (R71, R95). -/
def floatWord (i : Instr) (d code : Nat) (f : Group → Rounding → Nat → List (ExactNum × BitVec 6)) (s : State) : Out :=
  issueLanes i s fun g u m =>
    let r := roundingOf u
    (lanesOf m).foldl (fun g' l =>
      let (xs, fl, gen) := roundElems code r (g.gen l) (f g r l)
      ((setElems g' code d l xs).setGen l gen).raise fl) g

/-- The numbers that a lane's elements hold. -/
def laneNums (g : Group) (code : Nat) (ftz : Bool) (f l : Nat) : List ExactNum := (laneElems g code f l).map (unpack code ftz)

/-- A two-operand float word (R96). -/
def float2 (i : Instr) (d a b : BitVec 6) (t : BitVec 3) (op : Mode → ExactNum → ExactNum → ExactNum × BitVec 6) (s : State) : Out :=
  floatWord i d.toNat t.toNat (fun g r l =>
    ((laneNums g t.toNat r.ftz a.toNat l).zip (laneNums g t.toNat r.ftz b.toNat l)).map fun x => op r.mode x.1 x.2) s

/-- `vfadd` (R96). -/
def execVfadd (m : BitVec 1) (p : BitVec 3) (d a b : BitVec 6) (t : BitVec 3) (s : State) : Out :=
  float2 (.vfadd m p d a b t) d a b t addNum s

/-- `vfsub` (R96). -/
def execVfsub (m : BitVec 1) (p : BitVec 3) (d a b : BitVec 6) (t : BitVec 3) (s : State) : Out :=
  float2 (.vfsub m p d a b t) d a b t (fun md x y => addNum md x (negate y)) s

/-- `vfmul` (R96). -/
def execVfmul (m : BitVec 1) (p : BitVec 3) (d a b : BitVec 6) (t : BitVec 3) (s : State) : Out :=
  float2 (.vfmul m p d a b t) d a b t (fun _ x y => mulNum x y) s

/-- `vfma` (R37, R96): field d holds the first operand and the destination, fields a and b the others. -/
def execVfma (m : BitVec 1) (p : BitVec 3) (d a b : BitVec 6) (t : BitVec 3) (s : State) : Out :=
  floatWord (.vfma m p d a b t) d.toNat t.toNat (fun g r l =>
    ((laneNums g t.toNat r.ftz d.toNat l).zip
      ((laneNums g t.toNat r.ftz a.toNat l).zip (laneNums g t.toNat r.ftz b.toNat l))).map fun x =>
        fmaNum r.mode x.1 x.2.1 x.2.2) s

/-- The smaller (or larger) of two numbers; a NaN gives the other operand with NV, two give NaN (R97). -/
def minMax (larger : Bool) (x y : ExactNum) : ExactNum × BitVec 6 :=
  match x, y with
  | .nan, y => (y, NV)
  | x, .nan => (x, NV)
  | x, y => (if lessOrSame x y = larger then y else x, 0)

/-- A word whose result is one of its operands, so that nothing is rounded (R97). -/
def pickWord (i : Instr) (d a b : BitVec 6) (t : BitVec 3) (larger : Bool) (s : State) : Out :=
  issueLanes i s fun g u m =>
    (lanesOf m).foldl (fun g' l =>
      let rs := ((laneNums g t.toNat (fmtFtz u.fmt) a.toNat l).zip (laneNums g t.toNat (fmtFtz u.fmt) b.toNat l)).map fun x =>
        minMax larger x.1 x.2
      (setElems g' t.toNat d.toNat l (rs.map fun r => (roundFloat t.toNat .rn false false 0 r.1).1)).raise
        (rs.foldl (fun fl r => fl ||| r.2) 0)) g

/-- `vfmin` (R97). -/
def execVfmin (m : BitVec 1) (p : BitVec 3) (d a b : BitVec 6) (t : BitVec 3) (s : State) : Out :=
  pickWord (.vfmin m p d a b t) d a b t false s

/-- `vfmax` (R97). -/
def execVfmax (m : BitVec 1) (p : BitVec 3) (d a b : BitVec 6) (t : BitVec 3) (s : State) : Out :=
  pickWord (.vfmax m p d a b t) d a b t true s

/-- A float condition of R38 between two numbers, and its NV (R98). -/
def floatCondition (c : Nat) (x y : ExactNum) : Bool × BitVec 6 :=
  match cmpNum x y with
  | some o => (if c = 6 then false else condition c (decide (o = .lt)) (decide (o = .eq)), 0)
  | none => (decide (c = 6) || decide (c = 1), if 2 ≤ c ∧ c ≤ 5 then NV else 0)

/-- `vfset` (R98): for packed types, true only when the condition holds for every element. -/
def execVfset (m : BitVec 1) (p : BitVec 3) (c n : BitVec 3) (a b : BitVec 6) (t : BitVec 3) (s : State) : Out :=
  issueLanes (.vfset m p c n a b t) s fun g u m =>
    let res := fun l =>
      ((laneNums g t.toNat (fmtFtz u.fmt) a.toNat l).zip (laneNums g t.toNat (fmtFtz u.fmt) b.toNat l)).map fun x =>
        floatCondition c.toNat x.1 x.2
    (g.setP n.toNat m (maskOf fun l => (res l).all (·.1))).raise
      ((lanesOf m).foldl (fun fl l => (res l).foldl (fun fl r => fl ||| r.2) fl) 0)

/-- A one-operand float word rounded in the FMT mode (R99). -/
def specialWord (i : Instr) (d a : BitVec 6) (t : BitVec 3) (f : ExactNum → ExactNum × BitVec 6) (s : State) : Out :=
  floatWord i d.toNat t.toNat (fun g r l => (laneNums g t.toNat r.ftz a.toNat l).map f) s

/-- `vfrcp` (R99): 1 / a. -/
def execVfrcp (m : BitVec 1) (p : BitVec 3) (d a : BitVec 6) (t : BitVec 3) (s : State) : Out :=
  specialWord (.vfrcp m p d a t) d a t recip s

/-- `vfrsq` (R99): 1 / √a. -/
def execVfrsq (m : BitVec 1) (p : BitVec 3) (d a : BitVec 6) (t : BitVec 3) (s : State) : Out :=
  specialWord (.vfrsq m p d a t) d a t rsqrtNum s

/-- `vfsqrt` (R99): √a. -/
def execVfsqrt (m : BitVec 1) (p : BitVec 3) (d a : BitVec 6) (t : BitVec 3) (s : State) : Out :=
  specialWord (.vfsqrt m p d a t) d a t sqrtNum s

/-- `vfex2` (R99): 2^a. -/
def execVfex2 (m : BitVec 1) (p : BitVec 3) (d a : BitVec 6) (t : BitVec 3) (s : State) : Out :=
  specialWord (.vfex2 m p d a t) d a t exp2Num s

/-- `vflg2` (R99): log₂ a. -/
def execVflg2 (m : BitVec 1) (p : BitVec 3) (d a : BitVec 6) (t : BitVec 3) (s : State) : Out :=
  specialWord (.vflg2 m p d a t) d a t log2Num s

/-- `vfsin` (R99): sin(π a). -/
def execVfsin (m : BitVec 1) (p : BitVec 3) (d a : BitVec 6) (t : BitVec 3) (s : State) : Out :=
  specialWord (.vfsin m p d a t) d a t sinNum s

/-- `vfcos` (R99): cos(π a). -/
def execVfcos (m : BitVec 1) (p : BitVec 3) (d a : BitVec 6) (t : BitVec 3) (s : State) : Out :=
  specialWord (.vfcos m p d a t) d a t cosNum s

end Sys2Proof.Machine
end

