-- ==== Sys2Proof/Machine/Convert.lean ====
section
/-!
DEFINITION. Conversions, block quantisation and the 2-bit codebook (R59 to R64, R100 to R106).
-/

namespace Sys2Proof.Machine

/-- The elements of a lane in a register group: element j at bit j × w of the group, lowest register first (R101). -/
def groupElems (g : Group) (f l n code e : Nat) : List Nat :=
  let w := formatWidth code
  let big := packElems 32 ((List.range n).map fun r => (g.v (f + r) l).toNat)
  (List.range e).map fun j => big / 2 ^ (w * j) % 2 ^ w

/-- A register group of a lane written with elements (R101). -/
def setGroupElems (g : Group) (f l n code : Nat) (xs : List Nat) : Group :=
  let big := packElems (formatWidth code) xs
  (List.range n).foldl (fun g r => g.setV (f + r) l (BitVec.ofNat 32 (big / 2 ^ (32 * r)))) g

/-- An integer value converted to an integer format: clamped to its range with SA, whatever SAT holds (R102). -/
def clampInt (dst : Nat) (v : Int) : Nat × BitVec 6 :=
  let w := formatWidth dst
  let lo : Int := if isSigned dst then -(2 ^ (w - 1)) else 0
  let hi : Int := if isSigned dst then 2 ^ (w - 1) - 1 else 2 ^ w - 1
  let c := if v < lo then lo else if hi < v then hi else v
  ((c % 2 ^ w).toNat, if c = v then 0 else SA)

/-- The integer that an element of an integer format stands for (R51). -/
def intElem (code raw : Nat) : Int :=
  if isSigned code then signedOf (formatWidth code) raw else ((raw % 2 ^ formatWidth code : Nat) : Int)

/-- `vcvt` (R102). -/
def execVcvt (m : BitVec 1) (p : BitVec 3) (d a : BitVec 6) (u v : BitVec 4) (s : State) : Out :=
  issueLanes (.vcvt m p d a u v) s fun g un ms =>
    let dst := u.toNat
    let src := v.toNat
    let e := elementsPerLane (formatWidth src) (formatWidth dst)
    let r := roundingOf un
    (lanesOf ms).foldl (fun g' l =>
      let xs := groupElems g a.toNat l (groupSize (formatWidth src) (formatWidth dst)) src e
      let (ys, fl, gen) :=
        if isFloat src || isFloat dst then
          roundElems dst r (g.gen l) (xs.map fun x => (unpack src r.ftz x, 0))
        else
          let cs := xs.map fun x => clampInt dst (intElem src x)
          (cs.map (·.1), cs.foldl (fun f c => f ||| c.2) 0, g.gen l)
      ((setGroupElems g' d.toNat l (groupSize (formatWidth dst) (formatWidth src)) dst ys).setGen l gen).raise fl) g

/-! ### Quantisation -/

/-- E(x) = ⌊log₂ |x|⌋ of a non-zero finite number (R61). -/
def binade (v : ExactNum) : Option Int :=
  match v with
  | .fin _ man exp _ => if man = 0 then none else some (exp + man.log2)
  | _ => none

/-- The running range of E in a block (R61). -/
def widen (r : Option (Int × Int)) (e : Option Int) : Option (Int × Int) :=
  match r, e with
  | none, some x => some (x, x)
  | some (lo, hi), some x => some (min lo x, max hi x)
  | r, none => r

/-- Where the blocks of a row begin: the bit of each element (R60, R61). -/
def blockStarts (scm qth : Nat) : Nat → Nat → Option (Int × Int) → List ExactNum → List Bool
  | _, _, _, [] => []
  | i, start, r, x :: rest =>
    let len := i - start
    let e := binade x
    let wide := match r, e with
      | some (lo, hi), some y => decide ((qth : Int) < max hi y - min lo y)
      | _, _ => false
    let cut :=
      match scm with
      | 0 => false
      | 1 => decide (i ≠ 0) && decide (i % 32 = 0)
      | _ => decide (len = 256) || (decide (8 ≤ len) && wide)
    if cut then true :: blockStarts scm qth (i + 1) i (widen none e) rest
    else decide (i = start) :: blockStarts scm qth (i + 1) start (widen r e) rest

/-- Binades between 1 and a destination's largest magnitude (R62). -/
def emax (dst : Nat) : Int :=
  match dst with
  | 4 => 8 | 5 => 15 | 6 => 2 | 9 => 2 | 7 => 6 | _ => 7

/-- The scale byte of a block from its largest E; 127 without a finite non-zero element (R62). -/
def scaleByte (dst : Nat) (top : Option Int) : Nat :=
  match top with
  | none => 127
  | some e => (max 0 (min 254 (e - emax dst + 127))).toNat

/-- The larger of two binades, where none is the identity. -/
def topOf (a b : Option Int) : Option Int :=
  match a, b with
  | some x, some y => some (max x y)
  | some x, none => some x
  | none, b => b

/-- The scale byte of each element's block, from the row's end: answers the bytes and, for the element that stands first, the largest E
of the rest of its block (R62). -/
def blockScales (dst : Nat) (scm : Nat) : List (ExactNum × Bool) → List (Option Int)
  | [] => []
  | (x, _) :: rest =>
    let later := blockScales dst scm rest
    let more := match rest, later with
      | (_, false) :: _, t :: _ => t
      | _, _ => none
    topOf (binade x) more :: later

/-- The scale byte of every element of a row: the byte of the block it lies in (R62). -/
def rowScales (dst scm : Nat) (row : List (ExactNum × Bool)) : List Nat :=
  let tops := blockScales dst scm row
  ((row.zip tops).foldl (fun (acc : List Nat × Nat) x =>
    let sc := if x.1.2 then (if scm = 0 then 127 else scaleByte dst x.2) else acc.2
    (acc.1 ++ [sc], sc)) ([], 127)).1

/-- A number divided by 2^(byte − 127) (R59, R62). -/
def unscale (byte : Nat) (v : ExactNum) : ExactNum :=
  match v with
  | .fin n man exp st => .fin n man (exp - ((byte : Int) - 127)) st
  | v => v

/-- A number times the scale of a byte; NaN for 0xFF (R59). -/
def rescale (byte : Nat) (v : ExactNum) : ExactNum :=
  if byte = 255 then .nan
  else match v with
    | .fin n man exp st => .fin n man (exp + ((byte : Int) - 127)) st
    | v => v

/-- The scale word of a lane (R104). -/
def scaleWord (starts : List Bool) (scales : List Nat) : Word32 :=
  let sc0 := scales.headD 127
  let sc1 := (((starts.zip scales).drop 1).find? fun x => x.1).map (·.2)
  let bnd := (starts.zipIdx.map fun x => if x.1 then 2 ^ x.2 else 0).foldl (· + ·) 0
  BitVec.ofNat 32 (bnd * 2 ^ 16 + sc1.getD sc0 * 2 ^ 8 + sc0)

/-- The format fault of a value (R66, R103). -/
def formatFault (v : Word) (u : GUnit) : TrapInfo := { cause := 10, tval := v, tstat := 0, tlane := u.mask }

/-- `vquant` (R103, R104). -/
def execVquant (m : BitVec 1) (p : BitVec 3) (d a : BitVec 6) (u : BitVec 4) (s : State) : Out :=
  issue (.vquant m p d a u) s fun s g un =>
    let ms := activeMask g un p.toNat
    let src := fmtB un.fmt
    if ms = 0 then .ok s g un
    else if 3 < src ∨ fmtScm un.fmt = 3 then .trap (formatFault un.fmt un)
    else
      let dst := u.toNat
      let e := elementsPerLane (formatWidth src) (formatWidth dst)
      let n := groupSize (formatWidth src) (formatWidth dst)
      let r := roundingOf un
      let nums := (lanesOf ms).flatMap fun l => (groupElems g a.toNat l n src e).map (unpack src r.ftz)
      let starts := blockStarts (fmtScm un.fmt) (fmtQth un.fmt) 0 0 none nums
      let scales := rowScales dst (fmtScm un.fmt) (nums.zip starts)
      let g1 := (lanesOf ms).zipIdx.foldl (fun (g' : Group) (li : Nat × Nat) =>
        let xs := (nums.drop (e * li.2)).take e
        let scs := (scales.drop (e * li.2)).take e
        let sts := (starts.drop (e * li.2)).take e
        let (ys, fl, gen) := roundElems dst r (g.gen li.1) ((xs.zip scs).map fun x => (unscale x.2 x.1, 0))
        (((setGroupElems g' d.toNat li.1 1 dst ys).setV (d.toNat + 1) li.1 (scaleWord sts scs)).setGen li.1 gen).raise fl) g
      .ok s g1 un

/-- `vdq` (R105). -/
def execVdq (m : BitVec 1) (p : BitVec 3) (d a : BitVec 6) (u : BitVec 4) (s : State) : Out :=
  issue (.vdq m p d a u) s fun s g un =>
    let ms := activeMask g un p.toNat
    let dst := fmtB un.fmt
    if ms = 0 then .ok s g un
    else if 3 < dst then .trap (formatFault un.fmt un)
    else
      let src := u.toNat
      let e := elementsPerLane (formatWidth src) (formatWidth dst)
      let r := roundingOf un
      let g1 := (lanesOf ms).foldl (fun (g' : Group) l =>
        let w := (g.v (a.toNat + 1) l).toNat
        let xs := (groupElems g a.toNat l 1 src e).zipIdx.map fun x =>
          let second := (List.range x.2).any fun k => (w / 2 ^ (17 + k)) % 2 = 1
          (rescale (if second then w / 2 ^ 8 % 256 else w % 256) (unpack src r.ftz x.1), 0)
        let (ys, fl, gen) := roundElems dst r (g.gen l) xs
        ((setGroupElems g' d.toNat l (groupSize (formatWidth dst) (formatWidth src)) dst ys).setGen l gen).raise fl) g
      .ok s g1 un

/-! ### The 2-bit codebook -/

/-- The reset value of shape-table entry n (R64). -/
def shapeReset (n : Nat) : Word32 :=
  BitVec.ofNat 32 (packElems 4 ((List.range 8).map fun j => n * (2 * j + 1) / 16 % 16))

/-- Entry n of shape table t, from the entries that differ from the reset table (R64). -/
def shapeEntry (x : Sparse Word32) (t n : Nat) : Word32 := sget (shapeReset n) x (512 * t + n)

/-- The shape tables of a context (R64). -/
def State.shapesOf (s : State) (asid : Nat) : Sparse Word32 := ((s.context? asid).map (·.shapes)).getD []

/-- Weight j of a CB2 index: its sign and its magnitude in eighths (R63). -/
def cb2Weight (x : Sparse Word32) (t idx j : Nat) : Bool × Nat :=
  let sign := idx % 128
  let neg := if j < 7 then decide (sign / 2 ^ j % 2 = 1)
    else decide ((List.range 7).foldl (fun n k => n + sign / 2 ^ k % 2) 0 % 2 = 1)
  (neg, (shapeEntry x t (idx / 128)).toNat / 2 ^ (4 * j) % 16)

/-- `vcbdec` (R106). -/
def execVcbdec (m : BitVec 1) (p : BitVec 3) (d a : BitVec 6) (s : State) : Out :=
  let ctx := fun (g : Group) => s.shapesOf (s.accessor g).asid
  issueLanes (.vcbdec m p d a) s fun g un ms =>
    (lanesOf ms).foldl (fun g' l =>
      let v := (g.v a.toNat l).toNat
      let ws := (List.range 16).map fun k =>
        let (neg, mag) := cb2Weight (ctx g) (fmtCbt un.fmt) (v / 2 ^ (16 * (k / 8)) % 2 ^ 16) (k % 8)
        (roundFloat 4 .rn false false 0 (.fin neg mag (-3) false)).1
      setGroupElems g' d.toNat l 4 4 ws) g

end Sys2Proof.Machine
end

