-- ==== Sys2Proof/Machine/Sequencer.lean ====
section
/-!
DEFINITION. What the sequencers do between words: taking records (R128), combining values (R132, R198), releasing barriers (R173),
delivering faults of contexts (R193), waking (R135, R244, R246), and retiring a block (R137).
-/

namespace Sys2Proof.Machine

/-! ### Taking a record -/

/-- Whether a group waits for a record: every unit has completed the segment (R126, R129). -/
def Group.waitsRecord (g : Group) : Bool := !g.trap.tmode && g.draining.isNone && !g.units.isEmpty && g.units.all unitDone

/-- A unit at a Joint word completes it (R167, R198). -/
def joinDone (u : GUnit) : GUnit := if u.wait = .joint then backEdge { u with wait := .ready } else u

/-- A sender's part of a Joint word is over: it completes the word (R198). -/
def State.releaseSender (s : State) (p : Party) : State :=
  match p with
  | .group gid =>
    match s.group? gid with
    | some g => s.putBack { g with units := g.units.map joinDone }
    | none => s
  | .context cid =>
    match s.ctx? cid with
    | some x =>
      match x.state, x.joint with
      | .sending, some (i, pc) => s.ctxNext x pc (some i)
      | _, _ => s
    | none => s

/-- A group takes the record at the head of its queue (R126, R128): an old number is discarded, a wrong number or a reserved field
raises the sequencer-state fault, END ends the group. -/
def State.groupTakes (s : State) (g : Group) (r : BitVec 512) (rest : List (BitVec 512)) : State :=
  match seqTest (recordSeq r) g.nextSeq with
  | .old => s.setGroup { g with queue := rest }
  | t =>
    let lead := (g.units.head?.map (·.uid)).getD 0
    let mask := (g.units.head?.map (·.mask)).getD 0
    if decide (t = .wrong) || !recordOk r then
      s.takeTrap g.id lead { cause := 6, tval := (recordSeq r).setWidth 64, tstat := 0, tlane := mask } 0 false
    else if recordKind r = 1 then s.endGroup g.id
    else
      let start := fun (u : GUnit) => { u with pc := recordFirst r, wait := .ready, since := s.steps }
      let depth := (g.units.head?.map (·.depth)).getD 0
      let g := { g with queue := rest, nextSeq := g.nextSeq + 1, dvals := takeValues r g.dvals, units := g.units.map start,
                        segment := .upTo (recordFirst r) (recordLast r), baseDepth := depth }
      let (s, g) := match g.units with
        | u :: _ => s.traceValue g u 0 (r.extractLsb' 56 6).toNat (recordValues r)
        | [] => (s, g)
      s.setGroup (g.syncFor 5)

/-- An upper context takes the record at the head of its queue (R128, R214). -/
def State.ctxTakes (s : State) (c : Ctx) (r : BitVec 512) (rest : List (BitVec 512)) : State :=
  match seqTest (recordSeq r) c.nextSeq with
  | .old => s.setCtx { c with queue := rest }
  | t =>
    if decide (t = .wrong) || !recordOk r then
      let s := s.ctxFault c 6 ((recordSeq r).setWidth 64) 0
      match s.ctx? c.id with
      | some x => s.setCtx { x with state := .needRecord }
      | none => s
    else if recordKind r = 1 then
      let (s, c) := s.emitEnd { c with queue := rest }
      s.finishCtx c
    else
      s.setCtx { c with queue := rest, nextSeq := c.nextSeq + 1, dvals := takeValues r c.dvals, pc := recordFirst r,
                        start := recordFirst r, segment := .upTo (recordFirst r) (recordLast r), baseDepth := c.depth,
                        state := .scanning }

/-- Whether a context may take its next record: it waits for one, and to take END it needs room below (R128). -/
def State.ctxMayTake (s : State) (c : Ctx) : Bool :=
  !c.frozen && (match c.queue with
    | r :: _ => decide (c.state = .needRecord) && (decide (recordKind r ≠ 1) || c.links.isEmpty || s.room c)
    | [] => false)

/-- `TAKE_RECORD` (R128). -/
def execTakeRecord (p : Party) (s : State) : Out :=
  match p with
  | .group gid =>
    match s.group? gid with
    | none => .refused (.notEnabled "TAKE_RECORD")
    | some g =>
      match g.queue with
      | [] => .refused (.notEnabled "TAKE_RECORD")
      | r :: rest =>
        if !g.waitsRecord || !g.async.isEmpty then .refused (.notEnabled "TAKE_RECORD")
        else if g.units.any fun u => decide (u.wait = .joint) then .next (s.releaseSender p)
        else .next (s.groupTakes g r rest)
  | .context cid =>
    match s.ctx? cid with
    | none => .refused (.notEnabled "TAKE_RECORD")
    | some c =>
      match c.queue with
      | [] => .refused (.notEnabled "TAKE_RECORD")
      | r :: rest =>
        if s.ctxMayTake c then .next (s.ctxTakes c r rest) else .refused (.notEnabled "TAKE_RECORD")

/-! ### Combining -/

/-- Whether a receiver has performed its part of the Joint word at which a context stands (R124, R132). -/
def State.performed (s : State) (c : Ctx) (p : Party) : Bool :=
  (c.links.any fun l => decide (l.dest = p) && decide (l.behind = 0)) &&
    (match p with
      | .group gid => (match s.group? gid with
        | some g => g.waitsRecord && g.queue.isEmpty
        | none => false)
      | .context cid => (match s.ctx? cid with
        | some x => x.queue.isEmpty && !x.frozen && (decide (x.state = .sending) || decide (x.state = .needRecord))
        | none => false))

/-- What a receiver sends at a Joint word (R132, R135, R171). -/
def State.sends (s : State) (i : Instr) (p : Party) : Option (Word × Word) :=
  match p with
  | .group gid =>
    match s.group? gid, i with
    | some g, .up _ _ a _ _ => some (g.s a.toNat, 0)
    | some g, .suspend _ _ n _ => some (g.s n.toNat, g.s (n.toNat + 1))
    | _, _ => none
  | .context cid => (s.ctx? cid).bind fun x => x.sent.map fun v => (v, 0)

/-- The combination of the values sent (R132); none when `agree` finds two that differ. -/
def combine (mode : Nat) : List Word → Option Word
  | [] => some 0
  | v :: vs =>
    match mode with
    | 0 => if vs.all fun x => decide (x = v) then some v else none
    | 1 => some (vs.foldl (· + ·) v)
    | 2 => some (vs.foldl (fun m x => if x.slt m then x else m) v)
    | 3 => some (vs.foldl (fun m x => if m.slt x then x else m) v)
    | 4 => some (vs.foldl (· &&& ·) v)
    | _ => some (vs.foldl (· ||| ·) v)

/-- The senders of a context's Joint word, released (R198). -/
def State.releaseSenders (s : State) (c : Ctx) : State := c.parties.foldl (fun s p => s.releaseSender p) s

/-- A fault at a Joint word: the senders have completed their segments, the context freezes at the word (R133). -/
def State.jointFault (s : State) (c : Ctx) (cause : Nat) (tval : Word) (extra : Nat) : State :=
  (s.releaseSenders c).ctxFault { c with parties := [], got := [] } cause tval extra

/-- What the counter of `suspend.b` is at its place, for the block context (R174). -/
inductive CounterTest where
  | fault (cause extra : Nat)
  | miss
  /-- The counter, read at its home after the group's own stores have reached it (R135, R258). -/
  | value (s : State) (pl : Place) (v : Nat)

/-- The checks of R174 for the block context's test, in order, and the counter. -/
def State.counterTest (s : State) (c : Ctx) (va : Word) : CounterTest :=
  if va.toNat % 8 ≠ 0 then .fault 11 0
  else
    let b := (s.block? c.block).getD (noBlock c.block)
    match s.locate b va 8 with
    | .pad blk off => .value s (.pad blk off) (s.homeValue (.pad blk off) 8)
    | .nowhere => .fault 12 0
    | .nonCanonical => .fault 14 (bits (pageStat .read false) 3 0)
    | .translated _ =>
      match c.walkFault with
      | some (page, st) => if va.toNat / 4096 = page then .fault 14 (bits st 3 0) else .miss
      | none =>
        match s.translate b.asid va.toNat .read false with
        | none => .miss
        | some l =>
          if l.ord = 2 || l.ord = 3 then .fault 15 l.ord
          else
            match s.poisoned (leafAddr l va.toNat) with
            | some _ => .fault 17 0
            | none =>
              let s := s.expelPlace (s.blockAccessor b) (physPlace l va)
              .value s (physPlace l va) (s.homeValue (physPlace l va) 8)

/-- The block context's part of `suspend.b` (R135, R137, R174): it goes on at the target, or begins to retire its block. -/
def State.suspendBlock (s : State) (c : Ctx) (i : Instr) (pc target : Word) (vs : List (Word × Word)) : State :=
  match combine 0 (vs.map (·.1)), combine 0 (vs.map (·.2)) with
  | some va, some v =>
    if vs.isEmpty then (s.releaseSenders c).ctxNext c pc (some i)
    else if !c.inSegment target then s.jointFault c 4 (wordOf i) 0
    else
      match s.counterTest c va with
      | .fault cause extra => s.jointFault c cause va extra
      | .miss => (s.setCtx { c with walkFault := none }).ctxWalk c va .read
      | .value s pl x =>
        if v.toNat ≤ x then
          (s.releaseSenders c).setCtx { c with pc := target, start := target, state := .scanning, hint := none, joint := none,
                                               parties := [], got := [] }
        else s.setCtx { c with state := .retiring (placeSector pl) target false }
  | _, _ => s.jointFault c 5 (wordOf i) 0

/-- `UP_COMBINE` (R132, R133, R135, R198). -/
def execUpCombine (cid : Nat) (s : State) : Out :=
  match s.ctx? cid with
  | none => .refused (.notEnabled "UP_COMBINE")
  | some c =>
    match c.state, c.joint with
    | .atJoint, some (i, pc) =>
      if c.frozen || s.ctxWalking c || !(c.parties.all fun p => s.performed c p) then .refused (.notEnabled "UP_COMBINE")
      else if !codesOk c.hint c.scope 0 i || !hintOk c.hint i then .next (s.jointFault c 1 (wordOf i) 0)
      else
        let vs := c.got ++ c.parties.filterMap fun p => s.sends i p
        match i with
        | .up _ d _ _ y =>
          if vs.isEmpty then .next ((s.releaseSenders c).ctxNext { c with parties := [], got := [] } pc (some i))
          else
            (match combine y.toNat (vs.map (·.1)) with
              | some v => .next ((s.releaseSenders c).ctxNext { c.setR d.toNat v with parties := [], got := [] } pc (some i))
              | none => .next (s.jointFault c 5 (wordOf i) 0))
        | .suspend _ _ _ o => .next (s.suspendBlock c i pc (targetOf pc c.hint o) vs)
        | _ => .refused (.notEnabled "UP_COMBINE")
    | .badJoint w, _ =>
      if c.frozen || !(c.parties.all fun p => s.performed c p) then .refused (.notEnabled "UP_COMBINE")
      else .next (s.jointFault c 1 (BitVec.ofNat 64 w) 0)
    | _, _ => .refused (.notEnabled "UP_COMBINE")

/-! ### Barriers -/

/-- Whether a receiver has completed every record it was sent (R173): a group its segment, a context its scan, its emissions and its own
receivers theirs. -/
def State.completedBy : Nat → State → Party → Bool
  | 0, _, _ => false
  | fuel + 1, s, p =>
    match p with
    | .group gid => (match s.group? gid with
      | some g => g.queue.isEmpty && !g.units.isEmpty && (g.units.all fun u => decide (u.wait = .segmentDone))
      | none => true)
    | .context cid => (match s.ctx? cid with
      | some x => decide (x.state = .finished) ||
          (x.queue.isEmpty && decide (x.state = .needRecord) &&
            (x.links.all fun l => decide (l.behind = 0) && State.completedBy fuel s l.dest))
      | none => true)

/-- Whether every live receiver of a context has completed what was emitted (R173, R447). -/
def State.allCompleted (s : State) (c : Ctx) : Bool :=
  c.links.all fun l => decide (l.behind = 0) && s.completedBy 3 l.dest

/-- `BARRIER_RELEASE` (R173). -/
def execBarrierRelease (cid : Nat) (s : State) : Out :=
  match s.ctx? cid with
  | none => .refused (.notEnabled "BARRIER_RELEASE")
  | some c =>
    match c.state, c.joint with
    | .atBar, some (i, pc) =>
      if c.frozen || !s.allCompleted c then .refused (.notEnabled "BARRIER_RELEASE") else .next (s.ctxNext c pc (some i))
    | _, _ => .refused (.notEnabled "BARRIER_RELEASE")

/-! ### Faults of contexts -/

/-- The live non-free groups of a block in ascending index (R193). -/
def State.members (s : State) (block : Nat) : List Group :=
  sortBy Group.index (s.groups.filter fun g => decide (g.block = block) && !g.free)

/-- The group that reports for a cluster-scope context: the leader of the live block of lowest index among its receivers (R193). -/
def State.reporterOf3 (s : State) (c : Ctx) : Option Group :=
  let bs := sortBy Block.index (s.blocks.filter fun b => b.onCore && c.links.any fun l => (match l.dest with
    | .context x => decide ((s.ctx? x).map (·.block) = some b.id)
    | .group _ => false))
  bs.findSome? fun b => (s.members b.id).head?

/-- The group that reports a context's fault (R193). -/
def State.reporterOf (s : State) (c : Ctx) : Option Group :=
  if c.scope = 2 then (s.members c.block).head?
  else if c.scope = 3 then s.reporterOf3 c
  else
    let cs := sortBy Ctx.rank (s.ctxs.filter fun x => decide (x.grid = c.grid) && decide (x.scope = 3))
    cs.findSome? fun x => s.reporterOf3 x

/-- Whether a unit may issue beside the regions of its group: while one is open only the unit that opened it issues (R157). -/
def Group.regionLets (g : Group) (u : GUnit) : Bool := u.region.isSome || !g.active.any fun x => x.region.isSome

/-- Whether a group is at an instruction boundary where it may take a request: not in trap mode, and no unit about to issue the second word
of a pair (R191). A unit that waits at that word has issued none of the pair's effect: it is saved at the hint (R43). -/
def Group.atBoundary (g : Group) : Bool :=
  !g.trap.tmode && g.draining.isNone && !g.units.isEmpty &&
    g.units.all fun u => decide (u.hint = none) || decide (u.wait ≠ .ready) || !g.regionLets u

/-- `UPPER_CONTEXT_FAULT_DELIVERY` (R193). -/
def execUpperContextFaultDelivery (cid : Nat) (s : State) : Out :=
  match s.ctx? cid with
  | none => .refused (.notEnabled "UPPER_CONTEXT_FAULT_DELIVERY")
  | some c =>
    match c.fault, c.reporter, s.reporterOf c with
    | some t, none, some g =>
      if g.atBoundary then
        let uid := (g.units.head?.map (·.uid)).getD 0
        .next ((s.setCtx { c with reporter := some g.id }).takeTrap g.id uid t 0 false)
      else .refused (.notEnabled "UPPER_CONTEXT_FAULT_DELIVERY")
    | _, _, _ => .refused (.notEnabled "UPPER_CONTEXT_FAULT_DELIVERY")

/-! ### Waking -/

/-- A unit whose watch has fired becomes ready (R136, R244). -/
def State.wakeUnit (s : State) (w : Watch) : State :=
  match s.group? w.group with
  | none => s
  | some g =>
    match g.unit? w.unit with
    | none => s
    | some u =>
      let wakes := match u.wait with
        | .suspended sec => decide (sec = w.sector)
        | .layer sec => decide (sec = w.sector)
        | _ => false
      if wakes then
        let g := g.setUnit { u with wait := .ready, since := s.steps }
        if g.trap.tmode then s.setGroup g else s.putBack g
      else s

/-- A pool's entry pushed (R339). -/
def State.poolPut (s : State) (cl prio : Nat) (e : PoolEntry) : State :=
  let c := s.cluster cl
  s.setCluster { c with pool := c.pool ++ [(prio, e)] }

/-- An entry that had to wait enters its pool: a tail launch at the head, ahead of every other launch and resume entry (R359). -/
def State.poolEnter (s : State) (cl prio : Nat) (e : PoolEntry) : State :=
  match e with
  | .launch _ _ (some _) =>
    let c := s.cluster cl
    s.setCluster { c with pool := (prio, e) :: c.pool }
  | _ => s.poolPut cl prio e

/-- Entries of one priority in a cluster's pool (R339). -/
def State.poolCount (s : State) (cl prio : Nat) : Nat := ((s.cluster cl).pool.filter fun e => decide (e.1 = prio)).length

/-- The resume entry of a woken block enters the pool of the cluster on which it retired, when the pool has room and it is not there
(R137, R333). -/
def State.queueResume (s : State) (b : Block) : State :=
  match b.state with
  | .retired _ _ true =>
    let cl := clusterOfCore b.core
    let prio := ((s.grid? b.grid).map (·.prio)).getD 0
    if (s.cluster cl).pool.any fun e => decide (e.2 = .resume b.id) then s
    else if s.poolCount cl prio < Config.poolEntries then s.poolPut cl prio (.resume b.id)
    else s
  | _ => s

/-- Entries that wait for room in a cluster's pool, put there in order while it has room (R347). -/
def State.queueWaiting (s : State) (cl : Nat) : State :=
  (s.cluster cl).waiting.foldl (fun s e =>
    if s.poolCount cl e.1 < Config.poolEntries then
      let s := s.poolEnter cl e.1 e.2
      let c := s.cluster cl
      s.setCluster { c with waiting := c.waiting.erase e }
    else s) s

/-- An entry pushed by a decrement or for a tail launch, which stalls nobody: it waits where the pool is full (R339, R347). -/
def State.poolOffer (s : State) (cl prio : Nat) (e : PoolEntry) : State :=
  if s.poolCount cl prio < Config.poolEntries then s.poolEnter cl prio e
  else
    let c := s.cluster cl
    s.setCluster { c with waiting := c.waiting ++ [(prio, e)] }

/-- The entries that wait for room, and the resume entries of woken blocks that are not in their pools yet. -/
def State.queueResumes (s : State) : State :=
  let s := s.clusters.foldl (fun s c => s.queueWaiting c.num) s
  s.blocks.foldl (fun s b => s.queueResume b) s

/-- Everything that waits on a sector that satisfies a test, woken (R135, R137, R244). -/
def State.wake (s : State) (p : Nat → Bool) : State :=
  let fired := s.cores.flatMap fun c => c.watches.filter fun w => p w.sector
  let s := { s with cores := s.cores.map fun (c : Core) => { c with watches := c.watches.filter fun w => !p w.sector } }
  let s := fired.foldl (fun s w => s.wakeUnit w) s
  let wakeBlock := fun (b : Block) => match b.state with
    | .retired sec slot _ => if p sec then { b with state := .retired sec slot true } else b
    | _ => b
  let wakeCtx := fun (c : Ctx) => match c.state with
    | .retiring sec target _ => if p sec then { c with state := .retiring sec target true } else c
    | _ => c
  { s with blocks := s.blocks.map wakeBlock, ctxs := s.ctxs.map wakeCtx }.queueResumes

/-- `WATCHED_SECTOR_WRITE` (R244, R245). -/
def execWatchedSectorWrite (sector : Nat) (s : State) : Out := .next (s.wake fun x => decide (x = sector))

/-- `WATCH_ENTRY_GRANT` (R246): the unit that has waited longest issues its word again, and makes its test and its arming as
one action. -/
def execWatchEntryGrant (core : Nat) (s : State) : Out :=
  let c := s.core core
  match c.watchQueue with
  | [] => .refused (.notEnabled "WATCH_ENTRY_GRANT")
  | (gid, uid) :: rest =>
    if Config.watchEntries ≤ c.watches.length || decide (s.sel ≠ none) then .refused (.notEnabled "WATCH_ENTRY_GRANT")
    else
      match (s.group? gid).bind fun g => (g.unit? uid).map fun u => (g, u) with
      | none => .next (s.setCore { c with watchQueue := rest })
      | some (g, u) =>
        match u.wait with
        | .watchEntry _ => .next { s.setGroup (g.setUnit { u with wait := .ready, since := s.steps }) with sel := some (.unit gid uid) }
        | _ => .next (s.setCore { c with watchQueue := rest })

/-! ### Retiring a block -/

/-- A group as its block's suspension slot keeps it (R137): no vector contents, no accumulator window, no loop or call. -/
def retainGroup (g : Group) : Group :=
  { g with
    vregs := []
    acbase := 0
    aclim := 0
    units := g.units.map fun u => { u with loops := [], stack := [], entry := none, wait := .segmentDone }
    baseDepth := 0
    recon := []
    trap := { g.trap with tscr := Vector.replicate 4 0 } }

/-- The lowest free suspension slot of a partition (R137). -/
def State.freeSlot (s : State) (part : Nat) : Option Nat :=
  match s.partition? part with
  | some p =>
    if s.areaRoom part 18 then (List.range p.suspSlots).find? fun i => !(s.slotsUsed part).contains i else none
  | none => none

/-- Whether a block may retire now (R137): every group has completed its segment and drained, it has no free group, and a slot is free. -/
def State.mayRetire (s : State) (b : Block) (c : Ctx) : Option Nat :=
  let gs := s.groups.filter fun g => decide (g.block = b.id)
  if !c.frozen && gs.all fun g => !g.free && g.waitsRecord && decide (s.outstanding g = 0) && !(s.atomics.any fun x => decide (x.group = g.id)) then
    (s.grid? b.grid).bind fun k => s.freeSlot k.partition
  else none

/-- A block written to a suspension slot, its core freed (R137). -/
def State.retireBlock (s : State) (b : Block) (c : Ctx) (sector slot : Nat) (target : Word) (woken : Bool) : State :=
  let s := s.releaseSenders c
  let gids := (s.members b.id).map (·.id)
  let s := gids.foldl (fun s g => (s.completeWrites g).completeTiles g) s
  let b := (s.block? b.id).getD b
  let woken := match (s.ctx? c.id).map (·.state) with
    | some (.retiring _ _ w) => w
    | _ => woken
  let gs := s.members b.id
  let s := gs.foldl (fun s g => (s.dropWatches g).dropGroup g.id) s
  let s := s.setBlock { b with state := .retired sector slot woken, saved := gs.map retainGroup, pad := [], acc := [], acRows := b.acResv }
  let s := s.setCtx { c with pc := target, start := target, state := .retired, hint := none, joint := none, parties := [], got := [] }
  (s.freeCore b.core).queueResumes

/-- `BLOCK_RETIRE` (R137). -/
def execBlockRetire (bid : Nat) (s : State) : Out :=
  match s.block? bid, s.ctxs.find? fun c => decide (c.scope = 2) && decide (c.block = bid) with
  | some b, some c =>
    match c.state with
    | .retiring sector target woken =>
      (match s.mayRetire b c with
        | some slot => .next (s.retireBlock b c sector slot target woken)
        | none => .refused (.notEnabled "BLOCK_RETIRE"))
    | _ => .refused (.notEnabled "BLOCK_RETIRE")
  | _, _ => .refused (.notEnabled "BLOCK_RETIRE")

end Sys2Proof.Machine
end

