-- ==== Sys2Proof/Machine/Diverge.lean ====
section
/-!
DEFINITION. Reconvergence, exit, mask regions and `regroup` (R152, R155, R157 to R160).
-/

namespace Sys2Proof.Machine

/-- Whether the units parked on an entry, with the last of its lanes arrived, would fuse at a word whose back edge leaves the segment (R126, R152). -/
def fusesOut (g : Group) (e : Nat) : Bool :=
  match g.recon? e, sortUnits (g.units.filter fun u => decide (u.wait = .arrived) && decide (u.entry = some e)) with
  | some r, lead :: _ => decide (r.arr = r.join) && backOut g lead
  | _, _ => false

/-- `rcv` (R152): the unit arrives at its innermost entry when the depth matches, and parks; else nothing happens. -/
def execRcv (m : BitVec 1) (s : State) : Out :=
  issue (.rcv m) s fun s g u =>
    if u.region.isSome then .ok s g u
    else
      match u.entry.bind fun e => (g.recon? e).map fun r => (e, r) with
      | some (e, r) =>
        if r.depth = u.depth then
          let g' := (g.setRecon e { r with arr := r.arr ||| u.mask }).setUnit
            { u with wait := .arrived, hint := none, skipBp := false, unfinished := none }
          if fusesOut g' e then .trap (scopeFault (.rcv m) u) else .regrouped s g' none
        else .ok s g u
      | none => .ok s g u

/-- The lanes of a mask leave every reconvergence entry (R155). -/
def dropLanes (g : Group) (m : Mask) : Group :=
  let drop := fun (r : Nat × Recon) => (r.1, { r.2 with join := r.2.join &&& ~~~m, arr := r.2.arr &&& ~~~m })
  { g with recon := g.recon.map drop }

/-- `exit` (R123, R155): the unit ends; the group ends when no lane remains. DESIGN CHOICE: RGMAP, which only creation and `regroup` write, keeps
the entries of the lanes that have exited (R160). -/
def execExit (m : BitVec 1) (s : State) : Out :=
  issueWith State.endGroup (.exit m) s fun s g u =>
    if u.region.isSome then .trap (scopeFault (.exit m) u)
    else
      let g := dropLanes { g with units := g.units.filter (fun x => decide (x.uid ≠ u.uid)), live := g.live &&& ~~~u.mask } u.mask
      if g.live = 0 then .ended s g else .regrouped s g none

/-- `mask.all` (R157, R189). -/
def execMaskAll (m : BitVec 1) (s : State) : Out :=
  issue (.maskAll m) s fun s g u =>
    if g.trap.tmode then .trap (scopeFault (.maskAll m) u)
    else if u.region.isSome then .trap (stackFault (.maskAll m) u)
    else .ok s g { u with region := some u.mask }

/-- `mask.rest` (R157, R189). -/
def execMaskRest (m : BitVec 1) (s : State) : Out :=
  issue (.maskRest m) s fun s g u =>
    if g.trap.tmode then .trap (scopeFault (.maskRest m) u)
    else
      match u.region with
      | none => .trap (stackFault (.maskRest m) u)
      | some saved => .ok s g { u with mask := saved, region := none }

/-! ### Regroup -/

/-- `regroup` at issue (R158): a group that its operand does not name, or that names an index its block never held, goes on with 0;
the others drain and arrive. -/
def execRegroup (m : BitVec 1) (d a : BitVec 5) (s : State) : Out :=
  issue (.regroup m d a) s fun s g u =>
    let i := Instr.regroup m d a
    let v := g.s a.toNat
    if g.trap.tmode || g.free || decide (1 < g.units.length) || !g.recon.isEmpty || u.region.isSome then .trap (scopeFault i u)
    else if !v.getLsbD g.index || decide (v.setWidth 32 &&& ~~~(s.blockOf g).held ≠ 0) then
      let (s, g) := s.traceValue g u 5 0 [0]
      .ok s (g.setS d.toNat 0) u
    else
      let (s, g) := s.endOwnStreams g
      if s.outstanding g ≠ 0 then .wait s g { u with wait := .stall 22 }
      else .wait s g { u with wait := .regrouping i v }

/-- The unit of a group that has arrived at `regroup`, with its operand. -/
def Group.regroupUnit (g : Group) : Option (GUnit × Instr × Word) :=
  match g.units with
  | [u] => (match u.wait with
    | .regrouping i v => some (u, i, v)
    | _ => none)
  | _ => none

/-- The participants of a group's `regroup`, in ascending index, when every named group has arrived or ended (R158). -/
def State.regroupParty (s : State) (g : Group) : Option (List Group) :=
  match g.regroupUnit with
  | none => none
  | some (_, _, v) =>
    let ps := sortBy Group.index (s.groups.filter fun x => decide (x.block = g.block) && v.getLsbD x.index && decide (x.index < 32))
    if ps.all fun x => x.regroupUnit.isSome && !x.trap.tmode && x.draining.isNone then some ps else none

/-- What the participants must agree on (R158). -/
structure RegroupKey where
  value : Word
  pc : Word
  depth : Nat
  width : Nat
  vwin : Nat
  valloc : Nat
  role : Nat
  fmt : Word
deriving DecidableEq, Repr

/-- What a participant brings (R158). -/
def regroupKey (g : Group) : Option RegroupKey :=
  g.regroupUnit.map fun x =>
    { value := x.2.2, pc := x.1.pc, depth := x.1.depth, width := g.width, vwin := g.vwin, valloc := g.valloc, role := g.role,
      fmt := x.1.fmt }

/-- The live lanes of some groups, in ascending order of group index and then of lane (R159). -/
def liveLanes (ps : List Group) : List (Group × Nat) := ps.flatMap fun g => (lanesOf g.live).map fun l => (g, l)

/-- The map registers of lanes that came from given groups and lanes (R160). -/
def mapOf (src : List (Option (Nat × Nat))) : Vector Word 6 :=
  Vector.ofFn fun n : Fin 6 => (List.range 6).foldl (fun w k =>
    let j := 6 * n.val + k
    if j < 32 then
      let f := match src.getD j none with
        | some (gi, l) => gi % 32 * 32 + l
        | none => 0x3FF
      w ||| place f (10 * k)
    else w) 0

/-- A participant that receives some lanes, lane j from the j-th source (R159). What the generator of an empty position holds is
open. DESIGN CHOICE: the registers of an empty position are 0 and its predicates false. -/
def receiveLanes (draws : Nat) (g : Group) (src : List (Group × Nat)) (fflg : BitVec 6) : Group :=
  let regs := (List.range g.valloc).flatMap fun r => src.zipIdx.map fun x => (r, x.2, x.1.1.vreg r x.1.2)
  let vregs := regs.foldl (fun m x => sset 0 m (32 * x.1 + x.2.1) x.2.2) ([] : Sparse Word32)
  let preds := Vector.ofFn fun p : Fin 8 => maskOfLanes (src.zipIdx.filterMap fun x =>
    if p.val ≠ 0 && (x.1.1.p p.val).getLsbD x.1.2 then some x.2 else none)
  let gens := src.zipIdx.foldl (fun v x => v.setIfInBounds x.2 (x.1.1.gen x.1.2)) 
    (Vector.ofFn fun l : Fin 32 => (Config.freeWord (draws + l.val)).setWidth 32)
  let live := maskOfLanes ((List.range src.length))
  { g with vregs := vregs, preds := preds, gens := gens, live := live, fflg := fflg,
           rgmap := mapOf (src.map fun x => some (x.1.index, x.2)) }

/-- A participant after `regroup`: with its new lanes at the next word, or ended (R159). -/
def State.regroupOne (s : State) (old : Group) (src : List (Group × Nat)) (fflg : BitVec 6) : State :=
  match old.regroupUnit with
  | none => s
  | some (u, i, _) =>
    match src with
    | [] => s.endGroup old.id
    | _ :: _ =>
      let moved := !decide (src.map (fun x => (x.1.id, x.2)) = (lanesOf old.live).map fun l => (old.id, l))
      let g := receiveLanes s.draws old src fflg
      let s := { s with draws := s.draws + 32 }
      let d := match i with
        | .regroup _ d _ => d.toNat
        | _ => 0
      let n := BitVec.ofNat 64 src.length
      let (s, g) := s.traceValue g u 5 0 [n]
      let g := g.setS d n
      let g := if moved then g.syncFor 4 else g
      let scheds := (s.core g.core).scheds
      let s := s.completeWord i old { u with wait := .ready } g { u with wait := .ready, mask := g.live, since := s.steps } true
      s.setCore { s.core g.core with scheds := scheds }

/-- The receivers of a `regroup` whose back edge leaves the segment (R126, R167): of the participants in ascending index, those that get lanes. -/
def regroupOut (ps : List Group) : List (Group × GUnit × Instr) :=
  (ps.zipIdx.filter fun x => decide (x.2 * x.1.width < (liveLanes ps).length)).filterMap fun x =>
    x.1.regroupUnit.bind fun y => if backOut x.1 y.1 then some (x.1, y.1, y.2.1) else none

/-- `REGROUP_COMPLETE` (R158 to R160). A participant that may not take its back edge faults, and the others wait on. -/
def execRegroupComplete (gid : Nat) (s : State) : Out :=
  match s.group? gid with
  | none => .refused (.notEnabled "REGROUP_COMPLETE")
  | some g =>
    match s.regroupParty g with
    | none => .refused (.notEnabled "REGROUP_COMPLETE")
    | some ps =>
      if ps.all fun x => decide (regroupKey x = regroupKey g) then
        if !(regroupOut ps).isEmpty then
          .next ((regroupOut ps).foldl (fun s x => s.takeTrap x.1.id x.2.1.uid (scopeFault x.2.2 x.2.1) 0 false) s)
        else
        let s := ps.foldl (fun s x => s.completeWrites x.id) s
        let ps := ps.map fun x => (s.group? x.id).getD x
        let lanes := liveLanes ps
        let fflg := ps.foldl (fun f x => f ||| x.fflg) 0
        .next (ps.zipIdx.foldl (fun s x => s.regroupOne x.1 ((lanes.drop (x.2 * g.width)).take g.width) fflg) s)
      else
        .next (ps.foldl (fun s x => match x.regroupUnit with
          | some (u, i, _) => s.takeTrap x.id u.uid (wordFault 5 i u) 0 false
          | none => s) s)

end Sys2Proof.Machine
end

