-- ==== Sys2Proof/Machine/Create.lean ====
section
/-!
DEFINITION. Slots, gangs and register room on a core (R144), and the creation of a group (R23, R58, R123, R160, R332).
-/

namespace Sys2Proof.Machine

/-- Where a group sits: its slot, and the first slice of its gang within the slot's scheduler (R144). -/
structure Seat where
  slot : Nat
  gang : Nat
deriving DecidableEq, Repr

/-- Chunks taken in every slice of a core, at index 16 × scheduler + slice (R144). -/
abbrev Load := List Nat

/-- Some chunks added to every slice of a gang of n slices. -/
def addLoad (ld : Load) (sched gang n chunks : Nat) : Load :=
  ld.zipIdx.map fun x => if 16 * sched + gang ≤ x.2 && decide (x.2 < 16 * sched + gang + n) then x.1 + chunks else x.1

/-- Chunks free in every lane position of a gang. -/
def gangRoom (ld : Load) (sched gang n : Nat) : Nat :=
  Config.chunksPerLane - (((List.range n).map fun i => ld.getD (16 * sched + gang + i) 0).foldl max 0)

/-- The gangs of some seats of n slices, each once, with a pool of no chunks (R144). -/
def gangsOf (xs : List Seat) (n : Nat) : List PoolShare :=
  (xs.map fun x => ({ sched := x.slot % 4, gang := x.gang, slices := n, chunks := 0 } : PoolShare)).eraseDups

/-- The place, in a list of shares with the chunks for which each still has room, of the one that takes the next chunk: of those with room, the one
that holds the fewest, the first on a tie. -/
def nextShare (xs : List (PoolShare × Nat)) : Option Nat :=
  (xs.zipIdx.foldl (fun best x =>
    if x.1.2 = 0 then best
    else
      match best with
      | some b => if x.1.1.chunks < b.1 then some (x.1.1.chunks, x.2) else best
      | none => some (x.1.1.chunks, x.2)) (none : Option (Nat × Nat))).map (·.2)

/-- Chunks dealt out to the shares of a pool one by one, and those that fit nowhere. -/
def deal : Nat → List (PoolShare × Nat) → List (PoolShare × Nat) × Nat
  | 0, xs => (xs, 0)
  | n + 1, xs =>
    match nextShare xs with
    | none => (xs, n + 1)
    | some k => deal n (xs.modify k fun x => ({ x.1 with chunks := x.1.chunks + 1 }, x.2 - 1))

/-- The rest of a block's register reserve laid into the lane positions of its gangs, when it fits (R144). DESIGN CHOICE: each chunk goes to the gang
with room that holds the fewest. -/
def spread (ld : Load) (shares : List PoolShare) (rest : Nat) : Option (List PoolShare) :=
  let r := deal rest (shares.map fun x => (x, gangRoom ld x.sched x.gang x.slices))
  if r.2 = 0 then some (r.1.map (·.1)) else none

/-- The groups of a block on its core. -/
def State.groupsOf (s : State) (block : Nat) : List Group := s.groups.filter fun g => decide (g.block = block)

/-- The load of a core: the allotments of its groups and the reserves of its blocks (R140, R144). -/
def State.coreLoad (s : State) (core : Nat) : Load :=
  (s.blocks.filter fun b => b.onCore && decide (b.core = core)).foldl (fun ld b =>
    let ld := (s.groupsOf b.id).foldl (fun ld g => addLoad ld (g.slot % 4) g.gang (g.width / 4) g.chunks) ld
    b.regPool.foldl (fun ld x => addLoad ld x.sched x.gang x.slices x.chunks) ld) (List.replicate 64 0)

/-- Group slots of a core in use. -/
def State.slotsOf (s : State) (core : Nat) : List Nat := (s.groups.filter fun g => decide (g.core = core)).map (·.slot)

/-- The seat of a new group (R144): the lowest free slot whose scheduler has a gang with room, and the lowest such gang. -/
def findSeat (used : List Nat) (ld : Load) (n chunks : Nat) : Option Seat :=
  (List.range Config.groupSlots).findSome? fun slot =>
    if used.contains slot then none
    else
      ((List.range (Config.slicesPerSched / n)).find? fun k => decide (chunks ≤ gangRoom ld (slot % 4) (k * n) n)).map fun k =>
        { slot := slot, gang := k * n }

/-- The seats of a block's groups, in ascending index, on a core with some slots used and some load (R144). -/
def findSeats : List Nat → Load → Nat → List Nat → Option (List Seat × Load)
  | _, ld, _, [] => some ([], ld)
  | used, ld, n, chunks :: rest =>
    match findSeat used ld n chunks with
    | none => none
    | some x =>
      (findSeats (x.slot :: used) (addLoad ld (x.slot % 4) x.gang n chunks) n rest).map fun r => (x :: r.1, r.2)

/-- The mask of the first n lanes. -/
def firstLanes (n : Nat) : Mask := BitVec.ofNat 32 (2 ^ n - 1)

/-- The trap registers of a new group. DESIGN CHOICE: the spec gives no reset value of TCAUSE to TSCR3. -/
def newTrap (savea : Word) : TrapRegs :=
  { tmode := false, tcause := 0, tval := 0, tlane := 0, tstat := 0, tunit := 0, tscr := Vector.replicate 4 0, savea := savea }

/-- A new group of a block (R58, R123, R160, R180, R289, R332): its scalars but `s1` are zero, its predicates false, its registers
zero, its unit at the entry PC without a segment. -/
def newGroup (id : Nat) (b : Block) (index : Nat) (x : Seat) (width chunks vwin role : Nat) (savea entry : Word) (pid : BitVec 24)
    (thread : BitVec 16) (steps : Nat) : Group :=
  { id := id, core := b.core, slot := x.slot, gang := x.gang, width := width, block := b.id, index := index, free := false,
    sregs := (Vector.replicate 32 0).setIfInBounds 1 (BitVec.ofNat 64 index), pending := 0, unread := 0, tokFaults := [],
    vregs := [], chunks := chunks, vwin := vwin, preds := Vector.replicate 8 0, gens := Vector.ofFn fun l : Fin 32 => genReset l.val,
    live := firstLanes width, rgmap := mapOf ((List.range width).map fun l => some (index, l)), fflg := 0, role := role,
    acbase := 0, aclim := 0, qb := Vector.replicate 16 0, dvals := Vector.replicate 6 0, queue := [], nextSeq := 0,
    segment := .none, baseDepth := 0,
    units := [{ uid := 0, mask := firstLanes width, pc := entry, fmt := Config.fmtReset, loops := [], stack := [], entry := none,
                region := none, wait := .segmentDone, hint := none, unfinished := none, ordered := false, skipBp := false, since := steps }],
    nextUid := 1, recon := [], handler := none, trap := newTrap savea, doubleFault := false, halted := false, async := [], draining := none,
    replay := [], lastIssue := steps, pid := pid, thread := thread,
    trace := { syncDue := some 1, packets := 0, words := 0, lastUnit := none, issued := false } }

/-- A new group entered into the state, with its VALUE packet (R424). -/
def State.addGroup (s : State) (g : Group) : State :=
  let fmt := (g.units.head?.map (·.fmt)).getD 0
  let vs := [BitVec.ofNat 64 g.index, BitVec.ofNat 64 g.role, BitVec.ofNat 64 g.width, BitVec.ofNat 64 g.valloc, fmt]
  match g.units with
  | u :: _ =>
    let (s, g) := s.traceValue g u 7 0 vs
    s.setGroup g
  | [] => s.setGroup g

/-- SAVEA of group g of block i (R332). -/
def saveaOf (d : LaunchDesc) (i g : Nat) : Word := d.savebase + BitVec.ofNat 64 (i * (d.ngrp + 1) + g) * d.savestride

end Sys2Proof.Machine
end

