-- ==== Sys2Proof/Machine/Pool.lean ====
section
/-!
DEFINITION. The register pool, roles and spawn (R139 to R141, R175 to R178, R305).
-/

namespace Sys2Proof.Machine

/-- The register-pool fault (R141, R175, R177). -/
def poolFault (i : Instr) (u : GUnit) : TrapInfo := wordFault 8 i u

/-- Chunks appended to a group's allotment from its block's pool, zeroed (R140, R176). -/
def State.takeChunks (s : State) (g : Group) (n : Nat) : State × Group :=
  let b := s.blockOf g
  (s.setBlock (b.poolTake g n),
   { g with chunks := g.chunks + n, vregs := sdrop (fun k => decide (32 * g.valloc ≤ k)) g.vregs })

/-- The last chunks of a group's allotment returned to its block's pool, their contents lost (R140). -/
def State.returnChunks (s : State) (g : Group) (n : Nat) : State × Group :=
  let b := s.blockOf g
  (s.setBlock (b.poolGive g n),
   { g with chunks := g.chunks - n, vregs := sdrop (fun k => decide (32 * (g.valloc - 8 * n) ≤ k)) g.vregs })

/-- Whether a register write to the last n chunks of a group's allotment has not completed (R176). -/
def State.writesAbove (s : State) (g : Group) (n : Nat) : Bool :=
  s.writes.any fun w => decide (w.group = g.id) && (match w.vreg with
    | some (r, pair) => decide (g.valloc - 8 * n ≤ r + flag pair)
    | none => false)

/-- `claim` (R140, R176). -/
def execClaim (m : BitVec 1) (d a : BitVec 5) (s : State) : Out :=
  issue (.claim m d a) s fun s g u =>
    let n := (g.s a.toNat).toNat
    if s.streamUnread g then .stall 15
    else
      let ok := decide (n % 8 = 0) && decide (g.valloc + n ≤ 256) && decide (n / 8 ≤ (s.blockOf g).poolOf g)
      let (s, g) := s.traceValue g u 5 0 [BitVec.ofNat 64 (flag ok)]
      let (s, g) := if ok then s.takeChunks g (n / 8) else (s, g)
      .ok s (g.setS d.toNat (BitVec.ofNat 64 (flag ok))) u

/-- `giveback` (R140, R175, R176). -/
def execGiveback (m : BitVec 1) (a : BitVec 5) (s : State) : Out :=
  issue (.giveback m a) s fun s g u =>
    let n := (g.s a.toNat).toNat
    if n % 8 ≠ 0 || g.valloc < n then .trap (poolFault (.giveback m a) u)
    else if s.streamUnread g then .stall 15
    else if s.writesAbove g (n / 8) then .stall 1
    else
      let (s, g) := s.returnChunks g (n / 8)
      .ok s g u

/-- `vwin` (R175). -/
def execVwin (m : BitVec 1) (a : BitVec 5) (s : State) : Out :=
  issue (.vwin m a) s fun s g u =>
    let n := (g.s a.toNat).toNat
    if n % 8 ≠ 0 || 248 < n then .trap { wordFault 3 (.vwin m a) u with tlane := currentMask g u }
    else if s.streamUnread g then .stall 15
    else .ok s { g with vwin := n } u

/-- The launch descriptor of a group's grid. -/
def State.descOf (s : State) (g : Group) : Option LaunchDesc := (s.grid? (s.blockOf g).grid).map (·.desc)

/-- The role preset r of a group's block, when it is valid (R177, R332). -/
def State.roleOf (s : State) (g : Group) (r : Nat) : Option (Role × Word) :=
  match s.descOf g with
  | none => none
  | some d =>
    if 8 ≤ r then none
    else
      (d.roles[r]?).bind fun x => if x.valid then some (x, d.entry + BitVec.ofInt 64 (4 * x.entry)) else none

/-- `role` (R141, R177). -/
def execRole (m : BitVec 1) (a : BitVec 5) (s : State) : Out :=
  issue (.role m a) s fun s g u =>
    let i := Instr.role m a
    if g.trap.tmode || decide (1 < g.units.length) || !g.recon.isEmpty || u.region.isSome then .trap (scopeFault i u)
    else
      match s.roleOf g (g.s a.toNat).toNat with
      | none => .trap (poolFault i u)
      | some (x, target) =>
        if atBase g u && (match g.segment with
            | .upTo first last => !(decide (first ≤ target) && decide (target ≤ last))
            | _ => false) then .trap (scopeFault i u)
        else
          let (s, g) := s.endOwnStreams g
          if s.outstanding g ≠ 0 then .wait s g { u with wait := .stall 22 }
          else
            let finish := fun (sg : State × Group) =>
              Res.jump sg.1 { sg.2 with vwin := x.vwin, role := (g.s a.toNat).toNat } { u with pc := target }
            if g.valloc < x.valloc then
              if (s.blockOf g).poolOf g < (x.valloc - g.valloc) / 8 then .trap (poolFault i u)
              else finish (s.takeChunks g ((x.valloc - g.valloc) / 8))
            else if s.writesAbove g ((g.valloc - x.valloc) / 8) then .wait s g { u with wait := .stall 1 }
            else finish (s.returnChunks g ((g.valloc - x.valloc) / 8))

/-! ### Spawn -/

/-- The entry table of the kernel whose code a PC lies in: of the kernels of the context's images, the last whose start is at or below
the PC (R178, R445). -/
def kernelAt (x : Context) (pc : Word) : Option Kernel :=
  x.kernels.foldl (fun best k =>
    if k.start ≤ pc then
      (match best with
        | some b => if b.start ≤ k.start then some k else some b
        | none => some k)
    else best) none

/-- The seat of a spawned group of n slices (R144, R178): the lowest free slot whose scheduler has a gang of the block in which its pool holds the
allotment, and the lowest such gang. -/
def spawnSeat (used : List Nat) (shares : List PoolShare) (n chunks : Nat) : Option Seat :=
  (List.range Config.groupSlots).findSome? fun slot =>
    if used.contains slot then none
    else
      ((List.range (Config.slicesPerSched / n)).find? fun k => shares.any fun x =>
        decide (x.sched = slot % 4) && decide (x.gang = k * n) && decide (x.slices = n) && decide (chunks ≤ x.chunks)).map fun k =>
          { slot := slot, gang := k * n }

/-- Seats for some groups of n slices and one allotment each, and the pool without their allotments (R178). -/
def spawnSeats : Nat → List Nat → List PoolShare → Nat → Nat → Option (List Seat × List PoolShare)
  | 0, _, shares, _, _ => some ([], shares)
  | m + 1, used, shares, n, chunks =>
    match spawnSeat used shares n chunks with
    | none => none
    | some x =>
      let shares := shares.map fun y => if y.sched = x.slot % 4 && y.gang = x.gang then { y with chunks := y.chunks - chunks } else y
      (spawnSeats m (x.slot :: used) shares n chunks).map fun r => (x :: r.1, r.2)

/-- A free group of a spawner (R139, R178). -/
def spawned (g : Group) (h : Group) (ordinal : Nat) : Group :=
  let h := (h.setS 2 (g.s 1)).setS 3 (BitVec.ofNat 64 ordinal)
  { h with free := true, segment := .unbounded, units := h.units.map fun u => { u with wait := .ready } }

/-- The indices of n new groups of a block: those that no group has held first, then those of groups that have ended. -/
def State.newIndices (s : State) (b : Block) (n : Nat) : List Nat :=
  let live := (s.groupsOf b.id).map (·.index)
  let fresh := (List.range 32).filter fun i => !b.held.getLsbD i
  let old := (List.range 32).filter fun i => b.held.getLsbD i && !live.contains i
  (fresh ++ old).take n

/-- `spawn` (R139, R178). -/
def execSpawn (m : BitVec 1) (d a b : BitVec 5) (s : State) : Out :=
  issue (.spawn m d a b) s fun s g u =>
    let blk := s.blockOf g
    let e := (g.s a.toNat).toNat
    let n := (g.s b.toNat).toNat
    let entry := (s.context? blk.asid).bind fun x => (kernelAt x u.pc).bind fun k => (k.entries[e]?).bind id
    let answer := fun (s : State) (g : Group) (v : Word) =>
      let (s, g) := s.traceValue g u 5 0 [v]
      Res.ok s (g.setS d.toNat v) u
    match entry with
    | none => answer s g (place 1 63)
    | some pc =>
      if n = 0 || 32 < n then answer s g (place 1 63)
      else
        match spawnSeats n (s.slotsOf g.core) blk.regPool (g.width / 4) g.chunks with
        | none => answer s g 0
        | some (seats, shares) =>
          let desc := s.descOf g
          let savea := fun (i : Nat) => (desc.map fun x => saveaOf x blk.index i).getD 0
          let is := s.newIndices blk n
          let new := maskOfLanes is
          let s := s.setBlock { blk with regPool := shares, held := blk.held ||| new }
          let s := (seats.zip is).zipIdx.foldl (fun s x =>
            let (id, s) := s.fresh
            let i := x.1.2
            let h := newGroup id blk i x.1.1 g.width g.chunks 0 g.role (savea i) pc g.pid g.thread s.steps
            s.addGroup (spawned g h x.2)) s
          answer s g (new.setWidth 64)

end Sys2Proof.Machine
end

