-- ==== Sys2Proof/Machine/Tile.lean ====
section
/-!
DEFINITION. Tile transfers, cache maintenance, tensor descriptors and fallback scratchpad (R223 to R227, R229, R247 to R256).
-/

namespace Sys2Proof.Machine

/-! ### Descriptors and tiles -/

/-- Bits [hi:lo] of a descriptor (R226). -/
def descField (e : BitVec 512) (hi lo : Nat) : Nat := e.toNat / 2 ^ lo % 2 ^ (hi + 1 - lo)

/-- Element bits of a descriptor's format (R224). -/
def elementBits (code : Nat) : Nat := if code = 11 then 16 else formatWidth code

/-- Whether an image with VALID 1 meets the conditions of R226. -/
def descOk (e : BitVec 512) : Bool :=
  let b := elementBits (descField e 62 59)
  decide (descField e 62 59 ≤ 11) && decide (descField e 50 0 = 0) && decide (descField e 127 64 = 0) &&
    decide (descField e 191 184 = 0) && decide (descField e 132 128 = 0) &&
    decide (descField e 223 192 * b % 256 = 0) &&
    decide (1 ≤ descField e 255 224) && decide (1 ≤ descField e 287 256) && decide (1 ≤ descField e 319 288) &&
    decide (descField e 324 320 = 0) && decide (descField e 388 384 = 0) && decide (descField e 452 448 = 0)

/-- The valid descriptor of an id in an accessor's context (R226). -/
def State.descriptor (s : State) (asid id : Nat) : Option (BitVec 512) :=
  match s.context? asid with
  | some x => (match x.tensors.find? fun e => decide (e.1 = id) with
    | some e => if descField e.2 63 63 = 1 then some e.2 else none
    | none => none)
  | none => none

/-- A tile named by a register pair: id, the lines in transfer order (R247, R248), and its descriptor. -/
structure Tile where
  id    : Nat
  lines : List Line
  desc  : Option (BitVec 512)

/-- The rest of a name check: the tile, or the status 1 or 2 (R249, R250). `hi` and `lo` are `s`b+1 and `s`b. -/
def State.nameTile (s : State) (asid : Nat) (hi lo : Word) : Tile ⊕ Nat :=
  let id := bits hi 63 52
  if bits hi 51 49 ≠ 0 ∨ (id = 0 ∧ bits hi 47 0 ≠ 0) then .inr 2
  else if id = 0 then .inl { id := 0, lines := [linearLine lo.toNat], desc := none }
  else
    match s.descriptor asid id with
    | none => .inr 1
    | some e =>
      let rows := descField e 58 55 + 1
      let cols := descField e 54 51 + 1
      let at_ := fun (r c : Nat) =>
        { tid := id, t0 := bits lo 31 0 + c, t1 := bits lo 63 32 + r, t2 := bits hi 23 0, t3 := bits hi 47 24 : Line }
      .inl { id := id, lines := (List.range rows).flatMap fun r => (List.range cols).map fun c => at_ r c, desc := some e }

/-- The virtual address of row k of a line; none for an absent row (R224, R225). -/
def rowAddr (e : Option (BitVec 512)) (l : Line) (k : Nat) : Option Word :=
  match e with
  | none => some (BitVec.ofNat 64 (l.t0 * 256 + 32 * k))
  | some e =>
    let i1 := l.t1 * 8 + k
    if i1 < descField e 255 224 ∧ l.t2 < descField e 287 256 ∧ l.t3 < descField e 319 288 then
      some (e.extractLsb' 128 64 + BitVec.ofNat 64 (l.t0 * 32) + BitVec.ofNat 64 i1 * e.extractLsb' 320 64 +
        BitVec.ofNat 64 l.t2 * e.extractLsb' 384 64 + BitVec.ofNat 64 l.t3 * e.extractLsb' 448 64)
    else none

/-- The rows of a tile in scratchpad order, each with its line, its row there and its address (R248). -/
def tileRows (t : Tile) : List (Line × Nat × Option Word) :=
  t.lines.flatMap fun l => (List.range 8).map fun k => (l, k, rowAddr t.desc l k)

/-- The address of the first sector of a tile; 0 where the pair names none (R235). -/
def State.firstSector (s : State) (asid : Nat) (hi lo : Word) : Word :=
  match s.nameTile asid hi lo with
  | .inl t => ((tileRows t).findSome? (·.2.2)).getD 0
  | .inr _ => 0

/-- The word of ST alone (R250). -/
def statusWord (st : Nat) : Word := place st 60

/-- A tile operation put in flight, its status register pending (R249). -/
def State.launchTile (s : State) (g : Group) (d : Nat) (job : TileJob) : State × Group :=
  let (id, s) := s.fresh
  ({ s with tileOps := s.tileOps ++ [{ id := id, group := g.id, sreg := d, job := job }] }, g.pend d)

/-- Where one row of a tile leads. -/
inductive RowPlace where
  | absent
  | hit (r : SectorRef)
  | miss (va : Word)
  | badKind (va : Word)
  | nonCanonical (va : Word)
  /-- A local-window address, which holds no line (R221). -/
  | window (va : Word)
deriving DecidableEq, Repr

/-- The place of a tile's row (R249, check 6). -/
def State.rowPlace (s : State) (asid : Nat) (level1 : Bool) (c : Access) (l : Line) (k : Nat) (va : Option Word) : RowPlace :=
  match va with
  | none => .absent
  | some va =>
    if inWindows va then .window va
    else if bits va 63 56 ≠ 0 then .nonCanonical va
    else
      match s.translate asid va.toNat c level1 with
      | none => .miss va
      | some f =>
        if f.ord = 3 then .badKind va
        else .hit { line := l, row := k, vsec := va.toNat / 32, pa := leafAddr f va.toNat / 32 * 32, ord := f.ord, key := f.key }

/-- Whether an outstanding AtomicOp of a group comes before a transfer of some sectors (R258, R263). -/
def State.farBefore (s : State) (gid : Nat) (rows : List (Option SectorRef)) : Bool :=
  s.atomics.any fun x => decide (x.group = gid) && rows.any fun r => match r with
    | some r => x.before (.phys r.pa r.ord r.key 0) 32
    | none => false

/-- A tile transfer (R247 to R251). -/
def transferWord (i : Instr) (load : Bool) (d a b : BitVec 5) (k : BitVec 3) (o : BitVec 2) (s : State) : Out :=
  issue i s fun s g u =>
    let blk := s.blockOf g
    let lo := g.s b.toNat
    let hi := g.s (b.toNat + 1)
    let pad := g.s a.toNat
    let c : Access := if load then .read else .write
    if blk.timed then .trap (addrFault 13 (s.firstSector blk.asid hi lo) 0 u.mask)
    else
      let mis := (if pad.toNat % 32 ≠ 0 then [(0, pad)] else []) ++
        (if bits hi 63 52 = 0 ∧ lo.toNat % 256 ≠ 0 then [(0, lo)] else [])
      match laneFault 11 0 (some u.mask) mis with
      | some t => .trap t
      | none =>
        if bits hi 48 48 = 1 then .ok s (g.setS d.toNat (statusWord 2)) u
        else
          match s.nameTile blk.asid hi lo with
          | .inr st => .ok s (g.setS d.toNat (statusWord st)) u
          | .inl t =>
            let rows := tileRows t
            let addrs := (List.range rows.length).map fun r => (0, pad + BitVec.ofNat 64 (32 * r))
            let outside := addrs.filter fun x => match s.locate blk x.2 32 with
              | .pad _ _ => false
              | _ => true
            match laneFault 12 0 (some u.mask) outside with
            | some t => .trap t
            | none =>
              let places := rows.map fun r => s.rowPlace blk.asid g.level1 c r.1 r.2.1 r.2.2
              match (laneFault 12 0 (some u.mask) (places.filterMap fun p => match p with
                | .window va => some (0, va)
                | _ => none)).or <| laneFault 15 3 (some u.mask) (places.filterMap fun p => match p with
                | .badKind va => some (0, va)
                | _ => none) with
              | some t => .trap t
              | none =>
                let misses := places.filterMap fun p => match p with
                  | .miss va => some (0, va)
                  | _ => none
                let bad := places.filterMap fun p => match p with
                  | .nonCanonical va => some (0, va)
                  | _ => none
                if !misses.isEmpty || !bad.isEmpty then finishAccess s g u c (some u.mask) misses bad
                else
                  let refs := places.map fun p => match p with
                    | .hit r => some r
                    | _ => none
                  let strong := refs.any fun r => match r with
                    | some r => decide (r.ord = 0)
                    | none => false
                  match s.locate blk pad 32 with
                  | .pad pb po =>
                    let some_ := refs.any fun r => match r with
                      | some r => decide (r.ord ≠ 2)
                      | none => false
                    let scope := if o.toNat ≠ 0 ∧ some_ then some k.toNat else none
                    if s.transferAt g.id (.pad pb po) (32 * rows.length) || s.farBefore g.id refs then .stall 2
                    else if (s.accessor g).unconfirmed && (if load then decide (bits pad 63 48 = 0xFF01) else
                        decide (o.toNat = 2) || strong || !s.markRoom (s.accessor g) t.lines) then .stall 19
                    else
                      releasing s g u (if load then 0 else scope.getD 0) (
                        let (s, g) := s.launchTile g d.toNat (.transfer load scope pb po refs)
                        .ok s g u)
                  | _ => .ok s g u

/-- `tld` (R249). -/
def execTld (m : BitVec 1) (d a b : BitVec 5) (k : BitVec 3) (o : BitVec 2) (s : State) : Out :=
  transferWord (.tld m d a b k o) true d a b k o s

/-- `tst` (R249). -/
def execTst (m : BitVec 1) (d a b : BitVec 5) (k : BitVec 3) (o : BitVec 2) (s : State) : Out :=
  transferWord (.tst m d a b k o) false d a b k o s

/-- Cache maintenance (R252). -/
def maintainWord (i : Instr) (inval : Bool) (d b : BitVec 5) (k : BitVec 3) (s : State) : Out :=
  issue i s fun s g u =>
    let blk := s.blockOf g
    let lo := g.s b.toNat
    let hi := g.s (b.toNat + 1)
    let all := decide (bits hi 48 48 = 1)
    if blk.timed && decide (3 ≤ k.toNat) then
      .trap (addrFault 13 (if all then 0 else s.firstSector blk.asid hi lo) 0 u.mask)
    else
      match s.nameTile blk.asid hi lo with
      | .inr st => .ok s (g.setS d.toNat (statusWord st)) u
      | .inl t =>
        let (s, g) := s.launchTile g d.toNat (.maintain inval k.toNat t.id (if all then none else some t.lines))
        .ok s g u

/-- `tcln` (R252). -/
def execTcln (m : BitVec 1) (d b : BitVec 5) (k : BitVec 3) (s : State) : Out := maintainWord (.tcln m d b k) false d b k s

/-- `tinv` (R252). -/
def execTinv (m : BitVec 1) (d b : BitVec 5) (k : BitVec 3) (s : State) : Out := maintainWord (.tinv m d b k) true d b k s

/-- `tdesc` (R253): the image is read with plain loads of its two sectors. -/
def execTdesc (m : BitVec 1) (d a b : BitVec 5) (s : State) : Out :=
  issue (.tdesc m d a b) s fun s g u =>
    let va := g.s b.toNat
    withPlace s g u .read 64 false true va fun pl =>
      let pl1 := match pl with
        | .pad blk off => Place.pad blk (off + 32)
        | .phys pa ord key va => Place.phys (pa + 32) ord key (va + 32)
      match s.loadTraced g u va pl 32 with
      | (_, _, .inr code) => .trap (containedFault va code u.mask)
      | (s, g, .inl x) =>
        match s.loadTraced g u (va + 32) pl1 32 with
        | (_, _, .inr code) => .trap (containedFault (va + 32) code u.mask)
        | (s, g, .inl y) =>
          let image := BitVec.ofNat 512 (x + 2 ^ 256 * y)
          let e := g.s a.toNat
          if bits e 63 12 ≠ 0 then .ok s (g.setS d.toNat (statusWord 2)) u
          else if e = 0 then .ok s (g.setS d.toNat (statusWord 1)) u
          else if descField image 63 63 = 1 && !descOk image then .ok s (g.setS d.toNat (statusWord 3)) u
          else
            let (s, g) := s.launchTile g d.toNat (.describe e.toNat image)
            .ok s g u

/-! ### Completions -/

/-- Whether two transfers touch the same bytes through one view. -/
def sharesSector (rx ry : List (Option SectorRef)) : Bool :=
  rx.any fun a => match a with
    | some a => ry.any fun b => match b with
      | some b => decide (a.pa = b.pa) && decide (a.line.tid = b.line.tid)
      | none => false
    | none => false

/-- Whether some rows lie on a strongly ordered or release-consistent page. -/
def orderedRows (rows : List (Option SectorRef)) : Bool := rows.any fun r => match r with
  | some r => decide (r.ord ≠ 2)
  | none => false

/-- Whether an earlier job of a group is performed before a later one (R258, R260, R263): they touch the same bytes through one view, both lie on
strongly ordered pages, the earlier one acquires or the later one releases. -/
def jobBefore (x y : TileJob) : Bool :=
  match x, y with
  | .transfer lx kx _ _ rx, .transfer ly ky _ _ ry =>
    sharesSector rx ry || (TileJob.strong rx && TileJob.strong ry) || (lx && kx.isSome && orderedRows ry) || (!ly && ky.isSome && orderedRows rx)
  | _, _ => false

/-- Whether a tile operation may complete before the others of its group. -/
def State.tileFree (s : State) (op : TileOp) : Bool :=
  (s.tileOps.takeWhile fun o => decide (o.id ≠ op.id)).all fun o => decide (o.group ≠ op.group) || !jobBefore o.job op.job

/-- The completion of a tile operation of a kind. -/
def completeOp (name : String) (kind : TileJob → Bool) (op : Nat) (s : State) : Out :=
  match s.tileOps.find? fun o => decide (o.id = op) with
  | some o => if kind o.job && s.tileFree o then .next (s.completeTile o) else .refused (.notEnabled name)
  | none => .refused (.notEnabled name)

/-- TILE_TRANSFER_COMPLETE (R249). -/
def execTileTransferComplete (op : Nat) (s : State) : Out :=
  completeOp "TILE_TRANSFER_COMPLETE" (fun j => match j with
    | .transfer .. => true
    | _ => false) op s

/-- CACHE_MAINTENANCE_COMPLETE (R252). -/
def execCacheMaintenanceComplete (op : Nat) (s : State) : Out :=
  completeOp "CACHE_MAINTENANCE_COMPLETE" (fun j => match j with
    | .maintain .. => true
    | _ => false) op s

/-- TDESC_COMPLETE (R253). -/
def execTdescComplete (op : Nat) (s : State) : Out :=
  completeOp "TDESC_COMPLETE" (fun j => match j with
    | .describe .. => true
    | _ => false) op s

/-! ### Fallback scratchpad -/

/-- Whether a request of `spalloc` and `spfree` is valid in its operands (R254, R255). -/
def pinRangeOk (b : Block) (a n : Word) : Bool :=
  decide (a.toNat % 256 = 0) && decide (1 ≤ n.toNat) && decide (n.toNat ≤ 256) && decide (a.toNat + 256 * n.toNat ≤ 2 ^ 24) &&
    decide (b.carve = 0)

/-- Lines pinned one after another, unless one finds its set's 16 ways pinned. -/
def pinFits (taken : List (Nat × Nat)) : List (Nat × Nat) → Bool
  | [] => true
  | x :: rest => decide (taken.count x < 16) && pinFits (x :: taken) rest

/-- `spalloc` (R229, R254). -/
def execSpalloc (m : BitVec 1) (d a b : BitVec 5) (s : State) : Out :=
  issue (.spalloc m d a b) s fun s g u =>
    let blk := s.blockOf g
    let x := g.s a.toNat
    let n := g.s b.toNat
    let lines := (List.range (min n.toNat 256)).map fun j => x.toNat / 256 + j
    let (r, s) :=
      if !pinRangeOk blk x n || lines.any fun l => blk.pinned.contains l then ((2 : Word), s)
      else
        let fused := (s.cluster (clusterOfCore g.core)).fused
        if pinFits s.pinnedSets (lines.map fun l => pinSet fused g.core (cacheSets (s.core g.core).split) l) then
          (1, s.setBlock { blk with pinned := sortBy id (blk.pinned ++ lines),
                                    pad := sdrop (fun o => decide (x.toNat ≤ o) && decide (o < x.toNat + 256 * n.toNat)) blk.pad })
        else (0, s)
    let (s, g) := s.traceValue g u 5 0 [r]
    .ok s (g.setS d.toNat r) u

/-- Whether an outstanding tile transfer of a group touches a range of scratchpad (R255). -/
def State.transferInRange (s : State) (g : Group) (off n : Nat) : Bool := s.transferAt g.id (.pad g.block off) n

/-- `spfree` (R255). -/
def execSpfree (m : BitVec 1) (a b : BitVec 5) (s : State) : Out :=
  issue (.spfree m a b) s fun s g u =>
    let blk := s.blockOf g
    let x := (g.s a.toNat).toNat
    let n := (g.s b.toNat).toNat
    if !pinRangeOk blk (g.s a.toNat) (g.s b.toNat) then .ok s g u
    else if s.transferInRange g x (256 * n) then .stall 1
    else
      .ok (s.setBlock { blk with
        pinned := blk.pinned.filter (fun l => !(decide (x / 256 ≤ l) && decide (l < x / 256 + n))),
        pad := sdrop (fun o => decide (x ≤ o) && decide (o < x + 256 * n)) blk.pad }) g u

/-- How many consecutive lines are pinned from a line on. -/
def pinnedRun (p : List Nat) (l : Nat) : Nat → Nat
  | 0 => 0
  | fuel + 1 => if p.contains l then 1 + pinnedRun p (l + 1) fuel else 0

/-- The answer of `spnext` (R256). -/
def spnextAnswer (blk : Block) (x : Word) : Word :=
  if bits x 63 24 ≠ 0 ∨ x.toNat % 256 ≠ 0 then 2
  else if blk.carve ≠ 0 then ~~~0
  else
    match (sortBy id blk.pinned).find? fun l => decide (x.toNat / 256 ≤ l) with
    | none => ~~~0
    | some l => place (256 * l) 0 ||| place (pinnedRun blk.pinned l (blk.pinned.length + 1)) 32

/-- `spnext` (R256). -/
def execSpnext (m : BitVec 1) (d a : BitVec 5) (s : State) : Out :=
  issue (.spnext m d a) s fun s g u =>
    let r := spnextAnswer (s.blockOf g) (g.s a.toNat)
    let (s, g) := s.traceValue g u 5 0 [r]
    .ok s (g.setS d.toNat r) u

end Sys2Proof.Machine
end

