-- ==== Sys2Proof/Machine/Matrix.lean ====
section
/-!
DEFINITION. The matrix engine (R287 to R306): the tile-task record, its validation and acceptance, the tile scheduler, the four
task kinds, and the accumulator instructions.
-/

namespace Sys2Proof.Machine

/-! ### The record -/

/-- KIND of a tile task (R291). -/
def taskKind (rcd : List Word) : Nat := fieldOf rcd 0 63 60
/-- TOK. -/
def taskTok (rcd : List Word) : Nat := fieldOf rcd 0 56 52
/-- AFMT, BFMT and CFMT. -/
def taskA (rcd : List Word) : Nat := fieldOf rcd 0 41 38
/-- BFMT. -/
def taskB (rcd : List Word) : Nat := fieldOf rcd 0 37 34
/-- CFMT. -/
def taskC (rcd : List Word) : Nat := fieldOf rcd 0 33 30
/-- SCM. -/
def taskScm (rcd : List Word) : Nat := fieldOf rcd 0 24 23
/-- CBT. -/
def taskCbt (rcd : List Word) : Nat := fieldOf rcd 0 22 21
/-- K, the number of elements of a dense row. -/
def taskK (rcd : List Word) : Nat := fieldOf rcd 5 31 12

/-- Bits of an element of an operand: 2 for a weight of CB2 (R292). -/
def operandWidth (code : Nat) : Nat := if code = 11 then 2 else formatWidth code

/-- Operand A (n = 1) or B (n = 3) of a record, and the bits of one of its rows (R291, R292). -/
structure Operand where
  stream : Bool
  rp : Nat
  win : Bool
  rank : Nat
  off : Nat
  sp : Nat
  soff : Nat
  rot : Nat
  tp : Nat
  code : Nat
  rowBits : Nat
  /-- The operand is packed 2:4 (R299). -/
  packed : Bool

/-- The operand that stands in words n and n + 1. -/
def operandOf (rcd : List Word) (n : Nat) : Operand :=
  let code := if n = 1 then taskA rcd else taskB rcd
  let packed := decide (n = 1) && decide (taskKind rcd = 1)
  let stream := bit (wordAt rcd n) 63
  { stream := stream
    rp := if stream then 256 else fieldOf rcd n 47 32
    win := bit (wordAt rcd n) 30
    rank := fieldOf rcd n 29 24
    off := if stream then 0 else fieldOf rcd n 23 0
    sp := fieldOf rcd (n + 1) 63 48
    soff := fieldOf rcd (n + 1) 47 24
    rot := fieldOf rcd (n + 1) 18 16
    tp := if stream then 512 else fieldOf rcd (n + 1) 15 0
    code := code
    rowBits := taskK rcd * operandWidth code / (if packed then 2 else 1)
    packed := packed }

/-- Panels of 32 bytes in a row (R292). -/
def Operand.panels (o : Operand) : Nat := o.rowBits / 256

/-- Registers of a register stream of a group of W lanes: 512 bytes a panel, 4 W bytes a register (R292). -/
def Operand.streamRegs (o : Operand) (w : Nat) : Nat := (512 * o.panels + 4 * w - 1) / (4 * w)

/-- Rows that a task's result occupies (R287). -/
def rowsUsed (rcd : List Word) : Nat := if taskKind rcd = 3 || decide (taskC rcd = 0) then 32 else 16

/-! ### Windows and rows -/

/-- The window of a group: first row and the row beyond (R289). -/
def Group.window (g : Group) : Nat × Nat := (g.acbase.toNat, g.aclim.toNat)

/-- Whether two windows overlap. -/
def overlapping (x y : Nat × Nat) : Bool :=
  decide (x.1 < x.2) && decide (y.1 < y.2) && decide (x.1 < y.2) && decide (y.1 < x.2)

/-- Every accepted, incomplete task of a core (R294). -/
def Core.allTasks (c : Core) : List Task := c.tasks ++ c.engines.toList.filterMap id

/-- The windows of a block but for one group's: those of its other live groups, and those that ended groups keep until their last task
completes (R289, R305). -/
def State.otherWindows (s : State) (b : Block) (gid : Nat) : List (Nat × Nat) :=
  let live := s.groupsOf b.id
  ((live.filter fun g => decide (g.id ≠ gid)).map Group.window) ++
    (((s.core b.core).allTasks.filter fun t => decide (t.block = b.id) && !(live.any fun g => decide (g.id = t.group))).map (·.window))

/-- Whether a group's window keeps the rules of R289. -/
def State.windowOk (s : State) (b : Block) (g : Group) : Bool :=
  let w := g.window
  decide (w.1 % 16 = 0) && decide (w.2 % 16 = 0) && decide (w.1 ≤ w.2) && decide (w.2 ≤ b.acRows) &&
    !((s.otherWindows b g.id).any fun x => overlapping w x)

/-- Element e of a block's accumulator row (R287). -/
def accAt (b : Block) (row e : Nat) : Word32 := sget 0 b.acc (16 * row + e)

/-- A block with elements of its rows written: row, element, value. -/
def setAccs (b : Block) (xs : List (Nat × Nat × Word32)) : Block :=
  { b with acc := xs.foldl (fun m x => sset 0 m (16 * x.1 + x.2.1) x.2.2) b.acc }

/-! ### Validation -/

/-- Whether n bytes at an offset lie in the scratchpad that R221 allows. -/
def padRange (b : Block) (off n : Nat) : Bool :=
  if b.carve = 0 then
    decide (n = 0) || (List.range ((off + n - 1) / 256 + 1 - off / 256)).all fun i => b.pinned.contains (off / 256 + i)
  else decide (off + n ≤ b.carve)

/-- The block whose scratchpad a WIN and RANK name (R291). -/
def State.padOf (s : State) (b : Block) (win : Bool) (rank : Nat) : Option Block :=
  if win then (if rank < b.setSize then s.setMember b rank else none) else some b

/-- One bit of a block's scratchpad. -/
def padBit (b : Block) (off i : Nat) : Bool := (sget 0 b.pad (off + i / 8)).getLsbD (i % 8)

/-- Boundary bits of the first n elements of a row that are 1 (R60, R293). -/
def boundaries (b : Block) (off n : Nat) : Nat := ((List.range n).filter fun i => padBit b off i).length

/-- Whether the scale stream of an operand lies in the own block's scratchpad (R293). -/
def scalesOk (b : Block) (o : Operand) (scm k : Nat) : Bool :=
  (List.range 16).all fun i =>
    let at_ := o.soff + o.sp * i
    match scm with
    | 0 => true
    | 1 => padRange b at_ ((k + 31) / 32)
    | _ => padRange b at_ ((k + 7) / 8) && padRange b at_ ((k + 7) / 8 + boundaries b at_ k)

/-- Whether an operand's bytes lie in scratchpad (R292). -/
def State.operandOk (s : State) (b : Block) (o : Operand) : Bool :=
  if o.stream then true
  else match s.padOf b o.win o.rank with
    | none => false
    | some x => (List.range 16).all fun i => (List.range o.panels).all fun p =>
        padRange x (o.off + 32 * (i % 8) + o.rp * (i / 8) + o.tp * p) 32

/-- Whether the metadata of a packed operand lies in scratchpad (R293). -/
def State.metadataOk (s : State) (b : Block) (rcd : List Word) : Bool :=
  if taskKind rcd ≠ 1 then true
  else match s.padOf b (bit (wordAt rcd 6) 30) (fieldOf rcd 6 29 24) with
    | none => false
    | some x => (List.range 16).all fun i =>
        padRange x (fieldOf rcd 6 23 0 + fieldOf rcd 6 47 32 * i) ((taskK rcd / 4 + 1) / 2)

/-- Whether the reserved fields of an operand's words are zero (R291). -/
def operandFieldsOk (rcd : List Word) (n : Nat) : Bool :=
  let o := operandOf rcd n
  decide (fieldOf rcd n 62 48 = 0) && decide (fieldOf rcd n 31 31 = 0) && decide (fieldOf rcd (n + 1) 23 19 = 0) &&
    (o.win || decide (o.rank = 0)) &&
    (!o.stream || (decide (fieldOf rcd n 47 6 = 0) && decide (fieldOf rcd (n + 1) 18 0 = 0))) &&
    (decide (taskScm rcd ≠ 0) || (decide (o.sp = 0) && decide (o.soff = 0)))

/-- Code 8: reserved values and fields (R294). -/
def taskFieldsOk (rcd : List Word) : Bool :=
  decide (taskKind rcd ≤ 3) && decide (fieldOf rcd 0 29 27 ≤ 4) && decide (taskScm rcd ≠ 3) && decide (fieldOf rcd 0 57 57 = 0) &&
    decide (fieldOf rcd 0 15 0 = 0) && decide (fieldOf rcd 0 20 16 ≤ (if taskKind rcd = 3 then 15 else 0)) &&
    operandFieldsOk rcd 1 && operandFieldsOk rcd 3 && decide (fieldOf rcd 5 11 11 = 0) &&
    (decide (taskKind rcd = 3) || decide (fieldOf rcd 5 63 32 = 0)) && decide (wordAt rcd 7 = 0) &&
    (if taskKind rcd = 1 then
      decide (fieldOf rcd 6 63 48 = 0) && decide (fieldOf rcd 6 31 31 = 0) &&
        (bit (wordAt rcd 6) 30 || decide (fieldOf rcd 6 29 24 = 0))
     else decide (wordAt rcd 6 = 0))

/-- Code 9: formats (R294). -/
def taskFormatsOk (rcd : List Word) : Bool :=
  combinationOk (taskA rcd) (taskB rcd) (taskC rcd) &&
    (decide (taskKind rcd ≠ 1) ||
      (((decide (4 ≤ taskA rcd) && decide (taskA rcd ≤ 9)) || decide (taskA rcd = 11)) && !(operandOf rcd 1).stream)) &&
    (decide (taskKind rcd ≠ 3) || decide (taskC rcd = 1))

/-- Code 11: row lengths and alignment (R294). -/
def taskShapeOk (rcd : List Word) : Bool :=
  let whole := fun (o : Operand) =>
    decide (taskK rcd * operandWidth o.code % (if o.packed then 512 else 256) = 0) && decide (o.off % 32 = 0) &&
      decide (o.rp % 32 = 0) && decide (o.tp % 32 = 0)
  decide (taskK rcd ≠ 0) && whole (operandOf rcd 1) && whole (operandOf rcd 3)

/-- Register streams of a record: first allotment register and count, A before B (R292). -/
def streamsOf (g : Group) (rcd : List Word) : List (Nat × Nat) :=
  ([1, 3].filter fun n => (operandOf rcd n).stream).map fun n =>
    (g.vwin + fieldOf rcd n 5 0, (operandOf rcd n).streamRegs g.width)

/-- The validation of a record against a group: the ST code of its first failure (R294). -/
def State.validateTask (s : State) (g : Group) (rcd : List Word) : Option Nat :=
  let b := s.blockOf g
  let o1 := operandOf rcd 1
  let o3 := operandOf rcd 3
  if !taskFieldsOk rcd then some 8
  else if !taskFormatsOk rcd then some 9
  else if !(decide (fieldOf rcd 5 10 0 + rowsUsed rcd ≤ g.aclim.toNat - g.acbase.toNat) && s.windowOk b g) then some 10
  else if !taskShapeOk rcd then some 11
  else if !(s.operandOk b o1 && s.operandOk b o3 && scalesOk b o1 (taskScm rcd) (taskK rcd) &&
      scalesOk b o3 (taskScm rcd) (taskK rcd) && s.metadataOk b rcd) then some 12
  else if !((streamsOf g rcd).all fun r => decide (r.1 + r.2 ≤ g.valloc)) then some 13
  else none

/-! ### Acceptance -/

/-- What an engine answers to a push: accepted, or a stall with its reason, or a fault. -/
inductive Accept where
  | ok (s : State) (g : Group)
  | stall (reason : Nat)
  | fault (cause : Nat) (tval : Word)

/-- The number of the command, task or tile operation that is pending on a register of a group (R295). -/
def State.pendingOn (s : State) (g : Group) (r : Nat) : List Nat :=
  if !g.isPending r then []
  else
    let cl := s.cluster (clusterOfCore g.core)
    (((s.core g.core).allTasks.filter fun t => decide (t.group = g.id) && decide (taskTok t.record = r)).map (·.id)) ++
      (((cl.channels.flatMap (·.2)).filter fun c => decide (c.group = g.id) && decide (fieldOf c.record 0 53 49 = r)).map (·.id)) ++
      ((s.tileOps.filter fun o => decide (o.group = g.id) && decide (o.sreg = r)).map (·.id))

/-- Whether the work with a number has completed. -/
def State.workDone (s : State) (core : Nat) (id : Nat) : Bool :=
  !((s.core core).allTasks.any fun t => decide (t.id = id)) &&
    !(((s.cluster (clusterOfCore core)).channels.flatMap (·.2)).any fun c => decide (c.id = id)) &&
    !(s.tileOps.any fun o => decide (o.id = id))

/-- A task pushed to a group's tile scheduler (R16, R200, R294). A replayed task leaves its token pending (R16, R200). -/
def State.acceptTask (s : State) (g : Group) (rcd : List Word) (queue : Nat) (binding : Word) (replay : Bool) : Accept :=
  let c := s.core g.core
  let tok := taskTok rcd
  if !(decide (c.tasks.length < Config.taskQueue) && (replay || decide (s.accepted g < Config.commandLimit))) then .stall 4
  else if g.isPending tok && !replay then .stall 2
  else
    match s.validateTask g rcd with
    | some st => .fault 19 (statusWord st)
    | none =>
      let (id, s) := s.fresh
      let task : Task :=
        { id := id, group := g.id, block := g.block, record := rcd, row := g.acbase.toNat + fieldOf rcd 5 10 0, rows := rowsUsed rcd,
          window := g.window, deps := s.pendingOn g (fieldOf rcd 0 51 47) ++ s.pendingOn g (fieldOf rcd 0 46 42),
          streams := streamsOf g rcd, kept := [], shapes := [], queue := queue, binding := binding }
      .ok (s.setCore { c with tasks := c.tasks ++ [task] }) (g.pend tok)

/-! ### The tile scheduler -/

/-- Whether the rows of two tasks overlap. -/
def rowsMeet (x y : Task) : Bool := overlapping (x.row, x.row + x.rows) (y.row, y.row + y.rows)

/-- Whether the grid of a block has been pre-empted: it starts no more tasks and commands (R199). -/
def State.preemptedBlock (s : State) (block : Nat) : Bool :=
  match s.block? block with
  | some b => ((s.grid? b.grid).map (·.preempted)).getD false
  | none => false

/-- Whether an accepted task of a core is ready (R295). -/
def State.taskReady (s : State) (core : Nat) (t : Task) : Bool :=
  let c := s.core core
  (t.deps.all fun d => s.workDone core d) && !s.preemptedBlock t.block &&
    !((c.engines.toList.filterMap id ++ c.tasks.takeWhile fun x => decide (x.id ≠ t.id)).any fun x =>
      decide (x.group = t.group) && rowsMeet x t)

/-- The oldest ready task of a core. -/
def State.nextTask (s : State) (core : Nat) : Option Task := (s.core core).tasks.find? fun t => s.taskReady core t

/-- The lowest-numbered free engine of a core that is not being reset. -/
def State.freeEngine (s : State) (core : Nat) : Option Nat :=
  (List.range 2).find? fun e => ((s.core core).engines[e]? = some none) && !s.matrixDown core e

/-- `MATRIX_TASK_START` (R295): the task reads its register streams and takes its shape tables. -/
def execMatrixTaskStart (core : Nat) (s : State) : Out :=
  let c := s.core core
  match s.nextTask core, s.freeEngine core with
  | some t, some e =>
    let t' := match s.group? t.group with
      | some g => t.capture g
      | none => t
    let t' := { t' with shapes := s.shapesOf ((s.block? t.block).map (·.asid) |>.getD 0) }
    .next (s.setCore { c with tasks := c.tasks.filter (fun x => decide (x.id ≠ t.id)), engines := c.engines.setIfInBounds e (some t') })
  | _, _ => .refused (.notEnabled "MATRIX_TASK_START")

/-! ### Operands -/

/-- The bytes of row i of an operand (R292). -/
def operandRow (pad : Block) (stream : List Byte) (o : Operand) (i : Nat) : List Byte :=
  (List.range o.panels).flatMap fun p => (List.range 32).map fun n =>
    let a := o.off + 32 * (i % 8) + o.rp * (i / 8) + o.tp * p + 4 * ((n / 4 + o.rot * (i % 8)) % 8) + n % 4
    if o.stream then stream.getD a 0 else sget 0 pad.pad a

/-- The elements of a width that some bytes hold, element 0 lowest (R53). -/
def unpackElems (w : Nat) : List Byte → List Nat
  | [] => []
  | b :: rest =>
    if w = 4 then b.toNat % 16 :: b.toNat / 16 :: unpackElems w rest
    else if w = 8 then b.toNat :: unpackElems w rest
    else wide (w / 8) (b :: rest) (rest.length + 1)
where
  wide (n : Nat) (bs : List Byte) : Nat → List Nat
    | 0 => []
    | fuel + 1 => if bs.isEmpty then [] else bytesValue (bs.take n) :: wide n (bs.drop n) fuel

/-- The stored elements of a row as numbers (R51, R54, R63). -/
def storedElems (shapes : Sparse Word32) (cbt : Nat) (ftz : Bool) (code : Nat) (row : List Byte) : List ExactNum :=
  if code = 11 then
    (unpackElems 16 row).flatMap fun idx => (List.range 8).map fun j =>
      let (neg, mag) := cb2Weight shapes cbt idx j
      .fin neg mag (-3) false
  else (unpackElems (formatWidth code) row).map (unpack code ftz)

/-- The metadata of group q of row i: the lower and the higher kept position (R293). -/
def metaOf (x : Block) (rcd : List Word) (i q : Nat) : Nat × Nat :=
  let b := (sget 0 x.pad (fieldOf rcd 6 23 0 + fieldOf rcd 6 47 32 * i + q / 2)).toNat
  let n := if q % 2 = 0 then b % 16 else b / 16
  (n % 4, n / 4)

/-- The dense row rebuilt from stored elements (R299). -/
def rebuild (x : Block) (rcd : List Word) (i : Nat) : Nat → List ExactNum → List ExactNum
  | q, a :: b :: rest =>
    let (lo, hi) := metaOf x rcd i q
    ((List.range 4).map fun pos => if pos = lo then a else if pos = hi then b else .fin false 0 0 false) ++ rebuild x rcd i (q + 1) rest
  | _, _ => []

/-- The scale bytes of the dense elements of row i (R293). An element before the row's first boundary has no block, and the scale of none:
a free byte. -/
def scalesOf (b : Block) (o : Operand) (scm k i : Nat) (free : Nat) : List Nat :=
  let at_ := o.soff + o.sp * i
  match scm with
  | 0 => List.replicate k 127
  | 1 => (List.range k).map fun e => (sget 0 b.pad (at_ + e / 32)).toNat
  | _ =>
    ((List.range k).foldl (fun (acc : List Nat × Nat) e =>
      let n := acc.2 + flag (padBit b at_ e)
      ((if n = 0 then free else (sget 0 b.pad (at_ + (k + 7) / 8 + n - 1)).toNat) :: acc.1, n)) ([], 0)).1.reverse

/-- An element times its scale; a NaN scale gives NaN, or 0 with NV in an integer task (R59). -/
def scaled (integer : Bool) (x : ExactNum × Nat) : ExactNum :=
  if integer && decide (x.2 = 255) then .fin false 0 0 false else rescale x.2 x.1

/-- The rows of an operand: the dense, scaled elements, and whether a NaN scale fed an integer task (R292, R293, R299). -/
def State.operandRows (s : State) (b : Block) (t : Task) (n free : Nat) : List (List ExactNum) × Bool :=
  let rcd := t.record
  let o := operandOf rcd n
  let pad := (s.padOf b o.win o.rank).getD b
  let mpad := (s.padOf b (bit (wordAt rcd 6) 30) (fieldOf rcd 6 29 24)).getD b
  let stream := if (operandOf rcd 1).stream && decide (n = 3) then t.kept.getD 1 [] else t.kept.getD 0 []
  let integer := decide (taskC rcd = 10)
  let rows := (List.range 16).map fun i =>
    let st := storedElems t.shapes (taskCbt rcd) (bit (wordAt rcd 0) 26) o.code (operandRow pad stream o i)
    let dense := if o.packed then rebuild mpad rcd i 0 st else st
    dense.zip (scalesOf b o (taskScm rcd) (taskK rcd) i free)
  (rows.map fun r => r.map (scaled integer), integer && rows.any fun r => r.any fun x => decide (x.2 = 255))

/-! ### The computation -/

/-- A list cut into pieces of n. -/
def chunksOf {α : Type} (n : Nat) : Nat → List α → List (List α)
  | 0, _ => []
  | fuel + 1, xs => if xs.isEmpty then [] else xs.take n :: chunksOf n fuel (xs.drop n)

/-- Products of a chunk by the format of A (R69). -/
def chunkSize (code : Nat) : Nat :=
  match code with
  | 0 | 1 => 1
  | 2 | 3 => 4
  | 6 | 9 | 11 => 16
  | _ => 8

/-- The exact sum of a chunk (R69, R298): products, or squared differences. -/
def chunkSum (dist : Bool) (mode : Mode) (xs : List (ExactNum × ExactNum)) : ExactNum :=
  let term := fun (x : ExactNum × ExactNum) =>
    if dist then
      let d := (addNum mode x.1 (negate x.2)).1
      (mulNum d d).1
    else (mulNum x.1 x.2).1
  match xs with
  | [] => .fin false 0 0 false
  | x :: rest => rest.foldl (fun acc y => (addNum mode acc (term y)).1) (term x)

/-- The rounding of a task (R298). -/
structure TaskRounding where
  cfmt : Nat
  mode : Mode
  ftz : Bool
  sat : Bool

/-- One accumulation: `acc(c + S)`, with its flags (R298). -/
def accumulate (r : TaskRounding) (c : Nat × BitVec 6) (sum : ExactNum) : Nat × BitVec 6 :=
  if r.cfmt = 10 then
    match (addNum r.mode (unpack 10 false c.1) sum).1 with
    | .fin neg man exp st =>
      let (n, inexact) := roundAt r.mode neg 0 man exp 0 st
      let x : Int := if neg then -(n : Int) else n
      let (lo, hi) := intRange 10
      let y := if r.sat then (if x < lo then lo else if hi < x then hi else x) else x
      (intRaw 32 y, c.2 ||| (if inexact then NX else 0) ||| (if y = x then 0 else SA))
    | _ => (0, c.2 ||| NV)
  else
    let (v, fl) := addNum r.mode (unpack r.cfmt r.ftz c.1) sum
    let (raw, fl') := roundFloat r.cfmt r.mode r.sat r.ftz 0 v
    (raw, c.2 ||| fl ||| fl')

/-- Element (i, j) of a result (R298). -/
def resultElem (r : TaskRounding) (dist : Bool) (size : Nat) (c : Nat) (a b : List ExactNum) : Nat × BitVec 6 :=
  (chunksOf size a.length (a.zip b)).foldl (fun acc xs => accumulate r acc (chunkSum dist r.mode xs)) (c, 0)

/-- Row, low element and high element of element (i, j) of a result (R287). -/
def elemPlace (cfmt row i j : Nat) : Nat × Nat :=
  if cfmt = 0 then (row + 2 * i + j / 8, 2 * (j % 8)) else (row + i, j)

/-- Element (i, j) as the rows hold it. -/
def heldElem (b : Block) (cfmt row i j : Nat) : Nat :=
  let (r, e) := elemPlace cfmt row i j
  if cfmt = 0 then (accAt b r e).toNat + 2 ^ 32 * (accAt b r (e + 1)).toNat else (accAt b r e).toNat

/-- The cells that hold element (i, j). -/
def elemCells (cfmt row i j v : Nat) : List (Nat × Nat × Word32) :=
  let (r, e) := elemPlace cfmt row i j
  if cfmt = 0 then [(r, e, BitVec.ofNat 32 v), (r, e + 1, BitVec.ofNat 32 (v / 2 ^ 32))] else [(r, e, BitVec.ofNat 32 v)]

/-- Whether entry x stands before entry y of a list of distances: by value, NaN last, then by index (R300). -/
def nearer (ftz : Bool) (x y : Nat × Nat) : Bool :=
  match unpack 1 ftz x.2, unpack 1 ftz y.2 with
  | .nan, .nan => decide (x.1 < y.1)
  | .nan, _ => false
  | _, .nan => true
  | a, b => (match cmpNum a b with
    | some .lt => true
    | some .gt => false
    | _ => decide (x.1 < y.1))

/-- A pair of an index and a distance put in its place. -/
def insertNear (ftz : Bool) (x : Nat × Nat) : List (Nat × Nat) → List (Nat × Nat)
  | [] => [x]
  | y :: ys => if nearer ftz x y then x :: y :: ys else y :: insertNear ftz x ys

/-- The cells of row i of `mtopk` (R300). -/
def topkCells (row i : Nat) (xs : List (Nat × Nat)) : List (Nat × Nat × Word32) :=
  (List.range 16).flatMap fun t =>
    let x := xs.getD t (0xFFFFFFFF, 0x7F800000)
    [(row + 2 * i, t, BitVec.ofNat 32 x.1), (row + 2 * i + 1, t, BitVec.ofNat 32 x.2)]

/-- The cells that a task writes and the flags that it raises (R298 to R300). -/
def taskResult (b : Block) (t : Task) (as bs : List (List ExactNum)) : List (Nat × Nat × Word32) × BitVec 6 :=
  let rcd := t.record
  let w0 := wordAt rcd 0
  let zero := bit w0 59
  let r : TaskRounding := { cfmt := taskC rcd, mode := nearestForRs (modeOfFmt (fieldOf rcd 0 29 27)), ftz := bit w0 26, sat := bit w0 25 }
  let size := chunkSize (taskA rcd)
  let kind := taskKind rcd
  if kind = 3 then
    as.zipIdx.foldl (fun acc x =>
      let k := fieldOf rcd 0 20 16 + 1
      let ds := bs.map fun y => resultElem r true size 0 x.1 y
      let held := if zero then [] else (List.range k).map fun e =>
        ((accAt b (t.row + 2 * x.2) e).toNat, (accAt b (t.row + 2 * x.2 + 1) e).toNat)
      let new := ds.zipIdx.map fun d => ((fieldOf rcd 5 63 32 + d.2) % 2 ^ 32, d.1.1)
      let sorted := (held ++ new).foldl (fun l y => insertNear r.ftz y l) []
      (acc.1 ++ topkCells t.row x.2 (sorted.take k), ds.foldl (fun f d => f ||| d.2) acc.2)) ([], 0)
  else
    as.zipIdx.foldl (fun acc x => bs.zipIdx.foldl (fun acc y =>
      let c := if zero then 0 else heldElem b r.cfmt t.row x.2 y.2
      let (v, fl) := resultElem r (decide (kind = 2)) size c x.1 y.1
      (acc.1 ++ elemCells r.cfmt t.row x.2 y.2 v, acc.2 ||| fl)) acc) ([], 0)

/-- CYC of a task (R297). -/
def taskCycles (rcd : List Word) : Nat :=
  let n := (taskK rcd + chunkSize (taskA rcd) - 1) / chunkSize (taskA rcd)
  let n := if taskKind rcd = 1 then (n + 1) / 2 else n
  let win := (operandOf rcd 1).win || (operandOf rcd 3).win || (decide (taskKind rcd = 1) && bit (wordAt rcd 6) 30)
  24 + n * (if taskA rcd = 0 then 2 else 1) + 16 + (if taskKind rcd = 3 then 16 else 0) + (if win then 24 else 0)

/-- Whether the metadata of a task is malformed (R294). -/
def State.metadataBad (s : State) (b : Block) (rcd : List Word) : Bool :=
  decide (taskKind rcd = 1) &&
    (match s.padOf b (bit (wordAt rcd 6) 30) (fieldOf rcd 6 29 24) with
      | none => false
      | some x => (List.range 16).any fun i => (List.range (taskK rcd / 4)).any fun q =>
          decide ((metaOf x rcd i q).2 ≤ (metaOf x rcd i q).1))

/-- Whether a block that WIN names has ended (R294). -/
def State.memberGone (s : State) (b : Block) (rcd : List Word) : Bool :=
  [1, 3, 6].any fun n => (decide (n ≠ 6) || decide (taskKind rcd = 1)) && bit (wordAt rcd n) 30 &&
    (s.padOf b true (fieldOf rcd n 29 24)).isNone

/-- What a task reads beside its register streams, in the order in which the model looks for bad data: the block that holds it, and its
address in a window. Operand A, the metadata, operand B, the scale streams, and the accumulator rows, which have no address (DESIGN CHOICE: 0). -/
def State.taskReads (s : State) (b : Block) (rcd : List Word) : List (Nat × Nat) :=
  let padVa := fun (win : Bool) (rank off : Nat) =>
    if win then 0xFF01 * 2 ^ 48 + rank * 2 ^ 24 + off / 32 * 32 else 0xFF00 * 2 ^ 48 + off / 32 * 32
  let from_ := fun (win : Bool) (rank off : Nat) => match s.padOf b win rank with
    | some x => [(x.id, padVa win rank off)]
    | none => []
  let operand := fun (n : Nat) =>
    let o := operandOf rcd n
    if o.stream then [] else from_ o.win o.rank o.off
  operand 1 ++ (if taskKind rcd = 1 then from_ (bit (wordAt rcd 6) 30) (fieldOf rcd 6 29 24) (fieldOf rcd 6 23 0) else []) ++ operand 3 ++
    (if taskScm rcd = 0 then [] else [(b.id, padVa false 0 (operandOf rcd 1).soff), (b.id, padVa false 0 (operandOf rcd 3).soff)]) ++
    (if bit (wordAt rcd 0) 59 then [] else [(b.id, 0)])

/-- The first bad data among what a task reads: its address and the kind of the fenced unit that holds it (R26, R294). -/
def State.taskError (s : State) (b : Block) (rcd : List Word) : Option (Word × Nat) :=
  (s.taskReads b rcd).findSome? fun x => (s.padPoison x.1).map fun code => (BitVec.ofNat 64 x.2, code)

/-- A task's completion: its status, its rows and its flags (R296, R298). The order of codes 5, 4 and 6, where more than one applies, is the
model's (DESIGN CHOICE). -/
def State.runTask (s : State) (t : Task) : State × Nat × BitVec 6 :=
  let b := (s.block? t.block).getD (noBlock t.block)
  if s.memberGone b t.record then (s, 5, 0)
  else if (s.taskError b t.record).isSome then (s, 4, 0)
  else if s.metadataBad b t.record then (s, 6, 0)
  else
    let (free, s) := s.freeWord
    let (as, nv1) := s.operandRows b t 1 (bits free 7 0)
    let (bs, nv2) := s.operandRows b t 3 (bits free 7 0)
    let (cells, fl) := taskResult b t as bs
    (s.setBlock (setAccs b cells), 0, fl ||| (if nv1 || nv2 then NV else 0))

/-- The fault that the first reader of a failed task's token takes: cause 17, for ST 4 alone (R294). -/
def State.taskFault (s : State) (t : Task) : Option TrapInfo :=
  let b := (s.block? t.block).getD (noBlock t.block)
  if s.memberGone b t.record then none
  else (s.taskError b t.record).map fun x => { cause := 17, tval := x.1, tstat := BitVec.ofNat 64 x.2, tlane := 0 }

/-- `MATRIX_TASK_COMMIT` (R296). -/
def execMatrixTaskCommit (core eng : Nat) (s : State) : Out :=
  let c := s.core core
  match (c.engines[eng]?).bind id with
  | none => .refused (.notEnabled "MATRIX_TASK_COMMIT")
  | some t =>
    let fault := s.taskFault t
    let (s, st, fl) := s.runTask t
    let s := s.setCore { s.core core with engines := (s.core core).engines.setIfInBounds eng none }
    .next (s.writeToken t.group (taskTok t.record) (place st 60 ||| place eng 32 ||| place (taskCycles t.record) 0) fl fault).sweep

/-! ### Windows, elements and rows -/

/-- Whether a group has an accepted, incomplete task that satisfies a test. -/
def State.taskOf (s : State) (g : Group) (p : Task → Bool) : Bool :=
  (s.core g.core).allTasks.any fun t => decide (t.group = g.id) && p t

/-- The leader of a block (R290). -/
def Group.leads (g : Group) : Bool := !g.free && decide (g.index = 0)

/-- Rows of a core that allotments hold (R288). -/
def State.rowsTaken (s : State) (core : Nat) : Nat :=
  (s.blocks.filter fun b => decide (b.core = core) && (match b.state with
    | .retired _ _ _ => false
    | _ => true)).foldl (fun n b => n + b.acRows) 0

/-- `acwin.set` (R290). -/
def execAcwinSet (m : BitVec 1) (d a b : BitVec 5) (s : State) : Out :=
  issue (.acwinSet m d a b) s fun s g u =>
    let blk := s.blockOf g
    let v := g.s b.toNat
    let base := bits v 10 0
    let lim := bits v 27 16
    let answer := fun (n : Nat) (g : Group) => g.setS d.toNat (BitVec.ofNat 64 n)
    match (s.groupsOf blk.id).find? fun x => decide (x.index = (g.s a.toNat).toNat) with
    | none => .ok s (answer 2 g) u
    | some x =>
      if !g.leads || decide (bits v 15 11 ≠ 0) || decide (bits v 63 28 ≠ 0) || decide (base % 16 ≠ 0) || decide (lim % 16 ≠ 0) then
        .ok s (answer 2 g) u
      else if lim < base || blk.acRows < lim || ((s.otherWindows blk x.id).any fun w => overlapping (base, lim) w) then
        .ok s (answer 0 g) u
      else if s.taskOf x (fun _ => true) then .stall 15
      else
        let set := fun (y : Group) => { y with acbase := BitVec.ofNat 64 base, aclim := BitVec.ofNat 64 lim }
        if x.id = g.id then .ok s (answer 1 (set g)) u else .ok (s.setGroup (set x)) (answer 1 g) u

/-- Whether a number of rows is valid for `acwin.claim` and `acwin.free` (R290). -/
def rowCountOk (v : Word) : Bool := decide (v.toNat % 16 = 0) && decide (16 ≤ v.toNat) && decide (v.toNat ≤ 2048)

/-- `acwin.claim` (R288, R290). -/
def execAcwinClaim (m : BitVec 1) (d a : BitVec 5) (s : State) : Out :=
  issue (.acwinClaim m d a) s fun s g u =>
    let blk := s.blockOf g
    let n := (g.s a.toNat).toNat
    if !g.leads || !rowCountOk (g.s a.toNat) then .ok s (g.setS d.toNat 2) u
    else if Config.acRows < s.rowsTaken g.core + n then .ok s (g.setS d.toNat 0) u
    else .ok (s.setBlock { blk with acRows := blk.acRows + n }) (g.setS d.toNat 1) u

/-- `acwin.free` (R290). -/
def execAcwinFree (m : BitVec 1) (d a : BitVec 5) (s : State) : Out :=
  issue (.acwinFree m d a) s fun s g u =>
    let blk := s.blockOf g
    let n := (g.s a.toNat).toNat
    let top := blk.acRows - n
    if !g.leads || !rowCountOk (g.s a.toNat) then .ok s (g.setS d.toNat 2) u
    else if blk.acRows < n || decide (top < blk.acResv) ||
        ((g.window :: s.otherWindows blk g.id).any fun w => overlapping (top, blk.acRows) w) then .ok s (g.setS d.toNat 0) u
    else
      .ok (s.setBlock { blk with acRows := top, acc := sdrop (fun k => decide (16 * top ≤ k)) blk.acc }) (g.setS d.toNat 1) u

/-- The matrix fault of an accumulator instruction (R301). -/
def matrixFault (st : Nat) (u : GUnit) : TrapInfo := { cause := 19, tval := statusWord st, tstat := 0, tlane := u.mask }

/-- Block row and element of each active lane of `acrd` and `acwr`, or the code of the fault (R301): 10 also for a window that breaks R289. -/
def State.lanePlaces (s : State) (g : Group) (v : Word) (ms : Mask) : Nat ⊕ List (Nat × Nat × Nat) :=
  if bits v 63 16 ≠ 0 || decide (bits v 11 11 ≠ 0) then .inl 8
  else if !s.windowOk (s.blockOf g) g then .inl 10
  else
    let col := bits v 15 12
    let xs := (lanesOf ms).map fun i => (i, bits v 10 0 + (col + i) / 16, (col + i) % 16)
    if xs.any fun x => decide (g.aclim.toNat - g.acbase.toNat ≤ x.2.1) then .inl 10
    else .inr (xs.map fun x => (x.1, g.acbase.toNat + x.2.1, x.2.2))

/-- Whether an incomplete task of a group names one of some block rows. -/
def State.rowsBusy (s : State) (g : Group) (rows : List Nat) : Bool :=
  s.taskOf g fun t => rows.any fun r => decide (t.row ≤ r) && decide (r < t.row + t.rows)

/-- Two lane elements a word (R424). -/
def pairWords : List Word32 → List Word
  | x :: y :: rest => (y ++ x) :: pairWords rest
  | [x] => [x.setWidth 64]
  | [] => []

/-- `acrd` (R301). -/
def execAcrd (m : BitVec 1) (p : BitVec 3) (d : BitVec 6) (b : BitVec 5) (s : State) : Out :=
  issue (.acrd m p d b) s fun s g u =>
    let ms := activeMask g u p.toNat
    if ms = 0 then .ok s g u
    else
      match s.lanePlaces g (g.s b.toNat) ms with
      | .inl st => .trap (matrixFault st u)
      | .inr xs =>
        if s.rowsBusy g (xs.map (·.2.1)) then .stall 15
        else
          let blk := s.blockOf g
          let vs := xs.map fun x => (x.1, accAt blk x.2.1 x.2.2)
          let (s, g) := s.traceValue g u 4 0 (pairWords (vs.map (·.2)))
          .ok s (g.setVs d.toNat vs) u

/-- `acwr` (R301). -/
def execAcwr (m : BitVec 1) (p : BitVec 3) (d : BitVec 6) (b : BitVec 5) (s : State) : Out :=
  issue (.acwr m p d b) s fun s g u =>
    let ms := activeMask g u p.toNat
    if ms = 0 then .ok s g u
    else
      match s.lanePlaces g (g.s b.toNat) ms with
      | .inl st => .trap (matrixFault st u)
      | .inr xs =>
        if s.rowsBusy g (xs.map (·.2.1)) then .stall 15
        else .ok (s.setBlock (setAccs (s.blockOf g) (xs.map fun x => (x.2.1, x.2.2, g.v d.toNat x.1)))) g u

/-- `acclr` (R302). -/
def execAcclr (m : BitVec 1) (a : BitVec 5) (s : State) : Out :=
  issue (.acclr m a) s fun s g u =>
    let v := g.s a.toNat
    let n := bits v 26 16 + 1
    if bits v 63 27 ≠ 0 || decide (bits v 15 11 ≠ 0) then .trap (matrixFault 8 u)
    else if !s.windowOk (s.blockOf g) g || decide (g.aclim.toNat - g.acbase.toNat < bits v 10 0 + n) then .trap (matrixFault 10 u)
    else
      let row := g.acbase.toNat + bits v 10 0
      if s.rowsBusy g ((List.range n).map (row + ·)) then .stall 15
      else
        let blk := s.blockOf g
        .ok (s.setBlock { blk with acc := sdrop (fun k => decide (16 * row ≤ k) && decide (k < 16 * (row + n))) blk.acc }) g u

/-! ### `spk24` and `cbld` -/

/-- The magnitude by which an element ranks: NaN largest (R303). -/
def magnitude (code raw : Nat) : Nat :=
  let w := formatWidth code
  if isFloat code then
    (match unpack code false raw with
      | .nan => 2 ^ 20
      | _ => raw % 2 ^ (w - 1))
  else (intElem code raw).natAbs

/-- The kept positions of four elements: lower and higher (R303). -/
def keptOf (code : Nat) (xs : List Nat) : Nat × Nat :=
  let ks := xs.map (magnitude code)
  let beats := fun (i j : Nat) => decide (ks.getD j 0 < ks.getD i 0) || (decide (ks.getD i 0 = ks.getD j 0) && decide (i < j))
  let kept := (List.range 4).filter fun i => decide (((List.range 4).filter fun j => decide (j ≠ i) && beats j i).length < 2)
  (kept.getD 0 0, kept.getD 1 0)

/-- `spk24` (R303). -/
def execSpk24 (m : BitVec 1) (p : BitVec 3) (d a b : BitVec 6) (s : State) : Out :=
  issue (.spk24 m p d a b) s fun s g u =>
    let ms := activeMask g u p.toNat
    let code := fmtA u.fmt
    if ms = 0 then .ok s g u
    else if code < 4 || 9 < code then .trap (formatFault u.fmt u)
    else
      let w := formatWidth code
      let g' := (lanesOf ms).foldl (fun g' l =>
        let es := chunksOf 4 16 ((List.range (64 / w)).map fun e => (g.v64 a.toNat l).toNat / 2 ^ (w * e) % 2 ^ w)
        let ks := es.map fun x => (x, keptOf code x)
        let kept := ks.flatMap fun k => [k.1.getD k.2.1 0, k.1.getD k.2.2 0]
        let metas := ks.map fun k => k.2.1 + 4 * k.2.2
        (g'.setV d.toNat l (BitVec.ofNat 32 (packElems w kept))).setV b.toNat l (BitVec.ofNat 32 (packElems 4 metas))) g
      .ok s g' u

/-- Sectors loaded one after another, with their TOUCH packets: their values, or the address and code of an error. -/
def State.loadSectors (s : State) (g : Group) (u : GUnit) : List (Word × Place) → State × Group × (List Nat ⊕ (Word × Nat))
  | [] => (s, g, .inl [])
  | (va, pl) :: rest =>
    match s.loadTraced g u va pl 32 with
    | (s, g, .inr code) => (s, g, .inr (va, code))
    | (s, g, .inl v) =>
      match s.loadSectors g u rest with
      | (s, g, .inl vs) => (s, g, .inl (v :: vs))
      | r => r

/-- Shape table t of a context replaced by 512 entries (R64, R304). -/
def loadTable (x : Sparse Word32) (t : Nat) (es : List Word32) : Sparse Word32 :=
  es.zipIdx.foldl (fun m e => sset (shapeReset e.2) m (512 * t + e.2) e.1) x

/-- `cbld` (R304). -/
def execCbld (m : BitVec 1) (a : BitVec 5) (s : State) : Out :=
  issue (.cbld m a) s fun s g u =>
    let va := g.s a.toNat
    let t := fmtCbt u.fmt
    let blk := s.blockOf g
    if blk.timed && !inWindows va then .trap (addrFault 13 va 0 u.mask)
    else if va.toNat % 64 ≠ 0 then .trap (addrFault 11 va 0 u.mask)
    else
      match s.prepare g .read 32 false false (some u.mask) ((List.range 64).map fun i => (0, va + BitVec.ofNat 64 (32 * i))) with
      | .fault f => .trap f
      | .lanes hits misses bad =>
        if !misses.isEmpty || !bad.isEmpty then finishAccess s g u .read (some u.mask) misses bad
        else if hits.any fun h => s.transferAt g.id h.2.2 32 then .stall 2
        else if s.taskOf g fun x => decide (taskA x.record = 11) && decide (taskCbt x.record = t) then .stall 15
        else
          match s.loadSectors g u (hits.map (·.2)) with
          | (_, _, .inr (at_, code)) => .trap (containedFault at_ code u.mask)
          | (s, g, .inl vs) =>
            let es := vs.flatMap fun v => (List.range 8).map fun i => BitVec.ofNat 32 (v / 2 ^ (32 * i))
            let s := match s.context? blk.asid with
              | some x => s.setContext { x with shapes := loadTable x.shapes t es }
              | none => s
            .ok s g u

end Sys2Proof.Machine
end

