-- ==== Sys2Proof/Machine/Copy.lean ====
section
/-!
DEFINITION. The copy engine (R307 to R319): validation and acceptance of command records, the channels, the movement of bytes, streams,
and the system channel.
-/

namespace Sys2Proof.Machine

/-! ### Validation -/

/-- KIND of a copy command (R310). -/
def copyKind (rcd : List Word) : Nat := fieldOf rcd 0 63 60
/-- LEN. -/
def copyLen (rcd : List Word) : Nat := fieldOf rcd 0 31 0
/-- Bytes of an element of a gather or scatter (R311). -/
def elemSize (rcd : List Word) : Nat := if fieldOf rcd 4 1 0 = 0 then 4 else 8

/-- Words of a record that its KIND uses (R311). -/
def usedWords (kind : Nat) : List Nat :=
  match kind with
  | 0 => [1, 2]
  | 1 => [1, 3, 4]
  | 2 | 3 => [1, 2, 3, 4]
  | 4 => [2, 3]
  | 5 => [2]
  | _ => [1]

/-- Code 8: reserved values and fields (R310 to R312). -/
def copyFieldsOk (rcd : List Word) : Bool :=
  let kind := copyKind rcd
  let w0 := wordAt rcd 0
  decide (kind ≤ 6) && decide (fieldOf rcd 0 57 55 ≤ 4) && (bit w0 59 || bit w0 58 || decide (fieldOf rcd 0 57 55 = 0)) &&
    (decide (kind = 1) || !bit w0 48) && (decide (kind = 6) || decide (fieldOf rcd 0 47 44 = 0)) && decide (fieldOf rcd 0 43 32 = 0) &&
    (decide (kind ≠ 6) || (!bit w0 58 && !bit w0 54)) && (decide (kind ≠ 1) || decide (copyLen rcd = 0)) &&
    ([1, 2, 3, 4, 5, 6, 7].all fun n => (usedWords kind).contains n || decide (wordAt rcd n = 0)) &&
    (!(decide (kind = 2) || decide (kind = 3)) ||
      (decide (fieldOf rcd 4 1 0 ≤ 1) && decide (fieldOf rcd 4 7 2 = 0) && decide (fieldOf rcd 4 13 8 ≤ 32) &&
        decide (fieldOf rcd 4 63 14 = 0)))

/-- Code 10: alignment (R311). -/
def copyAligned (rcd : List Word) : Bool :=
  let al := fun (n k : Nat) => decide ((wordAt rcd n).toNat % k = 0)
  match copyKind rcd with
  | 0 => al 1 32 && al 2 32
  | 1 => al 1 32 && (decide (fieldOf rcd 4 63 52 ≠ 0) || al 3 256)
  | 2 => al 2 32 && al 3 4
  | 3 => al 1 32 && al 3 4
  | 4 | 5 => al 2 32
  | _ => al 1 32

/-- Code 11: LEN (R311). -/
def copyLenOk (rcd : List Word) : Bool :=
  let n := copyLen rcd
  match copyKind rcd with
  | 1 => true
  | 2 | 3 => decide (n ≠ 0) && decide (n ≤ 2 ^ 24)
  | _ => decide (n ≠ 0) && decide (n % 32 = 0)

/-- Whether a range that begins at a window address may be accepted: in the own block's scratchpad it lies within R221; a window that names
no storage may not; another member's is looked at when the command runs (R312). -/
def ownRangeOk (b : Block) (va : Word) (n : Nat) : Bool :=
  if bits va 63 56 ≠ 0xFF then true
  else if bits va 63 48 = 0xFF00 then decide (bits va 47 24 = 0) && padRange b (bits va 23 0) n
  else decide (bits va 63 48 = 0xFF01)

/-- Whether a range lies in scratchpad that R221 allows, of the own block or of a member of its cluster set. -/
def State.windowRangeOk (s : State) (b : Block) (va : Word) (n : Nat) : Bool :=
  if bits va 63 48 = 0xFF00 then decide (bits va 47 24 = 0) && padRange b (bits va 23 0) n
  else if bits va 63 48 = 0xFF01 then
    decide (bits va 47 30 = 0) && (match s.padOf b true (bits va 29 24) with
      | some x => padRange x (bits va 23 0) n
      | none => false)
  else false

/-- The tile of a KIND 1 record (R311). -/
def State.copyTile (s : State) (asid : Nat) (rcd : List Word) : Tile ⊕ Nat :=
  if bit (wordAt rcd 4) 48 then .inr 2 else s.nameTile asid (wordAt rcd 4) (wordAt rcd 3)

/-- Code 12: windows (R312). -/
def State.copyRangesOk (s : State) (b : Block) (rcd : List Word) : Bool :=
  let n := copyLen rcd
  let sz := elemSize rcd
  match copyKind rcd with
  | 0 => ownRangeOk b (wordAt rcd 1) n && ownRangeOk b (wordAt rcd 2) n
  | 1 => (match s.copyTile b.asid rcd with
    | .inl t => s.windowRangeOk b (wordAt rcd 1) (256 * t.lines.length) && (decide (t.id ≠ 0) || !inWindows (wordAt rcd 3))
    | .inr _ => true)
  | 2 => ownRangeOk b (wordAt rcd 2) (n * sz) && inWindows (wordAt rcd 3) && ownRangeOk b (wordAt rcd 3) (4 * n)
  | 3 => ownRangeOk b (wordAt rcd 1) (n * sz) && inWindows (wordAt rcd 3) && ownRangeOk b (wordAt rcd 3) (4 * n)
  | 4 | 5 => ownRangeOk b (wordAt rcd 2) n
  | _ => ownRangeOk b (wordAt rcd 1) n

/-- KIND of a binding (R180). -/
def bindKind (v : Word) : Nat := bits v 63 60
/-- UNIT. -/
def bindUnit (v : Word) : Nat := bits v 3 0

/-- Whether a group binds a stream queue (R307). -/
def Group.bindsStream (g : Group) (sq : Nat) : Bool :=
  g.qb.toList.any fun v => decide (bindKind v = 4) && decide (bindUnit v = sq)

/-- The validation of a copy command: the ST code of its first failure, in the order of R312. A replayed stream goes on where its pops have stopped,
which need not be a multiple of 32 (R319). -/
def State.validateCopy (s : State) (g : Group) (rcd : List Word) (replay : Bool) : Option Nat :=
  let rest := replay && decide (copyKind rcd = 6)
  let b := s.blockOf g
  if !copyFieldsOk rcd then some 8
  else
    match (if copyKind rcd = 1 then s.copyTile b.asid rcd else .inr 0) with
    | .inr 2 => some 2
    | .inr 1 => some 1
    | _ =>
      if copyKind rcd = 6 && !g.bindsStream (fieldOf rcd 0 47 44) then some 9
      else if !rest && !copyAligned rcd then some 10
      else if !rest && !copyLenOk rcd then some 11
      else if !s.copyRangesOk b rcd then some 12
      else none

/-- The commands of a channel of a cluster. -/
def Cluster.channel (cl : Cluster) (ch : Nat) : List CopyCmd :=
  (cl.channels.find? fun x => decide (x.1 = ch)).elim [] (·.2)

/-- A cluster with the commands of a channel replaced. -/
def Cluster.setChannel (cl : Cluster) (ch : Nat) (cs : List CopyCmd) : Cluster :=
  { cl with channels := upsert (·.1) (ch, cs) cl.channels }

/-- A command of a channel replaced. -/
def State.setCommand (s : State) (cl ch : Nat) (c : CopyCmd) : State :=
  let x := s.cluster cl
  s.setCluster (x.setChannel ch (replaceFirst (fun y => decide (y.id = c.id)) (fun _ => c) (x.channel ch)))

/-! ### Channels -/

/-- Whether a started command has written or delivered its last byte (R308). Another command leaves its channel when it completes. -/
def CopyCmd.spent (c : CopyCmd) : Bool := c.isStream && decide (c.moved = copyLen c.record)

/-- The ranges of virtual addresses that a command names, but for gathered and scattered elements (R311): address and bytes. -/
def CopyCmd.ranges (c : CopyCmd) (lines : Nat) : List (Word × Nat) :=
  let w := fun n => wordAt c.record n
  let n := copyLen c.record
  match copyKind c.record with
  | 0 => [(w 1, n), (w 2, n)]
  | 1 => [(w 1, 256 * lines)]
  | 2 => [(w 2, n * elemSize c.record), (w 3, 4 * n)]
  | 3 => [(w 1, n * elemSize c.record), (w 3, 4 * n)]
  | 4 | 5 => [(w 2, n)]
  | _ => [(w 1, n)]

/-- Whether a range of a command touches bytes that a transfer moves through the same view (R258). -/
def State.rangeTouches (s : State) (b : Block) (j : TileJob) (x : Word × Nat) : Bool :=
  match j with
  | .transfer _ _ pb po rows =>
    (match s.locate b x.1 1 with
      | .pad blk off => decide (blk = pb) && decide (po < off + x.2) && decide (off < po + 32 * rows.length)
      | _ => false) ||
    rows.any fun r => match r with
      | some r => decide (r.line.tid = 0) && decide (32 * r.vsec < x.1.toNat + x.2) && decide (x.1.toNat < 32 * r.vsec + 32)
      | none => false
  | _ => false

/-- Whether a transfer moves lines of a tile, or lies in the linear view where a command's elements may lie. -/
def jobLines (j : TileJob) (ls : List Line) (elements : Bool) : Bool :=
  match j with
  | .transfer _ _ _ _ rows => rows.any fun r => match r with
    | some r => ls.contains r.line || (elements && decide (r.line.tid = 0))
    | none => false
  | _ => false

/-- Whether a command waits for a transfer that its group issued before the push, since both touch the same bytes through one view (R258, R279). -/
def State.commandHeld (s : State) (c : CopyCmd) : Bool :=
  let ls := if copyKind c.record = 1 then (match s.copyTile c.asid c.record with
    | .inl t => t.lines
    | .inr _ => []) else []
  let elements := decide (copyKind c.record = 2) || decide (copyKind c.record = 3)
  let b := (s.block? c.block).getD (noBlock c.block)
  s.tileOps.any fun o => decide (o.group = c.group) && decide (o.id < c.id) &&
    (jobLines o.job ls elements || (c.ranges ls.length).any fun x => s.rangeTouches b o.job x)

/-- The command that a channel may start: every command before it has written its last byte (R308). -/
def State.nextCommand (s : State) (cl ch : Nat) : Option CopyCmd :=
  match ((s.cluster cl).channel ch).filter fun c => !c.spent with
  | c :: _ => if s.copyDown cl || c.started || s.preemptedBlock c.block || s.commandHeld c then none else some c
  | [] => none

/-- The command that runs on a channel. -/
def State.runningCommand (s : State) (cl ch : Nat) : Option CopyCmd :=
  ((s.cluster cl).channel ch).find? fun c => c.started && !c.spent

/-- Who accesses memory for a copy command: as the group that pushed it, without its block's unconfirmed stores (R279, R283). -/
def State.copyAccessor (s : State) (c : CopyCmd) : Accessor :=
  { core := c.core, fused := (s.cluster (clusterOfCore c.core)).fused, asid := c.asid, group := none, block := none,
    unconfirmed := false }

/-! ### Movement -/

/-- Why a command stops: ST and PST with the failing sector's address and, for an uncorrectable error, its code; or it waits for a walk. -/
inductive CopyStop where
  | fail (st pst : Nat) (va : Word) (code : Nat)
  | miss (va : Word) (c : Access)

/-- A page that cannot be translated for a command: the stop (R312, R313). -/
def missOf (c : CopyCmd) (va : Word) (k : Access) : CopyStop :=
  match c.walkFault with
  | some (page, st) => if va.toNat / 4096 = page then .fail 6 (bits st 3 0) va 0 else .miss va k
  | none => .miss va k

/-- The place of n bytes at an address for a command (R313): windows are resolved against the pushing block. -/
def State.copyPlace (s : State) (c : CopyCmd) (k : Access) (va : Word) (n : Nat) : Place ⊕ CopyStop :=
  match s.locate ((s.block? c.block).getD (noBlock c.block)) va n with
  | .pad blk off => .inl (.pad blk off)
  | .nowhere => .inr (.fail 5 0 va 0)
  | .nonCanonical => .inr (.fail 6 (bits (pageStat k false) 3 0) va 0)
  | .translated _ =>
    match s.translate c.asid va.toNat k c.level1 with
    | none => .inr (missOf c va k)
    | some l => if l.ord = 3 then .inr (.fail 7 0 va 0) else .inl (physPlace l va)

/-- n bytes read for a command. -/
def State.copyRead (s : State) (c : CopyCmd) (va : Word) (n : Nat) : (State × Nat) ⊕ CopyStop :=
  match s.copyPlace c .read va n with
  | .inr e => .inr e
  | .inl pl =>
    let a := s.copyAccessor c
    match (if s.holdsPlace a pl then none else s.placePoison pl) with
    | some code => .inr (.fail 4 0 (va - BitVec.ofNat 64 (va.toNat % 32)) code)
    | none => .inl (s.load a pl n)

/-- A whole sector written for a command; `move` when its sectors become visible in ascending order (R281). -/
def State.copyWrite (s : State) (c : CopyCmd) (va : Word) (ordered : Bool) (v : Nat) : State ⊕ CopyStop :=
  match s.copyPlace c .write va 32 with
  | .inr e => .inr e
  | .inl (.pad blk off) => .inl (s.storePad blk off (valueBytes 32 v))
  | .inl (.phys pa ord key va) =>
    let a := s.copyAccessor c
    let r := placeRef pa ord key va
    if s.portDown pa then .inr (.fail 4 0 va 0)
    else .inl (if ordered then s.writeMoved a r c.id (BitVec.ofNat 256 v) else s.writeSector a r (~~~0) (BitVec.ofNat 256 v))

/-- A value that a command reads at an address: as it stands, as it stood before the command's own writes to those bytes, or as a later write of
the command will leave it, where one will (R313). -/
def State.copyPick (s : State) (c : CopyCmd) (va : Word) (now : Nat) (ahead : List Nat) : Nat × State :=
  let vs := now :: (c.kept.filter fun x => decide (x.1 = va.toNat)).map (·.2) ++ ahead
  if vs.all fun v => decide (v = now) then (now, s)
  else
    let (k, s) := s.draw vs.length
    (vs.getD k now, s)

/-- A command that remembers what bytes at an address hold before it writes them. -/
def State.copyKeep (s : State) (c : CopyCmd) (va : Word) (n : Nat) : CopyCmd :=
  match s.copyRead c va n with
  | .inl (_, v) => { c with kept := c.kept ++ [(va.toNat, v)] }
  | .inr _ => c

/-- The source sectors that a linear command's own later writes lay over sector i, as they stand (R313). -/
def State.linearAhead (s : State) (c : CopyCmd) (i : Nat) : List Nat :=
  let src := wordAt c.record 1
  let gap := (src - wordAt c.record 2).toNat
  if gap = 0 ∨ gap % 32 ≠ 0 ∨ copyLen c.record / 32 ≤ i + gap / 32 then []
  else match s.copyRead c (src + BitVec.ofNat 64 (32 * i + gap)) 32 with
    | .inl (_, v) => [v]
    | .inr _ => []

/-- What moving one sector or element of a command leads to. -/
abbrev CopyMove := (State × CopyCmd) ⊕ CopyStop

/-- Sector i of a linear command (R311, R313): each destination sector receives the source sector as it was read before or after the command's own
writes. -/
def State.copySector (s : State) (c : CopyCmd) (i : Nat) : CopyMove :=
  let src := wordAt c.record 1 + BitVec.ofNat 64 (32 * i)
  let dst := wordAt c.record 2 + BitVec.ofNat 64 (32 * i)
  match s.copyRead c src 32 with
  | .inr e => .inr e
  | .inl (s, now) =>
    let (v, s) := s.copyPick c src now (s.linearAhead c i)
    let later := decide (src < dst) && decide ((dst - src).toNat < copyLen c.record - 32 * i)
    let c := if later then s.copyKeep c dst 32 else c
    match s.copyWrite c dst true v with
    | .inr e => .inr e
    | .inl s => .inl (s, c)

/-- Sector i of a fill or zero command. -/
def State.fillSector (s : State) (c : CopyCmd) (v i : Nat) : CopyMove :=
  match s.copyWrite c (wordAt c.record 2 + BitVec.ofNat 64 (32 * i)) false v with
  | .inr e => .inr e
  | .inl s => .inl (s, c)

/-- A row of a tile command (R311): its scratchpad address, its line and row, and its address in the tensor. -/
def State.copyRow (s : State) (c : CopyCmd) (load : Bool) (x : Word × Line × Nat × Option Word) : CopyMove :=
  let a := s.copyAccessor c
  let access : Access := if load then .read else .write
  let write := fun (s : State) (v : Nat) => match s.copyWrite c x.1 true v with
    | .inr e => (.inr e : CopyMove)
    | .inl s => .inl (s, c)
  match s.rowPlace c.asid c.level1 access x.2.1 x.2.2.1 x.2.2.2 with
  | .absent => if load then write s 0 else .inl (s, c)
  | .miss va => .inr (missOf c va access)
  | .badKind va => .inr (.fail 7 0 va 0)
  | .nonCanonical va => .inr (.fail 6 (bits (pageStat access false) 3 0) va 0)
  | .window va => .inr (.fail 6 (bits (pageStat access false) 3 0) va 0)
  | .hit r =>
    if load then
      match (if cacheable r && s.cache.any (isCopy a r) then none else s.poisoned r.pa) with
      | some code => .inr (.fail 4 0 (BitVec.ofNat 64 (32 * r.vsec)) code)
      | none =>
        let (s, d) := s.readSector a r
        write s d.toNat
    else
      match (if s.portDown r.pa then .inr (.fail 4 0 (BitVec.ofNat 64 (32 * r.vsec)) 0) else s.copyRead c x.1 32) with
      | .inr e => .inr e
      | .inl (s, d) => .inl (s.writeMoved a r c.id (BitVec.ofNat 256 d), c)

/-- The address that index i of a gather or scatter names (R311). -/
def State.indexed (s : State) (c : CopyCmd) (base : Word) (i : Nat) : Word ⊕ CopyStop :=
  match s.copyRead c (wordAt c.record 3 + BitVec.ofNat 64 (4 * i)) 4 with
  | .inr e => .inr e
  | .inl (_, idx) =>
    let va := base + BitVec.ofNat 64 (idx * 2 ^ fieldOf c.record 4 13 8)
    if va.toNat % elemSize c.record ≠ 0 then .inr (.fail 10 0 va 0) else .inl va

/-- The source and destination of element i of a gather or scatter (R311). -/
def State.elementEnds (s : State) (c : CopyCmd) (i : Nat) : (Word × Word) ⊕ CopyStop :=
  let off := BitVec.ofNat 64 (elemSize c.record * i)
  let gather := decide (copyKind c.record = 2)
  match s.indexed c (wordAt c.record (if gather then 1 else 2)) i with
  | .inr e => .inr e
  | .inl x => .inl (if gather then (x, wordAt c.record 2 + off) else (wordAt c.record 1 + off, x))

/-- What the first later element that writes an address would leave there (R313). -/
def State.elementAhead (s : State) (c : CopyCmd) (i : Nat) (va : Word) : List Nat :=
  let later := ((List.range (copyLen c.record)).drop (i + 1)).findSome? fun j => match s.elementEnds c j with
    | .inl (src, dst) => if dst = va then some src else none
    | .inr _ => none
  match later.map fun src => s.copyRead c src (elemSize c.record) with
  | some (.inl (_, v)) => [v]
  | _ => []

/-- Element i of a gather or scatter (R311, R313). A destination that an earlier element has written keeps one of the values. -/
def State.copyElement (s : State) (c : CopyCmd) (i : Nat) : CopyMove :=
  let n := elemSize c.record
  match s.elementEnds c i with
  | .inr e => .inr e
  | .inl (src, dst) =>
    match s.copyRead c src n with
    | .inr e => .inr e
    | .inl (s, now) =>
      match s.copyPlace c .write dst n with
      | .inr e => .inr e
      | .inl pl =>
        let down := match pl with
          | .phys pa _ _ _ => s.portDown pa
          | .pad _ _ => false
        if down then .inr (.fail 4 0 (dst - BitVec.ofNat 64 (dst.toNat % 32)) 0)
        else
          let (v, s) := s.copyPick c src now (s.elementAhead c i src)
          let written := c.kept.any fun x => decide (x.1 = dst.toNat)
          let (keep, s) := if written then s.draw 2 else (0, s)
          let c := s.copyKeep c dst n
          .inl (if keep = 0 then s.store (s.copyAccessor c) pl n v else s, c)

/-- Of a failed gather or scatter: which other elements have been written is not stated (R312). -/
def copySome (c : CopyCmd) (skip : Nat) : Nat → Nat → State → State
  | 0, _, s => s
  | n + 1, i, s =>
    let (go, s) := s.draw 2
    if i = skip || decide (go = 1) then copySome c skip n (i + 1) s
    else
      match s.copyElement c i with
      | .inl (s, _) => copySome c skip n (i + 1) s
      | .inr _ => copySome c skip n (i + 1) s

/-- The rows of a tile command in ascending order of destination address (R312). -/
def State.tileCopyRows (s : State) (c : CopyCmd) : List (Word × Line × Nat × Option Word) :=
  match s.copyTile c.asid c.record with
  | .inr _ => []
  | .inl t =>
    let rows := (tileRows t).zipIdx.map fun x => (wordAt c.record 1 + BitVec.ofNat 64 (32 * x.2), x.1)
    if bit (wordAt c.record 0) 48 then sortBy (fun x => (x.2.2.2.getD 0).toNat) (rows.filter fun x => x.2.2.2.isSome) else rows

/-- Sectors or elements that a command moves. -/
def State.copyUnits (s : State) (c : CopyCmd) : Nat :=
  match copyKind c.record with
  | 1 => (s.tileCopyRows c).length
  | 2 | 3 => copyLen c.record
  | _ => copyLen c.record / 32

/-- The sectors or elements of a command from the i-th on (R311 to R313), up to n of them: the state, how many have been moved in all, and the stop. -/
def copyRun (rows : List (Word × Line × Nat × Option Word)) : Nat → CopyCmd → State → State × CopyCmd × Option CopyStop
  | 0, c, s => (s, c, none)
  | n + 1, c, s =>
    let w := fun n => wordAt c.record n
    let next : CopyMove := match copyKind c.record with
      | 0 => s.copySector c c.moved
      | 1 => (match rows[c.moved]? with
        | some x => s.copyRow c (!bit (w 0) 48) x
        | none => .inl (s, c))
      | 4 => s.fillSector c (bytesValue (List.replicate 4 (valueBytes 8 (w 3).toNat)).flatten) c.moved
      | 5 => s.fillSector c 0 c.moved
      | _ => s.copyElement c c.moved
    match next with
    | .inr e => (s, c, some e)
    | .inl (s, c) => copyRun rows n { c with moved := c.moved + 1 } s

/-- The run of a command over its next n sectors or elements. -/
def State.runCopy (s : State) (c : CopyCmd) (n : Nat) : State × CopyCmd × Option CopyStop :=
  copyRun (if copyKind c.record = 1 then s.tileCopyRows c else []) n c s

/-- COUNT of a command that has moved some sectors or elements (R312). -/
def CopyCmd.count (c : CopyCmd) : Nat := if copyKind c.record = 2 ∨ copyKind c.record = 3 then c.moved * elemSize c.record else 32 * c.moved

/-- Whether a command would write a byte outside the own block's scratchpad (R183, R283): of a scatter, any element as its index stands. -/
def State.writesOutside (s : State) (c : CopyCmd) : Bool :=
  let rcd := c.record
  let own := fun (n : Nat) => decide (bits (wordAt rcd n) 63 48 = 0xFF00)
  match copyKind rcd with
  | 1 => bit (wordAt rcd 0) 48 || !own 1
  | 3 => (List.range (copyLen rcd)).any fun i => match s.elementEnds c i with
    | .inl (_, dst) => decide (bits dst 63 48 ≠ 0xFF00)
    | .inr _ => false
  | 6 => false
  | _ => !own 2

/-- A copy command pushed to a channel (R16, R183, R307, R310). A replayed command leaves its token pending. -/
def State.acceptCopy (s : State) (g : Group) (rcd : List Word) (queue : Nat) (binding : Word) (replay : Bool) : Accept :=
  let cl := s.cluster (clusterOfCore g.core)
  let ch := bindUnit binding
  let waiting := ((cl.channel ch).filter fun c => !c.started).length
  if !(decide (waiting < Config.channelDepth) && (replay || decide (s.accepted g < Config.commandLimit))) then .stall 4
  else if g.isPending (fieldOf rcd 0 53 49) && !replay then .stall 2
  else
    match s.validateCopy g rcd replay with
    | some st => .fault 20 (statusWord st)
    | none =>
      let (id, s1) := s.fresh
      let c : CopyCmd :=
        { id := id, group := g.id, block := g.block, asid := (s.blockOf g).asid, core := g.core, record := rcd, level1 := g.level1,
          queue := queue, binding := binding, started := false, moved := 0, popped := 0, kept := [], walkFault := none }
      if !(s.blockOf g).confirmed && s.writesOutside c then .stall 19
      else
        .ok (s1.setCluster (cl.setChannel ch (cl.channel ch ++ [c]))) (g.pend (fieldOf rcd 0 53 49))

/-- The fault that the first read of a completed copy token raises (R312). -/
def copyTokenFault (st : Nat) (v va : Word) (code : Nat) : Option TrapInfo :=
  if st = 4 then some { cause := 17, tval := va, tstat := BitVec.ofNat 64 code, tlane := 0 }
  else if st = 5 || st = 6 || st = 7 || st = 10 then some { cause := 20, tval := v, tstat := 0, tlane := 0 }
  else none

/-- A command ends (R312). -/
def State.finishCopy (s : State) (c : CopyCmd) (st pst count : Nat) (va : Word) (code : Nat) : State :=
  let v := place st 60 ||| place pst 32 ||| place count 0
  ((s.dropCommand c.core c.id).writeToken c.group c.tok v 0 (copyTokenFault st v va code))

/-- Whether a channel waits for a walk. -/
def State.channelWalks (s : State) (cl ch : Nat) : Bool := s.walks.any fun w => w.waiters.any fun x => match x with
  | .copy k n id => decide (k = cl) && decide (n = ch) && ((s.cluster cl).channel ch).any fun c => decide (c.id = id)
  | _ => false

/-- A walk asked for a channel's command (R313). -/
def State.copyWalk (s : State) (cl ch : Nat) (c : CopyCmd) (va : Word) (k : Access) : State :=
  s.requestWalk c.asid va k c.level1 (dieOfCluster cl) (.copy cl ch c.id)

/-- Whether a command must wait for its block's confirmation: an index that has changed since the push leads outside the block (R183, R283). -/
def State.unconfirmedWrite (s : State) (c : CopyCmd) : Bool :=
  ((s.block? c.block).map fun b => !b.confirmed).getD false && s.writesOutside c

/-- `COPY_COMMAND_START` (R308): the command's acquire comes before its first read (R279). Of a command that runs, its next sector or element is
moved, when nothing stops it there (R313). -/
def execCopyCommandStart (cl ch : Nat) (s : State) : Out :=
  match s.nextCommand cl ch with
  | some c =>
    let s := s.setCommand cl ch { c with started := true }
    .next (if bit (wordAt c.record 0) 59 then s.acquire (s.copyAccessor c) (fieldOf c.record 0 57 55) else s)
  | none =>
    match s.runningCommand cl ch with
    | none => .refused (.notEnabled "COPY_COMMAND_START")
    | some c =>
      if c.isStream || s.copyDown cl || s.channelWalks cl ch || s.unconfirmedWrite c || decide (s.copyUnits c ≤ c.moved) then
        .refused (.notEnabled "COPY_COMMAND_START")
      else
        match s.runCopy c 1 with
        | (s', c', none) => .next (s'.setCommand cl ch c')
        | _ => .refused (.notEnabled "COPY_COMMAND_START")

/-- A running command ended, after the release of one with the release flag, whether it has moved everything or has stopped (R279, R312). -/
def State.endCopy (s : State) (c : CopyCmd) (st pst count : Nat) (va : Word) (code : Nat) : State :=
  let s := if bit (wordAt c.record 0) 58 then s.release (s.copyAccessor c) (fieldOf c.record 0 57 55) else s
  s.finishCopy c st pst count va code

/-- `COPY_COMMAND_COMPLETE` (R311 to R313): the running command moves the rest of its bytes, makes its release and writes its completion word; or it
finds a page that is not translated yet, asks for the walk and waits with what it has moved. -/
def execCopyCommandComplete (cl ch : Nat) (s : State) : Out :=
  match s.runningCommand cl ch with
  | none => .refused (.notEnabled "COPY_COMMAND_COMPLETE")
  | some c =>
    if c.isStream || s.copyDown cl || s.channelWalks cl ch || s.unconfirmedWrite c then .refused (.notEnabled "COPY_COMMAND_COMPLETE")
    else
      let total := s.copyUnits c
      let elements := decide (copyKind c.record = 2) || decide (copyKind c.record = 3)
      match s.runCopy c (total - c.moved) with
      | (s', c', none) => .next (s'.endCopy c 0 0 c'.count 0 0)
      | (s', c', some (.fail st pst va code)) =>
        if elements then .next ((copySome c' c'.moved (total - c'.moved) c'.moved s').endCopy c st pst c'.moved va code)
        else .next (s'.endCopy c st pst c'.count va code)
      | (s', c', some (.miss va k)) => .next ((s'.setCommand cl ch c').copyWalk cl ch c va k)

/-! ### Streams -/

/-- Bytes that a stream queue of a core holds (R315). -/
def State.streamBytes (s : State) (core sq : Nat) : List (Nat × Byte) :=
  ((s.core core).streams.find? fun x => decide (x.sq = sq)).elim [] (·.bytes)

/-- A stream queue's contents replaced. -/
def State.setStream (s : State) (core sq : Nat) (bs : List (Nat × Byte)) : State :=
  let c := s.core core
  s.setCore { c with streams := upsert Stream.sq { sq := sq, bytes := bs } c.streams }

/-- The stream commands to a queue of a core that are accepted and not fully delivered, oldest first, with their channels. -/
def State.streamsTo (s : State) (core sq : Nat) : List (Nat × CopyCmd) :=
  sortBy (fun x => x.2.id) (((s.cluster (clusterOfCore core)).channels.flatMap fun x => x.2.map fun c => (x.1, c)).filter fun x =>
    x.2.isStream && decide (x.2.core = core) && decide (x.2.sq = sq) && !x.2.spent)

/-- The stream command that delivers next into a queue, when it may (R308, R315). -/
def State.delivering (s : State) (core sq : Nat) : Option (Nat × CopyCmd) :=
  match s.streamsTo core sq with
  | x :: _ =>
    if x.2.started && !s.copyDown (clusterOfCore core) && !s.channelWalks (clusterOfCore core) x.1 && decide ((s.streamBytes core sq).length + 32 ≤ Config.streamBytes) then
      some x
    else none
  | [] => none

/-- `STREAM_DELIVERY` (R315): the next sector enters the queue; of a replayed stream that begins or ends within a sector, its part of it (R319). -/
def execStreamDelivery (core sq : Nat) (s : State) : Out :=
  match s.delivering core sq with
  | none => .refused (.notEnabled "STREAM_DELIVERY")
  | some (ch, c) =>
    let cl := clusterOfCore core
    let va := wordAt c.record 1 + BitVec.ofNat 64 c.moved
    let n := min (32 - va.toNat % 32) (copyLen c.record - c.moved)
    match s.copyRead c va n with
    | .inr (.miss va k) => .next (s.copyWalk cl ch c va k)
    | .inr (.fail st pst va code) => .next (s.finishCopy c st pst c.moved va code)
    | .inl (s, v) =>
      let s := s.setStream core sq (s.streamBytes core sq ++ (valueBytes n v).map fun b => (c.id, b))
      .next (s.setCommand cl ch { c with moved := c.moved + n })

/-- Bytes popped from a stream queue: each command's count rises, and a command whose last byte is popped completes (R315). -/
def State.popStream (s : State) (core sq n : Nat) : State :=
  let out := (s.streamBytes core sq).take n
  let s := s.setStream core sq ((s.streamBytes core sq).drop n)
  let cl := clusterOfCore core
  let cs := ((s.cluster cl).channels.flatMap fun x => x.2.map fun c => (x.1, c)).filter fun x => out.any fun b => decide (b.1 = x.2.id)
  cs.foldl (fun s x =>
    let c := { x.2 with popped := x.2.popped + (out.filter fun b => decide (b.1 = x.2.id)).length }
    if c.popped = copyLen c.record then s.finishCopy c 0 0 (copyLen c.record) 0 0 else s.setCommand cl x.1 c) s

/-! ### The system channel -/

/-- Bytes moved between physical addresses, sector by sector, under key slot 0. -/
def State.physCopy (s : State) (src dst n : Nat) : State :=
  (List.range (n / 32)).foldl (fun s i => s.storeHome 0 (dst + 32 * i) (s.homeBytes 0 (src + 32 * i) 32)) s

/-- Sectors of a physical range filled with a value of 32 bytes. -/
def State.physFill (s : State) (dst n : Nat) (bs : List Byte) : State :=
  (List.range (n / 32)).foldl (fun s i => s.storeHome 0 (dst + 32 * i) bs) s

/-- Whether a system-channel record is one that the channel accepts (R309, R311). -/
def systemRecordOk (w : List Word) : Bool :=
  (decide (copyKind w = 0) || decide (copyKind w = 4) || decide (copyKind w = 5)) && copyFieldsOk w && decide (fieldOf w 0 59 49 = 0) &&
    copyAligned w && copyLenOk w

/-- Whether a physical range exists (R428). -/
def physRange (a n : Nat) : Bool := physOk a && physOk (a + n - 1)

/-- `SYSTEM_CHANNEL_COMMAND` (R309): the manager's command on physical addresses; its completion word goes to the manager. A reset of the copy engine
restarts it from its beginning: it is performed when the reset is over (R351). DESIGN CHOICE: an address outside every range of R428 is answered
with ST 12, the code of an address that names no storage. -/
def execSystemChannelCommand (cl : Nat) (w : List Word) (s : State) : Out :=
  let kind := copyKind w
  let n := copyLen w
  let src := (wordAt w 1).toNat
  let dst := (wordAt w 2).toNat
  let done := fun (s : State) (v : Word) => Host.Outcome.next (s.setCluster { s.cluster cl with sysDone := (s.cluster cl).sysDone ++ [v] })
  if s.copyDown cl then .refused (.notEnabled "SYSTEM_CHANNEL_COMMAND")
  else if !systemRecordOk w then
    done s (statusWord (if !copyFieldsOk w || decide (fieldOf w 0 59 49 ≠ 0) || decide (kind ≠ 0 ∧ kind ≠ 4 ∧ kind ≠ 5) then 8
      else if !copyAligned w then 10 else 11))
  else if !physRange dst n || (decide (kind = 0) && !physRange src n) then done s (statusWord 12)
  else
    let bad := if kind = 0 then (List.range (n / 32)).findSome? fun i => (s.poisoned (src + 32 * i)).map fun _ => i else none
    let m := match bad with
      | some i => 32 * i
      | none => n
    let s := match kind with
      | 0 => s.physCopy src dst m
      | 4 => s.physFill dst m (List.replicate 4 (valueBytes 8 (wordAt w 3).toNat)).flatten
      | _ => s.physFill dst m (List.replicate 32 0)
    done s (place (if bad.isSome then 4 else 0) 60 ||| place m 0)

end Sys2Proof.Machine
end

