-- ==== Sys2Proof/Machine/QueueRegs.lean ====
section
/-!
DEFINITION. Queue registers and the queue words (R17, R138, R180 to R184, R307, R314, R316, R339).
-/

namespace Sys2Proof.Machine

/-- The queue fault (R180, R181). -/
def queueFault (binding : Word) (u : GUnit) : TrapInfo := { cause := 9, tval := binding, tstat := 0, tlane := u.mask }

/-- PRI of a binding (R180). -/
def bindPri (v : Word) : Nat := bits v 10 8

/-- Whether a group may write a binding (R180, R307). -/
def State.bindingOk (s : State) (g : Group) (v : Word) : Bool :=
  let mask := fun (f : LaunchDesc → BitVec 16) => ((s.descOf g).map fun d => (f d).getLsbD (bindUnit v)).getD false
  decide (bindKind v ≤ 4) && decide (bits v 59 11 = 0) && decide (bits v 7 4 = 0) &&
    (decide (bindKind v = 3) || decide (bindPri v = 0)) &&
    (match bindKind v with
      | 1 => mask (·.chmask)
      | 4 => mask (·.sqmask) && !(s.groups.any fun x => decide (x.core = g.core) && decide (x.id ≠ g.id) && x.bindsStream (bindUnit v))
      | _ => decide (bindUnit v = 0))

/-- The binding of a queue register. -/
def Group.binding (g : Group) (q : Nat) : Word := (g.qb[q]?).getD 0

/-- A binding written; the streams of the queue that the register bound end (R317). -/
def State.rebind (s : State) (g : Group) (q : Nat) (v : Word) : State × Group :=
  let old := g.binding q
  let s := (s.setGroup { g with qb := g.qb.setIfInBounds q v })
  let s := if bindKind old = 4 then s.endStreams g.id fun sq => decide (sq = bindUnit old) else s
  (s, (s.group? g.id).getD g)

/-- `qbind` (R180). -/
def execQbind (m : BitVec 1) (q : BitVec 4) (r : BitVec 5) (s : State) : Out :=
  issue (.qbind m q r) s fun s g u =>
    let v := g.s r.toNat
    if !s.bindingOk g v then .trap (queueFault v u)
    else
      let (s, g) := s.rebind g q.toNat v
      .ok s g u

/-- The words that a push takes from scalars: zero beyond the count (R181). -/
def pushWords (g : Group) (r n : Nat) : List Word :=
  (List.range 8).map fun i => if i ≤ n && decide (r + i < 32) then g.s (r + i) else 0

/-- An entry pushed to the queue of a binding (R181, R183); none when the binding takes no push. -/
def State.pushTo (s : State) (g : Group) (q : Nat) (binding : Word) (ws : List Word) (replay : Bool) : Option Accept :=
  match bindKind binding with
  | 1 => some (s.acceptCopy g ws q binding replay)
  | 2 => some (s.acceptTask g ws q binding replay)
  | 3 =>
    some (if !(s.blockOf g).confirmed then .stall 19
      else if Config.poolEntries ≤ s.poolCount (clusterOfCore g.core) (bindPri binding) then .stall 4
      else
        let (s, g) := s.releaseFor g 3
        .ok (s.poolPut (clusterOfCore g.core) (bindPri binding) (.cont ws)) g)
  | _ => none

/-- `qpush` (R181). -/
def execQpush (m : BitVec 1) (q : BitVec 4) (r : BitVec 5) (n : BitVec 3) (s : State) : Out :=
  issue (.qpush m q r n) s fun s g u =>
    let b := g.binding q.toNat
    match s.pushTo g q.toNat b (pushWords g r.toNat n.toNat) false with
    | none => .trap (queueFault b u)
    | some (.ok s g) => .ok s g u
    | some (.stall x) => .stall x
    | some (.fault cause tval) => .trap { cause := cause, tval := tval, tstat := 0, tlane := u.mask }

/-- The oldest continuation of the highest priority in a cluster's pool (R138, R339). -/
def State.nextCont (s : State) (cl : Nat) : Option (Nat × List Word) :=
  let conts := (s.cluster cl).pool.filterMap fun e => match e.2 with
    | .cont ws => some (e.1, ws)
    | _ => none
  conts.foldl (fun best e => match best with
    | some b => if b.1 < e.1 then some e else some b
    | none => some e) none

/-- A continuation taken from a cluster's pool: the first entry equal to it. -/
def State.takeCont (s : State) (cl : Nat) (e : Nat × List Word) : State :=
  let c := s.cluster cl
  (s.setCluster { c with pool := c.pool.erase (e.1, .cont e.2) }).queueResumes

/-- Scalars written with the first words of an entry (R181). -/
def setWords (g : Group) (r n : Nat) (ws : List Word) : Group :=
  (List.range (n + 1)).foldl (fun g i => g.setS (r + i) (ws.getD i 0)) g

/-- The record whose continuation a block has popped, by its HANDLE (R333, R351). -/
def State.heldBy (s : State) (ws : List Word) (block : Nat) : State :=
  let h := wordAt ws 3
  let mine := fun (r : Fetched) => r.pushed && decide (r.pos % 2 ^ 32 = bits h 31 0) && decide (r.gen.toNat % 65536 = bits h 47 32)
  let mark := fun (r : Fetched) => if mine r then { r with holder := some block } else r
  match s.queue? (bits h 63 48) with
  | some q => s.setQueue { q with records := q.records.map mark }
  | none => s

/-- A pop by a group: the acquire follows the entry's leaving (R183). -/
def State.popFor (s : State) (g : Group) (e : Nat × List Word) : State :=
  ((s.takeCont (clusterOfCore g.core) e).heldBy e.2 g.block).acquireFor g 3

/-- `qpop` (R138, R181). -/
def execQpop (m : BitVec 1) (q : BitVec 4) (r : BitVec 5) (n : BitVec 3) (s : State) : Out :=
  issue (.qpop m q r n) s fun s g u =>
    let b := g.binding q.toNat
    if bindKind b ≠ 3 then .trap (queueFault b u)
    else
      match s.nextCont (clusterOfCore g.core) with
      | none => .stall 3
      | some e =>
        let s := s.popFor g e
        let (s, g) := s.traceValue g u 2 0 (e.2.take (n.toNat + 1))
        .ok s (setWords g r.toNat n.toNat e.2) u

/-- The flag of `qtry`, in every lane of the current mask (R181). -/
def setFlag (g : Group) (u : GUnit) (f : BitVec 3) (v : Bool) : Group := g.setP f.toNat (currentMask g u) (if v then ~~~0 else 0)

/-- `qtry.push` (R181). -/
def execQtryPush (m : BitVec 1) (q : BitVec 4) (r : BitVec 5) (n f : BitVec 3) (s : State) : Out :=
  issue (.qtryPush m q r n f) s fun s g u =>
    let b := g.binding q.toNat
    let answer := fun (s : State) (g : Group) (v : Bool) =>
      let (s, g) := s.traceValue g u 2 0 [BitVec.ofNat 64 (flag v)]
      Res.ok s (setFlag g u f v) u
    match s.pushTo g q.toNat b (pushWords g r.toNat n.toNat) false with
    | none => .trap (queueFault b u)
    | some (.ok s g) => answer s g true
    | some (.stall _) => answer s g false
    | some (.fault cause tval) => .trap { cause := cause, tval := tval, tstat := 0, tlane := u.mask }

/-- `qtry.pop` (R181). -/
def execQtryPop (m : BitVec 1) (q : BitVec 4) (r : BitVec 5) (n f : BitVec 3) (s : State) : Out :=
  issue (.qtryPop m q r n f) s fun s g u =>
    let b := g.binding q.toNat
    if bindKind b ≠ 3 then .trap (queueFault b u)
    else
      match s.nextCont (clusterOfCore g.core) with
      | none =>
        let (s, g) := s.traceValue g u 2 0 [0]
        .ok s (setFlag g u f false) u
      | some e =>
        let s := s.popFor g e
        let (s, g) := s.traceValue g u 2 0 (e.2.take (n.toNat + 1) ++ [1])
        .ok s (setFlag (setWords g r.toNat n.toNat e.2) u f true) u

/-- The status word of `qstat` (R182). -/
def State.queueStatus (s : State) (g : Group) (b : Word) : Word :=
  let cl := s.cluster (clusterOfCore g.core)
  let c := s.core g.core
  let left := Config.commandLimit - s.accepted g
  let (room, used) :=
    match bindKind b with
    | 1 =>
      let n := ((cl.channel (bindUnit b)).filter fun x => !x.started).length
      (min (Config.channelDepth - n) left, n)
    | 2 => (min (Config.taskQueue - c.tasks.length) left, c.tasks.length)
    | 3 => (if (s.blockOf g).confirmed then Config.poolEntries - s.poolCount cl.num (bindPri b) else 0, cl.pool.length)
    | 4 => (0, (s.streamBytes g.core (bindUnit b)).length / 64)
    | _ => (0, 0)
  place (bindKind b) 60 ||| place (min room 0xFFFF) 16 ||| place (min used 0xFFFF) 0

/-- `qstat` (R182). -/
def execQstat (m : BitVec 1) (q : BitVec 4) (r : BitVec 5) (s : State) : Out :=
  issue (.qstat m q r) s fun s g u =>
    let v := s.queueStatus g (g.binding q.toNat)
    let (s, g) := s.traceValue g u 5 0 [v]
    .ok s (g.setS r.toNat v) u

/-- `twait` (R314): the wait and the read are those of every word that names the token. -/
def execTwait (m : BitVec 1) (a : BitVec 5) (s : State) : Out :=
  issue (.twait m a) s fun s g u => .ok s g u

/-- `vqpop` (R316). -/
def execVqpop (m : BitVec 1) (p : BitVec 3) (d : BitVec 6) (q : BitVec 4) (s : State) : Out :=
  issue (.vqpop m p d q) s fun s g u =>
    let ms := activeMask g u p.toNat
    let b := g.binding q.toNat
    let sq := bindUnit b
    if ms = 0 then .ok s g u
    else if bindKind b ≠ 4 then .trap (queueFault b u)
    else
      let n := 4 * g.width
      let bs := ((s.streamBytes g.core sq).take n).map (·.2)
      if bs.length < n then .stall (if (s.streamsTo g.core sq).isEmpty then 3 else 16)
      else
        let s := (s.setGroup g).popStream g.core sq n
        let g := (s.group? g.id).getD g
        let (s, g) := s.traceValue g u 3 0 (bytesWords (n / 8) bs)
        .ok s (g.setVs d.toNat ((lanesOf ms).map fun i => (i, BitVec.ofNat 32 (bytesValue ((bs.drop (4 * i)).take 4))))) u

end Sys2Proof.Machine
end

