-- ==== Sys2Proof/Machine/Tables.lean ====
section
/-!
DEFINITION. Walking the tables of an address space (R389 to R393, R395, R428): the native format, Sv57, and the pages that the device
itself maps.
-/

namespace Sys2Proof.Machine

/-- How a walk without a leaf ends, or an access that its leaf does not permit (R393, R396, R397). -/
inductive WalkEnd where
  | leaf (l : Leaf)
  | notPresent
  /-- `logged` when the routine or FORMAT breaks its contract (R395). -/
  | malformed (logged : Bool)
  | protection
  /-- The leaf names an empty key slot: a protection fault that is never replayable (R393). -/
  | keyMissing
deriving DecidableEq, Repr

/-- The address-space entry of an ASID (R389). -/
def State.space? (s : State) (asid : Nat) : Option AddrSpace := s.spaces.find? fun x => decide (x.asid = asid)

/-- The state with an address-space entry replaced. -/
def State.setSpace (s : State) (x : AddrSpace) : State := { s with spaces := upsert AddrSpace.asid x s.spaces }

/-- FORMAT, VALID, TIMED, FQEN and DKEY of word 0 (R389). -/
def AddrSpace.format (x : AddrSpace) : Nat := bits x.w0 3 0
/-- VALID with no reserved bit set. -/
def AddrSpace.usable (x : AddrSpace) : Bool :=
  bit x.w0 5 && decide (bits x.w0 63 25 = 0) && decide (bits x.w0 15 8 = 0) && !bit x.w0 4
/-- Whether faults go to the fault ring (R396). -/
def AddrSpace.replays (x : AddrSpace) : Bool := x.usable && bit x.w0 7 && !bit x.w0 6
/-- DKEY. -/
def AddrSpace.dkey (x : AddrSpace) : Nat := bits x.w0 24 16

/-- A table load: 8 bytes of physical memory at their home (R395); none outside every range, and at an uncorrectable error. -/
def State.tableLoad (s : State) (pa : Nat) : Option Word :=
  if physOk pa && (s.poisoned pa).isNone then some (BitVec.ofNat 64 (bytesValue (s.homeBytes 0 pa 8))) else none

/-- Frame of an entry (R391). -/
def nativePpn (e : Word) : Nat := bits e 51 12

/-- Whether the fields of a valid native entry keep the rules of R391 at a level, C64 apart. -/
def nativeOk (level : Nat) (e : Word) : Bool :=
  let leaf := bit e 5
  decide (bits e 63 61 = 0) && decide (bits e 11 10 = 0) && !bit e 7 &&
    (if level = 0 then leaf else if level = 3 then !leaf else true) &&
    (if leaf then (decide (level = 0) || (!bit e 6 && decide (nativePpn e % 512 ^ level = 0))) && (!bit e 2 || bit e 1)
     else decide (bits e 4 1 = 0) && !bit e 6 && decide (bits e 9 8 = 0) && decide (bits e 60 52 = 0))

/-- Whether the 16 entries of a group form a 64 KiB page (R391). -/
def bigPageOk (es : List Word) : Bool :=
  match es with
  | [] => false
  | e0 :: _ =>
    decide (nativePpn e0 % 16 = 0) && es.zipIdx.all fun x =>
      bit x.1 6 && decide (nativePpn x.1 = nativePpn e0 + x.2) && decide (bits x.1 11 0 = bits e0 11 0) &&
        decide (bits x.1 63 52 = bits e0 63 52)

/-- The leaf of a native entry at a level, for the 4 KiB page of an address (R390, R391). -/
def nativeLeaf (level : Nat) (e : Word) (va : Nat) : Leaf :=
  { frame := nativePpn e * 4096 + va / 4096 % 512 ^ level * 4096, r := bit e 1, w := bit e 2, x := bit e 3, p := bit e 4,
    ord := bits e 9 8, key := bits e 60 52 }

/-- The walk of the native format from a level down (R390, R391). -/
def nativeWalk (s : State) (va : Nat) : Nat → Nat → WalkEnd
  | level, base =>
    let idx := va / 2 ^ (12 + 9 * level) % (if level = 3 then 2 ^ 17 else 512)
    match s.tableLoad (base + 8 * idx) with
    | none => .malformed false
    | some e =>
      if !bit e 0 then .notPresent
      else if !nativeOk level e then .malformed false
      else
        match level with
        | 0 =>
          if bit e 6 then
            let first := base + 8 * (idx / 16 * 16)
            match (List.range 16).mapM fun i => s.tableLoad (first + 8 * i) with
            | some es => if bigPageOk es then .leaf (nativeLeaf 0 e va) else .malformed false
            | none => .malformed false
          else .leaf (nativeLeaf 0 e va)
        | l + 1 => if bit e 5 then .leaf (nativeLeaf (l + 1) e va) else nativeWalk s va l (nativePpn e * 4096)

/-- Frame of an Sv57 entry. -/
def svPpn (e : Word) : Nat := bits e 53 10

/-- The ordering kind of PBMT (R392). -/
def svOrd (e : Word) : Nat :=
  match bits e 62 61 with
  | 0 => 1
  | 1 => 2
  | 2 => 0
  | _ => 3

/-- The walk of the Sv57 format from a level down (R392), for a write or not; the leaf permits no write while D is 0. The rules of an entry are those of the RISC-V privileged
architecture: PRESUMED. -/
def svWalk (s : State) (va dkey : Nat) (write : Bool) : Nat → Nat → WalkEnd
  | level, base =>
    match s.tableLoad (base + 8 * (va / 2 ^ (12 + 9 * level) % 512)) with
    | none => .malformed false
    | some e =>
      let leaf := bit e 1 || bit e 3
      if !bit e 0 then .notPresent
      else if bit e 63 || decide (bits e 60 54 ≠ 0) || (bit e 2 && !bit e 1) then .malformed false
      else if leaf then
        if svPpn e % 512 ^ level ≠ 0 then .malformed false
        else if !bit e 6 || (write && !bit e 7) then .notPresent
        else .leaf { frame := svPpn e * 4096 + va / 4096 % 512 ^ level * 4096, r := bit e 1, w := bit e 2 && bit e 7, x := bit e 3, p := false,
                     ord := svOrd e, key := dkey }
      else if bit e 4 || bit e 6 || bit e 7 || decide (bits e 62 61 ≠ 0) then .malformed false
      else
        match level with
        | 0 => .malformed false
        | l + 1 => svWalk s va dkey write l (svPpn e * 4096)

/-- Bytes of a page of a size (R395). -/
def pageBytes (size : Nat) : Nat :=
  match size with
  | 0 => 2 ^ 12
  | 1 => 2 ^ 16
  | 2 => 2 ^ 21
  | _ => 2 ^ 30

/-- A loaded routine after some table loads, with so many moves left: a further load breaks its contract (R395). -/
def State.runRoutine (s : State) (x : AddrSpace) (va : Nat) (c : Access) (level1 : Bool) : Nat → List Word → WalkEnd
  | 0, _ => .malformed true
  | n + 1, loads =>
    match Config.routine x.format { va := BitVec.ofNat 64 va, asid := x.asid, cls := c.cls, level1 := level1, w0 := x.w0, w1 := x.root } loads with
    | .load pa => (match s.tableLoad pa with
      | some e => s.runRoutine x va c level1 n (loads ++ [e])
      | none => .malformed false)
    | .leaf base size r w k p ord key =>
      .leaf { frame := base + va % pageBytes size / 4096 * 4096, r := r, w := w, x := k, p := p, ord := ord, key := key }
    | .notPresent => .notPresent
    | .malformed => .malformed false
    | .breach => .malformed true

/-- Whether the walkers' store holds a routine for a FORMAT from 2 to 7: their firmware slot's image runs and brings it (R377, R395). -/
def State.routineLoaded (s : State) (format : Nat) : Bool :=
  decide (format ≤ 7) && s.slots.contains (2, true) && Config.hasRoutine format

/-- The walk of an address space for the page of a translated address (R389, R395, R428). -/
def State.walkTables (s : State) (x : AddrSpace) (va : Nat) (c : Access) (level1 : Bool) : WalkEnd :=
  let r : WalkEnd := match x.format with
    | 0 => nativeWalk s va 3 x.root.toNat
    | 1 => svWalk s va x.dkey (decide (c.cls = 1)) 4 x.root.toNat
    | f => if s.routineLoaded f then s.runRoutine x va c level1 65 [] else .malformed true
  match r with
  | .leaf l => if physOk l.frame then r else .malformed false
  | _ => r

/-- The walk for an access: a page that the device has mapped, else the tables; then the permission of R393. -/
def State.walkFor (s : State) (asid va : Nat) (c : Access) (level1 : Bool) : WalkEnd :=
  let r : WalkEnd := match s.space? asid with
    | none => .notPresent
    | some x =>
      if !x.usable then .notPresent
      else match s.mapped.find? fun e => decide (e.asid = asid) && decide (e.page = va / 4096) with
        | some e => .leaf e.leaf
        | none => s.walkTables x va c level1
  match r with
  | .leaf l => if s.keyMissing l then .keyMissing else if permits l c level1 then r else .protection
  | _ => r

/-- The translation that an engine of the device makes for itself, which waits for no reply (R337, R366, R393). -/
def State.walkNow (s : State) (asid : Nat) (va : Word) (c : Access) (level1 : Bool) : Option Leaf :=
  if bits va 63 56 ≠ 0 then none
  else match s.walkFor asid va.toNat c level1 with
    | .leaf l => if l.ord = 3 then none else some l
    | _ => none

/-- The bytes of a range that an engine of the device reads at their homes, page by page; none where a page cannot be read. -/
def State.readVirtual (s : State) (asid : Nat) (va : Word) : Nat → Nat → Option (List Byte)
  | _, 0 => some []
  | 0, _ => none
  | fuel + 1, n =>
    match s.walkNow asid va .read true with
    | none => none
    | some l =>
      let k := min n (4096 - va.toNat % 4096)
      let pa := leafAddr l va.toNat
      if (List.range (k / 32 + 2)).any fun i => decide (pa / 32 + i ≤ (pa + k - 1) / 32) && (s.poisoned (pa + 32 * i)).isSome then none
      else (s.readVirtual asid (va + BitVec.ofNat 64 k) fuel (n - k)).map fun bs => s.homeBytes l.key pa k ++ bs

/-- n bytes of memory that an engine of the device reads by virtual address. -/
def State.readRange (s : State) (asid : Nat) (va : Word) (n : Nat) : Option (List Byte) := s.readVirtual asid va (n / 4096 + 2) n

/-- A virtual word written by an engine of the device at its home. -/
def State.writeVirtual (s : State) (asid : Nat) (va : Word) (v : Word) : Option State :=
  (s.walkNow asid va .write true).map fun l => s.storeHome l.key (leafAddr l va.toNat) (valueBytes 8 v.toNat)

/-- A page mapped by the device, and the translation of it that was held dropped. -/
def State.mapPage (s : State) (e : TlbEntry) : State :=
  let other := fun (x : TlbEntry) => !(decide (x.asid = e.asid) && decide (x.page = e.page))
  { s with mapped := e :: s.mapped.filter other, tlb := s.tlb.filter other }

/-- Some pages of an address space unmapped, and their translations dropped. -/
def State.unmapPages (s : State) (asid first n : Nat) : State :=
  let other := fun (x : TlbEntry) => !(decide (x.asid = asid) && decide (first ≤ x.page) && decide (x.page < first + n))
  { s with mapped := s.mapped.filter other, tlb := s.tlb.filter other }

end Sys2Proof.Machine
end

