-- ==== Sys2Proof/Machine/Layers.lean ====
section
/-!
DEFINITION. Model residency (R320 to R328): residency words, layer requests, fetches and evictions, and the words that hold layers.
-/

namespace Sys2Proof.Machine

/-! ### Residency words -/

/-- STATE of a residency word (R321). -/
def resState (w : Word) : Nat := bits w 63 61
/-- PIN. -/
def resPin (w : Word) : Bool := bit w 60
/-- PRI. -/
def resPri (w : Word) : Nat := bits w 59 56
/-- HOLD. -/
def resHold (w : Word) : Nat := bits w 55 40
/-- ERR. -/
def resErr (w : Word) : Nat := bits w 39 32
/-- GEN. -/
def resGen (w : Word) : Nat := bits w 31 0

/-- A residency word with STATE and ERR replaced. -/
def resWith (w : Word) (st err : Nat) : Word :=
  place st 61 ||| place (bits w 60 40) 40 ||| place err 32 ||| place (resGen w) 0

/-- The residency word of a layer at its home. -/
def State.readRes (s : State) (l : Layer) : Word := BitVec.ofNat 64 (bytesValue (s.homeBytes l.resKey l.resWord 8))

/-- One indivisible write of a residency word at its home (R321). -/
def State.writeRes (s : State) (l : Layer) (w : Word) : State := s.storeHome l.resKey l.resWord (valueBytes 8 w.toNat)

/-- The model context with a number. -/
def State.model? (s : State) (id : Nat) : Option Model := s.models.find? fun m => decide (m.id = id)

/-- The state with a model context replaced. -/
def State.setModel (s : State) (m : Model) : State := { s with models := upsert Model.id m s.models }

/-- The registered layer of a context whose residency word lies at a physical address (R325). -/
def State.layerAt (s : State) (asid pa : Nat) : Option (Model × Nat × Layer) :=
  s.models.findSome? fun m =>
    if m.asid = asid then
      (m.layers.zipIdx.find? fun x => decide (x.1.resWord = pa)).map fun x => (m, x.2, x.1)
    else none

/-- The layers n + 1 to n + L that are absent become arriving (R323). -/
def State.requestAfter (s : State) (m : Model) (n : Nat) : State :=
  (List.range m.lookahead).foldl (fun s k =>
    match m.layers[n + 1 + k]? with
    | some l => if resState (s.readRes l) = 0 then s.writeRes l (resWith (s.readRes l) 1 0) else s
    | none => s) s

/-- A layer made arriving, with its lookahead (R322, R323). -/
def State.requestLayer (s : State) (m : Model) (n : Nat) (l : Layer) : State :=
  (s.writeRes l (resWith (s.readRes l) 1 0)).requestAfter m n

/-! ### Fetch and eviction -/

/-- 4 KiB pages of a layer's weights. -/
def Layer.pages (l : Layer) : Nat := (l.wsize + 4095) / 4096

/-- The lowest layer of a model context in a state. -/
def State.layerIn (s : State) (m : Model) (st : Nat) : Option (Nat × Layer) :=
  (m.layers.zipIdx.find? fun x => decide (resState (s.readRes x.1) = st)).map fun x => (x.2, x.1)

/-- The layer that the evictor takes (R324): resident, without a hold or a pin; lowest PRI, then the earliest resident, then the lowest
number. -/
def State.victim (s : State) (m : Model) : Option (Nat × Layer) :=
  (m.layers.zipIdx.foldl (fun (best : Option (Nat × Layer)) x =>
    let w := s.readRes x.1
    if resState w = 3 && decide (resHold w = 0) && !resPin w then
      match best with
      | some (_, b) =>
        let wb := s.readRes b
        if resPri w < resPri wb || (decide (resPri w = resPri wb) && decide (x.1.since < b.since)) then some (x.2, x.1) else best
      | none => some (x.2, x.1)
    else best) none)

/-- The leaf of a page that the device maps. DESIGN CHOICE: the spec gives no key for such a page; it takes DKEY. -/
def State.deviceLeaf (s : State) (asid frame : Nat) (x : Bool) : Leaf :=
  { frame := frame, r := true, w := false, x := x, p := false, ord := 1, key := ((s.space? asid).map (·.dkey)).getD 0 }

/-- A layer of a model context replaced. -/
def Model.setLayer (m : Model) (n : Nat) (l : Layer) : Model := { m with layers := m.layers.set n l }

/-- Pages from the pool, each filled with zeros first (R23, R309), mapped behind a layer's weights (R323, step 1). -/
def State.mapLayer (s : State) (m : Model) (n : Nat) (l : Layer) : State :=
  let frames := m.pool.take l.pages
  let s := frames.zipIdx.foldl (fun s x =>
    let leaf := s.deviceLeaf m.asid x.1 false
    (s.storeRange leaf.key x.1 (List.replicate 4096 0)).mapPage { asid := m.asid, page := l.wbase.toNat / 4096 + x.2, leaf := leaf }) s
  s.setModel { m.setLayer n { l with frames := frames } with pool := m.pool.drop l.pages, fetching := some n }

/-- A layer's pages unmapped and returned to the pool. -/
def State.unmapLayer (s : State) (m : Model) (n : Nat) (l : Layer) : State :=
  (s.unmapPages m.asid (l.wbase.toNat / 4096) l.pages).setModel
    { m.setLayer n { l with frames := [] } with pool := m.pool ++ l.frames }

/-- What a model context does next towards a fetch (R323, R324). -/
inductive FetchStep where
  | start (n : Nat) (l : Layer)
  | evict (n : Nat) (l : Layer)
  | wait

/-- The next step of a model context's fetches. -/
def State.fetchStep (s : State) (m : Model) : FetchStep :=
  match m.fetching, s.layerIn m 1 with
  | none, some (n, l) =>
    if l.pages ≤ m.pool.length then .start n l
    else if (s.layerIn m 2).isSome then .wait
    else (match s.victim m with
      | some (k, v) => .evict k v
      | none => .wait)
  | _, _ => .wait

/-- Whether the addresses of a layer's weights have no translation: they are not translated addresses, or the address space maps nothing (R321,
R388, R389). -/
def State.noWeights (s : State) (m : Model) (l : Layer) : Bool :=
  decide (2 ^ 56 < l.wbase.toNat + l.wsize) || !((s.space? m.asid).map (·.usable)).getD false

/-- A fetch fails (R322). DESIGN CHOICE: its pages return to the pool. -/
def State.failFetch (s : State) (m : Model) (n : Nat) (l : Layer) (err : Nat) : State :=
  let s := s.dropWaiters fun x => decide (x = .layer m.id)
  let s := s.unmapLayer { m with fetching := none } n l
  s.writeRes l (resWith (s.readRes l) 4 err)

/-- `LAYER_FETCH_START` (R323, R324): the lowest arriving layer's pages are mapped, or its fetch fails where WBASE has no translation; or a layer is
claimed for eviction. -/
def execLayerFetchStart (mdl : Nat) (s : State) : Out :=
  match s.model? mdl with
  | none => .refused (.notEnabled "LAYER_FETCH_START")
  | some m =>
    match s.fetchStep m with
    | .start n l => .next (if s.noWeights m l then s.failFetch m n l 6 else s.mapLayer m n l)
    | .evict _ v => .next (s.writeRes v (resWith (s.readRes v) 2 0))
    | .wait => .refused (.notEnabled "LAYER_FETCH_START")

/-- `EVICTION_COMPLETE` (R322). -/
def execEvictionComplete (mdl layer : Nat) (s : State) : Out :=
  match s.model? mdl with
  | none => .refused (.notEnabled "EVICTION_COMPLETE")
  | some m =>
    match m.layers[layer]? with
    | none => .refused (.notEnabled "EVICTION_COMPLETE")
    | some l =>
      if resState (s.readRes l) = 2 then
        let s := s.unmapLayer m layer l
        .next (s.writeRes l (resWith (s.readRes l) 0 0))
      else .refused (.notEnabled "EVICTION_COMPLETE")

/-- Spans of a compressed region decoded into n bytes of weights, 256 sectors a span; none unless the source is used up exactly
(R323). -/
def decodeSpans : Nat → Nat → List Byte → Option (List Byte)
  | 0, n, src => if n = 0 && src.isEmpty then some [] else none
  | fuel + 1, n, src =>
    if n = 0 then (if src.isEmpty then some [] else none)
    else if src.length < 32 then none
    else
      let mask := bytesValue (src.take 32)
      let here := min (n / 32) 256
      let body := (List.range here).foldl (fun (acc : Option (List Byte × List Byte)) k =>
        acc.bind fun (out, rest) =>
          if mask / 2 ^ k % 2 = 1 then
            (if rest.length < 32 then none else some (out ++ rest.take 32, rest.drop 32))
          else some (out ++ List.replicate 32 0, rest)) (some ([], src.drop 32))
      match body with
      | none => none
      | some (out, rest) => (decodeSpans fuel (n - 32 * here) rest).map fun more => out ++ more

/-- An entry of a model's NVMe queue-pair table (R435): the root port, the namespace, log₂ of the logical block size, and the entries of the queues. -/
structure QueuePair where
  port  : Nat
  ns    : Nat
  block : Nat
  depth : Nat
deriving DecidableEq, Repr

/-- The queue pair SRCQ of a layer (R323, R435), read where its table lies. -/
def State.queuePair (s : State) (m : Model) (l : Layer) : QueuePair :=
  let ws := bytesWords 8 (s.homeBytes 0 (m.nvmeTable + 64 * l.srcq) 64)
  { port := fieldOf ws 4 18 16, ns := fieldOf ws 4 63 32, block := 9 + fieldOf ws 5 3 0, depth := fieldOf ws 4 15 0 + 1 }

/-- The logical blocks that the NVMe Read commands of a layer name, from SRCADDR on: first block, count, and the namespace and root port asked
(R323). None where SRCLEN is no whole number of blocks. -/
def State.nvmeReads (s : State) (m : Model) (l : Layer) : Option (Nat × Nat × QueuePair) :=
  let q := s.queuePair m l
  if l.srclen % 2 ^ q.block = 0 then some (l.srcaddr.toNat, l.srclen / 2 ^ q.block, q) else none

/-- Whether a source of SRCKIND 2 lies in the window of the link port that the layer names (R320, R323). -/
def State.overPort (s : State) (asid : Nat) (l : Layer) : Bool :=
  (List.range ((l.srcaddr.toNat % 4096 + l.srclen + 4095) / 4096)).all fun i =>
    let at_ := if i = 0 then l.srcaddr else BitVec.ofNat 64 (l.srcaddr.toNat / 4096 * 4096 + 4096 * i)
    match s.walkNow asid at_ .read true with
    | some f => isPeer (leafAddr f at_.toNat) && decide ((leafAddr f at_.toNat - 2 ^ 50) / 2 ^ 41 = l.srcq)
    | none => true

/-- What stops the reading of a fetch's source: an ERR code, or a page whose fault system software may still mend (R396, R397). -/
def State.sourceStop (s : State) (asid : Nat) (va : Word) (n : Nat) : Option (Nat ⊕ Word) :=
  (List.range ((va.toNat % 4096 + n + 4095) / 4096)).findSome? fun i =>
    let at_ := if i = 0 then va else BitVec.ofNat 64 (va.toNat / 4096 * 4096 + 4096 * i)
    if bits at_ 63 56 ≠ 0 then some (.inl 6)
    else
      match s.walkFor asid at_.toNat .read true with
      | .leaf l => if l.ord = 3 then some (.inl 6) else none
      | .notPresent | .protection =>
        some (if ((s.space? asid).map (·.replays)).getD false then .inr at_ else .inl 6)
      | _ => some (.inl 6)

/-- What a fetch has brought: the weights, an ERR code, or a page to wait for (R321, R323); none when the source does not fit the
layer's kind. -/
def State.fetched (s : State) (m : Model) (l : Layer) (o : FetchOutcome) : Option (List Byte ⊕ (Nat ⊕ Word)) :=
  match o with
  | .failed err => if err = 1 || err = 2 || err = 4 then some (.inr (.inl err)) else none
  | .nvme data =>
    if l.srckind ≠ 1 then none
    else if l.srclen ≠ l.wsize then some (.inr (.inl 5))
    else
      match s.nvmeReads m l with
      | none => some (.inr (.inl 1))
      | some (_, n, q) => if data.length = n * 2 ^ q.block then some (.inl data) else some (.inr (.inl 1))
  | .inMemory =>
    if l.srckind = 1 then none
    else if l.srckind ≠ 3 && decide (l.srclen ≠ l.wsize) then some (.inr (.inl 5))
    else
      match s.sourceStop m.asid l.srcaddr l.srclen with
      | some e => some (.inr e)
      | none =>
        if l.srckind = 2 && !s.overPort m.asid l then some (.inr (.inl 1))
        else match s.readRange m.asid l.srcaddr l.srclen with
        | none => some (.inr (.inl (if l.srckind = 2 && s.links.any fun p => p.down && decide (p.port = l.srcq) then 2 else 4)))
        | some bs =>
          if l.srckind = 3 then
            (match decodeSpans (l.wsize / 8192 + 1) l.wsize bs with
              | some out => some (.inl out)
              | none => some (.inr (.inl 5)))
          else some (.inl bs)

/-- A layer's weights written into its frames (R323, step 2). -/
def State.writeWeights (s : State) (m : Model) (l : Layer) (bs : List Byte) : State :=
  l.frames.zipIdx.foldl (fun s x =>
    s.storeRange (s.deviceLeaf m.asid x.1 false).key x.1 ((bs.drop (4096 * x.2)).take 4096)) s

/-- A layer published (R282, R322). -/
def State.publish (s : State) (m : Model) (n : Nat) (l : Layer) : State :=
  let (id, s) := s.fresh
  let s := s.setModel { m.setLayer n { l with since := id } with fetching := none }
  let w := s.readRes l
  s.writeRes l (place 3 61 ||| place (bits w 60 40) 40 ||| place ((resGen w + 1) % 2 ^ 32) 0)

/-- Whether a model context's fetch waits for a walk. -/
def State.modelWalks (s : State) (mdl : Nat) : Bool := s.walks.any fun w => w.waiters.contains (.layer mdl)

/-- `LAYER_FETCH_END` (R322, R323): the source has answered. The weights are written and checked, and the layer is published or fails. -/
def execLayerFetchEnd (mdl : Nat) (outcome : FetchOutcome) (s : State) : Out :=
  match s.model? mdl with
  | none => .refused (.notEnabled "LAYER_FETCH_END")
  | some m =>
    match m.fetching.bind fun n => (m.layers[n]?).map fun l => (n, l) with
    | none => .refused (.notEnabled "LAYER_FETCH_END")
    | some (n, l) =>
      if s.modelWalks mdl then .refused (.notEnabled "LAYER_FETCH_END")
      else
        match s.fetched m l outcome with
        | none => .refused (.notEnabled "LAYER_FETCH_END")
        | some (.inr (.inl err)) => .next (s.failFetch m n l err)
        | some (.inr (.inr va)) => .next (s.requestWalk m.asid va .read true 0 (.layer mdl))
        | some (.inl bs) =>
          let s := s.writeWeights m l bs
          if (crc32c bs).toNat = l.check then .next (s.publish m n l) else .next (s.failFetch m n l 3)

/-! ### The words -/

/-- The swap fault (R328). -/
def swapFault (va : Word) (w : Word) (extra : Nat) (u : GUnit) : TrapInfo :=
  { cause := 18, tval := va, tstat := place (resState w) 0 ||| place extra 0 ||| place (resErr w) 8, tlane := u.mask }

/-- The checks of R325, and the layer that a word names: continues with its place, model, number and layer. The words act on the residency
word as atomics do, so a UN page raises the page-kind fault (R233, R261). DEDUCED. -/
def withLayer (s : State) (g : Group) (u : GUnit) (va : Word) (k : Place → Model → Nat → Layer → Res) : Res :=
  withPlace s g u .read 8 false true va fun pl =>
    if placeOrd pl = 2 then .trap (pageKindFault va pl u)
    else
      match s.placePoison pl with
      | some code => .trap (containedFault va code u.mask)
      | none =>
        match pl with
        | .pad _ _ => .trap (swapFault va 0 32 u)
        | .phys pa _ _ _ =>
          match s.layerAt (s.blockOf g).asid pa with
          | none => .trap (swapFault va 0 32 u)
          | some (m, n, l) => k pl m n l

/-- `lacq` (R326): the watch is armed before the word is read, so a unit for which no watch entry is free waits for one first (R246). -/
def execLacq (m : BitVec 1) (d a : BitVec 5) (s : State) : Out :=
  issue (.lacq m d a) s fun s g u =>
    let va := g.s a.toNat
    withLayer s g u va fun pl mdl n l =>
      let b := s.blockOf g
      let w := s.readRes l
      if !b.confirmed then .stall 19
      else if !s.mayWatch g u then .wait (s.queueWatch g u) g { u with wait := .watchEntry 20 }
      else
      let s := s.unqueueWatch g u
      if resState w = 3 && decide (b.holds.length < 16) && decide (resHold w < 0xFFFF) then
        let w' := w + place 1 40
        let s := s.setBlock { b with holds := b.holds ++ [(l.resWord, l.resKey)] }
        let s := (s.writeRes l w').acquireFor g 3
        let (s, g) := s.traceValue g u 5 0 [w']
        .ok s (g.setS d.toNat w') u
      else if resState w = 4 then .trap (swapFault va w 0 u)
      else if resState w = 3 && decide (16 ≤ b.holds.length) then .trap (swapFault va w 8 u)
      else if b.timed then .trap (swapFault va w 64 u)
      else
        match s.armWatch g u (placeSector pl) with
        | none => .wait (s.queueWatch g u) g { u with wait := .watchEntry 20 }
        | some s =>
          let s := if resState w = 0 then s.requestLayer mdl n l else s
          .wait s g { u with wait := .layer (placeSector pl) }

/-- A list without its first occurrence of a hold. -/
def dropHold (hs : List (Nat × Nat)) (pa : Nat) : List (Nat × Nat) := hs.eraseP fun h => decide (h.1 = pa)

/-- `lrel` (R327): its release is an effect beyond the core, for which an unconfirmed block holds (R283). -/
def execLrel (m : BitVec 1) (a : BitVec 5) (s : State) : Out :=
  issue (.lrel m a) s fun s g u =>
    let va := g.s a.toNat
    withLayer s g u va fun _ _ _ l =>
      let b := s.blockOf g
      if !b.confirmed then .stall 19
      else if !(b.holds.any fun h => decide (h.1 = l.resWord)) then .trap (swapFault va (s.readRes l) 16 u)
      else
        let (s, g) := s.releaseFor g 3
        let s := s.writeRes l (s.readRes l - place 1 40)
        .ok (s.setBlock { s.blockOf g with holds := dropHold (s.blockOf g).holds l.resWord }) g u

/-- What `lstat` and `lstat.retry` share: the acquire and the word read (R327). -/
def lstatWord (i : Instr) (d a : BitVec 5) (retry : Bool) (s : State) : Out :=
  issue i s fun s g u =>
    withLayer s g u (g.s a.toNat) fun _ mdl n l =>
      let w := s.readRes l
      let s := if retry && decide (resState w = 4) then s.requestLayer mdl n l else s
      let s := s.acquireFor g 3
      let (s, g) := s.traceValue g u 5 0 [w]
      .ok s (g.setS d.toNat w) u

/-- `lstat` (R327). -/
def execLstat (m : BitVec 1) (d a : BitVec 5) (s : State) : Out := lstatWord (.lstat m d a) d a false s

/-- `lstat.retry` (R322, R327). -/
def execLstatRetry (m : BitVec 1) (d a : BitVec 5) (s : State) : Out := lstatWord (.lstatRetry m d a) d a true s

/-! ### Registration -/

/-- A layer-table entry as a layer, its residency word at a physical address under a key (R320). -/
def layerOf (ws : List Word) (pa key : Nat) : Layer :=
  { check := fieldOf ws 7 63 32, srcaddr := wordAt ws 6, srclen := fieldOf ws 5 63 24, srckind := fieldOf ws 5 23 20,
    srcq := fieldOf ws 5 19 12, wsize := fieldOf ws 3 63 24, wbase := wordAt ws 2, pin := bit (wordAt ws 0) 0,
    resWord := pa, resKey := key, frames := [], since := 0 }

/-- Whether registration accepts a layer-table entry, with a number of NVMe queue pairs (R320). -/
def layerEntryOk (ws : List Word) (nvme : Nat) : Bool :=
  decide (fieldOf ws 0 63 1 = 0) && decide (wordAt ws 1 = 0) && decide (fieldOf ws 3 23 0 = 0) && decide (wordAt ws 4 = 0) &&
    decide (fieldOf ws 5 11 0 = 0) && decide (fieldOf ws 7 31 0 = 0) && decide (fieldOf ws 5 23 20 ≤ 3) &&
    decide (fieldOf ws 3 63 24 % 256 = 0) && decide ((wordAt ws 2).toNat % 4096 = 0) &&
    (match fieldOf ws 5 23 20 with
      | 1 => decide (fieldOf ws 5 19 12 < nvme)
      | 2 => decide (fieldOf ws 5 19 12 ≤ 11)
      | _ => decide (fieldOf ws 5 19 12 = 0))

/-- Whether the weight ranges of a list of layers are disjoint (R320). -/
def weightsApart : List Layer → Bool
  | [] => true
  | l :: rest =>
    (rest.all fun x => decide (l.wbase.toNat + l.wsize ≤ x.wbase.toNat) || decide (x.wbase.toNat + x.wsize ≤ l.wbase.toNat)) &&
      weightsApart rest

/-- A registered model context with its residency words written: absent, PIN, PRI (R321). -/
def State.register (s : State) (m : Model) : State :=
  m.layers.foldl (fun s l => s.writeRes l (place (flag l.pin) 60 ||| place m.pri 56)) { s with models := s.models ++ [m] }

end Sys2Proof.Machine
end

