-- ==== Sys2Proof/Machine/Fentos.lean ====
section
/-!
DEFINITION. Queues and Fentos threads (R329 to R349): descriptors, fetching and validating records, dependences, admission, pushing into
pools, retirement, and the words `wdone`, `wsig` and `qrestart`.
-/

namespace Sys2Proof.Machine

/-! ### Descriptor words -/

/-- Word i of a queue's descriptor (R329). -/
def State.descWord (s : State) (q : Queue) (i : Nat) : Word := BitVec.ofNat 64 (bytesValue (s.homeBytes q.descKey (q.desc + 8 * i) 8))

/-- Word i of a queue's descriptor, written by the device. -/
def State.setDescWord (s : State) (q : Queue) (i : Nat) (v : Word) : State := s.storeHome q.descKey (q.desc + 8 * i) (valueBytes 8 v.toNat)

/-- WIDX of a queue. -/
def State.widx (s : State) (q : Queue) : Nat := (s.descWord q 2).toNat

/-- Word 1 with another STATE and ERR; ERR is 0 unless STATE is 4 (R329). -/
def stateWord (w : Word) (st err : Nat) : Word :=
  place st 60 ||| place (if st = 4 then err else 0) 52 ||| (w &&& 0x000FFFFFFFFFFFFF)

/-- A queue in another state, mirrored into its descriptor (R337). A queue that was idle already stays idle since it became so (R334). -/
def State.setQueueState (s : State) (q : Queue) (st err : Nat) : State :=
  let s := s.setQueue { q with state := st, err := err, idleSince := if st = 1 && decide (q.state ≠ 1) then s.steps else q.idleSince }
  s.setDescWord q 1 (stateWord (s.descWord q 1) st err)

/-- A queue in the error state: ERRPOS, its RIDX, is written before the one write of STATE and ERR (R337, R379). Where the descriptor lies behind a
link port that is down, both writes are performed or neither. -/
def State.enterError (s : State) (q : Queue) : State :=
  let s := s.setQueue { q with state := 4 }
  s.settles q.desc fun s =>
    let s := s.putHome q.descKey (q.desc + 48) (valueBytes 8 (s.descWord q 3).toNat)
    s.putHome q.descKey (q.desc + 8) (valueBytes 8 (stateWord (s.descWord q 1) 4 q.err).toNat)

/-- A draining queue that has nothing left is in error (R337). -/
def State.settleQueue (s : State) (qid : Nat) : State :=
  match s.queue? qid with
  | none => s
  | some q => if q.state = 3 && q.records.isEmpty then s.enterError q else s

/-- A queue meets an error (R336, R337, R345): it drains, then enters the error state. -/
def State.queueError (s : State) (qid err : Nat) : State :=
  match s.queue? qid with
  | none => s
  | some q => if q.state = 1 || q.state = 2 then (s.setQueueState q 3 err).settleQueue qid else s

/-! ### Accesses of the device under an address space -/

/-- Where an access of the device to an address leads (R336, R345, R357, R368). -/
inductive Reach where
  | found (l : Leaf) (pa : Nat)
  /-- A miss that can be replayed: it waits for its walk. -/
  | wait
  /-- The access cannot be made. -/
  | fail
deriving DecidableEq, Repr

/-- The test of an access at level 1 by the device to one sector; `failed` are the pages whose walks have failed for this requester. -/
def State.reach (s : State) (asid : Nat) (va : Word) (c : Access) (noUn : Bool) (failed : List Nat) : Reach :=
  if bits va 63 56 ≠ 0 || failed.contains (va.toNat / 4096) then .fail
  else match s.walkFor asid va.toNat c true with
    | .leaf l =>
      if l.ord = 3 || (noUn && l.ord = 2) || (s.poisoned (leafAddr l va.toNat)).isSome then .fail else .found l (leafAddr l va.toNat)
    | .notPresent => if ((s.space? asid).map (·.replays)).getD false then .wait else .fail
    | _ => .fail

/-- The test of a thread's read of a dependence word: a page that does not permit it is replayable, too (R338, R396). -/
def State.reachDep (s : State) (asid : Nat) (va : Word) (failed : List Nat) : Reach :=
  let replays := ((s.space? asid).map (·.replays)).getD false
  if replays && decide (bits va 63 56 = 0) && !failed.contains (va.toNat / 4096) && decide (s.walkFor asid va.toNat .read true = .protection) then .wait
  else s.reach asid va .read false failed

/-- The die whose Fentos complex serves a queue: that of its partition's cluster of rank 0. DEDUCED from R334. -/
def State.dieOfQueue (s : State) (q : Queue) : Nat :=
  match q.thread with
  | some t => t.1
  | none => dieOfCluster (((s.partition? q.partition).bind fun p => p.clusters.head?).getD 0)

/-- A walk asked for by a queue's thread (R338). -/
def State.queueWalk (s : State) (q : Queue) (va : Word) (c : Access) : State := s.requestWalk q.asid va c true (s.dieOfQueue q) (.queue q.qid)

/-- Whether a walk for a queue's thread is outstanding. -/
def State.queueWalking (s : State) (q : Queue) : Bool := s.walks.any fun w => w.waiters.contains (.queue q.qid)

/-- A read by a thread of n bytes that reach into at most one more page: the bytes, or the ERR of step 1 (R336). -/
def State.threadRead (s : State) (asid : Nat) (va : Word) (n : Nat) : Nat ⊕ List Byte :=
  match s.readRange asid va n with
  | some bs => .inr bs
  | none =>
    let last := va + BitVec.ofNat 64 (n - 1)
    let bad := fun (a : Word) => (s.walkNow asid a .read true).isNone
    if bad va then .inl 7
    else if va.toNat / 4096 ≠ last.toNat / 4096 && bad last && (s.readRange asid va (4096 - va.toNat % 4096)).isSome then .inl 7
    else .inl 8

/-! ### Records (R331) -/

def recKind (r : List Word) : Nat := fieldOf r 0 63 60
def recTimed (r : List Word) : Bool := bit (wordAt r 0) 59
def recRst (r : List Word) : Bool := bit (wordAt r 0) 58
def recRstr (r : List Word) : Bool := bit (wordAt r 0) 57
def recPri (r : List Word) : Nat := fieldOf r 0 56 54
def recClu (r : List Word) : Nat := fieldOf r 0 53 46
def recBudget (r : List Word) : Nat := fieldOf r 0 45 22
def recCores (r : List Word) : Nat := fieldOf r 0 21 8
def recJoin (r : List Word) : Word := wordAt r 3
def recSig (r : List Word) : Word := wordAt r 4
def recDep (r : List Word) : Word := wordAt r 5
def recVal (r : List Word) : Nat := (wordAt r 6).toNat
def recSeq (r : List Word) : Nat := (wordAt r 7).toNat

/-! ### Launch descriptors (R332, R354) -/

/-- A role preset of the descriptor; none when it holds a reserved value. -/
def parseRole (w : Word) : Option Role :=
  if bits w 31 22 ≠ 0 || decide (bits w 15 13 ≠ 0) || decide (bits w 7 1 ≠ 0) ||
      (bit w 0 && (decide (bits w 21 16 = 0) || decide (32 < bits w 21 16))) then none
  else some { entry := signedOf 32 (bits w 63 32), valloc := 8 * bits w 21 16, vwin := 8 * bits w 12 8, valid := bit w 0 }

/-- ROLE of group g by ROLEOF. -/
def roleOfGroup (roleof : BitVec 128) (g : Nat) : Nat := (roleof.extractLsb' (3 * g) 3).toNat

/-- Whether the shape words keep R354. -/
def shapeOk (w16 w17 w18 w19 : Word) (timed rstr : Bool) : Bool :=
  if bits w18 1 0 = 0 then decide (w16 = 0) && decide (w17 = 0) && decide (w18 = 0) && decide (w19 = 0)
  else
    decide (bits w18 1 0 ≠ 3) && !timed && !rstr && decide (w17 ≠ 0) && decide (w17.toNat % 8 = 0) && decide (bits w16 63 32 = 0) &&
      decide (bits w18 7 2 = 0) && decide (w19.toNat % 4096 = 0) && (decide (w19 = 0) == decide (bits w18 63 40 = 0))

/-- The descriptor in 64 words; none where R336 gives ERR 6. -/
def parseDesc (ws : List Word) (timed rstr : Bool) : Option LaunchDesc :=
  let w := wordAt ws
  let f := fun (n hi lo : Nat) => bits (w n) hi lo
  let roleof : BitVec 128 := w 7 ++ w 6
  let ngrp := f 1 42 38
  match ((List.range 8).map fun r => w (8 + r)).mapM parseRole with
  | none => none
  | some roles =>
    let presets := (List.range (ngrp + 1)).map fun g => roles.getD (roleOfGroup roleof g) { entry := 0, valloc := 0, vwin := 0, valid := false }
    let chunks := presets.foldl (fun n r => n + r.valloc / 8) 0
    if decide (f 1 31 0 = 0) || decide (f 1 63 45 ≠ 0) || decide (4 < f 2 2 0) || decide (f 2 7 5 ≠ 0) || decide (f 2 31 28 ≠ 0) ||
        decide (f 2 63 40 ≠ 0) || decide (32 * f 2 2 0 < f 2 15 8) || decide (f 3 63 32 ≠ 0) || decide (f 5 63 32 ≠ 0) ||
        decide (f 5 5 0 ≠ 0) || decide (f 7 63 32 ≠ 0) || !(presets.all (·.valid)) || decide (f 2 27 16 < chunks) ||
        !shapeOk (w 16) (w 17) (w 18) (w 19) timed rstr || (List.range 22).any (fun k => decide (w (42 + k) ≠ 0)) then none
    else
      some { entry := w 0, nblk := f 1 31 0, cset := f 1 37 32, ngrp := ngrp, width := 4 * 2 ^ f 1 44 43, split := 128 * f 2 2 0,
             fused := bit (w 2) 3, fallback := bit (w 2) 4, carve := f 2 15 8, regp := f 2 27 16, acres := f 2 39 32,
             chmask := BitVec.ofNat 16 (f 3 15 0), sqmask := BitVec.ofNat 16 (f 3 31 16), savebase := w 4,
             savestride := BitVec.ofNat 64 (f 5 31 0), roleof := roleof, roles := roles, gargs := (List.range 15).map fun k => w (20 + k),
             bargs := (List.range 7).map fun k => w (35 + k), pred := f 16 31 0, slot := w 17, psel := f 18 1 0,
             site := BitVec.ofNat 32 (f 18 39 8), aslice := f 18 63 40, abase := w 19 }

/-! ### Fetching (R334 to R338) -/

/-- The first failing check of a record (R336), ERR 6 apart. -/
def recordErr (r : List Word) (timed : Bool) (clusters : Nat) : Option Nat :=
  let k := recKind r
  if decide (3 ≤ k) || decide (fieldOf r 0 7 0 ≠ 0) || (recRstr r && decide (k ≠ 1)) || (decide (k = 1) && decide (wordAt r 2 ≠ 0)) then some 1
  else if recTimed r ≠ timed then some 2
  else if (decide (k = 2) && decide ((wordAt r 1).toNat % 4 ≠ 0)) || (decide (k = 1) && decide ((wordAt r 1).toNat % 64 ≠ 0)) ||
      decide ((recJoin r).toNat % 128 ≠ 0) || decide ((recSig r).toNat % 8 ≠ 0) || decide ((recDep r).toNat % 8 ≠ 0) ||
      inWindows (recJoin r) || inWindows (recSig r) || inWindows (recDep r) then some 3
  else if (if timed then decide (recDep r ≠ 0) || decide (recBudget r = 0) || decide (recCores r = 0) || decide (16 * clusters < recCores r)
      else decide (recBudget r ≠ 0) || decide (recCores r ≠ 0)) then some 4
  else if decide (recClu r ≠ 0xFF) && decide (clusters ≤ recClu r) then some 5
  else none

/-- Clusters of a queue's partition, in rank order. -/
def State.clustersOf (s : State) (part : Nat) : List Nat := ((s.partition? part).map (·.clusters)).getD []

/-- Address of the slot of a position (R330). -/
def State.slotAddr (s : State) (q : Queue) (n : Nat) : Word := s.descWord q 0 + BitVec.ofNat 64 (64 * (n % 2 ^ bits (s.descWord q 1) 36 32))

/-- Steps 1 and 2 of R336 for a position: the record and its launch descriptor, or ERR. -/
def State.readRecord (s : State) (q : Queue) (n : Nat) : Nat ⊕ (List Word × Option LaunchDesc) :=
  match s.threadRead q.asid (s.slotAddr q n) 64 with
  | .inl e => .inl e
  | .inr bs =>
    let r := bytesWords 8 bs
    let err := recordErr r q.timed (s.clustersOf q.partition).length
    if recKind r = 1 && decide ((wordAt r 1).toNat % 64 = 0) then
      match s.threadRead q.asid (wordAt r 1) 512 with
      | .inl e => .inl e
      | .inr ds =>
        match err with
        | some e => .inl e
        | none =>
          match parseDesc (bytesWords 64 ds) (recTimed r) (recRstr r) with
          | some d => .inr (r, some d)
          | none => .inl 6
    else
      match err with
      | some e => .inl e
      | none => .inr (r, none)

/-- The two conditions of R343 for a record of a partition at time t. -/
def admits (n t : Nat) (as : List Admitted) (r : Admitted) : Bool :=
  let all := r :: as
  let w := fun (j : Admitted) => j.cores * j.budget
  decide (t + 2 * r.budget + 5000 ≤ r.deadline) &&
    (all.filter fun k => decide (r.deadline ≤ k.deadline)).all fun k =>
      let js := all.filter fun j => decide (j.deadline ≤ k.deadline)
      decide (js.foldl (fun a j => a + w j) 0 + js.foldl (fun a j => max a (w j)) 0 + n * (t + 5000) ≤ n * k.deadline)

/-- A record of a queue replaced. -/
def Queue.setRecord (q : Queue) (r : Fetched) : Queue := { q with records := q.records.map fun x => if x.pos = r.pos then r else x }

/-- Step 4 of R336 for a record whose step 3 is over: a bulk record passes; a timed record is admitted or refused with STATUS 2 (R343). -/
def State.passAdmission (s : State) (qid : Nat) (r : Fetched) : State :=
  match s.queue? qid with
  | none => s
  | some q =>
    if !q.timed then s.setQueue (q.setRecord { r with admittedOk := true })
    else
      match s.partition? q.partition with
      | none => s
      | some p =>
        let a : Admitted := { qid := qid, pos := r.pos, cores := recCores r.record, budget := recBudget r.record,
                              deadline := recVal r.record, pushed := false }
        if admits (Config.coresPerCluster * p.clusters.length) s.tsr.toNat p.admitted a then
          (s.setPartition { p with admitted := p.admitted ++ [a] }).setQueue (q.setRecord { r with admittedOk := true })
        else s.setQueue (q.setRecord { r with status := some 2 })

/-- Whether a thread still handles a record, and so does not fetch the next one (R336, R344). -/
def Fetched.inHand (r : Fetched) (timed : Bool) : Bool := decide (r.status = none) && !r.kept && !(if timed then r.admittedOk else r.pushed)

/-- Whether a queue's thread may fetch (R334, R336). -/
def State.mayFetch (s : State) (q : Queue) : Bool :=
  decide (q.state = 2) && !(q.thread.map fun t => s.fentosDown t.1).getD true && decide (q.fetchedCount < s.widx q) && decide (q.records.length < 16) &&
    !(q.records.any fun r => r.inHand q.timed)

/-- Whether a busy queue has nothing left to fetch, and its thread nothing in hand, so that it becomes idle (R337, R380). -/
def State.mayIdle (s : State) (q : Queue) : Bool :=
  decide (q.state = 2) && decide (s.widx q ≤ q.fetchedCount) && !(q.records.any fun r => r.inHand q.timed)

/-- The first record of a queue that waits at step 3 of R336. -/
def Queue.waiting (q : Queue) : Option Fetched :=
  if q.state = 0 || q.state = 5 then none else q.records.find? fun r => decide (r.status = none) && !r.depMet

/-- Whether an OP 8 restore has named a position (R207, R435). -/
def Queue.restored (q : Queue) (pos : Nat) : Bool := q.restores.any fun x => decide (x.1 = pos)

/-- What the thread of a queue has to wait for, when no wait packet is armed (R335). -/
inductive Packet where
  | arm (p : WaitPacket)
  | met (r : Fetched)
  | walk (va : Word)
  | unreadable (r : Fetched)
  | idle
deriving DecidableEq, Repr

/-- The wait of a thread at a dependence (R335, R336): for the word at its home to be at least DEPVAL. -/
def State.depPacket (s : State) (q : Queue) (r : Fetched) : Packet :=
  if recRstr r.record && !q.restored r.pos then .idle
  else if recDep r.record = 0 then .met r
  else
    match s.reachDep q.asid (recDep r.record) q.walkFault with
    | .fail => .unreadable r
    | .wait => if s.queueWalking q then .idle else .walk (recDep r.record)
    | .found l pa =>
      .arm { addr := recDep r.record, value := BitVec.ofNat 64 (recVal r.record), mask := ~~~0, cond := 0, pa := pa, key := l.key, pos := some r.pos,
             met := false }

/-- The wait of a thread: for the dependence of its record, or for WIDX above its fetched count (R335). -/
def State.packetOf (s : State) (q : Queue) : Packet :=
  match q.waiting with
  | some r => s.depPacket q r
  | none =>
    if q.state = 1 && q.thread.isSome then
      .arm { addr := q.descVa + 16, value := BitVec.ofNat 64 (q.fetchedCount + 1), mask := ~~~0, cond := 0, pa := q.desc + 16, key := q.descKey,
             pos := none, met := false }
    else .idle

/-- The wait packet of a queue's thread armed, and tested in the same action (R335); a dependence word whose page is not translated asks for the walk
(R338). -/
def State.armQueue (s : State) (qid : Nat) : State :=
  match s.queue? qid with
  | none => s
  | some q =>
    if q.packet.isSome then s
    else
      match s.packetOf q with
      | .arm p => s.setQueue { q with packet := some { p with met := s.packetHolds p } }
      | .walk va => s.queueWalk q va .read
      | _ => s

/-- `FETCH_RECORD` (R336, steps 1 and 2, and step 4 where there is nothing to wait for). The thread of a queue all of whose written records are
fetched makes it idle, and waits for WIDX (R335, R337). -/
def execFetchRecord (qid : Nat) (s : State) : Out :=
  match s.queue? qid with
  | none => .refused (.notEnabled "FETCH_RECORD")
  | some q =>
    if s.mayIdle q then .next ((s.setQueueState q 1 0).armQueue qid)
    else if !s.mayFetch q then .refused (.notEnabled "FETCH_RECORD")
    else if q.records.any fun r => decide (r.pos = q.fetchedCount) then
      .next ((s.setQueue { q with fetchedCount := q.fetchedCount + 1 }).settleQueue qid)
    else
      match s.readRecord q q.fetchedCount with
      | .inl e => .next (s.queueError qid e)
      | .inr (r, d) =>
        let dep := decide (recDep r = 0) && !recRstr r
        let f : Fetched := { pos := q.fetchedCount, record := r, desc := d, pushed := false, status := if recKind r = 0 then some 0 else none,
                             depMet := dep, admittedOk := false, kept := false, watchdog := 0, gen := q.gen, die := s.dieOfQueue q, holder := none,
                             hit := false }
        let s := s.setQueue { q with records := sortBy Fetched.pos (q.records ++ [f]), fetchedCount := q.fetchedCount + 1 }
        let s := if recKind r ≠ 0 && dep then s.passAdmission qid f else s
        .next ((s.armQueue qid).settleQueue qid)

/-- The queue that a Fentos thread serves; threads are numbered through the module. -/
def State.threadQueue (s : State) (thread : Nat) : Option Queue := s.queues.find? fun q => decide (q.thread = some (thread / 32, thread % 32))

/-- A record of a queue whose dependence is met goes on with step 4 of R336. -/
def State.depMet (s : State) (q : Queue) (r : Fetched) : State :=
  let r := { r with depMet := true }
  (s.setQueue { q.setRecord r with walkFault := [], packet := none }).passAdmission q.qid r

/-- `WAIT_PACKET_SATISFIED` (R335, R337, R338): the thread whose packet has been found to hold goes on. Of a thread that waits and has no packet yet,
it is armed here. A dependence word that cannot be read is an error of its record. -/
def execWaitPacketSatisfied (thread : Nat) (s : State) : Out :=
  match s.threadQueue thread with
  | none => .refused (.notEnabled "WAIT_PACKET_SATISFIED")
  | some q =>
    match q.packet with
    | some p =>
      if !p.met then .refused (.notEnabled "WAIT_PACKET_SATISFIED")
      else
        (match p.pos with
          | none => .next (if q.state = 1 then s.setQueueState { q with packet := none } 2 0 else s.setQueue { q with packet := none })
          | some n => (match q.waiting with
            | some r => .next (if r.pos = n then s.depMet q r else s.setQueue { q with packet := none })
            | none => .next (s.setQueue { q with packet := none })))
    | none =>
      match s.packetOf q with
      | .idle => .refused (.notEnabled "WAIT_PACKET_SATISFIED")
      | .arm _ | .walk _ => .next (s.armQueue q.qid)
      | .met r => .next (s.depMet q r)
      | .unreadable r =>
        .next ((s.setQueue { q with walkFault := [], fetchedCount := r.pos, records := q.records.filter fun x => decide (x.pos < r.pos) }).queueError
          q.qid 7)

/-! ### Mapping (R334) -/

/-- Threads of a die that serve a queue. -/
def State.threadsUsed (s : State) (die : Nat) : List Nat :=
  s.queues.filterMap fun q => match q.thread with
    | some (d, t) => if d = die then some t else none
    | none => none

/-- The lowest free thread of a die. -/
def State.freeThread (s : State) (die : Nat) : Option Nat := (List.range 32).find? fun t => !(s.threadsUsed die).contains t

/-- The mapped bulk queue of a die that may be unmapped: the one idle longest. -/
def State.reclaimable (s : State) (die : Nat) : Option Queue :=
  let qs := s.queues.filter fun q => !q.timed && decide (q.state = 1) && q.records.isEmpty && decide (q.thread.map (·.1) = some die)
  (sortBy Queue.idleSince qs).head?

/-- The thread that a waiting queue gets, and the state after a reclaimed queue is unmapped. -/
def State.claimThread (s : State) (die : Nat) : Option (State × Nat) :=
  match s.freeThread die with
  | some t => some (s, t)
  | none =>
    match s.reclaimable die with
    | some x => x.thread.map fun t => ((s.setQueueState { x with thread := none, packet := none } 0 0), t.2)
    | none => none

/-- Whether a queue waits to be mapped: it is unmapped, or a reset has left it without a thread. -/
def State.wantsThread (s : State) (q : Queue) : Bool :=
  q.thread.isNone && decide (q.state ≤ 2) && decide (q.fetchedCount < s.widx q)

/-- The die on which a queue is mapped: its own, or while the complex of that die is being reset the next one whose complex is not
(R351). -/
def State.mapDie (s : State) (q : Queue) : Nat :=
  let die := s.dieOfQueue q
  ((List.range Config.dies).map fun i => (die + i) % Config.dies).find? (fun d => !s.fentosDown d) |>.getD die

/-- `QUEUE_MAP` (R334, R337). -/
def execQueueMap (qid : Nat) (s : State) : Out :=
  match s.queue? qid with
  | none => .refused (.notEnabled "QUEUE_MAP")
  | some q =>
    if !s.wantsThread q then .refused (.notEnabled "QUEUE_MAP")
    else
      let die := s.mapDie q
      match s.claimThread die with
      | none => .refused (.notEnabled "QUEUE_MAP")
      | some (s, t) => .next (s.setQueueState { q with thread := some (die, t) } 2 0)

/-! ### Pushing (R333, R336, R344) -/

/-- HANDLE of a position (R333). -/
def Queue.handle (q : Queue) (pos : Nat) : Word :=
  place q.qid 48 ||| place (q.gen.toNat % 65536) 32 ||| BitVec.ofNat 64 (pos % 2 ^ 32)

/-- The continuation entry of a CONT record (R333). -/
def Queue.contEntry (q : Queue) (r : Fetched) : List Word :=
  [wordAt r.record 1, wordAt r.record 2, recJoin r.record, q.handle r.pos, 0, 0, 0, 0]

/-- Whether a cluster may take work: it is not fenced (R26). -/
def State.clusterOk (s : State) (cl : Nat) : Bool := !(s.cluster cl).fenced

/-- The target cluster of a record (R336): its CLU, or the cluster whose pool holds the fewest entries, at the lowest rank. A record whose
cluster is fenced goes to a surviving one (R353). -/
def State.target (s : State) (q : Queue) (r : Fetched) : Option Nat :=
  let cls := s.clustersOf q.partition
  let named := if recClu r.record ≠ 0xFF then (cls[recClu r.record]?).filter s.clusterOk else none
  if named.isSome then named
  else
    (cls.filter s.clusterOk).foldl (fun best cl => match best with
      | some b => if s.poolCount cl (recPri r.record) < s.poolCount b (recPri r.record) then some cl else best
      | none => some cl) none

/-- Cores of a partition that hold no block (R344). -/
def State.idleCores (s : State) (part : Nat) : Nat :=
  (s.clustersOf part).foldl (fun n cl =>
    n + ((List.range Config.coresPerCluster).filter fun k =>
      !(s.blocks.any fun b => b.onCore && decide (b.core = Config.coresPerCluster * cl + k))).length) 0

/-- The record that a thread pushes next: the oldest that has passed step 4, or for a timed queue the one with the earliest
deadline (R344). -/
def Queue.nextPush (q : Queue) : Option Fetched :=
  if q.state = 5 then none
  else
    let rs := q.records.filter fun r => decide (r.status = none) && r.admittedOk && !r.pushed && !r.kept
    if q.timed then (sortBy (fun r => recVal r.record) rs).head? else rs.head?

/-- Where a thread's next push goes, when it may be made. -/
def State.pushReady (s : State) (q : Queue) : Option (Fetched × Nat) :=
  match q.nextPush with
  | none => none
  | some r =>
    match s.target q r with
    | none => none
    | some cl =>
      if s.poolCount cl (recPri r.record) < Config.poolEntries && (!q.timed || decide (recCores r.record ≤ s.idleCores q.partition)) then some (r, cl)
      else none

/-- An admitted record marked as pushed. -/
def State.markPushed (s : State) (q : Queue) (pos : Nat) : State :=
  match s.partition? q.partition with
  | some p =>
    s.setPartition { p with admitted := p.admitted.map fun (a : Admitted) => if a.qid = q.qid && a.pos = pos then { a with pushed := true } else a }
  | none => s

/-- `POOL_PUSH` (R333, R336, step 5): groups that stall at `qpop` find the entry at their next issue. -/
def execPoolPush (qid : Nat) (s : State) : Out :=
  match s.queue? qid with
  | none => .refused (.notEnabled "POOL_PUSH")
  | some q =>
    match s.pushReady q with
    | none => .refused (.notEnabled "POOL_PUSH")
    | some (r, cl) =>
      let e : PoolEntry := if recKind r.record = 1 then .launch qid r.pos none else .cont (q.contEntry r)
      let s := s.setQueue (q.setRecord { r with pushed := true, gen := q.gen, holder := none })
      .next ((s.markPushed q r.pos).poolPut cl (recPri r.record) e)

/-! ### Join blocks and signals (R347, R348) -/

/-- The decrement of a join block at its place: the state after it, whether COUNT was 0 already, and whether it reached zero and
pushed the parent. A TARGET rank beyond the partition names no cluster: the entry then goes to one of its clusters by free choice. -/
def State.decrementJoin (s : State) (part key pa : Nat) : State × Bool × Bool :=
  let count := bytesValue (s.homeBytes key pa 8)
  if count = 0 then (s, true, false)
  else
    let s := s.storeHome key pa (valueBytes 8 (count - 1))
    if count = 1 then
      let t := BitVec.ofNat 64 (bytesValue (s.homeBytes key (pa + 8) 8))
      let entry := bytesWords 8 (s.homeBytes key (pa + 64) 64)
      let cls := s.clustersOf part
      let (cl, s) := match cls[bits t 7 0]? with
        | some cl => (cl, s)
        | none =>
          let (k, s) := s.draw (max 1 cls.length)
          (cls.getD k 0, s)
      (s.poolOffer cl (bits t 10 8) (.cont entry), false, true)
    else (s, false, false)

/-- A word raised to the maximum of its old value and another, unsigned (R345, R348). -/
def State.raiseWord (s : State) (key pa : Nat) (v : Nat) : State :=
  s.storeHome key pa (valueBytes 8 (max (bytesValue (s.homeBytes key pa 8)) v))

/-! ### Retirement (R345) -/

/-- Whether retirement itself decrements a record's join counter: a LAUNCH record's always, a CONT record's when no `wdone` has. -/
def joinsAtRetirement (r : List Word) (status : Nat) : Bool :=
  decide (recJoin r ≠ 0) && decide ((recJoin r).toNat % 128 = 0) &&
    (decide (recKind r = 1) || (decide (recKind r = 2) && (decide (status = 2) || decide (status = 3) || decide (status = 4))))

/-- The signal address of a record (R331): the descriptor's SIG where its own is 0. -/
def State.sigAddr (s : State) (q : Queue) (r : List Word) : Word := if recSig r = 0 then s.descWord q 4 else recSig r

/-- The writes of the retirement of a position: address and access class, in order. -/
def State.retireWrites (s : State) (q : Queue) (pos : Nat) (r : List Word) (status : Nat) : List (Word × Access) :=
  (if joinsAtRetirement r status then [(recJoin r, .atomic)] else []) ++ [(s.slotAddr q pos, .write), (s.sigAddr q r, .atomic)]

/-- The write of a retirement that must wait for a walk. -/
def State.retireWaits (s : State) (q : Queue) (pos : Nat) (r : List Word) (status : Nat) : Option (Word × Access) :=
  (s.retireWrites q pos r status).find? fun x => decide (s.reach q.asid x.1 x.2 true q.walkFault = .wait)

/-- Steps 1 to 3 of R345: the state after them, and whether a write was skipped. -/
def State.retireParts (s : State) (q : Queue) (pos : Nat) (r : List Word) (status : Nat) : State × Bool :=
  let skip := fun (s : State) (va : Word) => (s.logged (.writeSkipped va.toNat), true)
  let s := if recKind r = 1 then s.writeBack fun x => decide (x.asid = q.asid) else s
  let (s, b1) :=
    if joinsAtRetirement r status then
      match s.reach q.asid (recJoin r) .atomic true q.walkFault with
      | .found l pa => ((s.decrementJoin q.partition l.key pa).1, false)
      | _ => skip s (recJoin r)
    else (s, false)
  let slot := s.slotAddr q pos
  let (s, b2) := match s.reach q.asid slot .write true q.walkFault with
    | .found l pa => (s.storeHome l.key pa [BitVec.ofNat 8 (bytesValue (s.homeBytes l.key pa 1) % 16 + 16 * status)], false)
    | _ => skip s slot
  let sig := s.sigAddr q r
  let (s, b3) := match s.reach q.asid sig .atomic true q.walkFault with
    | .found l pa => if sig.toNat % 8 = 0 then (s.raiseWord l.key pa (recSeq r), false) else skip s sig
    | _ => skip s sig
  (s, b1 || b2 || b3)

/-- The record that retires next: the oldest, once it has completed (R345). A queue in a reset rung retires nothing. -/
def Queue.nextRetire (q : Queue) : Option (Fetched × Nat) :=
  match q.records with
  | r :: _ => if q.state = 5 then none else r.status.map fun st => (r, st)
  | [] => none

/-- A retired timed record counts no longer for admission (R343). -/
def State.unadmit (s : State) (q : Queue) (pos : Nat) : State :=
  match s.partition? q.partition with
  | some p => s.setPartition { p with admitted := p.admitted.filter fun a => !(decide (a.qid = q.qid) && decide (a.pos = pos)) }
  | none => s

/-- The retirement of a position, with its writes that can be made (R345). -/
def State.retire (s : State) (q : Queue) (r : Fetched) (status : Nat) : State :=
  let (s, skipped) := s.retireParts q r.pos r.record status
  let q := (s.queue? q.qid).getD q
  let s := s.setQueue { q with records := q.records.filter fun x => decide (x.pos ≠ r.pos), walkFault := [],
                               restores := q.restores.filter fun x => decide (x.1 ≠ r.pos) }
  let s := (s.unadmit q r.pos).setDescWord q 3 (BitVec.ofNat 64 (r.pos + 1))
  let s := if skipped then s.queueError q.qid 9 else s
  s.settleQueue q.qid

/-- `RETIREMENT` (R345). -/
def execRetirement (qid : Nat) (s : State) : Out :=
  match s.queue? qid with
  | none => .refused (.notEnabled "RETIREMENT")
  | some q =>
    match q.nextRetire with
    | none => .refused (.notEnabled "RETIREMENT")
    | some (r, st) =>
      if s.queueWalking q then .refused (.notEnabled "RETIREMENT")
      else
        match s.retireWaits q r.pos r.record st with
        | some (va, c) => .next (s.queueWalk q va c)
        | none => .next (s.retire q r st)

/-! ### Words -/

/-- The partition of a group. -/
def State.partOf (s : State) (g : Group) : Nat := ((s.grid? (s.blockOf g).grid).map (·.partition)).getD 0

/-- Whether a handle's GEN is stale: it is not the queue's (R346). -/
def staleHandle (q : Queue) (h : Word) : Bool := decide (bits h 47 32 ≠ q.gen.toNat % 65536)

/-- HOUT of a handle for a group's context, and the state with its record completed when it is recorded (R346). -/
def State.completeHandle (s : State) (asid : Nat) (h : Word) (status : Nat) : State × Nat :=
  if h = 0 then (s, 0)
  else
    match s.queue? (bits h 63 48) with
    | none => (s, 3)
    | some q =>
      if q.asid ≠ asid then (s, 3)
      else if staleHandle q h then (s, 2)
      else
        match q.records.find? fun r => decide (r.pos % 2 ^ 32 = bits h 31 0) with
        | none => (s, 1)
        | some r =>
          if r.status.isSome || decide (recKind r.record ≠ 2) then (s, 1)
          else (s.setQueue (q.setRecord { r with status := some status }), 0)

/-- The part of `wdone` after its checks (R346). -/
def State.wdoneAct (s : State) (g : Group) (u : GUnit) (d a status : Nat) (join : Option Place) : Res :=
  let act := fun (s : State) (g : Group) => releasing s g u 4 <|
    let (s, g) := s.releaseFor g 4
    let (s, hout) := s.completeHandle (s.blockOf g).asid (g.s a) status
    let (s, under, zero) := match join with
      | some (.phys pa ord key va) =>
        if hout = 0 then (s.expelPlace (s.accessor g) (.phys pa ord key va)).decrementJoin (s.partOf g) key pa else (s, false, false)
      | _ => (s, false, false)
    let v := place (flag under) 3 ||| place (flag zero) 2 ||| place hout 0
    let (s, g) := s.traceValue g u 5 0 [v]
    Res.ok s (g.setS d v) u
  if (s.accessor g).unconfirmed then .stall 19
  else if s.outstanding g ≠ 0 then .stall 2
  else
    match join with
    | some pl => (match s.placePoison pl with
      | some code => .trap (containedFault (match pl with | .phys _ _ _ va => va | .pad _ _ => 0) code u.mask)
      | none => act s g)
    | none => act s g

/-- `wdone` and its `.fail` form (R346): the checks of the join block come first. -/
def wdoneWord (i : Instr) (d a b : BitVec 5) (status : Nat) (s : State) : Out :=
  issue i s fun s g u =>
    let va := g.s b.toNat
    if va = 0 then s.wdoneAct g u d.toNat a.toNat status none
    else
      withPlace s g u .atomic 128 false true va fun pl =>
        match pl with
        | .pad _ _ => .trap (addrFault 12 va 0 u.mask)
        | .phys _ _ _ _ =>
          if badKindFor .none pl then .trap (pageKindFault va pl u) else s.wdoneAct g u d.toNat a.toNat status (some pl)

/-- `wdone` (R346). -/
def execWdone (m : BitVec 1) (d a b : BitVec 5) (s : State) : Out := wdoneWord (.wdone m d a b) d a b 0 s

/-- `wdone.fail` (R346). -/
def execWdoneFail (m : BitVec 1) (d a b : BitVec 5) (s : State) : Out := wdoneWord (.wdoneFail m d a b) d a b 1 s

/-- `wsig` (R348). -/
def execWsig (m : BitVec 1) (a b : BitVec 5) (s : State) : Out :=
  issue (.wsig m a b) s fun s g u =>
    let va := g.s a.toNat
    withPlace s g u .atomic 8 false true va fun pl =>
      if badKindFor .none pl then .trap (pageKindFault va pl u)
      else if (s.accessor g).unconfirmed then .stall 19
      else
        match s.placePoison pl with
        | some code => .trap (containedFault va code u.mask)
        | none =>
          let (s, g) := s.releaseFor g 3
          let (s, _) := s.atomic (s.accessor g) pl 8 fun old => some (max old (g.s b.toNat).toNat)
          .ok s g u

/-- The records from one position up to another, retired at once with STATUS 4 and steps 1 to 3 of R345 (R349). -/
def State.retireSkipped (s : State) (qid pos : Nat) : Nat → State × Bool
  | 0 => (s, false)
  | n + 1 =>
    match s.queue? qid with
    | none => (s, false)
    | some q =>
      match s.readRange q.asid (s.slotAddr q pos) 64 with
      | some bs =>
        let (s, b) := s.retireParts q pos (bytesWords 8 bs) 4
        let (s, b') := s.retireSkipped qid (pos + 1) n
        (s, b || b')
      | none =>
        let (s, _) := (s.logged (.writeSkipped (s.slotAddr q pos).toNat)).retireSkipped qid (pos + 1) n
        (s, true)

/-- The first write of those retirements that must wait for a walk. -/
def State.skippedWait (s : State) (q : Queue) (pos : Nat) : Nat → Option (Word × Access)
  | 0 => none
  | n + 1 =>
    match (s.readRange q.asid (s.slotAddr q pos) 64).bind fun bs => s.retireWaits q pos (bytesWords 8 bs) 4 with
    | some x => some x
    | none => s.skippedWait q (pos + 1) n

/-- The queue restarted at RIDX (R349). -/
def State.restartQueue (s : State) (q : Queue) (errpos ridx : Nat) : State :=
  let (s, skipped) := s.retireSkipped q.qid errpos (ridx - errpos)
  let q := (s.queue? q.qid).getD q
  let s := s.setQueueState { q with fetchedCount := ridx, records := [], walkFault := [], packet := none } 2 0
  let s := if skipped then s.queueError q.qid 9 else s
  s.settleQueue q.qid

/-- `qrestart` (R349). -/
def execQrestart (m : BitVec 1) (d a : BitVec 5) (s : State) : Out :=
  issue (.qrestart m d a) s fun s g u =>
    let answer := fun (s : State) (g : Group) (v : Nat) =>
      let (s, g) := s.traceValue g u 5 0 [BitVec.ofNat 64 v]
      Res.ok s (g.setS d.toNat (BitVec.ofNat 64 v)) u
    releasing s g u 4 <|
    let (s1, g1) := s.releaseFor g 4
    match s1.queues.find? fun q => decide (q.asid = (s1.blockOf g1).asid) && decide (q.descVa = g1.s a.toNat) with
    | none => answer s1 g1 2
    | some q =>
      if q.state ≠ 4 then answer s1 g1 1
      else
        let errpos := (s1.descWord q 6).toNat
        let ridx := (s1.descWord q 3).toNat
        if ridx < errpos || decide (s1.widx q < ridx) then answer s1 g1 3
        else
          match s1.skippedWait q errpos (ridx - errpos) with
          | some (va, c) => .wait (s1.queueWalk q va c) g1 { u with wait := .stall 9 }
          | none => answer (s1.restartQueue q errpos ridx) g1 0

end Sys2Proof.Machine
end

