-- ==== Sys2Proof/Machine/Placement.lean ====
section
/-!
DEFINITION. The placer (R123, R137, R144, R207, R219, R228, R229, R288, R340, R357, R359): grids and their contexts, blocks and their groups,
and blocks that resume.
-/

namespace Sys2Proof.Machine

/-! ### Room on a core -/

/-- Blocks that occupy a core. -/
def State.blocksOn (s : State) (core : Nat) : List Block := s.blocks.filter fun b => b.onCore && decide (b.core = core)

/-- Blocks that occupy a cluster. -/
def State.blocksIn (s : State) (cl : Nat) : List Block := s.blocks.filter fun b => b.onCore && decide (clusterOfCore b.core = cl)

/-- The lowest place of a carve-out in a core's scratchpad region, in units of 4 KiB (R219, R220). -/
def carvePlace (split : Nat) (bs : List Block) (carve : Nat) : Option Nat :=
  (List.range (split / 4 + 1)).find? fun k =>
    decide (4 * (k + carve) ≤ split) && bs.all fun b =>
      decide (b.carve = 0) || decide (carve = 0) || decide (4096 * (k + carve) ≤ b.carveStart) || decide (b.carveStart + b.carve ≤ 4096 * k)

/-- The split under which a core takes a block: its own while it holds one, that of its cluster in fused mode, and otherwise the launch's
(R219, R228). -/
def State.splitFor (s : State) (d : LaunchDesc) (core : Nat) : Nat :=
  if !(s.blocksOn core).isEmpty then (s.core core).split
  else
    match s.blocksIn (clusterOfCore core) with
    | b :: _ => if (s.cluster (clusterOfCore core)).fused then (s.core b.core).split else d.split
    | [] => d.split

/-- Where a block's scratchpad lies on a core, when the split, the L1 mode and the carve-out allow it (R219, R228). -/
def State.padPlace (s : State) (d : LaunchDesc) (core : Nat) : Option Nat :=
  let cl := clusterOfCore core
  let bs := s.blocksOn core
  let others := s.blocksIn cl
  let modeOk := others.isEmpty ||
    (decide ((s.cluster cl).fused = d.fused) && (!d.fused || others.all fun b => decide ((s.core b.core).split = d.split)))
  if modeOk && (bs.isEmpty || decide ((s.core core).split = d.split)) then carvePlace d.split bs d.carve else none

/-- Accumulator rows of a core that no allotment holds (R288, R305). -/
def State.freeRows (s : State) (core : Nat) : Nat :=
  Config.acRows - ((s.blocks.filter fun b => decide (b.core = core) && (b.onCore || decide (b.state = .spent))).foldl (fun n b => n + b.acRows) 0)

/-- Seats on a core for groups of some chunks each, and the rest of the block's reserve in their gangs, when all of it fits (R144). -/
def State.seatsOn (s : State) (core width : Nat) (chunks : List Nat) (rest : Nat) : Option (List Seat × List PoolShare) :=
  (findSeats (s.slotsOf core) (s.coreLoad core) (width / 4) chunks).bind fun r =>
    (spread r.2 (gangsOf r.1 (width / 4)) rest).map fun shares => (r.1, shares)

/-- Whether a core has a block context free, is not fenced and is not being reset (R26, R122, R350). -/
def State.coreOpen (s : State) (core : Nat) : Bool :=
  decide ((s.blocksOn core).length < Config.blockContexts) && !(s.core core).fenced && s.clusterOk (clusterOfCore core) && !s.clusterDown core

/-! ### Contexts -/

/-- An upper context at its creation (R123): every register zero, nothing taken. -/
def newCtx (id scope grid block cluster rank : Nat) : Ctx :=
  { id := id, scope := scope, grid := grid, block := block, cluster := cluster, rank := rank, regs := Vector.replicate 16 0, pc := 0, start := 0,
    segment := .none, baseDepth := 0, dvals := Vector.replicate 6 0, sdv := 0, sd := Vector.replicate 6 0, loops := [], stack := [],
    queue := [], nextSeq := 0, links := [], log := [], logging := decide (3 ≤ scope), logBase := 0, state := .needRecord, frozen := false, saved := false,
    fault := none, reporter := none, walkFault := none, joint := none, sent := none, parties := [], got := [], hint := none, watchdog := 0, watchMark := 0 }

/-- Registers of a context set from a list, from register n on. -/
def Ctx.setRegs (c : Ctx) (n : Nat) (vs : List Word) : Ctx := vs.zipIdx.foldl (fun c v => c.setR (n + v.2) v.1) c

/-- Whether a cluster's sequencer unit has a context free (R122). -/
def State.ctxFree (s : State) (cl : Nat) : Bool :=
  decide ((s.ctxs.filter fun c => decide (3 ≤ c.scope) && decide (c.cluster = cl)).length < Config.clusterContexts)

/-- A free place for a record log in a partition's suspension area (R447): which one is not given. -/
def State.logPlace (s : State) (part : Nat) : Word × State :=
  match s.partition? part with
  | none => (0, s)
  | some p =>
    let n := max 1 (18 * p.suspSlots)
    let (d, s) := s.draw n
    let at_ := fun (k : Nat) => p.suspBase + BitVec.ofNat 64 (4096 * ((d + k) % n))
    let taken := fun (w : Word) => (s.ctxs.any fun c => c.logging && decide (c.logBase = w)) || s.logs.any fun l => decide (l.1 = w)
    (((List.range n).map at_).find? (fun w => !taken w) |>.getD (at_ 0), s)

/-- A receiver added to a context (R447): it takes the log from its first record. -/
def State.addLink (s : State) (c : Ctx) (p : Party) (key : Nat) : State :=
  s.setCtx { c with links := c.links ++ [{ dest := p, key := key, seq := 0, behind := if c.logging then c.log.length else 0 }] }

/-- The grid context of a grid. -/
def State.gridCtx (s : State) (grid : Nat) : Option Ctx := s.ctxs.find? fun c => decide (c.scope = 4) && decide (c.grid = grid)

/-- The cluster-scope context of a grid on a cluster. -/
def State.clusterCtx (s : State) (grid cl : Nat) : Option Ctx :=
  s.ctxs.find? fun c => decide (c.scope = 3) && decide (c.grid = grid) && decide (c.cluster = cl)

/-- The grid context created on the home cluster (R123, R340). DESIGN CHOICE: its log takes the first 4 KiB of the suspension area also where the area
has no room, since R447 lets a context wait for room only at a record that it emits. -/
def State.addGridCtx (s : State) (k : Grid) : State :=
  let (id, s) := s.fresh
  let (lb, s) := s.logPlace k.partition
  let c := newCtx id 4 k.id 0 k.home 0
  s.setCtx ({ c with pc := k.desc.entry, start := k.desc.entry, segment := .unbounded, state := .scanning, logBase := lb,
                     frozen := k.restore.isSome }.setRegs 0 (k.k0 :: k.desc.gargs))

/-- The cluster-scope context of a grid on a cluster, created where the grid first places a block (R123). -/
def State.ensureClusterCtx (s : State) (k : Grid) (cl : Nat) : Option State :=
  match s.clusterCtx k.id cl with
  | some _ => some s
  | none =>
    match s.grid? k.id, s.gridCtx k.id with
    | some k, some top =>
      if !s.ctxFree cl then none
      else
        let (id, s) := s.fresh
        let (lb, s) := s.logPlace k.partition
        let rank := k.ranks.length
        let c := newCtx id 3 k.id 0 cl rank
        let s := s.setCtx { c.setR 0 (BitVec.ofNat 64 rank) with logBase := lb, frozen := k.restore.isSome }
        some ((s.addLink top (.context id) rank).setGrid { k with ranks := k.ranks ++ [cl] })
    | _, _ => none

/-! ### Placing a block -/

/-- A core takes a block of an address space: the lines of the one before leave its cache, in fused mode those of every slice
(R232). -/
def State.coreTakes (s : State) (core asid : Nat) (fused : Bool) : State :=
  let c := s.core core
  let here := fun (x : Sector) => if fused then decide (clusterOfCore x.core = clusterOfCore core) else decide (x.core = core)
  let s := match c.lastAsid with
    | some o =>
      if o = asid then s
      else
        let p := fun (x : Sector) => here x && decide (x.asid = o)
        (s.writeBack p).dropClean p
    | none => s
  s.setCore { s.core core with lastAsid := some asid }

/-- The presets of a launch's groups by group number (R332). -/
def LaunchDesc.preset (d : LaunchDesc) (g : Nat) : Role := d.roles.getD (roleOfGroup d.roleof g) { entry := 0, valloc := 0, vwin := 0, valid := false }

/-- The allotment that each group takes at creation, in chunks (R332). -/
def LaunchDesc.chunksOf (d : LaunchDesc) : List Nat := (List.range (d.ngrp + 1)).map fun g => (d.preset g).valloc / 8

/-- The chunks of a launch's reserve that its groups do not take at creation (R140, R332). -/
def LaunchDesc.spare (d : LaunchDesc) : Nat := d.regp - d.chunksOf.foldl (· + ·) 0

/-- The register pool of a new block. The groups of a restored block have no allotment until they claim one: what they would have taken lies in the
pool, in their own lanes (R207). -/
def LaunchDesc.poolAt (d : LaunchDesc) (restore : Bool) (seats : List Seat) (shares : List PoolShare) : List PoolShare :=
  if restore then
    (seats.zip d.chunksOf).foldl (fun ys x => ys.map fun (y : PoolShare) =>
      if y.sched = x.1.slot % 4 && y.gang = x.1.gang then { y with chunks := y.chunks + x.2 } else y) shares
  else shares

/-- A group of a new block entered into the state; in a restore launch it stands in trap mode with cause 25 (R207). -/
def State.enterGroup (s : State) (k : Grid) (b : Block) (i : Nat) (x : Seat) (chunks : Nat) : State :=
  let (id, s) := s.fresh
  let d := k.desc
  let q := s.queue? k.qid
  let g := newGroup id b i x d.width chunks (if k.restore.isSome then 0 else (d.preset i).vwin) (roleOfGroup d.roleof i) (saveaOf d b.index i)
    d.entry ((q.map (·.pid)).getD 0) ((q.map (·.tid)).getD 0) s.steps
  match k.restore with
  | none => s.addGroup g
  | some tag =>
    let tvec := ((s.context? k.asid).bind (·.tvec)).getD 0
    let t : TrapInfo := { cause := 25, tval := tag, tstat := 0, tlane := firstLanes d.width }
    let g' := enterTrap g 0 t 0 true tvec s.steps
    s.setGroup { g' with trace := { g'.trace with syncDue := none } }

/-- A block placed on a core, with its context, its groups and their links (R122, R123, R220). -/
def State.enterBlock (s : State) (k : Grid) (cl core index rank size : Nat) (fallback : Bool) (start : Nat) (seats : List Seat)
    (shares : List PoolShare) : State :=
  let d := k.desc
  let (id, s) := s.fresh
  let (cid, s) := s.fresh
  let chunks := if k.restore.isSome then [] else d.chunksOf
  let b : Block :=
    { id := id, grid := k.id, asid := k.asid, core := core, index := index, rank := rank, setSize := size, timed := k.timed,
      held := firstLanes (d.ngrp + 1), carveStart := 4096 * start, carve := if fallback then 0 else 4096 * d.carve, pad := [], fallback := fallback,
      pinned := [], regPool := d.poolAt k.restore.isSome seats shares, acRows := 16 * d.acres, acResv := 16 * d.acres, acc := [], holds := [],
      confirmed := !k.predicted || k.confirmed, tail := k.tail, state := .running, saved := [] }
  let fresh := (s.blocksIn cl).isEmpty
  let s := s.setCore { s.core core with split := s.splitFor d core }
  let s := if fresh then s.setCluster { s.cluster cl with fused := d.fused } else s
  let s := (s.coreTakes core k.asid (s.cluster cl).fused).setBlock b
  let s := seats.zipIdx.foldl (fun s x => s.enterGroup k b x.2 x.1 (chunks.getD x.2 0)) s
  let c := newCtx cid 2 k.id id cl 0
  let links := (s.members id).map fun g => ({ dest := .group g.id, key := g.index, seq := 0, behind := 0 } : Link)
  let s := s.setCtx { (c.setRegs 1 d.bargs).setR 0 (BitVec.ofNat 64 index) with links := links, frozen := k.restore.isSome }
  match s.clusterCtx k.id cl with
  | some up => s.addLink up (.context cid) index
  | none => s

/-- Where a block fits on a core: its carve-out's place and its groups' seats; in fallback mode it has no carve-out (R144, R219,
R229, R288). -/
def State.fitsOn (s : State) (k : Grid) (core : Nat) (fallback : Bool) : Option (Nat × List Seat × List PoolShare) :=
  let d := k.desc
  if s.coreOpen core && decide (16 * d.acres ≤ s.freeRows core) then
    match s.seatsOn core d.width d.chunksOf d.spare with
    | none => none
    | some xs => if fallback then some (0, xs) else (s.padPlace d core).map fun p => (p, xs)
  else none

/-- The lowest core of a cluster on which a block fits, with a carve-out or, where the launch allows it, in fallback mode. -/
def State.coreFor (s : State) (k : Grid) (cl : Nat) (fallback : Bool) : Option (Nat × Bool × Nat × List Seat × List PoolShare) :=
  let cores := (List.range Config.coresPerCluster).map fun n => Config.coresPerCluster * cl + n
  match cores.findSome? fun c => (s.fitsOn k c false).map fun x => (c, false, x) with
  | some r => some r
  | none => if fallback then cores.findSome? fun c => (s.fitsOn k c true).map fun x => (c, true, x) else none

/-- The block of a grid with an index. -/
def State.blockAt (s : State) (gid index : Nat) : Option Block := s.blocks.find? fun b => decide (b.grid = gid) && decide (b.index = index)

/-- The rest of a cluster set placed on one cluster, block by block in ascending rank (R340); none where it does not fit whole. A block
that a restore has taken up from its suspension slot is not placed again (R197). -/
def State.placeRest (s : State) (k : Grid) (cl first size : Nat) (fallback : Bool) : Nat → Nat → Option State
  | 0, _ => some s
  | n + 1, rank =>
    if (s.blockAt k.id (first + rank)).isSome then State.placeRest s k cl first size fallback n (rank + 1)
    else match s.coreFor k cl fallback with
    | none => none
    | some (core, fb, start, seats, shares) =>
      State.placeRest (s.enterBlock k cl core (first + rank) rank size fb start seats shares) k cl first size fallback n (rank + 1)

/-- A whole cluster set placed on a cluster. -/
def State.placeSetOn (s : State) (k : Grid) (cl first size : Nat) (fallback : Bool) : Option State :=
  (s.ensureClusterCtx k cl).bind fun s => s.placeRest k cl first size fallback size 0

/-- Clusters in the order in which the placer tries them: from the home cluster up, then from rank 0 (R340). -/
def State.placeOrder (s : State) (k : Grid) : List Nat :=
  let cls := s.clustersOf k.partition
  let i := cls.findIdx fun c => decide (c = k.home)
  cls.drop i ++ cls.take i

/-- The clusters on which a cluster set may be placed: where a block of it lies in a suspension slot, the cluster on which that block resumes
(R137, R222). -/
def State.clustersFor (s : State) (k : Grid) (first size : Nat) : List Nat :=
  match (List.range size).findSome? fun i => s.blockAt k.id (first + i) with
  | some b => [clusterOfCore b.core]
  | none => s.placeOrder k

/-- The next cluster set of a grid: its first block and its size (R340, R358, R359). -/
def Grid.nextSet (k : Grid) : Nat × Nat := (k.next, min (k.desc.cset + 1) (k.count - k.next))

/-- The next cluster set placed, on the first cluster that has room for it; a set with the fallback flag takes fallback mode only where
none has (R229, R340). -/
def State.placeSet (s : State) (k : Grid) : Option State :=
  let (first, size) := k.nextSet
  let cls := s.clustersFor k first size
  let done := fun (s : State) => match s.grid? k.id with
    | some k => s.setGrid { k with next := first + size }
    | none => s
  match cls.findSome? fun cl => s.placeSetOn k cl first size false with
  | some s => some (done s)
  | none => if k.desc.fallback then (cls.findSome? fun cl => s.placeSetOn k cl first size true).map done else none

/-! ### Arenas (R357, R368) -/

/-- The slice of a block's arena (R368). -/
def sliceAddr (d : LaunchDesc) (index : Nat) : Word := d.abase + BitVec.ofNat 64 (index * d.aslice * 4096)

/-- The die whose walkers serve a grid context. -/
def Grid.die (k : Grid) : Nat := dieOfCluster k.home

/-- The cursor word of a placed block, written to zero; a page that walks is written when its walk ends, and a write that cannot be made
is skipped and logged (R357). -/
def State.clearCursor (s : State) (k : Grid) (index : Nat) : State :=
  let va := sliceAddr k.desc index
  match s.reach k.asid va .write true k.walkFault with
  | .found l pa => s.storeHome l.key pa (valueBytes 8 0)
  | .fail => s.logged (.writeSkipped va.toNat)
  | .wait =>
    let s := s.requestWalk k.asid va .write true k.die (.arena k.id)
    match s.grid? k.id with
    | some k => s.setGrid { k with cursors := k.cursors ++ [index] }
    | none => s

/-- A page of a grid whose walk has failed (R357, R361). -/
def State.gridFailed (s : State) (gid page : Nat) : State :=
  match s.grid? gid with
  | some k => s.setGrid { k with walkFault := page :: k.walkFault }
  | none => s

/-- A walk for cursor words of a grid has ended: those that waited are written (R357). -/
def State.arenaWalked (s : State) (gid : Nat) : State :=
  match s.grid? gid with
  | none => s
  | some k => k.cursors.foldl (fun s i => s.clearCursor k i) (s.setGrid { k with cursors := [] })

/-! ### Launches -/

/-- The count of blocks that a predicted launch starts with (R356). -/
def State.predictedCount (s : State) (die asid : Nat) (d : LaunchDesc) : Nat :=
  let p := if d.psel = 2 then
      match s.predictors.find? fun e => decide (e.die = die) && decide (e.index = d.site.toNat % 64) && decide (e.asid = asid) &&
          decide (e.site = d.site.toNat / 64) with
      | some e => e.counts.foldl max 0
      | none => d.pred
    else d.pred
  max 1 (min p d.nblk)

/-- The grid of a launch entry: the whole launch, or its tail (R340, R359). -/
def State.launchGrid (s : State) (qid pos : Nat) (tailFrom : Option Nat) : Option Grid :=
  s.grids.find? fun k => decide (k.qid = qid) && decide (k.pos = pos) && decide (k.tail = tailFrom.isSome)

/-- A grid created for a launch on its home cluster (R340, R357). -/
def State.addGrid (s : State) (cl : Nat) (q : Queue) (r : Fetched) (d : LaunchDesc) : State × Grid :=
  let (id, s) := s.fresh
  let n := if d.psel = 0 then d.nblk else s.predictedCount r.die q.asid d
  let tag := (q.restores.find? fun x => decide (x.1 = r.pos)).map (·.2)
  let k : Grid :=
    { id := id, asid := q.asid, partition := q.partition, home := cl, qid := q.qid, pos := r.pos, prio := recPri r.record, timed := q.timed,
      desc := d, next := 0, count := n, ranks := [], predicted := decide (d.psel ≠ 0), confirmed := decide (d.psel = 0), tail := false,
      restore := if recRstr r.record then some (tag.getD 0) else none, preempted := false, stopped := false, ended := false, status := 0,
      k0 := BitVec.ofNat 64 n, walkFault := [], cursors := [] }
  (s.setGrid k, k)

/-- The entry that a cluster's placer takes next: the oldest of the highest priority among launch and resume entries, those of pre-empted
grids apart (R197, R340). -/
def State.placerHead (s : State) (cl : Nat) : Option (Nat × PoolEntry) :=
  let waits := fun (e : PoolEntry) => match e with
    | .cont _ => true
    | .launch qid pos t => (match s.launchGrid qid pos t with
      | some k => k.preempted
      | none => false)
    | .resume b => (match (s.block? b).bind fun b => s.grid? b.grid with
      | some k => k.preempted
      | none => false)
  ((s.cluster cl).pool.filter fun e => !waits e.2).foldl (fun best e => match best with
    | some b => if b.1 < e.1 then some e else some b
    | none => some e) none

/-- An entry taken out of a cluster's pool. -/
def State.takeEntry (s : State) (cl : Nat) (e : Nat × PoolEntry) : State :=
  let c := s.cluster cl
  (s.setCluster { c with pool := c.pool.erase e }).queueResumes

/-- Cluster sets of a grid placed one after another while there is room (R340), their cursors cleared (R357). -/
def State.placeSets (s : State) (gid : Nat) : Nat → State
  | 0 => s
  | fuel + 1 =>
    match s.grid? gid with
    | none => s
    | some k =>
      if k.count ≤ k.next then s
      else
        match s.placeSet k with
        | none => s
        | some s =>
          let (first, size) := k.nextSet
          let s := if k.desc.abase = 0 then s else (List.range size).foldl (fun s i => s.clearCursor k (first + i)) s
          s.placeSets gid fuel

/-- The state as though a partition held no block, to ask whether a set could be placed at all (R207). -/
def State.emptied (s : State) : State := { s with blocks := [], groups := [], ctxs := s.ctxs.filter fun c => decide (c.scope = 4), cores := [], clusters := [] }

/-- The pre-empted grid that a restore launch takes up: the one with its tag, in its address space (R197, R207). -/
def State.shelvedFor (s : State) (k : Grid) : Option Shelved :=
  k.restore.bind fun tag => s.shelved.find? fun x => decide (x.tag = tag) && decide (x.asid = k.asid)

/-- Whether the launch of a restore does not match the saved grid: its carve-out, its L1 mode or its width (R207). -/
def Shelved.differs (x : Shelved) (d : LaunchDesc) : Bool :=
  decide (x.carve ≠ d.carve) || decide (x.fused ≠ d.fused) || decide (x.width ≠ d.width)

/-- Whether a restore launch fails: a cluster set of it cannot be placed whole into one cluster, or it does not match the saved grid (R207). -/
def State.restoreFails (s : State) (k : Grid) : Bool :=
  k.restore.isSome && ((s.emptied.placeSet { k with ranks := [] }).isNone || ((s.shelvedFor k).map fun x => x.differs k.desc).getD false)

/-- A block of a pre-empted grid that lies in a suspension slot goes on as a block of the grid that restores it: the restore wakes it (R135, R197).
None where no context is free on its cluster. -/
def State.adoptBlock (k : Grid) (s : State) (b : Block) : Option State :=
  match b.state, s.ctxs.find? fun c => decide (c.scope = 2) && decide (c.block = b.id) with
  | .retired sec slot _, some c =>
    ((s.unlink 5 (.context c.id)).ensureClusterCtx k (clusterOfCore b.core)).map fun s =>
      let s := s.setBlock { b with grid := k.id, state := .retired sec slot true }
      let s := s.setCtx { c with grid := k.id, frozen := false, saved := false }
      match s.clusterCtx k.id (clusterOfCore b.core) with
      | some up => s.addLink up (.context c.id) b.index
      | none => s
  | _, _ => some s

/-- What a restore launch takes up of the pre-empted grid that it restores. -/
def State.adopt (s : State) (k : Grid) : Option State :=
  match s.shelvedFor k with
  | none => some s
  | some x =>
    ((s.blocks.filter fun b => decide (b.grid = x.grid) && !b.onCore).foldlM (State.adoptBlock k) s).map fun s =>
      { s with shelved := s.shelved.filter fun y => decide (y ≠ x) }.queueResumes.sweep

/-- A launch that ends at once with a status: nothing of it is placed (R207). -/
def State.failLaunch (s : State) (k : Grid) (status : Nat) : State :=
  let s := s.setGrid { k with count := k.next, status := status }
  s.sweep

/-! ### Resuming a block (R137) -/

/-- A retained group on a new seat. -/
def reseat (g : Group) (core : Nat) (x : Seat) (steps : Nat) : Group :=
  { g with core := core, slot := x.slot, gang := x.gang, lastIssue := steps, units := g.units.map fun u => { u with since := steps } }

/-- Where a retired block fits on a core of its cluster: its carve-out's place and its groups' seats. -/
def State.resumesOn (s : State) (b : Block) (d : LaunchDesc) (core : Nat) : Option (Nat × List Seat × List PoolShare) :=
  if s.coreOpen core && decide (b.acResv ≤ s.freeRows core) then
    match s.seatsOn core d.width (b.saved.map (·.chunks)) b.poolTotal with
    | none => none
    | some xs =>
      if b.fallback then
        let fused := (s.cluster (clusterOfCore core)).fused
        if pinFits s.pinnedSets (b.pinned.map fun l => pinSet fused core (cacheSets (s.splitFor d core)) l) then some (0, xs) else none
      else (s.padPlace d core).map fun p => (p, xs)
  else none

/-- A retired block placed again: its groups and its context go on at the target. -/
def State.resumeBlock (s : State) (b : Block) (d : LaunchDesc) (core start : Nat) (seats : List Seat) (shares : List PoolShare) : State :=
  let cl := clusterOfCore core
  let s := s.setCore { s.core core with split := s.splitFor d core }
  let s := if (s.blocksIn cl).isEmpty then s.setCluster { s.cluster cl with fused := d.fused } else s
  let s := s.coreTakes core b.asid (s.cluster cl).fused
  let s := s.setBlock { b with core := core, carveStart := 4096 * start, regPool := shares, state := .running, saved := [] }
  let s := (b.saved.zip seats).foldl (fun s x => s.setGroup (reseat x.1 core x.2 s.steps)) s
  { s with ctxs := s.ctxs.map fun (c : Ctx) =>
      if c.scope = 2 && c.block = b.id then (if c.state = .retired then { c with state := .scanning } else c) else c }

/-- What the placer does with a resume entry at the head. -/
def State.takeResume (s : State) (cl : Nat) (e : Nat × PoolEntry) (bid : Nat) : Option State :=
  match (s.block? bid).bind fun b => (s.grid? b.grid).map fun k => (b, k) with
  | none => some (s.takeEntry cl e)
  | some (b, k) =>
    ((List.range Config.coresPerCluster).findSome? fun n =>
      (s.resumesOn b k.desc (Config.coresPerCluster * cl + n)).map fun x => (Config.coresPerCluster * cl + n, x)).map fun x =>
        (s.resumeBlock b k.desc x.1 x.2.1 x.2.2.1 x.2.2.2).takeEntry cl e

end Sys2Proof.Machine
end

