-- ==== Sys2Proof/Machine/Predict.lean ====
section
/-!
DEFINITION. Predicted launches (R354 to R368): squashing and confirming blocks, the predictor, and the words `shp.set`, `shp.get`, `shp.conf`
and `salloc`.
-/

namespace Sys2Proof.Machine

/-! ### Work that vanishes -/

/-- A group and all that it has under way, gone without effect (R350, R361): loads in flight, tile transfers, tasks, commands and streams. -/
def State.forgetGroup (s : State) (g : Group) : State :=
  let s := s.dropWatches g
  let mine := s.commandsOf g
  let s := mine.foldl (fun s c => if c.isStream then (s.dropCommand g.core c.id).emptyStream g.core c.sq else s.dropCommand g.core c.id) s
  let c := s.core g.core
  let free := fun (e : Option Task) => if e.map (·.group) = some g.id then none else e
  let s := s.setCore { c with tasks := c.tasks.filter (fun t => decide (t.group ≠ g.id)), engines := c.engines.map free }
  let s := { s with writes := s.writes.filter (fun w => decide (w.group ≠ g.id)), atomics := s.atomics.filter (fun a => decide (a.group ≠ g.id)),
                    tileOps := s.tileOps.filter (fun o => decide (o.group ≠ g.id)),
                    cache := s.cache.map fun (x : Sector) => { x with touch := x.touch.filter fun n => decide (n ≠ g.id) } }
  let told : Ctx → Ctx := fun c => if c.reporter = some g.id then { c with reporter := none } else c
  let mine := match s.sel with
    | some (.unit gid _) => decide (gid = g.id)
    | _ => false
  let s := { s with ctxs := s.ctxs.map told, sel := if mine then none else s.sel }
  s.dropGroup g.id

/-- A block's groups and its context, gone; its resources are freed as at its end (R361). -/
def State.forgetBlock (s : State) (b : Block) : State :=
  let s := (s.groupsOf b.id).foldl (fun s g => s.forgetGroup g) s
  let s := { s with cache := s.cache.filter fun x => decide (x.marked ≠ some b.id) }
  let s := match s.ctxs.find? fun c => decide (c.scope = 2) && decide (c.block = b.id) with
    | some c =>
      let s := { s with sel := if s.sel = some (Agent.context c.id) then none else s.sel }
      (s.setCtx { c with sent := none }).endCtx { c with sent := none }
    | none => s
  match s.block? b.id with
  | some b =>
    if b.onCore then s.endBlock b
    else
      let s := b.holds.foldl (fun s h => s.releaseHold (s.blockAccessor b) h.1 h.2) s
      { s with blocks := s.blocks.filter fun x => decide (x.id ≠ b.id) }
  | none => s

/-! ### Arena ranges (R361, R368) -/

/-- The cursor of a block's slice, where it can be read. -/
def State.cursor (s : State) (k : Grid) (index : Nat) : Option Nat :=
  match s.reach k.asid (sliceAddr k.desc index) .read true k.walkFault with
  | .found l pa => some (bytesValue (s.homeBytes l.key pa 8))
  | _ => none

/-- Addresses of one range cut at sectors, with the bytes in each. -/
def sectorsOf (va : Word) (n : Nat) : List (Word × Nat) :=
  (List.range (n / 32 + 1)).filterMap fun i => if 32 * i < n then some (va + BitVec.ofNat 64 (32 * i), min 32 (n - 32 * i)) else none

/-- Bytes of a slice that an arena has given out, limited to the slice. -/
def arenaUsed (d : LaunchDesc) (cursor : Nat) : Nat := min cursor (d.aslice * 4096 - 256)

/-- One zero fill of the device: a write that cannot be made is skipped and logged (R361). -/
def State.zeroFill (s : State) (k : Grid) (va : Word) (n : Nat) : State :=
  match s.reach k.asid va .write true k.walkFault with
  | .found l pa => s.storeHome l.key pa (List.replicate n 0)
  | _ => s.logged (.writeSkipped va.toNat)

/-- The arena range of a squashed block returned: zero-filled, its cursor zero (R361). -/
def State.returnArena (s : State) (k : Grid) (index : Nat) : State :=
  if k.desc.abase = 0 then s
  else
    let va := sliceAddr k.desc index
    let s := match s.cursor k index with
      | some n => (sectorsOf (va + 256) (arenaUsed k.desc n)).foldl (fun (s : State) (x : Word × Nat) => s.zeroFill k x.1 x.2) s
      | none => s
    s.zeroFill k va 8

/-- A block squashed (R361). -/
def State.squash (s : State) (k : Grid) (b : Block) : State := (s.forgetBlock b).returnArena k b.index

/-- The pages that squashing a block writes: its slice's. -/
def State.squashWaits (s : State) (k : Grid) (b : Block) : Option Word :=
  if k.desc.abase = 0 then none
  else
    let va := sliceAddr k.desc b.index
    let n := arenaUsed k.desc ((s.cursor k b.index).getD 0)
    ((List.range ((256 + n) / 4096 + 1)).map fun i => va + BitVec.ofNat 64 (4096 * i)).find? fun a =>
      decide (s.reach k.asid a .write true k.walkFault = .wait)

/-! ### Confirming (R358, R360) -/

/-- The line with a number. -/
def lineOf (tid no : Nat) : Line := { tid := tid, t0 := no % 2 ^ 64, t1 := no / 2 ^ 64 % 2 ^ 32, t2 := no / 2 ^ 96 % 2 ^ 24, t3 := no / 2 ^ 120 }

/-- A block confirmed: its marked sectors become plain stores at this moment, the earliest first (R283, R360). What a fence of the
block lies after is visible to every view (R231). -/
def State.confirmBlock (s : State) (b : Block) : State :=
  let marked := s.cache.filter fun x => decide (x.marked = some b.id)
  let s := { s with cache := s.cache.filter fun x => decide (x.marked ≠ some b.id) }
  let b := { b with confirmed := true }
  let s := s.setBlock b
  let a := s.blockAccessor b
  marked.foldr (fun x s =>
    if x.fenced then (s.expel a x.pa).storeMasked x.key x.pa x.dirty x.data
    else s.writeSector a { line := lineOf x.tid x.line, row := x.row, vsec := x.vsec, pa := x.pa, ord := x.ord, key := x.key } x.dirty x.data) s

/-- The predictor of a die updated with a true count (R356). -/
def State.updatePredictor (s : State) (die asid : Nat) (site : BitVec 32) (t : Nat) : State :=
  let index := site.toNat % 64
  let tag := site.toNat / 64
  let here := fun (e : Predictor) => decide (e.die = die) && decide (e.index = index)
  let counts := match s.predictors.find? here with
    | some e => if e.asid = asid && e.site = tag then (if 4 ≤ e.counts.length then e.counts.drop 1 else e.counts) ++ [t] else [t]
    | none => [t]
  { s with predictors := { die := die, index := index, asid := asid, site := tag, counts := counts } :: s.predictors.filter fun e => !here e }

/-- The placed blocks of a grid. -/
def State.blocksOfGrid (s : State) (gid : Nat) : List Block := s.blocks.filter fun b => decide (b.grid = gid)

/-- The launch entry of a grid taken out of its home cluster's pool. -/
def State.dropEntry (s : State) (k : Grid) : State :=
  let c := s.cluster k.home
  let other := fun (e : Nat × PoolEntry) => match e.2 with
    | .launch qid pos t => !(decide (qid = k.qid) && decide (pos = k.pos) && decide (t.isSome = k.tail))
    | _ => true
  (s.setCluster { c with pool := c.pool.filter other, waiting := c.waiting.filter other }).queueResumes

/-- The grid's launch decided as invalid: every block is squashed and the grid ends, with STATUS 1 (R358). -/
def State.refuseLaunch (s : State) (k : Grid) : State :=
  let bs := s.blocksOfGrid k.id
  let s := (s.setGrid { k with count := k.next, status := 1 }).dropEntry k
  (bs.foldl (fun s b => s.squash k b) s).sweep

/-- A tail launch: a second grid of the blocks from P on, whose entry goes to the head of the pool, once it has room (R339, R359). -/
def State.addTail (s : State) (k : Grid) (t : Nat) : State :=
  let (id, s) := s.fresh
  let s := s.setGrid { k with id := id, next := k.count, count := t, ranks := [], confirmed := true, tail := true, k0 := BitVec.ofNat 64 t,
                              walkFault := [], cursors := [] }
  s.poolOffer k.home k.prio (.launch k.qid k.pos (some k.count))

/-- The grid context goes on once its grid is confirmed, with `k0` the true count (R357, R358). -/
def State.confirmCtx (s : State) (k : Grid) : State :=
  match s.gridCtx k.id with
  | some c => s.setCtx { c.setR 0 k.k0 with state := if c.state = .unconfirmed then .scanning else c.state }
  | none => s

/-- The confirmation with a true count T (R358). -/
def State.confirmGrid (s : State) (k : Grid) (t : Nat) : State :=
  let p := k.count
  let k' := { k with confirmed := true, k0 := BitVec.ofNat 64 t, count := max k.next (min p t), walkFault := [],
                      cursors := k.cursors.filter fun i => decide (i < t) }
  let s := (s.setGrid k').confirmCtx k'
  let bs := s.blocksOfGrid k.id
  let s := (bs.filter fun b => decide (b.index < t)).foldl (fun s b => s.confirmBlock b) s
  let s := (bs.filter fun b => decide (t ≤ b.index)).foldl (fun s b => s.squash k' b) s
  let s := if k'.count ≤ k'.next then s.dropEntry k' else s
  let s := if p < t then s.addTail k t else s
  let s := match (s.queue? k.qid).bind fun q => q.records.find? fun r => decide (r.pos = k.pos) with
    | some r => if k.desc.psel = 2 then s.updatePredictor r.die k.asid k.desc.site t else s
    | none => s
  s.sweep

/-- What a grid context finds in its shape slot (R355, R357, R358). -/
inductive SlotRead where
  | open
  | invalid
  | count (t : Nat)
  | walk (va : Word) (c : Access)
deriving DecidableEq, Repr

/-- The read of the slot, and, where it decides, the walks that squashing needs first. -/
def State.readSlot (s : State) (k : Grid) : SlotRead :=
  let decided := fun (squashed : List Block) (r : SlotRead) =>
    match squashed.findSome? fun b => s.squashWaits k b with
    | some va => .walk va .write
    | none => r
  let bs := s.blocksOfGrid k.id
  match s.reach k.asid k.desc.slot .read true k.walkFault with
  | .wait => .walk k.desc.slot .read
  | .fail => decided bs .invalid
  | .found l pa =>
    let w := BitVec.ofNat 64 (bytesValue (s.homeBytes l.key pa 8))
    let t := bits w 31 0
    if !bit w 63 then .open
    else if bits w 62 32 ≠ 0 || decide (k.desc.nblk < t) then decided bs .invalid
    else decided (bs.filter fun b => decide (t ≤ b.index)) (.count t)

/-- Whether a grid waits for its count: it has been placed, and it is neither confirmed nor pre-empted. -/
def State.awaitsCount (s : State) (k : Grid) : Bool :=
  k.predicted && !k.confirmed && !k.preempted && !k.stopped && !k.ended && decide (k.status = 0) && (s.gridCtx k.id).isSome &&
    !(s.walks.any fun w => w.waiters.contains (.grid k.id))

/-- A grid pre-empted before confirmation (R363): its blocks are squashed, its contexts discarded, and the manager keeps its entry. -/
def State.preemptUnconfirmed (s : State) (k : Grid) : State :=
  let s := (s.setGrid { k with count := k.next }).dropEntry k
  let s := (s.blocksOfGrid k.id).foldl (fun s b => s.squash k b) s
  let s := { s with ctxs := s.ctxs.filter fun c => decide (c.grid ≠ k.id) }
  let s := { s with grids := s.grids.filter fun x => decide (x.id ≠ k.id) }
  match s.queue? k.qid with
  | some q =>
    let hold := fun (r : Fetched) => if r.pos = k.pos then { r with pushed := false, kept := true } else r
    s.setQueue { q with records := q.records.map hold }
  | none => s

/-- The squash of a grid that has stopped before confirmation: done, or one walk nearer (R361, R363). None while a walk for it is outstanding. -/
def State.squashStopped (s : State) (k : Grid) : Option State :=
  if s.walks.any fun w => w.waiters.contains (.grid k.id) then none
  else
    some (match (s.blocksOfGrid k.id).findSome? fun b => s.squashWaits k b with
      | some va => s.requestWalk k.asid va .write true k.die (.grid k.id)
      | none => s.preemptUnconfirmed k)

/-- `CONFIRMATION` (R357, R358): the grid context's read of its slot decides; or the squash of a grid pre-empted before confirmation goes on
(R363). -/
def execConfirmation (gid : Nat) (s : State) : Out :=
  match s.grid? gid with
  | none => .refused (.notEnabled "CONFIRMATION")
  | some k =>
    if k.stopped then
      (match s.squashStopped k with
        | some s => .next s
        | none => .refused (.notEnabled "CONFIRMATION"))
    else if !s.awaitsCount k then .refused (.notEnabled "CONFIRMATION")
    else
      match s.readSlot k with
      | .open => .refused (.notEnabled "CONFIRMATION")
      | .invalid => .next (s.refuseLaunch k)
      | .count t => .next (s.confirmGrid k t)
      | .walk va c => .next (s.requestWalk k.asid va c true k.die (.grid k.id))

/-! ### The placer's turn (R340) -/

/-- A grid that has just been created, before its first blocks are placed: a shape slot that already holds the count confirms it (R355, R357), and a
restore takes up what it restores (R197). None where the launch has to wait. -/
def State.beginGrid (s : State) (k : Grid) : Option State :=
  if k.restore.isSome then s.adopt k
  else if !k.predicted || k.confirmed then some s
  else
    some (match s.readSlot k with
      | .open => s
      | .invalid => s.refuseLaunch k
      | .count t => s.confirmGrid k t
      | .walk va c => s.requestWalk k.asid va c true k.die (.grid k.id))

/-- What the placer does with a launch entry at the head: nothing placed or created is none. -/
def State.takeLaunch (s : State) (cl : Nat) (e : Nat × PoolEntry) (qid pos : Nat) (tailFrom : Option Nat) : Option State :=
  let start : Option (State × Grid × Bool) :=
    match s.launchGrid qid pos tailFrom with
    | some k => if (s.gridCtx k.id).isSome then some (s, k, false)
                else if s.ctxFree k.home then some (s.addGridCtx k, k, true) else none
    | none =>
      match (s.queue? qid).bind fun q => (q.records.find? fun r => decide (r.pos = pos)).bind fun r => r.desc.map fun d => (q, r, d) with
      | some (q, r, d) =>
        if s.ctxFree cl then
          let (s, k) := s.addGrid cl q r d
          some (s.addGridCtx k, k, true)
        else none
      | none => none
  match start with
  | none => none
  | some (s, k, created) =>
    if created && s.restoreFails k then some ((s.takeEntry cl e).failLaunch k 1)
    else
      (if created then s.beginGrid k else some s).bind fun s =>
        match s.grid? k.id with
        | none => some (s.takeEntry cl e)
        | some k =>
          let s' := s.placeSets k.id (k.count - k.next)
          match s'.grid? k.id with
          | none => none
          | some k' =>
            if k'.count ≤ k'.next then some ((s'.takeEntry cl e).sweep)
            else if created || decide (k'.next ≠ k.next) then some s'
            else none

/-- What a cluster's placer can do now, if anything. -/
def State.placerStep (s : State) (cl : Nat) : Option State :=
  match s.placerHead cl with
  | some (p, .launch qid pos t) => s.takeLaunch cl (p, .launch qid pos t) qid pos t
  | some (p, .resume b) => s.takeResume cl (p, .resume b) b
  | _ => none

/-- `PLACER_TAKE_ENTRY` (R340). -/
def execPlacerTakeEntry (cl : Nat) (s : State) : Out :=
  match s.placerStep cl with
  | some s => .next s
  | none => .refused (.notEnabled "PLACER_TAKE_ENTRY")

/-! ### Words -/

/-- The status of `shp.set` at the slot's home, and the slot's new value where it is written (R365). -/
def shpSetAt (n old : Nat) : Option Nat := if old / 2 ^ 63 = 0 then some (2 ^ 63 + n) else none

/-- `shp.set` (R365). -/
def execShpSet (m : BitVec 1) (d a b : BitVec 5) (s : State) : Out :=
  issue (.shpSet m d a b) s fun s g u =>
    let va := g.s a.toNat
    let v := g.s b.toNat
    withPlace s g u .atomic 8 false true va fun pl =>
      if badKindFor .none pl then .trap (pageKindFault va pl u)
      else if (s.accessor g).unconfirmed then .stall 19
      else if bits v 63 32 ≠ 0 then .ok s (g.setS d.toNat 2) u
      else
        match s.placePoison pl with
        | some code => .trap (containedFault va code u.mask)
        | none =>
          releasing s g u 4 <|
            let (s, g) := s.releaseFor g 4
            let (s, old) := s.atomic (s.accessor g) pl 8 (shpSetAt (bits v 31 0))
            .ok s (g.setS d.toNat (if old / 2 ^ 63 = 0 then 0 else 1)) u

/-- The status word of `shp.get` (R366). -/
def State.shapeStatus (s : State) (g : Group) : Word :=
  let b := s.blockOf g
  let k0 := ((s.grid? b.grid).map (·.k0)).getD 0
  place (flag b.confirmed) 63 ||| place (flag b.tail) 62 ||| place (bits k0 31 0) 0

/-- `shp.get` (R366). -/
def execShpGet (m : BitVec 1) (d : BitVec 5) (s : State) : Out :=
  issue (.shpGet m d) s fun s g u =>
    let v := s.shapeStatus g
    let (s, g) := s.traceValue g u 5 0 [v]
    .ok s (g.setS d.toNat v) u

/-- `shp.conf` (R367). -/
def execShpConf (m : BitVec 1) (d : BitVec 5) (s : State) : Out :=
  issue (.shpConf m d) s fun s g u =>
    let b := s.blockOf g
    if !b.confirmed then .stall 19
    else
      let v := ((s.grid? b.grid).map (·.k0)).getD 0
      let s := s.acquireFor g 4
      let (s, g) := s.traceValue g u 5 0 [v]
      .ok s (g.setS d.toNat v) u

/-- Whether a request of `salloc` is one that its rule refuses with 1 (R368). -/
def sallocBad (d : LaunchDesc) (n : Nat) : Bool :=
  decide (d.abase = 0) || decide (n % 256 ≠ 0) || decide (n = 0) || decide (2 ^ 32 < n)

/-- `salloc` (R368). -/
def execSalloc (m : BitVec 1) (d a : BitVec 5) (s : State) : Out :=
  issue (.salloc m d a) s fun s g u =>
    let answer := fun (s : State) (v : Word) =>
      let (s, g) := s.traceValue g u 5 0 [v]
      Res.ok s (g.setS d.toNat v) u
    let n := (g.s a.toNat).toNat
    match s.grid? (s.blockOf g).grid with
    | none => answer s 1
    | some k =>
      if sallocBad k.desc n then answer s 1
      else
        let va := sliceAddr k.desc (s.blockOf g).index
        match s.reach k.asid va .atomic true k.walkFault with
        | .wait => .wait (s.requestWalk k.asid va .write true (dieOfCore g.core) (.arena k.id)) g { u with wait := .stall 9 }
        | .fail => answer (s.setGrid { k with walkFault := k.walkFault.filter fun p => decide (p ≠ va.toNat / 4096) }) 3
        | .found l pa =>
          let c := bytesValue (s.homeBytes l.key pa 8)
          if k.desc.aslice * 4096 < 256 + c + n then answer s 0
          else answer (s.storeHome l.key pa (valueBytes 8 (c + n))) (va + BitVec.ofNat 64 (256 + c))

end Sys2Proof.Machine
end

