-- ==== Sys2Proof/Machine/Traps.lean ====
section
/-!
DEFINITION. Traps and pre-emption (R187 to R207, R216, R319, R363): `trap`, the control registers, sequencer and fragment images, `rte`, the entry of
asynchronous requests, and pre-emption.
-/

namespace Sys2Proof.Machine

/-- `trap` (R192, R194): its resume PC is PC + 4. -/
def execTrap (m : BitVec 1) (i : BitVec 14) (s : State) : Out :=
  issue (.trap m i) s fun s g u =>
    .trapAfter s g { u with pc := u.pc + 4, hint := none } { cause := 21, tval := i.setWidth 64, tstat := 0, tlane := u.mask }

/-! ### Control registers (R195, R196) -/

/-- The value of a control register as a unit reads it (R196). DESIGN CHOICE: TVEC reads 0 in a context that has loaded no image, and a trap there
enters at 0. -/
def State.csr (s : State) (g : Group) (u : GUnit) (n : Nat) : Word :=
  let b := s.blockOf g
  let part := s.partition? (s.partOf g)
  if 0x10 ≤ n ∧ n ≤ 0x1F then g.binding (n - 0x10)
  else if 0x008 ≤ n ∧ n ≤ 0x00D then (g.rgmap[n - 8]?).getD 0
  else if 0x108 ≤ n ∧ n ≤ 0x10B then (g.trap.tscr[n - 0x108]?).getD 0
  else
    match n with
    | 0x000 => u.fmt
    | 0x001 => g.fflg.setWidth 64
    | 0x003 => BitVec.ofNat 64 g.vwin
    | 0x004 => BitVec.ofNat 64 g.valloc
    | 0x005 => BitVec.ofNat 64 g.role
    | 0x006 => g.acbase
    | 0x007 => g.aclim
    | 0x020 => groupGid g
    | 0x021 => BitVec.ofNat 64 (flag b.timed)
    | 0x022 => BitVec.ofNat 64 b.acRows
    | 0x100 => g.trap.tcause
    | 0x101 => g.tpc
    | 0x102 => g.trap.tval
    | 0x103 => g.trap.tlane.setWidth 64
    | 0x104 => g.trap.tstat
    | 0x105 => BitVec.ofNat 64 g.trap.tunit
    | 0x106 => ((s.context? b.asid).bind (·.tvec)).getD 0
    | 0x107 => BitVec.ofNat 64 (flag g.trap.tmode)
    | 0x10C => g.trap.savea
    | 0x110 => (part.map (·.suspBase)).getD 0
    | 0x111 => BitVec.ofNat 64 Config.suspSlot
    | 0x112 => BitVec.ofNat 64 ((part.map (·.suspSlots)).getD 0)
    | _ => 0

/-- `csrr` (R195). FFLGS, which is write-only, reads zero (R7). -/
def execCsrr (m : BitVec 1) (d : BitVec 5) (c : BitVec 12) (s : State) : Out :=
  issue (.csrr m d c) s fun s g u =>
    .ok s (g.setS d.toNat (s.csr g u c.toNat)) u

/-- A trap register of a group written at level 1 (R190, R196). -/
def Group.setTrapCsr (g : Group) (n : Nat) (v : Word) : Group :=
  let t := g.trap
  if 0x108 ≤ n ∧ n ≤ 0x10B then { g with trap := { t with tscr := t.tscr.setIfInBounds (n - 0x108) v } }
  else
    match n with
    | 0x100 => { g with trap := { t with tcause := v &&& 0x1FF } }
    | 0x101 => g.setTpc v
    | 0x102 => { g with trap := { t with tval := v } }
    | 0x103 => { g with trap := { t with tlane := v.setWidth 32 } }
    | 0x104 => { g with trap := { t with tstat := v } }
    | 0x10C => { g with trap := { t with savea := v } }
    | _ => g

/-- A write of a control register (R195, R196): FMT as `fmt.set`, FFLG by writing ones, a binding as `qbind`, the windows unchecked. -/
def State.csrWrite (s : State) (g : Group) (u : GUnit) (n : Nat) (v : Word) : Res :=
  if 0x10 ≤ n ∧ n ≤ 0x1F then
    if !s.bindingOk g v then .trap (queueFault v u)
    else
      let (s, g) := s.rebind g (n - 0x10) v
      .ok s g u
  else
    match n with
    | 0x000 => if fmtOk v then .ok s g { u with fmt := v } else .trap { cause := 10, tval := v, tstat := 0, tlane := u.mask }
    | 0x001 => .ok s { g with fflg := g.fflg &&& ~~~(v.setWidth 6) } u
    | 0x002 => .ok s { g with fflg := g.fflg ||| v.setWidth 6 } u
    | 0x005 => .ok s { g with role := bits v 2 0 } u
    | 0x006 => .ok s { g with acbase := v &&& 0x7FF } u
    | 0x007 => .ok s { g with aclim := v &&& 0xFFF } u
    | 0x106 =>
      .ok (match s.context? (s.blockOf g).asid with
        | some x => s.setContext { x with tvec := some (pcOf v) }
        | none => s) g u
    | _ => .ok s (g.setTrapCsr n v) u

/-- `csrw` (R195). -/
def execCsrw (m : BitVec 1) (a : BitVec 5) (c : BitVec 12) (s : State) : Out :=
  issue (.csrw m a c) s fun s g u => s.csrWrite g u c.toNat (g.s a.toNat)

/-! ### Images in memory -/

/-- The sectors of n bytes at an address, as a group reaches them, or what comes instead: a fault, a walk, or a transfer that touches
them. -/
def imagePlaces (s : State) (g : Group) (u : GUnit) (c : Access) (va : Word) (n : Nat) (k : List Place → Res) : Res :=
  if va.toNat % 64 ≠ 0 then .trap (addrFault 11 va 0 u.mask)
  else
    match s.prepare g c 32 false false (some u.mask) ((List.range (n / 32)).map fun i => (i, va + BitVec.ofNat 64 (32 * i))) with
    | .fault t => .trap t
    | .lanes hits misses bad =>
      if !misses.isEmpty || !bad.isEmpty then finishAccess s g u c (some u.mask) misses bad
      else if hits.any fun h => s.transferAt g.id h.2.2 32 then .stall 2
      else if decide (c = .write) && s.storeHolds g none hits then .stall 19
      else
        match if c = .write then none else hits.findSome? fun h =>
            (if s.holdsPlace (s.accessor g) h.2.2 then none else s.placePoison h.2.2).map fun code => (h.2.1, code) with
        | some (a, code) => .trap (containedFault a code u.mask)
        | none => k (hits.map (·.2.2))

/-- The bytes of an image, a multiple of 32, stored sector by sector. -/
def State.storeImage (s : State) (g : Group) : List Place → List Byte → State
  | [], _ => s
  | pl :: rest, bs => (s.store (s.accessor g) pl 32 (bytesValue (bs.take 32))).storeImage g rest (bs.drop 32)

/-- The bytes of an image, loaded sector by sector. -/
def State.loadImage (s : State) (g : Group) : List Place → State × List Byte
  | [] => (s, [])
  | pl :: rest =>
    let (s, v) := s.load (s.accessor g) pl 32
    let (s, bs) := s.loadImage g rest
    (s, valueBytes 32 v ++ bs)

/-- An image stored whole, and its length in a register (R202, R204). -/
def saveImage (s : State) (g : Group) (u : GUnit) (d : Nat) (va : Word) (ws : List Word) : Res :=
  let len := 8 * ws.length
  let ws := ws ++ List.replicate ((8 - ws.length % 8) % 8) 0
  imagePlaces s g u .write va (8 * ws.length) fun ps =>
    .ok (s.storeImage g ps (wordsBytes ws)) (g.setS d (BitVec.ofNat 64 ((len + 63) / 64 * 64))) u

/-- An image loaded whole: the header first, which gives the length. -/
def withImage (s : State) (g : Group) (u : GUnit) (va : Word) (length : List Word → Nat) (k : State → List Word → Res) : Res :=
  imagePlaces s g u .read va 64 fun ps =>
    let (s1, hs) := s.loadImage g ps
    let n := (length (bytesWords 8 hs) + 63) / 64 * 64
    imagePlaces s1 g u .read va n fun ps =>
      let (s, bs) := s1.loadImage g ps
      k s (bytesWords (n / 8) bs)

/-! ### Sequencer images (R202, R203) -/

/-- SEGEND: all ones without an end; a receiver that has taken no record stands one word beyond it (R203, R216). -/
def segEnd (pc : Word) : Segment → Word
  | .none => pc - 4
  | .upTo _ last => last
  | .unbounded => ~~~0

/-- The segment that an image's SEGEND gives: the image holds no first PC. -/
def segOf (w : Word) : Segment := if w = ~~~0 then .unbounded else .upTo 0 (pcOf w)

/-- LOOP words, innermost last. -/
def loopWords (ls : List LoopLevel) : List Word :=
  let ws := ls.reverse.flatMap fun l => [l.count, l.first, l.last]
  (ws ++ List.replicate 9 0).take 9

/-- STACK words, oldest first. -/
def stackWords (cs : List CallEntry) : List Word :=
  let ws := cs.reverse.map fun e => e.ret ||| place (e.loops % 4) 0
  (ws ++ List.replicate 16 0).take 16

/-- Loop levels of an image. -/
def loopsOf (ws : List Word) (at_ n : Nat) : List LoopLevel :=
  ((List.range (min n 3)).map fun i => { count := wordAt ws (at_ + 3 * i), first := pcOf (wordAt ws (at_ + 3 * i + 1)),
                                          last := pcOf (wordAt ws (at_ + 3 * i + 2)) }).reverse

/-- Call-stack entries of an image. -/
def stackOf (ws : List Word) (at_ n : Nat) : List CallEntry :=
  ((List.range (min n 16)).map fun i =>
    let w := wordAt ws (at_ + i)
    { ret := pcOf w, loops := bits w 1 0 }).reverse

/-- A context that `seqsv` and `seqld` name. -/
inductive Selected where
  | group
  | context (c : Ctx)
deriving DecidableEq, Repr

/-- The context that a selector names (R202). -/
def State.selected (s : State) (g : Group) (sel : Word) : Option Selected :=
  let b := s.blockOf g
  match sel.toNat with
  | 1 => some .group
  | 2 => (s.ctxs.find? fun c => decide (c.scope = 2) && decide (c.block = b.id)).map .context
  | 3 => (s.clusterCtx b.grid (clusterOfCore g.core)).map .context
  | 4 => (s.gridCtx b.grid).map .context
  | _ => none

/-- The 64 fixed words of a sequencer image. -/
def imageHead (scope nrec nlink : Nat) (pc segend : Word) (base depth loops : Nat) (next : BitVec 24) (sdv : BitVec 6) (ds sd : Vector Word 6)
    (regs : List Word) (ls : List LoopLevel) (stack : List CallEntry) (logBase : Word) (logLen : Nat) : List Word :=
  let len := (512 + 64 * nrec + 8 * nlink + 63) / 64 * 64
  [place 1 56 ||| place scope 53 ||| place nrec 49 ||| place nlink 32 ||| BitVec.ofNat 64 len, pc, segend,
    place base 0 ||| place depth 5 ||| place loops 10, next.setWidth 64 ||| place sdv.toNat 24] ++ ds.toList ++ sd.toList ++
    (regs ++ List.replicate 16 0).take 16 ++ loopWords ls ++ stackWords stack ++ [logBase, BitVec.ofNat 64 logLen, 0, 0, 0, 0]

/-- The image of a group's context. -/
def groupImage (g : Group) : List Word :=
  let pc := (g.units.head?.map (·.pc)).getD 0
  imageHead 1 g.queue.length 0 0 (segEnd pc g.segment) g.baseDepth 0 0 g.nextSeq 0 g.dvals (Vector.replicate 6 0) [] [] [] 0 0 ++
    g.queue.flatMap recordWords

/-- The image of an upper context. -/
def ctxImage (c : Ctx) : List Word :=
  let regs := if c.scope = 3 then c.regs.toList.take 8 else c.regs.toList
  imageHead c.scope c.queue.length c.links.length c.pc (segEnd c.pc c.segment) c.baseDepth c.depth c.loops.length c.nextSeq c.sdv c.dvals c.sd regs
    c.loops c.stack (if c.logging then c.logBase else 0) (if c.logging then c.log.length else 0) ++ c.queue.flatMap recordWords ++
    c.links.map fun l => place l.key 24 ||| l.seq.setWidth 64

/-- Whether a selected context is frozen; the group's own is, in trap mode (R202). -/
def Selected.frozen : Selected → Bool
  | .group => true
  | .context c => c.frozen

/-- The outcome of a word that completes, with its state changed further. -/
def Res.onState (r : Res) (f : State → State) : Res :=
  match r with
  | .ok s g u => .ok (f s) g u
  | r => r

/-- `seqsv` (R202). What it does where no frozen context is selected is left open: a free choice says whether a context that is not frozen
is saved, and without an image the register receives a free value. -/
def execSeqsv (m : BitVec 1) (d a b : BitVec 5) (s : State) : Out :=
  issue (.seqsv m d a b) s fun s g u =>
    let nothing := fun (s : State) =>
      let (v, s) := s.freeWord
      Res.ok s (g.setS d.toNat v) u
    match s.selected g (g.s b.toNat) with
    | none => nothing s
    | some x =>
      let (k, s) := if x.frozen then (0, s) else s.draw 2
      if k = 1 then nothing s
      else match x with
        | .group => saveImage s g u d.toNat (g.s a.toNat) (groupImage g)
        | .context c => (saveImage s g u d.toNat (g.s a.toNat) (ctxImage c)).onState fun s => s.setCtx { c with saved := c.frozen }

/-- The record log that an image names (R447). -/
def State.logAt (s : State) (base : Word) (n : Nat) : List (BitVec 512) :=
  match s.ctxs.find? fun c => c.logging && decide (c.logBase = base) with
  | some c => c.log.take n
  | none => ((s.logs.find? fun l => decide (l.1 = base)).map (·.2.take n)).getD []

/-- Records of an image: at most 8, which is what a queue holds. -/
def imageRecords (ws : List Word) : List (BitVec 512) :=
  (List.range (min (fieldOf ws 0 52 49) Config.queueDepth)).map fun i => wordsRecord ((ws.drop (64 + 8 * i)).take 8)

/-- D or SD values of an image. -/
def imageValues (ws : List Word) (at_ : Nat) : Vector Word 6 := Vector.ofFn fun i : Fin 6 => wordAt ws (at_ + i.val)

/-- A group's context loaded from an image. -/
def loadGroup (g : Group) (ws : List Word) : Group :=
  { g with queue := imageRecords ws, nextSeq := BitVec.ofNat 24 (fieldOf ws 4 23 0), dvals := imageValues ws 5, segment := segOf (wordAt ws 2),
           baseDepth := fieldOf ws 3 4 0 }

/-- An upper context loaded from an image. -/
def State.loadCtx (s : State) (c : Ctx) (ws : List Word) : Ctx :=
  let nrec := fieldOf ws 0 52 49
  let links := (List.range (fieldOf ws 0 48 32)).map fun i => wordAt ws (64 + 8 * nrec + i)
  let relink := fun (l : Link) => match links.find? fun w => decide (bits w 63 24 = l.key) with
    | some w => { l with seq := BitVec.ofNat 24 (bits w 23 0) }
    | none => l
  let base := wordAt ws 58
  let log := s.logAt base (wordAt ws 59).toNat
  let lag := fun (l : Link) => { l with behind := if base = 0 then 0 else (BitVec.ofNat 24 log.length - l.seq).toNat }
  let c := { c with pc := pcOf (wordAt ws 1), start := pcOf (wordAt ws 1), segment := if c.scope = 4 then .unbounded else segOf (wordAt ws 2),
                    baseDepth := fieldOf ws 3 4 0, loops := loopsOf ws 33 (fieldOf ws 3 11 10), stack := stackOf ws 42 (fieldOf ws 3 9 5),
                    nextSeq := BitVec.ofNat 24 (fieldOf ws 4 23 0), sdv := BitVec.ofNat 6 (fieldOf ws 4 29 24), dvals := imageValues ws 5,
                    sd := imageValues ws 11, regs := Vector.ofFn fun i : Fin 16 => wordAt ws (17 + i.val), queue := imageRecords ws,
                    links := c.links.map fun l => lag (relink l), logging := decide (base ≠ 0), logBase := base,
                    log := log, saved := false, hint := none, joint := none, sent := none, parties := [], got := [] }
  { c with state := if c.atEnd then .needRecord else .scanning }

/-- Whether an image's header fits the selected context (R202). -/
def headerOk (x : Selected) (sel : Word) (ws : List Word) : Bool :=
  decide (fieldOf ws 0 63 56 = 1) && decide (fieldOf ws 0 55 53 = sel.toNat) && decide (fieldOf ws 0 48 32 = match x with
    | .group => 0
    | .context c => c.links.length)

/-- Bytes of a sequencer image by its header. -/
def seqLength (ws : List Word) : Nat := 512 + 64 * fieldOf ws 0 52 49 + 8 * fieldOf ws 0 48 32

/-- `seqld` (R202). A selector that names no context fails as a header does that does not equal it; whether a context that is not frozen
is loaded is a free choice. -/
def execSeqld (m : BitVec 1) (d a b : BitVec 5) (s : State) : Out :=
  issue (.seqld m d a b) s fun s g u =>
    let answer := fun (s : State) (g : Group) (v : Nat) =>
      let (s, g) := s.traceValue g u 5 0 [BitVec.ofNat 64 v]
      Res.ok s (g.setS d.toNat (BitVec.ofNat 64 v)) u
    let sel := g.s b.toNat
    match s.selected g sel with
    | none => answer s g 0
    | some x =>
      let (k, s) := if x.frozen then (0, s) else s.draw 2
      if k = 1 then answer s g 0
      else
        imagePlaces s g u .read (g.s a.toNat) 64 fun ps =>
          let (s1, hs) := s.loadImage g ps
          if !headerOk x sel (bytesWords 8 hs) then answer s1 g 0
          else
            withImage s g u (g.s a.toNat) seqLength fun s ws =>
              let len := (seqLength ws + 63) / 64 * 64
              match x with
              | .group => answer s (loadGroup g ws) len
              | .context c => answer (s.setCtx (s.loadCtx c ws)) g len

/-! ### Fragment images (R204, R205) -/

/-- A reconvergence entry as R150 lays it out, in four words. -/
def reconWords (r : Recon) : List Word :=
  let p := r.parent.getD 0
  [place (p % 2) 63 ||| place (flag r.parent.isNone) 62 ||| place 1 61, place r.bpc.toNat 9 ||| place r.depth 4 ||| place (p / 2) 0,
    place r.join.toNat 32 ||| place r.arr.toNat 0, r.fmts]

/-- A reconvergence entry from its four words. -/
def reconOf (ws : List Word) : Recon :=
  let w0 := wordAt ws 0
  let w1 := wordAt ws 1
  { fmts := wordAt ws 3, join := BitVec.ofNat 32 (bits (wordAt ws 2) 63 32), arr := BitVec.ofNat 32 (bits (wordAt ws 2) 31 0),
    bpc := BitVec.ofNat 55 (bits w1 63 9), depth := bits w1 8 4, parent := if bit w0 62 then none else some (2 * bits w1 3 0 + bits w0 63 63) }

/-- WAIT of a saved unit (R205). -/
def waitCode (u : GUnit) : Nat := if u.wait = .arrived then 1 else if u.unfinished.isSome then 2 else 0

/-- A unit record of 32 words (R205). -/
def unitWords (u : GUnit) : List Word :=
  [place u.mask.toNat 0 ||| place (u.entry.getD 0) 32 ||| place (flag u.entry.isSome) 37 ||| place (flag u.region.isSome) 38 ||| place (waitCode u) 39 |||
      place u.loops.length 43 ||| place u.depth 45,
    place (u.region.getD 0).toNat 0 ||| place (if waitCode u = 2 then (u.unfinished.getD 0).toNat else 0) 32, u.pc, u.fmt, 0] ++
    loopWords u.loops ++ stackWords u.stack ++ [0, 0]

/-- A unit from its record. -/
def unitOf (uid : Nat) (steps : Nat) (ws : List Word) : GUnit :=
  let w0 := wordAt ws 0
  let w1 := wordAt ws 1
  let wait := bits w0 42 39
  { uid := uid, mask := BitVec.ofNat 32 (bits w0 31 0), pc := pcOf (wordAt ws 2), fmt := wordAt ws 3, loops := loopsOf ws 5 (bits w0 44 43),
    stack := stackOf ws 14 (bits w0 49 45), entry := if bit w0 37 then some (bits w0 36 32) else none,
    region := if bit w0 38 then some (BitVec.ofNat 32 (bits w1 31 0)) else none, wait := if wait = 1 then .arrived else .ready, hint := none,
    unfinished := if wait = 2 then some (BitVec.ofNat 32 (bits w1 63 32)) else none, ordered := decide (wait = 2), skipBp := false, since := steps }

/-- A replay entry of 16 words (R205). -/
def replayWords (e : ReplayEntry) : List Word :=
  (e.record ++ List.replicate 8 0).take 8 ++ [BitVec.ofNat 64 e.queue, e.binding, 0, 0, 0, 0, 0, 0]

/-- The generator states, two to a word. -/
def genWords (g : Group) : List Word := (List.range 16).map fun i => g.gen (2 * i + 1) ++ g.gen (2 * i)

/-- Bytes of a fragment image. -/
def fragLength (nunit nrepl : Nat) : Nat := 1280 + 256 * nunit + 128 * nrepl

/-- The image of a group's units. -/
def fragImage (g : Group) : List Word :=
  let valids := (List.range 32).foldl (fun (m : Mask) e => if (g.recon? e).isSome then m ||| laneBit e else m) 0
  [place 1 56 ||| place g.units.length 50 ||| place g.replay.length 44 ||| place (fragLength g.units.length g.replay.length) 0,
    place valids.toNat 0 ||| place g.width 32 ||| place g.trap.tunit 40] ++ g.rgmap.toList ++ genWords g ++ List.replicate 8 (0 : Word) ++
    ((List.range 32).flatMap fun e => match g.recon? e with
      | some r => reconWords r
      | none => List.replicate 4 (0 : Word)) ++
    (sortUnits g.units).flatMap unitWords ++ g.replay.flatMap replayWords

/-- `fragsv` (R204). -/
def execFragsv (m : BitVec 1) (d a : BitVec 5) (s : State) : Out :=
  issue (.fragsv m d a) s fun s g u => saveImage s g u d.toNat (g.s a.toNat) (fragImage g)

/-- What a fragment image gives: entries, units, TUNIT and the replay list. -/
structure Frag where
  recon : List (Nat × Recon)
  units : List GUnit
  waits : List Nat
  tunit : Nat
  replay : List ReplayEntry

/-- A fragment image read. -/
def fragOf (steps uid : Nat) (ws : List Word) : Frag :=
  let nunit := fieldOf ws 0 55 50
  let nrepl := fieldOf ws 0 49 44
  let recAt := fun (e : Nat) => (ws.drop (32 + 4 * e)).take 4
  let unitAt := fun (i : Nat) => (ws.drop (160 + 32 * i)).take 32
  let replAt := fun (i : Nat) => (ws.drop (160 + 32 * nunit + 16 * i)).take 16
  { recon := ((List.range 32).filter fun e => bit (wordAt ws 1) e).map fun e => (e, reconOf (recAt e)),
    units := (List.range nunit).map fun i => unitOf (uid + i) steps (unitAt i),
    waits := (List.range nunit).map fun i => fieldOf (unitAt i) 0 42 39, tunit := fieldOf ws 1 44 40,
    replay := (List.range nrepl).map fun i => { id := i, record := (replAt i).take 8, queue := fieldOf (replAt i) 8 3 0, binding := wordAt (replAt i) 9 } }

/-- Whether the masks of some units are apart (R204). -/
def masksApart : List GUnit → Bool
  | [] => true
  | u :: rest => rest.all (fun x => decide (x.mask &&& u.mask = 0)) && masksApart rest

/-- Whether a header is one that `fragld` accepts (R204). -/
def fragHeadOk (g : Group) (ws : List Word) : Bool :=
  decide (fieldOf ws 0 63 56 = 1) && decide (fieldOf ws 1 39 32 = g.width) && decide (fieldOf ws 1 44 40 < fieldOf ws 0 55 50) &&
    decide (fieldOf ws 0 49 44 ≤ 32) && decide (fieldOf ws 0 55 50 ≤ 32)

/-- Whether an image is one that `fragld` accepts (R204). -/
def fragOk (g : Group) (f : Frag) : Bool :=
  masksApart f.units && (f.units.all fun u => decide (u.mask &&& ~~~g.live = 0)) &&
    (f.units.all fun u => match u.entry with
      | some e => f.recon.any fun r => decide (r.1 = e)
      | none => true) && f.waits.all fun w => decide (w ≤ 2)

/-- A group with the units of an image: the lanes of no unit have exited. -/
def loadFrag (g : Group) (f : Frag) (ws : List Word) : Group :=
  { g with rgmap := Vector.ofFn fun i : Fin 6 => wordAt ws (2 + i.val) &&& BitVec.ofNat 64 (2 ^ (if i.val = 5 then 20 else 60) - 1),
           gens := Vector.ofFn fun l : Fin 32 => BitVec.ofNat 32 (fieldOf ws (8 + l.val / 2) (if l.val % 2 = 0 then 31 else 63) (if l.val % 2 = 0 then 0 else 32)),
           recon := f.recon, units := sortUnits f.units, nextUid := g.nextUid + f.units.length,
           live := f.units.foldl (fun m u => m ||| u.mask) 0, replay := f.replay, trap := { g.trap with tunit := f.tunit } }

/-- `fragld` (R204). -/
def execFragld (m : BitVec 1) (d a : BitVec 5) (s : State) : Out :=
  issue (.fragld m d a) s fun s g u =>
    let va := g.s a.toNat
    let answer := fun (s : State) (g : Group) (v : Nat) => Res.ok s (g.setS d.toNat (BitVec.ofNat 64 v)) u
    imagePlaces s g u .read va 64 fun ps =>
      let (s1, hs) := s.loadImage g ps
      if !fragHeadOk g (bytesWords 8 hs) then answer s1 g 0
      else
        withImage s g u va (fun ws => fragLength (fieldOf ws 0 55 50) (fieldOf ws 0 49 44)) fun s ws =>
          let f := fragOf s.steps g.nextUid ws
          if fragOk g f then answer s (loadFrag g f ws) (fragLength f.units.length f.replay.length) else answer s g 0

/-! ### Leaving a handler (R200, R206) -/

/-- What pushing a replay list leads to. -/
inductive Replayed where
  | done (s : State) (g : Group)
  /-- An entry has found no room yet. -/
  | stuck (s : State) (g : Group) (reason : Nat)
  | fault (t : TrapInfo)

/-- The replay list pushed again, in order, as the group's level-0 code pushed it (R200). -/
def pushReplay (u : GUnit) : List ReplayEntry → State → Group → Replayed
  | [], s, g => .done s { g with replay := [] }
  | e :: rest, s, g =>
    match s.pushTo { g with trap := { g.trap with tmode := false } } e.queue e.binding e.record true with
    | none => .fault (queueFault e.binding u)
    | some (.ok s g') => pushReplay u rest s { g' with trap := g.trap }
    | some (.stall r) => .stuck s { g with replay := e :: rest } r
    | some (.fault cause tval) => .fault { cause := cause, tval := tval, tstat := 0, tlane := u.mask }

/-- Whether a group still owes the `rte` of a pre-emption or a restore (R206). -/
def Group.owesRte (g : Group) : Bool :=
  (g.trap.tmode && (decide (bits g.trap.tcause 7 0 = 24) || decide (bits g.trap.tcause 7 0 = 25))) ||
    g.async.any fun t => decide (t.cause = 24)

/-- Whether a receiver below a context has executed `rte`: a group its own, a context all of those below it (R206). -/
def State.receiverBack (s : State) (p : Party) : Bool :=
  match p with
  | .group gid => ((s.group? gid).map fun g => !g.owesRte).getD true
  | .context cid => ((s.ctx? cid).map fun c => !c.frozen).getD true

/-- Whether the segment that ends at a Joint word has been emitted and its receivers still stand in it, or have yet to take it. -/
def State.jointEmitted (s : State) (c : Ctx) (pc : Word) : Bool :=
  let ends := fun (x : Segment) => match x with
    | .upTo _ last => decide (last = pc)
    | _ => false
  let queued := fun (q : List (BitVec 512)) => match q.getLast? with
    | some r => decide (recordKind r = 0) && decide (recordLast r = pc)
    | none => false
  c.links.any fun l => match l.dest with
    | .group gid => (match s.group? gid with
      | some g => if g.queue.isEmpty then ends g.segment && (g.units.any fun u => !unitDone u && !atEnd { g with trap := { g.trap with tmode := false } } u)
                  else queued g.queue
      | none => false)
    | .context cid => (match s.ctx? cid with
      | some x => if x.queue.isEmpty then ends x.segment && !x.atEnd else queued x.queue
      | none => false)

/-- A context that goes on at a Joint word whose segment it had emitted waits there for its receivers (R124, R197, R198). -/
def State.atJointAgain (s : State) (c : Ctx) : Ctx :=
  if c.state = .scanning then
    match s.standing c with
    | .inr x =>
      if x.cls = .joint && s.jointEmitted c x.pc then c.joinAt x x.word else c
    | .inl _ => c
  else c

/-- The contexts of a grid at a scope whose receivers are all back unfreeze (R206). -/
def State.thawScope (s : State) (grid scope : Nat) : State :=
  let cs := s.ctxs.filter fun c => decide (c.grid = grid) && decide (c.scope = scope) && c.frozen && !c.saved && decide (c.fault = none)
  cs.foldl (fun s c => if c.links.all fun l => s.receiverBack l.dest then s.setCtx { s.atJointAgain c with frozen := false } else s) s

/-- The contexts of a grid unfreeze from the blocks up; a pre-empted grid is back when none is left frozen (R197, R206). -/
def State.thaw (s : State) (grid : Nat) : State :=
  let s := ((s.thawScope grid 2).thawScope grid 3).thawScope grid 4
  match s.grid? grid with
  | some k =>
    if (s.ctxs.any fun c => decide (c.grid = grid) && c.frozen && decide (c.fault = none)) ||
        (s.groups.any fun g => g.owesRte && decide ((s.blockOf g).grid = grid)) then s
    else { s.setGrid { k with preempted := false } with shelved := s.shelved.filter fun x => decide (x.grid ≠ grid) }
  | none => s

/-- A context whose fault a group has reported goes on when that group leaves its handler (R193). -/
def State.reported (s : State) (gid : Nat) : State :=
  let back := fun (c : Ctx) =>
    if c.reporter = some gid then
      let kept := ((s.grid? c.grid).map (·.preempted)).getD false
      { c with fault := none, reporter := none, frozen := kept, saved := c.saved && kept }
    else c
  { s with ctxs := s.ctxs.map back }

/-- The saved units of a group that has taken no record wait for one, wherever an image left them. -/
def Group.unready (g : Group) : Group :=
  let idle := fun (u : GUnit) => if u.wait = .ready then { u with wait := .segmentDone } else u
  if g.segment = .none then { g with units := g.units.map idle } else g

/-- `rte` (R206). -/
def execRte (m : BitVec 1) (s : State) : Out :=
  issue (.rte m) s fun s g u =>
    match pushReplay u g.replay s g with
    | .fault t => .trap t
    | .stuck s g r => .wait s g { u with wait := .stall r }
    | .done s g =>
      let g := (leaveTrap g.unready s.steps).syncFor 2
      let s := ((s.setGroup g).reported g.id).thaw (s.blockOf g).grid
      .regrouped s g none

/-! ### Asynchronous requests (R191) -/

/-- The request that a group takes next: a debug halt before a pre-emption, and a pre-emption once its work has settled (R191, R199). -/
def State.nextAsync (s : State) (g : Group) : Option TrapInfo :=
  match g.async.find? fun t => decide (t.cause = 26) with
  | some t => some t
  | none =>
    match g.async with
    | t :: _ => if t.cause = 24 && decide (s.outstanding g ≠ 0) then none else some t
    | [] => none

/-- Whether a group takes a request now. -/
def State.takesAsync (s : State) (g : Group) : Option TrapInfo := if g.atBoundary then s.nextAsync g else none

/-- `ASYNC_TRAP_ENTRY` (R191, R192, R216): TUNIT is the unit of lowest lane. -/
def execAsyncTrapEntry (gid : Nat) (s : State) : Out :=
  match s.group? gid with
  | none => .refused (.notEnabled "ASYNC_TRAP_ENTRY")
  | some g =>
    match s.takesAsync g with
    | none => .refused (.notEnabled "ASYNC_TRAP_ENTRY")
    | some t =>
      let s := s.setGroup { g with async := g.async.erase t }
      let lead := (g.units.head?.map (·.mask)).getD 0
      .next (s.takeTrap gid ((g.units.head?.map (·.uid)).getD 0) { t with tlane := lead } 0 true)

/-! ### Pre-emption (R197 to R200, R319, R363) -/

/-- A stream command's record as the replay list keeps it: it delivers what has not been popped (R319). -/
def CopyCmd.rewritten (c : CopyCmd) : List Word :=
  if c.isStream then
    (c.record.set 0 (BitVec.ofNat 64 ((wordAt c.record 0).toNat - c.popped))).set 1 (wordAt c.record 1 + BitVec.ofNat 64 c.popped)
  else c.record

/-- Replay entries kept in acceptance order (R200). -/
def Group.keepReplay (g : Group) (es : List ReplayEntry) : Group := { g with replay := sortBy ReplayEntry.id (g.replay ++ es) }

/-- The tasks of a group that satisfy a test, told whether each has started, abandoned to its replay list (R199, R200). -/
def State.abandonTasks (s : State) (g : Group) (p : Bool → Task → Bool) : State :=
  let c := s.core g.core
  let mine := fun (started : Bool) (t : Task) => decide (t.group = g.id) && p started t
  let gone := c.tasks.filter (mine false) ++ (c.engines.toList.filterMap id).filter (mine true)
  let keep := fun (e : Option Task) => match e with
    | some t => if mine true t then none else e
    | none => none
  let s := s.setCore { c with tasks := c.tasks.filter (fun t => !mine false t), engines := c.engines.map keep }
  s.setGroup (g.keepReplay (gone.map fun t => { id := t.id, record := t.record, queue := t.queue, binding := t.binding }))

/-- The copy commands of a group that satisfy a test cancelled to its replay list; a stream's queue is emptied (R199, R319). -/
def State.cancelCommands (s : State) (g : Group) (p : CopyCmd → Bool) : State :=
  let gone := (s.commandsOf g).filter p
  let s := gone.foldl (fun s c =>
    let s := s.dropCommand g.core c.id
    if c.isStream then s.emptyStream g.core c.sq else s) s
  s.setGroup (g.keepReplay (gone.map fun c => { id := c.id, record := c.rewritten, queue := c.queue, binding := c.binding }))

/-- The running groups of a grid. -/
def State.groupsOfGrid (s : State) (grid : Nat) : List Group := s.groups.filter fun g => decide ((s.blockOf g).grid = grid)

/-- Every group of a grid changed in turn. -/
def State.eachGroup (s : State) (grid : Nat) (f : State → Group → State) : State :=
  (s.groupsOfGrid grid).foldl (fun s g0 => match s.group? g0.id with
    | some g => f s g
    | none => s) s

/-- CPL of a task and DRN of a copy command (R291, R310). -/
def Task.completes (t : Task) : Bool := bit (wordAt t.record 0) 58
/-- DRN of a copy command. -/
def CopyCmd.drains (c : CopyCmd) : Bool := bit (wordAt c.record 0) 54

/-- A confirmed grid pre-empted (R197 to R199): its contexts freeze, its groups receive cause 24, and what need not complete settles
at once. -/
def State.preemptConfirmed (s : State) (k : Grid) (tag : Word) : State :=
  let s := s.setGrid { k with preempted := true }
  let x : Shelved := { tag := tag, asid := k.asid, grid := k.id, carve := k.desc.carve, fused := k.desc.fused, width := k.desc.width }
  let s := { s with shelved := x :: s.shelved.filter fun y => decide (y.tag ≠ tag ∨ y.asid ≠ k.asid) }
  let chosen : Bool := match s.sel with
    | some (.context c) => decide ((s.ctx? c).map (·.grid) = some k.id)
    | _ => false
  let s := { s with sel := if chosen then none else s.sel,
                    ctxs := s.ctxs.map fun (c : Ctx) => if c.grid = k.id && !c.frozen then freezeCtx c else c }
  s.eachGroup k.id fun s g =>
    let g := { g with async := g.async ++ [{ cause := 24, tval := tag, tstat := 0, tlane := g.live }] }
    let s := (s.setGroup g).abandonTasks g fun started t => !started || !t.completes
    s.cancelCommands ((s.group? g.id).getD g) fun c => !c.started || !c.drains

/-- `PREEMPTION_REQUEST` (R197). A request for a grid that has ended, or that is pre-empted already, has nothing to do. -/
def execPreemptionRequest (grid : Nat) (tag : BitVec 64) (s : State) : Out :=
  match s.grid? grid with
  | none => .next s
  | some k =>
    if k.preempted || k.stopped || k.ended then .next s
    else if k.predicted && !k.confirmed then
      let k := { k with stopped := true }
      .next (((s.setGrid k).squashStopped k).getD (s.setGrid k))
    else .next (s.preemptConfirmed k tag)

/-- Whether tasks of a pre-empted grid are still under way. -/
def State.tasksLeft (s : State) (k : Grid) : Bool :=
  k.preempted && (s.groupsOfGrid k.id).any fun g => g.owesRte && !g.trap.tmode && (s.core g.core).allTasks.any fun t => decide (t.group = g.id)

/-- Whether copy commands of a pre-empted grid are still under way. -/
def State.commandsLeft (s : State) (k : Grid) : Bool :=
  k.preempted && (s.groupsOfGrid k.id).any fun g => g.owesRte && !g.trap.tmode && !(s.commandsOf g).isEmpty

/-- Groups of a grid that have not entered their handlers yet. -/
def beforeHandler (f : State → Group → State) (s : State) (g : Group) : State := if g.owesRte && !g.trap.tmode then f s g else s

/-- `PREEMPT_TASK_DEADLINE` (R199): 2 µs after the request. -/
def execPreemptTaskDeadline (grid : Nat) (s : State) : Out :=
  match s.grid? grid with
  | none => .refused (.notEnabled "PREEMPT_TASK_DEADLINE")
  | some k =>
    if s.tasksLeft k then .next (s.eachGroup grid (beforeHandler fun s g => s.abandonTasks g fun _ _ => true))
    else .refused (.notEnabled "PREEMPT_TASK_DEADLINE")

/-- `PREEMPT_COPY_DEADLINE` (R199): 8 µs after the request. -/
def execPreemptCopyDeadline (grid : Nat) (s : State) : Out :=
  match s.grid? grid with
  | none => .refused (.notEnabled "PREEMPT_COPY_DEADLINE")
  | some k =>
    if s.commandsLeft k then .next (s.eachGroup grid (beforeHandler fun s g => s.cancelCommands g fun _ => true))
    else .refused (.notEnabled "PREEMPT_COPY_DEADLINE")

end Sys2Proof.Machine
end

