-- ==== Sys2Proof/Machine/Debug.lean ====
section
/-!
DEFINITION. Debug (R408, R413 to R426): the four debug words, the stop of a process, the rings of trace and samples, sampling points, and
the packet that follows a drop.
-/

namespace Sys2Proof.Machine

/-! ### Words (R426) -/

/-- `brk` (R192, R426). -/
def execBrk (m : BitVec 1) (s : State) : Out :=
  issue (.brk m) s fun s g u =>
    .trapAfter s g { u with pc := u.pc + 4, hint := none } { cause := 23, tval := 0, tstat := 0, tlane := u.mask }

/-- A MARK packet, where the group writes trace (R421, R426). -/
def State.traceMark (s : State) (g : Group) (u : GUnit) (v : Word) : State × Group :=
  if s.tracing g then (s.packet g [packetHead g 6 (lowestLane u.mask) (s.tsr.toNat % 2 ^ 47), v], g.wrotePacket) else (s, g)

/-- `tmark` (R426). -/
def execTmark (m : BitVec 1) (a : BitVec 5) (s : State) : Out :=
  issue (.tmark m a) s fun s g u =>
    let (s, g) := s.traceMark g u (g.s a.toNat)
    .ok s g u

/-- A counter read by a unit, with its VALUE packet (R424, R426). -/
def State.readCounter (s : State) (g : Group) (u : GUnit) (d : BitVec 5) (v : Word) : Res :=
  let (s, g) := s.traceValue g u 6 0 [v]
  .ok s (g.setS d.toNat v) u

/-- `tsc` (R408, R426). -/
def execTsc (m : BitVec 1) (d : BitVec 5) (s : State) : Out :=
  issue (.tsc m d) s fun s g u => s.readCounter g u d (s.cluster (clusterOfCore g.core)).tsc

/-- `tsr` (R408, R426). -/
def execTsr (m : BitVec 1) (d : BitVec 5) (s : State) : Out :=
  issue (.tsr m d) s fun s g u => s.readCounter g u d s.tsr

/-! ### Stops (R417) -/

/-- `DEBUG_HALT` (R417): a stop of a process, which takes place while its STOPALL is 1. -/
def execDebugHalt (pid : BitVec 24) (s : State) : Out :=
  if s.stopall.contains pid then .next (s.stopProcess pid) else .refused (.notEnabled "DEBUG_HALT")

/-! ### Rings (R419, R423) -/

/-- What writing an item into a ring leads to. -/
inductive RingPut where
  | done (s : State)
  /-- There was no room: LOST has been raised to this value. -/
  | full (s : State) (lost : Word)
  /-- A write faulted. -/
  | failed

/-- The data of an item written from ring byte n on, 16 bytes at a time, which never cross a sector. -/
def State.ringData (s : State) (asid : Nat) (base : Word) (log n : Nat) : List Word → Option State
  | a :: b :: rest =>
    let va := base + BitVec.ofNat 64 (64 + n % 2 ^ log)
    match s.walkNow asid va .write true with
    | some l => (s.storeHome l.key (leafAddr l va.toNat) (wordsBytes [a, b])).ringData asid base log (n + 16) rest
    | none => none
  | _ => some s

/-- An item written whole into a ring, at level 1 under the ASID, and WPTR raised with a release (R419). -/
def State.ringPut (s : State) (asid : Nat) (base : Word) (log : Nat) (ws : List Word) : RingPut :=
  match s.readRange asid base 24, s.walkNow asid base .write true with
  | some bs, some l =>
    let header := bytesWords 3 bs
    let wptr := wordAt header 0
    let pa := leafAddr l base.toNat
    let next := wptr + BitVec.ofNat 64 (8 * ws.length)
    if (next - wordAt header 1).toNat ≤ 2 ^ log then
      match s.ringData asid base log wptr.toNat ws with
      | some s => .done (s.storeHome l.key pa (valueBytes 8 next.toNat))
      | none => .failed
    else .full (s.storeHome l.key (pa + 16) (valueBytes 8 (wordAt header 2 + 1).toNat)) (wordAt header 2 + 1)
  | _, _ => .failed

/-- A ring write of a core has faulted: ERR is set, TREN and SMPEN are cleared (R423). -/
def State.ringFailed (s : State) (core : Nat) : State :=
  let c := s.core core
  s.setCore { c with dbgctl := (c.dbgctl ||| place 1 26) &&& ~~~(place 1 23 ||| place 1 25), packets := [], ovfDue := none }

/-- The trace ring of a core: ASID, base and TRLOG (R414). -/
def State.tracePut (s : State) (core : Nat) (ws : List Word) : RingPut :=
  let c := s.core core
  s.ringPut (bits c.dbgctl 15 0) c.trbase (bits c.dbgctl 36 32) ws

/-- One packet of a core written or dropped. While a drop waits for its OVF packet, every packet is dropped (R423). -/
def State.flushPacket (s : State) (core : Nat) (ws : List Word) : State :=
  let c := s.core core
  if !bit c.dbgctl 23 then s
  else
    match c.ovfDue with
    | some _ =>
      let va := c.trbase + 16
      (match s.readRange (bits c.dbgctl 15 0) va 8, s.walkNow (bits c.dbgctl 15 0) va .write true with
        | some bs, some l =>
          let lost := wordAt (bytesWords 1 bs) 0 + 1
          let s := s.setCore { c with ovfDue := some lost }
          s.storeHome l.key (leafAddr l va.toNat) (valueBytes 8 lost.toNat)
        | _, _ => s.ringFailed core)
    | none =>
      match s.tracePut core ws with
      | .done s => s
      | .full s lost => s.setCore { s.core core with ovfDue := some lost }
      | .failed => s.ringFailed core

/-- The packets that the words issued so far have caused, written in their order (R421). -/
def State.flushPackets (s : State) (core : Nat) : State :=
  let c := s.core core
  c.packets.foldl (fun s p => s.flushPacket core p.2) (s.setCore { c with packets := [] })

/-- The resident groups of a core that the debug registers act on (R414). -/
def State.debugged (s : State) (core : Nat) : List Group :=
  s.groups.filter fun g => decide (g.core = core) && decide ((s.blockOf g).asid = bits (s.core core).dbgctl 15 0)

/-- Every group that the debug registers of a core act on owes a SYNC (R422). -/
def State.syncCore (s : State) (core reason : Nat) : State :=
  (s.debugged core).foldl (fun s g => s.setGroup (g.syncFor reason)) s

/-- `TRACE_OVF_WRITE` (R423): the OVF packet, and a SYNC of REASON 3 for every group. -/
def execTraceOvfWrite (core : Nat) (s : State) : Out :=
  let s := s.flushPackets core
  match (s.core core).ovfDue with
  | none => .refused (.notEnabled "TRACE_OVF_WRITE")
  | some lost =>
    match s.tracePut core [place 7 60 ||| place (bits lost 31 0) 18, 0] with
    | .done s => .next ((s.setCore { s.core core with ovfDue := none }).syncCore core 3)
    | .full _ _ => .refused (.notEnabled "TRACE_OVF_WRITE")
    | .failed => .next (s.ringFailed core)

/-! ### Sampling (R420) -/

/-- The group sampled next by a scheduler: the first of its slots, cyclically, after the one sampled last. -/
def State.sampledGroup (s : State) (core sched : Nat) : Option Group :=
  let last := (((s.core core).scheds[sched]?).map (·.sampled)).getD 0
  let order := ((List.range 32).map fun i => (last + 1 + i) % 32).filter fun k => decide (k % 4 = sched)
  order.findSome? fun k => (s.debugged core).find? fun g => decide (g.slot = k)

/-- The unit that has been ready longest; the lowest lane on a tie (R148). -/
def longestReady (us : List GUnit) : Option GUnit :=
  (sortBy GUnit.since (us.filter fun u => decide (u.wait = .ready))).head?

/-- The stall reason of a unit that has completed its segment (R126, R173): 10 at a barrier of a context above, else 5; 12, as at `rcv`, while
other units of the group have still to reach the end. -/
def State.doneReason (s : State) (g : Group) : Nat :=
  let barred := fun (c : Ctx) => decide (c.state = .atBar) && decide (c.grid = (s.blockOf g).grid) &&
    (decide (c.scope ≠ 2) || decide (c.block = g.block)) && (decide (c.scope ≠ 3) || decide (c.cluster = clusterOfCore g.core))
  if !g.units.all unitDone then 12 else if g.queue.isEmpty && s.ctxs.any barred then 10 else 5

/-- The stall reason of a unit that stands at a Joint word (R171, R196): 11 where the block is to retire and finds no free slot. -/
def State.jointReason (s : State) (g : Group) : Nat :=
  let retiring := s.ctxs.any fun c => decide (c.scope = 2) && decide (c.block = g.block) && (match c.state with
    | .retiring _ _ _ => true
    | _ => false)
  if retiring && (s.freeSlot (s.partOf g)).isNone then 11 else 5

/-- The stall reason of a unit that does not issue (R34 to R406); none for a unit that is ready and has lost arbitration. -/
def State.waitReason (s : State) (g : Group) (u : GUnit) : Option Nat :=
  match u.wait with
  | .ready | .edgeOut => none
  | .arrived => some 12
  | .parked => some 9
  | .switchPark => some 6
  | .hold => some 7
  | .takenSide => some 12
  | .stall r => some r
  | .segmentDone => some (s.doneReason g)
  | .joint => some (s.jointReason g)
  | .suspended _ => some 11
  | .layer _ => some 20
  | .watchEntry r => some r
  | .regrouping _ _ => some 23

/-- The unit sampled and its stall reason; where the spec names no reason, for a unit that waits for arbitration, a free choice. -/
def State.sampledUnit (s : State) (g : Group) (sched : Nat) : State × Option (GUnit × Nat × Word) :=
  let cl := s.cluster (clusterOfCore g.core)
  let run := (((s.core g.core).scheds[sched]?).bind (·.run))
  let pcOf := fun (u : GUnit) => if u.hint.isSome then u.pc - 4 else u.pc
  if g.halted || g.doubleFault then (s, (g.units[g.trap.tunit]?).map fun u => (u, 21, u.pc))
  else
    let running := g.active.find? fun u => decide (run = some (g.id, u.uid))
    match running with
    | some u => (s, some (u, 0, pcOf u))
    | none =>
      match longestReady g.active with
      | some u =>
        if g.active.any (fun x => x.region.isSome) && u.region.isNone then (s, some (u, 12, pcOf u))
        else if cl.droop ≠ .none then (s, some (u, 14, pcOf u))
        else
          let (k, s) := s.draw 24
          (s, some (u, k, pcOf u))
      | none => (s, (sortUnits g.active).head?.bind fun u => (s.waitReason g u).map fun r => (u, r, pcOf u))

/-- A sample record (R420). -/
def sampleRecord (s : State) (g : Group) (u : GUnit) (sched stall : Nat) (pc : Word) : List Word :=
  [joinedName g,
    place (flag (decide (1 < g.units.length))) 61 ||| place (flag g.trace.issued) 60 ||| place stall 55 ||| place (bits pc 56 2) 0,
    s.tsr, place sched 32 ||| (currentMask g u).setWidth 64]

/-- `SAMPLING_POINT` (R420). -/
def execSamplingPoint (core sched : Nat) (s : State) : Out :=
  let c := s.core core
  if !bit c.dbgctl 25 || decide (4 ≤ sched) then .refused (.notEnabled "SAMPLING_POINT")
  else
    match s.sampledGroup core sched with
    | none => .next s
    | some g =>
      let sc := (c.scheds[sched]?).getD schedReset
      let s := s.setCore { c with scheds := c.scheds.setIfInBounds sched { sc with sampled := g.slot } }
      match s.sampledUnit g sched with
      | (s, none) => .next s
      | (s, some (u, stall, pc)) =>
        if u.hint.isSome && decide (u.wait = .ready) then .refused (.notEnabled "SAMPLING_POINT")
        else
        let ws := sampleRecord s g u sched stall pc
        let s := s.setGroup { g with trace := { g.trace with issued := false } }
        match s.ringPut (bits c.dbgctl 15 0) c.smpbase (bits c.dbgctl 31 27) ws with
        | .done s => .next s
        | .full s _ => .next s
        | .failed => .next (s.ringFailed core)

/-! ### Debug registers (R414) -/

/-- Whether a value of DBGCTL holds no reserved value. -/
def dbgctlOk (v : Word) : Bool :=
  decide (bits v 63 42 = 0) && decide (bits v 22 16 = 0) && decide (8 ≤ bits v 41 37) && decide (bits v 41 37 ≤ 20) &&
    decide (12 ≤ bits v 36 32) && decide (bits v 36 32 ≤ 30) && decide (12 ≤ bits v 31 27) && decide (bits v 31 27 ≤ 30)

/-- DBGCTL written: ERR by writing 1; trace that is switched on owes its groups a SYNC of REASON 0 (R414, R422). -/
def State.writeDbgctl (s : State) (core : Nat) (v : Word) : State :=
  let s := s.flushPackets core
  let c := s.core core
  let err := place (flag (bit c.dbgctl 26 && !bit v 26)) 26
  let fresh := bit v 23 && (!bit c.dbgctl 23 || decide (bits v 15 0 ≠ bits c.dbgctl 15 0))
  let s := s.setCore { c with dbgctl := (v &&& ~~~(place 1 26)) ||| err, ovfDue := if fresh then none else c.ovfDue }
  if fresh then s.syncCore core 0 else s

end Sys2Proof.Machine
end

