-- ==== Sys2Proof/Machine/Requests.lean ====
section
/-!
DEFINITION. The request ring of a host-visible function (R430, R433, R435): its registers, its slots, and the completion of a request.
-/

namespace Sys2Proof.Machine

/-- A function's registers at their reset values (R433). -/
def funcReset (n : Nat) : Func :=
  { num := n, rqbase := 0, en := false, log2 := 0, rqwidx := 0, rqridx := 0, err := false, flr := false, msix := [], blocked := false }

/-- A function's registers; an unlisted function is at its reset values. -/
def State.func (s : State) (n : Nat) : Func := (s.funcs.find? fun f => decide (f.num = n)).getD (funcReset n)

/-- The state with a function's record replaced. -/
def State.setFunc (s : State) (f : Func) : State := { s with funcs := upsert Func.num f s.funcs }

/-- READY of FNSTAT: boot is complete, and no function-level reset runs (R427, R433). -/
def State.ready (s : State) (f : Func) : Bool := decide (s.boot = 6) && !f.flr

/-- An MSI-X vector of a function raised (R433). -/
def State.raiseMsix (s : State) (fn vector : Nat) : State :=
  let f := s.func fn
  s.setFunc { f with msix := vector :: f.msix }

/-- Physical address of the slot of a position (R428, R433): the ring lies in host memory. -/
def Func.slotAddr (f : Func) (pos : Nat) : Nat := 2 ^ 48 + f.rqbase.toNat + 64 * (pos % 2 ^ f.log2)

/-- Words 0 to 6 of a request as its slot holds them. -/
def State.readRequest (s : State) (f : Func) (pos : Nat) : Request :=
  let ws := bytesWords 8 (s.homeBytes 0 (f.slotAddr pos) 64)
  { fn := f.num, slot := some pos, w0 := wordAt ws 0, w1 := wordAt ws 1, w2 := wordAt ws 2, w3 := wordAt ws 3, w4 := wordAt ws 4,
    w5 := wordAt ws 5, w6 := wordAt ws 6 }

/-- A word of a request's slot written. -/
def State.writeSlot (s : State) (r : Request) (i : Nat) (v : Word) : State :=
  match r.slot with
  | some pos => s.storeHome 0 ((s.func r.fn).slotAddr pos + 8 * i) (valueBytes 8 v.toNat)
  | none => s

/-- The completion word (R435). -/
def doneWord (reason result : Nat) : Word :=
  place (flag (decide (reason ≠ 0))) 63 ||| place 1 62 ||| place reason 56 ||| place result 0

/-- A request completes: DONE, RIDX and MSI-X vector 0 (R430, R433). A request that did not come through the ring has no slot. -/
def State.finish (s : State) (r : Request) (reason result : Nat) : State :=
  match r.slot with
  | none => s
  | some pos =>
    let s := s.writeSlot r 7 (doneWord reason result)
    (s.setFunc { s.func r.fn with rqridx := BitVec.ofNat 64 (pos + 1) }).raiseMsix r.fn 0

/-- A request refused for one of the reasons that apply to it: which one is a free choice where several do. -/
def State.refuse (s : State) (r : Request) (reasons : List Nat) : State :=
  let (k, s) := s.draw (max 1 reasons.length)
  s.finish r (reasons.getD k 1) 0

/-- A test of a request: its reason when it fails. -/
def failsFor (reason : Nat) (bad : Bool) : List Nat := if bad then [reason] else []

/-- Whether some words of a request hold only bits that its row names: each word with the mask of those bits. -/
def unnamedBits (ws : List (Word × Word)) : Bool := ws.any fun x => decide (x.1 &&& ~~~x.2 ≠ 0)

/-- The bits of a word from one position to another. -/
def span (hi lo : Nat) : Word := place (2 ^ (hi + 1 - lo) - 1) lo

/-- Whether word 0 holds anything but OP (R430). -/
def wordZeroBad (r : Request) : Bool := decide (bits r.w0 55 0 ≠ 0)

end Sys2Proof.Machine
end

