-- ==== Sys2Proof/Machine/Walk.lean ====
section
/-!
DEFINITION. The walker engines at work (R394 to R399, R432, R434): requests, results, the fault ring, replies, invalidations, and the
requests of root-port devices.
-/

namespace Sys2Proof.Machine

/-! ### Requests -/

/-- The walk with a number. -/
def State.walk? (s : State) (id : Nat) : Option Walk := s.walks.find? fun w => decide (w.id = id)

/-- The state with a walk's record replaced. -/
def State.setWalk (s : State) (w : Walk) : State := { s with walks := s.walks.map fun x => if x.id = w.id then w else x }

/-- Walk contexts of an engine (R394). -/
def walkContexts : Nat := 16

/-- Whether the engine of a walk has a walk context free. -/
def State.walkRoom (s : State) (x : Walk) : Bool :=
  decide ((s.walks.filter fun w => decide (w.phase = 1) && decide (w.die = x.die)).length < walkContexts) ||
    decide ((s.walks.filter fun w => decide (w.phase = 1) && decide (w.engine = x.engine)).length < walkContexts)

/-- `WALK_REQUEST` (R394). -/
def execWalkRequest (id : Nat) (s : State) : Out :=
  match s.walk? id with
  | none => .refused (.notEnabled "WALK_REQUEST")
  | some w =>
    if w.phase = 0 && s.walkRoom w then .next (s.setWalk { w with phase := 1 })
    else .refused (.notEnabled "WALK_REQUEST")

/-- The access of a walk's permission class. -/
def Walk.access (w : Walk) : Access :=
  match w.cls with
  | 0 => .read
  | 1 => .write
  | _ => .fetch

/-! ### Results -/

/-- A response to a device behind a root port (R399), kept as the model's own word: its kind in [63:60] and what it carries. -/
inductive PortReply where
  | pageDone
  | pageFailed
  | translation (frame : Nat) (r w : Bool)
  | noTranslation
  | abort
  | unsupported
deriving DecidableEq, Repr

/-- The word of a response. -/
def PortReply.word : PortReply → Word
  | .pageDone => place 1 60
  | .pageFailed => place 2 60
  | .translation frame r w => place 3 60 ||| place frame 0 ||| place (flag r) 1 ||| place (flag w) 0
  | .noTranslation => place 4 60
  | .abort => place 5 60
  | .unsupported => place 6 60

/-- The root port with a number. -/
def State.port? (s : State) (n : Nat) : Option RootPort := s.ports.find? fun p => decide (p.port = n)

/-- The state with a root port's record replaced. -/
def State.setPort (s : State) (p : RootPort) : State := { s with ports := upsert RootPort.port p s.ports }

/-- A response sent to a device. -/
def State.portReply (s : State) (n : Nat) (r : PortReply) : State :=
  match s.port? n with
  | some p => s.setPort { p with replies := r.word :: p.replies }
  | none => s

/-- Whether a walk for a unit is outstanding. -/
def State.unitWalks (s : State) (g u : Nat) : Bool := s.walks.any fun w => w.waiters.any fun x => match x with
  | .unit n k _ => decide (n = g) && decide (k = u)
  | _ => false

/-- What a walk that has found a leaf means to one of its requesters: a parked unit for which no other walk is outstanding issues its
word again (R121), a page request is answered, the others find the translation when they go on. -/
def State.walkFound (s : State) (x : Waiter) : State :=
  match x with
  | .unit g u _ =>
    (match (s.group? g).bind fun k => k.unit? u with
      | some k => if k.wait = .parked && !s.unitWalks g u then s.later (.parkedReissue g u) else s
      | none => s)
  | .rootPort n => s.portReply n .pageDone
  | .arena k => s.arenaWalked k
  | .queue q => s.armQueue q
  | _ => s

/-- The fault of a unit whose walk has failed (R121, R165, R397); discarded when the unit has left its wait. -/
def State.unitFails (s : State) (g u : Nat) (va st : Word) : State :=
  match (s.group? g).bind fun k => (k.unit? u).map fun x => (k, x) with
  | some (k, x) =>
    if x.wait = .parked then
      let left := x.unfinished.getD x.mask
      (s.setGroup (k.setUnit { x with wait := .ready })).takeTrap g u (addrFault 14 va st left) 0 false
    else if x.wait = .stall 18 && decide (x.pc.toNat / 4096 = va.toNat / 4096) then
      (s.setGroup (k.setUnit { x with wait := .ready })).takeTrap g u (addrFault 16 x.pc st x.mask) 0 false
    else s
  | none => s

/-- The running command, or stream that delivers, that waits on a walk. -/
def State.walkCommand (s : State) (cl ch id : Nat) (page : Nat) (st : Word) : State :=
  let c := s.cluster cl
  let mark := fun (x : CopyCmd) => if x.started && decide (x.id = id) then { x with walkFault := some (page, st) } else x
  s.setCluster { c with channels := c.channels.map fun (k : Nat × List CopyCmd) => if k.1 = ch then (k.1, k.2.map mark) else k }

/-- What a walk that has failed means to one of its requesters (R397). -/
def State.walkFails (s : State) (w : Walk) (st : Word) (x : Waiter) : State :=
  match x with
  | .unit g u va => s.unitFails g u va st
  | .context c =>
    (match s.ctx? c with
      | some k => s.setCtx { k with walkFault := some (w.page, st) }
      | none => s)
  | .copy cl ch id => s.walkCommand cl ch id w.page st
  | .layer m =>
    (match s.model? m with
      | some k =>
        (match k.fetching.bind fun n => (k.layers[n]?).map fun l => (n, l) with
          | some (n, l) => s.failFetch k n l 6
          | none => s)
      | none => s)
  | .queue q =>
    (match s.queue? q with
      | some k => s.setQueue { k with walkFault := w.page :: k.walkFault }
      | none => s)
  | .rootPort n => s.portReply n .pageFailed
  | .grid k => s.gridFailed k w.page
  | .arena k => (s.gridFailed k w.page).arenaWalked k

/-- A translation that a TLB holds from now on (R398). -/
def State.fillTlb (s : State) (e : TlbEntry) : State :=
  { s with tlb := e :: s.tlb.filter fun x => !(decide (x.asid = e.asid) && decide (x.page = e.page)) }

/-- A walk that ends with a leaf: every requester receives it (R394). -/
def State.endWalk (s : State) (w : Walk) (l : Leaf) : State :=
  let s := { s with walks := s.walks.filter fun x => decide (x.id ≠ w.id) }
  w.waiters.foldl (fun s x => s.walkFound x) (s.fillTlb { asid := w.asid, page := w.page, leaf := l })

/-- A walk that ends with a fault: every requester receives it (R394, R397). -/
def State.failWalk (s : State) (w : Walk) (protection : Bool) : State :=
  let st := pageStat w.access protection
  let s := { s with walks := s.walks.filter fun x => decide (x.id ≠ w.id) }
  w.waiters.foldl (fun s x => s.walkFails w st x) s

/-! ### The fault ring (R432, R434) -/

/-- The kind of a requester (R432); the spec gives no kind for a context, a queue's thread or a grid: a free choice. -/
def State.requesterKind (s : State) (x : Waiter) : Nat × State :=
  match x with
  | .unit _ _ _ => (0, s)
  | .copy _ _ _ => (1, s)
  | .layer _ => (2, s)
  | .rootPort _ => (3, s)
  | .context _ | .queue _ | .grid _ | .arena _ => s.draw 4

/-- What the fault ring of an address space has room for. -/
inductive RingRoom where
  | room (log : Nat)
  | full
  /-- LOG2 lies outside 4 to 16, or the ring is not where a ring may be. -/
  | invalid
deriving DecidableEq, Repr

/-- The state of a fault ring by its header. -/
def State.ringRoom (s : State) (x : AddrSpace) : RingRoom :=
  let pa := x.ring.toNat
  let at_ := fun (i : Nat) => bytesValue (s.homeBytes 0 (pa + 8 * i) 8)
  if decide (pa % 64 ≠ 0) || !(isHbm pa || isHost pa) || decide (at_ 2 < 4) || decide (16 < at_ 2) then .invalid
  else if (BitVec.ofNat 64 x.nextIndex - BitVec.ofNat 64 (at_ 1)).toNat < 2 ^ at_ 2 then .room (at_ 2)
  else .full

/-- A record written into the fault ring for a walk, which then waits for its reply. -/
def State.writeFault (s : State) (x : AddrSpace) (w : Walk) (log : Nat) : State :=
  let n := x.nextIndex
  let (kind, s) := match w.waiters with
    | r :: _ => s.requesterKind r
    | [] => (0, s)
  let pa := x.ring.toNat
  let rcd := [place w.asid 48 ||| place (n % 2 ^ 30) 2 ||| place w.cls 0, w.va, BitVec.ofNat 64 kind, 0]
  let s := s.storeHome 0 (pa + 64 + 32 * (n % 2 ^ log)) (wordsBytes rcd)
  let s := s.storeHome 0 pa (valueBytes 8 (n + 1))
  ((s.setSpace { x with nextIndex := n + 1 }).setWalk { w with phase := 3, index := n % 2 ^ 30 }).raiseMsix x.fn 1

/-- A replayable fault: its record is written, or the walk keeps it while the ring is full, behind the records it keeps already; a ring
whose header is not valid sends the fault to the requesters (R434). -/
def State.recordFault (s : State) (x : AddrSpace) (w : Walk) : State :=
  match s.ringRoom x with
  | .invalid => (s.logged (.walkBreach w.asid)).failWalk w w.prot
  | .full => { s with walks := (s.walks.filter fun y => decide (y.id ≠ w.id)) ++ [{ w with phase := 2 }] }
  | .room log =>
    if s.walks.any fun y => decide (y.asid = w.asid) && decide (y.phase = 2) then
      { s with walks := (s.walks.filter fun y => decide (y.id ≠ w.id)) ++ [{ w with phase := 2 }] }
    else s.writeFault x w log

/-- A fault that may be replayed where its address space allows it (R396). -/
def State.replayOrFail (s : State) (w : Walk) : State :=
  match s.space? w.asid with
  | some x => if x.replays then s.recordFault x w else s.failWalk w w.prot
  | none => s.failWalk w w.prot

/-- `WALK_COMPLETE` (R395 to R397). -/
def execWalkComplete (id : Nat) (s : State) : Out :=
  match s.walk? id with
  | none => .refused (.notEnabled "WALK_COMPLETE")
  | some w =>
    if w.phase ≠ 1 then .refused (.notEnabled "WALK_COMPLETE")
    else
      match s.walkFor w.asid w.va.toNat w.access w.level1 with
      | .leaf l => .next (s.endWalk w l)
      | .notPresent => .next (s.replayOrFail { w with prot := false })
      | .protection => .next (s.replayOrFail { w with prot := true })
      | .keyMissing => .next (s.failWalk w true)
      | .malformed b => .next ((if b then s.logged (.walkBreach w.asid) else s).failWalk w false)

/-- `FAULT_RING_POLL` (R434): FRIDX has advanced, and the oldest record kept is written. -/
def execFaultRingPoll (asid : Nat) (s : State) : Out :=
  match s.space? asid, s.walks.find? fun w => decide (w.asid = asid) && decide (w.phase = 2) with
  | some x, some w =>
    (match s.ringRoom x with
      | .room log => .next (s.writeFault x w log)
      | .full => .refused (.notEnabled "FAULT_RING_POLL")
      | .invalid => .next ((s.logged (.walkBreach asid)).failWalk w w.prot))
  | _, _ => .refused (.notEnabled "FAULT_RING_POLL")

/-- A reply to a fault record (R396): the walk runs again, or every requester receives the fault; a device's page request is answered. None
where the index has no record that waits for a reply. -/
def State.faultReply (s : State) (asid index : Nat) (retry : Bool) : Option State :=
  (s.walks.find? fun w => decide (w.asid = asid) && decide (w.phase = 3) && decide (w.index = index)).map fun w =>
    if !retry then s.failWalk w w.prot
    else
      let ports := w.waiters.filterMap fun x => match x with
        | .rootPort n => some n
        | _ => none
      let rest := w.waiters.filter fun x => match x with
        | .rootPort _ => false
        | _ => true
      let s := ports.foldl (fun s n => s.portReply n .pageDone) s
      if rest.isEmpty then { s with walks := s.walks.filter fun y => decide (y.id ≠ w.id) }
      else s.setWalk { w with phase := 0, waiters := rest }

/-- `PARKED_REISSUE` (R121): a unit that is still parked, and for which no walk is outstanding, issues its word again under its unfinished
mask. -/
def execParkedReissue (gid uid : Nat) (s : State) : Out :=
  match (s.group? gid).bind fun g => (g.unit? uid).map fun u => (g, u) with
  | some (g, u) => if u.wait = .parked && !s.unitWalks gid uid then .next (s.setGroup (g.setUnit { u with wait := .ready, since := s.steps })) else .next s
  | none => .next s

/-! ### Invalidation (R398) -/

/-- Whether an invalidation covers a page of an address space. -/
def covers (asid first : Nat) (count : Option Nat) (a page : Nat) : Bool :=
  decide (a = asid) && (match count with
    | none => true
    | some n => decide (first ≤ page) && decide (page < first + n))

/-- The TLB entries that an invalidation covers, dropped. No walk is left that has read a covered entry: a walk reads its tables in the
one step that ends it. -/
def State.dropTranslations (s : State) (asid first : Nat) (count : Option Nat) : State :=
  { s with tlb := s.tlb.filter fun e => !covers asid first count e.asid e.page }

/-- The root ports whose devices hold translations that an invalidation covers. -/
def State.atsOwners (s : State) (asid first : Nat) (count : Option Nat) : List Nat :=
  (s.ports.filter fun p => p.held.any fun h => covers asid first count h.asid h.page).map (·.port)

/-! ### Root-port devices (R399) -/

/-- The ASID of a request with or without a PASID. -/
def RootPort.asidOf (p : RootPort) (pasid : Option Nat) : Option Nat :=
  match pasid with
  | some n => (p.pasids.find? fun x => decide (x.1 = n)).map (·.2)
  | none => p.default

/-- `PAGE_REQUEST` (R399): the page is walked for, unless the engine's queue is full; a request that cannot be mended is answered at once. -/
def execPageRequest (port : Nat) (pasid : Option Nat) (va : BitVec 64) (cls : Nat) (s : State) : Out :=
  match s.port? port with
  | none => .refused (.notEnabled "PAGE_REQUEST")
  | some p =>
    match p.asidOf pasid with
    | none => .next (s.portReply port .unsupported)
    | some asid =>
      if bits va 63 56 = 0xFF then .next (s.portReply port .unsupported)
      else if bits va 63 56 ≠ 0 then .next (s.portReply port .pageFailed)
      else
        let c : Access := if cls = 1 then .write else if cls = 2 then .fetch else .read
        if s.walkerFull asid (va.toNat / 4096) 0 && !(s.walks.any fun w => w.serves asid (va.toNat / 4096) c.cls 0) then
          .refused (.notEnabled "PAGE_REQUEST")
        else .next (s.requestWalk asid va c true 0 (.rootPort port))

/-- `ATS_TRANSLATION_REQUEST` (R399): the device receives the translation of a page, and holds it until it is invalidated. -/
def execAtsTranslationRequest (device : PortFunction) (pasid : Option Nat) (va : BitVec 64) (cls : Nat) (s : State) : Out :=
  match s.port? device.port with
  | none => .refused (.notEnabled "ATS_TRANSLATION_REQUEST")
  | some p =>
    match p.asidOf pasid with
    | none => .next (s.portReply device.port .unsupported)
    | some asid =>
      if !p.ats.contains device.fn || decide (bits va 63 56 = 0xFF) then .next (s.portReply device.port .unsupported)
      else
        match s.walkNow asid va (if cls = 1 then .write else .read) true with
        | some l =>
          let s := s.portReply device.port (.translation l.frame l.r l.w)
          let p := (s.port? device.port).getD p
          .next (s.setPort { p with held := { asid := asid, page := va.toNat / 4096, frame := l.frame / 4096, key := l.key } :: p.held })
        | none => .next (s.portReply device.port .noTranslation)

end Sys2Proof.Machine
end

