-- ==== Sys2Proof/Machine/Power.lean ====
section
/-!
DEFINITION. Power, current and clocks (R401 to R411), reference time and watchdogs (R135, R408, R410, R418).
-/

namespace Sys2Proof.Machine

/-! ### Reference time and watchdogs -/

/-- Progress ticks of the service clock by a reference time: 1,024 cycles of 1,000 MHz (R395, R410). -/
def serviceTicks (tsr : Nat) : Nat := tsr * 10 / 1024

/-- Grids with a halted group (R416, R418). -/
def State.haltedGrids (s : State) : List Nat :=
  (s.groups.filter fun g => g.halted || g.doubleFault).map fun g => (s.blockOf g).grid

/-- Whether a halted group's grid has a block on a cluster (R418). -/
def State.pushFrozen (s : State) (cl : Nat) : Bool :=
  s.blocks.any fun b => decide (clusterOfCore b.core = cl) && s.haltedGrids.contains b.grid

/-- The record of a queue that holds a pool push, with its watchdog counted on by some ticks (R410, R418). -/
def State.countPush (s : State) (ticks : Nat) (q : Queue) : Queue :=
  match q.nextPush with
  | none => q
  | some r =>
    let frozen := match s.target q r with
      | some cl => s.pushFrozen cl
      | none => false
    if frozen then q else q.setRecord { r with watchdog := r.watchdog + ticks }

/-- Reference time passes to a moment (R408); the watchdogs of Fentos threads count with it. -/
def State.passTo (s : State) (t : Nat) : State :=
  let ticks := serviceTicks t - serviceTicks s.tsr.toNat
  let s := if ticks = 0 then s else { s with queues := s.queues.map fun q => s.countPush ticks q }
  { s with tsr := BitVec.ofNat 64 t }

/-- `TICK_1MS` (R135, R244, R326, R335): time passes to the next tick of 1 ms, every suspended unit and retired block is woken, and every wait packet
is tested. -/
def execTick1ms (s : State) : Out :=
  .next (((s.passTo ((s.tsr.toNat / 100000 + 1) * 100000)).testPackets fun _ => true).wake fun _ => true)

/-- What the receivers of a context have completed, as a number that every completion changes. -/
def State.progressMark (s : State) (c : Ctx) : Nat :=
  c.links.foldl (fun n l => match l.dest with
    | .group g => (match s.group? g with
      | some g => n + 2 * g.nextSeq.toNat + flag g.waitsRecord
      | none => n)
    | .context _ => n) 0

/-- One progress tick of a block context (R410): it counts while the context waits at `bar` or at a Joint word and no receiver completes a
segment; a waiting suspension is not watched. -/
def State.countContext (s : State) (c : Ctx) : Ctx :=
  let waits := match c.state, c.joint with
    | .atBar, _ => true
    | .atJoint, some (.up .., _) => true
    | _, _ => false
  let mark := s.progressMark c
  if s.haltedGrids.contains c.grid then c
  else if waits && decide (mark = c.watchMark) then { c with watchdog := c.watchdog + 1 }
  else { c with watchdog := 0, watchMark := mark }

/-- Whether a watchdog with a count has reached the limit of its partition (R410). -/
def State.watchLimit (s : State) (part count : Nat) : Bool :=
  match s.partition? part with
  | some p => decide (p.watchLimit ≠ 0) && decide (p.watchLimit ≤ count)
  | none => false

/-- `WATCHDOG_FIRE` (R410): the firing is logged, which reports it, and the watchdog starts again. -/
def execWatchdogFire (dog : Watchdog) (s : State) : Out :=
  match dog with
  | .blockContext c =>
    (match s.ctx? c with
      | some x =>
        if s.watchLimit (((s.grid? x.grid).map (·.partition)).getD 0) x.watchdog then
          .next ((s.setCtx { x with watchdog := 0 }).logged (.watchdog dog))
        else .refused (.notEnabled "WATCHDOG_FIRE")
      | none => .refused (.notEnabled "WATCHDOG_FIRE"))
  | .fentos t =>
    (match (s.threadQueue t).bind fun q => q.nextPush.map fun r => (q, r) with
      | some (q, r) =>
        if s.watchLimit q.partition r.watchdog then
          .next ((s.setQueue (q.setRecord { r with watchdog := 0 })).logged (.watchdog dog))
        else .refused (.notEnabled "WATCHDOG_FIRE")
      | none => .refused (.notEnabled "WATCHDOG_FIRE"))

/-! ### The cluster clock and droop (R406, R408) -/

/-- A cluster's droop sequence brought up to its clock: 6 stretched cycles, then 64 cycles of half issue. -/
def Cluster.settled (c : Cluster) : Cluster :=
  let start := c.lastStretch.getD 0
  let c := if c.droop = .stretch && decide (start + 6 ≤ c.tsc.toNat) then { c with droop := .half, halfFrom := start + 6 } else c
  if c.droop = .half && decide (c.halfFrom + 64 ≤ c.tsc.toNat) then { c with droop := .none } else c

/-- A cluster's clock moved on to a count of edges. -/
def Cluster.clockTo (c : Cluster) (t : Nat) : Cluster := ({ c with tsc := BitVec.ofNat 64 (max t c.tsc.toNat) } : Cluster).settled

/-- A trip of the droop detector at the end of the current cycle (R406). -/
def Cluster.trip (c : Cluster) : Cluster :=
  let now := c.tsc.toNat + 1
  match c.droop with
  | .stretch => c
  | .half => { c with halfFrom := c.tsc.toNat }
  | .none =>
    if (c.lastStretch.map fun t => decide (now < t + 70)).getD false then { c with droop := .half, halfFrom := now }
    else { c with droop := .stretch, lastStretch := some now }

/-- `DROOP_TRIP` (R402, R406): the rail stands some mV below nominal; the detector trips at TH or more, and TH 0 disables it. -/
def execDroopTrip (cl droopMv : Nat) (s : State) : Out :=
  let c := s.cluster cl
  if c.droopth ≠ 0 && decide (c.droopth ≤ droopMv) then .next (s.setCluster c.trip) else .next s

/-- `STRETCH_END` (R406). -/
def execStretchEnd (cl : Nat) (s : State) : Out :=
  let c := s.cluster cl
  if c.droop = .stretch then .next (s.setCluster (c.clockTo (c.lastStretch.getD 0 + 6))) else .refused (.notEnabled "STRETCH_END")

/-- `HALF_ISSUE_END` (R406). -/
def execHalfIssueEnd (cl : Nat) (s : State) : Out :=
  let c := s.cluster cl
  if c.droop = .half then .next (s.setCluster (c.clockTo (c.halfFrom + 64))) else .refused (.notEnabled "HALF_ISSUE_END")

/-! ### The current record (R403, R404) -/

/-- Matrix tasks that run in a cluster. -/
def State.runningTasks (s : State) (cl : Nat) : Nat :=
  (s.cores.filter fun c => decide (clusterOfCore c.num = cl)).foldl (fun n c => n + (c.engines.toList.filterMap id).length) 0

/-- CREC at the end of a window with sum S (R404). -/
def nextCrec (crec sum : Nat) : Nat := min (2 ^ 32 - 1) (crec - crec / 16 + sum)

/-- `CURRENT_WINDOW_END` (R404): the clock reaches the end of its window of 16 cycles; a running task has charged 48 in each of them. Every
1,024 cycles are a progress tick for the cluster's block contexts (R410). -/
def execCurrentWindowEnd (cl : Nat) (s : State) : Out :=
  let c := s.cluster cl
  let t := (c.tsc.toNat / 16 + 1) * 16
  let sum := c.window + 48 * 16 * s.runningTasks cl
  let s := s.setCluster (({ c with crec := nextCrec c.crec sum, window := 0 } : Cluster).clockTo t)
  let count := fun (x : Ctx) => if x.scope = 2 && x.cluster = cl then s.countContext x else x
  .next (if t % 1024 = 0 then { s with ctxs := s.ctxs.map count } else s)

/-! ### Frequencies (R401, R409) -/

/-- The timed partition that holds a cluster. -/
def State.timedPartition (s : State) (cl : Nat) : Option Partition :=
  s.partitions.find? fun p => p.timed && p.clusters.contains cl

/-- The lowest STEP at which a cluster may run: FLOOR of its timed partition. -/
def State.floorOf (s : State) (cl : Nat) : Nat := ((s.timedPartition cl).map (·.floor)).getD 0

/-- One step of a frequency toward a target. -/
def towards (step target : Nat) : Nat := if step < target then step + 1 else if target < step then step - 1 else step

/-- Whether every cluster of a partition runs at its FLOOR or above. -/
def State.floorsReached (s : State) (p : Partition) : Bool := p.clusters.all fun cl => decide (p.floor ≤ (s.cluster cl).step)

/-- The creation requests that wait for clusters to reach FLOOR, completed once they have (R401). -/
def State.finishCreations (s : State) : State :=
  s.partitions.foldl (fun s p => match p.creating with
    | some r => if s.floorsReached p then (s.setPartition { p with creating := none }).finish r 0 p.id else s
    | none => s) s

/-- `FLL_STEP` (R401). The management controller sets a cluster's target, which is open but for FLOOR: where the FLL has reached the last
one, a free choice gives the next. -/
def execFllStep (cl : Nat) (s : State) : Out :=
  let c := s.cluster cl
  let low := s.floorOf cl
  let (d, s) := if c.step = c.target then s.draw (29 - min low 28) else (c.target - low, s)
  let target := if c.step = c.target then low + d else max low c.target
  .next (s.setCluster { c with target := target, step := towards c.step target }).finishCreations

/-- The lowest frequency of a die's network (R409). -/
def State.bellowsFloor (s : State) (die : Nat) : Nat :=
  if s.partitions.any fun p => p.timed && p.clusters.any fun c => decide (dieOfCluster c = die) then 1200 else 800

/-- `BELLOWS_SAMPLE` (R409): the mean occupancy is a share of the capacity. -/
def execBellowsSample (die occupied capacity : Nat) (s : State) : Out :=
  match s.bellows[die]? with
  | none => .refused (.notEnabled "BELLOWS_SAMPLE")
  | some f =>
    let f' := if capacity < 2 * occupied then min 2000 (f + 50)
      else if 8 * occupied < capacity then f - 50 else f
    .next { s with bellows := s.bellows.setIfInBounds die (max (s.bellowsFloor die) f') }

/-! ### Rack caps (R411) -/

/-- Whether a message is newer than the current one. -/
def newerCap (seq cur : BitVec 32) : Bool := decide (1 ≤ (seq - cur).toNat) && decide ((seq - cur).toNat < 2 ^ 31)

/-- `RACK_CAP_MESSAGE` (R411): LEASE is in milliseconds. -/
def execRackCapMessage (seq : BitVec 32) (cap : BitVec 16) (lease : BitVec 32) (s : State) : Out :=
  if newerCap seq s.caps.seq then
    .next { s with caps := { s.caps with seq := seq, cap := cap.toNat, lease := lease.toNat,
                                         expiry := some (s.tsr.toNat + 100000 * lease.toNat) } }
  else .next s

/-- `CAP_LEASE_EXPIRY` (R411): reference time reaches the end of the lease. -/
def execCapLeaseExpiry (s : State) : Out :=
  match s.caps.expiry with
  | some t => .next { s.passTo (max t s.tsr.toNat) with caps := { s.caps with cap := s.caps.fbcap, expiry := none } }
  | none => .refused (.notEnabled "CAP_LEASE_EXPIRY")

end Sys2Proof.Machine
end

