-- ==== Sys2Proof/Machine/Hash.lean ====
section
/-!
DEFINITION. SHA-384 and ECDSA over P-384, which R373 names; their constants and steps are those of FIPS 180-4 and FIPS 186-5. PRESUMED.
-/

namespace Sys2Proof.Machine

/-! ### SHA-384 -/

/-- Round constants of SHA-512 and SHA-384. -/
def shaK0 : List Word :=
  [0x428A2F98D728AE22, 0x7137449123EF65CD, 0xB5C0FBCFEC4D3B2F, 0xE9B5DBA58189DBBC,
   0x3956C25BF348B538, 0x59F111F1B605D019, 0x923F82A4AF194F9B, 0xAB1C5ED5DA6D8118,
   0xD807AA98A3030242, 0x12835B0145706FBE, 0x243185BE4EE4B28C, 0x550C7DC3D5FFB4E2,
   0x72BE5D74F27B896F, 0x80DEB1FE3B1696B1, 0x9BDC06A725C71235, 0xC19BF174CF692694]

/-- Round constants of SHA-512 and SHA-384. -/
def shaK1 : List Word :=
  [0xE49B69C19EF14AD2, 0xEFBE4786384F25E3, 0x0FC19DC68B8CD5B5, 0x240CA1CC77AC9C65,
   0x2DE92C6F592B0275, 0x4A7484AA6EA6E483, 0x5CB0A9DCBD41FBD4, 0x76F988DA831153B5,
   0x983E5152EE66DFAB, 0xA831C66D2DB43210, 0xB00327C898FB213F, 0xBF597FC7BEEF0EE4,
   0xC6E00BF33DA88FC2, 0xD5A79147930AA725, 0x06CA6351E003826F, 0x142929670A0E6E70]

/-- Round constants of SHA-512 and SHA-384. -/
def shaK2 : List Word :=
  [0x27B70A8546D22FFC, 0x2E1B21385C26C926, 0x4D2C6DFC5AC42AED, 0x53380D139D95B3DF,
   0x650A73548BAF63DE, 0x766A0ABB3C77B2A8, 0x81C2C92E47EDAEE6, 0x92722C851482353B,
   0xA2BFE8A14CF10364, 0xA81A664BBC423001, 0xC24B8B70D0F89791, 0xC76C51A30654BE30,
   0xD192E819D6EF5218, 0xD69906245565A910, 0xF40E35855771202A, 0x106AA07032BBD1B8]

/-- Round constants of SHA-512 and SHA-384. -/
def shaK3 : List Word :=
  [0x19A4C116B8D2D0C8, 0x1E376C085141AB53, 0x2748774CDF8EEB99, 0x34B0BCB5E19B48A8,
   0x391C0CB3C5C95A63, 0x4ED8AA4AE3418ACB, 0x5B9CCA4F7763E373, 0x682E6FF3D6B2B8A3,
   0x748F82EE5DEFB2FC, 0x78A5636F43172F60, 0x84C87814A1F0AB72, 0x8CC702081A6439EC,
   0x90BEFFFA23631E28, 0xA4506CEBDE82BDE9, 0xBEF9A3F7B2C67915, 0xC67178F2E372532B]

/-- Round constants of SHA-512 and SHA-384. -/
def shaK4 : List Word :=
  [0xCA273ECEEA26619C, 0xD186B8C721C0C207, 0xEADA7DD6CDE0EB1E, 0xF57D4F7FEE6ED178,
   0x06F067AA72176FBA, 0x0A637DC5A2C898A6, 0x113F9804BEF90DAE, 0x1B710B35131C471B,
   0x28DB77F523047D84, 0x32CAAB7B40C72493, 0x3C9EBE0A15C9BEBC, 0x431D67C49C100D4C,
   0x4CC5D4BECB3E42B6, 0x597F299CFC657E2A, 0x5FCB6FAB3AD6FAEC, 0x6C44198C4A475817]

/-- The 80 round constants. -/
def shaK : List Word := shaK0 ++ shaK1 ++ shaK2 ++ shaK3 ++ shaK4

/-- The eight working words of SHA-384. -/
structure Sha where
  a : Word
  b : Word
  c : Word
  d : Word
  e : Word
  f : Word
  g : Word
  h : Word
deriving DecidableEq, Repr

/-- The initial value of SHA-384. -/
def shaStart : Sha :=
  { a := 0xCBBB9D5DC1059ED8, b := 0x629A292A367CD507, c := 0x9159015A3070DD17, d := 0x152FECD8F70E5939,
    e := 0x67332667FFC00B31, f := 0x8EB44A8768581511, g := 0xDB0C2E0D64F98FA7, h := 0x47B5481DBEFA4FA4 }

/-- A word rotated right. -/
def rotr (w : Word) (n : Nat) : Word := (w >>> n) ||| (w <<< (64 - n))

/-- One round with its constant and schedule word. -/
def shaRound (x : Sha) (k w : Word) : Sha :=
  let s1 := rotr x.e 14 ^^^ rotr x.e 18 ^^^ rotr x.e 41
  let ch := (x.e &&& x.f) ^^^ (~~~x.e &&& x.g)
  let t1 := x.h + s1 + ch + k + w
  let s0 := rotr x.a 28 ^^^ rotr x.a 34 ^^^ rotr x.a 39
  let maj := (x.a &&& x.b) ^^^ (x.a &&& x.c) ^^^ (x.b &&& x.c)
  { a := t1 + (s0 + maj), b := x.a, c := x.b, d := x.c, e := x.d + t1, f := x.e, g := x.f, h := x.g }

/-- The schedule word 16 places after the first of a window of 16. -/
def shaNext (ws : List Word) : Word :=
  let w1 := ws.getD 1 0
  let w14 := ws.getD 14 0
  let s0 := rotr w1 1 ^^^ rotr w1 8 ^^^ (w1 >>> 7)
  let s1 := rotr w14 19 ^^^ rotr w14 61 ^^^ (w14 >>> 6)
  s1 + ws.getD 9 0 + s0 + ws.getD 0 0

/-- The rounds of a block, over a window of 16 schedule words. -/
def shaRounds : List Word → List Word → Sha → Sha
  | [], _, x => x
  | k :: ks, ws, x => shaRounds ks (ws.drop 1 ++ [shaNext ws]) (shaRound x k (ws.getD 0 0))

/-- A block of 16 words taken into the hash value. -/
def shaBlock (x : Sha) (ws : List Word) : Sha :=
  let y := shaRounds shaK ws x
  { a := x.a + y.a, b := x.b + y.b, c := x.c + y.c, d := x.d + y.d, e := x.e + y.e, f := x.f + y.f, g := x.g + y.g, h := x.h + y.h }

/-- A number as n bytes, most significant first. -/
def bigBytes (n v : Nat) : List Byte := (valueBytes n v).reverse

/-- Bytes as a number, most significant first. -/
def bigValue (bs : List Byte) : Nat := bytesValue bs.reverse

/-- Words of some bytes, most significant byte first. -/
def bigWords (n : Nat) (bs : List Byte) : List Word :=
  (List.range n).map fun i => BitVec.ofNat 64 (bigValue ((bs.drop (8 * i)).take 8))

/-- The blocks of a padded message. -/
def shaBlocks : Nat → List Byte → Sha → Sha
  | 0, _, x => x
  | n + 1, bs, x => shaBlocks n (bs.drop 128) (shaBlock x (bigWords 16 (bs.take 128)))

/-- The SHA-384 digest of some bytes. -/
def sha384 (bs : List Byte) : List Byte :=
  let n := bs.length
  let msg := bs ++ 0x80#8 :: List.replicate ((239 - n % 128) % 128) 0 ++ bigBytes 16 (8 * n)
  let x := shaBlocks (msg.length / 128) msg shaStart
  [x.a, x.b, x.c, x.d, x.e, x.f].flatMap fun w => bigBytes 8 w.toNat

/-! ### ECDSA with P-384 -/

/-- The prime of P-384. -/
def curveP : Nat := 2 ^ 384 - 2 ^ 128 - 2 ^ 96 + 2 ^ 32 - 1
/-- Its coefficient b; a is −3. -/
def curveB : Nat := 0xB3312FA7E23EE7E4988E056BE3F82D19181D9C6EFE8141120314088F5013875AC656398D8A2ED19D2A85C8EDD3EC2AEF
/-- The order of its base point. -/
def curveN : Nat := 0xFFFFFFFFFFFFFFFFFFFFFFFFFFFFFFFFFFFFFFFFFFFFFFFFC7634D81F4372DDF581A0DB248B0A77AECEC196ACCC52973
/-- The X coordinate of the base point. -/
def curveGx : Nat := 0xAA87CA22BE8B05378EB1C71EF320AD746E1D3B628BA79B9859F741E082542A385502F25DBF55296C3A545E3872760AB7
/-- The Y coordinate of the base point. -/
def curveGy : Nat := 0x3617DE4A96262C6F5D9E98BF9292DC29F8F41DBD289A147CE9DA3113B5F0B8C00A60B1CE1D7E819D7A431D7C90EA0E5F

/-- A power modulo m, over so many bits of the exponent. -/
def powMod (m : Nat) : Nat → Nat → Nat → Nat
  | 0, _, _ => 1 % m
  | n + 1, b, e => powMod m n (b * b % m) (e / 2) * (if e % 2 = 1 then b else 1) % m

/-- The inverse modulo a prime of at most 384 bits. -/
def invMod (m a : Nat) : Nat := powMod m 384 (a % m) (m - 2)

/-- A point of the curve in Jacobian coordinates: `x / z ^ 2` and `y / z ^ 3`, the point at infinity where `z` is 0. -/
structure Point where
  x : Nat
  y : Nat
  z : Nat
deriving DecidableEq, Repr

/-- The point at infinity. -/
def Point.zero : Point := ⟨1, 1, 0⟩

/-- Twice a point. -/
def Point.double (p : Point) : Point :=
  let zz := p.z * p.z % curveP
  let yy := p.y * p.y % curveP
  let s := 4 * p.x * yy % curveP
  let m := 3 * (p.x + zz) * (p.x + (curveP - zz)) % curveP
  let x := (m * m + 2 * (curveP - s)) % curveP
  ⟨x, (m * (s + (curveP - x)) + 8 * (curveP - yy * yy % curveP)) % curveP, 2 * p.y * p.z % curveP⟩

/-- The sum of two points. -/
def Point.add (p q : Point) : Point :=
  if p.z = 0 then q
  else if q.z = 0 then p
  else
    let pp := p.z * p.z % curveP
    let qq := q.z * q.z % curveP
    let u1 := p.x * qq % curveP
    let u2 := q.x * pp % curveP
    let s1 := p.y * qq * q.z % curveP
    let s2 := q.y * pp * p.z % curveP
    if u1 = u2 then (if s1 = s2 then p.double else Point.zero)
    else
      let h := (u2 + (curveP - u1)) % curveP
      let r := (s2 + (curveP - s1)) % curveP
      let hh := h * h % curveP
      let hhh := h * hh % curveP
      let v := u1 * hh % curveP
      let x := (r * r + (curveP - hhh) + 2 * (curveP - v)) % curveP
      ⟨x, (r * (v + (curveP - x)) + s1 * (curveP - hhh)) % curveP, h * p.z * q.z % curveP⟩

/-- A multiple of a point, over so many bits of the factor. -/
def mulPoint : Nat → Nat → Point → Point
  | 0, _, _ => Point.zero
  | n + 1, k, p =>
    let r := mulPoint n (k / 2) p.double
    if k % 2 = 1 then r.add p else r

/-- Whether a pair of coordinates is a point of the curve. -/
def onCurve (x y : Nat) : Bool :=
  decide (x < curveP) && decide (y < curveP) && decide (y * y % curveP = (x * x * x + (curveP - 3) * x + curveB) % curveP)

/-- The verification of a signature over some bytes under a public key (R373). -/
def ecdsaOk (x y : Nat) (bs : List Byte) (r s : Nat) : Bool :=
  if decide (r = 0) || decide (curveN ≤ r) || decide (s = 0) || decide (curveN ≤ s) || !onCurve x y then false
  else
    let w := invMod curveN s
    let u1 := bigValue (sha384 bs) * w % curveN
    let u2 := r * w % curveN
    let p := (mulPoint 384 u1 ⟨curveGx, curveGy, 1⟩).add (mulPoint 384 u2 ⟨x, y, 1⟩)
    decide (p.z ≠ 0) && decide (p.x * invMod curveP (p.z * p.z % curveP) % curveP % curveN = r)

end Sys2Proof.Machine
end

