-- ==== Sys2Proof/Machine/Image.lean ====
section
/-!
DEFINITION. Tuithen code images (R369 to R377, R445): their structure, hallmark, assay and relocations, the load of an image into a context, keys
and firmware slots.
-/

namespace Sys2Proof.Machine

/-! ### Structure (R369, R370) -/

/-- A section entry. -/
structure Section where
  kind  : Nat
  align : Nat
  off   : Nat
  size  : Nat
  msize : Nat
deriving DecidableEq, Repr

/-- The section entry at an index. -/
def sectionAt (ws : List Word) (i : Nat) : Section :=
  let k := 32 + 4 * i
  { kind := fieldOf ws k 7 0, align := fieldOf ws k 15 8, off := (wordAt ws (k + 1)).toNat, size := (wordAt ws (k + 2)).toNat,
    msize := (wordAt ws (k + 3)).toNat }

/-- NSEC of an image. -/
def imageNsec (ws : List Word) : Nat := fieldOf ws 1 63 48

/-- The sections of an image. -/
def imageSections (ws : List Word) : List Section := (List.range (imageNsec ws)).map fun i => sectionAt ws i

/-- Whether the header of an image of n bytes keeps R369. -/
def tuithenHeaderOk (ws : List Word) (n : Nat) : Bool :=
  decide (n % 64 = 0) && decide (384 ≤ n) && decide (wordAt ws 0 = 0x004E454854495554) && decide ((wordAt ws 3).toNat = n) &&
    decide ((wordAt ws 4).toNat = n - 128) && decide (1 ≤ imageNsec ws) && decide (imageNsec ws ≤ 64) && decide (fieldOf ws 6 63 32 = 0) &&
    (decide (wordAt ws 5 ≠ ~~~0) || decide (wordAt ws 6 = 0)) && ((List.range 25).all fun i => decide (wordAt ws (7 + i) = 0)) &&
    decide (256 + 32 * imageNsec ws ≤ n - 128)

/-- Whether a section entry keeps R370 beside the entries before it. -/
def sectionOk (nsec n : Nat) (before : List Section) (x : Section) : Bool :=
  decide (1 ≤ x.kind) && decide (x.kind ≤ 5) && decide (12 ≤ x.align) && decide (x.align ≤ 30) && decide (256 + 32 * nsec ≤ x.off) &&
    decide (x.off + x.size ≤ n - 128) && decide (x.size ≤ x.msize) &&
    before.all fun y => decide (y.kind ≠ x.kind) &&
      (decide (x.size = 0) || decide (y.size = 0) || decide (y.off + y.size ≤ x.off) || decide (x.off + x.size ≤ y.off))

/-- The index of the first section entry that breaks R370. -/
def badSection (nsec n : Nat) : List Section → List Section → Option Nat
  | _, [] => none
  | before, x :: rest => if sectionOk nsec n before x then badSection nsec n (before ++ [x]) rest else some before.length

/-- The section of a kind, with its index. -/
def sectionOf (xs : List Section) (kind : Nat) : Option (Nat × Section) := (xs.zipIdx.find? fun x => decide (x.1.kind = kind)).map fun x => (x.2, x.1)

/-- Whether RTENTRY is an offset of a word in the code section, or all ones. -/
def runtimeEntryOk (ws : List Word) : Bool :=
  decide (wordAt ws 5 = ~~~0) ||
    (match sectionOf (imageSections ws) 1 with
      | some (_, c) => decide ((wordAt ws 5).toNat < c.msize) && decide ((wordAt ws 5).toNat % 4 = 0)
      | none => false)

/-- What a failed structure check reports: the section index, 0xFFFF when none applies. -/
def structureFault (ws : List Word) (n : Nat) : Option Nat :=
  if !tuithenHeaderOk ws n then some 0xFFFF
  else
    match badSection (imageNsec ws) n [] (imageSections ws) with
    | some i => some i
    | none => if (sectionOf (imageSections ws) 1).isNone || !runtimeEntryOk ws then some 0xFFFF else none

/-- The bytes of a section in an image. -/
def sectionBytes (bs : List Byte) (x : Section) : List Byte := (bs.drop x.off).take x.size

/-! ### Keys and the hallmark (R373) -/

/-- The public key with a KEYID. Key 0 is fixed at manufacture: DESIGN CHOICE of its flags, none revoked, firmware allowed, floor 0. -/
def State.key? (s : State) (id : Nat) : Option PubKey :=
  match s.keys.find? fun k => decide (k.id = id) with
  | some k => some k
  | none => if id = 0 then some { id := 0, x := Config.key0X, y := Config.key0Y, revoked := false, firmware := true, floor := 0 } else none

/-- The state with a public key replaced. -/
def State.setKey (s : State) (k : PubKey) : State := { s with keys := upsert PubKey.id k s.keys }

/-- The code of a hallmark that fails: 2 for a KEYID that is unknown or revoked, 3 for the signature. -/
def State.hallmarkFault (s : State) (bs : List Byte) : Option Nat :=
  let n := bs.length
  let h := bs.drop (n - 128)
  match s.key? (bytesValue (h.take 2)) with
  | none => some 2
  | some k =>
    if k.revoked then some 2
    else if ((h.drop 2).take 14).any (fun b => decide (b ≠ 0)) || (h.drop 112).any (fun b => decide (b ≠ 0)) then some 3
    else if ecdsaOk k.x k.y (bs.take (n - 128)) (bigValue ((h.drop 16).take 48)) (bigValue ((h.drop 64).take 48)) then none
    else some 3

/-- The floor of an image's key. -/
def State.keyFloor (s : State) (bs : List Byte) : Nat := ((s.key? (bytesValue ((bs.drop (bs.length - 128)).take 2))).map (·.floor)).getD 0

/-! ### The assay (R374) -/

/-- The checks of the assay that do not depend on a context: FMAJ, ISAREV, SVN. -/
def State.deviceAssay (s : State) (ws : List Word) (bs : List Byte) : Option Nat :=
  if fieldOf ws 1 15 0 ≠ 1 then some 4
  else if Config.isaLevel < fieldOf ws 1 47 32 then some 5
  else if fieldOf ws 2 31 0 < s.keyFloor bs then some 6
  else none

/-- The assay for a load into a context. -/
def State.assay (s : State) (x : Context) (ws : List Word) (bs : List Byte) : Option Nat :=
  match s.deviceAssay ws bs with
  | some c => some c
  | none =>
    let carries := decide (wordAt ws 5 ≠ ~~~0)
    let version := if x.images = 0 then fieldOf ws 6 31 0 else x.rtver
    if version < fieldOf ws 2 63 32 || carries ≠ decide (x.images = 0) then some 7 else none

/-! ### Relocations (R371, R372) -/

/-- A relocation record. -/
structure Reloc where
  target : Nat
  sect   : Nat
  field  : Nat
  query  : Nat
  addend : Int
  scale  : Int
  clean  : Bool
deriving DecidableEq, Repr

/-- The record at an index of a relocation section. -/
def relocAt (bs : List Byte) (i : Nat) : Reloc :=
  let ws := bytesWords 2 (bs.drop (16 * i))
  { target := fieldOf ws 0 31 0, sect := fieldOf ws 0 39 32, field := fieldOf ws 0 43 40, query := fieldOf ws 0 51 44,
    addend := signedOf 32 (fieldOf ws 1 31 0), scale := signedOf 16 (fieldOf ws 1 47 32),
    clean := decide (fieldOf ws 0 63 52 = 0) && decide (fieldOf ws 1 63 48 = 0) }

/-- Bytes that a record patches. -/
def Reloc.width (r : Reloc) : Nat := if r.field = 2 || r.field = 4 then 8 else 4

/-- Whether two records patch a common byte. -/
def Reloc.overlaps (r q : Reloc) : Bool :=
  decide (r.sect = q.sect) && decide (r.target < q.target + q.width) && decide (q.target < r.target + r.width)

/-- The virtual base of a placed section by its kind. -/
def baseOf (xs : List Section) (bases : List Nat) (kind : Nat) : Option Nat := (sectionOf xs kind).map fun x => bases.getD x.1 0

/-- The quantity of a partition (R372). -/
def quantity (p : Partition) (xs : List Section) (bases : List Nat) (q : Nat) : Option Nat :=
  match q with
  | 0 => baseOf xs bases 1
  | 1 => baseOf xs bases 2
  | 2 => baseOf xs bases 3
  | 3 => some (Config.coresPerCluster * p.clusters.length)
  | 4 => some p.clusters.length
  | 5 => some (if p.timed then 200 + 25 * p.floor else 0)
  | 6 => some Config.isaLevel
  | 7 => some 16
  | 8 => some Config.acRows
  | 9 => some Config.streamBytes
  | _ => none

/-- Whether a record is well formed (R371). -/
def relocOk (xs : List Section) (r : Reloc) : Bool :=
  r.clean && decide (r.field ≤ 4) && decide (r.target % 4 = 0) && (decide (r.field ≠ 4) || decide (r.target % 8 = 0)) &&
    (match xs[r.sect]? with
      | some x => (decide (x.kind = 1) || decide (x.kind = 2) || decide (x.kind = 3)) && decide (r.target + r.width ≤ x.msize)
      | none => false)

/-- The 32-bit word at an offset of a section; beyond the bytes present it is zero. -/
def patchWord (bs : List Byte) (off : Nat) : Nat := bytesValue ((bs.drop off).take 4)

/-- Opcode of a word. -/
def opcodeOf (w : Nat) : Nat := w / 2 ^ 24 % 128

/-- Whether a word is `sli` or `slui` with a zero immediate. -/
def plainSli (w : Nat) : Bool := (decide (opcodeOf w = 0x14) || decide (opcodeOf w = 0x15)) && decide (w % 2 ^ 14 = 0)

/-- Whether the words that a record patches are those that its FIELD names, their immediate bits zero (R372). -/
def targetOk (field w0 w1 : Nat) : Bool :=
  match field with
  | 0 => plainSli w0
  | 1 => decide (opcodeOf w0 = 0x36) && decide (w0 / 2 % 256 = 0)
  | 2 => decide (opcodeOf w0 = 0x7C) && decide (w0 % 2 ^ 24 = 0) && plainSli w1
  | _ => true

/-- Whether a value fits its field (R372). -/
def fitsField (field : Nat) (v : Int) : Bool :=
  match field with
  | 0 => decide (-8192 ≤ v) && decide (v ≤ 8191)
  | 1 => decide (-128 ≤ v) && decide (v ≤ 127)
  | 2 => decide (-(2 ^ 37 : Int) ≤ v) && decide (v < 2 ^ 37)
  | 3 => decide (-(2 ^ 31 : Int) ≤ v) && decide (v < 2 ^ 32)
  | _ => true

/-- A value modulo a power of two. -/
def wrapTo (n : Nat) (v : Int) : Nat := (BitVec.ofInt n v).toNat

/-- The bytes that a record writes (R372). -/
def patchBytes (field w0 w1 : Nat) (v : Int) : List Byte :=
  match field with
  | 0 => valueBytes 4 (w0 + wrapTo 14 v)
  | 1 => valueBytes 4 (w0 + 2 * wrapTo 8 v)
  | 2 => valueBytes 4 (w0 + wrapTo 38 v / 2 ^ 14) ++ valueBytes 4 (w1 + wrapTo 14 v)
  | 3 => valueBytes 4 (wrapTo 32 v)
  | _ => valueBytes 8 (wrapTo 64 v)

/-- The value of a record. -/
def relocValue (q : Nat) (r : Reloc) : Int := q * r.scale + r.addend

/-- The outcome of one record: its bytes, or the code of its failure. -/
def relocCheck (p : Partition) (xs : List Section) (bases : List Nat) (image : List Byte) (before : List Reloc) (r : Reloc) : Nat ⊕ List Byte :=
  if !relocOk xs r || before.any r.overlaps then .inl 8
  else
    match quantity p xs bases r.query, xs[r.sect]? with
    | some q, some x =>
      let bs := sectionBytes image x
      let w0 := patchWord bs r.target
      let w1 := patchWord bs (r.target + 4)
      if !targetOk r.field w0 w1 then .inl 9
      else if !fitsField r.field (relocValue q r) then .inl 10
      else .inr (patchBytes r.field w0 w1 (relocValue q r))
    | _, _ => .inl 8

/-- The outcome of the records from an index on: the patches, or the code and the index of the first failure. -/
def relocate (p : Partition) (xs : List Section) (bases : List Nat) (image : List Byte) : List Reloc → List Reloc →
    (Nat × Nat) ⊕ List (Reloc × List Byte)
  | _, [] => .inr []
  | before, r :: rest =>
    match relocCheck p xs bases image before r with
    | .inl code => .inl (code, before.length)
    | .inr bs =>
      match relocate p xs bases image (before ++ [r]) rest with
      | .inl e => .inl e
      | .inr ps => .inr ((r, bs) :: ps)

/-- The records of an image; a size that is no multiple of 16 leaves a malformed last record. -/
def relocsOf (xs : List Section) (image : List Byte) : List Reloc :=
  match sectionOf xs 5 with
  | none => []
  | some (_, x) =>
    let bs := sectionBytes image x
    let whole := (List.range (x.size / 16)).map fun i => relocAt bs i
    if x.size % 16 = 0 then whole else whole ++ [{ relocAt bs (x.size / 16) with clean := false }]

/-! ### Placing sections -/

/-- Whether a section is placed in memory; relocations are not. -/
def Section.placed (x : Section) : Bool := decide (x.kind ≠ 5)

/-- The virtual base of each section, in ascending order from an address on (R370). -/
def placeSections : Nat → List Section → List Nat
  | _, [] => []
  | top, x :: rest =>
    if x.placed then
      let base := (top + 2 ^ x.align - 1) / 2 ^ x.align * 2 ^ x.align
      base :: placeSections (base + x.msize) rest
    else 0 :: placeSections top rest

/-- The address above the sections placed. -/
def sectionsTop (top : Nat) (xs : List Section) (bases : List Nat) : Nat :=
  (xs.zip bases).foldl (fun t x => if x.1.placed then max t (x.2 + x.1.msize) else t) top

/-- 4 KiB pages of a section. -/
def Section.pages (x : Section) : Nat := if x.placed then (x.msize + 4095) / 4096 else 0

/-- Bytes with some of them replaced from an offset on. -/
def setBytes (bs : List Byte) (off : Nat) (vs : List Byte) : List Byte := bs.take off ++ vs ++ bs.drop (off + vs.length)

/-- The contents of a section with its patches, to the end of its last page. -/
def sectionContents (image : List Byte) (i : Nat) (x : Section) (ps : List (Reloc × List Byte)) : List Byte :=
  let bs := sectionBytes image x
  let bs := bs ++ List.replicate (4096 * x.pages - bs.length) 0
  (ps.filter fun p => decide (p.1.sect = i)).foldl (fun bs p => setBytes bs p.1.target p.2) bs

/-- The leaf of a page of a section (R370): kernels execute code and read constants, and only data is writable. -/
def State.sectionLeaf (s : State) (asid kind frame : Nat) : Leaf :=
  { s.deviceLeaf asid frame (decide (kind = 1)) with w := decide (kind = 3) }

/-- A section written into frames from one on and mapped at its base. -/
def State.mapSection (s : State) (asid : Nat) (x : Section) (base first : Nat) (bs : List Byte) : State :=
  (List.range x.pages).foldl (fun s i =>
    let l := s.sectionLeaf asid x.kind (4096 * (first + i))
    (s.storeRange l.key l.frame ((bs.drop (4096 * i)).take 4096)).mapPage { asid := asid, page := base / 4096 + i, leaf := l }) s

/-- Every section of an image written and mapped, in consecutive frames. -/
def State.mapSections (s : State) (asid : Nat) (image : List Byte) (ps : List (Reloc × List Byte)) :
    List ((Section × Nat) × Nat) → Nat → State
  | [], _ => s
  | ((x, base), i) :: rest, first =>
    (s.mapSection asid x base first (sectionContents image i x ps)).mapSections asid image ps rest (first + x.pages)

/-- Whether frames from one on are free in module HBM: no page that the device has mapped lies there. -/
def State.framesFree (s : State) (first n : Nat) : Bool :=
  decide (4096 * (first + n) ≤ 2 ^ 41) && !(s.mapped.any fun e => decide (4096 * first ≤ e.leaf.frame) && decide (e.leaf.frame < 4096 * (first + n))) &&
    !(s.models.any fun m => m.pool.any fun f => decide (4096 * first ≤ f) && decide (f < 4096 * (first + n)))

/-! ### Kernel tables (R445) -/

/-- A kernel-table entry, its code section at a base. -/
def kernelOf (base : Nat) (ws : List Word) : Kernel :=
  let start := BitVec.ofNat 64 base + wordAt ws 0
  { start := start,
    entries := (List.range 16).map fun e => if wordAt ws (10 + e) = ~~~0 then none else some (start + wordAt ws (10 + e)) }

/-- The kernels of an image. -/
def kernelsOf (xs : List Section) (bases : List Nat) (image : List Byte) : List Kernel :=
  match sectionOf xs 4, baseOf xs bases 1 with
  | some (_, x), some base =>
    let bs := sectionBytes image x
    (List.range (x.size / 256)).map fun i => kernelOf base (bytesWords 32 (bs.drop (256 * i)))
  | _, _ => []

/-! ### Loading (R375) -/

/-- The status word of a load. -/
def loadStatus (code sect index : Nat) : Word := place code 56 ||| place sect 32 ||| place index 0

/-- What a load comes to: the state after it and the status word. -/
structure Loaded where
  state  : State
  code   : Nat
  status : Word

/-- A refused image, appended to the persistent log (R375). -/
def State.refuseImage (s : State) (bs : List Byte) (code sect index : Nat) : Loaded :=
  { state := s.logged (.refusedImage code ((sha384 bs).take 8)), code := code, status := loadStatus code sect index }

/-- A context after an image with its sections at some bases has been loaded (R196, R374). -/
def Context.withImage (x : Context) (ws : List Word) (bs : List Byte) (bases : List Nat) : Context :=
  let xs := imageSections ws
  let base := (baseOf xs bases 1).getD 0
  { x with tvec := if x.images = 0 then some (BitVec.ofNat 64 base + wordAt ws 5) else x.tvec,
           rtver := if x.images = 0 then fieldOf ws 6 31 0 else x.rtver,
           kernels := x.kernels ++ kernelsOf xs bases bs, codeTop := BitVec.ofNat 64 (sectionsTop x.codeTop.toNat xs bases),
           images := x.images + 1 }

/-- A load after the hallmark and the assay: relocations, room, and the image written. The frames that the partition's memory offers are a
free choice; where they cannot take the image there is no room. -/
def State.placeImage (s : State) (x : Context) (p : Partition) (ws : List Word) (bs : List Byte) : Loaded :=
  let xs := imageSections ws
  let bases := placeSections x.codeTop.toNat xs
  let relSect := ((sectionOf xs 5).map (·.1)).getD 0xFFFF
  match relocate p xs bases bs [] (relocsOf xs bs) with
  | .inl (code, index) => s.refuseImage bs code relSect index
  | .inr ps =>
    let pages := xs.foldl (fun n y => n + y.pages) 0
    let (first, s) := s.draw (2 ^ 29)
    if !s.framesFree first pages || decide (2 ^ 56 < sectionsTop x.codeTop.toNat xs bases) then s.refuseImage bs 11 0xFFFF 0
    else
      let s := s.mapSections x.asid bs ps ((xs.zip bases).zipIdx) first
      { state := s.setContext (x.withImage ws bs bases), code := 0, status := loadStatus 0 0xFFFF 0 }

/-- The load of an image into a context of a partition (R375). -/
def State.loadOne (s : State) (x : Context) (p : Partition) (bs : List Byte) : Loaded :=
  let ws := bytesWords (bs.length / 8) bs
  match structureFault ws bs.length with
  | some sect => s.refuseImage bs 1 sect 0
  | none =>
    match s.hallmarkFault bs with
    | some code => s.refuseImage bs code 0xFFFF 0
    | none =>
      match s.assay x ws bs with
      | some code => s.refuseImage bs code 0xFFFF 0
      | none => s.placeImage x p ws bs

/-- Whether n bytes at a physical address can be read by the manager: every one lies in a range of R428 and none on a fenced page or
channel. -/
def State.readableAt (s : State) (pa n : Nat) : Bool :=
  physOk pa && (decide (n = 0) || physOk (pa + n - 1)) && decide (n ≤ 2 ^ 41) &&
    !(s.poison.any fun x => match x with
      | .page f => decide (pa / 4096 ≤ f) && decide (f ≤ (pa + n - 1) / 4096)
      | .channel c => isHbm pa && decide (pa / 2 ^ 37 ≤ c) && decide (c ≤ (pa + n - 1) / 2 ^ 37)
      | _ => false)

/-- `LOAD_IMAGE` (R375, R435, OP 4). -/
def execLoadImage (r : Request) (s : State) : Out :=
  let asid := bits r.w1 31 16
  let bad := wordZeroBad r || unnamedBits [(r.w1, span 31 16), (r.w4, 0), (r.w5, 0)]
  match s.context? asid with
  | none => .next (s.refuse r (failsFor 1 bad ++ [2, 5]))
  | some x =>
    match s.partition? x.partition with
    | none => .next (s.refuse r (failsFor 1 bad ++ [5]))
    | some p =>
      let pa := r.w2.toNat
      let n := r.w3.toNat
      let reasons := failsFor 1 bad ++ failsFor 4 (decide (x.fn ≠ r.fn)) ++ failsFor 2 (!s.readableAt pa n)
      if !reasons.isEmpty then .next (s.refuse r reasons)
      else
        let l := s.loadOne x p (s.homeBytes 0 pa n)
        .next ((l.state.writeSlot r 6 l.status).finish r (if l.code = 0 then 0 else 6) 0)

/-! ### Firmware slots and provisioning (R373, R377) -/

/-- Whether a firmware image passes its check (R377): one code section, no relocations, a key that may sign firmware, the assay. -/
def State.firmwareOk (s : State) (bs : List Byte) : Bool :=
  let ws := bytesWords (bs.length / 8) bs
  (structureFault ws bs.length).isNone && (sectionOf (imageSections ws) 5).isNone && (s.hallmarkFault bs).isNone &&
    (s.deviceAssay ws bs).isNone &&
    (((s.key? (bytesValue ((bs.drop (bs.length - 128)).take 2))).map (·.firmware)).getD false)

/-- An engine checks its firmware slot at its reset and at boot: an image that fails is logged, and the boot ROM runs instead (R377). -/
def State.checkSlot (s : State) (engine : Nat) : State :=
  let ok := s.firmwareOk (Config.slotImage engine)
  { s with slots := (s.slots.filter fun x => decide (x.1 ≠ engine)) ++ [(engine, ok)],
           log := s.log ++ (if ok then [] else [.slotFailed engine]) }

/-- A key slot written: a revoked flag is never cleared and a floor is never lowered (R373). -/
def State.provision (s : State) (a : ProvisionAction) : State :=
  match a with
  | .setKey id x y =>
    (match s.key? id with
      | some k => s.setKey { k with x := x, y := y }
      | none => s.setKey { id := id, x := x, y := y, revoked := false, firmware := false, floor := 0 })
  | .setFirmwareFlag id f => (match s.key? id with
    | some k => s.setKey { k with firmware := f }
    | none => s)
  | .raiseFloor id n => (match s.key? id with
    | some k => s.setKey { k with floor := max k.floor n }
    | none => s)
  | .revoke id => (match s.key? id with
    | some k => s.setKey { k with revoked := true }
    | none => s)

/-- The key that an action names. -/
def actionKey : ProvisionAction → Nat
  | .setKey id _ _ | .setFirmwareFlag id _ | .raiseFloor id _ | .revoke id => id

/-- `PROVISIONING_MESSAGE` (R373): a message that key 0 has not signed, or that names key 0 or no key, has no effect. -/
def execProvisioningMessage (msg : ProvisionMsg) (s : State) : Out :=
  match s.key? 0 with
  | none => .next s
  | some k =>
    if decide (1 ≤ actionKey msg.action) && decide (actionKey msg.action ≤ 15) && ecdsaOk k.x k.y msg.bytes msg.sigR msg.sigS then
      .next (s.provision msg.action)
    else .next s

end Sys2Proof.Machine
end

