-- ==== Sys2Proof/Machine/Reset.lean ====
section
/-!
DEFINITION. The reset ladder (R24 to R26, R350 to R353): what each rung covers, what it ends, and what its completion leaves; containment,
power-on and the boot stages (R427).
-/

namespace Sys2Proof.Machine

/-! ### What a rung covers -/

/-- Whether a rung covers a queue of itself: the queue rung its queue, a function-level reset those of its function. -/
def Rung.coversQueue : Rung → Queue → Bool
  | .queue qid, q => decide (q.qid = qid)
  | .function fn, q => decide (q.fn = fn)
  | _, _ => false

/-- Whether a rung resets a cluster, and not only a core of it. -/
def State.rungHasCluster (s : State) (r : Rung) (cl : Nat) : Bool :=
  match r with
  | .fence (.core _) => false
  | _ => s.rungHasCore r (Config.coresPerCluster * cl)

/-- Whether a rung ends a grid: its record is one of the rung's queues, or it has a block on what the rung resets (R351, R353). -/
def State.rungHasGrid (s : State) (r : Rung) (k : Grid) : Bool :=
  (((s.queue? k.qid).map r.coversQueue).getD false) ||
    (s.blocks.any fun b => decide (b.grid = k.id) && decide (b.state ≠ .spent) && s.rungHasCore r b.core)

/-- The grids that a rung ends: also the second grid of a launch one of whose grids it ends (R359). -/
def State.rungGrids (s : State) (r : Rung) : List Grid :=
  let own := s.grids.filter fun k => s.rungHasGrid r k
  s.grids.filter fun k => own.any fun x => decide (x.qid = k.qid) && decide (x.pos = k.pos)

/-- Whether a rung covers a record in flight: it is in a covered queue, its grid ends, or its continuation is held by a block that ends
(R24, R351). -/
def recordCovered (r : Rung) (ks : List Grid) (bs : List Block) (q : Queue) (f : Fetched) : Bool :=
  decide (f.status = none) && (r.coversQueue q || (ks.any fun k => decide (k.qid = q.qid) && decide (k.pos = f.pos)) ||
    (bs.any fun b => decide (f.holder = some b.id)))

/-- Blocks of which a group has stopped in a double fault (R189). -/
def State.doubleFaulted (s : State) (b : Block) : Bool := s.groups.any fun g => g.doubleFault && decide (g.block = b.id)

/-- Whether a record's work has double-faulted: a block of its launch, or the block that holds its continuation (R189, R351). -/
def recordFaulted (ks : List Grid) (bad : List Block) (q : Queue) (f : Fetched) : Bool :=
  bad.any fun b => decide (f.holder = some b.id) ||
    (ks.any fun k => decide (k.id = b.grid) && decide (k.qid = q.qid) && decide (k.pos = f.pos))

/-! ### What ends -/

/-- Whether a pool entry is the one that the device pushed for a record, launch or continuation, under the generation of that time. -/
def entryOf (q : Queue) (f : Fetched) (e : PoolEntry) : Bool :=
  f.pushed && (match e with
    | .launch qid pos _ => decide (qid = q.qid) && decide (pos = f.pos)
    | .cont ws => decide (f.holder = none) && decide (ws = ({ q with gen := f.gen } : Queue).contEntry f)
    | .resume _ => false)

/-- Whether the dirty sector of a core belongs to a block's context in the cache that the block writes. -/
def State.cachedFor (s : State) (b : Block) (x : Sector) : Bool := decide (b.state = .running) && inCache (s.blockAccessor b) x

/-- What the ended blocks had written and not released: each sector has reached its home before the new generation or is dropped there
(R350); a sector of a context that goes on using the cache is written back. -/
def State.settleSectors (s : State) (ended : List Block) : State :=
  let others := s.blocks.filter fun b => !(ended.any fun e => decide (e.id = b.id))
  (s.cache.filter fun x => decide (x.marked = none) && decide (x.dirty ≠ 0) && ended.any fun b => s.cachedFor b x).foldl (fun s x =>
    let (k, s) := s.draw 2
    if (others.any fun b => s.cachedFor b x) || decide (k = 0) then s.writeBack fun y => decide (y = x)
    else { s with cache := s.cache.filter fun y => decide (y ≠ x) }) s

/-- The tasks and commands of a block, also those of its groups that have ended, gone without effect. -/
def State.forgetWork (s : State) (b : Block) : State :=
  let c := s.core b.core
  let free := fun (e : Option Task) => if e.map (·.block) = some b.id then none else e
  let s := s.setCore { c with tasks := c.tasks.filter (fun t => decide (t.block ≠ b.id)), engines := c.engines.map free }
  let cl := s.cluster (clusterOfCore b.core)
  let mine := (cl.channels.flatMap (·.2)).filter fun x => decide (x.block = b.id)
  mine.foldl (fun s x => if x.isStream then (s.dropCommand b.core x.id).emptyStream b.core x.sq else s.dropCommand b.core x.id) s

/-- The grids of a rung gone: their entries, contexts and blocks (R350). The grids go first, so that nothing completes by it. -/
def State.endGrids (s : State) (ks : List Grid) (bs : List Block) : State :=
  let mine := fun (grid : Nat) => ks.any fun k => decide (k.id = grid)
  let s := ks.foldl (fun s k => s.dropEntry k) s
  let chosen : Bool := match s.sel with
    | some (.context c) => ((s.ctx? c).map fun x => mine x.grid).getD false
    | _ => false
  let s := { s with grids := s.grids.filter (fun k => !mine k.id), ctxs := s.ctxs.filter (fun c => !mine c.grid),
                    sel := if chosen then none else s.sel }
  let s := bs.foldl (fun s b => (s.forgetWork b).forgetBlock b) s
  let gone := fun (e : Nat × PoolEntry) => match e.2 with
    | .resume b => bs.any fun x => decide (x.id = b)
    | _ => false
  { s with clusters := s.clusters.map fun (c : Cluster) => { c with pool := c.pool.filter fun e => !gone e } }

/-- The pool entries of covered records taken out of every pool. -/
def State.dropCovered (s : State) : State :=
  let hit := fun (e : Nat × PoolEntry) => s.queues.any fun q => q.records.any fun f => f.hit && entryOf q f e.2
  ({ s with clusters := s.clusters.map fun (c : Cluster) =>
      { c with pool := c.pool.filter (fun e => !hit e), waiting := c.waiting.filter fun e => !hit e } }).queueResumes

/-! ### Clusters, dies and engines -/

/-- A core at its reset values; a core that is fenced stays so. -/
def State.resetCore (s : State) (n : Nat) : State :=
  let s := s.writeBack fun x => decide (x.core = n)
  let s := { s with cache := s.cache.filter fun x => decide (x.core ≠ n) }
  s.setCore { coreReset n with fenced := (s.core n).fenced }

/-- A cluster at its reset values: its partition and its pools, which lie in memory, stay. The floor of a timed partition holds (R401). -/
def State.resetCluster (s : State) (n : Nat) : State :=
  let s := (List.range Config.coresPerCluster).foldl (fun s k => s.resetCore (Config.coresPerCluster * n + k)) s
  let c := s.cluster n
  let z := clusterReset n
  s.setCluster { z with partition := c.partition, step := max z.step (s.floorOf n), target := max z.target (s.floorOf n), fenced := c.fenced,
                        pool := c.pool, waiting := c.waiting, sysDone := c.sysDone }

/-- What a Fentos complex's queue does when the complex is reset: it goes to a thread of another die, and fetches again the records that it
has not pushed (R351). A draining queue, which fetches nothing, keeps what it has fetched. -/
def State.remapQueue (s : State) (die : Nat) (q : Queue) : State :=
  let others := (List.range Config.dies).filter fun d => decide (d ≠ die) && !s.fentosDown d
  let thread := others.findSome? fun d => (s.freeThread d).map fun t => (d, t)
  if q.state = 1 || q.state = 2 then
    let again := fun (f : Fetched) => decide (f.status = none) && !f.pushed && !f.kept
    let drop := q.records.filter again
    let s := drop.foldl (fun s f => s.unadmit q f.pos) s
    let first := drop.foldl (fun n f => min n f.pos) q.fetchedCount
    let q := { q with thread := thread, records := q.records.filter (fun f => !again f), fetchedCount := first, walkFault := [],
                      packet := none }
    let s := s.dropWaiters fun x => decide (x = .queue q.qid)
    (s.setQueueState q (if drop.isEmpty then q.state else 2) q.err)
  else s.setQueue { q with thread := thread, packet := none }

/-- The queues of a die's Fentos complex remapped to other dies. -/
def State.remapDie (s : State) (die : Nat) : State :=
  (s.queues.filter fun q => decide (q.thread.map (·.1) = some die)).foldl (fun s q => s.remapQueue die q) s

/-- An engine reset (R351): a running task waits for the core's other engine, commands start again from their beginning, streams among them, whose
queues are emptied; queues are remapped. A walk starts
again at another walker, which the model does not tell apart. -/
def State.resetEngine (s : State) (t : Nat) : State :=
  let n := engineName t
  match n.kind with
  | 0 =>
    let c := s.core n.core
    (match c.engines[n.engine]? with
      | some (some t) => s.setCore { c with tasks := t :: c.tasks, engines := c.engines.setIfInBounds n.engine none }
      | _ => s)
  | 1 =>
    let again := fun (c : CopyCmd) => { c with started := false, moved := 0, popped := 0, kept := [] }
    let s := s.dropWaiters fun x => match x with
      | .copy k _ _ => decide (k = n.cluster)
      | _ => false
    let cl := s.cluster n.cluster
    let s := s.setCluster { cl with channels := cl.channels.map fun (x : Nat × List CopyCmd) => (x.1, x.2.map again) }
    { s with cores := s.cores.map fun (c : Core) => if clusterOfCore c.num = n.cluster then { c with streams := [] } else c }
  | 2 => s.remapDie n.die
  | _ => s

/-- A die's HBM holds unrelated values from now on (R351, R427). -/
def State.loseHbm (s : State) (die : Nat) : State :=
  let (n, s) := s.fresh
  let here := fun (pa : Nat) => decide (pa / 2 ^ 38 = die)
  { s with lost := (die, n) :: s.lost.filter (fun x => decide (x.1 ≠ die)), mem := s.mem.filter (fun c => !here c.1),
           sectorKeys := s.sectorKeys.filter fun x => !here (32 * x.1) }

/-- A die reset: its clusters, its Fentos complex with its predictor table, and its HBM (R351, R356). -/
def State.resetDieParts (s : State) (die : Nat) : State :=
  let s := (List.range Config.clustersPerDie).foldl (fun s k => s.resetCluster (Config.clustersPerDie * die + k)) s
  let s := (s.remapDie die).loseHbm die
  { s with predictors := s.predictors.filter (fun e => decide (e.die ≠ die)),
           walks := s.walks.map fun (w : Walk) => if w.die = die && w.phase = 1 then { w with phase := 0 } else w }

/-- A fenced cluster takes no work: what the device had pushed for records without a grid is pushed again elsewhere, and what programs
pushed goes to another cluster of the partition (R24, R353). -/
def State.moveEntries (s : State) (cl : Nat) : State :=
  let c := s.cluster cl
  let other := ((s.clustersOf (c.partition.getD 0)).filter fun x => decide (x ≠ cl) && s.clusterOk x).head?
  let s := s.setCluster { c with pool := [], waiting := [] }
  (c.pool ++ c.waiting).foldl (fun s e =>
    let again := fun (q : Queue) => q.records.find? fun (f : Fetched) => decide (f.status = none) && entryOf q f e.2
    match s.queues.findSome? fun q => (again q).map fun f => (q, f) with
    | some (q, f) => s.setQueue (q.setRecord { f with pushed := false })
    | none => (match other with
      | some x => s.poolOffer x e.1 e.2
      | none => s)) s

/-- What a rung resets besides queues, grids and blocks. -/
def State.resetParts (s : State) (r : Rung) : State :=
  match r with
  | .queue _ => s
  | .engine t => s.resetEngine t
  | .partition p => (s.clustersOf p).foldl (fun s cl => s.resetCluster cl) s
  | .die d => s.resetDieParts d
  | .function fn =>
    { s with contexts := s.contexts.map fun (x : Context) => if x.fn = fn then { x with shapes := [], tensors := [] } else x,
             funcs := upsert Func.num { s.func fn with flr := true } s.funcs }
  | .fence (.core c) => s.resetCore c
  | .fence (.cluster cl) => (s.resetCluster cl).moveEntries cl
  | .fence _ => s

/-! ### Steps 1 and 2 of a rung -/

/-- Whether a running rung covers another one that is asked for, which then joins it (R352). -/
def State.joins (s : State) (x : Rung) (run : RungRun) : Bool :=
  decide (run.rung = x) || (match x with
    | .queue qid => (match run.rung with
      | .function fn => ((s.queue? qid).map fun q => decide (q.fn = fn)).getD false
      | _ => false)
    | .engine t =>
      let n := engineName t
      if n.kind = 0 then s.rungHasCore run.rung n.core
      else if n.kind = 1 then s.rungHasCluster run.rung n.cluster
      else decide (run.rung = .die n.die)
    | .partition p => !(s.clustersOf p).isEmpty && (s.clustersOf p).all fun cl => s.rungHasCluster run.rung cl
    | _ => false)

/-- A queue covered by a rung: STATE 5 and the next generation (R337, R350). -/
def State.coverQueue (s : State) (q : Queue) : State :=
  (s.dropWaiters fun x => decide (x = .queue q.qid)).setQueueState { q with gen := q.gen + 1, walkFault := [], packet := none } 5 0

/-- A rung begins: issue stops in what it covers, every covered queue takes its next generation, and what the rung ends is gone
(R350, steps 1 and 2). -/
def State.startRung (s : State) (r : Rung) (requests : List Request) : State :=
  match s.rungs.find? (s.joins r) with
  | some run =>
    { s with rungs := s.rungs.map fun x => if x.id = run.id then { x with requests := x.requests ++ requests } else x }
  | none =>
    let ks := s.rungGrids r
    let bs := s.blocks.filter fun b => ks.any fun k => decide (k.id = b.grid)
    let bad := match r with
      | .queue _ => bs.filter s.doubleFaulted
      | _ => []
    let mark := fun (q : Queue) (f : Fetched) =>
      if recordCovered r ks bs q f then { f with hit := true, status := if recordFaulted ks bad q f then some 4 else none } else f
    let covered := (s.queues.filter fun q => r.coversQueue q || q.records.any fun f => recordCovered r ks bs q f).map (·.qid)
    let s := { s with queues := s.queues.map fun (q : Queue) => { q with records := q.records.map (mark q) } }
    let s := s.dropCovered
    let s := covered.foldl (fun s qid => match s.queue? qid with
      | some q => s.coverQueue q
      | none => s) s
    let s := ((s.settleSectors bs).endGrids ks bs).resetParts r
    let (id, s) := s.fresh
    { s with rungs := s.rungs ++ [{ id := id, rung := r, queues := covered, requests := requests }] }

/-! ### Its completion -/

/-- Whether another rung than one still covers a queue. -/
def State.stillCovered (s : State) (qid : Nat) : Bool := s.rungs.any fun r => r.queues.contains qid

/-- A covered record at the completion of its rung: pushed again if it is restartable, otherwise completed with STATUS 3 (R351). -/
def settleRecord (lost : Bool) (f : Fetched) : Fetched :=
  if f.hit && decide (f.status = none) then
    if recRst f.record && !lost then { f with hit := false, pushed := false, kept := false, holder := none, watchdog := 0 }
    else { f with status := some 3 }
  else f

/-- A queue that the completed rung covered: its records settle, and it is busy again with its new generation (R337, R351). -/
def State.uncoverQueue (s : State) (lost : Bool) (qid : Nat) : State :=
  match s.queue? qid with
  | none => s
  | some q =>
    if s.stillCovered qid && !lost then s
    else
      let q := { q with records := q.records.map (settleRecord lost) }
      let s := match s.partition? q.partition with
        | some p => s.setPartition { p with admitted := p.admitted.map fun (a : Admitted) =>
            if a.qid = qid && (q.records.any fun f => decide (f.pos = a.pos) && !f.pushed) then { a with pushed := false } else a }
        | none => s
      let s := s.setQueue q
      if s.stillCovered qid then s
      else ((s.setQueueState q 2 0).setDescWord q 5 (BitVec.ofNat 64 q.gen.toNat)).settleQueue qid

/-- Requests of a function that no longer have a ring to answer in, after its registers have returned to their reset values. -/
def State.forgetRequests (s : State) (fn : Nat) : State :=
  let kept := fun (r : Request) => decide (r.fn ≠ fn)
  { s with rungs := s.rungs.map (fun (x : RungRun) => { x with requests := x.requests.filter kept }),
           invals := s.invals.map (fun (x : Invalidation) => { x with request := x.request.filter kept }),
           partitions := s.partitions.map fun (p : Partition) => { p with creating := p.creating.filter kept } }

/-- What else the completion of a rung does: engines check their firmware slots (R377), and a function's registers return to their reset
values (R433). -/
def State.afterRung (s : State) (r : Rung) : State :=
  match r with
  | .engine t => (match (engineName t).kind with
    | 1 => s.checkSlot 3
    | 2 => s.checkSlot 1
    | 3 => s.checkSlot 2
    | _ => s)
  | .die _ => ((s.checkSlot 1).checkSlot 2).checkSlot 3
  | .partition _ | .fence (.cluster _) => s.checkSlot 3
  | .function fn => (s.setFunc { funcReset fn with msix := (s.func fn).msix }).forgetRequests fn
  | _ => s

/-- Whether a rung completes every covered record with STATUS 3. -/
def Rung.losesAll : Rung → Bool
  | .function _ => true
  | _ => false

/-- `RUNG_COMPLETE` (R24, R337, R350, R351). -/
def execRungComplete (id : Nat) (s : State) : Out :=
  match s.rungs.find? fun r => decide (r.id = id) with
  | none => .refused (.notEnabled "RUNG_COMPLETE")
  | some run =>
    let s := { s with rungs := s.rungs.filter fun r => decide (r.id ≠ id) }
    let s := run.queues.foldl (fun s qid => s.uncoverQueue run.rung.losesAll qid) s
    let s := run.requests.foldl (fun s r => s.finish r 0 0) s
    .next (s.afterRung run.rung)

/-! ### Containment -/

/-- `CONTAINMENT` (R26, R353): the unit is fenced and the error logged. A fenced core or cluster ends its blocks; a fenced page or channel
ends none, and the access that would consume its data faults. -/
def execContainment (unit : FenceUnit) (s : State) : Out :=
  let s := s.logged (.contained unit)
  match unit with
  | .page _ | .channel _ => .next { s with poison := s.poison ++ (if s.poison.contains unit then [] else [unit]) }
  | .core c =>
    if (s.core c).fenced then .next s
    else .next ((s.setCore { s.core c with fenced := true }).startRung (.fence (.core c)) [])
  | .cluster cl =>
    if (s.cluster cl).fenced then .next s
    else .next ((s.setCluster { s.cluster cl with fenced := true }).startRung (.fence (.cluster cl)) [])

/-! ### OP 9 -/

/-- What a reset request finds wrong: bits that must be zero, and the reasons of its target (R435). -/
def State.resetReasons (s : State) (r : Request) : List Nat :=
  let rung := bits r.w1 2 0
  let mask := match rung with
    | 0 => span 15 0
    | 1 => span 17 0
    | 5 => 0
    | _ => span 63 0
  let t := r.w2.toNat
  failsFor 1 (wordZeroBad r || unnamedBits [(r.w1, span 2 0), (r.w3, 0), (r.w4, 0), (r.w5, 0), (r.w6, 0)] ||
    (decide (rung < 6) && unnamedBits [(r.w2, mask)])) ++
  (match rung with
    | 0 => (match s.queue? t with
      | some q => failsFor 4 (decide (q.fn ≠ r.fn))
      | none => [2, 5])
    | 1 => []
    | 2 => (match s.partition? t with
      | some p => failsFor 4 (decide (p.fn ≠ r.fn))
      | none => [2, 5])
    | 3 => failsFor 4 (decide (r.fn ≠ 0)) ++ failsFor 2 (decide (Config.dies ≤ t))
    | 4 => failsFor 2 (decide (64 < t)) ++ failsFor 4 (decide (r.fn ≠ 0) && decide (t ≠ r.fn))
    | 5 => failsFor 4 (decide (r.fn ≠ 0))
    | _ => [2])

/-- What a reset request does: it is refused, or its rung begins. -/
def State.requestRung (s : State) (rung : Rung) (r : Request) : State :=
  let reasons := s.resetReasons r
  if reasons.isEmpty then s.startRung rung [r] else s.refuse r reasons

/-- A reset request of one rung. A request that no ring holds comes from the device itself, for a double fault (R189). -/
def resetRequest (code : Nat) (event : String) (target : Nat → Rung) (r : Request) (s : State) : Out :=
  if r.slot.isNone then .next (s.startRung (target r.w2.toNat) [])
  else if bits r.w1 2 0 ≠ code then .refused (.notEnabled event)
  else .next (s.requestRung (target r.w2.toNat) r)

/-- `RESET_QUEUE` (R351, R435). -/
def execResetQueue (r : Request) (s : State) : Out := resetRequest 0 "RESET_QUEUE" .queue r s

/-- `RESET_ENGINE` (R351, R435). -/
def execResetEngine (r : Request) (s : State) : Out := resetRequest 1 "RESET_ENGINE" .engine r s

/-- `RESET_PARTITION` (R351, R435). -/
def execResetPartition (r : Request) (s : State) : Out := resetRequest 2 "RESET_PARTITION" .partition r s

/-- `RESET_DIE` (R351, R435). -/
def execResetDie (r : Request) (s : State) : Out := resetRequest 3 "RESET_DIE" .die r s

/-- `FUNCTION_LEVEL_RESET` (R351, R435). -/
def execFunctionLevelReset (r : Request) (s : State) : Out := resetRequest 4 "FUNCTION_LEVEL_RESET" .function r s

/-! ### Power-on and boot (R25, R427) -/

/-- What power-on and a whole-device reset leave: every work, context and key is gone; the memory of the host and of devices, the persistent
log, the persistent store of keys and the firmware slots stay. HBM contents stay as well, unreadable without their keys. -/
def State.powerOff (s : State) : State :=
  { State.reset with draws := s.draws, steps := s.steps, ids := s.ids, mem := s.mem.filter fun c => !isHbm c.1, keys := s.keys, slots := s.slots,
                     log := s.log, replies := s.replies }

/-- A link port that has trained (R437). -/
def trainedPort (n : Nat) : LinkPort := { port := n, down := false, expect := 0, unacked := [], replays := 0, acked := [] }

/-- A root port that has trained: system software has given it no tables yet (R399). -/
def trainedRoot (n : Nat) : RootPort := { port := n, pasids := [], default := none, ats := [], held := [], replies := [] }

/-- A system-core hart at its reset vector. -/
def hartReset (n : Nat) : Hart := { num := n, asid := 0, pid := 0, thread := 0, halted := false, cache := [], reserved := none, lastLoad := 0 }

/-- A boot stage (R427). -/
def State.bootStage (s : State) (stage : Nat) : State :=
  match stage with
  | 1 => s.checkSlot 0
  | 2 =>
    let (e, s) := s.fresh
    { s with tsr := 0, keySlots := [(0, e)] }
  | 3 => (List.range Config.dies).foldl (fun s d => s.loseHbm d) s
  | 4 => ((s.checkSlot 1).checkSlot 2).checkSlot 3
  | 5 => { s.checkSlot 4 with harts := (List.range 32).map hartReset }
  | _ => { s with links := (List.range 12).map trainedPort, ports := (List.range 8).map trainedRoot }

/-- The boot stages from one on: the stage of a number fails, which stops the boot and is logged; with no such stage the boot completes. -/
def State.bootFrom (s : State) (failing : Nat) : Nat → Nat → State
  | _, 0 => s
  | stage, n + 1 =>
    if stage = failing then s.logged (.bootStage stage)
    else State.bootFrom { s.bootStage stage with boot := stage } failing (stage + 1) n

/-- Power-on: the stages in order. Whether one fails, and which, is a free choice. -/
def State.powerOn (s : State) : State :=
  let (k, s) := s.powerOff.draw 7
  s.bootFrom k 1 6

/-- `BOOT` (R427). -/
def execBoot (s : State) : Out := .next s.powerOn

/-- What a request for a whole-device reset does: no request completes in its ring, since rings are lost (R24, R351). -/
def State.requestDevice (s : State) (r : Request) : State :=
  let reasons := s.resetReasons r
  if reasons.isEmpty then s.powerOn else s.refuse r reasons

/-- `WHOLE_DEVICE_RESET` (R25, R351, R435). -/
def execWholeDeviceReset (r : Request) (s : State) : Out :=
  if bits r.w1 2 0 ≠ 5 then .refused (.notEnabled "WHOLE_DEVICE_RESET") else .next (s.requestDevice r)

end Sys2Proof.Machine
end

