-- ==== Sys2Proof/Machine/Manage.lean ====
section
/-!
DEFINITION. The partition and queue manager (R430, R431, R435): what each request does, and how the manager takes requests from a function's
ring.
-/

namespace Sys2Proof.Machine

/-- An operand word that a request does not use. -/
def unused : Word := 0

/-- All bits of an operand word. -/
def whole : Word := span 63 0

/-- Reason 1 of a request: bits that must be zero are not, given the mask of each operand word from 1 to 6. -/
def bitsReason (r : Request) (m1 m2 m3 m4 m5 m6 : Word) : List Nat :=
  failsFor 1 (wordZeroBad r || unnamedBits [(r.w1, m1), (r.w2, m2), (r.w3, m3), (r.w4, m4), (r.w5, m5), (r.w6, m6)])

/-- A request carried out when no reason speaks against it. -/
def State.unless (s : State) (r : Request) (reasons : List Nat) (k : State) : State := if reasons.isEmpty then k else s.refuse r reasons

/-- Reasons of a request that names something that does not exist. -/
def missing : List Nat := [2, 5]

/-! ### OP 1: partitions (R342, R401, R435) -/

/-- Clusters in the order in which a creation takes them: die by die from the preferred one, in ascending number. -/
def clusterOrder (die : Nat) : List Nat :=
  (List.range Config.dies).flatMap fun d =>
    (List.range Config.clustersPerDie).map fun k => Config.clustersPerDie * ((die + d) % Config.dies) + k

/-- Clusters that no partition holds and that are not fenced, in that order. -/
def State.freeClusters (s : State) (die : Nat) : List Nat :=
  (clusterOrder die).filter fun c => decide ((s.cluster c).partition = none) && !(s.cluster c).fenced

/-- Whether a die has a SHARE of its bandwidth left: shares are in 64ths. -/
def State.shareLeft (s : State) (die share : Nat) : Bool :=
  decide (share + ((s.partitions.filter fun p => p.clusters.any fun c => decide (dieOfCluster c = die)).map (·.share)).sum ≤ 64)

/-- An id that no partition has: which one is a free choice. -/
def State.freePartition (s : State) : Nat × State :=
  let (d, s) := s.draw 65536
  let used := fun (n : Nat) => s.partitions.any fun p => decide (p.id = n)
  (((List.range 300).map fun i => (d + i) % 65536).find? (fun n => !used n) |>.getD d, s)

/-- A partition made of some clusters. Its suspension area and its watchdog limit are set by system software, which the spec does not
describe: free values. Clusters of a timed partition that run below FLOOR head for it, and their dies' networks keep its lowest frequency
(R401, R409). -/
def State.makePartition (s : State) (r : Request) (clusters : List Nat) : State :=
  let timed := bit r.w1 16
  let floor := bits r.w2 4 0
  let (id, s) := s.freePartition
  let (base, s) := s.freeWord
  let (slots, s) := s.draw (2 ^ 16)
  let (limit, s) := s.draw (2 ^ 32)
  let p : Partition := { id := id, fn := r.fn, clusters := clusters, timed := timed, floor := floor, share := bits r.w2 13 8, suspBase := base,
                         suspSlots := slots, watchLimit := limit, admitted := [], creating := some r }
  let s := clusters.foldl (fun s c =>
    let x := s.cluster c
    s.setCluster { x with partition := some id, target := if timed && decide (x.target < floor) then floor else x.target }) s
  let s := { s with partitions := s.partitions ++ [p] }
  { s with bellows := Vector.ofFn fun d : Fin 8 => max (s.bellows[d]) (if timed then s.bellowsFloor d.val else 0) }.finishCreations

/-- `CREATE_PARTITION` (R435, OP 1). -/
def execCreatePartition (r : Request) (s : State) : Out :=
  let n := bits r.w1 15 0
  let timed := bit r.w1 16
  let die := bits r.w3 7 0
  let clusters := (s.freeClusters (if die = 0xFF then 0 else die)).take n
  let reasons := bitsReason r (span 16 0) (if timed then span 13 8 ||| span 4 0 else unused) (span 7 0) unused unused unused ++
    failsFor 2 (decide (n = 0) || decide (Config.clusters < n) || decide (28 < bits r.w2 4 0) ||
      (decide (die ≠ 0xFF) && decide (Config.dies ≤ die))) ++
    failsFor 3 (decide (clusters.length < n) || (timed && clusters.any fun c => !s.shareLeft (dieOfCluster c) (bits r.w2 13 8)))
  .next (s.unless r reasons (s.makePartition r clusters))

/-! ### OP 2: contexts (R389, R435) -/

/-- Physical address of an entry of the table of address spaces (R389). -/
def State.spaceEntry (s : State) (asid : Nat) : Nat := s.spaceBase.toNat + 64 * asid

/-- Words of an address-space entry as the table holds them. -/
def State.entryWords (s : State) (asid : Nat) : List Word := bytesWords 8 (s.homeBytes 0 (s.spaceEntry asid) 64)

/-- An address-space entry as the table holds it now takes effect (R389, R398). -/
def State.reloadSpace (s : State) (asid : Nat) : State :=
  match s.space? asid with
  | some x =>
    let ws := s.entryWords asid
    s.setSpace { x with w0 := wordAt ws 0, root := wordAt ws 1, ring := wordAt ws 2 }
  | none => s

/-- A context and its address space created, the space's entry in the table. Where its first image goes is a free choice. -/
def State.makeContext (s : State) (r : Request) : State :=
  let asid := bits r.w1 31 16
  let image := s.homeBytes 0 r.w2.toNat 64
  let (top, s) := s.draw (2 ^ 20)
  let s := s.storeRange 0 (s.spaceEntry asid) image
  let s := (s.setSpace { asid := asid, fn := r.fn, w0 := 0, root := 0, ring := 0, nextIndex := 0 }).reloadSpace asid
  let s := s.setContext { asid := asid, fn := r.fn, partition := bits r.w1 47 32, tvec := none, rtver := 0, shapes := [], tensors := [],
                          kernels := [], codeTop := BitVec.ofNat 64 (2 ^ 30 * top), images := 0 }
  s.finish r 0 0

/-- What a request finds wrong with the partition that it names. -/
def State.partitionReasons (s : State) (r : Request) (part : Nat) : List Nat :=
  match s.partition? part with
  | some p => failsFor 4 (decide (p.fn ≠ r.fn)) ++ failsFor 5 p.creating.isSome
  | none => missing

/-- What a request finds wrong with the context that it names. -/
def State.contextReasons (s : State) (r : Request) (asid : Nat) : List Nat :=
  match s.context? asid with
  | some x => failsFor 4 (decide (x.fn ≠ r.fn))
  | none => missing

/-- `CREATE_CONTEXT` (R435, OP 2). -/
def execCreateContext (r : Request) (s : State) : Out :=
  if bit r.w1 0 then .refused (.notEnabled "CREATE_CONTEXT")
  else
    let reasons := bitsReason r (span 47 16) whole unused unused unused unused ++ s.partitionReasons r (bits r.w1 47 32) ++
      failsFor 2 (!s.readableAt r.w2.toNat 64) ++
      (match s.context? (bits r.w1 31 16) with
        | some x => failsFor 5 true ++ failsFor 4 (decide (x.fn ≠ r.fn))
        | none => [])
    .next (s.unless r reasons (s.makeContext r))

/-- A context gone with its address space: its translations, mapped pages, models and cached lines. -/
def State.dropContext (s : State) (asid : Nat) : State :=
  let s := s.writeBack fun x => decide (x.asid = asid)
  { s with contexts := s.contexts.filter (fun x => decide (x.asid ≠ asid)), spaces := s.spaces.filter (fun x => decide (x.asid ≠ asid)),
           tlb := s.tlb.filter (fun e => decide (e.asid ≠ asid)), mapped := s.mapped.filter (fun e => decide (e.asid ≠ asid)),
           walks := s.walks.filter (fun w => decide (w.asid ≠ asid)), models := s.models.filter (fun m => decide (m.asid ≠ asid)),
           cache := s.cache.filter fun x => decide (x.asid ≠ asid) }

/-- `DESTROY_CONTEXT` (R435, OP 2): a context that still has queues is in the wrong state. -/
def execDestroyContext (r : Request) (s : State) : Out :=
  if !bit r.w1 0 then .refused (.notEnabled "DESTROY_CONTEXT")
  else
    let asid := bits r.w1 31 16
    let reasons := bitsReason r (span 47 16 ||| 1) unused unused unused unused unused ++ s.contextReasons r asid ++
      failsFor 5 (s.queues.any fun q => decide (q.asid = asid))
    .next (s.unless r reasons ((s.dropContext asid).finish r 0 0))

/-! ### OP 3: queues (R329, R334, R337, R435) -/

/-- Whether the words of a descriptor are ones that a queue of a partition may have (R329). -/
def descriptorOk (ws : List Word) (timed : Bool) : Bool :=
  decide ((wordAt ws 0).toNat % 64 = 0) && decide (fieldOf ws 1 51 37 = 0) && decide (1 ≤ fieldOf ws 1 36 32) &&
    decide (fieldOf ws 1 36 32 ≤ 16) && decide (fieldOf ws 1 15 1 = 0) && decide (bit (wordAt ws 1) 0 = timed) && decide (wordAt ws 7 = 0)

/-- Timed queues of a partition: each has a thread of its own. -/
def State.timedQueues (s : State) (part : Nat) : Nat := (s.queues.filter fun q => q.timed && decide (q.partition = part)).length

/-- A queue created: the device writes STATE and ERR, and takes RIDX as the fetched count; a timed queue is mapped at once. -/
def State.makeQueue (s : State) (r : Request) (p : Partition) (l : Leaf) (ws : List Word) : State :=
  let qid := fieldOf ws 1 31 16
  let q : Queue :=
    { qid := qid, fn := r.fn, asid := bits r.w1 31 16, partition := p.id, desc := leafAddr l r.w2.toNat, descVa := r.w2, timed := p.timed,
      state := 0, err := 0, gen := (wordAt ws 5).setWidth 32, fetchedCount := (wordAt ws 3).toNat, thread := none, idleSince := s.steps,
      records := [], pid := r.w3.setWidth 24, tid := (r.w3 >>> 24).setWidth 16, restores := [], descKey := l.key, walkFault := [],
      packet := none }
  let s :=
    if !p.timed then s.setQueueState q 0 0
    else
      let die := dieOfCluster (p.clusters.headD 0)
      (match s.claimThread die with
        | some (s, t) => s.setQueueState { q with thread := some (die, t) } 1 0
        | none => s.setQueueState q 1 0)
  s.finish r 0 qid

/-- `CREATE_QUEUE` (R337, R435, OP 3). -/
def execCreateQueue (r : Request) (s : State) : Out :=
  if bit r.w1 0 then .refused (.notEnabled "CREATE_QUEUE")
  else
    let asid := bits r.w1 31 16
    let part := bits r.w1 47 32
    let base := bitsReason r (span 47 16) whole (span 39 0) unused unused unused ++ s.contextReasons r asid ++ s.partitionReasons r part ++
      failsFor 2 (decide (r.w2.toNat % 64 ≠ 0))
    match s.context? asid, s.partition? part, s.walkNow asid r.w2 .write true with
    | some x, some p, some l =>
      let ws := bytesWords 8 (s.homeBytes l.key (leafAddr l r.w2.toNat) 64)
      let die := dieOfCluster (p.clusters.headD 0)
      let reasons := base ++ failsFor 2 (decide (x.partition ≠ part) || decide (1 < l.ord) || !descriptorOk ws p.timed) ++
        failsFor 5 (s.queue? (fieldOf ws 1 31 16)).isSome ++
        failsFor 3 (p.timed && (decide (16 ≤ s.timedQueues part) || (s.claimThread die).isNone))
      .next (s.unless r reasons (s.makeQueue r p l ws))
    | _, _, _ => .next (s.refuse r (base ++ [2]))

/-- `DESTROY_QUEUE` (R435, OP 3): a queue that has records fetched and not retired, or that drains or is reset, is in the wrong state. -/
def execDestroyQueue (r : Request) (s : State) : Out :=
  if !bit r.w1 0 then .refused (.notEnabled "DESTROY_QUEUE")
  else
    let base := bitsReason r (span 63 16 ||| 1) whole (span 39 0) unused unused unused
    match s.queue? (bits r.w1 63 48) with
    | none => .next (s.refuse r (base ++ missing))
    | some q =>
      let reasons := base ++ failsFor 4 (decide (q.fn ≠ r.fn)) ++
        failsFor 2 (decide (q.asid ≠ bits r.w1 31 16) || decide (q.partition ≠ bits r.w1 47 32)) ++
        failsFor 5 (!q.records.isEmpty || decide (q.state = 3) || decide (q.state = 5))
      .next (s.unless r reasons ({ s with queues := s.queues.filter fun x => decide (x.qid ≠ q.qid) }.finish r 0 0))

/-! ### OP 5: model contexts (R320, R321, R435) -/

/-- The layers of a table: each entry with the place of its residency word; none where a word's page is not mapped or not RC. -/
def State.tableLayers (s : State) (asid : Nat) (array : Word) : List (List Word × Nat) → Option (List Layer)
  | [] => some []
  | (ws, i) :: rest =>
    let va := array + BitVec.ofNat 64 (8 * i)
    match s.walkNow asid va .read true with
    | some l =>
      if l.ord = 1 then (s.tableLayers asid array rest).map fun ls => layerOf ws (leafAddr l va.toNat) l.key :: ls else none
    | none => none

/-- `REGISTER_MODEL_CONTEXT` (R320, R321, R435, OP 5). -/
def execRegisterModelContext (r : Request) (s : State) : Out :=
  let asid := bits r.w1 31 16
  let n := bits r.w1 47 32
  let base := r.w5.toNat
  let pages := bits r.w6 31 0
  let nvme := bits r.w6 47 32
  let before := bitsReason r (span 55 16) whole whole whole whole (span 47 0) ++ s.contextReasons r asid ++
    failsFor 2 (decide (n = 0) || decide (4096 < n) || decide (r.w3.toNat % 8 ≠ 0) || decide (base % 4096 ≠ 0) ||
      decide (2 ^ 41 < base + 4096 * pages) || decide (255 < nvme) || (decide (r.w4 ≠ 0) && !s.readableAt r.w4.toNat (64 * nvme)))
  match s.readRange asid r.w2 (64 * n) with
  | none => .next (s.refuse r (before ++ [2]))
  | some bs =>
    let entries := (List.range n).map fun i => (bytesWords 8 ((bs.drop (64 * i)).take 64), i)
    match s.tableLayers asid r.w3 entries with
    | none => .next (s.refuse r (before ++ [2]))
    | some ls =>
      let reasons := before ++ failsFor 2 (!(entries.all fun e => layerEntryOk e.1 nvme) || !weightsApart ls)
      let (id, s') := s.fresh
      let m : Model := { id := id, asid := asid, lookahead := bits r.w1 51 48, pri := bits r.w1 55 52, layers := ls,
                         pool := (List.range pages).map fun i => base + 4096 * i, nvmeTable := r.w4.toNat, nvmeEntries := nvme,
                         fetching := none }
      .next (s.unless r reasons ((s'.register m).finish r 0 0))

/-! ### OP 6 and OP 7: translations (R396, R398) -/

/-- What a request finds wrong with the address space that it names. -/
def State.spaceReasons (s : State) (r : Request) (asid : Nat) : List Nat :=
  match s.space? asid with
  | some x => failsFor 4 (decide (x.fn ≠ r.fn))
  | none => missing

/-- An invalidation carried out: the address-space entry takes effect as the table holds it. It completes at once where no root-port device holds a
covered translation. -/
def State.invalidate (s : State) (r : Request) (asid first : Nat) (count : Option Nat) : State :=
  let ports := s.atsOwners asid first count
  let s := (s.dropTranslations asid first count).reloadSpace asid
  if ports.isEmpty then s.finish r 0 0
  else
    let (id, s) := s.fresh
    { s with invals := s.invals ++ [{ id := id, asid := asid, first := first, count := count, request := some r, ports := ports }] }

/-- `INVALIDATE` (R398, R435, OP 6). -/
def execInvalidate (r : Request) (s : State) : Out :=
  let asid := bits r.w1 31 16
  let all := bit r.w1 0
  let reasons := bitsReason r (span 31 16 ||| 1) (if all then unused else whole) (if all then unused else whole) unused unused unused ++
    s.spaceReasons r asid ++ failsFor 2 (!all && (decide (r.w2.toNat % 4096 ≠ 0) || decide (r.w3.toNat % 4096 ≠ 0)))
  .next (s.unless r reasons (s.invalidate r asid (r.w2.toNat / 4096) (if all then none else some (r.w3.toNat / 4096))))

/-- A root-port device has dropped what an invalidation covers; with the last one the request completes (R398). -/
def execAtsInvalidateCompletion (port inv : Nat) (s : State) : Out :=
  match s.port? port, s.invals.find? fun x => decide (x.id = inv) with
  | some p, some x =>
    if !x.ports.contains port then .refused (.notEnabled "ATS_INVALIDATE_COMPLETION")
    else
      let s := s.setPort { p with held := p.held.filter fun h => !covers x.asid x.first x.count h.asid h.page }
      let left := x.ports.filter fun n => decide (n ≠ port)
      if left.isEmpty then
        let s := { s with invals := s.invals.filter fun y => decide (y.id ≠ inv) }
        .next (match x.request with
          | some r => s.finish r 0 0
          | none => s)
      else .next { s with invals := s.invals.map fun (y : Invalidation) => if y.id = inv then { y with ports := left } else y }
  | _, _ => .refused (.notEnabled "ATS_INVALIDATE_COMPLETION")

/-- What OP 7 does. -/
def faultReplyRequest (retry : Bool) (r : Request) (s : State) : Out :=
  let asid := bits r.w1 31 16
  let before := bitsReason r (span 31 16 ||| 1) (span 29 0) unused unused unused unused ++ s.spaceReasons r asid
  match s.faultReply asid (bits r.w2 29 0) retry with
  | some t => .next (s.unless r before (t.finish r 0 0))
  | none => .next (s.refuse r (before ++ [5]))

/-- `FAULT_REPLY_RETRY` (R396, R432, R435, OP 7). -/
def execFaultReplyRetry (r : Request) (s : State) : Out :=
  if bit r.w1 0 then .refused (.notEnabled "FAULT_REPLY_RETRY") else faultReplyRequest true r s

/-- `FAULT_REPLY_FAIL` (R396, R432, R435, OP 7). -/
def execFaultReplyFail (r : Request) (s : State) : Out :=
  if bit r.w1 0 then faultReplyRequest false r s else .refused (.notEnabled "FAULT_REPLY_FAIL")

/-! ### OP 8: grids (R197, R207, R363) -/

/-- The grids of a launch record that run and are not pre-empted. -/
def State.gridsOf (s : State) (qid pos : Nat) : List Grid :=
  s.grids.filter fun k => decide (k.qid = qid) && decide (k.pos = pos) && !k.ended && !k.preempted

/-- `PREEMPT_GRID` (R197, R435, OP 8). -/
def execPreemptGrid (r : Request) (s : State) : Out :=
  if bit r.w1 0 then .refused (.notEnabled "PREEMPT_GRID")
  else
    let before := bitsReason r (span 63 48 ||| 1) whole whole unused unused unused
    match s.queue? (bits r.w1 63 48) with
    | none => .next (s.refuse r (before ++ missing))
    | some q =>
      let ks := s.gridsOf q.qid r.w2.toNat
      let reasons := before ++ failsFor 4 (decide (q.fn ≠ r.fn)) ++ failsFor 5 ks.isEmpty
      .next (s.unless r reasons ((ks.foldl (fun s k => s.later (.preemptionRequest k.id r.w3)) s).finish r 0 0))

/-- What a restore does to a queue: it releases a restore record that waits, or will wait once it is fetched, or an entry that the manager
has kept since a pre-emption before confirmation (R207, R363). None in the wrong state. -/
def Queue.restore (q : Queue) (pos : Nat) (tag : Word) : Option Queue :=
  match q.records.find? fun f => decide (f.pos = pos) with
  | some f =>
    if decide (f.status ≠ none) then none
    else if f.kept then some (q.setRecord { f with kept := false })
    else if recRstr f.record && !f.depMet && !q.restored pos then some { q with restores := q.restores ++ [(pos, tag)] }
    else none
  | none => if q.fetchedCount ≤ pos && !q.restored pos then some { q with restores := q.restores ++ [(pos, tag)] } else none

/-- `RESTORE_GRID` (R207, R363, R435, OP 8). -/
def execRestoreGrid (r : Request) (s : State) : Out :=
  if !bit r.w1 0 then .refused (.notEnabled "RESTORE_GRID")
  else
    let before := bitsReason r (span 63 48 ||| 1) whole whole unused unused unused
    match s.queue? (bits r.w1 63 48) with
    | none => .next (s.refuse r (before ++ missing))
    | some q =>
      let own := failsFor 4 (decide (q.fn ≠ r.fn))
      match q.restore r.w2.toNat r.w3 with
      | some q' => .next (s.unless r (before ++ own) ((s.setQueue q').finish r 0 0))
      | none => .next (s.refuse r (before ++ own ++ [5]))

/-! ### OP 10 (R417) -/

/-- `SET_STOPALL` (R417, R435, OP 10). -/
def execSetStopall (r : Request) (s : State) : Out :=
  let pid : BitVec 24 := r.w1.setWidth 24
  let rest := s.stopall.filter fun x => decide (x ≠ pid)
  let reasons := bitsReason r (span 23 0 ||| place 1 32) unused unused unused unused unused
  .next (s.unless r reasons ({ s with stopall := if bit r.w1 32 then rest ++ [pid] else rest }.finish r 0 0))

/-! ### Taking requests (R430, R431, R433) -/

/-- Whether a request of a function has been taken and has not completed. -/
def State.requestPending (s : State) (fn : Nat) : Bool :=
  (s.rungs.any fun x => x.requests.any fun r => decide (r.fn = fn)) ||
    (s.invals.any fun x => decide (x.request.map (·.fn) = some fn)) ||
    (s.partitions.any fun p => decide (p.creating.map (·.fn) = some fn))

/-- Whether the manager takes a request of a function now: requests of one function go in ring order. -/
def State.mayTakeRequest (s : State) (fn : Nat) : Bool :=
  let f := s.func fn
  s.ready f && f.en && !f.blocked && decide (f.rqridx ≠ f.rqwidx) && !s.requestPending fn

/-- The event of a request by its OP (R431), where the request is not one of the resets that this module carries out directly. -/
def requestEvent (r : Request) : Option Instr :=
  match bits r.w0 63 56 with
  | 1 => some (.createPartition r)
  | 2 => some (if bit r.w1 0 then .destroyContext r else .createContext r)
  | 3 => some (if bit r.w1 0 then .destroyQueue r else .createQueue r)
  | 4 => some (.loadImage r)
  | 5 => some (.registerModelContext r)
  | 6 => some (.invalidate r)
  | 7 => some (if bit r.w1 0 then .faultReplyFail r else .faultReplyRetry r)
  | 8 => some (if bit r.w1 0 then .restoreGrid r else .preemptGrid r)
  | 9 => if bits r.w1 2 0 = 0 then some (.resetQueue r) else none
  | 10 => some (.setStopall r)
  | _ => none

/-- What the manager does with a request that has no event of its own: the other rungs of OP 9, and an unknown OP (R431, R435). -/
def State.requestDirect (s : State) (r : Request) : State :=
  if bits r.w0 63 56 ≠ 9 then s.refuse r [1]
  else match bits r.w1 2 0 with
    | 1 => s.requestRung (.engine r.w2.toNat) r
    | 2 => s.requestRung (.partition r.w2.toNat) r
    | 3 => s.requestRung (.die r.w2.toNat) r
    | 4 => s.requestRung (.function r.w2.toNat) r
    | 5 => s.requestDevice r
    | _ => s.refuse r (s.resetReasons r)

/-- The manager takes the next request of a function: the event that it starts, and the state. A slot that cannot be read sets ERR (R433). -/
def State.takeRequest (s : State) (fn : Nat) : Option Instr × State :=
  let f := s.func fn
  let pa := f.slotAddr f.rqridx.toNat
  if !(isHost pa && s.readableAt pa 64) then (none, s.setFunc { f with err := true, blocked := true })
  else
    let r := s.readRequest f f.rqridx.toNat
    match requestEvent r with
    | some e => (some e, s)
    | none => (none, s.requestDirect r)

end Sys2Proof.Machine
end

