-- ==== Sys2Proof/Machine/System.lean ====
section
/-!
DEFINITION. What the world outside the module does to it: PCIe and CXL.io requests (R274, R399), accesses of peer modules and the flits of
link ports (R276, R437, R438), system-core accesses (R273), key slots (R400), and writes of the registers of functions, of power and of
debug (R402, R411, R414, R433).
-/

namespace Sys2Proof.Machine

/-! ### PCIe and CXL.io requests (R274, R399) -/

/-- The bytes of a request cut at naturally aligned sectors: address and count, in ascending order. -/
def sectorCuts (addr n : Nat) : List (Nat × Nat) :=
  (List.range ((addr % 32 + n + 31) / 32)).map fun i =>
    let a := max addr (32 * (addr / 32 + i))
    (a, min (addr + n) (32 * (addr / 32 + i + 1)) - a)

/-- Where a part of a request lies: its physical address and key, or why the request is not carried out. -/
inductive PortTarget where
  | found (pa key : Nat)
  | abort
  | unsupported
deriving DecidableEq, Repr

/-- A physical address as the target of a request. -/
def physTarget (pa key : Nat) : PortTarget := if physOk pa then .found pa key else .unsupported

/-- The target of one address of a request (R399): the host and a device with a translated address name physical addresses, the device under the key
of the page that was translated for it (R400); an untranslated address is translated under the ASID of the request. -/
def State.portTarget (s : State) (req : Requester) (c : Access) (addr : Nat) : PortTarget :=
  match req with
  | .host => physTarget addr 0
  | .device port fn pasid translated =>
    match s.port? port with
    | none => .unsupported
    | some p =>
      if translated then
        (if p.ats.contains fn then physTarget addr (((p.held.find? fun h => decide (h.frame = addr / 4096)).map (·.key)).getD 0) else .abort)
      else
        match p.asidOf pasid with
        | none => .unsupported
        | some asid =>
          let va := BitVec.ofNat 64 addr
          if bits va 63 56 = 0xFF then .unsupported
          else if bits va 63 56 ≠ 0 then .abort
          else match s.walkNow asid va c true with
            | some l => if l.ord = 3 then .abort else .found (leafAddr l addr) l.key
            | none => .abort

/-- The root port of a requester. -/
def Requester.port : Requester → Option Nat
  | .host => none
  | .device n _ _ _ => some n

/-- A request that completes with an error: a device receives Unsupported Request or Completer Abort, and an abort is logged. -/
def State.portError (s : State) (req : Requester) (t : PortTarget) : State :=
  match Requester.port req with
  | none => s
  | some n =>
    match t with
    | .abort => (s.logged (.atsRefused n)).portReply n .abort
    | _ => s.portReply n .unsupported

/-- The targets of the parts of a request, or the first that is none. -/
def State.portTargets (s : State) (req : Requester) (c : Access) : List (Nat × Nat) → PortTarget ⊕ List (Nat × Nat × Nat)
  | [] => .inr []
  | (a, n) :: rest =>
    match s.portTarget req c a with
    | .found pa key => (match s.portTargets req c rest with
      | .inr ts => .inr ((pa, key, n) :: ts)
      | .inl e => .inl e)
    | e => .inl e

/-- The parts of a write stored at their homes, in ascending order. -/
def State.storeParts (s : State) (ts : List (Nat × Nat × Nat)) (data : List Byte) : State :=
  (ts.foldl (fun (x : State × List Byte) t => (x.1.storeHome t.2.1 t.1 (x.2.take t.2.2), x.2.drop t.2.2)) (s, data)).1

/-- `HOST_POSTED_WRITE` (R274): requests of one requester are performed as they arrive, each sector indivisibly and in ascending order. -/
def execHostPostedWrite (req : Requester) (addr : Nat) (data : List (BitVec 8)) (_relaxed : Bool) (s : State) : Out :=
  match s.portTargets req .write (sectorCuts addr data.length) with
  | .inl e => .next (s.portError req e)
  | .inr ts => .next (s.storeParts ts data)

/-- `HOST_READ` (R274): the bytes go to the requester; a read of bad data returns none. -/
def execHostRead (req : Requester) (addr n : Nat) (s : State) : Out :=
  match s.portTargets req .read (sectorCuts addr n) with
  | .inl e => .next (s.portError req e)
  | .inr ts =>
    let bad := ts.any fun t => (s.poisoned t.1).isSome
    .next { s with replies := (addr, if bad then [] else ts.flatMap fun t => s.homeBytes t.2.1 t.1 t.2.2) :: s.replies }

/-! ### Link ports (R276, R437, R438) -/

/-- A link port that has trained and is not down. -/
def State.link? (s : State) (n : Nat) : Option LinkPort := s.links.find? fun l => decide (l.port = n)

/-- The state with a link port's record replaced. -/
def State.setLink (s : State) (l : LinkPort) : State := { s with links := upsert LinkPort.port l s.links }

/-- An atomic of a peer module's agent at the home of its bytes, which go to the agent as they were (R238, R239, R276); of bad bytes nothing is
returned and nothing is written. -/
def State.peerAtomic (s : State) (addr n : Nat) (f : Nat → Option Nat) : State :=
  if (s.poisoned addr).isSome then { s with replies := (addr, []) :: s.replies }
  else
    let old := s.homeBytes 0 addr n
    let s := match f (bytesValue old) with
      | some v => s.storeHome 0 addr (valueBytes n (v % 2 ^ (8 * n)))
      | none => s
    { s with replies := (addr, old) :: s.replies }

/-- `PEER_ACCESS` (R276): a peer names HBM bytes of this module; the access is performed at the L2, under key slot 0. -/
def execPeerAccess (port addr n : Nat) (op : PeerOp) (s : State) : Out :=
  match s.link? port with
  | none => .refused (.notEnabled "PEER_ACCESS")
  | some l =>
    let sized := match op with
      | .read => true
      | .write data => decide (data.length = n)
      | .rmw _ _ | .cas _ _ => (decide (n = 4) || decide (n = 8)) && decide (addr % n = 0)
    if l.down || decide (2 ^ 41 < addr + n) || !sized then .refused (.notEnabled "PEER_ACCESS")
    else
      match op with
      | .write data => .next (s.storeParts ((sectorCuts addr n).map fun c => (c.1, 0, c.2)) data)
      | .read =>
        let bad := (sectorCuts addr n).any fun c => (s.poisoned c.1).isSome
        .next { s with replies := (addr, if bad then [] else s.homeBytes 0 addr n) :: s.replies }
      | .rmw o v => .next (s.peerAtomic addr n fun old => some (rmwResult o n old (v.toNat % 2 ^ (8 * n))))
      | .cas x v => .next (s.peerAtomic addr n fun old => if old = x.toNat % 2 ^ (8 * n) then some v.toNat else none)

/-- `FLIT_RECEIVE` (R437): each flit is acknowledged; one that has arrived before is replayed and has no further effect (R276). -/
def execFlitReceive (port : Nat) (seq : BitVec 16) (s : State) : Out :=
  match s.link? port with
  | none => .refused (.notEnabled "FLIT_RECEIVE")
  | some l =>
    if l.down then .refused (.notEnabled "FLIT_RECEIVE")
    else .next (s.setLink { l with acked := seq :: l.acked, expect := if seq = l.expect then l.expect + 1 else l.expect })

/-- `FLIT_REPLAY_TIMEOUT` (R437, R438): a flit has not been acknowledged for 2 µs. It is replayed, and after 8 replays of one flit the port
goes down. Whether it is the flit that was replayed last is a free choice, since acknowledgements of other flits arrive unseen. -/
def execFlitReplayTimeout (port : Nat) (s : State) : Out :=
  match s.link? port with
  | none => .refused (.notEnabled "FLIT_REPLAY_TIMEOUT")
  | some l =>
    if l.down then .refused (.notEnabled "FLIT_REPLAY_TIMEOUT")
    else
      let (k, s) := if l.replays = 0 then (1, s) else s.draw 2
      if k = 0 && decide (8 ≤ l.replays) then .next (s.setLink { l with down := true, replays := 0 })
      else .next (s.setLink { l with replays := if k = 0 then l.replays + 1 else 1 })

/-- `LINK_PORT_RETRAIN` (R437). -/
def execLinkPortRetrain (port : Nat) (s : State) : Out :=
  match s.link? port with
  | none => .refused (.notEnabled "LINK_PORT_RETRAIN")
  | some l => if l.down then .next (s.setLink (trainedPort port)) else .refused (.notEnabled "LINK_PORT_RETRAIN")

/-! ### Key slots (R400) -/

/-- `KEY_SLOT_LOAD` (R400): a slot is erased, or loaded with a new key. -/
def execKeySlotLoad (slot : Nat) (erase : Bool) (s : State) : Out :=
  if 512 ≤ slot then .refused (.notEnabled "KEY_SLOT_LOAD")
  else
    let (e, s) := s.fresh
    let rest := s.keySlots.filter fun x => decide (x.1 ≠ slot)
    .next { s with keySlots := if erase then rest else rest ++ [(slot, e)] }

/-! ### Registers of a function (R433) -/

/-- `RQWIDX_DOORBELL` (R433). -/
def execRqwidxDoorbell (fn : Nat) (value : BitVec 64) (s : State) : Out :=
  if 64 < fn then .refused (.notEnabled "RQWIDX_DOORBELL") else .next (s.setFunc { s.func fn with rqwidx := value })

/-- RQCFG written (R433): while EN is 1 the LOG2 field keeps its value; EN 1 with LOG2 outside 1 to 16 is an error. -/
def Func.writeConfig (f : Func) (value : Word) : Func :=
  let en := bit value 5
  let log := bits value 4 0
  if f.en then { f with en := en, blocked := f.blocked && en }
  else
    let bad := en && (decide (log < 1) || decide (16 < log))
    { f with en := en, log2 := log, err := f.err || bad, blocked := bad }

/-- `RQCFG_WRITE` (R433). -/
def execRqcfgWrite (fn : Nat) (value : BitVec 64) (s : State) : Out :=
  if 64 < fn then .refused (.notEnabled "RQCFG_WRITE") else .next (s.setFunc ((s.func fn).writeConfig value))

/-- `FNSTAT_WRITE` (R433): writing 1 clears ERR. -/
def execFnstatWrite (fn : Nat) (value : BitVec 64) (s : State) : Out :=
  if 64 < fn then .refused (.notEnabled "FNSTAT_WRITE")
  else .next (s.setFunc { s.func fn with err := (s.func fn).err && !bit value 2 })

/-! ### Registers of power and of debug (R402, R411, R414) -/

/-- A core's debug registers changed; a core beyond the module has none. -/
def State.onCore (s : State) (core : Nat) (f : Core → Core) : Out :=
  if core < Config.coresPerCluster * Config.clusters then .next (s.setCore (f (s.core core))) else .refused (.notEnabled "REGISTER_WRITE")

/-- A cluster's power registers changed: refused, without effect, on a cluster of a timed partition (R402). -/
def State.onCluster (s : State) (cl : Nat) (f : Cluster → Cluster) : Out :=
  if Config.clusters ≤ cl then .refused (.notEnabled "REGISTER_WRITE")
  else if (s.timedPartition cl).isSome then .next s
  else .next (s.setCluster (f (s.cluster cl)))

/-- A comparator's registers changed: there are 8. -/
def State.onComparator (s : State) (core n : Nat) (ok : Bool) (f : Core → Core) : Out :=
  if 8 ≤ n then .refused (.notEnabled "REGISTER_WRITE") else s.onCore core fun c => if ok then f c else c

/-- A root port's tables changed by system software (R399); there are 8 ports. -/
def State.onPort (s : State) (n : Nat) (f : RootPort → RootPort) : Out :=
  match s.port? n with
  | some p => .next (s.setPort (f p))
  | none => .refused (.notEnabled "REGISTER_WRITE")

/-- `REGISTER_WRITE` (R399, R402, R411, R414, R433): reserved bits read as zero; a debug register keeps its value when a write holds a reserved
value; read-only registers ignore writes. -/
def execRegisterWrite (reg : DevReg) (value : BitVec 64) (s : State) : Out :=
  match reg with
  | .bpcWord0 core n =>
    s.onComparator core n (decide (bits value 61 57 = 0) && decide (bits value 1 0 = 0)) fun c => { c with bpc0 := c.bpc0.setIfInBounds n value }
  | .bpcWord1 core n => s.onComparator core n (decide (bits value 47 32 = 0)) fun c => { c with bpc1 := c.bpc1.setIfInBounds n value }
  | .dbgctl core =>
    if Config.coresPerCluster * Config.clusters ≤ core then .refused (.notEnabled "REGISTER_WRITE")
    else if dbgctlOk value then .next (s.writeDbgctl core value)
    else .next s
  | .trbase core => s.onCore core fun c => if value.toNat % 4096 = 0 then { c with trbase := value } else c
  | .smpbase core => s.onCore core fun c => if value.toNat % 4096 = 0 then { c with smpbase := value } else c
  | .droopth cl => s.onCluster cl fun c => { c with droopth := bits value 7 0 }
  | .pairlim cl => s.onCluster cl fun c => { c with pairlim := bits value 9 0 }
  | .cfreq _ | .crec _ => .next s
  | .fbcap => .next { s with caps := { s.caps with fbcap := bits value 15 0 } }
  | .rqbase fn =>
    if 64 < fn then .refused (.notEnabled "REGISTER_WRITE")
    else .next (if (s.func fn).en then s else s.setFunc { s.func fn with rqbase := value &&& span 63 6 })
  | .rqridx _ | .fnid _ => .next s
  | .portPasid port pasid => s.onPort port fun p =>
      let rest := p.pasids.filter fun x => decide (x.1 ≠ pasid)
      { p with pasids := if bit value 63 then (pasid, bits value 15 0) :: rest else rest }
  | .portDefault port => s.onPort port fun p => { p with default := if bit value 63 then some (bits value 15 0) else none }
  | .portAts port fn => s.onPort port fun p =>
      let rest := p.ats.filter fun x => decide (x ≠ fn)
      { p with ats := if bit value 63 then fn :: rest else rest }

/-! ### System cores (R273) -/

/-- The hart with a number. -/
def State.hart? (s : State) (n : Nat) : Option Hart := s.harts.find? fun h => decide (h.num = n)

/-- The state with a hart's record replaced. -/
def State.setHart (s : State) (h : Hart) : State := { s with harts := upsert Hart.num h s.harts }

/-- Dirty sectors of a hart that satisfy a test, written back to their homes. -/
def State.hartWriteBack (s : State) (h : Hart) (p : HartSector → Bool) : State × Hart :=
  let q := fun (x : HartSector) => p x && decide (x.dirty ≠ 0)
  let s := (h.cache.filter q).foldl (fun s x => s.storeMasked x.key (32 * x.sector) x.dirty x.data) s
  (s, { h with cache := h.cache.map fun x => if q x then { x with dirty := 0 } else x })

/-- A release of a hart at `sys`: its dirty bytes reach the L2 that holds them. -/
def State.hartRelease (s : State) (h : Hart) : State × Hart := s.hartWriteBack h fun _ => true

/-- An acquire of a hart at `sys`: its clean lines are dropped, and a sector written in part is written back first. -/
def State.hartAcquire (s : State) (h : Hart) : State × Hart :=
  let (s, h) := s.hartWriteBack h fun x => decide (x.dirty ≠ ~~~0)
  (s, { h with cache := h.cache.filter fun x => decide (x.dirty ≠ 0) })

/-- What a hart's caches do of themselves before an access: a dirty sector is written back, or a clean line is replaced, at moments that
the device does not state. -/
def State.hartDrift (s : State) (h : Hart) : State × Hart :=
  let (k, s) := s.draw (2 * h.cache.length + 1)
  match h.cache[k / 2]? with
  | none => (s, h)
  | some x =>
    let (s, h) := s.hartWriteBack h fun y => decide (y = x)
    if k % 2 = 0 then (s, h) else (s, { h with cache := h.cache.filter fun y => decide (y.sector ≠ x.sector) })

/-- Whether a hart's caches hold a page's sectors: module HBM on RC and UN pages. -/
def hartCached (l : Leaf) : Bool := isHbm l.frame && decide (l.ord ≠ 0)

/-- A sector that a hart's caches hold from now on. -/
def State.hartSector (s : State) (h : Hart) (l : Leaf) (pa : Nat) : HartSector × Hart :=
  match h.cache.find? fun x => decide (x.sector = pa / 32) with
  | some x => (x, h)
  | none =>
    let x : HartSector := { sector := pa / 32, key := l.key, data := s.homeSector l.key pa, dirty := 0 }
    (x, { h with cache := x :: h.cache })

/-- Bytes that a hart loads from one sector. -/
def State.hartLoad (s : State) (h : Hart) (l : Leaf) (pa n : Nat) : Hart × List Byte :=
  if hartCached l then
    let (x, h) := s.hartSector h l pa
    (h, (List.range n).map fun i => sectorByte x.data (pa % 32 + i))
  else (h, s.homeBytes l.key pa n)

/-- Bytes that a hart stores into one sector. -/
def State.hartStore (s : State) (h : Hart) (l : Leaf) (pa : Nat) (bs : List Byte) : State × Hart :=
  if hartCached l then
    let (x, h) := s.hartSector h l pa
    let mask := BitVec.ofNat 32 ((2 ^ bs.length - 1) * 2 ^ (pa % 32))
    let data := overlay x.data (BitVec.ofNat 256 (bytesValue bs * 2 ^ (8 * (pa % 32)))) mask
    (s, { h with cache := { x with data := data, dirty := x.dirty ||| mask } :: h.cache.filter fun y => decide (y.sector ≠ x.sector) })
  else (s.storeHome l.key pa bs, h)

/-- The translations of the parts of a hart's access; none when one of them faults or cannot be read, which the hart takes as an exception
of its own. -/
def State.hartParts (s : State) (h : Hart) (c : Access) (va : Word) (n : Nat) : Option (List (Leaf × Nat × Nat)) :=
  (sectorCuts va.toNat n).mapM fun x =>
    match s.walkNow h.asid (BitVec.ofNat 64 x.1) c true with
    | some l => if l.ord = 3 || (decide (c ≠ .write) && (s.poisoned (leafAddr l x.1)).isSome) then none else some (l, leafAddr l x.1, x.2)
    | none => none

/-- An access of a hart that is performed at the home of its bytes (R261, R273), with the release before it and the acquire after it that rl and aq
ask for: the hart's own copy of the sector leaves its caches. The access answers the value that is written, if any, what the hart receives, and
the reservation that it holds then. -/
def State.hartAtHome (s : State) (h : Hart) (c : Access) (va : Word) (wide aq rl : Bool)
    (f : (pa old : Nat) → Option Nat × Word × Option (Nat × Nat)) : State :=
  let n := if wide then 8 else 4
  match s.hartParts h c va n with
  | some [(l, pa, _)] =>
    if l.ord = 2 || decide (va.toNat % n ≠ 0) then s
    else
      let (s, h) := if rl then s.hartRelease h else (s, h)
      let (s, h) := s.hartWriteBack h fun x => decide (x.sector = pa / 32)
      let h := { h with cache := h.cache.filter fun x => decide (x.sector ≠ pa / 32) }
      let old := bytesValue (s.homeBytes l.key pa n)
      let (v, got, kept) := f pa old
      let s := match v with
        | some v => s.storeHome l.key pa (valueBytes n (v % 2 ^ (8 * n)))
        | none => s
      let (s, h) := if aq then s.hartAcquire h else (s, h)
      s.setHart { h with lastLoad := got, reserved := kept }
  | _ => s

/-- An AMO of a hart. -/
def State.hartAmo (s : State) (h : Hart) (op : RmwOp) (va : Word) (wide : Bool) (v : Word) (aq rl : Bool) : State :=
  let n := if wide then 8 else 4
  s.hartAtHome h .atomic va wide aq rl fun _ old => (some (rmwResult op n old (v.toNat % 2 ^ (8 * n))), extendTo64 n (!wide) old, h.reserved)

/-- An LR of a hart: the bytes are reserved from now on. -/
def State.hartLr (s : State) (h : Hart) (va : Word) (wide aq rl : Bool) : State :=
  let n := if wide then 8 else 4
  s.hartAtHome h .read va wide aq rl fun pa old => (none, extendTo64 n (!wide) old, some (pa, n))

/-- An SC of a hart: it stores when its reservation of the same bytes holds and, as a free choice, does not fail all the same; the hart receives 0, or
1 when nothing is stored. The reservation is gone in every case. -/
def State.hartSc (s : State) (h : Hart) (va : Word) (wide : Bool) (v : Word) (aq rl : Bool) : State :=
  let n := if wide then 8 else 4
  let (k, s) := s.draw 2
  s.hartAtHome h .write va wide aq rl fun pa _ =>
    if h.reserved = some (pa, n) && decide (k = 0) then (some v.toNat, 0, none) else (none, 1, none)

/-- A FENCE of a hart (R273). Sets are I, O, R, W from bit 3 down. -/
def State.hartFence (s : State) (h : Hart) (f : HartFence) : State × Hart :=
  let both := fun (rel acq : Bool) =>
    let (s, h) := if rel then s.hartRelease h else (s, h)
    if acq then s.hartAcquire h else (s, h)
  match f with
  | .rwRw | .io => both true true
  | .rRw => both false true
  | .rwW => both true false
  | .tso => both true true
  | .other pred succ => both (pred[0] && decide (succ ≠ 0)) (succ[1] && decide (pred ≠ 0))

/-- `SYSTEM_CORE_ACCESS` (R273): an access that faults is the hart's own exception and changes nothing here. -/
def execSystemCoreAccess (hart : Nat) (acc : HartAccess) (s : State) : Out :=
  match s.hart? hart with
  | none => .refused (.notEnabled "SYSTEM_CORE_ACCESS")
  | some h =>
    if h.halted then .refused (.notEnabled "SYSTEM_CORE_ACCESS")
    else
      let (s, h) := s.hartDrift h
      let s := s.setHart h
      match acc with
      | .load va n =>
        (match s.hartParts h .read va n with
          | some ps =>
            let (h, bs) := ps.foldl (fun (x : Hart × List Byte) p =>
              let (h, bs) := s.hartLoad x.1 p.1 p.2.1 p.2.2
              (h, x.2 ++ bs)) (h, [])
            .next (s.setHart { h with lastLoad := BitVec.ofNat 64 (bytesValue bs) })
          | none => .next s)
      | .store va data =>
        (match s.hartParts h .write va data.length with
          | some ps =>
            let (s, h, _) := ps.foldl (fun (x : State × Hart × List Byte) p =>
              let (s, h) := x.1.hartStore x.2.1 p.1 p.2.1 (x.2.2.take p.2.2)
              (s, h, x.2.2.drop p.2.2)) (s, h, data)
            .next (s.setHart h)
          | none => .next s)
      | .amo op va wide v aq rl => .next (s.hartAmo h op va wide v aq rl)
      | .lr va wide aq rl => .next (s.hartLr h va wide aq rl)
      | .sc va wide v aq rl => .next (s.hartSc h va wide v aq rl)
      | .satp v => .next (s.setHart { h with asid := bits v 59 44 })
      | .fence f =>
        let (s, h) := s.hartFence h f
        .next (s.setHart h)

end Sys2Proof.Machine
end

