-- ==== Sys2Proof/Machine/Issue.lean ====
section
/-!
DEFINITION. Issue (R34, R35, R148, R341, R405): the issue cycle of a scheduler, the return of units to arbitration, and the write-back of a
dirty sector whose line is replaced (R268).
-/

namespace Sys2Proof.Machine

/-- Whether a group takes an asynchronous request, or a fault of a context above it, before its next word (R191, R193). -/
def State.mustTrap (s : State) (g : Group) : Bool :=
  !g.trap.tmode && (!g.async.isEmpty || s.ctxs.any fun c =>
    c.fault.isSome && c.reporter.isNone && decide ((s.reporterOf c).map (·.id) = some g.id))

/-- Whether a group's grid has been stopped by a pre-emption before its confirmation (R361, R363). -/
def State.stoppedGrid (s : State) (g : Group) : Bool := ((s.grid? (s.blockOf g).grid).map (·.stopped)).getD false

/-- Whether a unit may issue a word now: it is ready, or stands at a word whose fault it has to take, no region of another unit is open (R157), and its group has not stopped. A pair that has issued
its hint issues its second word before the group takes a request (R43, R191). -/
def State.issuable (s : State) (g : Group) (u : GUnit) : Bool :=
  (decide (u.wait = .ready) || decide (u.wait = .edgeOut)) && g.regionLets u && !g.doubleFault && g.draining.isNone && !s.stoppedGrid g && (u.hint.isSome || !s.mustTrap g)

/-- The units of a scheduler that may issue, with their groups: a core's groups lie on the scheduler of their slot modulo 4. -/
def State.readyUnits (s : State) (core sched : Nat) : List (Group × GUnit) :=
  (s.groups.filter fun g => decide (g.core = core) && decide (g.slot % 4 = sched)).flatMap fun g =>
    (g.active.filter fun u => s.issuable g u).map fun u => (g, u)

/-- Whether a ready unit has not issued for 32 issue cycles of its scheduler (R148). -/
def overdue (sc : Sched) (u : GUnit) : Bool := decide (32 ≤ sc.recent.length) && sc.recent.all fun n => decide (u.since < n)

/-- The member of a list that comes first by two measures. -/
def firstBy {α : Type} (f g : α → Nat) (xs : List α) : Option α :=
  xs.foldl (fun best x => match best with
    | some b => if f x < f b || (f x = f b && g x < g b) then some x else best
    | none => some x) none

/-- Arbitration (R148, R341): the unit that has been ready longest of the group that has waited longest, the lowest slot on a tie. DESIGN CHOICE:
of the units of one group that have been ready equally long, the one with the lowest lane. -/
def arbitrate (us : List (Group × GUnit)) : Option (Group × GUnit) :=
  (firstBy (fun x => x.1.lastIssue) (fun x => x.1.slot) us).bind fun w =>
    firstBy (fun x => x.2.since) (fun x => lowestLane x.2.mask) (us.filter fun x => decide (x.1.id = w.1.id))

/-- The first slot of a cycle: overdue units first, oldest first, one instruction each; else the run goes on, up to 32 issue cycles; else
arbitration begins a new run. Answers the unit and the length of the run so far. -/
def firstSlot (sc : Sched) (us : List (Group × GUnit)) : Option ((Group × GUnit) × Nat) :=
  match firstBy (fun x => x.2.since) (fun x => x.1.slot) (us.filter fun x => overdue sc x.2) with
  | some x => some (x, 32)
  | none =>
    match us.find? fun x => decide (sc.run = some (x.1.id, x.2.uid)) && decide (sc.runLen < 32) with
    | some x => some (x, sc.runLen)
    | none => (arbitrate us).map fun x => (x, 0)

/-- The charge of the word at a unit's PC, where it can be fetched now. -/
def State.nextCharge (s : State) (g : Group) (u : GUnit) (lim : Nat) : Nat :=
  match s.fetchWord (s.accessor g) g.level1 u.pc with
  | .word w => (match decodeWord w with
    | .ok i => pairCharge lim g u i
    | .error _ => 0)
  | _ => 0

/-- The second slot of a cycle (R148, R341, R405, R406): a unit of another group whose charge fits beside that of the first slot; of those, the one
whose group has waited longest, but only overdue units, the oldest first, while any is overdue. -/
def State.secondSlot (s : State) (cl : Cluster) (sc : Sched) (us : List (Group × GUnit)) : Option (Group × GUnit) :=
  match sc.first with
  | some (gid, used, false) =>
    let fits := us.filter fun x => decide (x.1.id ≠ gid) && decide (s.nextCharge x.1 x.2 cl.pairlim + used ≤ cl.pairlim)
    if sc.paired || decide (cl.droop ≠ .none) then none
    else if us.any fun x => overdue sc x.2 then firstBy (fun x => x.2.since) (fun x => x.1.slot) (fits.filter fun x => overdue sc x.2)
    else arbitrate fits
  | _ => none

/-- The scheduler's record as its next cycle begins, on a core's cluster whose clock moves on when the scheduler has issued in the current
cycle. Reference time passes by at most one tick, by free choice. -/
def State.nextCycle (s : State) (core sched : Nat) : State :=
  let cl := s.cluster (clusterOfCore core)
  let sc := ((s.core core).scheds[sched]?).getD schedReset
  let s :=
    if sc.cycle = cl.tsc.toNat && sc.first.isSome then
      let (k, s) := s.draw 2
      (s.setCluster (cl.clockTo (cl.tsc.toNat + 1))).passTo (s.tsr.toNat + k)
    else s
  let c := s.core core
  let sc := { sc with cycle := (s.cluster (clusterOfCore core)).tsc.toNat, first := none, paired := false }
  s.setCore { c with scheds := c.scheds.setIfInBounds sched sc }

/-- A unit selected to perform the next instruction step; its scheduler's run so far. -/
def State.select (s : State) (x : Group × GUnit) (run : Option Nat) : State :=
  let c := s.core x.1.core
  let m := x.1.slot % 4
  let sc := (c.scheds[m]?).getD schedReset
  let s := match run with
    | some n => s.setCore { c with scheds := c.scheds.setIfInBounds m { sc with run := some (x.1.id, x.2.uid), runLen := n } }
    | none => s
  { s with sel := some (.unit x.1.id x.2.uid) }

/-- `ISSUE_CYCLE` (R34, R148, R341, R405, R406): a slot of a scheduler is given to a unit, whose word is the next instruction step. -/
def execIssueCycle (core sched : Nat) (s : State) : Out :=
  let us := s.readyUnits core sched
  if decide (4 ≤ sched) || us.isEmpty || (s.core core).fenced || !s.clusterOk (clusterOfCore core) then .refused (.notEnabled "ISSUE_CYCLE")
  else
    let s := s.flushPackets core
    let cl := s.cluster (clusterOfCore core)
    let sc := ((s.core core).scheds[sched]?).getD schedReset
    let second := if sc.cycle = cl.tsc.toNat then s.secondSlot cl sc us else none
    match second with
    | some x => .next (s.select x none)
    | none =>
      match firstSlot sc us with
      | some (x, n) => .next ((s.nextCycle core sched).select x (some n))
      | none => .refused (.notEnabled "ISSUE_CYCLE")

/-! ### Back to arbitration -/

/-- A waiting unit made ready when a test of its group and itself holds. -/
def readyWhen (event : String) (gid uid : Nat) (s : State) (test : Group → GUnit → Bool) : Out :=
  match (s.group? gid).bind fun g => (g.unit? uid).map fun u => (g, u) with
  | some (g, u) =>
    if test g u then .next (s.setGroup (g.setUnit { u with wait := .ready, since := s.steps })) else .refused (.notEnabled event)
  | none => .refused (.notEnabled event)

/-- `SWITCH_UNPARK` (R34): every register write of the group's issued instructions has completed. -/
def execSwitchUnpark (gid uid : Nat) (s : State) : Out :=
  readyWhen "SWITCH_UNPARK" gid uid s fun g u => decide (u.wait = .switchPark) && !(s.writes.any fun w => decide (w.group = g.id)) &&
    !s.atomics.any fun x => decide (x.group = g.id) && decide (x.sreg ≠ 0)

/-- Whether the word that the interlock holds at a unit still names a register whose write has not completed (R35). -/
def State.stillHeld (s : State) (g : Group) (u : GUnit) : Bool :=
  match s.fetchWord (s.accessor g) g.level1 u.pc with
  | .word w => (match decodeWord w with
    | .ok i => s.heldUp g u i
    | .error _ => false)
  | _ => false

/-- `INTERLOCK_REISSUE` (R35). -/
def execInterlockReissue (gid uid : Nat) (s : State) : Out :=
  readyWhen "INTERLOCK_REISSUE" gid uid s fun g u => decide (u.wait = .hold) && !s.stillHeld g u

/-- `TAKEN_SIDE_READY` (R148). -/
def execTakenSideReady (gid uid : Nat) (s : State) : Out :=
  readyWhen "TAKEN_SIDE_READY" gid uid s fun _ u => decide (u.wait = .takenSide)

/-- Whether a stalled unit may test its word again: a fetch waits for its walk, and a double fault for good (R165, R189). -/
def State.mayRetry (s : State) (g : Group) (u : GUnit) : Bool :=
  match u.wait with
  | .stall r =>
    decide (r ≠ 21) && !g.doubleFault && (decide (r ≠ 18) || !s.walks.any fun w => w.waiters.any fun x => match x with
      | .unit gid uid _ => decide (gid = g.id) && decide (uid = u.uid)
      | _ => false)
  | _ => false

/-- `QUEUE_STALL_RESUME` (R17): the unit tests its word again. -/
def execQueueStallResume (gid uid : Nat) (s : State) : Out := readyWhen "QUEUE_STALL_RESUME" gid uid s s.mayRetry

/-! ### Replacement (R230, R268) -/

/-- `DIRTY_SECTOR_WRITE_BACK` (R268): the sector's written bytes reach its home, and its line gives it up. -/
def execDirtySectorWriteBack (core asid tid sector : Nat) (s : State) : Out :=
  match s.cache.find? fun x => decide (x.core = core) && decide (x.asid = asid) && decide (x.tid = tid) && decide (x.vsec = sector) &&
      decide (x.dirty ≠ 0) && decide (x.marked = none) && !s.heldLine x with
  | none => .refused (.notEnabled "DIRTY_SECTOR_WRITE_BACK")
  | some x =>
    let s := s.writeBack fun y => decide (y = x)
    .next { s with cache := s.cache.filter fun y => !(decide (y.core = x.core) && decide (y.asid = x.asid) && decide (y.tid = x.tid) &&
      decide (y.line = x.line) && decide (y.vsec = x.vsec) && decide (y.marked = none)) }

end Sys2Proof.Machine
end

