-- ==== Sys2Proof/Machine/Wide.lean ====
section
/-!
DEFINITION. Group-wide instructions: votes, shuffles, reductions and scans by the fixed pairwise tree, and the moves between a
lane and a scalar (R68, R107 to R112).
-/

namespace Sys2Proof.Machine

/-- `vvote.all` (R108). -/
def execVvoteAll (m : BitVec 1) (p : BitVec 3) (d a : BitVec 3) (s : State) : Out :=
  issueLanes (.vvoteAll m p d a) s fun g _ ms =>
    g.setP d.toNat ms (if ms &&& ~~~(g.p a.toNat) = 0 then ~~~0 else 0)

/-- `vvote.any` (R108). -/
def execVvoteAny (m : BitVec 1) (p : BitVec 3) (d a : BitVec 3) (s : State) : Out :=
  issueLanes (.vvoteAny m p d a) s fun g _ ms =>
    g.setP d.toNat ms (if ms &&& g.p a.toNat = 0 then 0 else ~~~0)

/-- `vvote.ballot` (R108). -/
def execVvoteBallot (m : BitVec 1) (p : BitVec 3) (d : BitVec 5) (a : BitVec 3) (s : State) : Out :=
  issueLanes (.vvoteBallot m p d a) s fun g _ ms => g.setS d.toNat ((ms &&& g.p a.toNat).setWidth 64)

/-- The source lane of a shuffle (R109); none outside the group. -/
def shuffleLane (f w i t : Nat) : Option Nat :=
  match f with
  | 0 => some (t % w)
  | 1 => if t ≤ i then some (i - t) else none
  | 2 => if i + t < w then some (i + t) else none
  | _ => if i ^^^ t < w then some (i ^^^ t) else none

/-- `vshfl` (R109): a source lane is read whether or not it is active (R107). -/
def execVshfl (m : BitVec 1) (p : BitVec 3) (d a : BitVec 6) (b : BitVec 5) (f : BitVec 2) (s : State) : Out :=
  issueLanes (.vshfl m p d a b f) s fun g _ ms =>
    g.setVs d.toNat ((lanesOf ms).map fun i =>
      (i, g.v a.toNat ((shuffleLane f.toNat g.width i (g.s b.toNat).toNat).getD i)))

/-- `vext` (R111). -/
def execVext (m : BitVec 1) (p : BitVec 3) (d : BitVec 5) (a : BitVec 6) (b : BitVec 5) (s : State) : Out :=
  issueLanes (.vext m p d a b) s fun g _ _ =>
    let l := (g.s b.toNat).toNat
    g.setS d.toNat (if l < g.width then (g.v a.toNat l).setWidth 64 else 0)

/-- `vins` (R112). -/
def execVins (m : BitVec 1) (p : BitVec 3) (d : BitVec 6) (a b : BitVec 5) (s : State) : Out :=
  issueLanes (.vins m p d a b) s fun g _ ms =>
    let l := (g.s b.toNat).toNat
    if l < g.width ∧ ms.getLsbD l then g.setV d.toNat l ((g.s a.toNat).setWidth 32) else g

/-! ### Reductions and scans -/

/-- A node of the tree: two values combined, with the flags raised (R68, R97, R110). Values stand as raw bits. -/
def combineNode (t f : Nat) (r : Rounding) (x y : Nat) : Nat × BitVec 6 :=
  if t ≤ 1 then
    let a := laneInt t (BitVec.ofNat 32 x)
    let b := laneInt t (BitVec.ofNat 32 y)
    ((match f with
      | 0 => (BitVec.ofInt 32 (a + b)).toNat
      | 1 => (BitVec.ofInt 32 (min a b)).toNat
      | 2 => (BitVec.ofInt 32 (max a b)).toNat
      | 3 => x &&& y
      | 4 => x ||| y
      | _ => x ^^^ y), 0)
  else
    let code := if t = 2 then 1 else 0
    let a := unpack code r.ftz x
    let b := unpack code r.ftz y
    let md := nearestForRs r.mode
    let (v, fl) := match f with
      | 0 => addNum md a b
      | 1 => minMax false a b
      | _ => minMax true a b
    let (raw, fl') :=
      if f = 0 then roundFloat code md r.sat r.ftz 0 v
      else ((roundFloat code .rn false false 0 v).1, 0)
    (raw, fl ||| fl')

/-- Two subtrees, either of which may be absent (R68). -/
def combineOpt (t f : Nat) (r : Rounding) (x y : Option Nat) : Option Nat × BitVec 6 :=
  match x, y with
  | some x, some y => let (v, fl) := combineNode t f r x y; (some v, fl)
  | some x, none => (some x, 0)
  | none, y => (y, 0)

/-- One level of the tree: neighbours combined. -/
def treeLevel (t f : Nat) (r : Rounding) : List (Option Nat) → List (Option Nat) × BitVec 6
  | x :: y :: rest =>
    let (v, fl) := combineOpt t f r x y
    let (vs, fls) := treeLevel t f r rest
    (v :: vs, fl ||| fls)
  | xs => (xs, 0)

/-- The pairwise tree over lane values; `k` levels (R68). -/
def tree (t f : Nat) (r : Rounding) : Nat → List (Option Nat) → Option Nat × BitVec 6
  | 0, xs => ((xs.headD none), 0)
  | k + 1, xs =>
    let (ys, fl) := treeLevel t f r xs
    let (v, fls) := tree t f r k ys
    (v, fl ||| fls)

/-- A lane value as the tree takes it: with FTZ, a subnormal operand is read as zero (R54), and a NaN as the canonical NaN, so that one that
meets no other lane is written as R52 says of every NaN result (DEDUCED: R68 hands the value of a lone lane on as it is). -/
def leafRaw (t : Nat) (r : Rounding) (x : Nat) : Nat :=
  let code := if t = 2 then 1 else 0
  if t ≤ 1 then x
  else
    match unpack code r.ftz x with
    | .fin neg 0 _ _ => signRaw code neg
    | .nan => nanRaw code
    | _ => x

/-- NV where a lane value of a float type is NaN, be it the only one (R52). -/
def leafFlags (t : Nat) (r : Rounding) (x : Nat) : BitVec 6 :=
  if t ≤ 1 then 0
  else
    match unpack (if t = 2 then 1 else 0) r.ftz x with
    | .nan => NV
    | _ => 0

/-- Lane i's value of a type: a register, or a pair. -/
def laneRaw (g : Group) (t f i : Nat) : Nat := if t = 3 then (g.v64 f i).toNat else (g.v f i).toNat

/-- The lane values of the active lanes up to a bound, as the tree takes them. -/
def treeInputs (g : Group) (t f : Nat) (r : Rounding) (ms : Mask) (top : Nat) : List (Option Nat) :=
  (List.range g.width).map fun i =>
    if ms.getLsbD i ∧ i ≤ top then some (leafRaw t r (laneRaw g t f i)) else none

/-- The flags that the tree's operands raise by themselves: those of the active lanes up to a bound. -/
def treeOperandFlags (g : Group) (t f : Nat) (r : Rounding) (ms : Mask) (top : Nat) : BitVec 6 :=
  (List.range g.width).foldl (fun fl i => if ms.getLsbD i ∧ i ≤ top then fl ||| leafFlags t r (laneRaw g t f i) else fl) 0

/-- Every active lane's generator advanced once, for a float type in mode `rs` (R110). -/
def advanceGens (g : Group) (t : Nat) (r : Rounding) (ms : Mask) : Group :=
  if 2 ≤ t ∧ r.mode = .rs then (lanesOf ms).foldl (fun g l => g.setGen l (genNext (g.gen l))) g else g

/-- A tree's result written into a lane. -/
def setTree (g : Group) (t d l v : Nat) : Group :=
  if t = 3 then g.setV64s d [(l, BitVec.ofNat 64 v)] else g.setV d l (BitVec.ofNat 32 v)

/-- `vred` (R110). -/
def execVred (m : BitVec 1) (p : BitVec 3) (d a : BitVec 6) (t : BitVec 2) (f : BitVec 3) (s : State) : Out :=
  issueLanes (.vred m p d a t f) s fun g u ms =>
    let r := { roundingOf u with sat := fmtSat u.fmt }
    let (v, fl) := tree t.toNat f.toNat r (g.width.log2) (treeInputs g t.toNat a.toNat r ms 31)
    advanceGens (((lanesOf ms).foldl (fun g' l => setTree g' t.toNat d.toNat l (v.getD 0)) g).raise
      (fl ||| treeOperandFlags g t.toNat a.toNat r ms 31)) t.toNat r ms

/-- `vscan` (R110): lane i takes the tree over the active lanes up to itself. -/
def execVscan (m : BitVec 1) (p : BitVec 3) (d a : BitVec 6) (t : BitVec 2) (f : BitVec 3) (s : State) : Out :=
  issueLanes (.vscan m p d a t f) s fun g u ms =>
    let r := { roundingOf u with sat := fmtSat u.fmt }
    advanceGens ((lanesOf ms).foldl (fun g' l =>
      let (v, fl) := tree t.toNat f.toNat r (g.width.log2) (treeInputs g t.toNat a.toNat r ms l)
      (setTree g' t.toNat d.toNat l (v.getD 0)).raise (fl ||| treeOperandFlags g t.toNat a.toNat r ms l)) g) t.toNat r ms

end Sys2Proof.Machine
end

