-- ==== Sys2Proof/Machine/Dispatch.lean ====
section
/-! DEFINITION. The dispatch of every step to its meaning: one arm per constructor of Instr. -/

namespace Sys2Proof.Machine

def exec (i : Instr) (s : State) : Host.Outcome State Fault Refusal :=
  match i with
  | .br m k c o => Sys2Proof.Machine.execBr m k c o s
  | .jmp m k o => Sys2Proof.Machine.execJmp m k o s
  | .call m k o => Sys2Proof.Machine.execCall m k o s
  | .ret m k => Sys2Proof.Machine.execRet m k s
  | .loop m k c o => Sys2Proof.Machine.execLoop m k c o s
  | .lbrk m k c => Sys2Proof.Machine.execLbrk m k c s
  | .bar m k => Sys2Proof.Machine.execBar m k s
  | .nop m => Sys2Proof.Machine.execNop m s
  | .rcv m => Sys2Proof.Machine.execRcv m s
  | .exit m => Sys2Proof.Machine.execExit m s
  | .maskAll m => Sys2Proof.Machine.execMaskAll m s
  | .maskRest m => Sys2Proof.Machine.execMaskRest m s
  | .yield m => Sys2Proof.Machine.execYield m s
  | .up m d a k y => Sys2Proof.Machine.execUp m d a k y s
  | .downSend m d a k => Sys2Proof.Machine.execDownSend m d a k s
  | .downRead m d a k => Sys2Proof.Machine.execDownRead m d a k s
  | .claim m d a => Sys2Proof.Machine.execClaim m d a s
  | .giveback m a => Sys2Proof.Machine.execGiveback m a s
  | .vwin m a => Sys2Proof.Machine.execVwin m a s
  | .regroup m d a => Sys2Proof.Machine.execRegroup m d a s
  | .role m a => Sys2Proof.Machine.execRole m a s
  | .spawn m d a b => Sys2Proof.Machine.execSpawn m d a b s
  | .suspend m k n o => Sys2Proof.Machine.execSuspend m k n o s
  | .fmtSet m a => Sys2Proof.Machine.execFmtSet m a s
  | .fmtGet m d => Sys2Proof.Machine.execFmtGet m d s
  | .sadd m d a b t => Sys2Proof.Machine.execSadd m d a b t s
  | .ssub m d a b t => Sys2Proof.Machine.execSsub m d a b t s
  | .smul m d a b t => Sys2Proof.Machine.execSmul m d a b t s
  | .smulh m d a b t => Sys2Proof.Machine.execSmulh m d a b t s
  | .sdiv m d a b t => Sys2Proof.Machine.execSdiv m d a b t s
  | .smin m d a b t => Sys2Proof.Machine.execSmin m d a b t s
  | .smax m d a b t => Sys2Proof.Machine.execSmax m d a b t s
  | .sand m d a b t => Sys2Proof.Machine.execSand m d a b t s
  | .sor m d a b t => Sys2Proof.Machine.execSor m d a b t s
  | .sxor m d a b t => Sys2Proof.Machine.execSxor m d a b t s
  | .sshl m d a b t => Sys2Proof.Machine.execSshl m d a b t s
  | .sshr m d a b t => Sys2Proof.Machine.execSshr m d a b t s
  | .ssar m d a b t => Sys2Proof.Machine.execSsar m d a b t s
  | .sset m d a b t c => Sys2Proof.Machine.execSset m d a b t c s
  | .ssel m d a b c => Sys2Proof.Machine.execSsel m d a b c s
  | .sli m d a imm => Sys2Proof.Machine.execSli m d a imm s
  | .slui m d a imm => Sys2Proof.Machine.execSlui m d a imm s
  | .sld m d a b w x o k => Sys2Proof.Machine.execSld m d a b w x o k s
  | .sst m d a b w o k => Sys2Proof.Machine.execSst m d a b w o k s
  | .vadd m p d a b t => Sys2Proof.Machine.execVadd m p d a b t s
  | .vsub m p d a b t => Sys2Proof.Machine.execVsub m p d a b t s
  | .vmul m p d a b t => Sys2Proof.Machine.execVmul m p d a b t s
  | .vmulh m p d a b t => Sys2Proof.Machine.execVmulh m p d a b t s
  | .vmad m p d a b t => Sys2Proof.Machine.execVmad m p d a b t s
  | .vmin m p d a b t => Sys2Proof.Machine.execVmin m p d a b t s
  | .vmax m p d a b t => Sys2Proof.Machine.execVmax m p d a b t s
  | .vabs m p d a => Sys2Proof.Machine.execVabs m p d a s
  | .vand m p d a b => Sys2Proof.Machine.execVand m p d a b s
  | .vor m p d a b => Sys2Proof.Machine.execVor m p d a b s
  | .vxor m p d a b => Sys2Proof.Machine.execVxor m p d a b s
  | .vandn m p d a b => Sys2Proof.Machine.execVandn m p d a b s
  | .vshl m p d a b => Sys2Proof.Machine.execVshl m p d a b s
  | .vshr m p d a b => Sys2Proof.Machine.execVshr m p d a b s
  | .vsar m p d a b => Sys2Proof.Machine.execVsar m p d a b s
  | .vclz m p d a => Sys2Proof.Machine.execVclz m p d a s
  | .vpopc m p d a => Sys2Proof.Machine.execVpopc m p d a s
  | .vsat m p d a w t => Sys2Proof.Machine.execVsat m p d a w t s
  | .vsel m p d a b n => Sys2Proof.Machine.execVsel m p d a b n s
  | .vset m p c n a b t => Sys2Proof.Machine.execVset m p c n a b t s
  | .vsetImm m p c n a imm t => Sys2Proof.Machine.execVsetImm m p c n a imm t s
  | .pand m p d a b => Sys2Proof.Machine.execPand m p d a b s
  | .por m p d a b => Sys2Proof.Machine.execPor m p d a b s
  | .pxor m p d a b => Sys2Proof.Machine.execPxor m p d a b s
  | .pnot m p d a => Sys2Proof.Machine.execPnot m p d a s
  | .vmov m p d a => Sys2Proof.Machine.execVmov m p d a s
  | .vbcast m p d a => Sys2Proof.Machine.execVbcast m p d a s
  | .vlane m p d => Sys2Proof.Machine.execVlane m p d s
  | .vrand m p d => Sys2Proof.Machine.execVrand m p d s
  | .vaddImm m p d a imm t => Sys2Proof.Machine.execVaddImm m p d a imm t s
  | .vmulImm m p d a imm t => Sys2Proof.Machine.execVmulImm m p d a imm t s
  | .vshlImm m p d a n t => Sys2Proof.Machine.execVshlImm m p d a n t s
  | .vshrImm m p d a n t => Sys2Proof.Machine.execVshrImm m p d a n t s
  | .vsarImm m p d a n t => Sys2Proof.Machine.execVsarImm m p d a n t s
  | .vmovImm m p d imm => Sys2Proof.Machine.execVmovImm m p d imm s
  | .vvoteAll m p d a => Sys2Proof.Machine.execVvoteAll m p d a s
  | .vvoteAny m p d a => Sys2Proof.Machine.execVvoteAny m p d a s
  | .vvoteBallot m p d a => Sys2Proof.Machine.execVvoteBallot m p d a s
  | .vshfl m p d a b f => Sys2Proof.Machine.execVshfl m p d a b f s
  | .vred m p d a t f => Sys2Proof.Machine.execVred m p d a t f s
  | .vscan m p d a t f => Sys2Proof.Machine.execVscan m p d a t f s
  | .vext m p d a b => Sys2Proof.Machine.execVext m p d a b s
  | .vins m p d a b => Sys2Proof.Machine.execVins m p d a b s
  | .vfadd m p d a b t => Sys2Proof.Machine.execVfadd m p d a b t s
  | .vfsub m p d a b t => Sys2Proof.Machine.execVfsub m p d a b t s
  | .vfmul m p d a b t => Sys2Proof.Machine.execVfmul m p d a b t s
  | .vfma m p d a b t => Sys2Proof.Machine.execVfma m p d a b t s
  | .vfmin m p d a b t => Sys2Proof.Machine.execVfmin m p d a b t s
  | .vfmax m p d a b t => Sys2Proof.Machine.execVfmax m p d a b t s
  | .vfset m p c n a b t => Sys2Proof.Machine.execVfset m p c n a b t s
  | .vfrcp m p d a t => Sys2Proof.Machine.execVfrcp m p d a t s
  | .vfrsq m p d a t => Sys2Proof.Machine.execVfrsq m p d a t s
  | .vfsqrt m p d a t => Sys2Proof.Machine.execVfsqrt m p d a t s
  | .vfex2 m p d a t => Sys2Proof.Machine.execVfex2 m p d a t s
  | .vflg2 m p d a t => Sys2Proof.Machine.execVflg2 m p d a t s
  | .vfsin m p d a t => Sys2Proof.Machine.execVfsin m p d a t s
  | .vfcos m p d a t => Sys2Proof.Machine.execVfcos m p d a t s
  | .vcvt m p d a u v => Sys2Proof.Machine.execVcvt m p d a u v s
  | .vquant m p d a u => Sys2Proof.Machine.execVquant m p d a u s
  | .vdq m p d a u => Sys2Proof.Machine.execVdq m p d a u s
  | .vcbdec m p d a => Sys2Proof.Machine.execVcbdec m p d a s
  | .vld m p d a b w => Sys2Proof.Machine.execVld m p d a b w s
  | .vldImm m p d a imm => Sys2Proof.Machine.execVldImm m p d a imm s
  | .vst m p d a b w => Sys2Proof.Machine.execVst m p d a b w s
  | .vstImm m p d a imm => Sys2Proof.Machine.execVstImm m p d a imm s
  | .vldu m p d b w => Sys2Proof.Machine.execVldu m p d b w s
  | .vprf m p a b => Sys2Proof.Machine.execVprf m p a b s
  | .vldAcq m p d a b k => Sys2Proof.Machine.execVldAcq m p d a b k s
  | .vstRel m p d a b k => Sys2Proof.Machine.execVstRel m p d a b k s
  | .atomAdd m d a b w o k => Sys2Proof.Machine.execAtomAdd m d a b w o k s
  | .atomAnd m d a b w o k => Sys2Proof.Machine.execAtomAnd m d a b w o k s
  | .atomOr m d a b w o k => Sys2Proof.Machine.execAtomOr m d a b w o k s
  | .atomXor m d a b w o k => Sys2Proof.Machine.execAtomXor m d a b w o k s
  | .atomMin m d a b u w o k => Sys2Proof.Machine.execAtomMin m d a b u w o k s
  | .atomMax m d a b u w o k => Sys2Proof.Machine.execAtomMax m d a b u w o k s
  | .atomXchg m d a b w o k => Sys2Proof.Machine.execAtomXchg m d a b w o k s
  | .atomCas m d a b w o k => Sys2Proof.Machine.execAtomCas m d a b w o k s
  | .fence m k => Sys2Proof.Machine.execFence m k s
  | .fenceAcq m k => Sys2Proof.Machine.execFenceAcq m k s
  | .fenceRel m k => Sys2Proof.Machine.execFenceRel m k s
  | .fenceFlush m => Sys2Proof.Machine.execFenceFlush m s
  | .evinc m a b k => Sys2Proof.Machine.execEvinc m a b k s
  | .waita m d a b => Sys2Proof.Machine.execWaita m d a b s
  | .wakea m a => Sys2Proof.Machine.execWakea m a s
  | .tld m d a b k o => Sys2Proof.Machine.execTld m d a b k o s
  | .tst m d a b k o => Sys2Proof.Machine.execTst m d a b k o s
  | .tcln m d b k => Sys2Proof.Machine.execTcln m d b k s
  | .tinv m d b k => Sys2Proof.Machine.execTinv m d b k s
  | .tdesc m d a b => Sys2Proof.Machine.execTdesc m d a b s
  | .spalloc m d a b => Sys2Proof.Machine.execSpalloc m d a b s
  | .spfree m a b => Sys2Proof.Machine.execSpfree m a b s
  | .spnext m d a => Sys2Proof.Machine.execSpnext m d a s
  | .qbind m q y => Sys2Proof.Machine.execQbind m q y s
  | .qpush m q y n => Sys2Proof.Machine.execQpush m q y n s
  | .qpop m q y n => Sys2Proof.Machine.execQpop m q y n s
  | .qtryPush m q y n f => Sys2Proof.Machine.execQtryPush m q y n f s
  | .qtryPop m q y n f => Sys2Proof.Machine.execQtryPop m q y n f s
  | .qstat m q y => Sys2Proof.Machine.execQstat m q y s
  | .twait m a => Sys2Proof.Machine.execTwait m a s
  | .vqpop m p d q => Sys2Proof.Machine.execVqpop m p d q s
  | .acwinSet m d a b => Sys2Proof.Machine.execAcwinSet m d a b s
  | .acwinClaim m d a => Sys2Proof.Machine.execAcwinClaim m d a s
  | .acwinFree m d a => Sys2Proof.Machine.execAcwinFree m d a s
  | .acrd m p d b => Sys2Proof.Machine.execAcrd m p d b s
  | .acwr m p d b => Sys2Proof.Machine.execAcwr m p d b s
  | .acclr m a => Sys2Proof.Machine.execAcclr m a s
  | .spk24 m p d a b => Sys2Proof.Machine.execSpk24 m p d a b s
  | .cbld m a => Sys2Proof.Machine.execCbld m a s
  | .lacq m d a => Sys2Proof.Machine.execLacq m d a s
  | .lrel m a => Sys2Proof.Machine.execLrel m a s
  | .lstat m d a => Sys2Proof.Machine.execLstat m d a s
  | .lstatRetry m d a => Sys2Proof.Machine.execLstatRetry m d a s
  | .wdone m d a b => Sys2Proof.Machine.execWdone m d a b s
  | .wdoneFail m d a b => Sys2Proof.Machine.execWdoneFail m d a b s
  | .wsig m a b => Sys2Proof.Machine.execWsig m a b s
  | .qrestart m d a => Sys2Proof.Machine.execQrestart m d a s
  | .shpSet m d a b => Sys2Proof.Machine.execShpSet m d a b s
  | .shpGet m d => Sys2Proof.Machine.execShpGet m d s
  | .shpConf m d => Sys2Proof.Machine.execShpConf m d s
  | .salloc m d a => Sys2Proof.Machine.execSalloc m d a s
  | .trap m imm => Sys2Proof.Machine.execTrap m imm s
  | .csrr m d c => Sys2Proof.Machine.execCsrr m d c s
  | .csrw m a c => Sys2Proof.Machine.execCsrw m a c s
  | .seqsv m d a b => Sys2Proof.Machine.execSeqsv m d a b s
  | .seqld m d a b => Sys2Proof.Machine.execSeqld m d a b s
  | .fragsv m d a => Sys2Proof.Machine.execFragsv m d a s
  | .fragld m d a => Sys2Proof.Machine.execFragld m d a s
  | .rte m => Sys2Proof.Machine.execRte m s
  | .brk m => Sys2Proof.Machine.execBrk m s
  | .tmark m a => Sys2Proof.Machine.execTmark m a s
  | .tsc m d => Sys2Proof.Machine.execTsc m d s
  | .tsr m d => Sys2Proof.Machine.execTsr m d s
  | .hintImm m imm => Sys2Proof.Machine.execHintImm m imm s
  | .hintMod m r y => Sys2Proof.Machine.execHintMod m r y s
  | .hintSched m h a => Sys2Proof.Machine.execHintSched m h a s
  | .issueCycle core sched => Sys2Proof.Machine.execIssueCycle core sched s
  | .switchUnpark g u => Sys2Proof.Machine.execSwitchUnpark g u s
  | .interlockReissue g u => Sys2Proof.Machine.execInterlockReissue g u s
  | .loadComplete op => Sys2Proof.Machine.execLoadComplete op s
  | .takenSideReady g u => Sys2Proof.Machine.execTakenSideReady g u s
  | .queueStallResume g u => Sys2Proof.Machine.execQueueStallResume g u s
  | .takeRecord p => Sys2Proof.Machine.execTakeRecord p s
  | .emitSegment c => Sys2Proof.Machine.execEmitSegment c s
  | .upCombine c => Sys2Proof.Machine.execUpCombine c s
  | .barrierRelease c => Sys2Proof.Machine.execBarrierRelease c s
  | .upperContextFaultDelivery c => Sys2Proof.Machine.execUpperContextFaultDelivery c s
  | .watchedSectorWrite sector => Sys2Proof.Machine.execWatchedSectorWrite sector s
  | .tick1ms => Sys2Proof.Machine.execTick1ms s
  | .watchEntryGrant core => Sys2Proof.Machine.execWatchEntryGrant core s
  | .blockRetire b => Sys2Proof.Machine.execBlockRetire b s
  | .regroupComplete g => Sys2Proof.Machine.execRegroupComplete g s
  | .placerTakeEntry cl => Sys2Proof.Machine.execPlacerTakeEntry cl s
  | .matrixTaskStart core => Sys2Proof.Machine.execMatrixTaskStart core s
  | .matrixTaskCommit core eng => Sys2Proof.Machine.execMatrixTaskCommit core eng s
  | .copyCommandStart cl ch => Sys2Proof.Machine.execCopyCommandStart cl ch s
  | .copyCommandComplete cl ch => Sys2Proof.Machine.execCopyCommandComplete cl ch s
  | .streamDelivery core sq => Sys2Proof.Machine.execStreamDelivery core sq s
  | .tileTransferComplete op => Sys2Proof.Machine.execTileTransferComplete op s
  | .cacheMaintenanceComplete op => Sys2Proof.Machine.execCacheMaintenanceComplete op s
  | .tdescComplete op => Sys2Proof.Machine.execTdescComplete op s
  | .atomicReply op => Sys2Proof.Machine.execAtomicReply op s
  | .walkRequest req => Sys2Proof.Machine.execWalkRequest req s
  | .walkComplete wlk => Sys2Proof.Machine.execWalkComplete wlk s
  | .faultRingPoll asid => Sys2Proof.Machine.execFaultRingPoll asid s
  | .parkedReissue g u => Sys2Proof.Machine.execParkedReissue g u s
  | .asyncTrapEntry g => Sys2Proof.Machine.execAsyncTrapEntry g s
  | .preemptionRequest grid tag => Sys2Proof.Machine.execPreemptionRequest grid tag s
  | .preemptTaskDeadline grid => Sys2Proof.Machine.execPreemptTaskDeadline grid s
  | .preemptCopyDeadline grid => Sys2Proof.Machine.execPreemptCopyDeadline grid s
  | .samplingPoint core sched => Sys2Proof.Machine.execSamplingPoint core sched s
  | .traceOvfWrite core => Sys2Proof.Machine.execTraceOvfWrite core s
  | .queueMap q => Sys2Proof.Machine.execQueueMap q s
  | .waitPacketSatisfied thread => Sys2Proof.Machine.execWaitPacketSatisfied thread s
  | .fetchRecord q => Sys2Proof.Machine.execFetchRecord q s
  | .poolPush q => Sys2Proof.Machine.execPoolPush q s
  | .retirement q => Sys2Proof.Machine.execRetirement q s
  | .rungComplete rung => Sys2Proof.Machine.execRungComplete rung s
  | .confirmation grid => Sys2Proof.Machine.execConfirmation grid s
  | .layerFetchStart mdl => Sys2Proof.Machine.execLayerFetchStart mdl s
  | .evictionComplete mdl layer => Sys2Proof.Machine.execEvictionComplete mdl layer s
  | .createPartition r => Sys2Proof.Machine.execCreatePartition r s
  | .createContext r => Sys2Proof.Machine.execCreateContext r s
  | .destroyContext r => Sys2Proof.Machine.execDestroyContext r s
  | .createQueue r => Sys2Proof.Machine.execCreateQueue r s
  | .destroyQueue r => Sys2Proof.Machine.execDestroyQueue r s
  | .loadImage r => Sys2Proof.Machine.execLoadImage r s
  | .registerModelContext r => Sys2Proof.Machine.execRegisterModelContext r s
  | .invalidate r => Sys2Proof.Machine.execInvalidate r s
  | .faultReplyRetry r => Sys2Proof.Machine.execFaultReplyRetry r s
  | .faultReplyFail r => Sys2Proof.Machine.execFaultReplyFail r s
  | .preemptGrid r => Sys2Proof.Machine.execPreemptGrid r s
  | .restoreGrid r => Sys2Proof.Machine.execRestoreGrid r s
  | .resetQueue r => Sys2Proof.Machine.execResetQueue r s
  | .setStopall r => Sys2Proof.Machine.execSetStopall r s
  | .fllStep cl => Sys2Proof.Machine.execFllStep cl s
  | .currentWindowEnd cl => Sys2Proof.Machine.execCurrentWindowEnd cl s
  | .stretchEnd cl => Sys2Proof.Machine.execStretchEnd cl s
  | .halfIssueEnd cl => Sys2Proof.Machine.execHalfIssueEnd cl s
  | .watchdogFire dog => Sys2Proof.Machine.execWatchdogFire dog s
  | .dirtySectorWriteBack core asid tid sector => Sys2Proof.Machine.execDirtySectorWriteBack core asid tid sector s
  | .systemChannelCommand cl w => Sys2Proof.Machine.execSystemChannelCommand cl w s
  | .hostAtomicopCompletion op unsupported => Sys2Proof.Machine.execHostAtomicopCompletion op unsupported s
  | .debugHalt pid => Sys2Proof.Machine.execDebugHalt pid s
  | .containment unit => Sys2Proof.Machine.execContainment unit s
  | .layerFetchEnd mdl outcome => Sys2Proof.Machine.execLayerFetchEnd mdl outcome s
  | .hostPostedWrite req addr data relaxed => Sys2Proof.Machine.execHostPostedWrite req addr data relaxed s
  | .hostRead req addr n => Sys2Proof.Machine.execHostRead req addr n s
  | .pageRequest port pasid va cls => Sys2Proof.Machine.execPageRequest port pasid va cls s
  | .atsTranslationRequest device pasid va cls => Sys2Proof.Machine.execAtsTranslationRequest device pasid va cls s
  | .peerAccess port addr n op => Sys2Proof.Machine.execPeerAccess port addr n op s
  | .flitReceive port seq => Sys2Proof.Machine.execFlitReceive port seq s
  | .flitReplayTimeout port => Sys2Proof.Machine.execFlitReplayTimeout port s
  | .boot => Sys2Proof.Machine.execBoot s
  | .rqwidxDoorbell fn value => Sys2Proof.Machine.execRqwidxDoorbell fn value s
  | .rqcfgWrite fn value => Sys2Proof.Machine.execRqcfgWrite fn value s
  | .fnstatWrite fn value => Sys2Proof.Machine.execFnstatWrite fn value s
  | .registerWrite reg value => Sys2Proof.Machine.execRegisterWrite reg value s
  | .resetEngine r => Sys2Proof.Machine.execResetEngine r s
  | .resetPartition r => Sys2Proof.Machine.execResetPartition r s
  | .resetDie r => Sys2Proof.Machine.execResetDie r s
  | .functionLevelReset r => Sys2Proof.Machine.execFunctionLevelReset r s
  | .wholeDeviceReset r => Sys2Proof.Machine.execWholeDeviceReset r s
  | .provisioningMessage msg => Sys2Proof.Machine.execProvisioningMessage msg s
  | .keySlotLoad slot erase => Sys2Proof.Machine.execKeySlotLoad slot erase s
  | .rackCapMessage seq cap lease => Sys2Proof.Machine.execRackCapMessage seq cap lease s
  | .capLeaseExpiry => Sys2Proof.Machine.execCapLeaseExpiry s
  | .droopTrip cl droopMv => Sys2Proof.Machine.execDroopTrip cl droopMv s
  | .bellowsSample die occupied capacity => Sys2Proof.Machine.execBellowsSample die occupied capacity s
  | .linkPortRetrain port => Sys2Proof.Machine.execLinkPortRetrain port s
  | .atsInvalidateCompletion port inv => Sys2Proof.Machine.execAtsInvalidateCompletion port inv s
  | .systemCoreAccess hart acc => Sys2Proof.Machine.execSystemCoreAccess hart acc s

end Sys2Proof.Machine
end

