-- ==== Sys2Proof/Machine/Place0.lean ====
section
/-!
DEFINITION. A word placed where the next step fetches it: a block of one group on core 0 whose unit is selected, at a code page that its
address space has in the TLB. It stands for the loading of a program from outside the machine.
-/

namespace Sys2Proof.Machine

/-- The PC of the placed word. -/
def placedPc : Word := 0x1000

/-- The address space of the placed group: none that a request can name. -/
def placedAsid (s : State) : Nat := 2 ^ 16 + s.ids

/-- The placed block. -/
def placedBlock (s : State) : Block := { noBlock s.ids with asid := placedAsid s, held := 1 }

/-- The placed group: one ready unit of four lanes at the PC, code without a segment, 64 registers. -/
def placedGroup (s : State) : Group :=
  let g := newGroup (s.ids + 1) (placedBlock s) 0 { slot := 0, gang := 0 } 4 8 0 0 0 placedPc 0 0 s.steps
  { g with segment := .unbounded, units := g.units.map fun u => { u with wait := .ready } }

/-- The frame of the code page: it lies in host memory, which needs no key. -/
def placedFrame : Nat := 2 ^ 48 + 0x1000

/-- A word placed where the next step fetches it. -/
def State.placeWord (s : State) (w : Nat) : State :=
  let leaf : Leaf := { frame := placedFrame, r := true, w := true, x := true, p := false, ord := 1, key := 0 }
  let s' := s.pokes placedFrame (valueBytes 4 w)
  { s' with due := [], sel := some (.unit (s.ids + 1) 0), ids := s.ids + 2, blocks := placedBlock s :: s.blocks, groups := placedGroup s :: s.groups,
            tlb := { asid := placedAsid s, page := 1, leaf := leaf } :: s.tlb }

end Sys2Proof.Machine
end

