-- ==== Sys2Proof/Machine/Schedule.lean ====
section
/-!
DEFINITION. Which event comes next when none is due and no agent is selected: any that is enabled, a request of a function, the end of a
layer fetch whose source lies in memory, or the passing of reference time. Which one is a free choice.
-/

namespace Sys2Proof.Machine

/-! ### Upper contexts -/

/-- The fetch of a selected context's next word: its own word, a hint before it, or the word after that hint. Where something else stands
there by now, the context is selected no longer. -/
def State.fetchContext (s : State) (cid : Nat) : State ⊕ Nat :=
  match s.ctx? cid with
  | none => .inl { s with sel := none }
  | some c =>
    let idle := { s with sel := none }
    let own := match s.standing c with
      | .inr x => decide (x.cls = .own)
      | .inl _ => true
    if c.hint.isNone && !own then .inl idle
    else
      match s.fetchCtx c c.pc with
      | .word w => .inr w
      | .miss => .inl (idle.ctxWalk c c.pc .fetch)
      | f => match fetchFault f with
        | some (cause, extra) => .inl (s.ctxFault c cause c.pc extra)
        | none => .inl idle

/-- A word that is no instruction, at a selected context (R48, R193). -/
def State.undecodableCtx (s : State) (cid w : Nat) : State :=
  match s.ctx? cid with
  | none => { s with sel := none }
  | some c => s.ctxFault c 1 (BitVec.ofNat 64 w) 0

/-! ### Events that may come next -/

/-- The event that a waiting unit may be due. -/
def unitEvents (g : Group) (u : GUnit) : List Instr :=
  match u.wait with
  | .switchPark => [.switchUnpark g.id u.uid]
  | .hold => [.interlockReissue g.id u.uid]
  | .takenSide => [.takenSideReady g.id u.uid]
  | .stall _ => [.queueStallResume g.id u.uid]
  | .parked => [.parkedReissue g.id u.uid]
  | _ => []

/-- Events of groups and their units. -/
def State.groupEvents (s : State) : List Instr :=
  s.groups.flatMap fun g =>
    [.issueCycle g.core (g.slot % 4), .takeRecord (.group g.id), .asyncTrapEntry g.id, .regroupComplete g.id] ++
      g.active.flatMap (unitEvents g)

/-- Events of upper contexts. -/
def State.ctxEvents (s : State) : List Instr :=
  s.ctxs.flatMap fun c =>
    [.takeRecord (.context c.id), .emitSegment c.id, .upCombine c.id, .barrierRelease c.id, .upperContextFaultDelivery c.id,
     .watchdogFire (.blockContext c.id)]

/-- Events of blocks, grids and rungs. -/
def State.workEvents (s : State) : List Instr :=
  (s.blocks.map fun b => .blockRetire b.id) ++
    (s.grids.flatMap fun k => [.confirmation k.id, .preemptTaskDeadline k.id, .preemptCopyDeadline k.id]) ++
    (s.rungs.map fun r => .rungComplete r.id)

/-- Events of memory: pending register writes, tile transfers, walks, replacement. -/
def State.memoryEvents (s : State) : List Instr :=
  (s.writes.map fun w => if w.reply then .atomicReply w.id else .loadComplete w.id) ++
    (s.tileOps.flatMap fun o => [.tileTransferComplete o.id, .cacheMaintenanceComplete o.id, .tdescComplete o.id]) ++
    (s.walks.flatMap fun w => [.walkRequest w.id, .walkComplete w.id]) ++ (s.spaces.map fun x => .faultRingPoll x.asid) ++
    (s.cache.map fun x => .dirtySectorWriteBack x.core x.asid x.tid x.vsec)

/-- Events of cores and clusters and their engines. -/
def State.engineEvents (s : State) : List Instr :=
  (s.cores.flatMap fun c =>
    [.watchEntryGrant c.num, .matrixTaskStart c.num, .matrixTaskCommit c.num 0, .matrixTaskCommit c.num 1, .traceOvfWrite c.num] ++
      ((List.range 4).map fun i => .samplingPoint c.num i) ++ ((List.range 16).map fun i => .streamDelivery c.num i)) ++
  (s.clusters.flatMap fun c =>
    [.placerTakeEntry c.num, .fllStep c.num, .currentWindowEnd c.num, .stretchEnd c.num, .halfIssueEnd c.num] ++
      c.channels.flatMap fun x => [.copyCommandStart c.num x.1, .copyCommandComplete c.num x.1])

/-- Events of queues, threads and models, and the tick of 1 ms. -/
def State.queueEvents (s : State) : List Instr :=
  (s.queues.flatMap fun q => [.queueMap q.qid, .fetchRecord q.qid, .poolPush q.qid, .retirement q.qid] ++
    (match q.thread with
      | some (die, t) => [.waitPacketSatisfied (32 * die + t), .watchdogFire (.fentos (32 * die + t))]
      | none => [])) ++
  (s.models.flatMap fun m => .layerFetchStart m.id :: (List.range m.layers.length).map fun i => .evictionComplete m.id i) ++ [.tick1ms]

/-- Whether an event may come now. -/
def enabled (s : State) (e : Instr) : Bool :=
  match exec e s with
  | .next _ => true
  | _ => false

/-- Every event that may come now. -/
def State.events (s : State) : List Instr :=
  (s.groupEvents ++ s.ctxEvents ++ s.workEvents ++ s.memoryEvents ++ s.engineEvents ++ s.queueEvents).filter (enabled s)

/-- The ends of layer fetches whose source lies in memory (R323). -/
def State.fetchEnds (s : State) : List State :=
  s.models.filterMap fun m => match execLayerFetchEnd m.id .inMemory s with
    | .next t => some t
    | _ => none

/-- The choice of the next event: an event to perform, or the state after what needs none. -/
def State.choose (s0 : State) : Option Instr × State :=
  let s := { s0 with draws := s0.draws + 1 }
  let es := s.events
  let fs := (List.range 65).filter s.mayTakeRequest
  let ls := s.fetchEnds
  let k := Config.choice s0.draws % (es.length + fs.length + ls.length + 1)
  match es[k]?, fs[k - es.length]?, ls[k - es.length - fs.length]? with
  | some e, _, _ => (some e, s)
  | none, some fn, _ => s.takeRequest fn
  | none, none, some t => (none, t)
  | none, none, none => (none, s.passTo (s.tsr.toNat + 1))

end Sys2Proof.Machine
end

