-- ==== Sys2Proof/Machine/Step.lean ====
section
/-!
DEFINITION. One step of the module: an event that is due; else the word of the agent selected; else the event that is chosen
among those that may come next, or the passing of reference time.
-/

namespace Sys2Proof.Machine

/-- One step. -/
def step (s : State) : Host.Outcome State Fault Refusal :=
  match s.due with
  | e :: rest => exec e { s with due := rest }
  | [] =>
    match s.sel with
    | some (.unit g u) =>
      match s.fetchUnit g u with
      | .inr w =>
        match decodeWord w with
        | .ok i => exec i s
        | .error _ => .next (s.undecodable g u w)
      | .inl s' => .next s'
    | some (.context c) =>
      match s.fetchContext c with
      | .inr w =>
        match decodeWord w with
        | .ok i => exec i s
        | .error _ => .next (s.undecodableCtx c w)
      | .inl s' => .next s'
    | none =>
      match s.choose with
      | (some e, s') => exec e s'
      | (none, s') => .next s'

/-- A state in which the next step fetches and runs one word (the interface for the host): a program is loaded from outside the
machine, and this stands for that load. -/
def State.withFetchWord (s : State) (nbits w : Nat) : State := s.placeWord (w % 2 ^ nbits)

end Sys2Proof.Machine
end

