-- ==== Sys2Proof/Safety.lean ====
section
/-!
DEFINITION. What counts as a safe run: no step stops. A trap is no stop: it is a next state, in which the handler runs. And the terms in
which statements say where a word performs its own effect, and what it leaves as it was.
-/

namespace Sys2Proof

/-- A step answers a next state. -/
def Completes (s : Machine.State) : Prop := ∃ t, Machine.step s = .next t

/-- The first `k` steps from a state all answer next states. -/
def RunsFor : Nat → Machine.State → Prop
  | 0, _ => True
  | k + 1, s => ∃ t, Machine.step s = .next t ∧ RunsFor k t

namespace Machine

/-! ### A word about to issue -/

/-- Unit `u` of group `g` issues the word `i` and nothing holds or faults it before its meaning: it is the selected agent and ready, the checks
of R49 pass, no register of the word is a pending token or awaits a write (R16, R35, R305), and no token that it reads first carries a fault
(R16). -/
structure Issues (i : Instr) (s : State) (g : Group) (u : GUnit) : Prop where
  selected : s.sel = some (.unit g.id u.uid)
  group : s.group? g.id = some g
  unit : g.unit? u.uid = some u
  ready : u.wait = .ready
  checks : gate g u i = none
  free : s.stallOf g u i = none
  sound : tokenFault g u i = none

/-- No lost write waits to be reported at the group's next release at `sys` (R438). -/
def NoneLost (s : State) (g : Group) : Prop := s.unsettled.find? (fun x => decide (x.1 = g.id)) = none

/-- Falling through from the unit's PC raises no fault: a back edge, where one is taken, stays within the segment, and the segment does not
end inside a region (R126, R157, R167). -/
def FallsClear (g : Group) (u : GUnit) : Prop :=
  ((backEdge u).pc = u.pc + 4 ∨ inSegment g u (backEdge u).pc = true) ∧
    (u.region = none ∨ g.trap.tmode = true ∨ atEnd g (backEdge u) = false)

/-! ### What a word leaves as it was -/

/-- A core without what issuing words changes in it: its schedulers' runs and the trace packets it holds. -/
def Core.still (c : Core) : Core := { c with scheds := Vector.replicate 4 schedReset, packets := [] }

/-- A cluster without the charge of its current window. -/
def Cluster.still (c : Cluster) : Cluster := { c with window := 0 }

/-- A cached sector without the groups whose touch set holds it. -/
def Sector.still (x : Sector) : Sector := { x with touch := [] }

/-- From `s` to `t` nothing changes but one group's record, the selection, the count of steps, the schedulers and trace packets of cores, the
charge of the current windows, and touch sets: every byte of memory, every other group, every context, block, queue and special register
stands as before. -/
structure OnlyGroup (gid : Nat) (s t : State) : Prop where
  rest : t = { s with groups := t.groups, clusters := t.clusters, cores := t.cores, steps := t.steps, sel := t.sel, cache := t.cache }
  others : ∀ n, n ≠ gid → t.group? n = s.group? n
  clusters : ∀ n, (t.cluster n).still = (s.cluster n).still
  cores : ∀ n, (t.core n).still = (s.core n).still
  cache : t.cache.map Sector.still = s.cache.map Sector.still

/-- `g'` agrees with `g` in everything but its units, its reconvergence entries, and what the trace and the scheduler remember: every
register, predicate, flag, special register and trap register of the group stands as in `g`. -/
def SameRegs (g g' : Group) : Prop :=
  g' = { g with units := g'.units, handler := g'.handler, recon := g'.recon, trace := g'.trace, lastIssue := g'.lastIssue, unread := g'.unread }

/-- `g'` is `g` with scalar `d` holding `v`, and every other scalar as in `g`; a write to `s0` is discarded (R41). A write takes away the
fault of a completed token that no instruction has read (R16). -/
structure ScalarWritten (g g' : Group) (d : Nat) (v : Word) : Prop where
  value : g'.s d = if d = 0 then 0 else v
  others : ∀ r, r ≠ d → g'.s r = g.s r
  tokens : g'.tokFaults = if d = 0 then g.tokFaults else g.tokFaults.filter fun x => decide (x.1 ≠ d)
  rest : g' = { g with sregs := g'.sregs, tokFaults := g'.tokFaults, units := g'.units, handler := g'.handler, recon := g'.recon,
                       trace := g'.trace, lastIssue := g'.lastIssue, unread := g'.unread }

/-- From `g` to `g'` only the `n` vector registers from window field `d` on, in the lanes of `m`, may change, with the generators of those
lanes; the sticky flags only gain, and every scalar, predicate and special register stands (R40, R67, R70, R71). -/
structure OnlyLanes (g g' : Group) (d n : Nat) (m : Mask) : Prop where
  regs : ∀ r l, l < 32 → ¬(m.getLsbD l = true ∧ g.vwin + d ≤ r ∧ r < g.vwin + d + n) → g'.vreg r l = g.vreg r l
  gens : ∀ l, m.getLsbD l = false → g'.gen l = g.gen l
  flags : g.fflg &&& g'.fflg = g.fflg
  rest : g' = { g with vregs := g'.vregs, gens := g'.gens, fflg := g'.fflg, units := g'.units, handler := g'.handler, recon := g'.recon,
                       trace := g'.trace, lastIssue := g'.lastIssue, unread := g'.unread }

/-- From `g` to `g'` only predicate `n` may change, and only in the lanes of `m`; the sticky flags only gain (R41, R70). -/
structure OnlyPred (g g' : Group) (n : Nat) (m : Mask) : Prop where
  lanes : ∀ k l, ¬(k = n ∧ m.getLsbD l = true) → (g'.p k).getLsbD l = (g.p k).getLsbD l
  flags : g.fflg &&& g'.fflg = g.fflg
  rest : g' = { g with preds := g'.preds, fflg := g'.fflg, units := g'.units, handler := g'.handler, recon := g'.recon,
                       trace := g'.trace, lastIssue := g'.lastIssue, unread := g'.unread }

/-- The unit is its group's only one: the handler unit in trap mode, or the undivided group (R147, R188). -/
def Alone (g : Group) (u : GUnit) : Prop :=
  (g.trap.tmode = false ∧ g.units = [u] ∧ u.wait = .ready) ∨ (g.trap.tmode = true ∧ g.handler = some u)

/-- In `t` a unit of the group stands as `u` does: at its PC, with its lanes, FMT, loop levels, call stack and region. What it waits for, its
innermost reconvergence entry and its hint are not said. -/
def Stands (t : State) (gid : Nat) (u : GUnit) : Prop :=
  ∃ g' u', t.group? gid = some g' ∧ u' ∈ g'.active ∧
    u' = { u with wait := u'.wait, entry := u'.entry, hint := u'.hint, skipBp := u'.skipBp, unfinished := u'.unfinished, ordered := u'.ordered,
                  since := u'.since }

/-- The state `t` after a word of group `gid`: `s` as the word's effect on the rest of the machine leaves it, and the group with the
registers of `g`. -/
structure After (gid : Nat) (s : State) (g : Group) (t : State) : Prop where
  only : OnlyGroup gid s t
  group : ∃ g', t.group? gid = some g' ∧ SameRegs g g'

/-- A word's next PC raises no fault: its segment does not end there inside a region (R126, R157). -/
def LandsClear (g : Group) (u : GUnit) : Prop := u.region = none ∨ g.trap.tmode = true ∨ atEnd g u = false

/-- A word completes: besides its own group nothing changes but what `s'` changes, the group's registers are those of `g`, and the unit goes on
as `u` says. -/
def GoesTo (i : Instr) (s s' : State) (g : Group) (u : GUnit) : Prop := ∃ t, exec i s = .next t ∧ After g.id s' g t ∧ Stands t g.id u

/-- A unit may go on at the PC of `u`: its segment allows the transfer, does not end there inside a region, and either the unit is its group's only
one or it does not complete its segment there (which may fuse it with others, R126, R153). -/
structure MayGo (g : Group) (u0 u : GUnit) : Prop where
  target : inSegment g u0 u.pc = true
  lands : LandsClear g u
  apart : Alone g u0 ∨ atEnd g u = false

/-- A unit that its word leaves as `u` may fall through: the back edge or the next word raises no fault, and the unit stays apart as in `MayGo`. -/
structure MayFall (g : Group) (u0 u : GUnit) : Prop where
  clear : FallsClear g u
  apart : Alone g u0 ∨ atEnd g (backEdge u) = false

/-- A context about to execute a word alone: it is the selected agent, scanning, at its own scope, and the word's codes and hint are valid
there (R42, R49, R125). -/
structure CtxIssues (i : Instr) (s : State) (c : Ctx) : Prop where
  selected : s.sel = some (.context c.id)
  context : s.ctx? c.id = some c
  scanning : c.frozen = false ∧ c.state = .scanning
  codes : codesOk c.hint c.scope 0 i = true
  hinted : hintOk c.hint i = true

end Machine

end Sys2Proof
end

