-- ==== Sys2Proof/WellFormed.lean ====
section
/-!
DEFINITION. Well-formed instruction words: those that pass checks 2 and 3 of R49 at the unit that owns them. An event is
always well-formed. Decoding answers every word that the opcode map lists; a word that is not well-formed raises
the illegal-instruction fault when it is executed (R48, R50).
-/

namespace Sys2Proof

/-- A word whose codes, reserved fields and register numbers are valid (R49, checks 2 and 3), standing alone, for any FMT: at its owner, and
for an `up` at its senders (R170). -/
abbrev WellFormed (i : Instr) : Prop :=
  Machine.codesOk none (Machine.ownerScope i) 15 i = true ∧ Machine.codesOk none (Machine.senderScope i) 15 i = true

end Sys2Proof
end

