-- ==== Sys2Proof/Certificates/Slice0/Obligations.lean ====
section
/-!
DEFINITION. The statements of this slice. Each says what the spec's rules say of the machine, in terms of `step`, of the meanings that
`exec` gives, and of the states before and after. A statement about a word speaks of every state in which a unit of a group (or the context
that owns the word) issues it and nothing faults it before its meaning (`Issues`), and its conclusion is the next state.
-/

open Sys2Proof Sys2Proof.Machine

/-! ### Steps and words -/

/-- A step with nothing due runs the word that the selected agent fetches (R33, R125, R148): it is exec of that word at that state. A fetched
word that is no instruction takes the fault that the spec names; and an event that is due comes first, as the model orders its events. -/
def Sys2Proof.Stated.StepRuns : Prop :=
  (∀ (s : State) (g u w : Nat) (i : Instr), s.due = [] → s.sel = some (.unit g u) → s.fetchUnit g u = .inr w → decodeWord w = .ok i →
    step s = exec i s) ∧
  (∀ (s : State) (c w : Nat) (i : Instr), s.due = [] → s.sel = some (.context c) → s.fetchContext c = .inr w → decodeWord w = .ok i →
    step s = exec i s) ∧
  (∀ (s : State) (e : Instr) (rest : List Instr), s.due = e :: rest → step s = exec e { s with due := rest })

/-- A word placed after reset by the host's interface is fetched whole, and the very next step runs it (the model's own statement: the
placing stands for a program loaded from outside the machine). -/
def Sys2Proof.Stated.PlacedWordRuns : Prop :=
  ∀ (w : Nat) (i : Instr), decodeWord (w % 2 ^ 32) = .ok i →
    step (State.reset.withFetchWord 32 w) = exec i (State.reset.withFetchWord 32 w)

/-- Words written out from the spec's encodings decode to the instructions that they stand for (R33, R36, R47). -/
def Obligations.WordsDecode : Prop :=
  -- `vadd.s32 v2, v0, v1`: opcode 0x20, d 2, a 0, b 1, type 0 (R36, R84)
  decodeWord 0x20010008 = .ok (.vadd 0 0 2 0 1 0) ∧
  -- `vfma.f32 v6, v6, v7, v8`: opcode 0x43, d 6, a 7, b 8, type 1 (R96)
  decodeWord 0x43030E41 = .ok (.vfma 0 0 6 7 8 1) ∧
  -- `sadd.s64 s5, s6, s7`: opcode 0x10, d 5, a 6, b 7, type 2 (R76, R77)
  decodeWord 0x10298F00 = .ok (.sadd 0 5 6 7 2) ∧
  -- `br.g s1, -1`: opcode 0x01, scope 1, condition 1, offset 0xFFFF (R164)
  decodeWord 0x0121FFFF = .ok (.br 0 1 1 0xFFFF) ∧
  -- `waita s12, [s7], s8`: d 12, a 7, b 8, function 0 (R243)
  decodeWord 0x5C61D000 = .ok (.waita 0 12 7 8) ∧
  -- `tst.rel.dev s20, s22, [s21]` and `tld.acq.dev s20, s22, [s21]` (R249)
  decodeWord 0x5DA56C71 = .ok (.tst 0 20 21 22 3 2) ∧ decodeWord 0x5DA56C68 = .ok (.tld 0 20 21 22 3 1) ∧
  -- `wdone s3, s11, s10` and its `.fail` form (R349)
  decodeWord 0x731AD400 = .ok (.wdone 0 3 11 10) ∧ decodeWord 0x731AD401 = .ok (.wdoneFail 0 3 11 10) ∧
  -- `rte` (R206)
  decodeWord 0x7A000004 = .ok (.rte 0) ∧
  -- an all-zero word and a word of all ones are no instructions (R48)
  decodeWord 0 = .error .unassignedOpcode ∧ decodeWord 0xFFFFFFFF = .error .unassignedOpcode

/-- Decoding the word of an instruction gives the instruction back, for every value of every operand that its fields hold: no bit of an encoding
is dropped (R33, R36, R47). -/
def Obligations.DecodeOfEncode : Prop := ∀ (i : Instr) (w : Nat), encodeNat i = some w → w < 2 ^ 32 ∧ decodeWord w = .ok i

/-- A word that decodes is the word of the instruction that it decodes to: no instruction has two words, and a word with a non-zero reserved
field decodes to none (R36, R48). -/
def Obligations.EncodeOfDecode : Prop := ∀ (w : Nat) (i : Instr), w < 2 ^ 32 → decodeWord w = .ok i → encodeNat i = some w


namespace Sys2Proof.Stated

/-- A scalar operation by type: over 64 bits, or over bits [31:0] with the result sign- or zero-extended (R76). -/
def byType (t : BitVec 2) (f : (w : Nat) → Bool → BitVec w → BitVec w → BitVec w) (x y : Word) : Word :=
  if t = 0 then (f 32 true (x.setWidth 32) (y.setWidth 32)).signExtend 64
  else if t = 1 then (f 32 false (x.setWidth 32) (y.setWidth 32)).setWidth 64
  else f 64 (decide (t = 2)) x y

/-- Values read as signed or unsigned by type. -/
def asInt {w : Nat} (signed : Bool) (x : BitVec w) : Int := if signed then x.toInt else (x.toNat : Int)

/-- Whether condition `c` of R38 (0 to 5: eq, ne, lt, le, gt, ge) holds between two numbers. -/
def holds (c : Nat) (x y : Int) : Bool :=
  match c with
  | 0 => decide (x = y)
  | 1 => decide (x ≠ y)
  | 2 => decide (x < y)
  | 3 => decide (x ≤ y)
  | 4 => decide (y < x)
  | _ => decide (y ≤ x)

/-- A word that writes one scalar: it writes the value into its destination and goes on; a destination `s0` discards it. It changes nothing
else: no other scalar, no vector register, predicate, flag or special register, no other group, no context, and no byte of memory. -/
def writesScalar (i : Instr) (d : BitVec 5) (value : State → Group → GUnit → Word) : Prop :=
  ∀ (s : State) (g : Group) (u : GUnit), Issues i s g u → FallsClear g u →
    ∃ t g', exec i s = .next t ∧ OnlyGroup g.id s t ∧ t.group? g.id = some g' ∧ ScalarWritten g g' d.toNat (value s g u)

/-- A scalar word of two operands and a type. -/
def scalarOp (word : BitVec 1 → BitVec 5 → BitVec 5 → BitVec 5 → BitVec 2 → Instr) (f : (w : Nat) → Bool → BitVec w → BitVec w → BitVec w) : Prop :=
  ∀ m d a b t, writesScalar (word m d a b t) d fun _ g _ => byType t f (g.s a.toNat) (g.s b.toNat)

end Sys2Proof.Stated

open Sys2Proof.Stated

/-! ### Words of the group scalars (R76 to R81, R179, R408) -/

/-- The scalar arithmetic words (R77): sum, difference, low and high half of the product, quotient (all ones for a zero divisor, the wrapped
quotient where it does not fit), smaller and larger. -/
def Sys2Proof.Stated.ScalarArithmetic : Prop :=
  scalarOp .sadd (fun _ _ x y => x + y) ∧
  scalarOp .ssub (fun _ _ x y => x - y) ∧
  scalarOp .smul (fun _ _ x y => x * y) ∧
  scalarOp .smulh (fun w sg x y => BitVec.ofInt w (asInt sg x * asInt sg y / 2 ^ w)) ∧
  scalarOp .sdiv (fun w sg x y => if y = 0 then ~~~0 else BitVec.ofInt w ((asInt sg x).tdiv (asInt sg y))) ∧
  scalarOp .smin (fun w sg x y => BitVec.ofInt w (min (asInt sg x) (asInt sg y))) ∧
  scalarOp .smax (fun w sg x y => BitVec.ofInt w (max (asInt sg x) (asInt sg y)))

/-- The scalar logic words and shifts; a count is taken modulo the operating width (R78). -/
def Sys2Proof.Stated.ScalarLogic : Prop :=
  scalarOp .sand (fun _ _ x y => x &&& y) ∧
  scalarOp .sor (fun _ _ x y => x ||| y) ∧
  scalarOp .sxor (fun _ _ x y => x ^^^ y) ∧
  scalarOp .sshl (fun w _ x y => x <<< (y.toNat % w)) ∧
  scalarOp .sshr (fun w _ x y => x >>> (y.toNat % w)) ∧
  scalarOp .ssar (fun w _ x y => x.sshiftRight (y.toNat % w))

/-- Compare (R79), the immediates (R81), the unit's FMT (R179), and the two clocks (R408). -/
def Sys2Proof.Stated.ScalarMoves : Prop :=
  (∀ m d a b t c, writesScalar (.sset m d a b t c) d fun _ g _ =>
    byType t (fun _ sg x y => if holds c.toNat (asInt sg x) (asInt sg y) then 1 else 0) (g.s a.toNat) (g.s b.toNat)) ∧
  (∀ m d a i, writesScalar (.sli m d a i) d fun _ g u => g.s a.toNat + BitVec.ofInt 64 (imm14 u.hint i)) ∧
  (∀ m d a i, writesScalar (.slui m d a i) d fun _ g u => g.s a.toNat + BitVec.ofInt 64 (imm14 u.hint i * 2 ^ 26)) ∧
  (∀ m d, writesScalar (.fmtGet m d) d fun _ _ u => u.fmt) ∧
  (∀ m d, writesScalar (.tsc m d) d fun s g _ => (s.cluster (clusterOfCore g.core)).tsc) ∧
  (∀ m d, writesScalar (.tsr m d) d fun s _ _ => s.tsr)


namespace Sys2Proof.Stated

/-- What a vector word gives one active lane: the values of its destination registers from the lowest on, the flags that it raises there, and
the lane's generator state after it. -/
structure LaneResult where
  regs  : List Word32
  flags : BitVec 6
  gen   : Word32

/-- A word that writes `n` registers from field `d` on, lane by lane (R70, R71). In every active lane it writes the values that `result` gives
from the registers before the word, so that every source is read before anything is written; the flags of the active lanes are ORed into FFLG
(R67). In an inactive lane, and in every other register, nothing changes; nor does any scalar, predicate, other generator, special register,
other group, context, or byte of memory. With an empty active mask nothing at all is written (R72). -/
def writesLanes (i : Instr) (d : BitVec 6) (n : Nat) (result : State → Group → GUnit → Nat → LaneResult)
    (ok : Group → GUnit → Prop := fun _ _ => True) : Prop :=
  ∀ (s : State) (g : Group) (u : GUnit), Issues i s g u → FallsClear g u → ok g u →
    let m := activeMask g u (predField i)
    ∃ t g', exec i s = .next t ∧ OnlyGroup g.id s t ∧ t.group? g.id = some g' ∧ OnlyLanes g g' d.toNat n m ∧
      (∀ l, l < 32 → m.getLsbD l = true → g'.gen l = (result s g u l).gen ∧
        ∀ k, k < n → g'.v (d.toNat + k) l = (result s g u l).regs.getD k 0) ∧
      g'.fflg = (lanesOf m).foldl (fun f l => f ||| (result s g u l).flags) g.fflg

/-- A value that raises no flag, the generator standing. -/
def plain (g : Group) (l : Nat) (x : Word32) : LaneResult := ⟨[x], 0, g.gen l⟩

/-- A lane value read by type: signed for `.s32` (0), unsigned otherwise (R83). -/
def laneNum (t : Nat) (x : Word32) : Int := asInt (decide (t = 0)) x

/-- The least number of a lane type (R83). -/
def laneMin (t : Nat) : Int := if t = 0 then -(2 ^ 31) else 0

/-- The greatest number of a lane type (R83). -/
def laneMax (t : Nat) : Int := if t = 0 then 2 ^ 31 - 1 else 2 ^ 32 - 1

/-- An exact result as a lane holds it: with saturation in force it is clamped to the type's range, which raises SA, else it wraps (R83). -/
def narrowed (g : Group) (l t : Nat) (sat : Bool) (e : Int) : LaneResult :=
  if sat = true ∧ e < laneMin t then ⟨[BitVec.ofInt 32 (laneMin t)], SA, g.gen l⟩
  else if sat = true ∧ laneMax t < e then ⟨[BitVec.ofInt 32 (laneMax t)], SA, g.gen l⟩
  else ⟨[BitVec.ofInt 32 e], 0, g.gen l⟩

/-- An integer word of two sources and a type; whether saturation serves it, and its exact result from the two numbers (R84). -/
def intOp (word : BitVec 1 → BitVec 3 → BitVec 6 → BitVec 6 → BitVec 6 → BitVec 3 → Instr) (saturates : Bool) (f : Int → Int → Int) : Prop :=
  ∀ m p d a b t, writesLanes (word m p d a b t) d 1 fun _ g u l =>
    narrowed g l t.toNat (saturates && satInForce u.fmt u.hint) (f (laneNum t.toNat (g.v a.toNat l)) (laneNum t.toNat (g.v b.toNat l)))

/-- A word of two sources, bit by bit or by the value of the second (R87, R88). -/
def bitOp (word : BitVec 1 → BitVec 3 → BitVec 6 → BitVec 6 → BitVec 6 → Instr) (f : Word32 → Word32 → Word32) : Prop :=
  ∀ m p d a b, writesLanes (word m p d a b) d 1 fun _ g _ l => plain g l (f (g.v a.toNat l) (g.v b.toNat l))

/-- A shift by an immediate; the type suffix changes no result (R88). -/
def shiftOp (word : BitVec 1 → BitVec 3 → BitVec 6 → BitVec 6 → BitVec 5 → BitVec 1 → Instr) (f : Word32 → Nat → Word32) : Prop :=
  ∀ m p d a n t, writesLanes (word m p d a n t) d 1 fun _ g _ l => plain g l (f (g.v a.toNat l) n.toNat)

/-- A word of one source (R86, R89, R94). -/
def unaryOp (word : BitVec 1 → BitVec 3 → BitVec 6 → BitVec 6 → Instr) (f : Word32 → Word32) : Prop :=
  ∀ m p d a, writesLanes (word m p d a) d 1 fun _ g _ l => plain g l (f (g.v a.toNat l))

/-- The word of format A of an opcode with its destination, first source and predicate, and zeros below (R36). -/
def maskedWord (op : Nat) (m : BitVec 1) (p : BitVec 3) (d a : BitVec 6) : Nat :=
  m.toNat * 2 ^ 31 + op * 2 ^ 24 + p.toNat * 2 ^ 21 + d.toNat * 2 ^ 15 + a.toNat * 2 ^ 9

/-- The four steps of R58 that advance a generator. -/
def advanced (x : Word32) : Word32 :=
  let x := x ^^^ (x <<< 13)
  let x := x ^^^ (x >>> 17)
  x ^^^ (x <<< 5)

/-- A word that writes a predicate: in every active lane the truth value that `value` gives, and nothing else; no other predicate, no inactive
lane, no register, nothing of the rest of the machine, and of the flags only those that `flags` gives. A destination `p0` is no case of it:
such a word fails the checks (R41, R49). -/
def writesPredicate (i : Instr) (n : BitVec 3) (value : Group → GUnit → Nat → Bool)
    (flags : Group → GUnit → Nat → BitVec 6 := fun _ _ _ => 0) : Prop :=
  ∀ (s : State) (g : Group) (u : GUnit), Issues i s g u → FallsClear g u →
    let m := activeMask g u (predField i)
    n ≠ 0 ∧ ∃ t g', exec i s = .next t ∧ OnlyGroup g.id s t ∧ t.group? g.id = some g' ∧ OnlyPred g g' n.toNat m ∧
      (∀ l, l < 32 → m.getLsbD l = true → (g'.p n.toNat).getLsbD l = value g u l) ∧
      g'.fflg = (lanesOf m).foldl (fun f l => f ||| flags g u l) g.fflg

end Sys2Proof.Stated

/-! ### Vector integer, predicate and move words (R58, R83 to R94, R108, R109) -/

/-- The integer arithmetic words, exact and then wrapped or clamped (R83 to R85, R90). -/
def Sys2Proof.Stated.LaneArithmetic : Prop :=
  intOp .vadd true (fun x y => x + y) ∧ intOp .vsub true (fun x y => x - y) ∧ intOp .vmul true (fun x y => x * y) ∧
  intOp .vmulh false (fun x y => x * y / 2 ^ 32) ∧ intOp .vmin false min ∧ intOp .vmax false max ∧
  (∀ m p d a b t, writesLanes (.vmad m p d a b t) d 1 fun _ g u l =>
    narrowed g l t.toNat (satInForce u.fmt u.hint)
      (laneNum t.toNat (g.v d.toNat l) * laneNum t.toNat (g.v a.toNat l) + laneNum t.toNat (g.v b.toNat l))) ∧
  (∀ m p d a i t, writesLanes (.vaddImm m p d a i t) d 1 fun _ g u l =>
    narrowed g l t.toNat (satInForce u.fmt u.hint)
      (laneNum t.toNat (g.v a.toNat l) + laneNum t.toNat (imm8 u.hint (decide (t = 1)) i))) ∧
  (∀ m p d a i t, writesLanes (.vmulImm m p d a i t) d 1 fun _ g u l =>
    narrowed g l t.toNat (satInForce u.fmt u.hint)
      (laneNum t.toNat (g.v a.toNat l) * laneNum t.toNat (imm8 u.hint (decide (t = 1)) i))) ∧
  (∀ m p d a w t, writesLanes (.vsat m p d a w t) d 1 fun _ g _ l =>
    let x := laneNum t.toNat (g.v a.toNat l)
    let lo : Int := if t = 0 then -(2 ^ (w.toNat - 1)) else 0
    let hi : Int := if t = 0 then 2 ^ (w.toNat - 1) - 1 else 2 ^ w.toNat - 1
    if x < lo then ⟨[BitVec.ofInt 32 lo], SA, g.gen l⟩ else if hi < x then ⟨[BitVec.ofInt 32 hi], SA, g.gen l⟩ else plain g l (g.v a.toNat l))

/-- The words that shift each lane, by a lane's count modulo 32 or by an immediate (R88). -/
def Sys2Proof.Stated.LaneShifts : Prop :=
  bitOp .vshl (fun x y => x <<< (y.toNat % 32)) ∧ bitOp .vshr (fun x y => x >>> (y.toNat % 32)) ∧
  bitOp .vsar (fun x y => x.sshiftRight (y.toNat % 32)) ∧
  shiftOp .vshlImm (fun x n => x <<< n) ∧ shiftOp .vshrImm (fun x n => x >>> n) ∧ shiftOp .vsarImm (fun x n => x.sshiftRight n)

/-- `ssel` and `vsel` (R80, R91): a scalar that is not 0, or a predicate that is true, selects *a*, and else *b*; predicate 0 selects *a* in every lane.
A word of their opcodes is an instruction exactly when it is one of them in the encoding given. -/
def Obligations.SelectWords : Prop :=
  (∀ m d a b c, writesScalar (.ssel m d a b c) d fun _ g _ => if g.s c.toNat ≠ 0 then g.s a.toNat else g.s b.toNat) ∧
  (∀ (w : Nat) (i : Instr), w < 2 ^ 32 → w / 2 ^ 24 % 2 ^ 7 = 0x13 → (decodeWord w = .ok i ↔ ∃ (m : BitVec 1) (d a b c : BitVec 5), i = .ssel m d a b c ∧
    w = m.toNat * 2 ^ 31 + 0x13 * 2 ^ 24 + d.toNat * 2 ^ 19 + a.toNat * 2 ^ 14 + b.toNat * 2 ^ 9 + c.toNat)) ∧
  (∀ m p d a b n, writesLanes (.vsel m p d a b n) d 1 fun _ g _ l =>
    plain g l (if n = 0 ∨ (g.p n.toNat).getLsbD l = true then g.v a.toNat l else g.v b.toNat l)) ∧
  (∀ (w : Nat) (i : Instr), w < 2 ^ 32 → w / 2 ^ 24 % 2 ^ 7 = 0x2C → (decodeWord w = .ok i ↔ ∃ (m : BitVec 1) (p : BitVec 3) (d a b : BitVec 6) (n : BitVec 3), i = .vsel m p d a b n ∧
    w = maskedWord 0x2C m p d a + b.toNat * 2 ^ 3 + n.toNat))

/-- `vabs`, `vand`, `vor`, `vxor`, `vandn`, `vclz` and `vpopc` (R86, R87, R89): the magnitude of a lane read as signed, where −2³¹ gives 0x8000_0000, with no
flag; the bitwise words; the leading zero bits, 32 for 0, and the one bits of a lane. A word of their opcodes is an instruction exactly when it is one of them in
the encoding given. -/
def Obligations.BitwiseWords : Prop :=
  unaryOp .vabs (fun x => if x = 0x80000000#32 then 0x80000000#32 else if x.toInt < 0 then -x else x) ∧
  bitOp .vand (fun x y => x &&& y) ∧ bitOp .vor (fun x y => x ||| y) ∧ bitOp .vxor (fun x y => x ^^^ y) ∧ bitOp .vandn (fun x y => x &&& ~~~y) ∧
  unaryOp .vclz (fun x => BitVec.ofNat 32 (if x = 0 then 32 else 31 - x.toNat.log2)) ∧
  unaryOp .vpopc (fun x => BitVec.ofNat 32 ((List.range 32).filter x.getLsbD).length) ∧
  (∀ (w : Nat) (i : Instr), w < 2 ^ 32 → w / 2 ^ 24 % 2 ^ 7 = 0x27 → (decodeWord w = .ok i ↔ ∃ (m : BitVec 1) (p : BitVec 3) (d a : BitVec 6), i = .vabs m p d a ∧
    w = maskedWord 0x27 m p d a)) ∧
  (∀ (w : Nat) (i : Instr), w < 2 ^ 32 → w / 2 ^ 24 % 2 ^ 7 = 0x28 → (decodeWord w = .ok i ↔ ∃ (m : BitVec 1) (p : BitVec 3) (d a b : BitVec 6) (f : Nat),
    ((f = 0 ∧ i = .vand m p d a b) ∨ (f = 1 ∧ i = .vor m p d a b) ∨ (f = 2 ∧ i = .vxor m p d a b) ∨ (f = 3 ∧ i = .vandn m p d a b)) ∧
    w = maskedWord 0x28 m p d a + b.toNat * 2 ^ 3 + f)) ∧
  (∀ (w : Nat) (i : Instr), w < 2 ^ 32 → w / 2 ^ 24 % 2 ^ 7 = 0x2A → (decodeWord w = .ok i ↔ ∃ (m : BitVec 1) (p : BitVec 3) (d a : BitVec 6) (f : Nat),
    ((f = 0 ∧ i = .vclz m p d a) ∨ (f = 1 ∧ i = .vpopc m p d a)) ∧ w = maskedWord 0x2A m p d a + f))

/-- Moves, the lane number, the generator, and the shuffle, whose source lane is read whether or not it is active (R58, R94,
R107, R109). -/
def Sys2Proof.Stated.LaneMoves : Prop :=
  unaryOp .vmov (fun x => x) ∧
  (∀ m p d a, writesLanes (.vbcast m p d a) d 1 fun _ g _ l => plain g l ((g.s a.toNat).setWidth 32)) ∧
  (∀ m p d, writesLanes (.vlane m p d) d 1 fun _ g _ l => plain g l (BitVec.ofNat 32 l)) ∧
  (∀ m p d i, writesLanes (.vmovImm m p d i) d 1 fun _ g u l => plain g l (imm8 u.hint false i)) ∧
  (∀ m p d, writesLanes (.vrand m p d) d 1 fun _ g _ l => ⟨[advanced (g.gen l)], 0, advanced (g.gen l)⟩) ∧
  (∀ m p d a b f, writesLanes (.vshfl m p d a b f) d 1 fun _ g _ l =>
    let n := (g.s b.toNat).toNat
    let src := if f = 0 then n % g.width else if f = 1 then (if n ≤ l then l - n else l)
      else if f = 2 then (if l + n < g.width then l + n else l) else (if l ^^^ n < g.width then l ^^^ n else l)
    plain g l (g.v a.toNat src))

/-- Compares, predicate logic and votes (R92, R93, R108). -/
def Obligations.PredicateResult : Prop :=
  (∀ m p c n a b t, writesPredicate (.vset m p c n a b t) n fun g _ l =>
    holds c.toNat (laneNum t.toNat (g.v a.toNat l)) (laneNum t.toNat (g.v b.toNat l))) ∧
  (∀ m p c n a i t, writesPredicate (.vsetImm m p c n a i t) n fun g u l =>
    holds c.toNat (laneNum t.toNat (g.v a.toNat l)) (laneNum t.toNat (imm8 u.hint (decide (t = 1)) i))) ∧
  (∀ m p d a b, writesPredicate (.pand m p d a b) d fun g _ l => (g.p a.toNat).getLsbD l && (g.p b.toNat).getLsbD l) ∧
  (∀ m p d a b, writesPredicate (.por m p d a b) d fun g _ l => (g.p a.toNat).getLsbD l || (g.p b.toNat).getLsbD l) ∧
  (∀ m p d a b, writesPredicate (.pxor m p d a b) d fun g _ l => (g.p a.toNat).getLsbD l ^^ (g.p b.toNat).getLsbD l) ∧
  (∀ m p d a, writesPredicate (.pnot m p d a) d fun g _ l => !(g.p a.toNat).getLsbD l) ∧
  (∀ m p d a, writesPredicate (.vvoteAll m p d a) d fun g u _ =>
    (List.range 32).all fun k => !(activeMask g u p.toNat).getLsbD k || (g.p a.toNat).getLsbD k) ∧
  (∀ m p d a, writesPredicate (.vvoteAny m p d a) d fun g u _ =>
    (List.range 32).any fun k => (activeMask g u p.toNat).getLsbD k && (g.p a.toNat).getLsbD k)


namespace Sys2Proof.Stated

/-- How many registers a lane's value of a float type takes: a pair for `.f64` (R40, R95). -/
def typeRegs (t : Nat) : Nat := if t = 0 then 2 else 1

/-- Elements of a lane, packed with element 0 lowest, as the registers that hold them from the lowest on (R53). -/
def packed (w n : Nat) (xs : List Nat) : List Word32 :=
  (List.range n).map fun r => BitVec.ofNat 32 (packElems w xs / 2 ^ (32 * r))

/-- A word that rounds one exact result per element, in ascending order, in the mode in force; in mode `rs` each rounding advances the lane's
generator (R54 to R58, R95). -/
def rounded (code n : Nat) (g : Group) (u : GUnit) (l : Nat) (exact : List (ExactNum × BitVec 6)) : LaneResult :=
  let r := roundElems code (roundingOf u) (g.gen l) exact
  ⟨packed (formatWidth code) n r.1, r.2.1, r.2.2⟩

/-- A float word of two sources (R96). -/
def floatOp (word : BitVec 1 → BitVec 3 → BitVec 6 → BitVec 6 → BitVec 6 → BitVec 3 → Instr) (f : Mode → ExactNum → ExactNum → ExactNum × BitVec 6) : Prop :=
  ∀ m p d a b t, writesLanes (word m p d a b t) d (typeRegs t.toNat) fun _ g u l =>
    rounded t.toNat (typeRegs t.toNat) g u l
      (((laneNums g t.toNat (fmtFtz u.fmt) a.toNat l).zip (laneNums g t.toNat (fmtFtz u.fmt) b.toNat l)).map fun x =>
        f (modeInForce u.fmt u.hint) x.1 x.2)

/-- A special function (R99). -/
def specialOp (word : BitVec 1 → BitVec 3 → BitVec 6 → BitVec 6 → BitVec 3 → Instr) (f : ExactNum → ExactNum × BitVec 6) : Prop :=
  ∀ m p d a t, writesLanes (word m p d a t) d (typeRegs t.toNat) fun _ g u l =>
    rounded t.toNat (typeRegs t.toNat) g u l ((laneNums g t.toNat (fmtFtz u.fmt) a.toNat l).map f)

/-- The smaller or larger of two operands: no rounding; NV where one is NaN, the other is the result, and two give NaN (R97). -/
def picked (larger : Bool) (x y : ExactNum) : ExactNum × BitVec 6 :=
  if x = .nan then (y, NV) else if y = .nan then (x, NV) else (if lessOrSame x y = larger then y else x, 0)

/-- A word whose result is one of its operands (R97). -/
def pickOp (word : BitVec 1 → BitVec 3 → BitVec 6 → BitVec 6 → BitVec 6 → BitVec 3 → Instr) (larger : Bool) : Prop :=
  ∀ m p d a b t, writesLanes (word m p d a b t) d (typeRegs t.toNat) fun _ g u l =>
    let rs := ((laneNums g t.toNat (fmtFtz u.fmt) a.toNat l).zip (laneNums g t.toNat (fmtFtz u.fmt) b.toNat l)).map fun x => picked larger x.1 x.2
    ⟨packed (formatWidth t.toNat) (typeRegs t.toNat) (rs.map fun r => (roundFloat t.toNat .rn false false 0 r.1).1),
      rs.foldl (fun f r => f ||| r.2) 0, g.gen l⟩

/-- Whether condition `c` of R38 holds between two floats, and the flag that it raises (R98). -/
def floatHolds (c : Nat) (x y : ExactNum) : Bool × BitVec 6 :=
  if x = .nan ∨ y = .nan then (decide (c = 6 ∨ c = 1), if 2 ≤ c ∧ c ≤ 5 then NV else 0)
  else (match c, cmpNum x y with
    | 0, some .eq => true
    | 1, some .lt => true
    | 1, some .gt => true
    | 2, some .lt => true
    | 3, some .lt => true
    | 3, some .eq => true
    | 4, some .gt => true
    | 5, some .gt => true
    | 5, some .eq => true
    | _, _ => false, 0)

/-- A finite number in units of 2^e, where e is at most its exponent. -/
def scaled (e : Int) (neg : Bool) (man : Nat) (exp : Int) : Int :=
  let x : Int := (man * 2 ^ (exp - e).toNat : Nat)
  if neg then -x else x

/-- What a conversion gives a lane: one side of R102. -/
def converted (g : Group) (u : GUnit) (l : Nat) (dst src : Nat) (xs : List Nat) : LaneResult :=
  let n := groupSize (formatWidth dst) (formatWidth src)
  if isFloat src || isFloat dst then rounded dst n g u l (xs.map fun x => (unpack src (fmtFtz u.fmt) x, 0))
  else
    let cs := xs.map fun x => clampInt dst (intElem src x)
    ⟨packed (formatWidth dst) n (cs.map (·.1)), cs.foldl (fun f c => f ||| c.2) 0, g.gen l⟩

/-- Element `j` of the row that `vquant` takes: its lane, and its place in the lane (R103). -/
def rowOf (g : Group) (m : Mask) (a src dst : Nat) (ftz : Bool) : List ExactNum :=
  (lanesOf m).flatMap fun l =>
    (groupElems g a l (groupSize (formatWidth src) (formatWidth dst)) src (elementsPerLane (formatWidth src) (formatWidth dst))).map
      (unpack src ftz)

/-- What `vquant` gives a lane: its elements of the row, each divided by its block's scale and rounded, and the scale word (R103, R104). -/
def quantised (g : Group) (u : GUnit) (l : Nat) (m : Mask) (a src dst : Nat) : LaneResult :=
  let e := elementsPerLane (formatWidth src) (formatWidth dst)
  let row := rowOf g m a src dst (fmtFtz u.fmt)
  let starts := blockStarts (fmtScm u.fmt) (fmtQth u.fmt) 0 0 none row
  let scales := rowScales dst (fmtScm u.fmt) (row.zip starts)
  let at_ := e * ((lanesOf m).filter fun k => decide (k < l)).length
  let r := roundElems dst (roundingOf u) (g.gen l)
    ((((row.drop at_).take e).zip ((scales.drop at_).take e)).map fun x => (unscale x.2 x.1, 0))
  ⟨packed (formatWidth dst) 1 r.1 ++ [scaleWord ((starts.drop at_).take e) ((scales.drop at_).take e)], r.2.1, r.2.2⟩

/-- What `vdq` gives a lane: its elements times the scale of the block that each lies in, rounded (R105). -/
def dequantised (g : Group) (u : GUnit) (l a src dst : Nat) : LaneResult :=
  let w := g.v (a + 1) l
  let xs := groupElems g a l 1 src (elementsPerLane (formatWidth src) (formatWidth dst))
  rounded dst (groupSize (formatWidth dst) (formatWidth src)) g u l (xs.zipIdx.map fun x =>
    let second := (List.range (x.2 + 1)).any fun k => decide (1 ≤ k) && w.getLsbD (16 + k)
    (rescale (if second then bits (w.setWidth 64) 15 8 else bits (w.setWidth 64) 7 0) (unpack src (fmtFtz u.fmt) x.1), 0))

/-- Weight `j` of a CB2 index as an E4M3 number: its sign from SIGN (weight 7 by the parity of SIGN), its magnitude in eighths from the shape
table (R63, R64). -/
def weightOf (table : Nat → Word32) (idx j : Nat) : ExactNum :=
  let sign := idx % 128
  let neg := if j < 7 then sign.testBit j else decide (((List.range 7).filter sign.testBit).length % 2 = 1)
  .fin neg ((table (idx / 128)).toNat / 2 ^ (4 * j) % 16) (-3) false

end Sys2Proof.Stated

/-! ### Vector floats, conversions, quantisation and the codebook (R51 to R64, R95 to R106) -/

/-- Every mode chooses as R57 says, for a magnitude `man × 2^exp` rounded to a multiple of `2^(exp + k)`: nearest with ties to even, toward
zero, up, down, and stochastic by the carry of R58; and it is inexact exactly when something is cut off. -/
def Sys2Proof.Stated.RoundingModes : Prop :=
  ∀ (neg : Bool) (gen : Word32) (man k : Nat) (exp : Int), 0 < k →
    (∀ m, (roundAt m neg gen man exp (exp + k) false).2 = decide (man % 2 ^ k ≠ 0)) ∧
    (∀ n, (roundAt .rn neg gen man exp (exp + k) false).1 = n →
      2 * n * 2 ^ k ≤ 2 * man + 2 ^ k ∧ 2 * man ≤ 2 * n * 2 ^ k + 2 ^ k ∧ (2 * (man % 2 ^ k) = 2 ^ k → n % 2 = 0)) ∧
    (roundAt .rz neg gen man exp (exp + k) false).1 = man / 2 ^ k ∧
    (roundAt .ru neg gen man exp (exp + k) false).1 = (if neg = true then man / 2 ^ k else (man + 2 ^ k - 1) / 2 ^ k) ∧
    (roundAt .rd neg gen man exp (exp + k) false).1 = (if neg = true then (man + 2 ^ k - 1) / 2 ^ k else man / 2 ^ k) ∧
    (roundAt .rs neg gen man exp (exp + k) false).1 =
      man / 2 ^ k + (if 2 ^ 32 ≤ man % 2 ^ k * 2 ^ 32 / 2 ^ k + gen.toNat then 1 else 0)

/-- Sums and products of finite numbers are exact before the one rounding; infinity − infinity and 0 × infinity, and every NaN operand, give NaN
with NV; the fused product keeps NV even when the addend is NaN (R52, R57, R96). -/
def Sys2Proof.Stated.ExactArithmetic : Prop :=
  (∀ (md : Mode) (na nb : Bool) (ma mb : Nat) (ea eb e : Int), e ≤ ea → e ≤ eb →
    ∃ n m x, addNum md (.fin na ma ea false) (.fin nb mb eb false) = (.fin n m x false, 0) ∧ e ≤ x ∧
      scaled e n m x = scaled e na ma ea + scaled e nb mb eb) ∧
  (∀ (na nb : Bool) (ma mb : Nat) (ea eb e f : Int), e ≤ ea → f ≤ eb →
    ∃ n m x, mulNum (.fin na ma ea false) (.fin nb mb eb false) = (.fin n m x false, 0) ∧ e + f ≤ x ∧
      scaled (e + f) n m x = scaled e na ma ea * scaled f nb mb eb) ∧
  (∀ (md : Mode) (x : ExactNum) (n : Bool), addNum md .nan x = (.nan, NV) ∧ addNum md x .nan = (.nan, NV) ∧ mulNum .nan x = (.nan, NV) ∧
    mulNum x .nan = (.nan, NV) ∧ addNum md (.inf n) (.inf !n) = (.nan, NV)) ∧
  (∀ (md : Mode) (n k : Bool) (e : Int) (c : ExactNum), mulNum (.inf n) (.fin k 0 e false) = (.nan, NV) ∧
    mulNum (.fin k 0 e false) (.inf n) = (.nan, NV) ∧ fmaNum md (.inf n) (.fin k 0 e false) c = (.nan, NV))

/-- The float arithmetic words: each element is the exact result rounded once (R95, R96); `vfmin` and `vfmax` (R97). -/
def Sys2Proof.Stated.FloatArithmetic : Prop :=
  floatOp .vfadd addNum ∧ floatOp .vfsub (fun md x y => addNum md x (negate y)) ∧ floatOp .vfmul (fun _ x y => mulNum x y) ∧
  (∀ m p d a b t, writesLanes (.vfma m p d a b t) d (typeRegs t.toNat) fun _ g u l =>
    let nums := fun (f : BitVec 6) => laneNums g t.toNat (fmtFtz u.fmt) f.toNat l
    rounded t.toNat (typeRegs t.toNat) g u l
      (((nums d).zip ((nums a).zip (nums b))).map fun x => fmaNum (modeInForce u.fmt u.hint) x.1 x.2.1 x.2.2)) ∧
  pickOp .vfmin false ∧ pickOp .vfmax true

/-- `vfset`: for packed types the predicate is true only when the condition holds for every element (R98). -/
def Sys2Proof.Stated.FloatCompare : Prop :=
  ∀ m p c n a b t,
    let pairs := fun (g : Group) (u : GUnit) l =>
      ((laneNums g t.toNat (fmtFtz u.fmt) a.toNat l).zip (laneNums g t.toNat (fmtFtz u.fmt) b.toNat l)).map fun x => floatHolds c.toNat x.1 x.2
    writesPredicate (.vfset m p c n a b t) n (fun g u l => (pairs g u l).all (·.1)) fun g u l => (pairs g u l).foldl (fun f x => f ||| x.2) 0

/-- The special functions write the value of R99 rounded once, and take the special cases of its table.
What the rules leave open here is the model's own choice or reading: log entry 11. -/
def Obligations.SpecialFunctions : Prop :=
  specialOp .vfrcp recip ∧ specialOp .vfrsq rsqrtNum ∧ specialOp .vfsqrt sqrtNum ∧ specialOp .vfex2 exp2Num ∧ specialOp .vflg2 log2Num ∧
  specialOp .vfsin sinNum ∧ specialOp .vfcos cosNum ∧
  (∀ (n : Bool) (e : Int), recip (.fin n 0 e false) = (.inf n, DZ) ∧ recip (.inf n) = (.fin n 0 0 false, 0) ∧
    rsqrtNum (.fin n 0 e false) = (.inf n, DZ) ∧ sqrtNum (.fin n 0 e false) = (.fin n 0 e false, 0) ∧
    log2Num (.fin n 0 e false) = (.inf true, DZ) ∧ sinNum (.fin n 0 e false) = (.fin n 0 0 false, 0) ∧
    sinNum (.inf n) = (.nan, NV) ∧ cosNum (.inf n) = (.nan, NV)) ∧
  (∀ (k : Nat) (e : Int), 0 < k → rsqrtNum (.fin true k e false) = (.nan, NV) ∧ sqrtNum (.fin true k e false) = (.nan, NV) ∧
    log2Num (.fin true k e false) = (.nan, NV)) ∧
  rsqrtNum (.inf false) = (.fin false 0 0 false, 0) ∧ sqrtNum (.inf false) = (.inf false, 0) ∧ exp2Num (.inf true) = (.fin false 0 0 false, 0) ∧
  exp2Num (.inf false) = (.inf false, 0) ∧ log2Num (.inf false) = (.inf false, 0)

/-- Conversions (R101, R102), block quantisation and its reverse where FMT.BFMT names a float format and FMT.SCM is not the reserved code
(R103 to R105), and the codebook decode, which is exact and raises no flag (R106). -/
def Sys2Proof.Stated.ConversionResult : Prop :=
  (∀ m p d a u v, writesLanes (.vcvt m p d a u v) d (groupSize (formatWidth u.toNat) (formatWidth v.toNat)) fun _ g un l =>
    converted g un l u.toNat v.toNat
      (groupElems g a.toNat l (groupSize (formatWidth v.toNat) (formatWidth u.toNat)) v.toNat (elementsPerLane (formatWidth v.toNat) (formatWidth u.toNat)))) ∧
  (∀ m p d a u, writesLanes (.vquant m p d a u) d 2
    (fun _ g un l => quantised g un l (activeMask g un p.toNat) a.toNat (fmtB un.fmt) u.toNat) fun _ un => fmtB un.fmt ≤ 3 ∧ fmtScm un.fmt ≠ 3) ∧
  (∀ m p d a u (b : Nat), writesLanes (.vdq m p d a u) d (groupSize (formatWidth b) (formatWidth u.toNat))
    (fun _ g un l => dequantised g un l a.toNat u.toNat b) fun _ un => fmtB un.fmt = b ∧ b ≤ 3) ∧
  (∀ m p d a, writesLanes (.vcbdec m p d a) d 4 fun s g un l =>
    let table := fun n => shapeEntry (s.shapesOf (s.accessor g).asid) (fmtCbt un.fmt) n
    let x := (g.v a.toNat l).toNat
    ⟨packed 8 4 ((List.range 16).map fun k => (roundFloat 4 .rn false false 0 (weightOf table (x / 2 ^ (16 * (k / 8)) % 2 ^ 16) (k % 8))).1), 0, g.gen l⟩)

/-- `vquant` and `vdq` with a BFMT outside 0 to 3, and `vquant` with FMT.SCM 3, raise the format fault, cause 10, with TVAL the unit's FMT
(R66, R103, R105): the word changes nothing before it, and with an empty active mask it raises none (R72). -/
def Sys2Proof.Stated.FormatFault : Prop :=
  ∀ (s : State) (g : Group) (u : GUnit) (m : BitVec 1) (p : BitVec 3) (d a : BitVec 6) (c : BitVec 4), activeMask g u p.toNat ≠ 0 →
    (Issues (.vquant m p d a c) s g u → 3 < fmtB u.fmt ∨ fmtScm u.fmt = 3 →
      exec (.vquant m p d a c) s = .next (s.takeTrap g.id u.uid { cause := 10, tval := u.fmt, tstat := 0, tlane := u.mask } 0 false)) ∧
    (Issues (.vdq m p d a c) s g u → 3 < fmtB u.fmt →
      exec (.vdq m p d a c) s = .next (s.takeTrap g.id u.uid { cause := 10, tval := u.fmt, tstat := 0, tlane := u.mask } 0 false))


namespace Sys2Proof.Stated

/-- A node of the tree (R68, R97, R110): integers wrap; a float sum is rounded in the mode in force, `rs` as `rn`, with the saturation that FMT
gives; a float minimum or maximum is one of its operands. Types: 0 `.s32`, 1 `.z32`, 2 `.f32`, 3 `.f64`. -/
def treeNode (t f : Nat) (u : GUnit) (x y : Nat) : Nat × BitVec 6 :=
  if t ≤ 1 then
    let a := laneNum t (BitVec.ofNat 32 x)
    let b := laneNum t (BitVec.ofNat 32 y)
    ((match f with
      | 0 => (BitVec.ofInt 32 (a + b)).toNat
      | 1 => (BitVec.ofInt 32 (min a b)).toNat
      | 2 => (BitVec.ofInt 32 (max a b)).toNat
      | 3 => x &&& y
      | 4 => x ||| y
      | _ => x ^^^ y), 0)
  else
    let code := if t = 2 then 1 else 0
    let a := unpack code (fmtFtz u.fmt) x
    let b := unpack code (fmtFtz u.fmt) y
    let mode := nearestForRs (modeInForce u.fmt u.hint)
    if f = 0 then
      let r := roundFloat code mode (fmtSat u.fmt) (fmtFtz u.fmt) 0 (addNum mode a b).1
      (r.1, (addNum mode a b).2 ||| r.2)
    else
      let r := picked (decide (f ≠ 1)) a b
      ((roundFloat code .rn false false 0 r.1).1, r.2)

/-- The value of a subtree of `2^k` lanes from lane `lo` on, over the lanes that are present, and the flags of its nodes (R68): an absent
subtree gives the other's value unchanged. -/
def subtree (node : Nat → Nat → Nat × BitVec 6) (leaf : Nat → Option Nat) : Nat → Nat → Option Nat × BitVec 6
  | 0, lo => (leaf lo, 0)
  | k + 1, lo =>
    let x := subtree node leaf k lo
    let y := subtree node leaf k (lo + 2 ^ k)
    match x.1, y.1 with
    | some a, some b => (some (node a b).1, (node a b).2 ||| x.2 ||| y.2)
    | some a, none => (some a, x.2 ||| y.2)
    | none, b => (b, x.2 ||| y.2)

/-- What a reduction or scan gives a lane from the active lanes up to lane `top` (R68, R110). -/
def reduced (g : Group) (u : GUnit) (m : Mask) (t f a top l : Nat) : LaneResult :=
  let leaf := fun i =>
    if m.getLsbD i = true ∧ i ≤ top ∧ i < g.width then
      some (leafRaw t (roundingOf u) (if t = 3 then (g.v64 a i).toNat else (g.v a i).toNat))
    else none
  let r := subtree (treeNode t f u) leaf g.width.log2 0
  let v := r.1.getD 0
  let operands := (List.range g.width).foldl (fun fl i =>
    if m.getLsbD i = true ∧ i ≤ top then fl ||| leafFlags t (roundingOf u) (if t = 3 then (g.v64 a i).toNat else (g.v a i).toNat) else fl) 0
  ⟨if t = 3 then [BitVec.ofNat 32 v, BitVec.ofNat 32 (v / 2 ^ 32)] else [BitVec.ofNat 32 v], r.2 ||| operands,
    if 2 ≤ t ∧ modeInForce u.fmt u.hint = .rs then advanced (g.gen l) else g.gen l⟩

/-- A masked word that writes one scalar: with an empty active mask it writes nothing (R72); else as a scalar word does. -/
def writesScalarMasked (i : Instr) (d : BitVec 5) (value : Group → GUnit → Word) : Prop :=
  ∀ (s : State) (g : Group) (u : GUnit), Issues i s g u → FallsClear g u →
    ∃ t g', exec i s = .next t ∧ OnlyGroup g.id s t ∧ t.group? g.id = some g' ∧
      (if activeMask g u (predField i) = 0 then SameRegs g g' else ScalarWritten g g' d.toNat (value g u))

end Sys2Proof.Stated

/-! ### Group-wide words (R68, R107 to R112) -/

/-- `vred` writes the tree's result into every active lane, and `vscan` the tree over the active lanes up to each lane itself (R68, R110). The
width is a power of two, as a group's is (R74).
What the rules leave open here is the model's own choice or reading: log entries 10, 98 and 156. -/
def Obligations.TreeResult : Prop :=
  (∀ m p d a t f, writesLanes (.vred m p d a t f) d (if t = 3 then 2 else 1)
    (fun _ g u l => reduced g u (activeMask g u p.toNat) t.toNat f.toNat a.toNat 31 l) fun g _ => g.width ∈ [4, 8, 16, 32]) ∧
  (∀ m p d a t f, writesLanes (.vscan m p d a t f) d (if t = 3 then 2 else 1)
    (fun _ g u l => reduced g u (activeMask g u p.toNat) t.toNat f.toNat a.toNat l l) fun g _ => g.width ∈ [4, 8, 16, 32])

/-- The moves between a lane and a scalar and the ballot (R108, R111, R112): an element outside the group reads as zero, and an insert outside
the active mask writes nothing. -/
def Sys2Proof.Stated.LaneScalarMoves : Prop :=
  (∀ m p d a, writesScalarMasked (.vvoteBallot m p d a) d fun g u => (activeMask g u p.toNat &&& g.p a.toNat).setWidth 64) ∧
  (∀ m p d a b, writesScalarMasked (.vext m p d a b) d fun g _ =>
    if (g.s b.toNat).toNat < g.width then (g.v a.toNat (g.s b.toNat).toNat).setWidth 64 else 0) ∧
  (∀ m p d a b (s : State) (g : Group) (u : GUnit), Issues (.vins m p d a b) s g u → FallsClear g u → g.width ≤ 32 →
    let l := (g.s b.toNat).toNat
    let hit := l < g.width ∧ (activeMask g u p.toNat).getLsbD l = true
    ∃ t g', exec (.vins m p d a b) s = .next t ∧ OnlyGroup g.id s t ∧ t.group? g.id = some g' ∧
      OnlyLanes g g' d.toNat 1 (if hit then BitVec.ofNat 32 (2 ^ l) else 0) ∧ (hit → g'.v d.toNat l = (g.s a.toNat).setWidth 32) ∧
      g'.fflg = g.fflg ∧ ∀ k, g'.gen k = g.gen k)


namespace Sys2Proof.Stated

/-- The target of a word of format C: PC + 4 × the offset, widened by `hint.imm` (R44, R164). -/
def offsetFrom (u : GUnit) (o : BitVec 16) : Word := u.pc + 4 * BitVec.ofInt 64 (wordOffset u.hint o)

/-- A fault at a unit whose TVAL is the instruction word: the word changes nothing and the group takes the trap (R49, R190). -/
def faults (i : Instr) (s : State) (g : Group) (u : GUnit) (cause : Nat) : Prop :=
  exec i s = .next (s.takeTrap g.id u.uid { cause := cause, tval := wordOf i, tstat := 0, tlane := u.mask } 0 false)

/-- The lanes of a side, at its PC, and what it takes with it (R147). -/
def side (u : GUnit) (m : Mask) (uid : Nat) : GUnit := { u with mask := m, uid := uid }

/-- A context goes on at a PC, with what `c'` changes in it; nothing else of the machine changes (R125, R164). -/
def contextGoes (i : Instr) (s : State) (c' : Ctx) (pc : Word) : Prop :=
  exec i s = .next ({ s with sel := none }.setCtx { c' with pc := pc, start := pc, hint := none })

/-- A context completes a word without transferring control: the back edge of its loops, or the next word (R125, R167). -/
def contextFalls (i : Instr) (s : State) (c c' : Ctx) : Prop :=
  exec i s = .next ({ s with sel := none }.setCtx
    { c' with pc := (backEdgeFrom c.pc c'.loops).2, start := (backEdgeFrom c.pc c'.loops).2, loops := (backEdgeFrom c.pc c'.loops).1,
              hint := none, joint := none, sent := none, state := .scanning })

/-- A context's own scoped word may fall through. -/
def ctxMayFall (c : Ctx) : Prop := (backEdgeFrom c.pc c.loops).2 = c.pc + 4 ∨ c.inSegment (backEdgeFrom c.pc c.loops).2 = true

/-- The target of a context's word of format C. -/
def ctxOffset (c : Ctx) (o : BitVec 16) : Word := c.pc + 4 * BitVec.ofInt 64 (wordOffset c.hint o)

end Sys2Proof.Stated

/-! ### Control of units and groups (R126, R131, R146 to R157, R162 to R169) -/

/-- Branches, jumps, calls and returns of a unit (R131, R164, R167): where each goes, what it does to the call stack and the loop levels, and
that it changes no register and nothing outside its group. A `ret` that leaves no reconvergence entry is the whole of it; at a body's last word
the matching `call` counts as fallen through. -/
def Sys2Proof.Stated.UnitTransfers : Prop :=
  ∀ (s : State) (g : Group) (u : GUnit) (m : BitVec 1) (k : BitVec 3) (c : BitVec 5) (o : BitVec 16),
    (Issues (.jmp m k o) s g u → k.toNat ≤ 1 → MayGo g u { u with pc := offsetFrom u o } →
      GoesTo (.jmp m k o) s s g { u with pc := offsetFrom u o }) ∧
    (Issues (.br m 1 c o) s g u → g.s c.toNat ≠ 0 → MayGo g u { u with pc := offsetFrom u o } →
      GoesTo (.br m 1 c o) s s g { u with pc := offsetFrom u o }) ∧
    (Issues (.br m 1 c o) s g u → g.s c.toNat = 0 → MayFall g u u → GoesTo (.br m 1 c o) s s g (backEdge u)) ∧
    (Issues (.call m k o) s g u → k.toNat ≤ 1 → u.stack.length ≠ Config.callDepth →
      let u' := { u with pc := offsetFrom u o, stack := { ret := u.pc + 4, loops := u.loops.length } :: u.stack }
      LandsClear g u' → Alone g u ∨ atEnd g u' = false → GoesTo (.call m k o) s s g u') ∧
    (∀ e rest, Issues (.ret m k) s g u → k.toNat ≤ 1 → u.stack = e :: rest → atBase g u = false →
      let kept := u.loops.drop (u.loops.length - e.loops)
      let u' := { u with stack := rest, loops := (backEdgeFrom (e.ret - 4) kept).1, pc := (backEdgeFrom (e.ret - 4) kept).2 }
      u'.pc = e.ret ∨ inSegment g u' u'.pc = true → LandsClear g u' → Alone g u ∨ atEnd g u' = false → GoesTo (.ret m k) s s g u')

/-- Hardware loops of a unit (R166 to R168): `loop` opens a level whose body runs from PC + 4 to the word before the end, or skips the body when the
count is 0; `lbrk.g` leaves the innermost level when its scalar is not 0. -/
def Sys2Proof.Stated.UnitLoops : Prop :=
  ∀ (s : State) (g : Group) (u : GUnit) (m : BitVec 1) (k : BitVec 3) (c : BitVec 5) (o : BitVec 16),
    (Issues (.loop m k c o) s g u → k.toNat ≤ 1 → bodyOutside (atBase g u) g.segment (offsetFrom u o) = false → g.s c.toNat ≠ 0 →
      u.loops.length ≠ Config.loopLevels →
      let u' := { u with pc := u.pc + 4, loops := { count := g.s c.toNat, first := u.pc + 4, last := offsetFrom u o - 4 } :: u.loops }
      LandsClear g u' → Alone g u ∨ atEnd g u' = false → GoesTo (.loop m k c o) s s g u') ∧
    (Issues (.loop m k c o) s g u → k.toNat ≤ 1 → bodyOutside (atBase g u) g.segment (offsetFrom u o) = false → g.s c.toNat = 0 →
      let u' := { u with pc := offsetFrom u o }
      LandsClear g u' → Alone g u ∨ atEnd g u' = false → GoesTo (.loop m k c o) s s g u') ∧
    (∀ l rest, Issues (.lbrk m 1 c) s g u → u.loops = l :: rest → g.s c.toNat ≠ 0 →
      MayGo g u { u with pc := l.last + 4, loops := rest } → GoesTo (.lbrk m 1 c) s s g { u with pc := l.last + 4, loops := rest }) ∧
    (∀ l rest, Issues (.lbrk m 1 c) s g u → u.loops = l :: rest → g.s c.toNat = 0 → MayFall g u u → GoesTo (.lbrk m 1 c) s s g (backEdge u))

/-- Where the transfers of a unit fault, changing nothing (R124, R126, R164 to R168): a target outside the segment at the base depth is a scope
fault, and so is a word of a wider scope; a full or empty call stack and too many or too few loop levels are stack faults. An `up` that ends the
segment inside a region faults at the PC after it (R157). -/
def Sys2Proof.Stated.UnitTransferFaults : Prop :=
  ∀ (s : State) (g : Group) (u : GUnit) (m : BitVec 1) (k : BitVec 3) (c : BitVec 5) (o : BitVec 16),
    (Issues (.jmp m k o) s g u → 2 ≤ k.toNat ∨ inSegment g u (offsetFrom u o) = false → faults (.jmp m k o) s g u 4) ∧
    (Issues (.br m k c o) s g u → 2 ≤ k.toNat ∨ (k = 1 ∧ g.s c.toNat ≠ 0 ∧ inSegment g u (offsetFrom u o) = false) →
      faults (.br m k c o) s g u 4) ∧
    (Issues (.call m k o) s g u → 2 ≤ k.toNat → faults (.call m k o) s g u 4) ∧
    (Issues (.call m k o) s g u → k.toNat ≤ 1 → u.stack.length = Config.callDepth → faults (.call m k o) s g u 7) ∧
    (Issues (.ret m k) s g u → 2 ≤ k.toNat ∨ (u.stack ≠ [] ∧ atBase g u = true) → faults (.ret m k) s g u 4) ∧
    (Issues (.ret m k) s g u → k.toNat ≤ 1 → u.stack = [] → faults (.ret m k) s g u 7) ∧
    (Issues (.loop m k c o) s g u → 2 ≤ k.toNat ∨ bodyOutside (atBase g u) g.segment (offsetFrom u o) = true → faults (.loop m k c o) s g u 4) ∧
    (Issues (.loop m k c o) s g u → k.toNat ≤ 1 → bodyOutside (atBase g u) g.segment (offsetFrom u o) = false → g.s c.toNat ≠ 0 →
      u.loops.length = Config.loopLevels → faults (.loop m k c o) s g u 7) ∧
    (Issues (.lbrk m k c) s g u → 2 ≤ k.toNat → faults (.lbrk m k c) s g u 4) ∧
    (Issues (.lbrk m k c) s g u → k.toNat ≤ 1 → u.loops = [] → faults (.lbrk m k c) s g u 7) ∧
    (Issues (.bar m k) s g u → 2 ≤ k.toNat → faults (.bar m k) s g u 4) ∧
    (∀ (d a : BitVec 5) (y : BitVec 3), Issues (.up m d a k y) s g u → k.toNat ≠ 2 ∨ atLast g u u.pc = false → faults (.up m d a k y) s g u 4) ∧
    (∀ (d a : BitVec 5) (y : BitVec 3), Issues (.up m d a 2 y) s g u → atLast g u u.pc = true → u.region.isSome = true →
      (backEdge u).pc = u.pc + 4 → s.atomics.any (fun x => decide (x.group = g.id)) = false →
      ∃ t g', exec (.up m d a 2 y) s = .next t ∧ t.group? g.id = some g' ∧ g'.trap.tmode = true ∧ bits g'.trap.tcause 7 0 = 4 ∧
        g'.tpc = u.pc + 4)

/-- A lane branch outside a region (R146, R147, R151): when the condition agrees in every lane the unit takes that outcome and does not split;
when it differs, the unit splits into two that have the lanes, the PC, and copies of FMT, loop levels and call stack of their sides. The side with
fewer lanes, the taken one when they are equal, is the new unit. No register changes. -/
def Sys2Proof.Stated.LaneBranches : Prop :=
  ∀ (s : State) (g : Group) (u : GUnit) (m : BitVec 1) (c : BitVec 5) (o : BitVec 16), Issues (.br m 0 c o) s g u → u.region = none →
    (∀ x ∈ g.units, x.uid < g.nextUid) → u.uid < g.nextUid → g.trap.tmode = false → branchEntry g u ≠ none →
    let taken := u.mask &&& g.p c.toNat
    let fall := u.mask &&& ~~~taken
    (taken = u.mask → taken ≠ 0 → MayGo g u { u with pc := offsetFrom u o } →
      GoesTo (.br m 0 c o) s s g { u with pc := offsetFrom u o }) ∧
    (taken = 0 → MayFall g u u → GoesTo (.br m 0 c o) s s g (backEdge u)) ∧
    (taken ≠ u.mask → taken ≠ 0 → inSegment g u (offsetFrom u o) = true → FallsClear g u → atEnd g (backEdge u) = false →
      let taker := if countLanes taken ≤ countLanes fall then g.nextUid else u.uid
      let faller := if countLanes taken ≤ countLanes fall then u.uid else g.nextUid
      ∃ t, exec (.br m 0 c o) s = .next t ∧ After g.id s { g with nextUid := g.nextUid + 1 } t ∧
        Stands t g.id (side { u with pc := offsetFrom u o } taken taker) ∧ Stands t g.id (side (backEdge u) fall faller))

/-- Inside a region a lane branch that agrees over the region's mask jumps or falls through and pushes no entry, and one that does not is a
uniformity fault; `rcv` is a no-op, `exit` a scope fault, a second `mask.all` a stack fault; `mask.rest` restores the saved mask (R157). -/
def Sys2Proof.Stated.MaskRegions : Prop :=
  ∀ (s : State) (g : Group) (u : GUnit) (m : BitVec 1) (c : BitVec 5) (o : BitVec 16),
    (Issues (.maskAll m) s g u → g.trap.tmode = false → u.region = none → MayFall g u { u with region := some u.mask } →
      GoesTo (.maskAll m) s s g { backEdge u with region := some u.mask }) ∧
    (∀ saved, Issues (.maskRest m) s g u → g.trap.tmode = false → u.region = some saved → MayFall g u { u with region := none } →
      GoesTo (.maskRest m) s s g { backEdge u with mask := saved, region := none }) ∧
    (Issues (.maskAll m) s g u → g.trap.tmode = false → u.region ≠ none → faults (.maskAll m) s g u 7) ∧
    (Issues (.maskRest m) s g u → g.trap.tmode = false → u.region = none → faults (.maskRest m) s g u 7) ∧
    (Issues (.exit m) s g u → u.region ≠ none → faults (.exit m) s g u 4) ∧
    (Issues (.rcv m) s g u → u.region ≠ none → MayFall g u u → GoesTo (.rcv m) s s g (backEdge u)) ∧
    (Issues (.br m 0 c o) s g u → u.region ≠ none → g.live &&& g.p c.toNat = g.live → g.live ≠ 0 → MayGo g u { u with pc := offsetFrom u o } →
      GoesTo (.br m 0 c o) s s g { u with pc := offsetFrom u o }) ∧
    (Issues (.br m 0 c o) s g u → u.region ≠ none → g.live &&& g.p c.toNat = 0 → MayFall g u u → GoesTo (.br m 0 c o) s s g (backEdge u)) ∧
    (Issues (.br m 0 c o) s g u → u.region ≠ none → g.live &&& g.p c.toNat ≠ 0 → g.live &&& g.p c.toNat ≠ g.live →
      inSegment g u (offsetFrom u o) = true → faults (.br m 0 c o) s g u 5)

/-- Words that change only the unit: `nop` and `yield` nothing, a hint the word after it, `fmt.set` the unit's FMT, or the format fault of a value
that FMT may not hold; and the read form of `down` writes the group's decision value (R43, R66, R134, R169, R172, R179).
What the rules leave open here is the model's own choice or reading: log entry 6. -/
def Obligations.UnitWords : Prop :=
  ∀ (s : State) (g : Group) (u : GUnit) (m : BitVec 1) (d a : BitVec 5),
    (Issues (.nop m) s g u → MayFall g u u → GoesTo (.nop m) s s g (backEdge u)) ∧
    (Issues (.yield m) s g u → MayFall g u u → GoesTo (.yield m) s s g (backEdge u)) ∧
    (Issues (.fmtSet m a) s g u → fmtOk (g.s a.toNat) = true → MayFall g u u →
      GoesTo (.fmtSet m a) s s g { backEdge u with fmt := g.s a.toNat }) ∧
    (Issues (.fmtSet m a) s g u → fmtOk (g.s a.toNat) = false →
      exec (.fmtSet m a) s = .next (s.takeTrap g.id u.uid { cause := 10, tval := g.s a.toNat, tstat := 0, tlane := u.mask } 0 false)) ∧
    (Issues (.downRead m d a 1) s g u → MayFall g u u →
      GoesTo (.downRead m d a 1) s s (g.setS d.toNat ((g.dvals[a.toNat]?).getD 0)) (backEdge u)) ∧
    (∀ i h, hintOf i = some h → Issues i s g u → ∃ t g' u', exec i s = .next t ∧ After g.id s g t ∧ t.sel = none ∧ t.group? g.id = some g' ∧
      u' ∈ g'.active ∧ u'.uid = u.uid ∧ u'.pc = u.pc + 4 ∧ u'.hint = some h)

/-- The words that a context executes alone, at its own scope (R125, R131, R134, R162 to R168, R172, R173): where it goes on, and what changes in
it; nothing else of the machine changes. -/
def Obligations.ContextTransfers : Prop :=
  ∀ (s : State) (c : Ctx) (m : BitVec 1) (k : BitVec 3) (r d a : BitVec 5) (o : BitVec 16),
    (CtxIssues (.jmp m k o) s c → c.inSegment (ctxOffset c o) = true → contextGoes (.jmp m k o) s c (ctxOffset c o)) ∧
    (CtxIssues (.br m k r o) s c → s.readsEarly c r.toNat = false → c.r r.toNat ≠ 0 → c.inSegment (ctxOffset c o) = true →
      contextGoes (.br m k r o) s c (ctxOffset c o)) ∧
    (CtxIssues (.br m k r o) s c → s.readsEarly c r.toNat = false → c.r r.toNat = 0 → ctxMayFall c → contextFalls (.br m k r o) s c c) ∧
    (CtxIssues (.call m k o) s c → c.stack.length ≠ Config.callDepth →
      contextGoes (.call m k o) s { c with stack := { ret := c.pc + 4, loops := c.loops.length } :: c.stack } (ctxOffset c o)) ∧
    (∀ e rest, CtxIssues (.ret m k) s c → c.stack = e :: rest → c.atBase = false ∨ c.scope = 4 →
      let kept := c.loops.drop (c.loops.length - e.loops)
      let c' := { c with stack := rest, loops := (backEdgeFrom (e.ret - 4) kept).1 }
      (backEdgeFrom (e.ret - 4) kept).2 = e.ret ∨ c'.inSegment (backEdgeFrom (e.ret - 4) kept).2 = true →
      contextGoes (.ret m k) s c' (backEdgeFrom (e.ret - 4) kept).2) ∧
    (CtxIssues (.loop m k r o) s c → s.readsEarly c r.toNat = false → bodyOutside c.atBase c.segment (ctxOffset c o) = false → c.r r.toNat = 0 →
      contextGoes (.loop m k r o) s c (ctxOffset c o)) ∧
    (CtxIssues (.loop m k r o) s c → s.readsEarly c r.toNat = false → bodyOutside c.atBase c.segment (ctxOffset c o) = false → c.r r.toNat ≠ 0 →
      c.loops.length ≠ Config.loopLevels →
      contextGoes (.loop m k r o) s { c with loops := { count := c.r r.toNat, first := c.pc + 4, last := ctxOffset c o - 4 } :: c.loops } (c.pc + 4)) ∧
    (∀ l rest, CtxIssues (.lbrk m k r) s c → c.loops = l :: rest → s.readsEarly c r.toNat = false → c.r r.toNat ≠ 0 →
      c.inSegment (l.last + 4) = true → contextGoes (.lbrk m k r) s { c with loops := rest } (l.last + 4)) ∧
    (∀ l rest, CtxIssues (.lbrk m k r) s c → c.loops = l :: rest → s.readsEarly c r.toNat = false → c.r r.toNat = 0 → ctxMayFall c →
      contextFalls (.lbrk m k r) s c c) ∧
    (CtxIssues (.downSend m d a k) s c → s.readsEarly c a.toNat = false → ctxMayFall c →
      contextFalls (.downSend m d a k) s c { c with sd := c.sd.setIfInBounds d.toNat (c.r a.toNat), sdv := c.sdv ||| (1#6) <<< d.toNat }) ∧
    (CtxIssues (.downRead m d a k) s c → ctxMayFall c →
      contextFalls (.downRead m d a k) s c (c.setR d.toNat ((c.dvals[a.toNat]?).getD 0))) ∧
    (CtxIssues (.bar m k) s c → c.hint = none →
      exec (.bar m k) s = .next ({ s with sel := none }.setCtx { c with state := .atBar, joint := some (.bar m k, c.pc), start := c.pc, hint := none }))


namespace Sys2Proof.Stated

/-- Unit `u` of group `g` is the one that performs the next instruction step. -/
structure Chosen (s : State) (g : Group) (u : GUnit) : Prop where
  selected : s.sel = some (.unit g.id u.uid)
  group : s.group? g.id = some g
  unit : g.unit? u.uid = some u

/-- A fault of a word whose TVAL is the instruction word, with the lanes that TLANE names (R190). -/
def faultsWith (i : Instr) (s : State) (g : Group) (u : GUnit) (cause : Nat) (lanes : Mask) : Prop :=
  exec i s = .next (s.takeTrap g.id u.uid { cause := cause, tval := wordOf i, tstat := 0, tlane := lanes } 0 false)

/-- The word waits: nothing changes but the unit's wait and its scheduler's run. -/
def waits (i : Instr) (s : State) (g : Group) (u : GUnit) (w : Wait) : Prop :=
  exec i s = .next (({ s with sel := none }.setGroup (g.setUnit { u with wait := w })).endRun g)

/-- No two units of a group share a number. -/
def Apart (g : Group) : Prop := ∀ x ∈ g.units, ∀ y ∈ g.units, x.uid = y.uid → x = y

/-- The PC at which a trap saves a unit: that of its word, or of the hint before it (R43, R192). -/
def savedPc (u : GUnit) : Word := if u.hint.isSome then u.pc - 4 else u.pc

/-- In `t` the group `g` has entered its handler (R188, R190, R192): what the trap registers hold, the handler unit alone at TVEC, and the saved
units, of which `u` resumes at `resume`. Its predicates, flags, generators, windows, bindings, decision values and queue stand. -/
structure InHandler (s t : State) (g : Group) (u : GUnit) (i : TrapInfo) (async : Bool) (resume : Word) : Prop where
  group : ∃ g' h, t.group? g.id = some g' ∧ g'.trap.tmode = true ∧
    g'.trap.tcause = BitVec.ofNat 64 (i.cause + if async then 256 else 0) ∧ g'.trap.tval = i.tval ∧ g'.trap.tlane = i.tlane ∧ g'.trap.tstat = i.tstat ∧
    g'.tpc = resume ∧ (∃ x, g'.units[g'.trap.tunit]? = some x ∧ x.uid = u.uid ∧ x.mask = u.mask) ∧
    g'.trap.tscr = g.trap.tscr ∧ g'.trap.savea = g.trap.savea ∧
    g'.active = [h] ∧ h.mask = g.live ∧ h.pc = ((s.context? (s.accessor g).asid).bind (·.tvec)).getD 0 ∧ h.loops = [] ∧ h.stack = [] ∧
    h.fmt = Config.fmtReset ∧ h.region = some g.live ∧ h.wait = .ready ∧ h.hint = none ∧
    g' = { g with units := g'.units, nextUid := g'.nextUid, handler := g'.handler, halted := g'.halted, trap := g'.trap, sregs := g'.sregs,
                  vregs := g'.vregs, pending := g'.pending, unread := g'.unread, tokFaults := g'.tokFaults, async := g'.async, draining := none }
  others : s.beginsStop g.pid i.cause = false → ∀ n, n ≠ g.id → t.group? n = s.group? n
  chosen : t.sel = none

end Sys2Proof.Stated

/-! ### Checks, stalls and traps (R16, R35, R40, R48 to R50, R187 to R196, R206) -/

/-- What a word raises before it has any effect, in the order of the checks (R49, R206): a scope fault at a unit that stands outside its segment, the
illegal-instruction fault for codes, registers and hints, the privilege fault at level 0, the illegal-instruction fault for a control register that
may not be written, and the register-bounds fault, whose TLANE is the current mask. The word changes nothing. -/
def Sys2Proof.Stated.CheckFaults : Prop :=
  ∀ (i : Instr) (w : Nat) (s : State) (g : Group) (u : GUnit), encodeNat i = some w → Chosen s g u →
    let valid := codesOk u.hint 1 (fmtB u.fmt) i = true ∧ hintOk u.hint i = true ∧ (isHint i = true → atLast g u u.pc = false)
    (strayed g u = true → faultsWith i s g u 4 u.mask) ∧
    (strayed g u = false → ¬valid → faultsWith i s g u 1 u.mask) ∧
    (strayed g u = false → valid → privileged i = true → g.trap.tmode = false → faultsWith i s g u 2 u.mask) ∧
    (∀ m a c, i = .csrw m a c → strayed g u = false → valid → (privileged i = true → g.trap.tmode = true) → csrWritable g.trap.tmode c.toNat = false →
      faultsWith i s g u 1 u.mask) ∧
    (strayed g u = false → valid → (privileged i = true → g.trap.tmode = true) →
      (∀ m a c, i = .csrw m a c → csrWritable g.trap.tmode c.toNat = true) →
      (∃ f, f ∈ vReads (fmtB u.fmt) i ++ vWrites (fmtB u.fmt) i ∧ g.valloc < g.vwin + f.1 + f.2) → faultsWith i s g u 3 (currentMask g u))

/-- What holds a word back (R16, R35): a register that is a pending token is stall reason 2, one that awaits the write of an issued instruction is
held by the interlock, also where that instruction is an AtomicOp to host memory (R277); a release or fence at `sys` waits for such an AtomicOp
of its group; the unit keeps its PC and nothing else changes. A masked word whose active mask is empty waits for none of them (R72); and the
first word to read a completed token that carries a fault takes that fault. -/
def Sys2Proof.Stated.RegisterStalls : Prop :=
  ∀ (i : Instr) (s : State) (g : Group) (u : GUnit), Chosen s g u → gate g u i = none →
    ((hasMask i = true → activeMask g u (predField i) ≠ 0) → (∃ r, r ∈ sReads i ++ sWrites i ∧ g.isPending r = true) → waits i s g u (.stall 2)) ∧
    ((hasMask i = true → activeMask g u (predField i) ≠ 0) → (∀ r, r ∈ sReads i ++ sWrites i → g.isPending r = false) →
      (∃ w ∈ s.writes, w.group = g.id ∧ w.vreg = none ∧ w.sreg ≠ 0 ∧ w.sreg ∈ sReads i ++ sWrites i) → waits i s g u .hold) ∧
    ((hasMask i = true → activeMask g u (predField i) ≠ 0) → (∀ r, r ∈ sReads i ++ sWrites i → g.isPending r = false) →
      (∃ w ∈ s.writes, ∃ r pair f, w.group = g.id ∧ w.vreg = some (r, pair) ∧ f ∈ vReads (fmtB u.fmt) i ++ vWrites (fmtB u.fmt) i ∧
        g.vwin + f.1 ≤ r + flag pair ∧ r < g.vwin + f.1 + f.2) → waits i s g u .hold) ∧
    ((hasMask i = true → activeMask g u (predField i) ≠ 0) → (∀ r, r ∈ sReads i ++ sWrites i → g.isPending r = false) →
      (∃ x ∈ s.atomics, x.group = g.id ∧ x.sreg ≠ 0 ∧ x.sreg ∈ sReads i ++ sWrites i) → waits i s g u .hold) ∧
    (hasMask i = false → (∀ r, r ∈ sReads i ++ sWrites i → g.isPending r = false) → s.heldUp g u i = false → s.streamHeld g u i = false →
      ordersFar i = true → (∃ x ∈ s.atomics, x.group = g.id) → waits i s g u (.stall 2)) ∧
    (hasMask i = true → activeMask g u (predField i) = 0 → s.stallOf g u i = none ∧ tokenFault g u i = none) ∧
    (∀ r t, s.stallOf g u i = none → maskEmpty g u i = false → g.tokFaults = [(r, t)] → r ∈ sReads i →
      exec i s = .next ((s.setGroup { g with tokFaults := [] }).takeTrap g.id u.uid { t with tlane := if t.cause = 17 then 0 else u.mask } 0 false))

/-- Taking a trap (R188, R190, R192): outside trap mode the group enters its handler; TCAUSE, TVAL, TLANE and TSTAT hold what the trap gives, and the
trapping unit resumes at its word, or at the hint before it. With an AtomicOp of the group still in flight the group first waits for it (R188). -/
def Sys2Proof.Stated.TrapEntry : Prop :=
  ∀ (s : State) (g : Group) (u : GUnit) (i : TrapInfo) (skip : Word) (async : Bool), s.group? g.id = some g → g.trap.tmode = false → u ∈ g.units →
    Apart g → i.cause < 256 →
    (s.atomics.any (fun x => decide (x.group = g.id)) = false → InHandler s (s.takeTrap g.id u.uid i skip async) g u i async (savedPc u + skip)) ∧
    (s.atomics.any (fun x => decide (x.group = g.id)) = true →
      (s.takeTrap g.id u.uid i skip async).group? g.id = some { g with draining := some { unit := u.uid, info := i, skip := skip, async := async } } ∧
      ∀ n, n ≠ g.id → (s.takeTrap g.id u.uid i skip async).group? n = s.group? n)

/-- A double fault (R189): a trap in trap mode halts the group with stall reason 21 and asks for its queue to be reset at the queue rung; trap
registers and saved units stand. -/
def Sys2Proof.Stated.DoubleFault : Prop :=
  ∀ (s : State) (g : Group) (u : GUnit) (i : TrapInfo) (skip : Word) (async : Bool), s.group? g.id = some g → g.trap.tmode = true → g.handler = some u →
    let t := s.takeTrap g.id u.uid i skip async
    t.group? g.id = some { g with doubleFault := true, handler := some { u with wait := .stall 21, hint := none } } ∧
      (∀ n, n ≠ g.id → t.group? n = s.group? n) ∧ t.mem = s.mem ∧
      (∀ b k q, s.block? g.block = some b → s.grid? b.grid = some k → s.queue? k.qid = some q →
        ∃ r, .resetQueue r ∈ t.due ∧ r.w2 = BitVec.ofNat 64 k.qid ∧ r.fn = q.fn)

/-- `trap` raises cause 21 with its imm14 in TVAL, and `brk` cause 23; both resume at PC + 4 (R190, R192, R194, R426). Said for a
group without an AtomicOp in flight. -/
def Sys2Proof.Stated.TrapWords : Prop :=
  ∀ (s : State) (g : Group) (u : GUnit) (m : BitVec 1) (c : BitVec 14), g.trap.tmode = false → Apart g →
    s.atomics.any (fun x => decide (x.group = g.id)) = false →
    (Issues (.trap m c) s g u → ∃ t, exec (.trap m c) s = .next t ∧
      InHandler s t g u { cause := 21, tval := c.setWidth 64, tstat := 0, tlane := u.mask } false (u.pc + 4)) ∧
    (Issues (.brk m) s g u → ∃ t, exec (.brk m) s = .next t ∧
      InHandler s t g u { cause := 23, tval := 0, tstat := 0, tlane := u.mask } false (u.pc + 4))

/-- `rte` (R206): the level returns to 0, the handler unit is gone, the saved units go on where they were saved, and the group is no longer
halted; no register, no other group and no byte of memory changes. Said for a group without entries to replay. -/
def Sys2Proof.Stated.ReturnFromTrap : Prop :=
  ∀ (s : State) (g : Group) (u : GUnit) (m : BitVec 1), Issues (.rte m) s g u → g.trap.tmode = true → g.replay = [] → Apart g → g.segment ≠ .none →
    ∃ t g', exec (.rte m) s = .next t ∧ t.group? g.id = some g' ∧ g'.trap = { g.trap with tmode := false } ∧ g'.handler = none ∧ g'.halted = false ∧
      g' = { g with units := g'.units, handler := none, recon := g'.recon, halted := false, trap := g'.trap, trace := g'.trace,
                    lastIssue := g'.lastIssue, unread := g'.unread } ∧
      (∀ x ∈ g.units, x.wait = .ready → g.units = [x] ∨ atEnd { g with trap := { g.trap with tmode := false } } x = false → Stands t g.id x) ∧
      t.mem = s.mem ∧ t.queues = s.queues ∧ ∀ n, n ≠ g.id → t.group? n = s.group? n

namespace Sys2Proof.Stated

/-- What a control register reads as (R196): FFLGS, which is write-only, reads zero (R7). -/
def csrTable (s : State) (g : Group) (u : GUnit) (n : Nat) : Word :=
  let b := s.blockOf g
  if n = 0x000 then u.fmt
  else if n = 0x001 then g.fflg.setWidth 64
  else if n = 0x002 then 0
  else if n = 0x003 then BitVec.ofNat 64 g.vwin
  else if n = 0x004 then BitVec.ofNat 64 (8 * g.chunks)
  else if n = 0x005 then BitVec.ofNat 64 g.role
  else if n = 0x006 then g.acbase
  else if n = 0x007 then g.aclim
  else if n ≤ 0x00D then (g.rgmap[n - 0x008]?).getD 0
  else if n ≤ 0x01F then (g.qb[n - 0x010]?).getD 0
  else if n = 0x020 then BitVec.ofNat 64 (g.core % 2 ^ 12 * 2 ^ 12 + g.slot % 32 * 2 ^ 7)
  else if n = 0x021 then (if b.timed then 1 else 0)
  else if n = 0x022 then BitVec.ofNat 64 b.acRows
  else if n = 0x100 then g.trap.tcause
  else if n = 0x101 then g.tpc
  else if n = 0x102 then g.trap.tval
  else if n = 0x103 then g.trap.tlane.setWidth 64
  else if n = 0x104 then g.trap.tstat
  else if n = 0x105 then BitVec.ofNat 64 g.trap.tunit
  else if n = 0x106 then ((s.context? b.asid).bind (·.tvec)).getD 0
  else if n = 0x107 then (if g.trap.tmode then 1 else 0)
  else if n ≤ 0x10B then (g.trap.tscr[n - 0x108]?).getD 0
  else if n = 0x10C then g.trap.savea
  else if n = 0x110 then ((s.partition? (s.partOf g)).map (·.suspBase)).getD 0
  else if n = 0x111 then 73728
  else BitVec.ofNat 64 (((s.partition? (s.partOf g)).map (·.suspSlots)).getD 0)

end Sys2Proof.Stated

/-- `csrr` reads the control register that its number names (R195, R196). -/
def Sys2Proof.Stated.ControlRegisterRead : Prop :=
  ∀ m d c, writesScalar (.csrr m d c) d fun s g u => csrTable s g u c.toNat

/-- `csrw` (R195, R196): FMT is written as `fmt.set` does, or the format fault; FFLG is cleared where ones are written and FFLGS sets it; a queue
binding is checked as `qbind` checks it; the writable bits of the others take the value; of a value written where a PC stands the two low bits are ignored (the model's choice: R33 makes a PC
a multiple of 4). A read-only register never gets here. -/
def Sys2Proof.Stated.ControlRegisterWrite : Prop :=
  ∀ (s : State) (g : Group) (u : GUnit) (m : BitVec 1) (a : BitVec 5) (c : BitVec 12), Issues (.csrw m a c) s g u →
    let v := g.s a.toNat
    let goes := fun s' g' => GoesTo (.csrw m a c) s s' g' (backEdge u)
    let trapSet := fun (t : TrapRegs) => goes s { g with trap := t }
    (c = 0x000 → fmtOk v = true → MayFall g u u → GoesTo (.csrw m a c) s s g { backEdge u with fmt := v }) ∧
    (c = 0x000 → fmtOk v = false →
      exec (.csrw m a c) s = .next (s.takeTrap g.id u.uid { cause := 10, tval := v, tstat := 0, tlane := u.mask } 0 false)) ∧
    (0x010 ≤ c.toNat → c.toNat ≤ 0x01F → s.bindingOk g v = false →
      exec (.csrw m a c) s = .next (s.takeTrap g.id u.uid { cause := 9, tval := v, tstat := 0, tlane := u.mask } 0 false)) ∧
    (MayFall g u u →
      (c = 0x001 → goes s { g with fflg := g.fflg &&& ~~~(v.setWidth 6) }) ∧
      (c = 0x002 → goes s { g with fflg := g.fflg ||| v.setWidth 6 }) ∧
      (c = 0x005 → goes s { g with role := v.toNat % 8 }) ∧
      (c = 0x006 → goes s { g with acbase := v &&& 0x7FF }) ∧
      (c = 0x007 → goes s { g with aclim := v &&& 0xFFF }) ∧
      (c = 0x100 → trapSet { g.trap with tcause := v &&& 0x1FF }) ∧
      (c = 0x101 → ∀ x, g.units[g.trap.tunit]? = some x → ∃ t g', exec (.csrw m a c) s = .next t ∧ After g.id s g t ∧ Stands t g.id (backEdge u) ∧
        t.group? g.id = some g' ∧ g'.tpc = v &&& ~~~3) ∧
      (c = 0x102 → trapSet { g.trap with tval := v }) ∧
      (c = 0x103 → trapSet { g.trap with tlane := v.setWidth 32 }) ∧
      (c = 0x104 → trapSet { g.trap with tstat := v }) ∧
      (c = 0x106 → ∀ x, s.context? (s.blockOf g).asid = some x → goes (s.setContext { x with tvec := some (v &&& ~~~3) }) g) ∧
      (0x108 ≤ c.toNat → c.toNat ≤ 0x10B → trapSet { g.trap with tscr := g.trap.tscr.setIfInBounds (c.toNat - 0x108) v }) ∧
      (c = 0x10C → trapSet { g.trap with savea := v }))

namespace Sys2Proof.Stated

/-- An access of n bytes at an address reaches a place: in a timed block it stays in the windows, it is aligned, its page is translated with the
permission that it needs or it lies in scratchpad, and no tile transfer of the group moves those bytes (R113, R119 to R121, R221, R249, R393). -/
structure Reaches (s : State) (g : Group) (c : Access) (n : Nat) (va : Word) (pl : Place) : Prop where
  classed : (s.blockOf g).timed = true → va.toNat / 2 ^ 56 = 0xFF
  aligned : va.toNat % n = 0
  place : s.placeAt g c n va = .hit pl
  apart : s.transferAt g.id pl n = false

/-- The bytes of a place can be read: the group's cache holds them, or no containment covers them (R26). -/
def Readable (s : State) (g : Group) (pl : Place) : Prop := s.holdsPlace (s.accessor g) pl = true ∨ s.placePoison pl = none

/-- n loaded bytes as a register receives them: sign-extended or zero-extended (R82, R114). -/
def extended (n : Nat) (signed : Bool) (v : Nat) : Word :=
  if signed then (BitVec.ofNat (8 * n) v).signExtend 64 else (BitVec.ofNat (8 * n) v).setWidth 64

/-- A register write that has issued and not completed (R35). -/
def awaits (s : State) (w : Nat → PendingWrite) : State := { s with writes := s.writes ++ [w s.ids], ids := s.ids + 1 }

/-- Loads made lane by lane in ascending order: the state after them, and each lane's value. -/
def loadLanes (s : State) (a : Accessor) (n : Nat) (signed : Bool) (pl : Nat → Place) : List Nat → State × List (Nat × Word)
  | [] => (s, [])
  | l :: rest =>
    let r := s.load a (pl l) n
    let q := loadLanes r.1 a n signed pl rest
    (q.1, (l, extended n signed r.2) :: q.2)

/-- A state after an acquire that orders, at a scope (R230, R261). -/
def acquired (s : State) (g : Group) (acq : Option Nat) (orders : Bool) : State :=
  match acq with
  | some k => if orders then s.acquire (s.accessor g) k else s
  | none => s

/-- A vector load of n bytes per lane whose active lanes all reach their places (R35, R75, R113, R114): a load from scratchpad alone writes its
registers at once, another when it completes; inactive lanes load nothing and keep their registers. -/
def loadsLanes (i : Instr) (d n : Nat) (signed : Bool) (acq : Option Nat) (addr : Group → GUnit → Nat → Word) : Prop :=
  ∀ (s : State) (g : Group) (u : GUnit) (pl : Nat → Place), Issues i s g u → u.unfinished = none → activeMask g u (predField i) ≠ 0 →
    (∀ l ∈ lanesOf (activeMask g u (predField i)), Reaches s g .read n (addr g u l) (pl l) ∧ Readable s g (pl l)) →
    let m := activeMask g u (predField i)
    let r := loadLanes s (s.accessor g) n signed pl (lanesOf m)
    let s' := acquired r.1 g acq ((lanesOf m).any fun l => decide (placeOrd (pl l) ≠ 2))
    ((∀ l ∈ lanesOf m, isPad (pl l) = true) → FallsClear g u →
      ∃ t g', exec i s = .next t ∧ OnlyGroup g.id s' t ∧ t.group? g.id = some g' ∧ OnlyLanes g g' d (if n = 8 then 2 else 1) m ∧ g'.fflg = g.fflg ∧
        (∀ l, g'.gen l = g.gen l) ∧
        ∀ x ∈ r.2, if n = 8 then g'.v64 d x.1 = x.2 else g'.v d x.1 = x.2.setWidth 32) ∧
    ((∃ l ∈ lanesOf m, isPad (pl l) = false) → MayFall g u u →
      GoesTo i s (awaits s' fun id =>
        { id := id, group := g.id, vreg := some (g.vwin + d, decide (n = 8)), sreg := 0, lanes := r.2, reply := false }) g (backEdge u))

/-- Stores made lane by lane in ascending order, so that the highest lane's bytes stay where lanes overlap (R115). -/
def storeLanes (s : State) (a : Accessor) (n : Nat) (pl : Nat → Place) (data : Nat → Nat) : List Nat → State
  | [] => s
  | l :: rest => storeLanes (s.store a (pl l) n (data l)) a n pl data rest

/-- Before and after a store that releases at a scope: what the group has written reaches the scope's point first (R230, R236). A release orders
nothing where every byte lies on an unordered page (R233, R261). -/
def releasing (s : State) (a : Accessor) (rel : Option Nat) : State :=
  match rel with
  | some k => s.release a k
  | none => s

/-- A vector store of n bytes per lane whose active lanes all reach their places and that no confirmation holds back (R113, R115, R118, R283): only the bytes at the active lanes'
addresses are stored to, and no register changes. -/
def storesLanes (i : Instr) (d n : Nat) (rel : Option Nat) (addr : Group → GUnit → Nat → Word) : Prop :=
  ∀ (s : State) (g : Group) (u : GUnit) (pl : Nat → Place), Issues i s g u → u.unfinished = none → activeMask g u (predField i) ≠ 0 →
    (∀ l ∈ lanesOf (activeMask g u (predField i)), Reaches s g .write n (addr g u l) (pl l)) →
    let a := s.accessor g
    let m := activeMask g u (predField i)
    let rel' := if (lanesOf m).any fun l => decide (placeOrd (pl l) ≠ 2) then rel else none
    s.storeHolds g rel' ((lanesOf m).map fun l => (l, addr g u l, pl l)) = false →
    rel' = none ∨ (∀ o ∈ s.tileOps, o.group ≠ g.id) → (rel' = some 4 → NoneLost s g) → MayFall g u u →
    GoesTo i s (releasing (storeLanes (releasing s a rel') a n pl (fun l => if n = 8 then (g.v64 d l).toNat else (g.v d l).toNat) (lanesOf m)) a rel') g
      (backEdge u)

/-- A cached sector without the mark that another view has overtaken it (R231). -/
def unaged (x : Sector) : Sector := { x with stale := false }

/-- The address of a scalar access: the sum of two scalars (R82). -/
def sumAddr (g : Group) (a b : BitVec 5) : Word := g.s a.toNat + g.s b.toNat

/-- The bytes of an access width, and whether it sign-extends (R38). -/
def byteCount (w : BitVec 3) : Nat := if w.toNat ≤ 1 then 1 else if w.toNat ≤ 3 then 2 else if w.toNat = 4 then 4 else 8

/-- A lane's address: the scalar base plus the lane's offset, read as unsigned (R114). -/
def offsetAddr (a : BitVec 6) (b : BitVec 5) (g : Group) (_ : GUnit) (l : Nat) : Word := g.s b.toNat + (g.v a.toNat l).setWidth 64

/-- A lane's address in a strip of words: the scalar base, plus four bytes for each unit of the immediate, plus four a lane (R44, R114). -/
def wordAddr (a : BitVec 5) (i : BitVec 8) (g : Group) (u : GUnit) (l : Nat) : Word :=
  g.s a.toNat + BitVec.ofInt 64 (4 * (imm8 u.hint false i).toInt) + BitVec.ofNat 64 (4 * l)

end Sys2Proof.Stated

/-! ### Memory (R72, R82, R113 to R121, R221 to R231, R236 to R246, R263, R264, R277, R283) -/

/-- A word of format A or B whose active mask is empty reads and writes nothing: no register, predicate, flag, generator or byte of memory changes,
and it raises no fault (R72). -/
def Sys2Proof.Stated.EmptyMask : Prop :=
  ∀ (i : Instr) (s : State) (g : Group) (u : GUnit), Issues i s g u → FallsClear g u → hasMask i = true → activeMask g u (predField i) = 0 →
    ∃ t, exec i s = .next t ∧ After g.id s g t

/-- Loads (R35, R82, R113, R114, R116 to R118): the bytes at the address, extended, are written into the destination at once from
scratchpad and otherwise when the load completes; an `.acq` form then acquires at its scope. `vldu` loads one value for all active lanes, and `vprf`
changes nothing. -/
def Sys2Proof.Stated.LoadWords : Prop :=
  (∀ m d a b w x o k (s : State) (g : Group) (u : GUnit) (pl : Place), Issues (.sld m d a b w x o k) s g u →
    Reaches s g .read (2 ^ w.toNat) (sumAddr g a b) pl → Readable s g pl → MayFall g u u →
    let r := s.load (s.accessor g) pl (2 ^ w.toNat)
    let v := extended (2 ^ w.toNat) (decide (x = 1)) r.2
    let s' := acquired r.1 g (if o = 1 then some k.toNat else none) (decide (placeOrd pl ≠ 2))
    (isPad pl = true ∨ d = 0 → GoesTo (.sld m d a b w x o k) s s' (g.setS d.toNat v) (backEdge u)) ∧
    (isPad pl = false → d ≠ 0 → GoesTo (.sld m d a b w x o k) s
      (awaits s' fun id => { id := id, group := g.id, vreg := none, sreg := d.toNat, lanes := [(0, v)], reply := false }) g (backEdge u))) ∧
  (∀ m p d a b w, loadsLanes (.vld m p d a b w) d.toNat (byteCount w) (decide (w = 1 ∨ w = 3)) none (offsetAddr a b)) ∧
  (∀ m p d a i, loadsLanes (.vldImm m p d a i) d.toNat 4 false none (wordAddr a i)) ∧
  (∀ m p d a b k, loadsLanes (.vldAcq m p d a b k) d.toNat 4 false (some k.toNat) (offsetAddr a b)) ∧
  (∀ m p d b w (s : State) (g : Group) (u : GUnit) (pl : Place), Issues (.vldu m p d b w) s g u → activeMask g u p.toNat ≠ 0 → u.unfinished = none →
    Reaches s g .read (byteCount w) (g.s b.toNat) pl → Readable s g pl →
    let ls := lanesOf (activeMask g u p.toNat)
    let r := s.load (s.accessor g) pl (byteCount w)
    let v := extended (byteCount w) (decide (w = 1 ∨ w = 3)) r.2
    (isPad pl = true → FallsClear g u → ∃ t g', exec (.vldu m p d b w) s = .next t ∧ OnlyGroup g.id s t ∧ t.group? g.id = some g' ∧
      OnlyLanes g g' d.toNat (if w = 5 then 2 else 1) (activeMask g u p.toNat) ∧
      ∀ l ∈ ls, if w = 5 then g'.v64 d.toNat l = v else g'.v d.toNat l = v.setWidth 32) ∧
    (isPad pl = false → MayFall g u u → GoesTo (.vldu m p d b w) s (awaits r.1 fun id =>
      { id := id, group := g.id, vreg := some (g.vwin + d.toNat, decide (w = 5)), sreg := 0, lanes := ls.map fun l => (l, v), reply := false })
      g (backEdge u))) ∧
  (∀ m p a b (s : State) (g : Group) (u : GUnit), Issues (.vprf m p a b) s g u → MayFall g u u → GoesTo (.vprf m p a b) s s g (backEdge u))

/-- The completion of a load or of an atomic's reply (R35, R113, R277): its values reach the registers that it names, lane by lane, and the write
is no longer awaited. No other register of the group, no other group and no byte of memory changes. -/
def Sys2Proof.Stated.WriteCompletions : Prop :=
  ∀ (s : State) (w : PendingWrite) (g : Group), s.writes.find? (fun x => decide (x.id = w.id)) = some w → s.group? g.id = some g → w.group = g.id →
    (∀ x ∈ w.lanes, x.1 < 32) → w.lanes.Pairwise (fun x y => x.1 ≠ y.1) →
    let event := if w.reply then Instr.atomicReply w.id else Instr.loadComplete w.id
    ∃ t g', exec event s = .next t ∧ t.group? g.id = some g' ∧
      t = { s with writes := s.writes.filter (fun x => decide (x.id ≠ w.id)), groups := t.groups } ∧ (∀ n, n ≠ g.id → t.group? n = s.group? n) ∧
      (w.vreg = none → g' = g.setS w.sreg ((w.lanes.head?.map (·.2)).getD 0)) ∧
      (∀ r pair, w.vreg = some (r, pair) → g' = { g with vregs := g'.vregs } ∧
        (∀ x ∈ w.lanes, g'.vreg r x.1 = x.2.setWidth 32 ∧ (pair = true → g'.vreg (r + 1) x.1 = (x.2 >>> 32).setWidth 32)) ∧
        ∀ k l, l < 32 → (k ≠ r ∧ (pair = true → k ≠ r + 1)) ∨ (∀ x ∈ w.lanes, x.1 ≠ l) → g'.vreg k l = g.vreg k l)

/-- Stores (R82, R113, R115, R118): the low bytes of the source are stored at the address, which is computed from the registers; a `.rel` form
releases first at its scope, and makes its own bytes visible there. No register changes. -/
def Sys2Proof.Stated.StoreWords : Prop :=
  (∀ m d a b w o k (s : State) (g : Group) (u : GUnit) (pl : Place), Issues (.sst m d a b w o k) s g u →
    Reaches s g .write (2 ^ w.toNat) (sumAddr g a b) pl →
    let acc := s.accessor g
    let rel := if o = 2 ∧ placeOrd pl ≠ 2 then some k.toNat else none
    s.storeHolds g rel [(0, sumAddr g a b, pl)] = false → rel = none ∨ (∀ x ∈ s.tileOps, x.group ≠ g.id) → (rel = some 4 → NoneLost s g) →
    MayFall g u u →
    GoesTo (.sst m d a b w o k) s (releasing ((releasing s acc rel).store acc pl (2 ^ w.toNat) (g.s d.toNat).toNat) acc rel) g (backEdge u)) ∧
  (∀ m p d a b w, storesLanes (.vst m p d a b w) d.toNat (byteCount w) none (offsetAddr a b)) ∧
  (∀ m p d a i, storesLanes (.vstImm m p d a i) d.toNat 4 none (wordAddr a i)) ∧
  (∀ m p d a b k, storesLanes (.vstRel m p d a b k) d.toNat 4 (some k.toNat) (offsetAddr a b))

/-- What one store does to bytes (R220, R223, R230, R400). In scratchpad its bytes stand at once and every other byte, of this block and of every
other, as before. Through a tile cache they stand in the cached sector, from which the group's core reads them; no byte of physical memory changes
until it is written back. Where nothing caches, and where every way of the line's set is pinned (R229), they stand at their home, and every other byte of physical memory reads as before. -/
def Sys2Proof.Stated.StoredBytes : Prop :=
  (∀ (s : State) (a : Accessor) (b : Block) (off n v : Nat), s.block? b.id = some b →
    let t := s.store a (.pad b.id off) n v
    ∃ b', t.block? b.id = some b' ∧ b' = { b with pad := b'.pad } ∧ t.mem = s.mem ∧ t.cache = s.cache ∧ (∀ k, k ≠ b.id → t.block? k = s.block? k) ∧
      ∀ o, sget 0 b'.pad o = if off ≤ o ∧ o < off + n then BitVec.ofNat 8 (v / 256 ^ (o - off)) else sget 0 b.pad o) ∧
  (∀ (s : State) (a : Accessor) (pa ord key : Nat) (va : Word) (n v : Nat), a.unconfirmed = false → pa % 32 + n ≤ 32 →
    cacheable (placeRef pa ord key va) = true → s.noWay a (placeRef pa ord key va) = false →
    let r := placeRef pa ord key va
    let t := s.store a (.phys pa ord key va) n v
    t = { s with cache := t.cache } ∧ (t.cache.filter fun x => !isCopy a r x).map unaged = (s.cache.filter fun x => !isCopy a r x).map unaged ∧
      ∀ j, j < 32 → sectorByte (t.peekSector a r) j =
        if pa % 32 ≤ j ∧ j < pa % 32 + n then BitVec.ofNat 8 (v / 256 ^ (j - pa % 32)) else sectorByte (s.peekSector a r) j) ∧
  (∀ (s : State) (a : Accessor) (pa ord key : Nat) (va : Word) (n v : Nat), a.unconfirmed = false ∨ ord = 0 → 0 < n → pa % 32 + n ≤ 32 →
    (cacheable (placeRef pa ord key va) = false ∨
      (s.noWay a (placeRef pa ord key va) = true ∧ s.cache.any (isCopy a (placeRef pa ord key va)) = false)) →
    s.portDown (pa / 32 * 32) = false → (isHbm pa = true → s.epoch key ≠ 0) →
    let t := s.store a (.phys pa ord key va) n v
    t.cache.map unaged = s.cache.map unaged ∧ (∀ q, t.homeByte key q = if pa ≤ q ∧ q < pa + n then BitVec.ofNat 8 (v / 256 ^ (q - pa)) else s.homeByte key q) ∧
      ∀ k q, q / 32 ≠ pa / 32 → t.homeByte k q = s.homeByte k q)

namespace Sys2Proof.Stated

/-- An access of a doubleword that reaches a place; only some words have the class check (R119, R174, R242, R243). -/
structure va8 (s : State) (g : Group) (c : Access) (classed : Bool) (va : Word) (pl : Place) : Prop where
  classed : classed = true → (s.blockOf g).timed = true → va.toNat / 2 ^ 56 = 0xFF
  aligned : va.toNat % 8 = 0
  place : s.placeAt g c 8 va = .hit pl
  apart : s.transferAt g.id pl 8 = false

end Sys2Proof.Stated

/-- Where a scalar access faults, changing nothing, in the order of the checks (R113, R119 to R121, R190, R233): the class fault outside the windows in a
timed block, a misaligned address, a window address that names no storage, and a page of the reserved kind.
What the rules leave open here is the model's own choice or reading: log entries 16, 17, 18 and 157. -/
def Obligations.AccessFaults : Prop :=
  ∀ (s : State) (g : Group) (u : GUnit) (i : Instr) (c : Access) (n : Nat) (va : Word), Issues i s g u →
    ((∃ m d a b w x o k, i = .sld m d a b w x o k ∧ c = .read ∧ n = 2 ^ w.toNat ∧ va = sumAddr g a b) ∨
     (∃ m d a b w o k, i = .sst m d a b w o k ∧ c = .write ∧ n = 2 ^ w.toNat ∧ va = sumAddr g a b) ∨
     (∃ m d a b w o k, (i = .atomAdd m d a b w o k ∨ i = .atomAnd m d a b w o k ∨ i = .atomOr m d a b w o k ∨ i = .atomXor m d a b w o k ∨
        i = .atomXchg m d a b w o k ∨ i = .atomCas m d a b w o k ∨ ∃ un, i = .atomMin m d a b un w o k ∨ i = .atomMax m d a b un w o k) ∧ c = .atomic ∧ n = (if w = 1 then 8 else 4) ∧ va = g.s a.toNat)) →
    let trap := fun (cause : Nat) (stat : Word) =>
      exec i s = .next (s.takeTrap g.id u.uid { cause := cause, tval := va, tstat := stat, tlane := u.mask } 0 false)
    let classOk := (s.blockOf g).timed = true → va.toNat / 2 ^ 56 = 0xFF
    (¬classOk → trap 13 0) ∧
    (classOk → va.toNat % n ≠ 0 → trap 11 0) ∧
    (classOk → va.toNat % n = 0 → s.locate (s.blockOf g) va n = .nowhere → trap 12 0) ∧
    (classOk → va.toNat % n = 0 → s.placeAt g c n va = .badKind → trap 15 3) ∧
    (classOk → va.toNat % n = 0 → s.locate (s.blockOf g) va n ≠ .nowhere → s.placeAt g c n va = .miss →
      s.walkerFull (s.blockOf g).asid (va.toNat / 4096) (dieOfCore g.core) = false →
      ∃ t g' x w, exec i s = .next t ∧ t.group? g.id = some g' ∧ x ∈ g'.active ∧ x.uid = u.uid ∧ x.pc = u.pc ∧ x.wait = .parked ∧ SameRegs g g' ∧
        w ∈ t.walks ∧ w.asid = (s.blockOf g).asid ∧ w.page = va.toNat / 4096 ∧ t.mem = s.mem)

namespace Sys2Proof.Stated

/-- The operand bytes of an atomic's width (R238). -/
def atomBytes (w : BitVec 1) : Nat := if w = 1 then 8 else 4

/-- What an atomic does to the bytes at its address (R238 to R240): the group's own written bytes of the sector reach their home and its copies go;
the old value is read there and, unless a compare fails, the new value written, in one action. Answers the state and the old value. -/
def performed (s : State) (a : Accessor) (pl : Place) (n : Nat) (f : Nat → Option Nat) : State × Nat :=
  let s1 := s.expelPlace a pl
  let old := s1.homeValue pl n
  ((match f old with
    | some v => s1.storeHomeValue pl n (v % 2 ^ (8 * n))
    | none => s1), old)

/-- An AtomicOp as its completer performs it: the state after it and the old value (R272, R275). -/
def completed (s : State) (pl : Place) (n : Nat) (f : Nat → Option Nat) : State × Nat :=
  let old := s.homeValue pl n
  ((match f old with
    | some v => s.storeHomeValue pl n (v % 2 ^ (8 * n))
    | none => s), old)

/-- An atomic word whose bytes the module, a peer or scratchpad holds (R238 to R241, R277): it releases first, acquires last, and writes the old value into
its destination, at once from scratchpad and else by its reply; only `.s32` extends the sign. -/
def atomicWord (i : Instr) (d a : BitVec 5) (n : Nat) (o : BitVec 2) (k : BitVec 3) (signed : Bool) (f : Group → Nat → Option Nat) : Prop :=
  ∀ (s : State) (g : Group) (u : GUnit) (pl : Place), Issues i s g u → Reaches s g .atomic n (g.s a.toNat) pl → placeOrd pl ≠ 2 →
    (s.blockOf g).confirmed = true → atHost pl = false → atDevice pl = false → s.placePoison pl = none → (∀ x ∈ s.tileOps, x.group ≠ g.id) →
    (o = 2 → k = 4 → NoneLost s g) → MayFall g u u →
    let acc := s.accessor g
    let p := performed (if o = 2 then s.release acc k.toNat else s) acc pl n (f g)
    let s' := if o = 1 then p.1.acquire acc k.toNat else p.1
    let v := extended n (signed && decide (n = 4)) p.2
    (isPad pl = true ∨ d = 0 → GoesTo i s s' (g.setS d.toNat v) (backEdge u)) ∧
    (isPad pl = false → d ≠ 0 → GoesTo i s
      (awaits s' fun id => { id := id, group := g.id, vreg := none, sreg := d.toNat, lanes := [(0, v)], reply := true }) g (backEdge u))

/-- The operand of an atomic, in its width. -/
def atomOperand (g : Group) (b n : Nat) : Nat := (g.s b).toNat % 2 ^ (8 * n)

/-- An atomic's operation on the old value and the operand. -/
def atomicOp (word : BitVec 1 → BitVec 5 → BitVec 5 → BitVec 5 → BitVec 1 → BitVec 2 → BitVec 3 → Instr) (f : Nat → Nat → Nat) : Prop :=
  ∀ m d a b w o k, atomicWord (word m d a b w o k) d a (atomBytes w) o k false fun g old => some (f old (atomOperand g b.toNat (atomBytes w)))

/-- A value of n bytes read as signed. -/
def signedBytes (n v : Nat) : Int := (BitVec.ofNat (8 * n) v).toInt

/-- A sector that the group's caches hold dirty and alone: no other dirty copy holds its bytes, and its home can be written and read under its key. -/
structure SoleDirty (s : State) (a : Accessor) (x : Sector) : Prop where
  held : x ∈ s.cache ∧ inCache a x = true ∧ x.marked = none
  sole : ∀ y ∈ s.cache, y ≠ x → y.dirty ≠ 0 → y.pa + 32 ≤ x.pa ∨ x.pa + 32 ≤ y.pa
  once : s.cache.count x = 1
  home : x.pa % 32 = 0 ∧ s.portDown x.pa = false ∧ (isHbm x.pa = true → s.epoch x.key ≠ 0)

/-- In `t` the dirty bytes of a sector stand at their home. -/
def atHome (t : State) (x : Sector) : Prop := ∀ j, j < 32 → x.dirty.getLsbD j = true → t.homeByte x.key (x.pa + j) = sectorByte x.data j

/-- A fence of a group without tile transfers (R236, R263, R264). -/
def fences (i : Instr) (holds far : Bool) : Prop :=
  ∀ (s : State) (g : Group) (u : GUnit), Issues i s g u → (∀ x ∈ s.tileOps, x.group ≠ g.id) → (holds = true → (s.blockOf g).confirmed = true) →
    (far = true → NoneLost s g) → MayFall g u u → GoesTo i s (s.separateViews (s.accessor g)) g (backEdge u)

/-- A word that waits on a sector (R135, R243, R246): the unit goes on once it is woken, with a watch entry of its core; the rest of the machine is as
in `s1`. -/
def watches (i : Instr) (s s1 : State) (g g' : Group) (u : GUnit) (sector : Nat) : Prop :=
  let c := s1.core g.core
  GoesTo i s (s1.setCore { c with watches := c.watches ++ [{ sector := sector, group := g.id, unit := u.uid }], watchQueue := c.watchQueue.filter fun w => decide (w ≠ (g.id, u.uid)) }) g' u ∧
  ∃ t h x, exec i s = .next t ∧ t.group? g.id = some h ∧ x ∈ h.active ∧ x.uid = u.uid ∧ x.wait = .suspended sector

end Sys2Proof.Stated

/-- The atomic words (R238 to R241): the operation on the old value and the operand, at the home of the bytes, in one action that no other write
divides; a `cas` whose compare fails writes nothing. -/
def Sys2Proof.Stated.AtomicWords : Prop :=
  atomicOp .atomAdd (fun x y => x + y) ∧
  atomicOp .atomAnd (fun x y => x &&& y) ∧
  atomicOp .atomOr (fun x y => x ||| y) ∧
  atomicOp .atomXor (fun x y => x ^^^ y) ∧
  atomicOp .atomXchg (fun _ y => y) ∧
  (∀ m d a b un w o k, atomicWord (.atomMin m d a b un w o k) d a (atomBytes w) o k (decide (un = 0)) fun g old =>
    let y := atomOperand g b.toNat (atomBytes w)
    some (if un = 0 then (if signedBytes (atomBytes w) y < signedBytes (atomBytes w) old then y else old) else min old y)) ∧
  (∀ m d a b un w o k, atomicWord (.atomMax m d a b un w o k) d a (atomBytes w) o k (decide (un = 0)) fun g old =>
    let y := atomOperand g b.toNat (atomBytes w)
    some (if un = 0 then (if signedBytes (atomBytes w) old < signedBytes (atomBytes w) y then y else old) else max old y)) ∧
  (∀ m d a b w o k, atomicWord (.atomCas m d a b w o k) d a (atomBytes w) o k false fun g old =>
    if old = atomOperand g b.toNat (atomBytes w) then some (atomOperand g (b.toNat + 1) (atomBytes w)) else none)

/-- Atomics that no home of the module performs (R233, R241, R261, R275, R277). On an unordered page, at a root-port device, and at the host where no AtomicOp
performs it, an atomic is the page-kind fault, with the page's kind in TSTAT. To host memory `add`, `xchg`, `cas` and `evinc` send a PCIe AtomicOp and
the unit goes on; its completion performs the operation once and writes the old value, and Unsupported Request is the page-kind fault. -/
def Sys2Proof.Stated.OutsideAtomics : Prop :=
  (∀ (s : State) (g : Group) (u : GUnit) (pl : Place) m d a b un w o k i, Reaches s g .atomic (atomBytes w) (g.s a.toNat) pl →
    (placeOrd pl = 2 ∨ atDevice pl = true ∨ atHost pl = true) →
    (i = .atomAnd m d a b w o k ∨ i = .atomOr m d a b w o k ∨ i = .atomXor m d a b w o k ∨ i = .atomMin m d a b un w o k ∨ i = .atomMax m d a b un w o k ∨
      ((placeOrd pl = 2 ∨ atDevice pl = true) ∧ (i = .atomAdd m d a b w o k ∨ i = .atomXchg m d a b w o k ∨ i = .atomCas m d a b w o k))) →
    Issues i s g u →
    exec i s = .next (s.takeTrap g.id u.uid
      { cause := 15, tval := g.s a.toNat, tstat := BitVec.ofNat 64 (placeOrd pl), tlane := u.mask } 0 false)) ∧
  (∀ (s : State) (g : Group) (u : GUnit) (pl : Place) m d a b w o k i op, Issues i s g u → Reaches s g .atomic (atomBytes w) (g.s a.toNat) pl →
    placeOrd pl ≠ 2 → (s.blockOf g).confirmed = true → atHost pl = true → (o = 2 → ∀ x ∈ s.tileOps, x.group ≠ g.id) →
    (o = 2 → k = 4 → NoneLost s g) → MayFall g u u →
    ((i = .atomAdd m d a b w o k ∧ op = 0) ∨ (i = .atomXchg m d a b w o k ∧ op = 1) ∨ (i = .atomCas m d a b w o k ∧ op = 2)) →
    let s1 := if o = 2 then s.release (s.accessor g) k.toNat else s
    GoesTo i s { s1 with ids := s1.ids + 1, atomics := s1.atomics ++ [{ id := s1.ids, group := g.id, unit := u.uid, lanes := u.mask, op := op, wide := decide (w = 1), place := pl, operand := g.s b.toNat, swap := if op = 2 then g.s (b.toNat + 1) else 0, sreg := d.toNat, acq := if o = 1 then some k.toNat else none }] } g
      (backEdge u)) ∧
  (∀ (s : State) (g : Group) (u : GUnit) (pl : Place) m a b k, Issues (.evinc m a b k) s g u → va8 s g .atomic false (g.s a.toNat) pl →
    placeOrd pl ≠ 2 → (s.blockOf g).confirmed = true → atHost pl = true → (∀ x ∈ s.tileOps, x.group ≠ g.id) → (k = 4 → NoneLost s g) → MayFall g u u →
    let s1 := s.release (s.accessor g) k.toNat
    GoesTo (.evinc m a b k) s { s1 with ids := s1.ids + 1, atomics := s1.atomics ++ [{ id := s1.ids, group := g.id, unit := u.uid, lanes := u.mask, op := 0, wide := true, place := pl, operand := g.s b.toNat, swap := 0, sreg := 0, acq := none }] } g
      (backEdge u)) ∧
  (∀ (s : State) (g : Group) (h : HostAtomic), s.atomics.find? (fun x => decide (x.id = h.id)) = some h → s.group? g.id = some g →
    h.group = g.id → g.draining = none → h.acq = none →
    let n := if h.wide then 8 else 4
    let x := h.operand.toNat % 2 ^ (8 * n)
    let p := completed { s with atomics := s.atomics.filter fun x => decide (x.id ≠ h.id) } h.place n fun old =>
      if h.op = 0 then some (old + x) else if h.op = 1 then some x else if old = x then some (h.swap.toNat % 2 ^ (8 * n)) else none
    ∃ t, exec (.hostAtomicopCompletion h.id false) s = .next t ∧ After g.id p.1 (g.setS h.sreg (BitVec.ofNat 64 p.2)) t) ∧
  (∀ (s : State) (g : Group) (u : GUnit) (h : HostAtomic) (pa ord key : Nat) (va : Word), s.atomics.find? (fun x => decide (x.id = h.id)) = some h →
    s.group? g.id = some g → h.group = g.id → g.trap.tmode = false → g.draining = none → u ∈ g.units → u.uid = h.unit → Apart g →
    h.place = .phys pa ord key va → (∀ x ∈ s.atomics, x.id ≠ h.id → x.group ≠ g.id) →
    ∃ t, exec (.hostAtomicopCompletion h.id true) s = .next t ∧
      InHandler s t g u { cause := 15, tval := va, tstat := BitVec.ofNat 64 ord, tlane := h.lanes } false (savedPc u))

/-- Fences and what they and releases make visible (R230, R231, R236, R261, R264): a fence writes back what the group's caches hold dirty and leaves them no
clean copy of a page that it orders; `fence.flush` does so for every page; after them, and after a release at a scope whose point lies beyond those
caches, the dirty bytes stand at their home. -/
def Sys2Proof.Stated.Fences : Prop :=
  (∀ m k, fences (.fence m k) (decide (2 ≤ k.toNat)) (decide (k = 4))) ∧ (∀ m k, fences (.fenceAcq m k) false false) ∧
  (∀ m k, fences (.fenceRel m k) (decide (2 ≤ k.toNat)) (decide (k = 4))) ∧
  (∀ m (s : State) (g : Group) (u : GUnit), Issues (.fenceFlush m) s g u →
    ((s.blockOf g).timed = true → exec (.fenceFlush m) s = .next (s.takeTrap g.id u.uid { cause := 13, tval := 0, tstat := 0, tlane := u.mask } 0 false)) ∧
    ((s.blockOf g).timed = false → (∀ x ∈ s.tileOps, x.group ≠ g.id) → (s.blockOf g).confirmed = true → NoneLost s g → MayFall g u u →
      GoesTo (.fenceFlush m) s ((s.separateViews (s.accessor g)).flushCache (s.accessor g)) g (backEdge u))) ∧
  (∀ (s : State) (a : Accessor) (x : Sector), SoleDirty s a x → atHome (s.flushCache a) x ∧ (x.ord ≠ 2 → atHome (s.separateViews a) x)) ∧
  (∀ (s : State) (a : Accessor), (∀ x ∈ (s.flushCache a).cache, inCache a x = true → x.marked ≠ none) ∧
    ∀ x ∈ (s.separateViews a).cache, inCache a x = true → x.ord ≠ 2 → x.marked ≠ none) ∧
  (∀ (s : State) (a : Accessor) (x : Sector) (scope : Nat), SoleDirty s a x → x.ord ≠ 2 → 3 ≤ scope ∨ (scope = 2 ∧ a.fused = false) →
    atHome (s.release a scope) x) ∧
  (∀ (s : State) (a : Accessor) (scope : Nat), 3 ≤ scope ∨ (scope = 2 ∧ a.fused = false) →
    ∀ x ∈ (s.acquire a scope).cache, inCache a x = true → x.ord ≠ 2 → x.marked = none → x.dirty ≠ 0)

/-- Event counters and waits (R135, R174, R242 to R246, R258): `evinc` adds to a counter with a release; `waita` reads the word at its home, where the
group's own stores have reached it, and waits for a
write of its sector when it equals the operand, in one action; `suspend.g` goes on at its target when the counter has reached its value, and else
waits there; `wakea` wakes what waits on a sector. -/
def Sys2Proof.Stated.CountersAndWaits : Prop :=
  (∀ (s : State) (g : Group) (u : GUnit) (pl : Place) (m : BitVec 1) (a b : BitVec 5) (k : BitVec 3), Issues (.evinc m a b k) s g u →
    va8 s g .atomic false (g.s a.toNat) pl → placeOrd pl ≠ 2 → (s.blockOf g).confirmed = true → atHost pl = false → atDevice pl = false → s.placePoison pl = none →
    (∀ x ∈ s.tileOps, x.group ≠ g.id) → (k = 4 → NoneLost s g) → MayFall g u u →
    GoesTo (.evinc m a b k) s
      (performed (s.release (s.accessor g) k.toNat) (s.accessor g) pl 8 fun old => some (old + (g.s b.toNat).toNat)).1 g (backEdge u)) ∧
  (∀ (s : State) (g : Group) (u : GUnit) (pl : Place) (m : BitVec 1) (d a b : BitVec 5), Issues (.waita m d a b) s g u →
    u.region = none ∨ g.trap.tmode = true → va8 s g .read true (g.s a.toNat) pl → placeOrd pl ≠ 2 → s.placePoison pl = none →
    MayFall g u u →
    let s1 := s.expelPlace (s.accessor g) pl
    let v := BitVec.ofNat 64 (s1.homeValue pl 8)
    let c := s.core g.core
    (v ≠ g.s b.toNat ∨ c.watches.length = Config.watchEntries → GoesTo (.waita m d a b) s s1 (g.setS d.toNat v) (backEdge u)) ∧
    (v = g.s b.toNat → c.watches.length < Config.watchEntries → c.watchQueue = [] →
      watches (.waita m d a b) s s1 g (g.setS d.toNat v) { backEdge u with wait := .suspended (placeSector pl) } (placeSector pl))) ∧
  (∀ (s : State) (g : Group) (u : GUnit) (pl : Place) (m : BitVec 1) (n : BitVec 5) (o : BitVec 16), Issues (.suspend m 1 n o) s g u →
    u.region = none ∨ g.trap.tmode = true → va8 s g .read false (g.s n.toNat) pl → placeOrd pl ≠ 2 → s.placePoison pl = none →
    let s1 := s.expelPlace (s.accessor g) pl
    let c := s1.core g.core
    let u' := { u with pc := offsetFrom u o }
    let unasked := { c with watchQueue := c.watchQueue.filter fun w => decide (w ≠ (g.id, u.uid)) }
    MayGo g u u' →
    ((g.s (n.toNat + 1)).toNat ≤ s1.homeValue pl 8 → GoesTo (.suspend m 1 n o) s (s1.setCore unasked) g u') ∧
    (s1.homeValue pl 8 < (g.s (n.toNat + 1)).toNat → c.watches.length < Config.watchEntries → c.watchQueue = [] →
      watches (.suspend m 1 n o) s s1 g g u' (placeSector pl))) ∧
  (∀ (s : State) (g : Group) (u : GUnit) (pl : Place) (m : BitVec 1) (a : BitVec 5), Issues (.wakea m a) s g u →
    s.placeAt g .read 1 (g.s a.toNat) = .hit pl → s.transferAt g.id pl 1 = false → MayFall g u u →
    GoesTo (.wakea m a) s (s.notify (placeSector pl)) g (backEdge u))

namespace Sys2Proof.Stated

/-- A tile transfer about to issue whose pair passes the checks before its rows (R249, R250): not in a timed block, aligned, and naming a tile. -/
structure NamesTile (s : State) (g : Group) (a b : BitVec 5) (t : Tile) : Prop where
  bulk : (s.blockOf g).timed = false
  aligned : (g.s a.toNat).toNat % 32 = 0 ∧ ((g.s (b.toNat + 1)).toNat / 2 ^ 52 = 0 → (g.s b.toNat).toNat % 256 = 0)
  one : (g.s (b.toNat + 1)).getLsbD 48 = false
  named : s.nameTile (s.blockOf g).asid (g.s (b.toNat + 1)) (g.s b.toNat) = .inl t

/-- The rows of a tile all lead somewhere (R248, R249): in scratchpad to consecutive rows from an offset of one block, in memory to the sectors
`refs`, none for an absent row. -/
structure RowsReach (s : State) (g : Group) (a : BitVec 5) (t : Tile) (load : Bool) (pb po : Nat) (refs : List (Option SectorRef)) : Prop where
  pad : ∀ k, k < (tileRows t).length → s.locate (s.blockOf g) (g.s a.toNat + BitVec.ofNat 64 (32 * k)) 32 = .pad pb (po + 32 * k)
  rows : (tileRows t).map (fun r => s.rowPlace (s.blockOf g).asid g.trap.tmode (if load then .read else .write) r.1 r.2.1 r.2.2) =
    refs.map fun r => match r with
      | some r => .hit r
      | none => .absent
  some : tileRows t ≠ []
  apart : s.transferAt g.id (.pad pb po) (32 * (tileRows t).length) = false
  near : s.farBefore g.id refs = false

/-- A word that puts a tile operation in flight: its status register is pending until the operation completes (R16, R249). -/
def launches (i : Instr) (s : State) (g : Group) (u : GUnit) (d : BitVec 5) (job : TileJob) : Prop :=
  GoesTo i s { s with tileOps := s.tileOps ++ [{ id := s.ids, group := g.id, sreg := d.toNat, job := job }], ids := s.ids + 1 } (g.pend d.toNat) (backEdge u)

/-- A word that completes at once with a status in its register (R250). -/
def answers (i : Instr) (s : State) (g : Group) (u : GUnit) (d : BitVec 5) (v : Word) : Prop := GoesTo i s s (g.setS d.toNat v) (backEdge u)

/-- The statements of `tld` and `tst`. -/
def transfers (i : Instr) (load : Bool) (d a b : BitVec 5) (k : BitVec 3) (o : BitVec 2) : Prop :=
  ∀ (s : State) (g : Group) (u : GUnit), Issues i s g u →
    let blk := s.blockOf g
    let pad := g.s a.toNat
    let lo := g.s b.toNat
    let hi := g.s (b.toNat + 1)
    let aligned := pad.toNat % 32 = 0 ∧ (hi.toNat / 2 ^ 52 = 0 → lo.toNat % 256 = 0)
    (blk.timed = true → exec i s = .next (s.takeTrap g.id u.uid
      { cause := 13, tval := s.firstSector blk.asid hi lo, tstat := 0, tlane := u.mask } 0 false)) ∧
    (blk.timed = false → pad.toNat % 32 ≠ 0 → (hi.toNat / 2 ^ 52 = 0 → lo.toNat % 256 = 0) →
      exec i s = .next (s.takeTrap g.id u.uid { cause := 11, tval := pad, tstat := 0, tlane := u.mask } 0 false)) ∧
    (blk.timed = false → aligned → hi.getLsbD 48 = true → MayFall g u u → answers i s g u d (2#64 <<< 60)) ∧
    (blk.timed = false → aligned → hi.getLsbD 48 = false →
      hi.toNat / 2 ^ 49 % 8 ≠ 0 ∨ (hi.toNat / 2 ^ 52 = 0 ∧ hi.toNat % 2 ^ 48 ≠ 0) → MayFall g u u → answers i s g u d (2#64 <<< 60)) ∧
    (blk.timed = false → aligned → hi.getLsbD 48 = false → hi.toNat / 2 ^ 49 % 8 = 0 → hi.toNat / 2 ^ 52 ≠ 0 →
      s.descriptor blk.asid (hi.toNat / 2 ^ 52) = none → MayFall g u u → answers i s g u d (1#64 <<< 60)) ∧
    (∀ t pb po refs, NamesTile s g a b t → RowsReach s g a t load pb po refs →
      blk.confirmed = true ∨ (load = true ∧ pad.toNat / 2 ^ 48 ≠ 0xFF01) → (load = false → o ≠ 0 → k = 4 → NoneLost s g) → MayFall g u u →
      launches i s g u d (.transfer load (if o ≠ 0 ∧ (refs.any fun r => match r with
        | some r => decide (r.ord ≠ 2)
        | none => false) = true then some k.toNat else none) pb po refs))

/-- The statements of `tcln` and `tinv`. -/
def maintains (i : Instr) (inval : Bool) (d b : BitVec 5) (k : BitVec 3) : Prop :=
  ∀ (s : State) (g : Group) (u : GUnit), Issues i s g u → (s.blockOf g).timed = false ∨ k.toNat < 3 → MayFall g u u →
    let hi := g.s (b.toNat + 1)
    let lo := g.s b.toNat
    (∀ st, s.nameTile (s.blockOf g).asid hi lo = .inr st → answers i s g u d (BitVec.ofNat 64 (st * 2 ^ 60))) ∧
    (∀ t, s.nameTile (s.blockOf g).asid hi lo = .inl t →
      launches i s g u d (.maintain inval k.toNat t.id (if hi.getLsbD 48 = true then none else some t.lines)))

end Sys2Proof.Stated

/-! ### Tiles, scratchpad and queues (R16, R138, R180 to R184, R223 to R229, R247 to R256, R314 to R316) -/

/-- Tile words (R235, R247 to R253): in a timed block a transfer is the class fault; a pair that names no tile gives status 2 or 1 at once; else the
operation is in flight and its register a pending token. `tdesc` reads its 64-byte image and refuses a bad entry number, entry 0 and a bad image. -/
def Sys2Proof.Stated.TileWords : Prop :=
  (∀ m d a b k o, transfers (.tld m d a b k o) true d a b k o) ∧ (∀ m d a b k o, transfers (.tst m d a b k o) false d a b k o) ∧
  (∀ m d b k, maintains (.tcln m d b k) false d b k) ∧ (∀ m d b k, maintains (.tinv m d b k) true d b k) ∧
  (∀ m d a b (s : State) (g : Group) (u : GUnit) (blk : Block) (off : Nat), Issues (.tdesc m d a b) s g u →
    (g.s b.toNat).toNat % 64 = 0 → s.placeAt g .read 64 (g.s b.toNat) = .hit (.pad blk.id off) →
    off % 64 = 0 → s.padPoison blk.id = none → s.transferAt g.id (.pad blk.id off) 64 = false → s.block? blk.id = some blk → MayFall g u u →
    let image := BitVec.ofNat 512 (bytesValue (padBytes blk off 64))
    let e := (g.s a.toNat).toNat
    (4096 ≤ e → answers (.tdesc m d a b) s g u d (2#64 <<< 60)) ∧
    (e = 0 → answers (.tdesc m d a b) s g u d (1#64 <<< 60)) ∧
    (0 < e → e < 4096 → image.getLsbD 63 = true → descOk image = false → answers (.tdesc m d a b) s g u d (3#64 <<< 60)) ∧
    (0 < e → e < 4096 → image.getLsbD 63 = false ∨ descOk image = true → launches (.tdesc m d a b) s g u d (.describe e image)))

/-- The completions of tile operations (R16, R248, R249, R252, R253): the register holds the status word and is no longer pending. A load copies each
present row's sector into its 32 bytes of scratchpad and zeroes the rows that are absent, and changes no byte of memory; a store leaves each sector,
as the group's core reads it, with the bytes of its row. `tinv` leaves no clean sector of its lines; `tdesc` writes the entry of the table. -/
def Sys2Proof.Stated.TileCompletions : Prop :=
  ∀ (s : State) (o : TileOp) (g : Group), s.tileOps.find? (fun x => decide (x.id = o.id)) = some o → s.tileFree o = true → s.group? g.id = some g →
    o.group = g.id → o.sreg ≠ 0 → (s.blockOf g).confirmed = true →
    let a := s.accessor g
    (∀ pb po rows b, o.job = .transfer true none pb po rows → s.block? pb = some b → (∀ r, some r ∈ rows → s.poisoned r.pa = none) →
      ∃ t b', exec (.tileTransferComplete o.id) s = .next t ∧
        t.group? g.id = some (g.complete o.sreg (BitVec.ofNat 64 (rows.filter Option.isSome).length) none) ∧
        t.tileOps = s.tileOps.filter (fun x => decide (x.id ≠ o.id)) ∧ t.mem = s.mem ∧ t.block? pb = some b' ∧ b' = { b with pad := b'.pad } ∧
        (∀ n, n ≠ pb → t.block? n = s.block? n) ∧
        (∀ q, q < po ∨ po + 32 * rows.length ≤ q → sget 0 b'.pad q = sget 0 b.pad q) ∧
        (∀ k j, rows[k]? = some none → j < 32 → sget 0 b'.pad (po + 32 * k + j) = 0) ∧
        ∀ k r, rows[k]? = some (some r) → ∃ w : BitVec 256, (∀ j, j < 32 → sget 0 b'.pad (po + 32 * k + j) = sectorByte w j) ∧
          (w = s.peekSector a r ∨ (w = s.homeSector r.key r.pa ∧ ∀ x, s.cache.find? (isCopy a r) = some x → x.dirty = 0))) ∧
    (∀ pb po rows b, o.job = .transfer false none pb po rows → s.block? pb = some b → (∀ r, some r ∈ rows → s.poisoned r.pa = none) →
      (∀ r, some r ∈ rows → cacheable r = true ∧ s.noWay a r = false) →
      (∀ (j k : Nat) (r q : SectorRef), rows[j]? = some (some r) → rows[k]? = some (some q) → r.line.tid = q.line.tid → r.line.no = q.line.no →
        r.row = q.row → j = k) →
      ∃ t, exec (.tileTransferComplete o.id) s = .next t ∧
        t.group? g.id = some (g.complete o.sreg (BitVec.ofNat 64 (rows.filter Option.isSome).length) none) ∧ t.mem = s.mem ∧ t.blocks = s.blocks ∧
        ∀ k r, rows[k]? = some (some r) → t.peekSector a r = BitVec.ofNat 256 (bytesValue (padBytes b (po + 32 * k) 32))) ∧
    (∀ inval k tid lines, o.job = .maintain inval k tid lines →
      let named := fun (x : Sector) => inCache a x && decide (x.tid = tid) && (match lines with
        | none => true
        | some ls => ls.any fun l => decide (l.no = x.line))
      ∃ t n, exec (.cacheMaintenanceComplete o.id) s = .next t ∧ t.group? g.id = some (g.complete o.sreg (BitVec.ofNat 64 n) none) ∧
        t.blocks = s.blocks ∧ (∀ x ∈ t.cache, named x = true → x.marked = none → x.dirty = 0) ∧
        (inval = true → ∀ x ∈ t.cache, named x = true → x.marked ≠ none)) ∧
    (∀ e image x, o.job = .describe e image → s.context? (s.blockOf g).asid = some x →
      ∃ t x', exec (.tdescComplete o.id) s = .next t ∧ t.group? g.id = some (g.complete o.sreg 0 none) ∧ t.mem = s.mem ∧
        t.context? (s.blockOf g).asid = some x' ∧ x'.tensors.find? (fun y => decide (y.1 = e)) = some (e, image) ∧
        ∀ n, n ≠ e → x'.tensors.find? (fun y => decide (y.1 = n)) = x.tensors.find? fun y => decide (y.1 = n))

/-- Fallback scratchpad (R229, R254 to R256): `spalloc` answers 2 for a bad or overlapping range, 0 where a set has no way left, and else pins the
lines, zeroed; `spfree` unpins them, and does nothing for a bad range; `spnext` finds the next pinned run. -/
def Sys2Proof.Stated.PinnedScratchpad : Prop :=
  ∀ (s : State) (g : Group) (u : GUnit) (m : BitVec 1) (d a b : BitVec 5),
    let blk := s.blockOf g
    let x := (g.s a.toNat).toNat
    let n := (g.s b.toNat).toNat
    let good := x % 256 = 0 ∧ 1 ≤ n ∧ n ≤ 256 ∧ x + 256 * n ≤ 2 ^ 24 ∧ blk.carve = 0
    let lines := (List.range n).map fun j => x / 256 + j
    let fits := pinFits s.pinnedSets
      (lines.map fun l => pinSet (s.cluster (clusterOfCore g.core)).fused g.core (cacheSets (s.core g.core).split) l) = true
    (Issues (.spalloc m d a b) s g u → MayFall g u u →
      (¬good ∨ (∃ l ∈ lines, l ∈ blk.pinned) → answers (.spalloc m d a b) s g u d 2) ∧
      (good → (∀ l ∈ lines, l ∉ blk.pinned) → ¬fits → answers (.spalloc m d a b) s g u d 0) ∧
      (good → (∀ l ∈ lines, l ∉ blk.pinned) → fits → GoesTo (.spalloc m d a b) s
        (s.setBlock { blk with pinned := sortBy id (blk.pinned ++ lines), pad := blk.pad.filter fun y => !(decide (x ≤ y.1) && decide (y.1 < x + 256 * n)) })
        (g.setS d.toNat 1) (backEdge u))) ∧
    (Issues (.spfree m a b) s g u →
      (¬good → MayFall g u u → GoesTo (.spfree m a b) s s g (backEdge u)) ∧
      (good → s.transferAt g.id (.pad g.block x) (256 * n) = true → waits (.spfree m a b) s g u (.stall 1)) ∧
      (good → s.transferAt g.id (.pad g.block x) (256 * n) = false → MayFall g u u → GoesTo (.spfree m a b) s
        (s.setBlock { blk with pinned := blk.pinned.filter (fun l => !(decide (x / 256 ≤ l) && decide (l < x / 256 + n))),
                               pad := blk.pad.filter fun y => !(decide (x ≤ y.1) && decide (y.1 < x + 256 * n)) }) g (backEdge u))) ∧
    (Issues (.spnext m d a) s g u → MayFall g u u →
      (2 ^ 24 ≤ x ∨ x % 256 ≠ 0 → answers (.spnext m d a) s g u d 2) ∧
      (x < 2 ^ 24 → x % 256 = 0 → blk.carve ≠ 0 ∨ (∀ l ∈ blk.pinned, l < x / 256) → answers (.spnext m d a) s g u d (~~~0)) ∧
      (x < 2 ^ 24 → x % 256 = 0 → blk.carve = 0 → ∀ l ∈ blk.pinned, x / 256 ≤ l → (∀ k ∈ blk.pinned, x / 256 ≤ k → l ≤ k) →
        answers (.spnext m d a) s g u d
          (BitVec.ofNat 64 (256 * l) ||| BitVec.ofNat 64 (pinnedRun blk.pinned l (blk.pinned.length + 1) * 2 ^ 32))))

namespace Sys2Proof.Stated

/-- A binding that a group may write (R180, R307): no reserved kind or field, a priority only for a continuation queue, and a channel or a stream
queue only where the launch gives it to the group and no other group of the core holds the queue. -/
def Bindable (s : State) (g : Group) (v : Word) : Prop :=
  let kind := v.toNat / 2 ^ 60
  let unit := v.toNat % 16
  let given := fun (f : LaunchDesc → BitVec 16) => ∃ k, s.grid? (s.blockOf g).grid = some k ∧ (f k.desc).getLsbD unit = true
  kind ≤ 4 ∧ v.toNat / 2 ^ 11 % 2 ^ 49 = 0 ∧ v.toNat / 16 % 16 = 0 ∧ (kind ≠ 3 → v.toNat / 256 % 8 = 0) ∧
    (kind = 1 → given (·.chmask)) ∧
    (kind = 4 → given (·.sqmask) ∧ ∀ x ∈ s.groups, x.core = g.core → x.id ≠ g.id → x.bindsStream unit = false) ∧
    (kind ≠ 1 → kind ≠ 4 → unit = 0)

/-- A pop of the oldest continuation of the highest priority, by a group (R138, R181, R183, R339). -/
def pops (i : Instr) (s : State) (g : Group) (u : GUnit) (regs : Group → Nat × List Word → Group) : Prop :=
  ∀ e, s.nextCont (clusterOfCore g.core) = some e → MayFall g u u → GoesTo i s (s.popFor g e) (regs g e) (backEdge u)

/-- Scalars `r`, `r` + 1, … hold the first words of an entry. -/
def entryWritten (g : Group) (r : BitVec 5) (n : BitVec 3) (ws : List Word) : Group :=
  (List.range (n.toNat + 1)).foldl (fun g i => g.setS (r.toNat + i) (ws.getD i 0)) g

/-- The words that a push takes: `n` + 1 scalars from `r` on, zero beyond (R181). -/
def entryOf (g : Group) (r : BitVec 5) (n : BitVec 3) : List Word :=
  (List.range 8).map fun i => if i ≤ n.toNat ∧ r.toNat + i < 32 then g.s (r.toNat + i) else 0

/-- The status word of `qstat` (R182): the kind, the room left, limited by the group's 32 commands and tasks, those of its replay list among them, and 0 where every push
of an unconfirmed block stalls, and the entries held. -/
def statusOf (s : State) (g : Group) (b : Word) : Word :=
  let cl := s.cluster (clusterOfCore g.core)
  let kind := b.toNat / 2 ^ 60
  let unit := b.toNat % 16
  let left := 32 - (s.outstanding g + g.replay.length)
  let waiting := ((cl.channel unit).filter fun x => !x.started).length
  let tasks := (s.core g.core).tasks.length
  let room := if kind = 1 then min (Config.channelDepth - waiting) left else if kind = 2 then min (Config.taskQueue - tasks) left
    else if kind = 3 ∧ (s.blockOf g).confirmed = true then Config.poolEntries - s.poolCount (clusterOfCore g.core) (b.toNat / 256 % 8) else 0
  let used := if kind = 1 then waiting else if kind = 2 then tasks else if kind = 3 then cl.pool.length
    else if kind = 4 then (s.streamBytes g.core unit).length / 64 else 0
  BitVec.ofNat 64 (kind * 2 ^ 60 % 2 ^ 64) ||| BitVec.ofNat 64 (min room 65535 * 2 ^ 16) ||| BitVec.ofNat 64 (min used 65535)

/-- A group whose segment, depth and mode stand, so that a unit goes on in it as before. -/
def SameSegment (g g' : Group) : Prop :=
  g'.segment = g.segment ∧ g'.baseDepth = g.baseDepth ∧ g'.trap.tmode = g.trap.tmode ∧ g'.units = g.units ∧ g'.handler = g.handler

/-- The flag of `qtry` in every lane of the unit (R181). -/
def flagged (g : Group) (u : GUnit) (f : BitVec 3) (v : Bool) : Group := g.setP f.toNat (currentMask g u) (if v then ~~~0 else 0)

end Sys2Proof.Stated

/-- Queue words (R16, R17, R138, R180 to R183, R314, R316, R339): what each does for a queue of every kind, and where it faults or stalls. A push to a
continuation queue releases at `dev` and appends its entry; a pop takes the oldest entry of the highest priority.
What the rules leave open here is the model's own choice or reading: log entries 101, 102 and 103. -/
def Obligations.QueueWords : Prop :=
  (∀ (s : State) (g : Group) (v : Word), s.bindingOk g v = true ↔ Bindable s g v) ∧
  (∀ (s : State) (cl p : Nat) (ws : List Word), s.nextCont cl = some (p, ws) →
    (p, PoolEntry.cont ws) ∈ (s.cluster cl).pool ∧ ∀ q vs, (q, PoolEntry.cont vs) ∈ (s.cluster cl).pool → q ≤ p) ∧
  ∀ (s : State) (g : Group) (u : GUnit) (m : BitVec 1) (q : BitVec 4) (r : BitVec 5) (n f : BitVec 3) (d : BitVec 6) (p : BitVec 3),
    let b := g.binding q.toNat
    let kind := b.toNat / 2 ^ 60
    let cl := clusterOfCore g.core
    let pri := b.toNat / 256 % 8
    let queueTrap := fun i => exec i s = .next (s.takeTrap g.id u.uid { cause := 9, tval := b, tstat := 0, tlane := u.mask } 0 false)
    (Issues (.qbind m q r) s g u →
      (s.bindingOk g (g.s r.toNat) = false →
        exec (.qbind m q r) s = .next (s.takeTrap g.id u.uid { cause := 9, tval := g.s r.toNat, tstat := 0, tlane := u.mask } 0 false)) ∧
      (s.bindingOk g (g.s r.toNat) = true → kind ≠ 4 → MayFall g u u →
        GoesTo (.qbind m q r) s s { g with qb := g.qb.setIfInBounds q.toNat (g.s r.toNat) } (backEdge u))) ∧
    (∀ a c, Issues (.csrw m a c) s g u → c.toNat = 0x010 + q.toNat → s.bindingOk g (g.s a.toNat) = true → kind ≠ 4 → MayFall g u u →
      GoesTo (.csrw m a c) s s { g with qb := g.qb.setIfInBounds q.toNat (g.s a.toNat) } (backEdge u)) ∧
    (Issues (.qpush m q r n) s g u →
      (kind = 0 ∨ 4 ≤ kind → queueTrap (.qpush m q r n)) ∧
      (kind = 3 → (s.blockOf g).confirmed = false → waits (.qpush m q r n) s g u (.stall 19)) ∧
      (kind = 3 → (s.blockOf g).confirmed = true → Config.poolEntries ≤ s.poolCount cl pri → waits (.qpush m q r n) s g u (.stall 4)) ∧
      (kind = 3 → (s.blockOf g).confirmed = true → s.poolCount cl pri < Config.poolEntries → (∀ x ∈ s.tileOps, x.group ≠ g.id) → MayFall g u u →
        GoesTo (.qpush m q r n) s ((s.release (s.accessor g) 3).poolPut cl pri (.cont (entryOf g r n))) g (backEdge u)) ∧
      (∀ s' g', kind = 1 ∨ kind = 2 → (s.traceWord g u (.qpush m q r n)).1.pushTo (s.traceWord g u (.qpush m q r n)).2 q.toNat b (entryOf g r n) false =
        some (.ok s' g') → MayFall g' u u → g'.id = g.id → SameSegment g g' → GoesTo (.qpush m q r n) s s' g' (backEdge u))) ∧
    (Issues (.qtryPush m q r n f) s g u →
      (kind = 0 ∨ 4 ≤ kind → queueTrap (.qtryPush m q r n f)) ∧
      (kind = 3 → (s.blockOf g).confirmed = false ∨ Config.poolEntries ≤ s.poolCount cl pri → MayFall g u u →
        GoesTo (.qtryPush m q r n f) s s (flagged g u f false) (backEdge u)) ∧
      (kind = 3 → (s.blockOf g).confirmed = true → s.poolCount cl pri < Config.poolEntries → (∀ x ∈ s.tileOps, x.group ≠ g.id) → MayFall g u u → GoesTo (.qtryPush m q r n f) s ((s.release (s.accessor g) 3).poolPut cl pri (.cont (entryOf g r n)))
        (flagged g u f true) (backEdge u))) ∧
    (Issues (.qpop m q r n) s g u →
      (kind ≠ 3 → queueTrap (.qpop m q r n)) ∧
      (kind = 3 → s.nextCont cl = none → waits (.qpop m q r n) s g u (.stall 3)) ∧
      (kind = 3 → pops (.qpop m q r n) s g u fun g e => entryWritten g r n e.2)) ∧
    (Issues (.qtryPop m q r n f) s g u →
      (kind ≠ 3 → queueTrap (.qtryPop m q r n f)) ∧
      (kind = 3 → s.nextCont cl = none → MayFall g u u → GoesTo (.qtryPop m q r n f) s s (flagged g u f false) (backEdge u)) ∧
      (kind = 3 → pops (.qtryPop m q r n f) s g u fun g e => flagged (entryWritten g r n e.2) u f true)) ∧
    (Issues (.qstat m q r) s g u → MayFall g u u → answers (.qstat m q r) s g u r (statusOf s g b)) ∧
    (Issues (.twait m r) s g u → MayFall g u u → GoesTo (.twait m r) s s g (backEdge u)) ∧
    (Issues (.vqpop m p d q) s g u → activeMask g u p.toNat ≠ 0 →
      let bs := s.streamBytes g.core (b.toNat % 16)
      (kind ≠ 4 → queueTrap (.vqpop m p d q)) ∧
      (kind = 4 → bs.length < 4 * g.width → waits (.vqpop m p d q) s g u (.stall (if s.streamsTo g.core (b.toNat % 16) = [] then 3 else 16))) ∧
      (kind = 4 → 4 * g.width ≤ bs.length → FallsClear g u →
        ∃ t g', exec (.vqpop m p d q) s = .next t ∧ t.group? g.id = some g' ∧ t.mem = s.mem ∧
          t.streamBytes g.core (b.toNat % 16) = bs.drop (4 * g.width) ∧
          (∀ k l, l < 32 → ¬((activeMask g u p.toNat).getLsbD l = true ∧ k = g.vwin + d.toNat) → g'.vreg k l = g.vreg k l) ∧ g'.preds = g.preds ∧
          (∀ k, (∀ c ∈ s.commandsOf g, c.tok ≠ k) → g'.s k = g.s k) ∧
          ∀ l ∈ lanesOf (activeMask g u p.toNat), l < g.width → g'.v d.toNat l = BitVec.ofNat 32 (bytesValue (((bs.drop (4 * l)).take 4).map (·.2)))))

namespace Sys2Proof.Stated

/-- A group with its allotment grown or shrunk to some chunks: registers from the old or the new end on are zero (R140, R176). -/
def allotted (g : Group) (chunks : Nat) : Group :=
  { g with chunks := chunks, vregs := g.vregs.filter fun y => !decide (32 * (8 * min g.chunks chunks) ≤ y.1) }

/-- The block of a group with some chunks taken out of the pool that lies in the group's lanes (R140, R144). -/
def poolTaken (s : State) (g : Group) (n : Nat) : State := s.setBlock ((s.blockOf g).poolTake g n)

/-- The block of a group with some chunks of the group's lanes given back to its pool (R140, R144). -/
def poolGiven (s : State) (g : Group) (n : Nat) : State := s.setBlock ((s.blockOf g).poolGive g n)

/-- The group is whole: one unit, ready, outside trap mode, with no reconvergence entry and no region (R141, R158). -/
def Whole (g : Group) (u : GUnit) : Prop := g.trap.tmode = false ∧ g.units = [u] ∧ g.recon = [] ∧ u.region = none

/-- The group has no stream and no command or task in flight (R200, R317). -/
def Drained (s : State) (g : Group) : Prop := s.commandsOf g = [] ∧ s.outstanding g = 0

/-- The unit of a whole group waits as `w` says, at its word; nothing else of the group and nothing of the rest of the machine changes. -/
def standsWaiting (i : Instr) (s : State) (g : Group) (u : GUnit) (w : Wait) : Prop :=
  ∃ t g' x, exec i s = .next t ∧ After g.id s g t ∧ t.group? g.id = some g' ∧ g'.units = [x] ∧ x.uid = u.uid ∧ x.pc = u.pc ∧ x.mask = u.mask ∧ x.wait = w

end Sys2Proof.Stated

/-! ### Register pool, roles, regrouping and the ends of units (R123, R139 to R141, R152, R155, R158 to R160, R171, R174 to R178) -/

/-- The register pool (R139 to R141, R144, R175 to R178), of which each share lies in the lanes of one gang: `claim` moves chunks from the share in the
group's own lanes, zeroed, or answers 0; `giveback` returns them; `vwin` moves
the window; `role` sets allotment, window and role by its preset and goes to its entry; `spawn` answers all failures by a code and else creates free groups
that hold the spawner's `s1` in `s2` and their ordinals in `s3`. Where they fault, nothing changes.
What the rules leave open here is the model's own choice or reading: log entries 63, 64, 65, 67 and 151. -/
def Obligations.RegisterPool : Prop :=
  (∀ (b : Block) (g h : Group) (n : Nat), (b.poolTake g n).poolOf g = b.poolOf g - n ∧ (b.poolGive g n).poolOf g = b.poolOf g + n ∧
    (h.slot % 4 ≠ g.slot % 4 ∨ h.gang ≠ g.gang → (b.poolTake g n).poolOf h = b.poolOf h ∧ (b.poolGive g n).poolOf h = b.poolOf h)) ∧
  ∀ (s : State) (g : Group) (u : GUnit) (m : BitVec 1) (d a b : BitVec 5),
    let n := (g.s a.toNat).toNat
    let pool := (s.blockOf g).poolOf g
    let faults := fun (i : Instr) (cause : Nat) (lanes : Mask) => faultsWith i s g u cause lanes
    let alive := ∃ x, s.block? g.block = some x ∧ s.blockOf g = x
    (Issues (.claim m d a) s g u → s.streamUnread g = false → MayFall g u u →
      (n % 8 = 0 ∧ 8 * g.chunks + n ≤ 256 ∧ n / 8 ≤ pool →
        GoesTo (.claim m d a) s (poolTaken s g (n / 8)) ((allotted g (g.chunks + n / 8)).setS d.toNat 1) (backEdge u)) ∧
      (¬(n % 8 = 0 ∧ 8 * g.chunks + n ≤ 256 ∧ n / 8 ≤ pool) → GoesTo (.claim m d a) s s (g.setS d.toNat 0) (backEdge u))) ∧
    (Issues (.giveback m a) s g u →
      (n % 8 ≠ 0 ∨ 8 * g.chunks < n → faults (.giveback m a) 8 u.mask) ∧
      (n % 8 = 0 → n ≤ 8 * g.chunks → s.streamUnread g = false → s.writesAbove g (n / 8) = false → MayFall g u u →
        GoesTo (.giveback m a) s (poolGiven s g (n / 8)) (allotted g (g.chunks - n / 8)) (backEdge u))) ∧
    (Issues (.vwin m a) s g u →
      (n % 8 ≠ 0 ∨ 248 < n → faults (.vwin m a) 3 (currentMask g u)) ∧
      (n % 8 = 0 → n ≤ 248 → s.streamUnread g = false → MayFall g u u → GoesTo (.vwin m a) s s { g with vwin := n } (backEdge u))) ∧
    (Issues (.role m a) s g u →
      (g.trap.tmode = true ∨ 1 < g.units.length ∨ g.recon ≠ [] ∨ u.region ≠ none → faults (.role m a) 4 u.mask) ∧
      (Whole g u → s.roleOf g n = none → faults (.role m a) 8 u.mask) ∧
      (∀ x target, Whole g u → Drained s g → s.roleOf g n = some (x, target) → alive →
        g.segment = .unbounded ∨ (∃ first last, g.segment = .upTo first last ∧ first ≤ target ∧ target ≤ last) →
        x.valloc % 8 = 0 →
        x.valloc / 8 ≤ g.chunks + pool → (x.valloc / 8 ≤ g.chunks → s.writesAbove g (g.chunks - x.valloc / 8) = false) →
        GoesTo (.role m a) s
          (if g.chunks < x.valloc / 8 then poolTaken s g (x.valloc / 8 - g.chunks) else poolGiven s g (g.chunks - x.valloc / 8))
          { allotted g (x.valloc / 8) with vwin := x.vwin, role := n } { u with pc := target })) ∧
    (Issues (.spawn m d a b) s g u → MayFall g u u →
      let entry := (s.context? (s.blockOf g).asid).bind fun x => (kernelAt x u.pc).bind fun k => (k.entries[n]?).bind id
      let count := (g.s b.toNat).toNat
      let seats := spawnSeats count (s.slotsOf g.core) (s.blockOf g).regPool (g.width / 4) g.chunks
      (entry = none ∨ count = 0 ∨ 32 < count → GoesTo (.spawn m d a b) s s (g.setS d.toNat (1 <<< 63)) (backEdge u)) ∧
      (entry ≠ none → 0 < count → count ≤ 32 → seats = none →
        GoesTo (.spawn m d a b) s s (g.setS d.toNat 0) (backEdge u)) ∧
      (∀ pc xs shares, entry = some pc → 0 < count → count ≤ 32 → seats = some (xs, shares) → alive → s.block? (s.blockOf g).id = some (s.blockOf g) →
        (∀ x ∈ s.groups, x.id < s.ids) → count ≤ (s.newIndices (s.blockOf g) count).length → xs.length = count →
        let is := s.newIndices (s.blockOf g) count
        ∃ t g', exec (.spawn m d a b) s = .next t ∧ t.group? g.id = some g' ∧ SameRegs (g.setS d.toNat (((maskOfLanes is).setWidth 64))) g' ∧
          Stands t g.id (backEdge u) ∧ (t.blockOf g).regPool = shares ∧
          ∀ k, k < count → ∃ h ∈ t.groups, h.index = is.getD k 32 ∧ h.block = (s.blockOf g).id ∧ h.free = true ∧ h.s 2 = g.s 1 ∧ h.s 3 = BitVec.ofNat 64 k ∧
            h.chunks = g.chunks ∧ h.width = g.width ∧ h.role = g.role ∧ (∀ r, r ≠ 2 → r ≠ 3 → h.s r = 0 ∨ r = 1) ∧ ∃ x, h.units = [x] ∧ x.pc = pc ∧ x.wait = .ready))

/-- How units end, meet and change lanes (R123, R152, R155, R158, R171, R174): `exit` takes a unit's lanes out of its group, whose last unit ends
the group; `rcv` parks at the entry of its depth; `regroup` answers 0 to a group it does not name, and the others wait for the rest; at the last word of
its segment a group stands at the Joint words `up` and `suspend.b`.
What the rules leave open here is the model's own choice or reading: log entries 57, 58, 66, 74, 149, 150 and 152. -/
def Obligations.GroupEnds : Prop :=
  ∀ (s : State) (g : Group) (u : GUnit) (m : BitVec 1) (d a : BitVec 5) (y : BitVec 3) (o : BitVec 16),
    (Issues (.exit m) s g u → g.trap.tmode = false → u.region = none → g.recon = [] → u ∈ g.units → g.live &&& ~~~u.mask ≠ 0 →
      (∀ x ∈ g.units, x.uid ≠ u.uid → x.wait = .ready ∧ atEnd g x = false) →
      ∃ t g', exec (.exit m) s = .next t ∧ After g.id s { g with live := g.live &&& ~~~u.mask } t ∧ t.group? g.id = some g' ∧
        (∀ x ∈ g'.units, x.uid ≠ u.uid) ∧ ∀ x ∈ g.units, x.uid ≠ u.uid → Stands t g.id x) ∧
    (∀ blk, Issues (.exit m) s g u → g.trap.tmode = false → u.region = none → g.live &&& ~~~u.mask = 0 → s.block? g.block = some blk → blk.onCore = true →
      (∃ x ∈ s.groups, x.block = g.block ∧ x.id ≠ g.id) →
      ∃ t blk', exec (.exit m) s = .next t ∧ t.group? g.id = none ∧ t.block? g.block = some blk' ∧ blk'.poolOf g = blk.poolOf g + g.chunks) ∧
    (∀ e r, Issues (.rcv m) s g u → u.region = none → u.entry = some e → g.recon? e = some r →
      (r.depth ≠ u.depth → MayFall g u u → GoesTo (.rcv m) s s g (backEdge u)) ∧
      (r.depth = u.depth → g.trap.tmode = false → u ∈ g.units → Apart g → r.join ≠ r.arr ||| u.mask →
        (∃ x ∈ g.units, x.uid ≠ u.uid ∧ x.wait = .ready ∧ atEnd g x = false) →
        ∃ t g' x r', exec (.rcv m) s = .next t ∧ After g.id s g t ∧ t.group? g.id = some g' ∧ x ∈ g'.units ∧ x.uid = u.uid ∧ x.pc = u.pc ∧ x.wait = .arrived ∧
          g'.recon? e = some r' ∧ r' = { r with arr := r.arr ||| u.mask })) ∧
    (let v := g.s a.toNat
     let named := v.getLsbD g.index = true ∧ v.setWidth 32 &&& ~~~(s.blockOf g).held = 0
     Issues (.regroup m d a) s g u →
      (g.trap.tmode = true ∨ g.free = true ∨ 1 < g.units.length ∨ g.recon ≠ [] ∨ u.region ≠ none → faultsWith (.regroup m d a) s g u 4 u.mask) ∧
      (Whole g u → g.free = false → ¬named → MayFall g u u → GoesTo (.regroup m d a) s s (g.setS d.toNat 0) (backEdge u)) ∧
      (Whole g u → g.free = false → named → Drained s g → standsWaiting (.regroup m d a) s g u (.regrouping (.regroup m d a) v))) ∧
    (Issues (.up m d a 2 y) s g u → Whole g u → atLast g u u.pc = true → (backEdge u).pc = u.pc + 4 ∨ inSegment g u (backEdge u).pc = true →
      standsWaiting (.up m d a 2 y) s g u .joint) ∧
    (Issues (.suspend m 2 a o) s g u →
      (g.free = true ∨ g.trap.tmode = true ∨ 1 < g.units.length ∨ u.region ≠ none ∨ atLast g u u.pc = false → faultsWith (.suspend m 2 a o) s g u 4 u.mask) ∧
      (Whole g u → g.free = false → atLast g u u.pc = true → (s.blockOf g).confirmed = true → Drained s g →
        (backEdge u).pc = u.pc + 4 ∨ inSegment g u (backEdge u).pc = true → standsWaiting (.suspend m 2 a o) s g u .joint))

namespace Sys2Proof.Stated

/-- Block row and element of lane `l` of an accumulator word, relative to the window (R301). -/
def laneCell (v : Word) (l : Nat) : Nat × Nat := (v.toNat % 2 ^ 11 + (v.toNat / 2 ^ 12 % 16 + l) / 16, (v.toNat / 2 ^ 12 % 16 + l) % 16)

/-- The matrix fault with a status code (R294, R301). -/
def matrixFaults (i : Instr) (s : State) (g : Group) (u : GUnit) (st : Nat) : Prop :=
  exec i s = .next (s.takeTrap g.id u.uid { cause := 19, tval := BitVec.ofNat 64 (st * 2 ^ 60), tstat := 0, tlane := u.mask } 0 false)

/-- A row, in block rows, that an incomplete task of the group names (R301, R305). -/
def RowBusy (s : State) (g : Group) (row : Nat) : Prop :=
  ∃ t ∈ (s.core g.core).allTasks, t.group = g.id ∧ t.row ≤ row ∧ row < t.row + t.rows

/-- A group's window keeps the rules of R289: whole blocks of 16 rows within the block's allotment, apart from every other window. -/
def WindowKept (s : State) (b : Block) (g : Group) : Prop :=
  g.acbase.toNat % 16 = 0 ∧ g.aclim.toNat % 16 = 0 ∧ g.acbase.toNat ≤ g.aclim.toNat ∧ g.aclim.toNat ≤ b.acRows ∧
    ∀ w ∈ s.otherWindows b g.id, overlapping (g.acbase.toNat, g.aclim.toNat) w = false

/-- Two of four elements are kept: for all others, each of the two has the larger magnitude, or the same one and the lower place (R303). -/
def Kept (code : Nat) (xs : List Nat) (i j : Nat) : Prop :=
  i < j ∧ j < 4 ∧ ∀ k, k < 4 → k ≠ i → k ≠ j → ∀ h, h = i ∨ h = j →
    magnitude code (xs.getD k 0) < magnitude code (xs.getD h 0) ∨ (magnitude code (xs.getD k 0) = magnitude code (xs.getD h 0) ∧ h < k)

/-- Element `e` of a lane pair's 64 bits in a width (R53). -/
def pairElem (x : Word) (w e : Nat) : Nat := x.toNat / 2 ^ (w * e) % 2 ^ w

end Sys2Proof.Stated

/-! ### The matrix engine's words (R59, R64, R287 to R290, R301 to R305) -/

/-- Accumulator words (R287 to R290, R301, R302, R305): the leader sets a group's window, which answers 2 for a bad request, 0 for rows outside the
allotment or in another window, and stalls while the group has tasks; `acwin.claim` and `acwin.free` move the end of the allotment; `acrd`, `acwr`
and `acclr` reach the rows of the window, and fault with code 8, or with code 10 outside it and for a window that breaks R289, or stall behind a task that names them. -/
def Obligations.AccumulatorWords : Prop :=
  ∀ (s : State) (g : Group) (u : GUnit) (m : BitVec 1) (p : BitVec 3) (d a b : BitVec 5) (r : BitVec 6),
    let blk := s.blockOf g
    let leader := g.free = false ∧ g.index = 0
    let rows := g.aclim.toNat - g.acbase.toNat
    (Issues (.acwinSet m d a b) s g u →
      let v := (g.s b.toNat).toNat
      let base := v % 2 ^ 11
      let lim := v / 2 ^ 16 % 2 ^ 12
      let named := (s.groupsOf blk.id).find? fun x => decide (x.index = (g.s a.toNat).toNat)
      let good := leader ∧ v / 2 ^ 11 % 2 ^ 5 = 0 ∧ v / 2 ^ 28 = 0 ∧ base % 16 = 0 ∧ lim % 16 = 0
      let clear := fun (x : Group) => base ≤ lim ∧ lim ≤ blk.acRows ∧ ∀ w ∈ s.otherWindows blk x.id, overlapping (base, lim) w = false
      (named = none ∨ ¬good → MayFall g u u → answers (.acwinSet m d a b) s g u d 2) ∧
      ∀ x, named = some x → good →
        (¬clear x → MayFall g u u → answers (.acwinSet m d a b) s g u d 0) ∧
        (clear x → (∃ t ∈ (s.core x.core).allTasks, t.group = x.id) → waits (.acwinSet m d a b) s g u (.stall 15)) ∧
        (clear x → (∀ t ∈ (s.core x.core).allTasks, t.group ≠ x.id) → MayFall g u u →
          let set := fun (y : Group) => { y with acbase := BitVec.ofNat 64 base, aclim := BitVec.ofNat 64 lim }
          (x.id = g.id → answers (.acwinSet m d a b) s (set g) u d 1) ∧
          (x.id ≠ g.id → GoesTo (.acwinSet m d a b) s (s.setGroup (set x)) (g.setS d.toNat 1) (backEdge u)))) ∧
    (let n := (g.s a.toNat).toNat
     let whole := n % 16 = 0 ∧ 16 ≤ n ∧ n ≤ 2048
     MayFall g u u →
      (Issues (.acwinClaim m d a) s g u →
        (¬leader ∨ ¬whole → answers (.acwinClaim m d a) s g u d 2) ∧
        (leader → whole → Config.acRows < s.rowsTaken g.core + n → answers (.acwinClaim m d a) s g u d 0) ∧
        (leader → whole → s.rowsTaken g.core + n ≤ Config.acRows →
          GoesTo (.acwinClaim m d a) s (s.setBlock { blk with acRows := blk.acRows + n }) (g.setS d.toNat 1) (backEdge u))) ∧
      (Issues (.acwinFree m d a) s g u →
        let top := blk.acRows - n
        let used := ∃ w, (w = g.window ∨ w ∈ s.otherWindows blk g.id) ∧ overlapping (top, blk.acRows) w = true
        (¬leader ∨ ¬whole → answers (.acwinFree m d a) s g u d 2) ∧
        (leader → whole → blk.acRows < n ∨ top < blk.acResv ∨ used → answers (.acwinFree m d a) s g u d 0) ∧
        (leader → whole → n ≤ blk.acRows → blk.acResv ≤ top → ¬used →
          GoesTo (.acwinFree m d a) s (s.setBlock { blk with acRows := top, acc := blk.acc.filter fun y => !decide (16 * top ≤ y.1) })
            (g.setS d.toNat 1) (backEdge u)))) ∧
    (let v := g.s b.toNat
     let ms := activeMask g u p.toNat
     let reserved := v.toNat / 2 ^ 16 ≠ 0 ∨ v.toNat / 2 ^ 11 % 2 = 1
     let outside := ¬WindowKept s blk g ∨ ∃ l ∈ lanesOf ms, rows ≤ (laneCell v l).1
     let busy := ∃ l ∈ lanesOf ms, RowBusy s g (g.acbase.toNat + (laneCell v l).1)
     ∀ i, i = .acrd m p r b ∨ i = .acwr m p r b → Issues i s g u → ms ≠ 0 →
      (reserved → matrixFaults i s g u 8) ∧
      (¬reserved → outside → matrixFaults i s g u 10) ∧
      (¬reserved → ¬outside → busy → waits i s g u (.stall 15)) ∧
      (¬reserved → ¬outside → ¬busy → i = .acrd m p r b → FallsClear g u →
        ∃ t g', exec i s = .next t ∧ OnlyGroup g.id s t ∧ t.group? g.id = some g' ∧ OnlyLanes g g' r.toNat 1 ms ∧ g'.fflg = g.fflg ∧
          ∀ l ∈ lanesOf ms, g'.v r.toNat l = accAt blk (g.acbase.toNat + (laneCell v l).1) (laneCell v l).2) ∧
      (¬reserved → ¬outside → ¬busy → i = .acwr m p r b → (∃ x, s.block? blk.id = some x) → MayFall g u u →
        ∃ acc, GoesTo i s (s.setBlock { blk with acc := acc }) g (backEdge u) ∧
          ∀ row e, e < 16 → accAt { blk with acc := acc } row e =
            match (lanesOf ms).find? fun l => decide (laneCell v l = (row - g.acbase.toNat, e) ∧ g.acbase.toNat ≤ row) with
            | some l => g.v r.toNat l
            | none => accAt blk row e)) ∧
    (let v := (g.s a.toNat).toNat
     let first := v % 2 ^ 11
     let n := v / 2 ^ 16 % 2 ^ 11 + 1
     let reserved := v / 2 ^ 27 ≠ 0 ∨ v / 2 ^ 11 % 2 ^ 5 ≠ 0
     let busy := ∃ k, k < n ∧ RowBusy s g (g.acbase.toNat + first + k)
     Issues (.acclr m a) s g u →
      (reserved → matrixFaults (.acclr m a) s g u 8) ∧
      (¬reserved → ¬WindowKept s blk g ∨ rows < first + n → matrixFaults (.acclr m a) s g u 10) ∧
      (¬reserved → WindowKept s blk g → first + n ≤ rows → busy → waits (.acclr m a) s g u (.stall 15)) ∧
      (¬reserved → WindowKept s blk g → first + n ≤ rows → ¬busy → MayFall g u u →
        GoesTo (.acclr m a) s (s.setBlock { blk with acc := blk.acc.filter fun y =>
          !(decide (16 * (g.acbase.toNat + first) ≤ y.1) && decide (y.1 < 16 * (g.acbase.toNat + first + n))) }) g (backEdge u)))

/-- `spk24` (R53, R303): of every four elements of a lane pair it keeps two and writes which; the other formats are the format fault. `cbld` (R64, R304)
replaces the shape table that FMT names by the 512 entries at its address, which is a multiple of 64. -/
def Sys2Proof.Stated.PackAndShapeLoad : Prop :=
  (∀ m p d a b (s : State) (g : Group) (u : GUnit), Issues (.spk24 m p d a b) s g u → activeMask g u p.toNat ≠ 0 →
    let code := fmtA u.fmt
    let ms := activeMask g u p.toNat
    (code < 4 ∨ 9 < code → exec (.spk24 m p d a b) s = .next (s.takeTrap g.id u.uid { cause := 10, tval := u.fmt, tstat := 0, tlane := u.mask } 0 false)) ∧
    (4 ≤ code → code ≤ 9 → d ≠ b → FallsClear g u →
      let w := formatWidth code
      ∃ t g', exec (.spk24 m p d a b) s = .next t ∧ OnlyGroup g.id s t ∧ t.group? g.id = some g' ∧ g'.preds = g.preds ∧ g'.sregs = g.sregs ∧ g'.fflg = g.fflg ∧
        (∀ n l, l < 32 → ¬(ms.getLsbD l = true ∧ (n = g.vwin + d.toNat ∨ n = g.vwin + b.toNat)) → g'.vreg n l = g.vreg n l) ∧
        ∀ l ∈ lanesOf ms, ∀ q, q < 16 / w →
          let xs := (List.range 4).map fun k => pairElem (g.v64 a.toNat l) w (4 * q + k)
          let i := (g'.v b.toNat l).toNat / 2 ^ (4 * q) % 4
          let j := (g'.v b.toNat l).toNat / 2 ^ (4 * q + 2) % 4
          Kept code xs i j ∧ pairElem ((g'.v d.toNat l).setWidth 64) w (2 * q) = xs.getD i 0 ∧
            pairElem ((g'.v d.toNat l).setWidth 64) w (2 * q + 1) = xs.getD j 0)) ∧
  (∀ m a (s : State) (g : Group) (u : GUnit), Issues (.cbld m a) s g u →
    let va := g.s a.toNat
    let trap := fun (cause : Nat) => exec (.cbld m a) s = .next (s.takeTrap g.id u.uid { cause := cause, tval := va, tstat := 0, tlane := u.mask } 0 false)
    ((s.blockOf g).timed = true → va.toNat / 2 ^ 56 ≠ 0xFF → trap 13) ∧
    ((s.blockOf g).timed = false ∨ va.toNat / 2 ^ 56 = 0xFF → va.toNat % 64 ≠ 0 → trap 11) ∧
    (∀ b off x, va.toNat % 64 = 0 →
      (∀ k, k < 64 → s.placeAt g .read 32 (va + BitVec.ofNat 64 (32 * k)) = .hit (.pad b.id (off + 32 * k)) ∧
        s.transferAt g.id (.pad b.id (off + 32 * k)) 32 = false) → off % 32 = 0 → s.block? b.id = some b →
      (∀ t ∈ (s.core g.core).allTasks, ¬(t.group = g.id ∧ taskA t.record = 11 ∧ taskCbt t.record = fmtCbt u.fmt)) →
      s.context? (s.blockOf g).asid = some x → MayFall g u u →
      ∃ shapes, GoesTo (.cbld m a) s (s.setContext { x with shapes := shapes }) g (backEdge u) ∧
        ∀ t e, t < 4 → e < 512 → sget (shapeReset e) shapes (512 * t + e) =
          if t = fmtCbt u.fmt then BitVec.ofNat 32 (bytesValue (padBytes b (off + 4 * e) 4)) else sget (shapeReset e) x.shapes (512 * t + e)))

namespace Sys2Proof.Stated

/-- A word whose address of 8 bytes names the residency word of a registered layer that can be reached (R325). -/
structure NamesLayer (s : State) (g : Group) (va : Word) (mdl : Model) (n : Nat) (l : Layer) : Prop where
  aligned : va.toNat % 8 = 0
  place : ∃ pa ord key v, s.placeAt g .read 8 va = .hit (.phys pa ord key v) ∧ ord ≠ 2 ∧ s.placePoison (.phys pa ord key v) = none ∧
    s.transferAt g.id (.phys pa ord key v) 8 = false ∧ s.layerAt (s.blockOf g).asid pa = some (mdl, n, l)

/-- The swap fault with its two reasons (R328): the layer's state with what stands in TSTAT [7:3], and its error code. -/
def swapFaults (i : Instr) (s : State) (g : Group) (u : GUnit) (va w : Word) (extra : Nat) : Prop :=
  exec i s = .next (s.takeTrap g.id u.uid
    { cause := 18, tval := va, tstat := BitVec.ofNat 64 (w.toNat / 2 ^ 61) ||| BitVec.ofNat 64 extra ||| BitVec.ofNat 64 (w.toNat / 2 ^ 32 % 2 ^ 8 * 2 ^ 8), tlane := u.mask } 0 false)

/-- A word that answers a value after an effect on the rest of the machine. -/
def answersAfter (i : Instr) (s s' : State) (g : Group) (u : GUnit) (d : BitVec 5) (v : Word) : Prop := GoesTo i s s' (g.setS d.toNat v) (backEdge u)

/-- The residency word of a layer with HOLD one higher, and the block holding it (R326). -/
def heldOnce (s : State) (g : Group) (l : Layer) : State :=
  (s.setBlock { s.blockOf g with holds := (s.blockOf g).holds ++ [(l.resWord, l.resKey)] }).writeRes l (s.readRes l + (1 <<< 40))

/-- No tile transfer of the group is in flight. -/
def Untiled (s : State) (g : Group) : Prop := ∀ x ∈ s.tileOps, x.group ≠ g.id

/-- An atomic of a shape or signal word reaches a place in the module or in scratchpad (R365, R348, R261). -/
structure Signals (s : State) (g : Group) (va : Word) (pl : Place) : Prop where
  reach : va8 s g .atomic false va pl
  near : placeOrd pl ≠ 2 ∧ atHost pl = false ∧ atDevice pl = false ∧ s.placePoison pl = none
  confirmed : (s.blockOf g).confirmed = true
  untiled : Untiled s g

/-- What a handle names (R346): no queue of the context, a stale generation, a record that is gone or complete, or the record. -/
inductive Handle where
  | nothing | stale | complete | record (q : Queue) (r : Fetched)

/-- The reading of a handle (R333, R346). -/
def handleOf (s : State) (asid : Nat) (h : Word) : Handle :=
  match s.queue? (h.toNat / 2 ^ 48) with
  | none => .nothing
  | some q =>
    if q.asid ≠ asid then .nothing
    else if h.toNat / 2 ^ 32 % 2 ^ 16 ≠ q.gen.toNat % 2 ^ 16 then .stale
    else match q.records.find? fun r => decide (r.pos % 2 ^ 32 = h.toNat % 2 ^ 32) with
      | none => .complete
      | some r => if r.status ≠ none ∨ recKind r.record ≠ 2 then .complete else .record q r

/-- The image words of R201 to R205 lie at an address: each sector of it reaches a place of a block's scratchpad. -/
def ImageAt (s : State) (g : Group) (c : Access) (va : Word) (n : Nat) (b : Block) (off : Nat) : Prop :=
  va.toNat % 64 = 0 ∧ s.block? b.id = some b ∧ off % 32 = 0 ∧ (c = .write → (s.blockOf g).confirmed = true) ∧ (c = .read → s.padPoison b.id = none) ∧
    ∀ k, k < n / 32 → s.placeAt g c 32 (va + BitVec.ofNat 64 (32 * k)) = .hit (.pad b.id (off + 32 * k)) ∧
      s.transferAt g.id (.pad b.id (off + 32 * k)) 32 = false

/-- The words at an offset of scratchpad. -/
def padWords (b : Block) (off n : Nat) : List Word := bytesWords n (padBytes b off (8 * n))

end Sys2Proof.Stated

/-! ### Residency, completion, shapes and context images (R201 to R205, R320 to R328, R345 to R349, R360, R365 to R368, R426) -/

/-- Layer words (R246, R282, R322, R325 to R328): `lacq` waits for a watch entry where none is free; with one, of a resident layer it raises HOLD and remembers the hold, acquires at `dev` and answers the word; of a failed
layer, with 16 holds, or of an absent layer in a timed block it is the swap fault; `lrel` gives a hold back, and without one faults; `lstat` and `lstat.retry`
acquire and answer the word, which the latter first makes arriving when it was failed. -/
def Sys2Proof.Stated.LayerWords : Prop :=
  ∀ (s : State) (g : Group) (u : GUnit) (m : BitVec 1) (d a : BitVec 5) (mdl : Model) (n : Nat) (l : Layer),
    NamesLayer s g (g.s a.toNat) mdl n l →
    let va := g.s a.toNat
    let w := s.readRes l
    let st := w.toNat / 2 ^ 61
    let holds := (s.blockOf g).holds
    let acc := s.accessor g
    (Issues (.lacq m d a) s g u → (s.blockOf g).confirmed = true → (s.core g.core).watches.length = Config.watchEntries →
      ∃ t g' x, exec (.lacq m d a) s = .next t ∧ t.mem = s.mem ∧ t.blocks = s.blocks ∧ t.group? g.id = some g' ∧ SameRegs g g' ∧ x ∈ g'.active ∧
        x.uid = u.uid ∧ x.pc = u.pc ∧ x.wait = .watchEntry 20) ∧
    (Issues (.lacq m d a) s g u → (s.blockOf g).confirmed = true → (s.core g.core).watches.length < Config.watchEntries → (s.core g.core).watchQueue = [] →
      (st = 3 → holds.length < 16 → w.toNat / 2 ^ 40 % 2 ^ 16 < 2 ^ 16 - 1 → MayFall g u u →
        answersAfter (.lacq m d a) s ((heldOnce s g l).acquire acc 3) g u d (w + (1 <<< 40))) ∧
      (st = 3 → 16 ≤ holds.length → swapFaults (.lacq m d a) s g u va w 8) ∧
      (st = 4 → swapFaults (.lacq m d a) s g u va w 0) ∧
      (st < 3 → (s.blockOf g).timed = true → swapFaults (.lacq m d a) s g u va w 64)) ∧
    (Issues (.lrel m a) s g u → (s.blockOf g).confirmed = true →
      ((∀ h ∈ holds, h.1 ≠ l.resWord) → swapFaults (.lrel m a) s g u va w 16) ∧
      ((∃ h ∈ holds, h.1 = l.resWord) → Untiled s g → MayFall g u u →
        let s1 := s.release acc 3
        let s2 := s1.writeRes l (s1.readRes l - (1 <<< 40))
        GoesTo (.lrel m a) s (s2.setBlock { s2.blockOf g with holds := holds.eraseP fun h => decide (h.1 = l.resWord) }) g (backEdge u))) ∧
    (MayFall g u u →
      (Issues (.lstat m d a) s g u → answersAfter (.lstat m d a) s (s.acquire acc 3) g u d w) ∧
      (Issues (.lstatRetry m d a) s g u →
        (st ≠ 4 → answersAfter (.lstatRetry m d a) s (s.acquire acc 3) g u d w) ∧
        (st = 4 → answersAfter (.lstatRetry m d a) s ((s.requestLayer mdl n l).acquire acc 3) g u d w)))

/-- Completion words (R345 to R349): `wdone` and `wdone.fail` release at `sys`, record STATUS 0 or 1 in the record that the handle names, decrement the join
counter only where HOUT is 0, and answer HOUT with what the counter did; `wsig` raises a word to a maximum; `qrestart` answers 2, 1 or 3, or makes the queue
busy again from RIDX.
What the rules leave open here is the model's own choice or reading: log entries 53, 110 and 111. -/
def Obligations.CompletionWords : Prop :=
  ∀ (s : State) (g : Group) (u : GUnit) (m : BitVec 1) (d a b : BitVec 5),
    let acc := s.accessor g
    (∀ i st, (i = .wdone m d a b ∧ st = 0) ∨ (i = .wdoneFail m d a b ∧ st = 1) → Issues i s g u → (s.blockOf g).confirmed = true → s.outstanding g = 0 →
      Untiled s g → NoneLost s g → MayFall g u u →
      let s1 := s.release acc 4
      let h := g.s a.toNat
      let asid := (s.blockOf g).asid
      let va := g.s b.toNat
      (va = 0 → h = 0 → answersAfter i s s1 g u d 0) ∧
      (h ≠ 0 → va = 0 →
        (handleOf s1 asid h = .nothing → answersAfter i s s1 g u d 3) ∧
        (handleOf s1 asid h = .stale → answersAfter i s s1 g u d 2) ∧
        (handleOf s1 asid h = .complete → answersAfter i s s1 g u d 1) ∧
        (∀ q r, handleOf s1 asid h = .record q r → answersAfter i s (s1.setQueue (q.setRecord { r with status := some st })) g u d 0)) ∧
      (∀ pa ord key, h = 0 → va ≠ 0 → va.toNat % 128 = 0 → s.placeAt g .atomic 128 va = .hit (.phys pa ord key va) → ord ≠ 2 → atHost (.phys pa ord key va) = false →
        atDevice (.phys pa ord key va) = false →
        s.placePoison (.phys pa ord key va) = none → s.transferAt g.id (.phys pa ord key va) 128 = false →
        let s2 := s1.expelPlace acc (.phys pa ord key va)
        let count := bytesValue (s2.homeBytes key pa 8)
        (count = 0 → answersAfter i s s2 g u d 8) ∧
        (1 < count → answersAfter i s (s2.storeHome key pa (valueBytes 8 (count - 1))) g u d 0) ∧
        (count = 1 →
          let s3 := s2.storeHome key pa (valueBytes 8 0)
          let target := bytesValue (s3.homeBytes key (pa + 8) 8)
          let entry := bytesWords 8 (s3.homeBytes key (pa + 64) 64)
          ∀ cl, (s.clustersOf (s.partOf g))[target % 2 ^ 8]? = some cl →
            answersAfter i s (s3.poolOffer cl (target / 2 ^ 8 % 2 ^ 3) (.cont entry)) g u d 4))) ∧
    (∀ pl, Issues (.wsig m a b) s g u → Signals s g (g.s a.toNat) pl → MayFall g u u →
      GoesTo (.wsig m a b) s (performed (s.release acc 3) acc pl 8 fun old => some (max old (g.s b.toNat).toNat)).1 g (backEdge u)) ∧
    (Issues (.qrestart m d a) s g u → Untiled s g → NoneLost s g → MayFall g u u →
      let s1 := s.release acc 4
      let found := s.queues.find? fun q => decide (q.asid = (s.blockOf g).asid) && decide (q.descVa = g.s a.toNat)
      (found = none → answersAfter (.qrestart m d a) s s1 g u d 2) ∧
      ∀ q, found = some q → (q.state ≠ 4 → answersAfter (.qrestart m d a) s s1 g u d 1) ∧
        (q.state = 4 →
          let errpos := (s1.descWord q 6).toNat
          let ridx := (s1.descWord q 3).toNat
          (ridx < errpos ∨ s1.widx q < ridx → answersAfter (.qrestart m d a) s s1 g u d 3) ∧
          (errpos = ridx → ridx < s1.widx q → s1.queue? q.qid = some q →
            ∃ t g', exec (.qrestart m d a) s = .next t ∧ t.group? g.id = some g' ∧ SameRegs (g.setS d.toNat 0) g' ∧
              t.queue? q.qid = some { q with state := 2, err := 0, fetchedCount := ridx, records := [], walkFault := [], packet := none })))

/-- Shape words (R355, R360, R365 to R368): `shp.set` writes a slot that is open and answers whether it was; `shp.get` and `shp.conf` read what the
device knows of the grid, the latter only once the block is confirmed, with an acquire at `sys`; `salloc` takes bytes of the block's arena slice. -/
def Sys2Proof.Stated.ShapeWords : Prop :=
  ∀ (s : State) (g : Group) (u : GUnit) (m : BitVec 1) (d a b : BitVec 5),
    let acc := s.accessor g
    let blk := s.blockOf g
    (∀ pl, Issues (.shpSet m d a b) s g u → Signals s g (g.s a.toNat) pl → MayFall g u u →
      let v := (g.s b.toNat).toNat
      let p := performed (s.release acc 4) acc pl 8 fun old => if old < 2 ^ 63 then some (2 ^ 63 + v) else none
      (2 ^ 32 ≤ v → answers (.shpSet m d a b) s g u d 2) ∧
      (v < 2 ^ 32 → NoneLost s g → answersAfter (.shpSet m d a b) s p.1 g u d (if p.2 < 2 ^ 63 then 0 else 1))) ∧
    (∀ k, s.grid? blk.grid = some k → MayFall g u u →
      (Issues (.shpGet m d) s g u → answers (.shpGet m d) s g u d
        (BitVec.ofNat 64 ((if blk.confirmed then 2 ^ 63 else 0) + (if blk.tail then 2 ^ 62 else 0) + k.k0.toNat % 2 ^ 32))) ∧
      (Issues (.shpConf m d) s g u → blk.confirmed = true → answersAfter (.shpConf m d) s (s.acquire acc 4) g u d k.k0)) ∧
    (Issues (.shpConf m d) s g u → blk.confirmed = false → waits (.shpConf m d) s g u (.stall 19)) ∧
    (∀ k, Issues (.salloc m d a) s g u → s.grid? blk.grid = some k → MayFall g u u →
      let n := (g.s a.toNat).toNat
      let slice := sliceAddr k.desc blk.index
      (k.desc.abase = 0 ∨ n % 256 ≠ 0 ∨ n = 0 ∨ 2 ^ 32 < n → answers (.salloc m d a) s g u d 1) ∧
      (k.desc.abase ≠ 0 → n % 256 = 0 → 0 < n → n ≤ 2 ^ 32 →
        (s.reach k.asid slice .atomic true k.walkFault = .fail → answersAfter (.salloc m d a) s (s.setGrid { k with walkFault := k.walkFault.filter fun p => decide (p ≠ slice.toNat / 4096) }) g u d 3) ∧
        ∀ leaf pa, s.reach k.asid slice .atomic true k.walkFault = .found leaf pa →
          let cursor := bytesValue (s.homeBytes leaf.key pa 8)
          (k.desc.aslice * 4096 < 256 + cursor + n → answers (.salloc m d a) s g u d 0) ∧
          (256 + cursor + n ≤ k.desc.aslice * 4096 →
            answersAfter (.salloc m d a) s (s.storeHome leaf.key pa (valueBytes 8 (cursor + n))) g u d (slice + BitVec.ofNat 64 (256 + cursor)))))

/-- Images of contexts and units (R202 to R205), with the image in scratchpad: `seqsv` and `fragsv` write it and answer its length; `seqld` and `fragld`
load one whose header fits and answer its length, and else answer 0 and change nothing; and `tmark` changes nothing but the trace (R426).
What the rules leave open here is the model's own choice or reading: log entries 78, 79, 80, 155, 159 and 160. -/
def Obligations.ContextImages : Prop :=
  ∀ (s : State) (g : Group) (u : GUnit) (m : BitVec 1) (d a b : BitVec 5) (x : Block) (off : Nat),
    let va := g.s a.toNat
    let saved := fun (i : Instr) (len : Nat) (ws : List Word) => ∃ t g' x', exec i s = .next t ∧ t.group? g.id = some g' ∧
      SameRegs (g.setS d.toNat (BitVec.ofNat 64 len)) g' ∧ t.block? x.id = some x' ∧ x' = { x with pad := x'.pad } ∧
      ∀ n, n < len / 8 → wordAt (padWords x' off (len / 8)) n = wordAt ws n
    let selected := fun (sel : Nat) (c : Ctx) => (sel = 2 ∧ (s.ctxs.find? fun c => decide (c.scope = 2) && decide (c.block = (s.blockOf g).id)) = some c) ∨
      (sel = 3 ∧ s.clusterCtx (s.blockOf g).grid (clusterOfCore g.core) = some c) ∨ (sel = 4 ∧ s.gridCtx (s.blockOf g).grid = some c)
    (Issues (.seqsv m d a b) s g u → MayFall g u u → ∀ ws : List Word,
      (g.s b.toNat = 1 ∧ ws = groupImage g) ∨ (∃ c, selected (g.s b.toNat).toNat c ∧ c.frozen = true ∧ ws = ctxImage c) →
      let len := (8 * ws.length + 63) / 64 * 64
      ImageAt s g .write va len x off → saved (.seqsv m d a b) len ws) ∧
    (Issues (.fragsv m d a) s g u → MayFall g u u →
      let len := 1280 + 256 * g.units.length + 128 * g.replay.length
      ImageAt s g .write va len x off → saved (.fragsv m d a) len (fragImage g)) ∧
    (Issues (.seqld m d a b) s g u → MayFall g u u → ImageAt s g .read va 64 x off →
      let head := padWords x off 8
      let fits := fun (scope nlink : Nat) => fieldOf head 0 63 56 = 1 ∧ fieldOf head 0 55 53 = scope ∧ fieldOf head 0 48 32 = nlink
      let len := (512 + 64 * fieldOf head 0 52 49 + 8 * fieldOf head 0 48 32 + 63) / 64 * 64
      (g.s b.toNat = 1 → ¬fits 1 0 → answers (.seqld m d a b) s g u d 0) ∧
      (∀ c, selected (g.s b.toNat).toNat c → c.frozen = true → ¬fits (g.s b.toNat).toNat c.links.length → answers (.seqld m d a b) s g u d 0) ∧
      (g.s b.toNat = 1 → fits 1 0 → ImageAt s g .read va len x off →
        ∃ t g', exec (.seqld m d a b) s = .next t ∧ t.group? g.id = some g' ∧
          SameRegs ((loadGroup g (padWords x off (len / 8))).setS d.toNat (BitVec.ofNat 64 len)) g' ∧ t.mem = s.mem ∧ t.blocks = s.blocks) ∧
      (∀ c, selected (g.s b.toNat).toNat c → c.frozen = true → fits (g.s b.toNat).toNat c.links.length → ImageAt s g .read va len x off →
        answersAfter (.seqld m d a b) s (s.setCtx (s.loadCtx c (padWords x off (len / 8)))) g u d (BitVec.ofNat 64 len))) ∧
    (Issues (.fragld m d a) s g u → ImageAt s g .read va 64 x off →
      let head := padWords x off 8
      let nunit := fieldOf head 0 55 50
      let nrepl := fieldOf head 0 49 44
      let len := 1280 + 256 * nunit + 128 * nrepl
      (fieldOf head 0 63 56 ≠ 1 ∨ fieldOf head 1 39 32 ≠ g.width ∨ nunit ≤ fieldOf head 1 44 40 ∨ 32 < nrepl ∨ 32 < nunit → MayFall g u u →
        answers (.fragld m d a) s g u d 0) ∧
      (fieldOf head 0 63 56 = 1 → fieldOf head 1 39 32 = g.width → fieldOf head 1 44 40 < nunit → nrepl ≤ 32 → nunit ≤ 32 → ImageAt s g .read va len x off → MayFall g u u →
        let ws := padWords x off (len / 8)
        let f := fragOf (s.steps) g.nextUid ws
        (fragOk g f = false → answers (.fragld m d a) s g u d 0) ∧
        (fragOk g f = true → ∃ t g', exec (.fragld m d a) s = .next t ∧ t.group? g.id = some g' ∧ t.mem = s.mem ∧ t.blocks = s.blocks ∧
          g'.live = f.units.foldl (fun m u => m ||| u.mask) 0 ∧ g'.units.length = nunit ∧ g'.trap.tunit = f.tunit ∧ g'.replay = f.replay ∧
          (∀ l, l < 32 → g'.gen l = BitVec.ofNat 32 ((wordAt ws (8 + l / 2)).toNat / 2 ^ (32 * (l % 2)))) ∧
          (∀ r, g'.s r = (g.setS d.toNat (BitVec.ofNat 64 len)).s r) ∧ g'.vregs = g.vregs ∧ g'.preds = g.preds))) ∧
    (Issues (.tmark m a) s g u → MayFall g u u → GoesTo (.tmark m a) s s g (backEdge u))

namespace Sys2Proof.Stated

/-- A group of a scheduler and a unit of it that may issue: ready, not held by another unit's region, the group neither stopped nor about to take a
trap before its next word or pair (R43, R148, R157, R191, R193). -/
structure MayIssue (s : State) (core sched : Nat) (g : Group) (u : GUnit) : Prop where
  group : g ∈ s.groups ∧ g.core = core ∧ g.slot % 4 = sched
  unit : u ∈ g.active ∧ (u.wait = .ready ∨ u.wait = .edgeOut)
  region : u.region ≠ none ∨ ∀ x ∈ g.active, x.region = none
  live : g.doubleFault = false ∧ g.draining = none ∧ s.stoppedGrid g = false ∧ (u.hint ≠ none ∨ s.mustTrap g = false)

/-- A unit that has not issued for 32 issue cycles of its scheduler (R148). -/
def Overdue (sc : Sched) (u : GUnit) : Prop := 32 ≤ sc.recent.length ∧ ∀ n ∈ sc.recent, u.since < n

/-- An event makes one unit ready and changes nothing else. -/
def readies (e : Instr) (s : State) (g : Group) (u : GUnit) : Prop :=
  exec e s = .next (s.setGroup (g.setUnit { u with wait := .ready, since := s.steps }))

/-- In `t` the unit of a group with the number of `u` is ready at its PC, with its lanes. -/
def ReadyAt (t : State) (gid : Nat) (u : GUnit) : Prop :=
  ∃ g x, t.group? gid = some g ∧ x ∈ g.active ∧ x.uid = u.uid ∧ x.pc = u.pc ∧ x.mask = u.mask ∧ x.wait = .ready

/-- A sleeping unit on a sector, with its watch entry, whose group goes on undisturbed (R135, R136, R244). -/
structure Sleeps (s : State) (g : Group) (u : GUnit) (sector : Nat) : Prop where
  group : s.group? g.id = some g
  unit : u ∈ g.active ∧ g.unit? u.uid = some u ∧ (u.wait = .suspended sector ∨ u.wait = .layer sector)
  watch : ∃ c ∈ s.cores, { sector := sector, group := g.id, unit := u.uid : Watch } ∈ c.watches
  whole : g.trap.tmode = false → g.units = [u] ∧ g.recon = [] ∧ u.entry = none ∧ atEnd g u = false
  handler : g.trap.tmode = true → g.handler = some u

end Sys2Proof.Stated

/-! ### Issue and waiting (R34, R35, R121, R135, R136, R148, R191 to R193, R243 to R246, R341) -/

/-- Who issues (R34, R148, R341): the first slot of a cycle goes to an overdue unit, the oldest first; else to the unit of a run of fewer than 32
issue cycles; else to the ready unit whose group has waited longest since its last issue, and of that group to the unit ready longest. Choosing changes
no group and no byte of memory. The second slot of a cycle goes to a unit of another group, and while a unit is overdue only to an overdue one. -/
def Sys2Proof.Stated.IssueOrder : Prop :=
  ∀ (s : State) (core sched : Nat), sched < 4 → (s.core core).fenced = false → (s.cluster (clusterOfCore core)).fenced = false →
    (s.core core).packets = [] →
    let sc := ((s.core core).scheds[sched]?).getD schedReset
    let late := ∃ g u, MayIssue s core sched g u ∧ Overdue sc u
    (∃ g u, MayIssue s core sched g u) →
    ∃ t g u, exec (.issueCycle core sched) s = .next t ∧ t.sel = some (.unit g.id u.uid) ∧ MayIssue s core sched g u ∧
      (sc.first = none → t.groups = s.groups ∧ t.mem = s.mem ∧
        (late → Overdue sc u ∧ ∀ h v, MayIssue s core sched h v → Overdue sc v → u.since ≤ v.since) ∧
        (¬late → ∀ h v, MayIssue s core sched h v → sc.run = some (h.id, v.uid) → sc.runLen < 32 → h.id = g.id ∧ v.uid = u.uid) ∧
        (¬late → (∀ h v, MayIssue s core sched h v → sc.run = some (h.id, v.uid) → 32 ≤ sc.runLen) →
          (∃ f w, MayIssue s core sched f w ∧ f.id = g.id ∧ ∀ h v, MayIssue s core sched h v →
            f.lastIssue ≤ h.lastIssue ∧ (f.lastIssue = h.lastIssue → f.slot ≤ h.slot)) ∧
          ∀ v, MayIssue s core sched g v → u.since ≤ v.since)) ∧
      (∀ gid used alone, sc.first = some (gid, used, alone) → sc.cycle = (s.cluster (clusterOfCore core)).tsc.toNat →
        (t.cluster (clusterOfCore core)).tsc = (s.cluster (clusterOfCore core)).tsc →
        alone = false ∧ sc.paired = false ∧ (s.cluster (clusterOfCore core)).droop = .none ∧ g.id ≠ gid ∧ (late → Overdue sc u))

/-- How a waiting unit becomes ready again, which changes nothing else (R16, R17, R34, R35, R121, R148): its group's register writes are complete, the
interlock no longer holds it, its target has been fetched, its queue may have room, or its page has been translated. -/
def Sys2Proof.Stated.UnitsBecomeReady : Prop :=
  ∀ (s : State) (g : Group) (u : GUnit), s.group? g.id = some g → g.unit? u.uid = some u →
    (u.wait = .switchPark → (∀ w ∈ s.writes, w.group ≠ g.id) → (∀ x ∈ s.atomics, x.group ≠ g.id) → readies (.switchUnpark g.id u.uid) s g u) ∧
    (u.wait = .hold → (∀ w ∈ s.writes, w.group ≠ g.id) → (∀ x ∈ s.atomics, x.group ≠ g.id) → readies (.interlockReissue g.id u.uid) s g u) ∧
    (u.wait = .takenSide → readies (.takenSideReady g.id u.uid) s g u) ∧
    (∀ r, u.wait = .stall r → r ≠ 21 → r ≠ 18 → g.doubleFault = false → readies (.queueStallResume g.id u.uid) s g u) ∧
    (u.wait = .parked → (∀ w ∈ s.walks, ∀ va, .unit g.id u.uid va ∉ w.waiters) → readies (.parkedReissue g.id u.uid) s g u)

/-- Wake-ups (R135, R136, R244 to R246, R326): a write of a watched sector, and every tick of 1 ms, makes the units that watch it ready and frees
their watch entries; a free entry goes to the unit that has waited longest for one, which then tests its word again before anyone else issues. -/
def Sys2Proof.Stated.WakeUps : Prop :=
  (∀ (s : State) (sector : Nat), ∃ t, exec (.watchedSectorWrite sector) s = .next t ∧ t.mem = s.mem ∧ (∀ c ∈ t.cores, ∀ w ∈ c.watches, w.sector ≠ sector) ∧
    ∀ g u, Sleeps s g u sector → ReadyAt t g.id u) ∧
  (∀ s : State, ∃ t, exec .tick1ms s = .next t ∧ t.mem = s.mem ∧ (∀ c ∈ t.cores, c.watches = []) ∧
    t.tsr = BitVec.ofNat 64 ((s.tsr.toNat / 100000 + 1) * 100000) ∧ ∀ g u sector, Sleeps s g u sector → ReadyAt t g.id u) ∧
  (∀ (s : State) (core : Nat) (g : Group) (u : GUnit) (rest : List (Nat × Nat)), (s.core core).watchQueue = (g.id, u.uid) :: rest →
    (s.core core).watches.length < Config.watchEntries → s.sel = none → s.group? g.id = some g → g.unit? u.uid = some u →
    (∃ r, u.wait = .watchEntry r) →
    exec (.watchEntryGrant core) s = .next { s.setGroup (g.setUnit { u with wait := .ready, since := s.steps }) with sel := some (.unit g.id u.uid) })

/-- Asynchronous entry (R190 to R193, R199, R417): a group at an instruction boundary outside trap mode takes a debug halt first, and a pre-emption only when
no command and no task of it is left; it enters its handler with bit 8 of TCAUSE set, at the unit of lowest lane. A context's fault enters the
handler of the group that reports for it, as a synchronous trap.
What the rules leave open here is the model's own choice or reading: log entries 59, 76 and 87. -/
def Obligations.AsyncEntry : Prop :=
  (∀ (s : State) (g : Group) (u : GUnit) (rest : List GUnit) (i : TrapInfo), s.group? g.id = some g → g.trap.tmode = false → g.units = u :: rest →
    Apart g → g.draining = none → (∀ x ∈ s.atomics, x.group ≠ g.id) → (∀ x ∈ g.units, x.hint = none) → i ∈ g.async → i.cause < 256 →
    (i.cause = 26 ∧ (∀ x ∈ g.async, x.cause = 26 → x = i)) ∨
      ((∀ x ∈ g.async, x.cause ≠ 26) ∧ g.async.head? = some i ∧ (i.cause = 24 → s.outstanding g = 0)) →
    ∃ t, exec (.asyncTrapEntry g.id) s = .next t ∧
      InHandler (s.setGroup { g with async := g.async.erase i }) t { g with async := g.async.erase i } u { i with tlane := u.mask } true u.pc) ∧
  (∀ (s : State) (c : Ctx) (g : Group) (u : GUnit) (rest : List GUnit) (i : TrapInfo), s.ctx? c.id = some c → c.fault = some i → c.reporter = none →
    s.reporterOf c = some g → s.group? g.id = some g → g.trap.tmode = false → g.units = u :: rest → Apart g → g.draining = none →
    (∀ x ∈ s.atomics, x.group ≠ g.id) → (∀ x ∈ g.units, x.hint = none) → i.cause < 256 →
    ∃ t, exec (.upperContextFaultDelivery c.id) s = .next t ∧ (∀ x ∈ t.ctxs, x.id = c.id → x.reporter = some g.id) ∧
      InHandler (s.setCtx { c with reporter := some g.id }) t g u i false u.pc)

/-- The device writes a dirty sector back before its line is given up (R230, R268): its written bytes stand at its home, and the cache
holds no copy of it; no register of any group changes. -/
def Sys2Proof.Stated.DirtyReplacement : Prop :=
  ∀ (s : State) (x : Sector), (s.cache.find? fun y => decide (y.core = x.core) && decide (y.asid = x.asid) && decide (y.tid = x.tid) &&
      decide (y.vsec = x.vsec) && decide (y.dirty ≠ 0) && decide (y.marked = none) && !s.heldLine y) = some x → s.cache.count x = 1 →
    ∃ t, exec (.dirtySectorWriteBack x.core x.asid x.tid x.vsec) s = .next t ∧ x ∉ t.cache ∧ t.groups = s.groups ∧ t.blocks = s.blocks ∧
      (x.pa % 32 = 0 → s.portDown x.pa = false → (isHbm x.pa = true → s.epoch x.key ≠ 0) → (∀ y ∈ s.cache, y ≠ x → y.dirty ≠ 0 → y.pa + 32 ≤ x.pa ∨ x.pa + 32 ≤ y.pa) → atHome t x)

namespace Sys2Proof.Stated

/-- A cluster's clock brought to a count of edges with no droop sequence under way. -/
def clockAt (c : Cluster) (t : Nat) : Cluster := { c with tsc := BitVec.ofNat 64 t }

end Sys2Proof.Stated

/-! ### Power, clocks and debug (R401 to R411, R417, R420, R423) -/

/-- Droop (R406): a trip stretches the next 6 cycles unless the last stretch began less than 70 cycles ago, half issue follows for 64 cycles, a trip
during half issue starts its count again, and one during a stretch, or below the threshold, changes nothing. -/
def Sys2Proof.Stated.DroopSequence : Prop :=
  ∀ (s : State) (cl mv : Nat), let c := s.cluster cl
    let now := c.tsc.toNat + 1
    (c.droopth = 0 ∨ mv < c.droopth ∨ c.droop = .stretch → ∃ t, exec (.droopTrip cl mv) s = .next t ∧ t.cluster cl = c ∧ t.groups = s.groups) ∧
    (c.droopth ≠ 0 → c.droopth ≤ mv →
      (c.droop = .half → ∃ t, exec (.droopTrip cl mv) s = .next t ∧ t.cluster cl = { c with halfFrom := c.tsc.toNat }) ∧
      (c.droop = .none → (∀ b, c.lastStretch = some b → b + 70 ≤ now) →
        ∃ t, exec (.droopTrip cl mv) s = .next t ∧ t.cluster cl = { c with droop := .stretch, lastStretch := some now }) ∧
      (∀ b, c.droop = .none → c.lastStretch = some b → now < b + 70 →
        ∃ t, exec (.droopTrip cl mv) s = .next t ∧ t.cluster cl = { c with droop := .half, halfFrom := now })) ∧
    ((∀ b, c.droop = .stretch → c.lastStretch = some b → c.tsc.toNat ≤ b + 6 → b + 6 < 2 ^ 64 → ∃ t, exec (.stretchEnd cl) s = .next t ∧
        t.cluster cl = { clockAt c (b + 6) with droop := .half, halfFrom := b + 6 }) ∧
     (c.droop = .half → c.tsc.toNat ≤ c.halfFrom + 64 → c.halfFrom + 64 < 2 ^ 64 →
        ∃ t, exec (.halfIssueEnd cl) s = .next t ∧ t.cluster cl = { clockAt c (c.halfFrom + 64) with droop := .none }))

/-- Frequencies, current and caps (R401, R404, R409, R411): the FLL moves one step toward its target, which is never below FLOOR of a timed partition; CREC takes the
charge of each window; the network's clock follows its queues within its bounds; and a newer rack cap applies until its lease ends. -/
def Sys2Proof.Stated.PowerControl : Prop :=
  (∀ (s : State) (cl : Nat), (∀ p ∈ s.partitions, p.creating = none) →
    let c := s.cluster cl
    ∃ t, exec (.fllStep cl) s = .next t ∧ s.floorOf cl ≤ (t.cluster cl).target ∧
      (c.step ≠ c.target → (t.cluster cl).target = max (s.floorOf cl) c.target) ∧
      (t.cluster cl).step = (if c.step < (t.cluster cl).target then c.step + 1 else if (t.cluster cl).target < c.step then c.step - 1 else c.step) ∧
      t.groups = s.groups ∧ t.mem = s.mem) ∧
  (∀ (s : State) (cl : Nat),
    let c := s.cluster cl
    let sum := c.window + 768 * s.runningTasks cl
    ∃ t, exec (.currentWindowEnd cl) s = .next t ∧ (t.cluster cl).crec = min (2 ^ 32 - 1) (c.crec - c.crec / 16 + sum) ∧ (t.cluster cl).window = 0 ∧
      (c.tsc.toNat + 16 < 2 ^ 64 → (t.cluster cl).tsc.toNat = 16 * (c.tsc.toNat / 16 + 1)) ∧ t.groups = s.groups ∧ t.mem = s.mem) ∧
  (∀ (s : State) (die occupied capacity f : Nat), s.bellows[die]? = some f →
    ∃ t, exec (.bellowsSample die occupied capacity) s = .next t ∧ t = { s with bellows := t.bellows } ∧ (∀ d, d ≠ die → t.bellows[d]? = s.bellows[d]?) ∧
      ∃ f', t.bellows[die]? = some f' ∧ s.bellowsFloor die ≤ f' ∧
        (capacity < 2 * occupied → f' = max (s.bellowsFloor die) (min 2000 (f + 50))) ∧
        (2 * occupied ≤ capacity → capacity ≤ 8 * occupied → f' = max (s.bellowsFloor die) f) ∧
        (8 * occupied < capacity → 2 * occupied ≤ capacity → f' = max (s.bellowsFloor die) (f - 50))) ∧
  (∀ (s : State) (seq : BitVec 32) (cap : BitVec 16) (lease : BitVec 32),
    let newer := 1 ≤ (seq - s.caps.seq).toNat ∧ (seq - s.caps.seq).toNat < 2 ^ 31
    (¬newer → exec (.rackCapMessage seq cap lease) s = .next s) ∧
    (newer → ∃ t, exec (.rackCapMessage seq cap lease) s = .next t ∧ t = { s with caps := t.caps } ∧ t.caps.seq = seq ∧ t.caps.cap = cap.toNat ∧
      t.caps.expiry = some (s.tsr.toNat + 100000 * lease.toNat) ∧ t.caps.fbcap = s.caps.fbcap)) ∧
  (∀ (s : State) (e : Nat), s.caps.expiry = some e → ∃ t, exec .capLeaseExpiry s = .next t ∧ t.caps.cap = s.caps.fbcap ∧ t.caps.expiry = none ∧
    t.caps.seq = s.caps.seq ∧ t.tsr = BitVec.ofNat 64 (max e s.tsr.toNat) ∧ t.groups = s.groups ∧ t.mem = s.mem)

/-- Watchdogs (R410): one that has reached its partition's limit fires, which is logged, and starts again; a limit of 0 disables it. -/
def Sys2Proof.Stated.Watchdogs : Prop :=
  (∀ (s : State) (c : Ctx) (k : Grid) (p : Partition), s.ctx? c.id = some c → s.grid? c.grid = some k → s.partition? k.partition = some p →
    (p.watchLimit ≠ 0 → p.watchLimit ≤ c.watchdog → ∃ t, exec (.watchdogFire (.blockContext c.id)) s = .next t ∧
      t.ctx? c.id = some { c with watchdog := 0 } ∧ t.groups = s.groups ∧ t.mem = s.mem ∧ .watchdog (.blockContext c.id) ∈ t.log) ∧
    (p.watchLimit = 0 ∨ c.watchdog < p.watchLimit → exec (.watchdogFire (.blockContext c.id)) s = .refused (.notEnabled "WATCHDOG_FIRE"))) ∧
  (∀ (s : State) (n : Nat) (q : Queue) (r : Fetched) (p : Partition), s.threadQueue n = some q → s.queue? q.qid = some q → q.nextPush = some r →
    s.partition? q.partition = some p → p.watchLimit ≠ 0 → p.watchLimit ≤ r.watchdog →
    ∃ t, exec (.watchdogFire (.fentos n)) s = .next t ∧ t.queue? q.qid = some (q.setRecord { r with watchdog := 0 }) ∧ t.groups = s.groups ∧ t.mem = s.mem ∧
      .watchdog (.fentos n) ∈ t.log)

/-- Debug (R417, R419, R420, R423): a stop of a process whose STOPALL is 1 asks each of its groups once to halt; a sampling point changes no more of a group
than what its trace remembers, and of a halted group it writes a record with stall reason 21; a pending OVF packet is written once its ring has
room, and every group of the core then owes a SYNC. -/
def Sys2Proof.Stated.DebugEvents : Prop :=
  (∀ (s : State) (pid : BitVec 24), pid ∈ s.stopall → ∃ t, exec (.debugHalt pid) s = .next t ∧ t.mem = s.mem ∧
    (∀ g, s.group? g.id = some g → g.pid ≠ pid → t.group? g.id = some g) ∧
    (∀ g, s.group? g.id = some g → g.pid = pid →
      ∃ g' i, t.group? g.id = some g' ∧ i ∈ g'.async ∧ i.cause = 26 ∧ g' = { g with async := g'.async }) ∧
    ∀ h ∈ t.harts, h.pid = pid → h.halted = true) ∧
  (∀ (s : State) (core sched : Nat), (s.core core).dbgctl.getLsbD 25 = true → sched < 4 →
    (s.sampledGroup core sched = none → exec (.samplingPoint core sched) s = .next s) ∧
    ∀ g, s.sampledGroup core sched = some g → ∃ t, exec (.samplingPoint core sched) s = .next t ∧ t.blocks = s.blocks ∧
      (∀ n, n ≠ g.id → t.group? n = s.group? n) ∧
      (s.group? g.id = some g → ∃ g', t.group? g.id = some g' ∧ g' = { g with trace := g'.trace }) ∧
      ∀ u r, g.halted = true → g.units[g.trap.tunit]? = some u →
        s.ringPut ((s.core core).dbgctl.toNat % 2 ^ 16) (s.core core).smpbase ((s.core core).dbgctl.toNat / 2 ^ 27 % 2 ^ 5)
          (sampleRecord s g u sched 21 u.pc) = .done r → t.mem = r.mem) ∧
  (∀ (s : State) (core : Nat) (lost : Word) (r : State), (s.core core).packets = [] → (s.core core).ovfDue = some lost →
    s.tracePut core [BitVec.ofNat 64 (7 * 2 ^ 60 + lost.toNat % 2 ^ 32 * 2 ^ 18), 0] = .done r →
    ∃ t, exec (.traceOvfWrite core) s = .next t ∧ (t.core core).ovfDue = none ∧ t.mem = r.mem ∧
      ∀ g, s.group? g.id = some g → (∀ x ∈ s.groups, x.id = g.id → x = g) → g.core = core → (s.blockOf g).asid = (s.core core).dbgctl.toNat % 2 ^ 16 →
        ∃ g' n, t.group? g.id = some g' ∧ g' = { g with trace := g'.trace } ∧ g'.trace.syncDue = some n ∧ n ≤ 3)

namespace Sys2Proof.Stated

/-- A walk of the list that an engine runs, and the walks of its number are it alone. -/
structure Walking (s : State) (w : Walk) (phase : Nat) : Prop where
  listed : s.walk? w.id = some w
  phase : w.phase = phase
  alone : ∀ x ∈ s.walks, x.id = w.id → x = w

/-- A parked unit that waits for a walk at an address, outside trap mode, with no AtomicOp of its group in flight (R121, R188). -/
structure Parked (s : State) (g : Group) (u : GUnit) : Prop where
  group : s.group? g.id = some g
  unit : u ∈ g.units ∧ g.unit? u.uid = some u ∧ Apart g
  parked : u.wait = .parked ∧ u.hint = none
  mode : g.trap.tmode = false ∧ g.draining = none ∧ ∀ x ∈ s.atomics, x.group ≠ g.id

/-- A unit waits for no walk but one. -/
def OnlyWalk (s : State) (w : Walk) (g u : Nat) : Prop := ∀ y ∈ s.walks, y.id ≠ w.id → ∀ va, .unit g u va ∉ y.waiters

/-- A requester for which the end of a walk changes nothing but that it can go on: no grid's cursor word and no queue's wait packet. -/
def Plain (x : Waiter) : Prop := (∀ k, x ≠ .arena k) ∧ ∀ q, x ≠ .queue q

/-- A queue without the mark that the word of its wait packet has met its condition (R335). -/
def unmarked (q : Queue) : Queue := { q with packet := q.packet.map fun p => { p with met := false } }

/-- TSTAT of a page fault (R190): bit 0 for a write or an atomic, bit 1 for a fetch, bit 2 for a page that is not present, bit 3 for a protection fault. -/
def faultStat (w : Walk) (prot : Bool) : Word :=
  BitVec.ofNat 64 ((if w.cls = 1 then 1 else if w.cls = 2 then 2 else 0) + if prot then 8 else 4)

/-- A fault ring with room (R434): a ring of 2^log records at an aligned place of memory, of which fewer are unread. -/
structure RingHasRoom (s : State) (x : AddrSpace) (log : Nat) : Prop where
  place : x.ring.toNat % 64 = 0 ∧ (isHbm x.ring.toNat = true ∨ isHost x.ring.toNat = true)
  size : bytesValue (s.homeBytes 0 (x.ring.toNat + 16) 8) = log ∧ 4 ≤ log ∧ log ≤ 16
  room : (BitVec.ofNat 64 x.nextIndex - BitVec.ofNat 64 (bytesValue (s.homeBytes 0 (x.ring.toNat + 8) 8))).toNat < 2 ^ log

/-- A walk of a unit whose fault stands in the ring (R432, R434): its record of 32 bytes, FWIDX one higher, MSI-X vector 1, and the walk waits for a
reply with its index. -/
def recorded (s t : State) (x : AddrSpace) (w : Walk) (log : Nat) : Prop :=
  let n := x.nextIndex
  let rec' := [BitVec.ofNat 64 (w.asid % 2 ^ 16 * 2 ^ 48 + n % 2 ^ 30 * 4 + w.cls % 4), w.va, 0, 0]
  t = (((((s.storeHome 0 (x.ring.toNat + 64 + 32 * (n % 2 ^ log)) (wordsBytes rec')).storeHome 0 x.ring.toNat (valueBytes 8 (n + 1))).setSpace
    { x with nextIndex := n + 1 }).setWalk { w with phase := 3, index := n % 2 ^ 30 })).raiseMsix x.fn 1

/-- The operand words of a request hold nothing but what its row names (R430, R435). -/
structure Clean (r : Request) (m1 m2 m3 m4 m5 m6 : Word) : Prop where
  zero : r.w0.toNat % 2 ^ 56 = 0
  words : r.w1 &&& ~~~m1 = 0 ∧ r.w2 &&& ~~~m2 = 0 ∧ r.w3 &&& ~~~m3 = 0 ∧ r.w4 &&& ~~~m4 = 0 ∧ r.w5 &&& ~~~m5 = 0 ∧ r.w6 &&& ~~~m6 = 0

/-- A request is carried out: its effect is `s'`, and it completes with a result (R430). -/
def carriedOut (e : Instr) (s s' : State) (r : Request) (result : Nat) : Prop := exec e s = .next (s'.finish r 0 result)

/-- A request is refused with one of some reasons and has no other effect (R430). -/
def refusedFor (e : Instr) (s : State) (r : Request) (reasons : List Nat) : Prop :=
  ∃ k ∈ reasons, exec e s = .next ({ s with draws := s.draws + 1 }.finish r k 0)

/-- The mask of the bits from `lo` to `hi`. -/
def field (hi lo : Nat) : Word := BitVec.ofNat 64 ((2 ^ (hi + 1 - lo) - 1) * 2 ^ lo)

end Sys2Proof.Stated

/-! ### Translation and its faults (R121, R389 to R399, R432, R434) -/

/-- Walks (R121, R394 to R397): a walk starts when its engine has one of 16 contexts free; one that ends with a leaf fills the TLB and sends a parked unit back to its
word; one that ends with a fault that is not replayable raises the page fault at the unit that waits; a replayable one is written into the fault ring,
which changes nothing else but memory, or held while the ring is full. -/
def Sys2Proof.Stated.Walks : Prop :=
  (∀ (s : State) (w : Walk), Walking s w 0 → (s.walks.filter fun x => decide (x.phase = 1) && decide (x.engine = w.engine)).length < 16 →
    exec (.walkRequest w.id) s = .next (s.setWalk { w with phase := 1 })) ∧
  (∀ (s : State) (w : Walk) (l : Leaf), Walking s w 1 → (∀ x ∈ w.waiters, Plain x) → s.walkFor w.asid w.va.toNat w.access w.level1 = .leaf l →
    ∃ t, exec (.walkComplete w.id) s = .next t ∧ (t.tlb.find? fun e => decide (e.asid = w.asid) && decide (e.page = w.page)) =
        some { asid := w.asid, page := w.page, leaf := l } ∧ (∀ x ∈ t.walks, x.id ≠ w.id) ∧ t.mem = s.mem ∧ t.groups = s.groups ∧
      ∀ g u va, .unit g.id u.uid va ∈ w.waiters → Parked s g u → OnlyWalk s w g.id u.uid → .parkedReissue g.id u.uid ∈ t.due) ∧
  (∀ (s : State) (w : Walk) (x : AddrSpace) (g : Group) (u : GUnit) (va : Word) (prot : Bool), Walking s w 1 → s.space? w.asid = some x → x.replays = false →
    s.walkFor w.asid w.va.toNat w.access w.level1 = (if prot then .protection else .notPresent) → w.waiters = [.unit g.id u.uid va] → Parked s g u → w.cls ≤ 2 →
    ∃ t, exec (.walkComplete w.id) s = .next t ∧ (∀ y ∈ t.walks, y.id ≠ w.id) ∧ (t.tlb = s.tlb) ∧
      InHandler s t g { u with wait := .ready } { cause := 14, tval := va, tstat := faultStat w prot, tlane := u.unfinished.getD u.mask } false u.pc) ∧
  (∀ (s : State) (w : Walk) (x : AddrSpace) (g u : Nat) (va : Word) (rest : List Waiter) (prot : Bool), Walking s w 1 → s.space? w.asid = some x → x.asid = w.asid →
    x.replays = true → s.walkFor w.asid w.va.toNat w.access w.level1 = (if prot then .protection else .notPresent) → w.waiters = .unit g u va :: rest →
    (∀ log, RingHasRoom s x log → (∀ y ∈ s.walks, ¬(y.asid = w.asid ∧ y.phase = 2)) →
      ∃ t, exec (.walkComplete w.id) s = .next t ∧ recorded s t x { w with prot := prot } log) ∧
    (s.ringRoom x = .full → ∃ t, exec (.walkComplete w.id) s = .next t ∧ t.mem = s.mem ∧ t.groups = s.groups ∧ { w with prot := prot, phase := 2 } ∈ t.walks)) ∧
  (∀ (s : State) (w : Walk) (x : AddrSpace) (log g u : Nat) (va : Word) (rest : List Waiter), (s.walks.find? fun w => decide (w.asid = x.asid) && decide (w.phase = 2)) = some w →
    s.space? x.asid = some x → RingHasRoom s x log → w.waiters = .unit g u va :: rest →
    ∃ t, exec (.faultRingPoll x.asid) s = .next t ∧ recorded s t x w log)

/-- OP 6 and OP 7 (R389, R396, R398, R435): an invalidation drops the covered translations, takes up the address-space entry as its table holds it, and completes at once, or once every root-port device that holds one has dropped
it; a retry runs a faulted walk again, a failure raises its fault, and an index without a record that waits is refused with reason 5. -/
def Sys2Proof.Stated.TranslationRequests : Prop :=
  (∀ (s : State) (r : Request) (x : AddrSpace), let asid := r.w1.toNat / 2 ^ 16 % 2 ^ 16
    let all := r.w1.getLsbD 0
    let covered := fun (e : TlbEntry) => e.asid = asid ∧ (all = true ∨ (r.w2.toNat / 4096 ≤ e.page ∧ e.page < r.w2.toNat / 4096 + r.w3.toNat / 4096))
    Clean r (field 31 16 ||| 1) (if all then 0 else ~~~0) (if all then 0 else ~~~0) 0 0 0 → s.space? asid = some x → x.asid = asid → x.fn = r.fn →
    (all = false → r.w2.toNat % 4096 = 0 ∧ r.w3.toNat % 4096 = 0) →
    let entry := fun (i : Nat) => BitVec.ofNat 64 (bytesValue (s.homeBytes 0 (s.spaceBase.toNat + 64 * asid + 8 * i) 8))
    let reread := fun (t : State) => t.space? asid = some { x with w0 := entry 0, root := entry 1, ring := entry 2 } ∧ ∀ a, a ≠ asid → t.space? a = s.space? a
    ((∀ p ∈ s.ports, ∀ h ∈ p.held, h.asid ≠ asid) → ∃ s', carriedOut (.invalidate r) s s' r 0 ∧ s' = { s with tlb := s'.tlb, spaces := s'.spaces } ∧ reread s' ∧
      ∀ e, e ∈ s'.tlb ↔ e ∈ s.tlb ∧ ¬covered e) ∧
    (∀ p h, p ∈ s.ports → h ∈ p.held → h.asid = asid → all = true → ∃ t v, exec (.invalidate r) s = .next t ∧ v ∈ t.invals ∧ v.asid = asid ∧ v.request = some r ∧ p.port ∈ v.ports ∧
      (∀ e, e ∈ t.tlb ↔ e ∈ s.tlb ∧ ¬covered e) ∧ reread t ∧ t.mem = s.mem)) ∧
  (∀ (s : State) (p : RootPort) (v : Invalidation), s.port? p.port = some p → (s.invals.find? fun x => decide (x.id = v.id)) = some v → p.port ∈ v.ports →
    let kept := p.held.filter fun h => !(decide (h.asid = v.asid) && (match v.count with
      | none => true
      | some n => decide (v.first ≤ h.page) && decide (h.page < v.first + n)))
    (∀ r, v.ports = [p.port] → v.request = some r →
      carriedOut (.atsInvalidateCompletion p.port v.id) s { s.setPort { p with held := kept } with invals := s.invals.filter fun y => decide (y.id ≠ v.id) } r 0) ∧
    ((∃ n ∈ v.ports, n ≠ p.port) → ∃ t, exec (.atsInvalidateCompletion p.port v.id) s = .next t ∧ t.port? p.port = some { p with held := kept } ∧ t.mem = s.mem ∧
      (t.invals.find? fun x => decide (x.id = v.id)) = some { v with ports := v.ports.filter fun n => decide (n ≠ p.port) })) ∧
  (∀ (s : State) (r : Request) (x : AddrSpace), let asid := r.w1.toNat / 2 ^ 16 % 2 ^ 16
    let index := r.w2.toNat % 2 ^ 30
    let waits := fun (w : Walk) => w.asid = asid ∧ w.phase = 3 ∧ w.index = index
    s.space? asid = some x → x.fn = r.fn →
    (∀ w g u va, Clean r (field 31 16) (field 29 0) 0 0 0 0 → (s.walks.find? fun y => decide (waits y)) = some w → w.waiters = [.unit g u va] →
      carriedOut (.faultReplyRetry r) s (s.setWalk { w with phase := 0 }) r 0) ∧
    (∀ w g u va, Clean r (field 31 16 ||| 1) (field 29 0) 0 0 0 0 → r.w1.getLsbD 0 = true → (s.walks.find? fun y => decide (waits y)) = some w →
      w.waiters = [.unit g.id u.uid va] → w.cls ≤ 2 → Parked s g u →
      ∃ s', carriedOut (.faultReplyFail r) s s' r 0 ∧ (∀ y ∈ s'.walks, y.id ≠ w.id) ∧
        InHandler s s' g { u with wait := .ready } { cause := 14, tval := va, tstat := faultStat w w.prot, tlane := u.unfinished.getD u.mask } false u.pc) ∧
    (Clean r (field 31 16) (field 29 0) 0 0 0 0 → (∀ w ∈ s.walks, ¬waits w) → refusedFor (.faultReplyRetry r) s r [5]) ∧
    (Clean r (field 31 16 ||| 1) (field 29 0) 0 0 0 0 → r.w1.getLsbD 0 = true → (∀ w ∈ s.walks, ¬waits w) → refusedFor (.faultReplyFail r) s r [5]))

/-- Root-port devices (R399): a request is of the address space of its PASID, without one of the port's default; a request without an ASID, or in the windows, is
answered Unsupported Request; a page request outside the canonical range fails, and another walks while the engine's queue has room; a translation request of a
function that may make one returns the frame, which the device then holds, or an answer that there is none. -/
def Sys2Proof.Stated.RootPortRequests : Prop :=
  ∀ (s : State) (p : RootPort) (fn : Nat) (pasid : Option Nat) (cls : Nat) (va : Word), s.port? p.port = some p →
    let asid := match pasid with
      | some n => (p.pasids.find? fun x => decide (x.1 = n)).map (·.2)
      | none => p.default
    let replied := fun (r : PortReply) => s.setPort { p with replies := r.word :: p.replies }
    (asid = none ∨ va.toNat / 2 ^ 56 = 0xFF → exec (.pageRequest p.port pasid va cls) s = .next (replied .unsupported)) ∧
    (∀ a, asid = some a → va.toNat / 2 ^ 56 ≠ 0 → va.toNat / 2 ^ 56 ≠ 0xFF → exec (.pageRequest p.port pasid va cls) s = .next (replied .pageFailed)) ∧
    (∀ a, asid = some a → va.toNat / 2 ^ 56 = 0 → s.walkerFull a (va.toNat / 4096) 0 = false → ∃ t w, exec (.pageRequest p.port pasid va cls) s = .next t ∧
      w ∈ t.walks ∧ w.asid = a ∧ w.page = va.toNat / 4096 ∧ .rootPort p.port ∈ w.waiters ∧ t.mem = s.mem) ∧
    (asid = none ∨ fn ∉ p.ats ∨ va.toNat / 2 ^ 56 = 0xFF → exec (.atsTranslationRequest ⟨p.port, fn⟩ pasid va cls) s = .next (replied .unsupported)) ∧
    (∀ a, asid = some a → fn ∈ p.ats → va.toNat / 2 ^ 56 ≠ 0xFF →
      let found := s.walkNow a va (if cls = 1 then .write else .read) true
      (found = none → exec (.atsTranslationRequest ⟨p.port, fn⟩ pasid va cls) s = .next (replied .noTranslation)) ∧
      ∀ l, found = some l → exec (.atsTranslationRequest ⟨p.port, fn⟩ pasid va cls) s =
        .next ((replied (.translation l.frame l.r l.w)).setPort
          { p with replies := (PortReply.translation l.frame l.r l.w).word :: p.replies,
                   held := { asid := a, page := va.toNat / 4096, frame := l.frame / 4096, key := l.key } :: p.held }))

namespace Sys2Proof.Stated

/-- Clusters in the order in which a creation looks at them (R435): die by die from one on, wrapping after die 7, each die's 32 clusters ascending. -/
def dieOrder (die : Nat) : List Nat := (List.range 8).flatMap fun d => (List.range 32).map fun k => 32 * ((die + d) % 8) + k

/-- The clusters that a creation of n clusters takes: the first n free ones from its preferred die on (R435). A fenced cluster is not free. -/
def takenClusters (s : State) (r : Request) (n : Nat) : List Nat :=
  let die := r.w3.toNat % 256
  ((dieOrder (if die = 255 then 0 else die)).filter fun c => decide ((s.cluster c).partition = none) && !(s.cluster c).fenced).take n

/-- Bandwidth shares of a die in use, in 64ths. -/
def sharesOn (s : State) (die : Nat) : Nat := ((s.partitions.filter fun p => p.clusters.any fun c => decide (c / 32 = die)).map (·.share)).sum

/-- The operands of an OP 1 request in their ranges. -/
structure CreatesPartition (s : State) (r : Request) (n : Nat) (timed : Bool) : Prop where
  clean : Clean r (field 16 0) (if timed then field 13 8 ||| field 4 0 else 0) (field 7 0) 0 0 0
  count : r.w1.toNat % 2 ^ 16 = n ∧ 1 ≤ n ∧ n ≤ 256
  kind : r.w1.getLsbD 16 = timed
  floor : r.w2.toNat % 32 ≤ 28
  die : r.w3.toNat % 256 = 255 ∨ r.w3.toNat % 256 < 8

/-- The partition and the context that a request names are its function's, and stand ready. -/
structure Owns (s : State) (r : Request) (x : Context) (p : Partition) : Prop where
  ctx : s.context? (r.w1.toNat / 2 ^ 16 % 2 ^ 16) = some x ∧ x.fn = r.fn
  part : s.partition? (r.w1.toNat / 2 ^ 32 % 2 ^ 16) = some p ∧ p.fn = r.fn ∧ p.creating = none

/-- Word i of the 64 bytes at a physical address, read without a key. -/
def physWord (s : State) (pa i : Nat) : Word := BitVec.ofNat 64 (bytesValue (s.homeBytes 0 (pa + 8 * i) 8))

/-- A queue's descriptor as R329 lays it out: the word i at its leaf. -/
def descAt (s : State) (l : Leaf) (va : Word) (i : Nat) : Word := BitVec.ofNat 64 (bytesValue (s.homeBytes l.key (leafAddr l va.toNat + 8 * i) 8))

/-- A descriptor that a queue of a partition may have (R329): a ring of 2 to 65,536 records at a 64-byte boundary, TIMED as its partition, reserved bits zero. -/
structure GoodDescriptor (s : State) (l : Leaf) (va : Word) (timed : Bool) : Prop where
  base : (descAt s l va 0).toNat % 64 = 0
  size : 1 ≤ (descAt s l va 1).toNat / 2 ^ 32 % 32 ∧ (descAt s l va 1).toNat / 2 ^ 32 % 32 ≤ 16
  timed : (descAt s l va 1).getLsbD 0 = timed
  reserved : (descAt s l va 1).toNat / 2 % 2 ^ 15 = 0 ∧ (descAt s l va 1).toNat / 2 ^ 37 % 2 ^ 15 = 0 ∧ descAt s l va 7 = 0

end Sys2Proof.Stated

/-! ### Requests to the manager (R430, R435) -/

/-- OP 1 (R401, R435): a creation takes the lowest free clusters from the preferred die on; a bulk partition completes at once with its id, a timed one once all
its clusters have reached FLOOR; fewer free clusters than asked for are refused with reason 3. -/
def Sys2Proof.Stated.PartitionRequests : Prop :=
  ∀ (s : State) (r : Request) (n : Nat) (timed : Bool), CreatesPartition s r n timed →
    let cs := takenClusters s r n
    (cs.length < n → refusedFor (.createPartition r) s r [3]) ∧
    (cs.length = n → (timed = true → ∀ c ∈ cs, r.w2.toNat / 256 % 64 + sharesOn s (c / 32) ≤ 64) → (∀ p ∈ s.partitions, p.creating = none) → s.partitions.length ≤ 256 →
      ∃ s' p, p.fn = r.fn ∧ p.clusters = cs ∧ p.timed = timed ∧ p.floor = r.w2.toNat % 32 ∧ p.share = r.w2.toNat / 256 % 64 ∧ p.admitted = [] ∧
        (∀ x ∈ s.partitions, x.id ≠ p.id) ∧ (∀ c ∈ cs, (s'.cluster c).partition = some p.id) ∧ (∀ c, c ∉ cs → s'.cluster c = s.cluster c) ∧
        s' = { s with clusters := s'.clusters, partitions := s.partitions ++ [p], bellows := s'.bellows, draws := s'.draws } ∧
        (timed = false ∨ (∀ c ∈ cs, p.floor ≤ (s.cluster c).step) → p.creating = none ∧ carriedOut (.createPartition r) s s' r p.id) ∧
        (timed = true ∧ (∃ c ∈ cs, (s.cluster c).step < p.floor) → p.creating = some r ∧ exec (.createPartition r) s = .next s'))

/-- OP 2 (R389, R435): a context is created with its address space from the image of 64 bytes, which its entry of the table then holds, in the partition named; an ASID in use is refused with reason 5;
a destroyed context leaves no translation, page, model or cached line, and one that has queues is not destroyed. -/
def Sys2Proof.Stated.ContextRequests : Prop :=
  ∀ (s : State) (r : Request), let asid := r.w1.toNat / 2 ^ 16 % 2 ^ 16
    (∀ p, Clean r (field 47 16) (~~~0) 0 0 0 0 → s.partition? (r.w1.toNat / 2 ^ 32 % 2 ^ 16) = some p → p.fn = r.fn → p.creating = none → s.readableAt r.w2.toNat 64 = true →
      (s.context? asid = none → ∃ s' c, carriedOut (.createContext r) s s' r 0 ∧ s'.context? asid = some c ∧ c.asid = asid ∧ c.fn = r.fn ∧
        c.partition = r.w1.toNat / 2 ^ 32 % 2 ^ 16 ∧ c.tvec = none ∧ c.shapes = [] ∧ c.tensors = [] ∧ c.kernels = [] ∧ c.images = 0 ∧
        (let entry := s.spaceBase.toNat + 64 * asid
         entry % 64 = 0 → entry + 64 ≤ 2 ^ 41 → s.epoch 0 ≠ 0 → s'.homeBytes 0 entry 64 = s.homeBytes 0 r.w2.toNat 64 ∧
           s'.space? asid = some { asid := asid, fn := r.fn, w0 := physWord s r.w2.toNat 0, root := physWord s r.w2.toNat 1, ring := physWord s r.w2.toNat 2, nextIndex := 0 }) ∧
        s'.groups = s.groups ∧ s'.queues.map unmarked = s.queues.map unmarked ∧ s'.partitions = s.partitions ∧
        ∀ a, a ≠ asid → s'.context? a = s.context? a ∧ s'.space? a = s.space? a) ∧
      (∀ x, s.context? asid = some x → x.fn = r.fn → refusedFor (.createContext r) s r [5])) ∧
    (∀ x, Clean r (field 47 16 ||| 1) 0 0 0 0 0 → r.w1.getLsbD 0 = true → s.context? asid = some x → x.fn = r.fn →
      ((∀ q ∈ s.queues, q.asid ≠ asid) → ∃ s', carriedOut (.destroyContext r) s s' r 0 ∧ s'.context? asid = none ∧ s'.space? asid = none ∧
        (∀ e ∈ s'.tlb, e.asid ≠ asid) ∧ (∀ e ∈ s'.mapped, e.asid ≠ asid) ∧ (∀ m ∈ s'.models, m.asid ≠ asid) ∧ (∀ w ∈ s'.walks, w.asid ≠ asid) ∧
        (∀ y ∈ s'.cache, y.asid ≠ asid) ∧ (∀ a, a ≠ asid → s'.context? a = s.context? a ∧ s'.space? a = s.space? a) ∧
        s'.queues.map unmarked = s.queues.map unmarked ∧ s'.groups = s.groups ∧ s'.partitions = s.partitions) ∧
      ((∃ q ∈ s.queues, q.asid = asid) → refusedFor (.destroyContext r) s r [5]))

/-- OP 3 (R329, R337, R435): a bulk queue is created unmapped from its descriptor, which then holds STATE 0 and ERR 0; a queue without records in flight, draining
or reset is destroyed; another is refused with reason 5. -/
def Sys2Proof.Stated.QueueRequests : Prop :=
  ∀ (s : State) (r : Request),
    (∀ x p l, let qid := (descAt s l r.w2 1).toNat / 2 ^ 16 % 2 ^ 16
      Clean r (field 47 16) (~~~0) (field 39 0) 0 0 0 → Owns s r x p → x.partition = p.id → p.id = r.w1.toNat / 2 ^ 32 % 2 ^ 16 → r.w2.toNat % 64 = 0 →
      s.walkNow x.asid r.w2 .write true = some l → x.asid = r.w1.toNat / 2 ^ 16 % 2 ^ 16 → l.ord ≤ 1 → GoodDescriptor s l r.w2 p.timed →
      (p.timed = false → s.queue? qid = none → ∃ s' q, carriedOut (.createQueue r) s s' r qid ∧ s'.queue? qid = some q ∧ q.qid = qid ∧ q.fn = r.fn ∧
        q.asid = x.asid ∧ q.partition = p.id ∧ q.state = 0 ∧ q.err = 0 ∧ q.thread = none ∧ q.records = [] ∧ q.fetchedCount = (descAt s l r.w2 3).toNat ∧
        q.gen = (descAt s l r.w2 5).setWidth 32 ∧ q.descVa = r.w2 ∧ q.pid = r.w3.setWidth 24 ∧ q.tid = (r.w3 >>> 24).setWidth 16 ∧
        s' = (s.setQueue q).storeHome l.key (leafAddr l r.w2.toNat + 8) (valueBytes 8 (descAt s l r.w2 1 &&& 0x000FFFFFFFFFFFFF).toNat) ∧
        ∀ i, i ≠ qid → (s'.queue? i).map unmarked = (s.queue? i).map unmarked) ∧
      (∀ q, p.timed = false → s.queue? qid = some q → refusedFor (.createQueue r) s r [5])) ∧
    (∀ q, Clean r (field 63 16 ||| 1) (~~~0) (field 39 0) 0 0 0 → r.w1.getLsbD 0 = true → s.queue? (r.w1.toNat / 2 ^ 48) = some q → q.qid = r.w1.toNat / 2 ^ 48 → q.fn = r.fn →
      q.asid = r.w1.toNat / 2 ^ 16 % 2 ^ 16 → q.partition = r.w1.toNat / 2 ^ 32 % 2 ^ 16 →
      (q.records = [] ∧ q.state ≠ 3 ∧ q.state ≠ 5 →
        carriedOut (.destroyQueue r) s { s with queues := s.queues.filter fun y => decide (y.qid ≠ q.qid) } r 0) ∧
      (q.records ≠ [] ∨ q.state = 3 ∨ q.state = 5 → refusedFor (.destroyQueue r) s r [5]))

/-- OP 4 (R374, R375): an image that fails its structure, its hallmark or its assay is refused with reason 6, its status word holds the code of the first check
that fails, the persistent log keeps the code and the digest, and the context is as before; an image that passes and whose sections find room is mapped, and the first one
gives the context its trap vector. -/
def Sys2Proof.Stated.ImageLoads : Prop :=
  ∀ (s : State) (r : Request) (x : Context) (p : Partition), let bs := s.homeBytes 0 r.w2.toNat r.w3.toNat
    let ws := bytesWords (bs.length / 8) bs
    Clean r (field 31 16) (~~~0) (~~~0) 0 0 (~~~0) → s.context? (r.w1.toNat / 2 ^ 16 % 2 ^ 16) = some x → x.asid = r.w1.toNat / 2 ^ 16 % 2 ^ 16 → x.fn = r.fn →
    s.partition? x.partition = some p → s.readableAt r.w2.toNat r.w3.toNat = true →
    let refusal := fun (code sect : Nat) => exec (.loadImage r) s = .next (((s.logged (.refusedImage code ((sha384 bs).take 8))).writeSlot r 6
      (BitVec.ofNat 64 (code * 2 ^ 56 + sect * 2 ^ 32))).finish r 6 0)
    (∀ sect, structureFault ws bs.length = some sect → refusal 1 sect) ∧
    (∀ code, structureFault ws bs.length = none → s.hallmarkFault bs = some code → refusal code 0xFFFF) ∧
    (∀ code, structureFault ws bs.length = none → s.hallmarkFault bs = none → s.assay x ws bs = some code → refusal code 0xFFFF) ∧
    (structureFault ws bs.length = none → s.hallmarkFault bs = none → s.assay x ws bs = none →
      ∃ (t : State) (code sect index : Nat), exec (.loadImage r) s = .next ((t.writeSlot r 6 (loadStatus code sect index)).finish r (if code = 0 then 0 else 6) 0) ∧
        code ∈ [0, 8, 9, 10, 11] ∧ (code ≠ 0 → t.context? x.asid = s.context? x.asid ∧ t.mapped = s.mapped ∧ t.mem = s.mem) ∧
        (code = 0 → ∃ y : Context, t.context? x.asid = some y ∧ y.images = x.images + 1 ∧ y.partition = x.partition ∧
          (0 < x.images → y.tvec = x.tvec ∧ y.rtver = x.rtver) ∧
          (x.images = 0 → y.rtver = (wordAt ws 6).toNat % 2 ^ 32 ∧ ∃ base, y.tvec = some (BitVec.ofNat 64 base + wordAt ws 5))))

/-- OP 5 and OP 10 (R320, R417, R435): a model context whose table, residency words and pool are as R435 asks is registered with its layers not resident;
a STOPALL request sets or clears the flag of a PID. -/
def Sys2Proof.Stated.ModelAndDebugRequests : Prop :=
  ∀ (s : State) (r : Request),
    (∀ (x : Context) (bs : List Byte) (ls : List Layer), let n := r.w1.toNat / 2 ^ 32 % 2 ^ 16
      let asid := r.w1.toNat / 2 ^ 16 % 2 ^ 16
      let pages := r.w6.toNat % 2 ^ 32
      let nvme := r.w6.toNat / 2 ^ 32 % 2 ^ 16
      let entries := (List.range n).map fun i => (bytesWords 8 ((bs.drop (64 * i)).take 64), i)
      Clean r (field 55 16) (~~~0) (~~~0) (~~~0) (~~~0) (field 47 0) → s.context? asid = some x → x.fn = r.fn → 1 ≤ n → n ≤ 4096 → r.w3.toNat % 8 = 0 →
      r.w5.toNat % 4096 = 0 → r.w5.toNat + 4096 * pages ≤ 2 ^ 41 → nvme ≤ 255 → (r.w4 = 0 ∨ s.readableAt r.w4.toNat (64 * nvme) = true) →
      s.readRange asid r.w2 (64 * n) = some bs → s.tableLayers asid r.w3 entries = some ls → (∀ e ∈ entries, layerEntryOk e.1 nvme = true) → weightsApart ls = true →
      ∃ s' m, carriedOut (.registerModelContext r) s s' r 0 ∧ m ∈ s'.models ∧ m.asid = asid ∧ m.lookahead = r.w1.toNat / 2 ^ 48 % 16 ∧ m.pri = r.w1.toNat / 2 ^ 52 % 16 ∧
        m.layers.length = n ∧ m.nvmeTable = r.w4.toNat ∧ m.nvmeEntries = nvme ∧ m.fetching = none ∧ s'.groups = s.groups ∧ s'.contexts = s.contexts ∧
        s'.queues.map unmarked = s.queues.map unmarked) ∧
    (Clean r (field 32 32 ||| field 23 0) 0 0 0 0 0 →
      ∃ s', carriedOut (.setStopall r) s s' r 0 ∧ s' = { s with stopall := s'.stopall } ∧ (r.w1.setWidth 24 ∈ s'.stopall ↔ r.w1.getLsbD 32 = true) ∧
        ∀ p : BitVec 24, p ≠ r.w1.setWidth 24 → (p ∈ s'.stopall ↔ p ∈ s.stopall))

/-- OP 8 (R197, R207, R363, R435): a pre-emption reaches every running grid of the record, with its tag; a restore lets a waiting restore record, or one not yet fetched, go on
with its tag; where there is no such grid or record the request is refused with reason 5. -/
def Sys2Proof.Stated.GridRequests : Prop :=
  ∀ (s : State) (r : Request) (q : Queue), let pos := r.w2.toNat
    let running := s.grids.filter fun k => decide (k.qid = q.qid) && decide (k.pos = pos) && !k.ended && !k.preempted
    r.w0.toNat % 2 ^ 56 = 0 → s.queue? (r.w1.toNat / 2 ^ 48) = some q → q.fn = r.fn →
    (Clean r (field 63 48) (~~~0) (~~~0) 0 0 0 →
      (running ≠ [] → ∃ s', carriedOut (.preemptGrid r) s s' r 0 ∧ s' = { s with due := s'.due } ∧ (∀ e ∈ s.due, e ∈ s'.due) ∧
        ∀ k ∈ running, .preemptionRequest k.id r.w3 ∈ s'.due) ∧
      (running = [] → refusedFor (.preemptGrid r) s r [5])) ∧
    (Clean r (field 63 48 ||| 1) (~~~0) (~~~0) 0 0 0 → r.w1.getLsbD 0 = true →
      (∀ f, (q.records.find? fun y => decide (y.pos = pos)) = some f → f.status = none → f.kept = true →
        carriedOut (.restoreGrid r) s (s.setQueue (q.setRecord { f with kept := false })) r 0) ∧
      ((∃ f, (q.records.find? fun y => decide (y.pos = pos)) = some f ∧ f.status = none ∧ f.kept = false ∧ (wordAt f.record 0).getLsbD 57 = true ∧ f.depMet = false) ∨
          ((∀ f ∈ q.records, f.pos ≠ pos) ∧ q.fetchedCount ≤ pos) →
        (∀ y ∈ q.restores, y.1 ≠ pos) → carriedOut (.restoreGrid r) s (s.setQueue { q with restores := q.restores ++ [(pos, r.w3)] }) r 0) ∧
      ((∀ f ∈ q.records, f.pos ≠ pos) → pos < q.fetchedCount → refusedFor (.restoreGrid r) s r [5]))

namespace Sys2Proof.Stated

/-- A rung that runs for a request (R350). -/
def runsFor (t : State) (rung : Rung) (r : Request) : Prop := ∃ run ∈ t.rungs, run.rung = rung ∧ r ∈ run.requests

/-- No block that a grid still has stands on a core. -/
def NoBlockOn (t : State) (core : Nat) : Prop := ∀ k ∈ t.grids, ∀ b ∈ t.blocks, b.grid = k.id → b.state ≠ .spent → b.core ≠ core

/-- What a covered record is after its rung (R351): pushed again when it says RST, else complete with STATUS 3; another record is as before. -/
def settled (f g : Fetched) : Prop :=
  if f.hit = true ∧ f.status = none then
    (if (wordAt f.record 0).getLsbD 58 = true then g = { f with hit := false, pushed := false, kept := false, holder := none, watchdog := 0 }
     else g = { f with status := some 3 })
  else g = f

end Sys2Proof.Stated

/-! ### The reset ladder (R24 to R26, R350 to R353, R427) -/

/-- OP 9 (R24, R350, R351): with no rung running, a reset request starts its rung. The queue rung takes its queue to STATE 5 and its next generation and ends its
grids; an engine rung ends none; the partition and die rungs leave cores at their reset values and end what ran there; a die rung loses that die's HBM; a
function-level reset takes every queue of its function to STATE 5. -/
def Sys2Proof.Stated.ResetRungs : Prop :=
  ∀ (s : State) (r : Request) (pos : Nat), r.slot = some pos → s.rungs = [] → let target := r.w2.toNat
    (∀ q, Clean r 0 (field 15 0) 0 0 0 0 → s.queue? target = some q → q.fn = r.fn → (s.queues.filter fun y => decide (y.qid = q.qid)) = [q] → q.qid = target →
      ∃ t q', exec (.resetQueue r) s = .next t ∧ runsFor t (.queue target) r ∧ t.queue? target = some q' ∧ q'.state = 5 ∧ q'.err = 0 ∧ q'.gen = q.gen + 1 ∧
        q'.records.map (·.pos) = q.records.map (·.pos) ∧ (∀ k ∈ t.grids, k.qid ≠ target)) ∧
    (Clean r 1 (field 17 0) 0 0 0 0 → r.w1 = 1 →
      ∃ t, exec (.resetEngine r) s = .next t ∧ runsFor t (.engine target) r ∧ t.groups = s.groups ∧ t.grids = s.grids ∧ t.blocks = s.blocks ∧
        (target / 8 % 4 ≠ 2 → t.mem = s.mem) ∧
        (∀ core task, target / 8 % 4 = 0 → core = 16 * (32 * (target % 8) + target / 32 % 32) + target / 2048 % 16 → (s.core core).engines[target / 1024 % 2]? = some (some task) →
          task ∈ (t.core core).tasks ∧ (t.core core).engines[target / 1024 % 2]? = some none)) ∧
    (∀ p, Clean r 2 (~~~0) 0 0 0 0 → r.w1 = 2 → s.partition? target = some p → p.fn = r.fn →
      ∃ t, exec (.resetPartition r) s = .next t ∧ runsFor t (.partition target) r ∧
        ∀ cl k, cl ∈ p.clusters → k < 16 → t.core (16 * cl + k) = { coreReset (16 * cl + k) with fenced := (s.core (16 * cl + k)).fenced } ∧ NoBlockOn t (16 * cl + k)) ∧
    (Clean r 3 (~~~0) 0 0 0 0 → r.w1 = 3 → r.fn = 0 → target < 8 →
      ∃ t, exec (.resetDie r) s = .next t ∧ runsFor t (.die target) r ∧ (∀ c ∈ t.mem, c.1 / 2 ^ 38 ≠ target) ∧ (∀ e ∈ t.predictors, e.die ≠ target) ∧
        ∀ k, k < 512 → t.core (512 * target + k) = { coreReset (512 * target + k) with fenced := (s.core (512 * target + k)).fenced } ∧ NoBlockOn t (512 * target + k)) ∧
    (Clean r 4 (~~~0) 0 0 0 0 → r.w1 = 4 → target ≤ 64 → (r.fn = 0 ∨ r.fn = target) → (s.queues.map (·.qid)).Nodup →
      ∃ t, exec (.functionLevelReset r) s = .next t ∧ runsFor t (.function target) r ∧ (t.func target).flr = true ∧ (∀ q ∈ t.queues, q.fn = target → q.state = 5) ∧
        ∀ k ∈ t.grids, ∀ q, s.queue? k.qid = some q → q.fn ≠ target)

/-- The end of a rung (R337, R350, R351): its requests complete, copy engines that were reset have checked their firmware slot (R377), and a queue that no other rung covers is busy again, its covered
records pushed again where they say RST and else complete with STATUS 3. -/
def Sys2Proof.Stated.RungEnds : Prop :=
  ∀ (s : State) (run : RungRun), (s.rungs.find? fun r => decide (r.id = run.id)) = some run →
    (run.queues = [] → run.requests = [] → (∃ d p, run.rung = .fence (.page d) ∨ run.rung = .fence (.core p)) →
      exec (.rungComplete run.id) s = .next { s with rungs := s.rungs.filter fun r => decide (r.id ≠ run.id) }) ∧
    (run.queues = [] → run.requests = [] → (∃ p, run.rung = .partition p ∨ run.rung = .fence (.cluster p)) →
      ∃ t, exec (.rungComplete run.id) s = .next t ∧ t = { s with rungs := s.rungs.filter fun r => decide (r.id ≠ run.id), slots := t.slots, log := t.log } ∧
        ∃ ok, (3, ok) ∈ t.slots ∧ (ok = false → .slotFailed 3 ∈ t.log)) ∧
    (∀ q r pos, run.rung = .queue q.qid → run.queues = [q.qid] → run.requests = [r] → r.slot = some pos → s.queue? q.qid = some q → q.state = 5 →
      (∀ x ∈ s.rungs, x.id ≠ run.id → q.qid ∉ x.queues) → (s.queues.filter fun y => decide (y.qid = q.qid)) = [q] →
      ∃ t q', exec (.rungComplete run.id) s = .next t ∧ (∀ x ∈ t.rungs, x.id ≠ run.id) ∧ t.queue? q.qid = some q' ∧ q'.state = 2 ∧ q'.gen = q.gen ∧
        q'.records.length = q.records.length ∧ (∀ (i : Nat) f g, q.records[i]? = some f → q'.records[i]? = some g → settled f g) ∧ (t.func r.fn).rqridx = BitVec.ofNat 64 (pos + 1))

/-- Containment (R26, R353): a poisoned page or channel is logged and stays poisoned; a core or cluster is fenced, once, takes no block, and its grids end as by a rung. -/
def Sys2Proof.Stated.Containment : Prop :=
  ∀ (s : State),
    (∀ u, (∃ n, u = .page n ∨ u = .channel n) → ∃ t, exec (.containment u) s = .next t ∧ u ∈ t.poison ∧ (∀ x ∈ s.poison, x ∈ t.poison) ∧
      t = { s.logged (.contained u) with poison := t.poison }) ∧
    (∀ c, (s.core c).fenced = true → exec (.containment (.core c)) s = .next (s.logged (.contained (.core c)))) ∧
    (∀ cl, (s.cluster cl).fenced = true → exec (.containment (.cluster cl)) s = .next (s.logged (.contained (.cluster cl)))) ∧
    (∀ c, (s.core c).fenced = false → s.rungs = [] → ∃ t, exec (.containment (.core c)) s = .next t ∧ (t.core c).fenced = true ∧ NoBlockOn t c ∧
      .contained (.core c) ∈ t.log) ∧
    (∀ cl, (s.cluster cl).fenced = false → s.rungs = [] → ∃ t, exec (.containment (.cluster cl)) s = .next t ∧ (t.cluster cl).fenced = true ∧
      (∀ k, k < 16 → NoBlockOn t (16 * cl + k)) ∧ (t.cluster cl).pool = [] ∧ .contained (.cluster cl) ∈ t.log)

/-- Power-on (R25, R427): work, contexts, queues and keys are gone, the log, the key store and the memory of the host stay; the boot stages run in order, and a boot that completes
leaves HBM with nothing known, key slot 0 alone loaded, 32 harts, 12 link ports and 8 root ports. A whole-device reset is a power-on; its request never completes in a ring.
What the rules leave open here is the model's own choice or reading: log entries 4 and 128. -/
def Obligations.PowerOn : Prop :=
  let off := fun (s t : State) => t.groups = [] ∧ t.blocks = [] ∧ t.grids = [] ∧ t.queues = [] ∧ t.partitions = [] ∧ t.contexts = [] ∧ t.spaces = [] ∧ t.tlb = [] ∧
    t.cache = [] ∧ t.rungs = [] ∧ t.keys = s.keys ∧ t.boot ≤ 6 ∧ (∀ e ∈ s.log, e ∈ t.log) ∧ (∀ c ∈ t.mem, isHbm c.1 = false) ∧
    (∀ c ∈ s.mem, isHbm c.1 = false → c ∈ t.mem) ∧
    (t.boot = 6 → t.keySlots.map (·.1) = [0] ∧ t.harts.map (·.num) = List.range 32 ∧ t.links.map (·.port) = List.range 12 ∧ t.ports.map (·.port) = List.range 8 ∧ t.tsr = 0)
  (∀ s : State, ∃ t, exec .boot s = .next t ∧ off s t) ∧
  (∀ (s : State) (r : Request), Clean r 5 0 0 0 0 0 → r.w1 = 5 → r.fn = 0 → ∃ t, exec (.wholeDeviceReset r) s = .next t ∧ off s t ∧ exec (.wholeDeviceReset r) s = exec .boot s)

/-! ### Registers, keys and what stands outside (R273, R274, R276, R373, R400, R402, R411, R414, R433, R437, R438) -/

/-- Writes of a function's registers (R433): the doorbell gives RQWIDX; RQCFG keeps LOG2 while EN is 1, and EN with LOG2 0 or above 16 sets ERR and stops the ring;
a 1 written to ERR of FNSTAT clears it. -/
def Sys2Proof.Stated.FunctionRegisters : Prop :=
  ∀ (s : State) (fn : Nat) (v : Word), fn ≤ 64 → let f := s.func fn
    exec (.rqwidxDoorbell fn v) s = .next (s.setFunc { f with rqwidx := v }) ∧
    exec (.fnstatWrite fn v) s = .next (s.setFunc { f with err := f.err && !v.getLsbD 2 }) ∧
    (f.en = true → exec (.rqcfgWrite fn v) s = .next (s.setFunc { f with en := v.getLsbD 5, blocked := f.blocked && v.getLsbD 5 })) ∧
    (f.en = false → let bad := v.getLsbD 5 = true ∧ (v.toNat % 32 = 0 ∨ 16 < v.toNat % 32)
      exec (.rqcfgWrite fn v) s = .next (s.setFunc { f with en := v.getLsbD 5, log2 := v.toNat % 32, err := f.err || decide bad, blocked := decide bad })) ∧
    (f.en = false → exec (.registerWrite (.rqbase fn) v) s = .next (s.setFunc { f with rqbase := v &&& ~~~63 })) ∧
    (f.en = true → exec (.registerWrite (.rqbase fn) v) s = .next s)

/-- Writes of power and debug registers (R402, R411, R414): DROOPTH and PAIRLIM of a cluster, without effect on one of a timed partition; FBCAP; the bases
of a core's rings, which must be aligned; comparators, which keep their value when a reserved bit is written; read-only registers keep theirs. -/
def Sys2Proof.Stated.PowerAndDebugRegisters : Prop :=
  ∀ (s : State) (v : Word),
    (∀ cl, cl < 256 → s.timedPartition cl = none →
      exec (.registerWrite (.droopth cl) v) s = .next (s.setCluster { s.cluster cl with droopth := v.toNat % 256 }) ∧
      exec (.registerWrite (.pairlim cl) v) s = .next (s.setCluster { s.cluster cl with pairlim := v.toNat % 1024 })) ∧
    (∀ cl, cl < 256 → s.timedPartition cl ≠ none → exec (.registerWrite (.droopth cl) v) s = .next s ∧ exec (.registerWrite (.pairlim cl) v) s = .next s) ∧
    exec (.registerWrite .fbcap v) s = .next { s with caps := { s.caps with fbcap := v.toNat % 65536 } } ∧
    (∀ n, exec (.registerWrite (.cfreq n) v) s = .next s ∧ exec (.registerWrite (.crec n) v) s = .next s ∧ exec (.registerWrite (.rqridx n) v) s = .next s ∧
      exec (.registerWrite (.fnid n) v) s = .next s) ∧
    ∀ c, c < 4096 →
      (v.toNat % 4096 = 0 → exec (.registerWrite (.trbase c) v) s = .next (s.setCore { s.core c with trbase := v }) ∧
        exec (.registerWrite (.smpbase c) v) s = .next (s.setCore { s.core c with smpbase := v })) ∧
      ∀ n, n < 8 →
        (v.toNat / 2 ^ 57 % 32 = 0 ∧ v.toNat % 4 = 0 →
          exec (.registerWrite (.bpcWord0 c n) v) s = .next (s.setCore { s.core c with bpc0 := (s.core c).bpc0.setIfInBounds n v })) ∧
        (v.toNat / 2 ^ 32 % 65536 = 0 →
          exec (.registerWrite (.bpcWord1 c n) v) s = .next (s.setCore { s.core c with bpc1 := (s.core c).bpc1.setIfInBounds n v })) ∧
        (¬(v.toNat / 2 ^ 57 % 32 = 0 ∧ v.toNat % 4 = 0) → exec (.registerWrite (.bpcWord0 c n) v) s = .next (s.setCore (s.core c)))

/-- Key slots (R400) and provisioning (R373): a load gives a slot a key of its own, an erase empties it; a message that key 0 has signed writes its slot, a revocation and a
floor only ever rise, and another message has no effect. -/
def Sys2Proof.Stated.Keys : Prop :=
  (∀ (s : State) (slot : Nat) (erase : Bool), slot < 512 → ∃ t, exec (.keySlotLoad slot erase) s = .next t ∧ t = { s with keySlots := t.keySlots, ids := t.ids } ∧
    (∀ n, n ≠ slot → ∀ e, (n, e) ∈ t.keySlots ↔ (n, e) ∈ s.keySlots) ∧ (erase = true → ∀ e, (slot, e) ∉ t.keySlots) ∧
    (erase = false → ∃ e, (slot, e) ∈ t.keySlots ∧ ∀ e', (slot, e') ∈ t.keySlots → e' = e)) ∧
  (∀ (s : State) (m : ProvisionMsg) (k0 : PubKey), s.key? 0 = some k0 →
    let valid := 1 ≤ actionKey m.action ∧ actionKey m.action ≤ 15 ∧ ecdsaOk k0.x k0.y m.bytes m.sigR m.sigS = true
    (¬valid → exec (.provisioningMessage m) s = .next s) ∧
    (valid → ∃ t, exec (.provisioningMessage m) s = .next t ∧ t = { s with keys := t.keys } ∧
      (∀ id x y, m.action = .setKey id x y → ∃ k, t.key? id = some k ∧ k.x = x ∧ k.y = y ∧ ((s.key? id).map (·.revoked) = some true → k.revoked = true)) ∧
      (∀ id k, m.action = .revoke id → s.key? id = some k → t.key? id = some { k with revoked := true }) ∧
      (∀ id f k, m.action = .setFirmwareFlag id f → s.key? id = some k → t.key? id = some { k with firmware := f }) ∧
      (∀ id n k, m.action = .raiseFloor id n → s.key? id = some k → t.key? id = some { k with floor := max k.floor n })))

/-! ### Accesses from outside (R273, R274, R276, R399, R437, R438) -/

/-- Writes and reads of the host and of peers (R238, R239, R274, R276, R428): a posted write stores its sectors in ascending order, one piece for each sector, each at its home; a read
returns the bytes of the homes; a peer's atomic returns the old value, and a failed compare writes nothing; a device's request without a root port, or of an ASID that has no leaf for it, changes no memory. -/
def Sys2Proof.Stated.OutsideAccesses : Prop :=
  (∀ (s : State) (addr : Nat) (data : List Byte) (relaxed : Bool), data ≠ [] → physOk addr = true → addr % 32 + data.length ≤ 32 →
    exec (.hostPostedWrite .host addr data relaxed) s = .next (s.storeHome 0 addr data)) ∧
  (∀ (s : State) (addr : Nat) (first rest : List Byte) (relaxed : Bool), rest ≠ [] → first ≠ [] → addr % 32 + first.length = 32 →
    (∀ i, i < first.length + rest.length → physOk (addr + i) = true) →
    exec (.hostPostedWrite .host addr (first ++ rest) relaxed) s = exec (.hostPostedWrite .host (addr + first.length) rest relaxed) (s.storeHome 0 addr first)) ∧
  (∀ (s : State) (addr n : Nat), 1 ≤ n → addr % 32 + n ≤ 32 → physOk addr = true → (s.poisoned addr).isNone →
    exec (.hostRead .host addr n) s = .next { s with replies := (addr, s.homeBytes 0 addr n) :: s.replies }) ∧
  (∀ (s : State) (addr n : Nat), 1 ≤ n → physOk addr = true → addr % 32 + n ≤ 32 → (s.poisoned addr).isSome →
    exec (.hostRead .host addr n) s = .next { s with replies := (addr, []) :: s.replies }) ∧
  (∀ (s : State) (p : RootPort) (fn : Nat) (pasid : Option Nat) (addr : Nat) (data : List Byte) (relaxed : Bool), s.port? p.port = some p → data ≠ [] → addr % 32 + data.length ≤ 32 →
    let asid := match pasid with
      | some n => (p.pasids.find? fun x => decide (x.1 = n)).map (·.2)
      | none => p.default
    (asid = none → exec (.hostPostedWrite (.device p.port fn pasid false) addr data relaxed) s =
      .next (s.setPort { p with replies := PortReply.unsupported.word :: p.replies })) ∧
    (∀ a l, asid = some a → addr < 2 ^ 56 → s.walkNow a (BitVec.ofNat 64 addr) .write true = some l →
      exec (.hostPostedWrite (.device p.port fn pasid false) addr data relaxed) s = .next (s.storeHome l.key (leafAddr l addr) data)) ∧
    (∀ a, asid = some a → addr < 2 ^ 56 → s.walkNow a (BitVec.ofNat 64 addr) .write true = none →
      ∃ t, exec (.hostPostedWrite (.device p.port fn pasid false) addr data relaxed) s = .next t ∧ t.mem = s.mem ∧
        (t.port? p.port).map (·.replies) = some (PortReply.abort.word :: p.replies))) ∧
  (∀ (s : State) (l : LinkPort) (addr n : Nat), s.link? l.port = some l → l.down = false →
    (∀ data : List Byte, data ≠ [] → addr % 32 + data.length ≤ 32 → addr + data.length ≤ 2 ^ 41 →
      exec (.peerAccess l.port addr data.length (.write data)) s = .next (s.storeHome 0 addr data)) ∧
    (1 ≤ n → addr % 32 + n ≤ 32 → addr + n ≤ 2 ^ 41 → (s.poisoned addr).isNone →
      exec (.peerAccess l.port addr n .read) s = .next { s with replies := (addr, s.homeBytes 0 addr n) :: s.replies }) ∧
    (∀ v x, (n = 4 ∨ n = 8) → addr % n = 0 → addr + n ≤ 2 ^ 41 → (s.poisoned addr).isNone →
      let old := bytesValue (s.homeBytes 0 addr n)
      let replied := fun (s' : State) => { s' with replies := (addr, s.homeBytes 0 addr n) :: s.replies }
      exec (.peerAccess l.port addr n (.rmw .add v)) s = .next (replied (s.storeHome 0 addr (valueBytes n ((old + v.toNat) % 2 ^ (8 * n))))) ∧
      exec (.peerAccess l.port addr n (.rmw .swap v)) s = .next (replied (s.storeHome 0 addr (valueBytes n (v.toNat % 2 ^ (8 * n))))) ∧
      (old = x.toNat % 2 ^ (8 * n) → exec (.peerAccess l.port addr n (.cas x v)) s =
        .next (replied (s.storeHome 0 addr (valueBytes n (v.toNat % 2 ^ (8 * n)))))) ∧
      (old ≠ x.toNat % 2 ^ (8 * n) → exec (.peerAccess l.port addr n (.cas x v)) s = .next (replied s))))

/-- Link ports (R276, R437, R438): every flit that arrives is acknowledged, and only the expected one advances the sequence; a timeout replays a flit, and a port goes down only
after 8 replays of one; a down port trains again and starts afresh. -/
def Sys2Proof.Stated.LinkPorts : Prop :=
  ∀ (s : State) (l : LinkPort), s.link? l.port = some l →
    (∀ seq, l.down = false → exec (.flitReceive l.port seq) s = .next (s.setLink { l with acked := seq :: l.acked, expect := if seq = l.expect then l.expect + 1 else l.expect })) ∧
    (l.down = false → ∃ t l', exec (.flitReplayTimeout l.port) s = .next t ∧ t = { s.setLink l' with draws := t.draws } ∧
      ((l' = { l with replays := 1 }) ∨ (1 ≤ l.replays ∧ l.replays < 8 ∧ l' = { l with replays := l.replays + 1 }) ∨ (8 ≤ l.replays ∧ l' = { l with down := true, replays := 0 }))) ∧
    (l.down = true → exec (.linkPortRetrain l.port) s = .next (s.setLink { port := l.port, down := false, expect := 0, unacked := [], replays := 0, acked := [] }))

/-- System cores (R259 to R262, R273): a store to module HBM on an RC or UN page stays in the hart's own caches, other accesses reach the homes; a load finds what the hart's caches
hold, else the home; a FENCE of R and W on both sides leaves its caches empty, their dirty bytes written back; an AMO is performed at the home; an LR reserves the bytes that it reads there, and an SC stores
only under its reservation and says whether it did; satp names the address space (R389); an access that its page does not allow changes nothing. -/
def Sys2Proof.Stated.SystemCores : Prop :=
  ∀ (s : State) (h : Hart), s.hart? h.num = some h → h.halted = false →
    let s1 := ((s.hartDrift h).1).setHart (s.hartDrift h).2
    let h1 := (s.hartDrift h).2
    (∀ va n l, 1 ≤ n → n ≤ 8 → va.toNat % 32 + n ≤ 32 → s1.walkNow h1.asid va .read true = some l → (s1.poisoned (leafAddr l va.toNat)).isNone →
      let pa := leafAddr l va.toNat
      ∃ t h', exec (.systemCoreAccess h.num (.load va n)) s = .next t ∧ t.hart? h.num = some h' ∧ t.mem = s1.mem ∧
        (isHbm l.frame = false ∨ l.ord = 0 → h'.lastLoad = BitVec.ofNat 64 (bytesValue (s1.homeBytes l.key pa n)) ∧ h'.cache = h1.cache) ∧
        (isHbm l.frame = true → l.ord ≠ 0 → ∃ x ∈ h'.cache, x.sector = pa / 32 ∧
          ((h1.cache.find? fun y => decide (y.sector = pa / 32)) = some x ∨
            ((∀ y ∈ h1.cache, y.sector ≠ pa / 32) ∧ x = { sector := pa / 32, key := l.key, data := s1.homeSector l.key pa, dirty := 0 })) ∧
          h'.lastLoad = BitVec.ofNat 64 (bytesValue ((List.range n).map fun i => sectorByte x.data (pa % 32 + i))))) ∧
    (∀ va (data : List Byte) l, data ≠ [] → va.toNat % 32 + data.length ≤ 32 → s1.walkNow h1.asid va .write true = some l →
      let pa := leafAddr l va.toNat
      (isHbm l.frame = false ∨ l.ord = 0 → exec (.systemCoreAccess h.num (.store va data)) s = .next ((s1.storeHome l.key pa data).setHart h1)) ∧
      (isHbm l.frame = true → l.ord ≠ 0 → ∃ t h' x, exec (.systemCoreAccess h.num (.store va data)) s = .next t ∧ t = s1.setHart h' ∧ x ∈ h'.cache ∧ x.sector = pa / 32 ∧
        (∀ (i : Nat) v, data[i]? = some v → sectorByte x.data (pa % 32 + i) = v ∧ x.dirty.getLsbD (pa % 32 + i) = true) ∧
        ∀ y ∈ h'.cache, y ≠ x → y ∈ h1.cache)) ∧
    (∀ va n, 1 ≤ n → va.toNat % 32 + n ≤ 32 → s1.walkNow h1.asid va .read true = none → exec (.systemCoreAccess h.num (.load va n)) s = .next s1) ∧
    (∀ va (data : List Byte), data ≠ [] → va.toNat % 32 + data.length ≤ 32 → s1.walkNow h1.asid va .write true = none →
      exec (.systemCoreAccess h.num (.store va data)) s = .next s1) ∧
    (∃ t h', exec (.systemCoreAccess h.num (.fence .rwRw)) s = .next t ∧ t.hart? h.num = some h' ∧ h'.cache = [] ∧ h' = { h1 with cache := [] } ∧ t.groups = s.groups) ∧
    (∀ va wide v l, let n := if wide then 8 else 4
      va.toNat % n = 0 → s1.walkNow h1.asid va .atomic true = some l → l.ord ≠ 2 → (s1.poisoned (leafAddr l va.toNat)).isNone →
      (∀ x ∈ h1.cache, x.sector ≠ leafAddr l va.toNat / 32) →
      let old := bytesValue (s1.homeBytes l.key (leafAddr l va.toNat) n)
      exec (.systemCoreAccess h.num (.amo .add va wide v false false)) s =
        .next ((s1.storeHome l.key (leafAddr l va.toNat) (valueBytes n ((old + v.toNat) % 2 ^ (8 * n)))).setHart { h1 with lastLoad := extendTo64 n (!wide) old }) ∧
      exec (.systemCoreAccess h.num (.amo .swap va wide v false false)) s =
        .next ((s1.storeHome l.key (leafAddr l va.toNat) (valueBytes n (v.toNat % 2 ^ (8 * n)))).setHart { h1 with lastLoad := extendTo64 n (!wide) old })) ∧
    (∀ va wide v l, let n := if wide then 8 else 4
      let pa := leafAddr l va.toNat
      va.toNat % n = 0 → l.ord ≠ 2 → (∀ x ∈ h1.cache, x.sector ≠ pa / 32) →
      (s1.walkNow h1.asid va .read true = some l → (s1.poisoned pa).isNone → exec (.systemCoreAccess h.num (.lr va wide false false)) s =
        .next (s1.setHart { h1 with lastLoad := extendTo64 n (!wide) (bytesValue (s1.homeBytes l.key pa n)), reserved := some (pa, n) })) ∧
      (s1.walkNow h1.asid va .write true = some l → ∃ t h', exec (.systemCoreAccess h.num (.sc va wide v false false)) s = .next t ∧
        t.hart? h.num = some h' ∧ h'.reserved = none ∧ h'.cache = h1.cache ∧
        ((h'.lastLoad = 1 ∧ t.mem = s1.mem) ∨ (h'.lastLoad = 0 ∧ h1.reserved = some (pa, n) ∧
          ∃ d, t = (({ s1 with draws := d }).storeHome l.key pa (valueBytes n (v.toNat % 2 ^ (8 * n)))).setHart h')))) ∧
    (∀ v, exec (.systemCoreAccess h.num (.satp v)) s = .next (s1.setHart { h1 with asid := v.toNat / 2 ^ 44 % 2 ^ 16 }))

namespace Sys2Proof.Stated

/-- Word i of a queue's descriptor at its home (R329). -/
def descOf (s : State) (q : Queue) (i : Nat) : Word := BitVec.ofNat 64 (bytesValue (s.homeBytes q.descKey (q.desc + 8 * i) 8))

/-- A queue in another state, which its descriptor shows (R329, R337): STATE in [63:60], ERR in [59:52], which is 0 but in state 4, the other bits as they were. -/
def stateTo (s : State) (q : Queue) (st err : Nat) : State :=
  (s.setQueue { q with state := st, err := err, idleSince := if st = 1 ∧ q.state ≠ 1 then s.steps else q.idleSince }).storeHome q.descKey (q.desc + 8)
    (valueBytes 8 ((BitVec.ofNat 64 (st * 2 ^ 60) ||| BitVec.ofNat 64 (if st = 4 then err * 2 ^ 52 else 0)) ||| (descOf s q 1 &&& 0x000FFFFFFFFFFFFF)).toNat)

/-- Address of a position's slot in the ring (R330). -/
def slotOf (s : State) (q : Queue) (pos : Nat) : Word := descOf s q 0 + BitVec.ofNat 64 (64 * (pos % 2 ^ ((descOf s q 1).toNat / 2 ^ 32 % 32)))

/-- A queue's thread may fetch (R334, R336): it is busy and mapped, records are written and fewer than 16 are in flight, none of them still in hand. -/
structure Fetches (s : State) (q : Queue) : Prop where
  queue : s.queue? q.qid = some q
  busy : q.state = 2 ∧ q.thread ≠ none ∧ s.rungs = []
  written : q.fetchedCount < (descOf s q 2).toNat
  few : q.records.length < 16
  free : ∀ f ∈ q.records, f.pos ≠ q.fetchedCount ∧ (f.status ≠ none ∨ f.kept = true ∨ (if q.timed then f.admittedOk else f.pushed) = true) ∧
    (f.status ≠ none ∨ f.depMet = true)

/-- A record as it stands once fetched. -/
def fetchedAs (q : Queue) (r : List Word) (d : Option LaunchDesc) (status : Option Nat) (met passed : Bool) : Fetched :=
  { pos := q.fetchedCount, record := r, desc := d, pushed := false, status := status, depMet := met, admittedOk := passed, kept := false, watchdog := 0,
    gen := q.gen, die := (q.thread.map (·.1)).getD 0, holder := none, hit := false }

/-- The wait packet of a queue's thread, armed for a word of memory to be at least a value, and tested as it is armed (R335). -/
def armedFor (s : State) (va : Word) (value pa key : Nat) (pos : Option Nat) : WaitPacket :=
  { addr := va, value := BitVec.ofNat 64 value, mask := ~~~0, cond := 0, pa := pa, key := key, pos := pos,
    met := decide (value % 2 ^ 64 ≤ bytesValue (s.homeBytes key pa 8)) }

/-- The word of a state as a descriptor shows it in the error state (R329, R337). -/
def errorWord (s : State) (q : Queue) : Word := (BitVec.ofNat 64 (4 * 2 ^ 60 + q.err % 256 * 2 ^ 52)) ||| (descOf s q 1 &&& 0x000FFFFFFFFFFFFF)

/-- A word of memory that a thread reaches at level 1 under its queue's ASID, on a page that is readable and not UN. -/
def Touches (s : State) (q : Queue) (va : Word) (c : Access) (l : Leaf) : Prop :=
  s.walkNow q.asid va c true = some l ∧ l.ord ≠ 2 ∧ (s.poisoned (leafAddr l va.toNat)).isNone ∧ va.toNat / 4096 ∉ q.walkFault

end Sys2Proof.Stated

/-! ### Queues and their threads (R330 to R345) -/

/-- Mapping and waiting (R334, R335, R337): a queue with written records gets the lowest free thread of its die and is busy; the thread of an idle queue waits for
WIDX to pass its fetched count, and that of a record with a dependence for its word to reach DEPVAL; the packet is tested when it is armed and at each write of
its sector, and once it has held, the queue is busy again or the dependence is met. -/
def Sys2Proof.Stated.QueueMapping : Prop :=
  ∀ (s : State) (q : Queue), s.queue? q.qid = some q → s.rungs = [] →
    (∀ p t, let die := p.clusters.headD 0 / 32
      q.thread = none → q.state ≤ 2 → q.fetchedCount < (descOf s q 2).toNat → s.partition? q.partition = some p → p.clusters ≠ [] → t < 32 → die < 8 →
      (∀ y ∈ s.queues, y.thread ≠ some (die, t)) → (∀ t', t' < t → ∃ y ∈ s.queues, y.thread = some (die, t')) →
      exec (.queueMap q.qid) s = .next (stateTo s { q with thread := some (die, t) } 2 0)) ∧
    (∀ d t, q.thread = some (d, t) → t < 32 → (∀ y ∈ s.queues, y.thread = some (d, t) → y = q) → q ∈ s.queues →
      let dependence := q.records.find? fun r => decide (r.status = none) && !r.depMet
      (q.state = 1 → q.packet = none → dependence = none → exec (.waitPacketSatisfied (32 * d + t)) s =
        .next (s.setQueue { q with packet := some (armedFor s (q.descVa + 16) (q.fetchedCount + 1) (q.desc + 16) q.descKey none) })) ∧
      (∀ x, q.state = 1 → q.packet = some x → x.met = true → x.pos = none →
        exec (.waitPacketSatisfied (32 * d + t)) s = .next (stateTo s { q with packet := none } 2 0)) ∧
      (∀ f l, q.state = 2 → q.timed = false → dependence = some f → (wordAt f.record 0).getLsbD 57 = false → wordAt f.record 5 ≠ 0 →
        let va := wordAt f.record 5
        s.walkNow q.asid va .read true = some l → (s.poisoned (leafAddr l va.toNat)).isNone → va.toNat / 4096 ∉ q.walkFault →
        (q.packet = none → exec (.waitPacketSatisfied (32 * d + t)) s =
          .next (s.setQueue { q with packet := some (armedFor s va (wordAt f.record 6).toNat (leafAddr l va.toNat) l.key (some f.pos)) }))) ∧
      (∀ f x, q.state = 2 → q.timed = false → dependence = some f → q.packet = some x → x.met = true → x.pos = some f.pos →
        exec (.waitPacketSatisfied (32 * d + t)) s = .next (s.setQueue { q with walkFault := [], packet := none, records := q.records.map fun x =>
          if x.pos = f.pos then { f with depMet := true, admittedOk := true } else x }))) ∧
    (∀ x key pa bs, q.packet = some x → x.pa / 32 = pa / 32 → let t := s.putHome key pa bs
      t.queue? q.qid = some { q with packet := some { x with met := x.met || t.packetHolds x } })

/-- Fetching (R336): a record whose checks pass is in flight, the fetched count goes up, a FENCE record is complete at once and a bulk record without a dependence passes
its admission, while a thread whose record has one waits for it; a queue whose written records are all fetched becomes idle; a record that fails a check stays unfetched and its queue drains into the error state; a reserved KIND is ERR 1, a TIMED bit unlike the queue's ERR 2. -/
def Sys2Proof.Stated.RecordFetch : Prop :=
  (∀ (s : State) (q : Queue), s.queue? q.qid = some q → q.state = 2 → (descOf s q 2).toNat ≤ q.fetchedCount → (∀ f ∈ q.records, f.status ≠ none ∨ f.pushed = true) →
    q.timed = false → q.packet ≠ none → exec (.fetchRecord q.qid) s = .next (stateTo s q 1 0)) ∧
  ∀ (s : State) (q : Queue), Fetches s q →
    (∀ r d, s.readRecord q q.fetchedCount = .inr (r, d) → q.timed = false → (∀ f ∈ q.records, f.pos < q.fetchedCount) →
      let kind := (wordAt r 0).toNat / 2 ^ 60
      let free := decide (wordAt r 5 = 0) && !(wordAt r 0).getLsbD 57
      let f := fetchedAs q r d (if kind = 0 then some 0 else none) free (decide (kind ≠ 0) && free)
      ∃ t q', exec (.fetchRecord q.qid) s = .next t ∧ q' = { q with records := q'.records, fetchedCount := q.fetchedCount + 1, packet := q'.packet } ∧
        (∀ x, x ∈ q'.records ↔ x ∈ q.records ∨ x = f) ∧ t.queue? q.qid = some q' ∧ t.mem = s.mem ∧ t.groups = s.groups ∧
        (kind = 0 ∨ free = true → q'.packet = q.packet ∧ t = s.setQueue q')) ∧
    (∀ e, s.readRecord q q.fetchedCount = .inl e → q.records ≠ [] → exec (.fetchRecord q.qid) s = .next (stateTo s q 3 e)) ∧
    (∀ bs, s.readRange q.asid (slotOf s q q.fetchedCount) 64 = some bs → let w := wordAt (bytesWords 8 bs) 0
      (3 ≤ w.toNat / 2 ^ 60 → s.readRecord q q.fetchedCount = .inl 1) ∧
      (w.toNat / 2 ^ 60 = 0 → w.toNat % 256 = 0 → w.getLsbD 57 = false → w.getLsbD 59 ≠ q.timed → s.readRecord q q.fetchedCount = .inl 2))

/-- Pushing (R333, R336, R344): the oldest bulk record that has passed its checks enters the pool of its CLU, at its priority, when that pool has room; the record is then pushed. -/
def Sys2Proof.Stated.PoolPushes : Prop :=
  ∀ (s : State) (q : Queue) (p : Partition) (f : Fetched) (cl : Nat), s.queue? q.qid = some q → q.timed = false → q.state ≠ 5 → s.partition? q.partition = some p →
    (q.records.filter fun r => decide (r.status = none) && r.admittedOk && !r.pushed && !r.kept).head? = some f →
    let w := wordAt f.record 0
    let prio := w.toNat / 2 ^ 54 % 8
    w.toNat / 2 ^ 46 % 256 ≠ 255 → p.clusters[w.toNat / 2 ^ 46 % 256]? = some cl → (s.cluster cl).fenced = false →
    ((s.cluster cl).pool.filter fun e => decide (e.1 = prio)).length < 256 →
    ∃ t q' e, exec (.poolPush q.qid) s = .next t ∧ t.queue? q.qid = some q' ∧
      q' = { q with records := q.records.map fun x => if x.pos = f.pos then { f with pushed := true, gen := q.gen, holder := none } else x } ∧
      t.cluster cl = { s.cluster cl with pool := (s.cluster cl).pool ++ [(prio, e)] } ∧ (∀ n, n ≠ cl → t.cluster n = s.cluster n) ∧
      t.mem = s.mem ∧ t.groups = s.groups ∧ t.grids = s.grids ∧
      (w.toNat / 2 ^ 60 = 1 → e = .launch q.qid f.pos none) ∧
      (w.toNat / 2 ^ 60 = 2 → e = .cont [wordAt f.record 1, wordAt f.record 2, wordAt f.record 3,
        BitVec.ofNat 64 (q.qid % 65536 * 2 ^ 48 + q.gen.toNat % 65536 * 2 ^ 32 + f.pos % 2 ^ 32), 0, 0, 0, 0])

/-- Retirement (R345): the oldest record, once complete, writes STATUS into byte 0 of its slot, raises its signal word, and only then raises RIDX; its writes follow that order, and it is
in flight no longer. With its last one a draining queue enters the error state: ERRPOS is written first (R337, R379). -/
def Sys2Proof.Stated.Retirements : Prop :=
  ∀ (s : State) (q : Queue) (f : Fetched) (rest : List Fetched) (st : Nat) (p : Partition) (l k : Leaf), s.queue? q.qid = some q → q.records = f :: rest → f.status = some st →
    q.packet = none → st < 8 → (∀ w ∈ s.walks, .queue q.qid ∉ w.waiters) → s.partition? q.partition = some p → (∀ a ∈ p.admitted, a.qid ≠ q.qid) →
    (wordAt f.record 0).toNat / 2 ^ 60 ≠ 1 → wordAt f.record 3 = 0 →
    let slot := slotOf s q f.pos
    let sig := if wordAt f.record 4 = 0 then descOf s q 4 else wordAt f.record 4
    sig.toNat % 8 = 0 → Touches s q slot .write l → Touches s q sig .atomic k →
    let a := leafAddr l slot.toNat
    let b := leafAddr k sig.toNat
    let s1 := s.storeHome l.key a [BitVec.ofNat 8 (bytesValue (s.homeBytes l.key a 1) % 16 + 16 * st)]
    let s2 := s1.storeHome k.key b (valueBytes 8 (max (bytesValue (s1.homeBytes k.key b 8)) (wordAt f.record 7).toNat))
    let q' := { q with records := rest.filter (fun x => decide (x.pos ≠ f.pos)), walkFault := [], restores := q.restores.filter fun x => decide (x.1 ≠ f.pos) }
    let s3 := (s2.setQueue q').storeHome q.descKey (q.desc + 24) (valueBytes 8 ((f.pos + 1) % 2 ^ 64))
    descOf s1 q 4 = descOf s q 4 → Touches s1 q sig .atomic k →
      (q.state = 1 ∨ q.state = 2 → exec (.retirement q.qid) s = .next s3) ∧
      (q.state = 3 → q'.records = [] → s.portDown q.desc = false →
        let s4 := s3.setQueue { q' with state := 4 }
        let s5 := s4.putHome q.descKey (q.desc + 48) (valueBytes 8 (descOf s4 q 3).toNat)
        exec (.retirement q.qid) s = .next (s5.putHome q.descKey (q.desc + 8) (valueBytes 8 (errorWord s5 q).toNat)))

/-! ### Layers and confirmations (R322 to R324, R357 to R360) -/

/-- The fetches of a model context (R322 to R324): the lowest arriving layer starts when the pool has its pages, which are filled with zeros (R23, R309) and
mapped behind its weights, or its fetch fails with ERR 6 where they have no translation (R321); with too few pages the victim turns
to evicting; an eviction unmaps the layer and frees its pages; weights that have come are written and published with the next GEN, or fail with ERR 3 when their CRC is not CHECK. -/
def Sys2Proof.Stated.LayerFetches : Prop :=
  ∀ (s : State) (m : Model), s.model? m.id = some m →
    (∀ n l, m.fetching = none → s.layerIn m 1 = some (n, l) → l.pages ≤ m.pool.length → s.noWeights m l = true →
      ∃ t m', exec (.layerFetchStart m.id) s = .next t ∧ t.model? m.id = some m' ∧ m'.fetching = none ∧ m'.pool = m.pool ++ l.frames ∧
        t.mem = (s.writeRes l (resWith (s.readRes l) 4 6)).mem) ∧
    (∀ n l, m.fetching = none → s.layerIn m 1 = some (n, l) → l.pages ≤ m.pool.length → s.noWeights m l = false →
      ∃ t m', exec (.layerFetchStart m.id) s = .next t ∧ t.model? m.id = some m' ∧ m'.fetching = some n ∧ m'.pool = m.pool.drop l.pages ∧
        m'.layers = m.layers.set n { l with frames := m.pool.take l.pages } ∧ t.groups = s.groups ∧
        (let frames := m.pool.take l.pages
         let key := (s.deviceLeaf m.asid 0 false).key
         (∀ k pa, (∀ f ∈ frames, ¬(f / 32 ≤ pa / 32 ∧ pa / 32 ≤ (f + 4095) / 32)) → t.homeByte k pa = s.homeByte k pa) ∧
           (s.epoch key ≠ 0 → ∀ f ∈ frames, f + 4096 ≤ 2 ^ 41 → ∀ i, i < 4096 → t.homeByte key (f + i) = 0))) ∧
    (∀ n l k v, m.fetching = none → s.layerIn m 1 = some (n, l) → m.pool.length < l.pages → s.layerIn m 2 = none → s.victim m = some (k, v) →
      exec (.layerFetchStart m.id) s = .next (s.writeRes v (resWith (s.readRes v) 2 0))) ∧
    (∀ n l, m.layers[n]? = some l → (s.readRes l).toNat / 2 ^ 61 = 2 →
      ∃ t m', exec (.evictionComplete m.id n) s = .next t ∧ t.model? m.id = some m' ∧ m'.pool = m.pool ++ l.frames ∧ m'.layers = m.layers.set n { l with frames := [] } ∧
        (∀ e ∈ t.mapped, ¬(e.asid = m.asid ∧ l.wbase.toNat / 4096 ≤ e.page ∧ e.page < l.wbase.toNat / 4096 + l.pages)) ∧
        t.mem = (s.writeRes l (resWith (s.readRes l) 0 0)).mem) ∧
    (∀ n l (bs : List Byte), m.fetching = some n → m.layers[n]? = some l → (∀ w ∈ s.walks, .layer m.id ∉ w.waiters) → l.srckind = 1 → l.srclen = l.wsize → (s.nvmeReads m l).isSome → bs.length = l.wsize →
      let s1 := s.writeWeights m l bs
      ((crc32c bs).toNat = l.check → ∃ t m', exec (.layerFetchEnd m.id (.nvme bs)) s = .next t ∧ t.model? m.id = some m' ∧ m'.fetching = none ∧ m'.pool = m.pool ∧
        t.mem = (s1.writeRes l (BitVec.ofNat 64 (3 * 2 ^ 61 + (s1.readRes l).toNat / 2 ^ 40 % 2 ^ 21 * 2 ^ 40 + ((s1.readRes l).toNat % 2 ^ 32 + 1) % 2 ^ 32))).mem) ∧
      ((crc32c bs).toNat ≠ l.check → ∃ t m', exec (.layerFetchEnd m.id (.nvme bs)) s = .next t ∧ t.model? m.id = some m' ∧ m'.fetching = none ∧
        m'.pool = m.pool ++ l.frames ∧ t.mem = (s1.writeRes l (resWith (s1.readRes l) 4 3)).mem)) ∧
    (∀ n l err, m.fetching = some n → m.layers[n]? = some l → (∀ w ∈ s.walks, .layer m.id ∉ w.waiters) → err = 1 ∨ err = 2 ∨ err = 4 →
      ∃ t m', exec (.layerFetchEnd m.id (.failed err)) s = .next t ∧ t.model? m.id = some m' ∧ m'.fetching = none ∧ m'.pool = m.pool ++ l.frames ∧
        t.mem = (s.writeRes l (resWith (s.readRes l) 4 err)).mem)

/-- The confirmation of a predicted grid (R355 to R360): a slot that holds a count T of at most NBLK confirms the grid with `k0` = T; its blocks below T are confirmed
and their marked sectors are plain stores; blocks beyond the count are gone, and where the prediction was too low a tail grid runs the rest. A slot without its valid bit decides nothing. -/
def Sys2Proof.Stated.Confirmations : Prop :=
  ∀ (s : State) (k : Grid) (l : Leaf), s.grid? k.id = some k → s.awaitsCount k = true → s.walkNow k.asid k.desc.slot .read true = some l → l.ord ≠ 2 →
    (s.poisoned (leafAddr l k.desc.slot.toNat)).isNone → k.desc.slot.toNat / 4096 ∉ k.walkFault →
    let w := BitVec.ofNat 64 (bytesValue (s.homeBytes l.key (leafAddr l k.desc.slot.toNat) 8))
    let total := w.toNat % 2 ^ 32
    (w.getLsbD 63 = false → exec (.confirmation k.id) s = .refused (.notEnabled "CONFIRMATION")) ∧
    (w.getLsbD 63 = true → w.toNat / 2 ^ 32 % 2 ^ 31 = 0 → total ≤ k.desc.nblk → (∀ b ∈ s.blocks, b.grid = k.id → b.index < total ∧ b.state = .running) →
      k.next < min k.count total → k.id < s.ids → ∃ t k', exec (.confirmation k.id) s = .next t ∧ t.grid? k.id = some k' ∧ k'.confirmed = true ∧ k'.k0 = BitVec.ofNat 64 total ∧
        k'.count = max k.next (min k.count total) ∧
        (k.count < total → ∃ y ∈ t.grids, y.tail = true ∧ y.qid = k.qid ∧ y.pos = k.pos ∧ y.next = k.count ∧ y.count = total ∧ y.confirmed = true))

namespace Sys2Proof.Stated

/-- A group that waits for its next record (R126, R129): outside trap mode, every unit at the end of the segment, nothing asynchronous pending, a record in its queue. -/
structure WaitsFor (s : State) (g : Group) (r : BitVec 512) (rest : List (BitVec 512)) : Prop where
  group : s.group? g.id = some g
  mode : g.trap.tmode = false ∧ g.async = [] ∧ g.draining = none
  done : g.units ≠ [] ∧ ∀ u ∈ g.units, u.wait = .segmentDone
  queue : g.queue = r :: rest

/-- Decision values after a record is taken (R128): a value that the record carries replaces the old one. -/
def taken (r : BitVec 512) (ds es : Vector Word 6) : Prop :=
  ∀ i : Fin 6, es[i] = if r.getLsbD (56 + i.val) then r.extractLsb' (128 + 64 * i.val) 64 else ds[i]

/-- The combination of values at a Joint word (R132): `agree`, `add`, signed `min` and `max`, `and`, `or`. -/
def combination (mode : Nat) (v : Word) (vs : List Word) : Word :=
  match mode with
  | 0 => v
  | 1 => vs.foldl (· + ·) v
  | 2 => vs.foldl (fun m x => if x.slt m then x else m) v
  | 3 => vs.foldl (fun m x => if m.slt x then x else m) v
  | 4 => vs.foldl (· &&& ·) v
  | _ => vs.foldl (· ||| ·) v

/-- A context after the word at a PC completes without a transfer (R125): the word after it, or the start of a loop body it ends. -/
def ctxAfter (c : Ctx) (pc : Word) : Ctx :=
  { c with pc := (backEdgeFrom pc c.loops).2, start := (backEdgeFrom pc c.loops).2, loops := (backEdgeFrom pc c.loops).1, hint := none, joint := none, sent := none,
           state := .scanning }

end Sys2Proof.Stated

/-! ### The sequencers between words (R122 to R137, R158 to R160, R173, R340) -/

/-- Taking a record (R126 to R128): a number older than the expected one is dropped; the expected one starts every unit of the group at the segment's first PC with the
values it carries; another number or a reserved field raises the sequencer-state fault; END ends the group. A context takes its records by the same rule. -/
def Sys2Proof.Stated.RecordTaking : Prop :=
  (∀ (s : State) (g : Group) (r : BitVec 512) (rest : List (BitVec 512)), WaitsFor s g r rest →
    let seq := r.extractLsb' 104 24
    (seq ≠ g.nextSeq → 2 ^ 23 ≤ (seq - g.nextSeq).toNat → exec (.takeRecord (.group g.id)) s = .next (s.setGroup { g with queue := rest })) ∧
    (seq = g.nextSeq → recordOk r = true → (r.extractLsb' 62 2).toNat = 0 →
      ∃ t g', exec (.takeRecord (.group g.id)) s = .next t ∧ t.group? g.id = some g' ∧ g'.queue = rest ∧ g'.nextSeq = g.nextSeq + 1 ∧ taken r g.dvals g'.dvals ∧
        g'.segment = .upTo (recordFirst r) (recordFirst r + 4 * (r.extractLsb' 80 24).setWidth 64) ∧ g'.units = g.units.map (fun u => { u with pc := recordFirst r, wait := .ready, since := s.steps }) ∧
        (∀ n, n ≠ g.id → t.group? n = s.group? n) ∧ t.mem = s.mem ∧ g'.sregs = g.sregs ∧ g'.vregs = g.vregs ∧ g'.preds = g.preds) ∧
    (∀ u, g.units.head? = some u → g.unit? u.uid = some u → Apart g → s.atomics.any (fun x => decide (x.group = g.id)) = false →
      (seq ≠ g.nextSeq ∧ (seq - g.nextSeq).toNat < 2 ^ 23) ∨ (seq = g.nextSeq ∧ recordOk r = false) →
      ∃ t, exec (.takeRecord (.group g.id)) s = .next t ∧ InHandler s t g u { cause := 6, tval := seq.setWidth 64, tstat := 0, tlane := u.mask } false (savedPc u)) ∧
    (seq = g.nextSeq → recordOk r = true → (r.extractLsb' 62 2).toNat = 1 → (∀ y ∈ s.groups, y.id = g.id → y = g) → s.groups.Nodup →
      ∃ t, exec (.takeRecord (.group g.id)) s = .next t ∧ t.group? g.id = none)) ∧
  (∀ (s : State) (c : Ctx) (r : BitVec 512) (rest : List (BitVec 512)), s.ctx? c.id = some c → c.queue = r :: rest → c.state = .needRecord → c.frozen = false →
    r.extractLsb' 104 24 = c.nextSeq → recordOk r = true → (r.extractLsb' 62 2).toNat = 0 →
    ∃ ds, taken r c.dvals ds ∧ exec (.takeRecord (.context c.id)) s = .next (s.setCtx { c with queue := rest, nextSeq := c.nextSeq + 1, dvals := ds, pc := recordFirst r, start := recordFirst r, segment := .upTo (recordFirst r) (recordFirst r + 4 * (r.extractLsb' 80 24).setWidth 64), baseDepth := c.depth, state := .scanning }))

/-- Emission (R125 to R127, R447): at the end of its segment a context emits what it has scanned, as one record to each receiver with that receiver's next number, and
waits; a late receiver takes the next record of the log; a word of the context's own is executed before anything is emitted after it. -/
def Sys2Proof.Stated.Emissions : Prop :=
  (∀ (s : State) (c : Ctx), s.ctx? c.id = some c → s.canScan c = true → s.lagging c = none → c.atEnd = true →
    (c.start = c.pc → exec (.emitSegment c.id) s = .next (s.setCtx { c with state := .needRecord })) ∧
    (∀ g l, c.start ≠ c.pc → c.links = [l] → l.dest = .group g.id → s.group? g.id = some g → l.behind = 0 →
      let r := mkRecord 0 c.scope c.start (c.pc - 4) c.sdv c.sd
      exec (.emitSegment c.id) s = .next ((s.setGroup { g with queue := g.queue ++ [withSeq r l.seq] }).setCtx { c with state := .needRecord, start := c.pc, sdv := 0, links := [{ l with seq := l.seq + 1 }], log := if c.logging then c.log ++ [r] else c.log }))) ∧
  (∀ (s : State) (c : Ctx) (x : Standing) (i : Instr), s.ctx? c.id = some c → s.canScan c = true → s.lagging c = none → c.atEnd = false → s.standing c = .inr x → x.cls = .own → x.word = some i →
    c.start = c.pc → exec (.emitSegment c.id) s = .next ({ s with sel := some (.context c.id) }.setCtx c)) ∧
  (∀ (s : State) (c : Ctx) (x : Standing), s.ctx? c.id = some c → s.canScan c = true → s.lagging c = none → c.atEnd = false → s.standing c = .inr x → x.cls = .foreign →
    (x.pc + 4 - c.start).toNat ≤ 2 ^ 26 → ∃ t c', exec (.emitSegment c.id) s = .next t ∧ t.ctx? c.id = some c' ∧ c'.state = .stopped ∧ c'.pc = x.pc + 4 ∧ c'.start = x.pc + 4 ∧ t.mem = s.mem)

/-- Joint words (R132, R133, R173, R137, R198): when every sender has performed its part, the context's register holds the combination of the values and the context goes on after the word;
values that do not agree are the uniformity fault, a word with a reserved code the illegal-instruction fault, and either freezes it; a barrier ends once every receiver has completed what it was sent; a block whose `suspend.b` found its
counter low retires into a suspension slot, its groups kept there and its core free. -/
def Sys2Proof.Stated.JointWords : Prop :=
  (∀ (s : State) (c : Ctx) m d a k y pc v vs, s.ctx? c.id = some c → c.state = .atJoint → c.joint = some (.up m d a k y, pc) → c.frozen = false → s.ctxWalking c = false →
    codesOk c.hint c.scope 0 (.up m d a k y) = true → hintOk c.hint (.up m d a k y) = true →
    (∀ p ∈ c.parties, s.performed c p = true ∧ ∃ n, p = .group n) → c.got.map (·.1) ++ c.parties.filterMap (fun p => (s.sends (.up m d a k y) p).map (·.1)) = v :: vs →
    (y.toNat = 0 → (∀ x ∈ vs, x = v) → c.backOk pc = true → ∃ t, exec (.upCombine c.id) s = .next t ∧ t.ctx? c.id = some (ctxAfter { c.setR d.toNat v with parties := [], got := [] } pc) ∧ t.mem = s.mem) ∧
    (y.toNat ≠ 0 → c.backOk pc = true → ∃ t, exec (.upCombine c.id) s = .next t ∧
      t.ctx? c.id = some (ctxAfter { c.setR d.toNat (combination y.toNat v vs) with parties := [], got := [] } pc) ∧ t.mem = s.mem) ∧
    (y.toNat = 0 → (∃ x ∈ vs, x ≠ v) → ∃ t c' f, exec (.upCombine c.id) s = .next t ∧ t.ctx? c.id = some c' ∧ c'.frozen = true ∧ c'.fault = some f ∧ f.cause = 5 ∧
      f.tval = wordOf (.up m d a k y) ∧ c'.regs = c.regs)) ∧
  (∀ (s : State) (c : Ctx) i pc, s.ctx? c.id = some c → c.state = .atJoint → c.joint = some (i, pc) → c.frozen = false → s.ctxWalking c = false →
    (∀ p ∈ c.parties, s.performed c p = true) → codesOk c.hint c.scope 0 i = false →
    ∃ t c' f, exec (.upCombine c.id) s = .next t ∧ t.ctx? c.id = some c' ∧ c'.frozen = true ∧ c'.fault = some f ∧ f.cause = 1 ∧ f.tval = wordOf i ∧ c'.regs = c.regs) ∧
  (∀ (s : State) (c : Ctx) i pc, s.ctx? c.id = some c → c.state = .atBar → c.joint = some (i, pc) → c.frozen = false → s.allCompleted c = true → c.backOk pc = true →
    exec (.barrierRelease c.id) s = .next ({ s with sel := none }.setCtx (ctxAfter c pc))) ∧
  (∀ (s : State) (b : Block) (c : Ctx) sector target woken slot, s.block? b.id = some b → (s.ctxs.find? fun x => decide (x.scope = 2) && decide (x.block = b.id)) = some c → s.ctx? c.id = some c →
    c.state = .retiring sector target woken → c.parties = [] → s.mayRetire b c = some slot → (s.groups.map (·.id)).Nodup →
    ∃ t b' c' w, exec (.blockRetire b.id) s = .next t ∧ t.block? b.id = some b' ∧ b'.state = .retired sector slot w ∧ (woken = true → w = true) ∧ b'.saved.length = (s.members b.id).length ∧
      (∀ g ∈ t.groups, g.block ≠ b.id) ∧ t.ctx? c.id = some c' ∧ c'.state = .retired ∧ c'.pc = target ∧ c'.regs = c.regs)

/-- The end of `regroup` (R158 to R160): when the participants agree, their live lanes are dealt out in ascending order of group and lane, each participant taking up to its width; a lane keeps
its registers, predicates and generator, RD is the number of lanes received, and a participant that receives none ends; when they do not agree, each raises the uniformity fault. -/
def Sys2Proof.Stated.RegroupResult : Prop :=
  ∀ (s : State) (g : Group) (ps : List Group), s.group? g.id = some g → s.regroupParty g = some ps → (∀ x ∈ ps, s.group? x.id = some x ∧ Apart x) → (ps.map (·.id)).Nodup →
    (s.groups.map (·.id)).Nodup → (∀ w ∈ s.writes, ∀ x ∈ ps, w.group ≠ x.id) → g.width ≤ 32 →
    ((∀ x ∈ ps, regroupKey x = regroupKey g) → (∀ x ∈ ps, ∀ u i v, x.regroupUnit = some (u, i, v) → u.region = none ∧ backOut x u = false) → ∃ t, exec (.regroupComplete g.id) s = .next t ∧
      ∀ (k : Nat) x u m d a v, ps[k]? = some x → x.regroupUnit = some (u, .regroup m d a, v) →
        let src := ((liveLanes ps).drop (k * g.width)).take g.width
        (src = [] → t.group? x.id = none) ∧
        (src ≠ [] → ∃ x', t.group? x.id = some x' ∧ x'.live = BitVec.ofNat 32 (2 ^ src.length - 1) ∧ (d.toNat ≠ 0 → x'.s d.toNat = BitVec.ofNat 64 src.length) ∧
          x'.fflg = ps.foldl (fun f y => f ||| y.fflg) 0 ∧
          ∀ (j : Nat) y l, src[j]? = some (y, l) → (∀ r, r < x.valloc → x'.vreg r j = y.vreg r l) ∧ x'.gen j = y.gen l ∧
            ∀ p, 1 ≤ p → p < 8 → (x'.p p).getLsbD j = (y.p p).getLsbD l)) ∧
    ((∃ x ∈ ps, regroupKey x ≠ regroupKey g) → (∀ y ∈ s.atomics, ∀ x ∈ ps, y.group ≠ x.id) → ∃ t, exec (.regroupComplete g.id) s = .next t ∧
      ∀ x ∈ ps, ∃ x', t.group? x.id = some x' ∧ x'.trap.tmode = true ∧ x'.trap.tcause = 5 ∧ x'.live = x.live ∧ x'.preds = x.preds)

/-- The placer (R333, R340): an entry of a record that it has not begun yet makes the record's grid, at the record's priority and with its descriptor, on the cluster as home; a grid's blocks are placed in
ascending order and only below its count; continuations are not its work; the resume of a block that is gone only leaves the pool.
What the rules leave open here is the model's own choice or reading: log entries 112 and 158. -/
def Obligations.Placements : Prop :=
  (∀ (s : State) (cl : Nat), (∀ e ∈ (s.cluster cl).pool, ∃ ws, e.2 = .cont ws) → exec (.placerTakeEntry cl) s = .refused (.notEnabled "PLACER_TAKE_ENTRY")) ∧
  (∀ (s : State) (cl p bid : Nat), (s.cluster cl).pool = [(p, .resume bid)] → s.block? bid = none → exec (.placerTakeEntry cl) s = .next (s.setCluster { s.cluster cl with pool := [] }).queueResumes) ∧
  (∀ (s : State) (cl p : Nat) (q : Queue) (f : Fetched) (d : LaunchDesc), (s.cluster cl).pool = [(p, .launch q.qid f.pos none)] → s.queue? q.qid = some q →
    (q.records.find? fun r => decide (r.pos = f.pos)) = some f → f.desc = some d → (∀ k ∈ s.grids, ¬(k.qid = q.qid ∧ k.pos = f.pos)) → s.ctxFree cl = true → (wordAt f.record 0).getLsbD 57 = false →
    (∀ k ∈ s.grids, k.id < s.ids) → (∀ b ∈ s.blocks, b.grid < s.ids ∧ b.id < s.ids) → (∀ c ∈ s.ctxs, c.grid < s.ids ∧ c.block < s.ids ∧ c.id < s.ids) → (∀ x ∈ s.groups, x.id < s.ids ∧ x.block < s.ids) →
    (s.cluster cl).waiting = [] → d.nblk ≠ 0 → d.psel = 0 →
    ∃ t k, exec (.placerTakeEntry cl) s = .next t ∧ t.grid? s.ids = some k ∧ k.qid = q.qid ∧ k.pos = f.pos ∧ k.asid = q.asid ∧ k.partition = q.partition ∧ k.home = cl ∧ k.desc = d ∧
      k.prio = (wordAt f.record 0).toNat / 2 ^ 54 % 8 ∧ k.count = d.nblk ∧ k.next ≤ k.count ∧ k.confirmed = true ∧
      (k.next = k.count → (p, .launch q.qid f.pos none) ∉ (t.cluster cl).pool))

namespace Sys2Proof.Stated

/-- An integer as an exact number. -/
def intNum (z : Int) : ExactNum := .fin (decide (z < 0)) z.natAbs 0 false

/-- The copy command that runs on a channel (R308): started and not over; no walk for the channel is outstanding. -/
structure Runs (s : State) (cl ch : Nat) (c : CopyCmd) : Prop where
  running : s.runningCommand cl ch = some c
  bulk : c.isStream = false
  walked : s.channelWalks cl ch = false
  up : s.copyDown cl = false
  confirmed : s.unconfirmedWrite c = false

/-- Word i of a command record. -/
abbrev cw (c : CopyCmd) (i : Nat) : Word := wordAt c.record i

/-- A command ends with a completion word (R312): it leaves its channel, and its token is written. -/
def endsWith (s : State) (c : CopyCmd) (st pst count : Nat) (fault : Option TrapInfo) : State :=
  (s.dropCommand c.core c.id).writeToken c.group c.tok (BitVec.ofNat 64 (st * 2 ^ 60 + pst * 2 ^ 32 + count)) 0 fault

end Sys2Proof.Stated

/-! ### Matrix tasks, copy commands and pre-emption (R197 to R200, R295 to R300, R308 to R315, R363) -/

/-- Matrix tasks (R295, R296): the oldest ready task starts on the lowest free engine; a task that commits frees its engine, writes its completion word into its token and changes no accumulator row
beyond its own; one whose named block has ended completes with ST 5 one that reads bad data with ST 4 and cause 17 for the first reader of its token, one with malformed metadata with ST 6, and none of them changes a row. -/
def Sys2Proof.Stated.MatrixTasks : Prop :=
  (∀ (s : State) (core e : Nat) (t : Task), s.nextTask core = some t → s.freeEngine core = some e →
    ∃ n t', exec (.matrixTaskStart core) s = .next n ∧ (n.core core).engines[e]? = some (some t') ∧ t'.id = t.id ∧ t'.group = t.group ∧ t'.record = t.record ∧ t'.row = t.row ∧
      (∀ x ∈ (n.core core).tasks, x.id ≠ t.id) ∧ n = s.setCore (n.core core) ∧ ∀ k : Nat, k ≠ e → (n.core core).engines[k]? = (s.core core).engines[k]?) ∧
  (∀ (s : State) (core e : Nat) (t : Task) (b : Block) (g : Group), ((s.core core).engines[e]?).bind id = some t → s.block? t.block = some b → b.id = t.block → s.group? t.group = some g → g.block = b.id →
    b.state = .running → b.confirmed = true → e < 2 →
    let word := fun (st : Nat) => BitVec.ofNat 64 (st * 2 ^ 60 + e * 2 ^ 32 + taskCycles t.record)
    ∃ n g' fl, exec (.matrixTaskCommit core e) s = .next n ∧ (n.core core).engines[e]? = some none ∧ n.group? t.group = some g' ∧
      (s.memberGone b t.record = true → g' = g.complete (taskTok t.record) (word 5) none ∧ (n.block? b.id).map (·.acc) = some b.acc) ∧
      (∀ x, s.memberGone b t.record = false → s.taskError b t.record = some x →
        g' = g.complete (taskTok t.record) (word 4) (some { cause := 17, tval := x.1, tstat := BitVec.ofNat 64 x.2, tlane := 0 }) ∧ (n.block? b.id).map (·.acc) = some b.acc) ∧
      (s.memberGone b t.record = false → s.taskError b t.record = none → s.metadataBad b t.record = true → g' = g.complete (taskTok t.record) (word 6) none ∧ (n.block? b.id).map (·.acc) = some b.acc) ∧
      (s.memberGone b t.record = false → s.taskError b t.record = none → s.metadataBad b t.record = false → g' = (g.raise fl).complete (taskTok t.record) (word 0) none ∧
        ∃ b', n.block? b.id = some b' ∧ ∀ r k, k < 16 → ¬(t.row ≤ r ∧ r < t.row + 32) → accAt b' r k = accAt b r k))

/-- An element of an integer task (R69, R298): with SAT 0 it is C plus the sum of the products, modulo 2³²; with SAT 1 a sum of one chunk beyond the range gives the nearest bound and sets SA. -/
def Sys2Proof.Stated.MatrixElements : Prop :=
  ∀ (m : Mode) (ftz : Bool) (size c : Nat) (xs : List (Int × Int)), 1 ≤ size → c < 2 ^ 32 →
    let sum := (xs.map fun x => x.1 * x.2).sum
    let old := (BitVec.ofNat 32 c).toInt
    let elem := fun (sat : Bool) => resultElem { cfmt := 10, mode := m, ftz := ftz, sat := sat } false size c (xs.map fun x => intNum x.1) (xs.map fun x => intNum x.2)
    elem false = ((BitVec.ofInt 32 (old + sum)).toNat, (elem false).2) ∧
    (xs.length ≤ size → xs ≠ [] → -2 ^ 31 ≤ old + sum → old + sum < 2 ^ 31 → elem true = ((BitVec.ofInt 32 (old + sum)).toNat, 0)) ∧
    (xs.length ≤ size → 2 ^ 31 ≤ old + sum → elem true = (2 ^ 31 - 1, SA)) ∧
    (xs.length ≤ size → old + sum < -2 ^ 31 → elem true = (2 ^ 31, SA))

/-- Copy commands (R308, R311 to R313): the first command of a channel that is not over starts, with its acquire; a command that runs moves its next sector; a fill or zero command that reaches every
sector writes each with its value, and its completion word counts the bytes; a command that meets a page which is not translated asks for its walk, when the walker takes a request, and moves nothing;
one that fails releases, where its record says so, before its completion word. -/
def Sys2Proof.Stated.CopyCommands : Prop :=
  (∀ (s : State) (cl ch : Nat) (c : CopyCmd), s.nextCommand cl ch = some c → (cw c 0).getLsbD 59 = false → exec (.copyCommandStart cl ch) s = .next (s.setCommand cl ch { c with started := true })) ∧
  (∀ (s : State) (cl ch : Nat) (c : CopyCmd), s.nextCommand cl ch = some c → (cw c 0).getLsbD 59 = true →
    exec (.copyCommandStart cl ch) s = .next ((s.setCommand cl ch { c with started := true }).acquire (s.setCommand cl ch { c with started := true } |>.copyAccessor c) ((cw c 0).toNat / 2 ^ 55 % 8))) ∧
  (∀ (s : State) (cl ch : Nat) (c : CopyCmd) (b : Block) (blk off : Nat), Runs s cl ch c → s.block? c.block = some b → (cw c 0).toNat / 2 ^ 60 = 4 ∨ (cw c 0).toNat / 2 ^ 60 = 5 →
    c.moved = 0 → (cw c 0).toNat % 2 ^ 32 = 32 → (cw c 0).getLsbD 58 = false → s.locate b (cw c 2) 32 = .pad blk off →
    exec (.copyCommandComplete cl ch) s = .next (endsWith (s.storePad blk off (if (cw c 0).toNat / 2 ^ 60 = 4 then (List.replicate 4 (valueBytes 8 (cw c 3).toNat)).flatten else List.replicate 32 0))
      c 0 0 32 none)) ∧
  (∀ (s : State) (cl ch : Nat) (c : CopyCmd) (b : Block) (blk off n : Nat), Runs s cl ch c → s.nextCommand cl ch = none → s.block? c.block = some b → (cw c 0).toNat / 2 ^ 60 = 5 →
    (cw c 0).toNat % 2 ^ 32 = 32 * n → c.moved < n → s.locate b (cw c 2 + BitVec.ofNat 64 (32 * c.moved)) 32 = .pad blk off →
    exec (.copyCommandStart cl ch) s = .next ((s.storePad blk off (List.replicate 32 0)).setCommand cl ch { c with moved := c.moved + 1 })) ∧
  (∀ (s : State) (cl ch : Nat) (c : CopyCmd) (b : Block) (n : Nat), Runs s cl ch c → s.block? c.block = some b → (cw c 0).toNat / 2 ^ 60 = 4 ∨ (cw c 0).toNat / 2 ^ 60 = 5 →
    c.moved = 0 → (cw c 0).toNat % 2 ^ 32 = 32 * (n + 1) → s.locate b (cw c 2) 32 = .translated (cw c 2).toNat → s.translate c.asid (cw c 2).toNat .write c.level1 = none → c.walkFault = none →
    ∃ t, exec (.copyCommandComplete cl ch) s = .next t ∧ t = { s.setCommand cl ch c with walks := t.walks, ids := t.ids } ∧
      (s.walkerFull c.asid ((cw c 2).toNat / 4096) (dieOfCluster cl) = false → ∃ w ∈ t.walks, .copy cl ch c.id ∈ w.waiters ∧ w.asid = c.asid ∧ w.page = (cw c 2).toNat / 4096)) ∧
  (∀ (s : State) (cl ch : Nat) (c : CopyCmd) (b : Block) (n : Nat), Runs s cl ch c → s.block? c.block = some b → (cw c 0).toNat / 2 ^ 60 = 4 ∨ (cw c 0).toNat / 2 ^ 60 = 5 →
    c.moved = 0 → (cw c 0).toNat % 2 ^ 32 = 32 * (n + 1) → s.locate b (cw c 2) 32 = .nowhere → ∃ f, f.cause = 20 ∧
      exec (.copyCommandComplete cl ch) s = .next (endsWith (if (cw c 0).getLsbD 58 then s.release (s.copyAccessor c) ((cw c 0).toNat / 2 ^ 55 % 8) else s) c 5 0 0 (some f)))

/-- Streams (R315, R319): the oldest stream of a queue delivers the next 32 bytes of its source behind those that the queue holds, when the queue has room for them; of a sector that the stream begins or
ends within, its part. -/
def Sys2Proof.Stated.StreamDeliveries : Prop :=
  ∀ (s : State) (core sq ch blk off : Nat) (c : CopyCmd) (b : Block), s.delivering core sq = some (ch, c) → s.block? c.block = some b →
    let va := cw c 1 + BitVec.ofNat 64 c.moved
    let n := min (32 - va.toNat % 32) ((cw c 0).toNat % 2 ^ 32 - c.moved)
    s.locate b va n = .pad blk off → s.placePoison (.pad blk off) = none → ∃ t v, (s.load (s.copyAccessor c) (.pad blk off) n).2 = v ∧
      exec (.streamDelivery core sq) s = .next t ∧ t.streamBytes core sq = s.streamBytes core sq ++ (valueBytes n v).map (fun y => (c.id, y)) ∧ t.groups = s.groups ∧ t.mem = s.mem

/-- The system channel (R309, R428): a move, fill or zero of the manager on physical addresses writes each sector at its home and answers with the bytes moved; a record that is not one that the channel takes is refused
with ST 8, 10 or 11 and writes nothing; an address outside every range is answered with ST 12 (the model's choice). A copy engine under reset takes no command. -/
def Sys2Proof.Stated.SystemChannel : Prop :=
  ∀ (s : State) (cl : Nat) (w : List Word), let n := (wordAt w 0).toNat % 2 ^ 32
    let kind := (wordAt w 0).toNat / 2 ^ 60
    let dst := (wordAt w 2).toNat
    let src := (wordAt w 1).toNat
    let answer := fun (t : State) (v : Nat) => exec (.systemChannelCommand cl w) s = .next (t.setCluster { t.cluster cl with sysDone := (t.cluster cl).sysDone ++ [BitVec.ofNat 64 v] })
    s.copyDown cl = false →
    (systemRecordOk w = true → n = 32 → physOk dst = true → physOk (dst + 31) = true →
      (kind = 5 → answer (s.storeHome 0 dst (List.replicate 32 0)) 32) ∧
      (kind = 4 → answer (s.storeHome 0 dst (List.replicate 4 (valueBytes 8 (wordAt w 3).toNat)).flatten) 32) ∧
      (kind = 0 → physOk src = true → physOk (src + 31) = true → (s.poisoned src).isNone → answer (s.storeHome 0 dst (s.homeBytes 0 src 32)) 32)) ∧
    (systemRecordOk w = false → ∃ v, answer s v ∧ v / 2 ^ 60 ∈ [8, 10, 11]) ∧
    (systemRecordOk w = true → (physOk dst && physOk (dst + n - 1)) = false → answer s (12 * 2 ^ 60))

/-- Pre-emption (R197 to R200, R363): a running grid's contexts freeze and each of its groups receives cause 24 with the tag; the tasks and commands that need not complete go to the groups' replay lists;
at the deadlines those that are still under way follow; a grid that has ended is left alone, and one not confirmed stops at once and leaves the machine, its record kept, as soon as its arena is written.
What the rules leave open here is the model's own choice or reading: log entries 85 and 92. -/
def Obligations.Preemption : Prop :=
  (∀ (s : State) (n : Nat) (tag : Word), s.grid? n = none → exec (.preemptionRequest n tag) s = .next s) ∧
  (∀ (s : State) (k : Grid) (tag : Word), s.grid? k.id = some k → k.preempted = true ∨ k.stopped = true ∨ k.ended = true → exec (.preemptionRequest k.id tag) s = .next s) ∧
  (∀ (s : State) (k : Grid) (tag : Word), s.grid? k.id = some k → k.preempted = false → k.stopped = false → k.ended = false → k.predicted = false ∨ k.confirmed = true → (s.groups.map (·.id)).Nodup →
    ∃ t, exec (.preemptionRequest k.id tag) s = .next t ∧ t.grid? k.id = some { k with preempted := true } ∧ (∀ c ∈ t.ctxs, c.grid = k.id → c.frozen = true) ∧ t.mem = s.mem ∧
      (∃ x ∈ t.shelved, x.tag = tag ∧ x.asid = k.asid ∧ x.grid = k.id ∧ x.width = k.desc.width ∧ x.carve = k.desc.carve ∧ x.fused = k.desc.fused) ∧
      ∀ g ∈ s.groups, (s.blockOf g).grid = k.id → ∃ g', t.group? g.id = some g' ∧ g'.async = g.async ++ [{ cause := 24, tval := tag, tstat := 0, tlane := g.live }] ∧
        g'.sregs = g.sregs ∧ g'.vregs = g.vregs ∧ ∀ x ∈ (s.core g.core).tasks, x.group = g.id → ∃ e ∈ g'.replay, e.id = x.id ∧ e.record = x.record) ∧
  (∀ (s : State) (k : Grid) (tag : Word), s.grid? k.id = some k → k.preempted = false → k.stopped = false → k.ended = false → k.predicted = true → k.confirmed = false →
    ∃ t, exec (.preemptionRequest k.id tag) s = .next t ∧ (t.grid? k.id = some { k with stopped := true } ∨ ∀ y ∈ t.grids, y.id ≠ k.id) ∧
      (k.desc.abase = 0 → (∀ w ∈ s.walks, .grid k.id ∉ w.waiters) → (∀ y ∈ t.grids, y.id ≠ k.id) ∧ ∀ c ∈ t.ctxs, c.grid ≠ k.id)) ∧
  (∀ (s : State) (k : Grid), s.grid? k.id = some k → (s.groups.map (·.id)).Nodup →
    (s.tasksLeft k = true → ∃ t, exec (.preemptTaskDeadline k.id) s = .next t ∧ t.mem = s.mem ∧
      ∀ g ∈ s.groups, (s.blockOf g).grid = k.id → g.owesRte = true → g.trap.tmode = false → ∃ g', t.group? g.id = some g' ∧
        ∀ x ∈ (s.core g.core).allTasks, x.group = g.id → (∃ e ∈ g'.replay, e.id = x.id ∧ e.record = x.record) ∧ ∀ y ∈ (t.core g.core).allTasks, y.group ≠ g.id) ∧
    (s.commandsLeft k = true → ∃ t, exec (.preemptCopyDeadline k.id) s = .next t ∧ t.mem = s.mem ∧
      ∀ g ∈ s.groups, (s.blockOf g).grid = k.id → g.owesRte = true → g.trap.tmode = false → ∃ g', t.group? g.id = some g' ∧
        ∀ x ∈ s.commandsOf g, ∃ e ∈ g'.replay, e.id = x.id ∧ e.record = x.rewritten))

/-! ### Reset and the form of memory (R402, R414, R427, R433) -/

/-- The machine right after reset: nothing runs, no queue, context or partition exists, memory lists nothing; a cluster has STEP 16, DROOPTH 40, PAIRLIM 128 and CREC 0 (R402), a core's DBGCTL SMPJ 8, SMPLOG 12 and
TRLOG 12 (R414), a function's registers are zero (R433), and the boot has not run (R427).
What the rules leave open here is the model's own choice or reading: log entries 2 and 4. -/
def Obligations.ResetState : Prop :=
  State.reset.groups = [] ∧ State.reset.blocks = [] ∧ State.reset.grids = [] ∧ State.reset.queues = [] ∧ State.reset.contexts = [] ∧ State.reset.partitions = [] ∧
  State.reset.mem = [] ∧ Memory.wf State.reset.mem = true ∧ State.reset.boot = 0 ∧
  (∀ n, (State.reset.cluster n).step = 16 ∧ (State.reset.cluster n).droopth = 40 ∧ (State.reset.cluster n).pairlim = 128 ∧ (State.reset.cluster n).crec = 0) ∧
  (∀ n, (State.reset.core n).dbgctl.toNat / 2 ^ 37 % 64 = 8 ∧ (State.reset.core n).dbgctl.toNat / 2 ^ 32 % 32 = 12 ∧ (State.reset.core n).dbgctl.toNat / 2 ^ 27 % 32 = 12) ∧
  (∀ n, State.reset.func n = { num := n, rqbase := 0, en := false, log2 := 0, rqwidx := 0, rqridx := 0, err := false, flr := false, msix := [], blocked := false })

/-- Memory keeps its canonical form: whatever step the machine takes, the cells that memory lists stay in strictly rising order of address and none lists what an unlisted address reads as.
What the rules leave open here is the model's own choice or reading: log entry 2. -/
def Obligations.MemoryCanonical : Prop := ∀ s t : State, Memory.wf s.mem = true → step s = .next t → Memory.wf t.mem = true

namespace Sys2Proof.Stated

/-- The word completes and its unit goes on at the next word of its path, past a back edge where one is taken (R125, R167). -/
def goesOn (i : Instr) (s : State) (g : Group) (u : GUnit) : Prop := ∃ t, exec i s = .next t ∧ Stands t g.id (backEdge u)

/-- The word completes as `goesOn` says, and a scalar holds a value; `s0` holds none. -/
def goesOnWith (i : Instr) (s : State) (g : Group) (u : GUnit) (d : BitVec 5) (v : Word) : Prop :=
  ∃ t g', exec i s = .next t ∧ Stands t g.id (backEdge u) ∧ t.group? g.id = some g' ∧ g'.s d.toNat = if d = 0 then 0 else v

/-- The word completes as `goesOn` says, with a new tile operation in flight for its status register (R16, R249). -/
def goesOnTiling (i : Instr) (s : State) (g : Group) (u : GUnit) (d : BitVec 5) : Prop :=
  ∃ t, exec i s = .next t ∧ Stands t g.id (backEdge u) ∧ ∃ o ∈ t.tileOps, o.id = s.ids ∧ o.group = g.id ∧ o.sreg = d.toNat

/-- Every active lane of a vector access reaches its place, and what it reads can be read (R26, R113, R119 to R121). -/
def LanesReach (i : Instr) (s : State) (g : Group) (u : GUnit) (c : Access) (n : Nat) (addr : Group → GUnit → Nat → Word) : Prop :=
  u.unfinished = none ∧ ∃ pl : Nat → Place, ∀ l ∈ lanesOf (activeMask g u (predField i)), Reaches s g c n (addr g u l) (pl l) ∧ (c = .read → Readable s g (pl l))

/-- An atomic that the module or scratchpad performs and nothing faults or holds (R238 to R241, R261, R275). -/
structure Performs (s : State) (g : Group) (n : Nat) (va : Word) (o : BitVec 2) (k : BitVec 3) (pl : Place) : Prop where
  reach : Reaches s g .atomic n va pl
  near : placeOrd pl ≠ 2 ∧ atHost pl = false ∧ atDevice pl = false ∧ s.placePoison pl = none
  confirmed : (s.blockOf g).confirmed = true
  untiled : Untiled s g
  settled : o = 2 → k = 4 → NoneLost s g

end Sys2Proof.Stated

/-! ### Where every word completes (R95, R99, R113 to R118, R167, R236 to R246) -/

/-- Special functions and accesses complete: `vfrcp`, `vfrsq`, `vfsqrt`, `vfex2`, `vflg2`, `vfsin` and `vfcos` change only the destination in their active lanes; `sld`, `vld`, its
immediate form, `vldu`, `vprf`, `vld.acq` and `vst.rel`, the atomics `add`, `and`, `or`, `xor`, `min`, `max`, `xchg` and `cas`, `fence`, its `acq`, `rel` and `flush` forms, `evinc`,
`waita` on a word that differs from its operand, and `wakea` send their unit on wherever their addresses reach and nothing has to be waited for.
What the rules leave open here is the model's own choice or reading: log entries 21, 26, 31 and 72. -/
def Obligations.CompletingAccesses : Prop :=
  (∀ m p d a (t : BitVec 3) (i : Instr) (s : State) (g : Group) (u : GUnit),
    i = .vfrcp m p d a t ∨ i = .vfrsq m p d a t ∨ i = .vfsqrt m p d a t ∨ i = .vfex2 m p d a t ∨ i = .vflg2 m p d a t ∨ i = .vfsin m p d a t ∨ i = .vfcos m p d a t →
    Issues i s g u → FallsClear g u →
    ∃ t' g', exec i s = .next t' ∧ OnlyGroup g.id s t' ∧ t'.group? g.id = some g' ∧ OnlyLanes g g' d.toNat (typeRegs t.toNat) (activeMask g u p.toNat)) ∧
  ∀ (s : State) (g : Group) (u : GUnit) (m : BitVec 1) (p : BitVec 3) (f v : BitVec 6) (d a b : BitVec 5) (w k : BitVec 3) (o w2 : BitVec 2) (x un w1 : BitVec 1)
    (i8 : BitVec 8), MayFall g u u →
    (∀ pl, Issues (.sld m d a b w2 x o k) s g u → Reaches s g .read (2 ^ w2.toNat) (sumAddr g a b) pl → Readable s g pl → goesOn (.sld m d a b w2 x o k) s g u) ∧
    (Issues (.vld m p f v b w) s g u → LanesReach (.vld m p f v b w) s g u .read (byteCount w) (offsetAddr v b) → goesOn (.vld m p f v b w) s g u) ∧
    (Issues (.vldImm m p f a i8) s g u → LanesReach (.vldImm m p f a i8) s g u .read 4 (wordAddr a i8) → goesOn (.vldImm m p f a i8) s g u) ∧
    (Issues (.vldAcq m p f v b k) s g u → LanesReach (.vldAcq m p f v b k) s g u .read 4 (offsetAddr v b) → goesOn (.vldAcq m p f v b k) s g u) ∧
    (∀ pl, Issues (.vldu m p f b w) s g u → u.unfinished = none → Reaches s g .read (byteCount w) (g.s b.toNat) pl → Readable s g pl →
      goesOn (.vldu m p f b w) s g u) ∧
    (Issues (.vprf m p v b) s g u → goesOn (.vprf m p v b) s g u) ∧
    (Issues (.vstRel m p f v b k) s g u → LanesReach (.vstRel m p f v b k) s g u .write 4 (offsetAddr v b) → (s.blockOf g).confirmed = true → Untiled s g → NoneLost s g →
      goesOn (.vstRel m p f v b k) s g u) ∧
    (∀ i pl, i = .atomAdd m d a b w1 o k ∨ i = .atomAnd m d a b w1 o k ∨ i = .atomOr m d a b w1 o k ∨ i = .atomXor m d a b w1 o k ∨ i = .atomMin m d a b un w1 o k ∨
        i = .atomMax m d a b un w1 o k ∨ i = .atomXchg m d a b w1 o k ∨ i = .atomCas m d a b w1 o k →
      Issues i s g u → Performs s g (atomBytes w1) (g.s a.toNat) o k pl → goesOn i s g u) ∧
    (∀ i, i = .fence m k ∨ i = .fenceAcq m k ∨ i = .fenceRel m k ∨ (i = .fenceFlush m ∧ (s.blockOf g).timed = false) →
      Issues i s g u → Untiled s g → (s.blockOf g).confirmed = true → NoneLost s g → goesOn i s g u) ∧
    (∀ pl, Issues (.evinc m a b k) s g u → Performs s g 8 (g.s a.toNat) 2 k pl → goesOn (.evinc m a b k) s g u) ∧
    (∀ pl, Issues (.waita m d a b) s g u → u.region = none ∨ g.trap.tmode = true → va8 s g .read true (g.s a.toNat) pl → placeOrd pl ≠ 2 → s.placePoison pl = none →
      let x := BitVec.ofNat 64 ((s.expelPlace (s.accessor g) pl).homeValue pl 8)
      x ≠ g.s b.toNat → goesOnWith (.waita m d a b) s g u d x) ∧
    (∀ pl, Issues (.wakea m a) s g u → s.placeAt g .read 1 (g.s a.toNat) = .hit pl → s.transferAt g.id pl 1 = false → goesOn (.wakea m a) s g u)

/-- Words of tiles, scratchpad, queues and accumulators complete: `tld` and `tst` of a tile whose rows reach, `tcln`, `tinv` and `tdesc` put an operation in flight; `spalloc`, `spfree` and `spnext`
answer for all operands; `qbind` of a good binding; `qpush`, `qpop` and their `qtry` forms on a continuation queue, `vqpop` on a stream with enough bytes, `qstat` and `twait`; `acwin.set` of a group without tasks,
`acwin.claim` and `acwin.free`; `acrd`, `acwr` and `acclr` inside a good window; `spk24` of a format that it packs, and `cbld` from scratchpad.
What the rules leave open here is the model's own choice or reading: log entries 30, 31 and 62. -/
def Obligations.CompletingQueueWords : Prop :=
  ∀ (s : State) (g : Group) (u : GUnit) (m : BitVec 1) (p : BitVec 3) (f v w : BitVec 6) (d a b : BitVec 5) (k n h : BitVec 3) (o : BitVec 2) (q : BitVec 4), MayFall g u u →
    let blk := s.blockOf g
    let kind := (g.binding q.toNat).toNat / 2 ^ 60
    let cl := clusterOfCore g.core
    (∀ i load t pb po refs, (i = .tld m d a b k o ∧ load = true) ∨ (i = .tst m d a b k o ∧ load = false) → Issues i s g u → NamesTile s g a b t →
      RowsReach s g a t load pb po refs → blk.confirmed = true → NoneLost s g → goesOnTiling i s g u d) ∧
    (∀ i t, i = .tcln m d b k ∨ i = .tinv m d b k → Issues i s g u → blk.timed = false → s.nameTile blk.asid (g.s (b.toNat + 1)) (g.s b.toNat) = .inl t →
      goesOnTiling i s g u d) ∧
    (∀ x off, Issues (.tdesc m d a b) s g u → (g.s b.toNat).toNat % 64 = 0 → s.placeAt g .read 64 (g.s b.toNat) = .hit (.pad x off) → off % 64 = 0 → s.padPoison x = none →
      s.transferAt g.id (.pad x off) 64 = false → (s.block? x).isSome → goesOn (.tdesc m d a b) s g u) ∧
    (Issues (.spalloc m d a b) s g u → goesOn (.spalloc m d a b) s g u) ∧
    (Issues (.spfree m a b) s g u → s.transferAt g.id (.pad g.block (g.s a.toNat).toNat) (256 * (g.s b.toNat).toNat) = false → goesOn (.spfree m a b) s g u) ∧
    (Issues (.spnext m d a) s g u → goesOn (.spnext m d a) s g u) ∧
    (Issues (.qbind m q d) s g u → s.bindingOk g (g.s d.toNat) = true → kind ≠ 4 → goesOn (.qbind m q d) s g u) ∧
    (Issues (.qpush m q d n) s g u → kind = 3 → blk.confirmed = true → s.poolCount cl ((g.binding q.toNat).toNat / 256 % 8) < Config.poolEntries → Untiled s g →
      goesOn (.qpush m q d n) s g u) ∧
    (Issues (.qtryPush m q d n h) s g u → kind = 3 → Untiled s g → goesOn (.qtryPush m q d n h) s g u) ∧
    (Issues (.qpop m q d n) s g u → kind = 3 → s.nextCont cl ≠ none → goesOn (.qpop m q d n) s g u) ∧
    (Issues (.qtryPop m q d n h) s g u → kind = 3 → goesOn (.qtryPop m q d n h) s g u) ∧
    (Issues (.qstat m q d) s g u → goesOn (.qstat m q d) s g u) ∧
    (Issues (.twait m d) s g u → goesOn (.twait m d) s g u) ∧
    (Issues (.vqpop m p f q) s g u → activeMask g u p.toNat ≠ 0 → kind = 4 → 4 * g.width ≤ (s.streamBytes g.core ((g.binding q.toNat).toNat % 16)).length →
      goesOn (.vqpop m p f q) s g u) ∧
    (Issues (.acwinSet m d a b) s g u → (∀ x, (s.groupsOf blk.id).find? (fun x => decide (x.index = (g.s a.toNat).toNat)) = some x → ∀ t ∈ (s.core x.core).allTasks, t.group ≠ x.id) →
      goesOn (.acwinSet m d a b) s g u) ∧
    (Issues (.acwinClaim m d a) s g u → goesOn (.acwinClaim m d a) s g u) ∧
    (Issues (.acwinFree m d a) s g u → goesOn (.acwinFree m d a) s g u) ∧
    (∀ i, i = .acrd m p f b ∨ i = .acwr m p f b → Issues i s g u → (g.s b.toNat).toNat / 2 ^ 16 = 0 → (g.s b.toNat).toNat / 2 ^ 11 % 2 = 0 → WindowKept s blk g →
      (∀ l ∈ lanesOf (activeMask g u p.toNat), (laneCell (g.s b.toNat) l).1 < g.aclim.toNat - g.acbase.toNat ∧ ¬RowBusy s g (g.acbase.toNat + (laneCell (g.s b.toNat) l).1)) →
      (∃ x, s.block? blk.id = some x) → goesOn i s g u) ∧
    (let x := (g.s a.toNat).toNat
     Issues (.acclr m a) s g u → x / 2 ^ 27 = 0 → x / 2 ^ 11 % 2 ^ 5 = 0 → WindowKept s blk g → x % 2 ^ 11 + (x / 2 ^ 16 % 2 ^ 11 + 1) ≤ g.aclim.toNat - g.acbase.toNat →
      (∀ j, j < x / 2 ^ 16 % 2 ^ 11 + 1 → ¬RowBusy s g (g.acbase.toNat + x % 2 ^ 11 + j)) → goesOn (.acclr m a) s g u) ∧
    (Issues (.spk24 m p f v w) s g u → 4 ≤ fmtA u.fmt → fmtA u.fmt ≤ 9 → f ≠ w → goesOn (.spk24 m p f v w) s g u) ∧
    (∀ x off, Issues (.cbld m a) s g u → (g.s a.toNat).toNat % 64 = 0 → off % 32 = 0 → s.block? x.id = some x →
      (∀ j, j < 64 → s.placeAt g .read 32 (g.s a.toNat + BitVec.ofNat 64 (32 * j)) = .hit (.pad x.id (off + 32 * j)) ∧ s.transferAt g.id (.pad x.id (off + 32 * j)) 32 = false) →
      (∀ t ∈ (s.core g.core).allTasks, t.group ≠ g.id) → (s.context? blk.asid).isSome → goesOn (.cbld m a) s g u)

/-- Words of layers, completion, shapes, images and control registers complete: `lacq` of a resident layer, `lrel` of a held one, `lstat` and its `retry` form; `wdone` and `wdone.fail` without a join
counter, for every handle; `wsig`; `qrestart` of no queue, of one that is not in the error state, and of one that is; `shp.set`, `shp.get`, `shp.conf` in a confirmed block, `salloc`; `seqsv`, `fragsv`, `seqld` and `fragld` on scratchpad, `tmark`; `csrr`,
and `csrw` of each register without a check; `tsc` and `tsr`; the three hints; and `trap`, `brk` and `rte`, whose effect is the entry or the return.
What the rules leave open here is the model's own choice or reading: log entries 111 and 154. -/
def Obligations.CompletingControlWords : Prop :=
  ∀ (s : State) (g : Group) (u : GUnit) (m : BitVec 1) (d a b : BitVec 5) (c : BitVec 12) (e : BitVec 14),
    let blk := s.blockOf g
    (MayFall g u u →
      (∀ mdl n l, NamesLayer s g (g.s a.toNat) mdl n l →
        (Issues (.lacq m d a) s g u → blk.confirmed = true → (s.core g.core).watches.length < Config.watchEntries → (s.core g.core).watchQueue = [] → (s.readRes l).toNat / 2 ^ 61 = 3 →
          blk.holds.length < 16 → (s.readRes l).toNat / 2 ^ 40 % 2 ^ 16 < 2 ^ 16 - 1 → goesOnWith (.lacq m d a) s g u d (s.readRes l + (1 <<< 40))) ∧
        (Issues (.lrel m a) s g u → blk.confirmed = true → (∃ h ∈ blk.holds, h.1 = l.resWord) → Untiled s g → goesOn (.lrel m a) s g u) ∧
        (Issues (.lstat m d a) s g u → goesOnWith (.lstat m d a) s g u d (s.readRes l)) ∧
        (Issues (.lstatRetry m d a) s g u → goesOnWith (.lstatRetry m d a) s g u d (s.readRes l))) ∧
      (∀ i, i = .wdone m d a b ∨ i = .wdoneFail m d a b → Issues i s g u → blk.confirmed = true → s.outstanding g = 0 → Untiled s g → NoneLost s g → g.s b.toNat = 0 →
        goesOn i s g u) ∧
      (∀ pl, Issues (.wsig m a b) s g u → Signals s g (g.s a.toNat) pl → goesOn (.wsig m a b) s g u) ∧
      (let s1 := s.release (s.accessor g) 4
       Issues (.qrestart m d a) s g u → Untiled s g → NoneLost s g →
        (∀ q, (s.queues.find? fun q => decide (q.asid = blk.asid) && decide (q.descVa = g.s a.toNat)) = some q → q.state = 4 →
          (s1.descWord q 6).toNat = (s1.descWord q 3).toNat ∧ (s1.descWord q 3).toNat < s1.widx q ∧ s1.queue? q.qid = some q) → goesOn (.qrestart m d a) s g u) ∧
      (∀ pl, Issues (.shpSet m d a b) s g u → Signals s g (g.s a.toNat) pl → NoneLost s g → goesOn (.shpSet m d a b) s g u) ∧
      (∀ k, s.grid? blk.grid = some k →
        (Issues (.shpGet m d) s g u → goesOn (.shpGet m d) s g u) ∧
        (Issues (.shpConf m d) s g u → blk.confirmed = true → goesOnWith (.shpConf m d) s g u d k.k0) ∧
        (∀ leaf pa, Issues (.salloc m d a) s g u → k.desc.abase ≠ 0 → s.reach k.asid (sliceAddr k.desc blk.index) .atomic true k.walkFault = .found leaf pa →
          goesOn (.salloc m d a) s g u)) ∧
      (∀ x off, Issues (.seqsv m d a b) s g u → g.s b.toNat = 1 → ImageAt s g .write (g.s a.toNat) ((8 * (groupImage g).length + 63) / 64 * 64) x off →
        goesOn (.seqsv m d a b) s g u) ∧
      (∀ x off, Issues (.fragsv m d a) s g u → ImageAt s g .write (g.s a.toNat) (1280 + 256 * g.units.length + 128 * g.replay.length) x off → goesOn (.fragsv m d a) s g u) ∧
      (∀ x off, Issues (.seqld m d a b) s g u → g.s b.toNat = 1 → ImageAt s g .read (g.s a.toNat) 64 x off →
        let head := padWords x off 8
        fieldOf head 0 63 56 ≠ 1 ∨ ImageAt s g .read (g.s a.toNat) ((512 + 64 * fieldOf head 0 52 49 + 8 * fieldOf head 0 48 32 + 63) / 64 * 64) x off → goesOn (.seqld m d a b) s g u) ∧
      (∀ x off, Issues (.fragld m d a) s g u → ImageAt s g .read (g.s a.toNat) 64 x off →
        let head := padWords x off 8
        fieldOf head 0 63 56 ≠ 1 ∨ ImageAt s g .read (g.s a.toNat) (1280 + 256 * fieldOf head 0 55 50 + 128 * fieldOf head 0 49 44) x off → goesOn (.fragld m d a) s g u) ∧
      (Issues (.tmark m a) s g u → goesOn (.tmark m a) s g u) ∧
      (Issues (.csrr m d c) s g u → goesOnWith (.csrr m d c) s g u d (csrTable s g u c.toNat)) ∧
      (Issues (.csrw m a c) s g u → c.toNat ∈ [0x001, 0x002, 0x005, 0x006, 0x007, 0x100, 0x102, 0x103, 0x104, 0x108, 0x109, 0x10A, 0x10B, 0x10C] → goesOn (.csrw m a c) s g u) ∧
      (Issues (.tsc m d) s g u → goesOnWith (.tsc m d) s g u d (s.cluster (clusterOfCore g.core)).tsc) ∧
      (Issues (.tsr m d) s g u → goesOnWith (.tsr m d) s g u d s.tsr)) ∧
    (∀ i h, hintOf i = some h → Issues i s g u → ∃ t g' x, exec i s = .next t ∧ t.group? g.id = some g' ∧ x ∈ g'.active ∧ x.uid = u.uid ∧ x.pc = u.pc + 4 ∧ x.hint = some h) ∧
    (∀ i, (i = .trap m e ∨ i = .brk m) → Issues i s g u → g.trap.tmode = false → Apart g → s.atomics.any (fun x => decide (x.group = g.id)) = false →
      ∃ t g', exec i s = .next t ∧ t.group? g.id = some g' ∧ g'.trap.tmode = true ∧ g'.tpc = u.pc + 4 ∧ g'.trap.tcause = (if i = .brk m then 23 else 21) ∧
        g'.trap.tval = (if i = .brk m then 0 else e.setWidth 64)) ∧
    (Issues (.rte m) s g u → g.trap.tmode = true → g.replay = [] → Apart g → g.segment ≠ .none →
      ∃ t g', exec (.rte m) s = .next t ∧ t.group? g.id = some g' ∧ g'.trap.tmode = false ∧ g'.handler = none ∧ g'.sregs = g.sregs ∧ g'.vregs = g.vregs)

namespace Sys2Proof.Stated

/-- An event occurs: it answers a next state, of which something holds. -/
def occurs (e : Instr) (s : State) (holds : State → Prop) : Prop := ∃ t, exec e s = .next t ∧ holds t

/-- A request is carried out and its completion is recorded with code 0 (R430). -/
def carries (e : Instr) (s : State) (r : Request) : Prop := ∃ (s' : State) (result : Nat), exec e s = .next (s'.finish r 0 result)

/-- A request of function 0 or of the owner whose words hold only what its row names, with the slot that its rung answers in (R430, R435). -/
def ResetRequest (r : Request) (kind : Nat) (field : Word) : Prop :=
  Clean r (BitVec.ofNat 64 kind) field 0 0 0 0 ∧ r.w1 = BitVec.ofNat 64 kind ∧ ∃ pos, r.slot = some pos

end Sys2Proof.Stated

/-! ### Where every event completes (R34, R121 to R160, R188 to R200, R249, R295 to R319) -/

/-- Events of groups, sequencers and engines complete: the issue of a cycle; `SWITCH_UNPARK`, `INTERLOCK_REISSUE`, `TAKEN_SIDE_READY`, `QUEUE_STALL_RESUME`, `PARKED_REISSUE`; load and atomic completions; taking a record, emission, the combine of
a joint word, the release of a barrier; entries of asynchronous traps and context faults; watched writes, the 1 ms tick, the grant of a watch entry; retiring a block, `regroup`, the placer; starts and ends of matrix tasks and copy commands, stream deliveries;
tile transfers, maintenance and `tdesc`; pre-emption and its deadlines; samples, trace overflow and write-backs.
What the rules leave open here is the model's own choice or reading: log entries 30, 57 and 106. -/
def Obligations.CompletingGroupEvents : Prop :=
  (∀ (s : State) (core sched : Nat), sched < 4 → (s.core core).fenced = false → (s.cluster (clusterOfCore core)).fenced = false → (s.core core).packets = [] →
    (∃ g u, MayIssue s core sched g u) → occurs (.issueCycle core sched) s fun t => ∃ g u, t.sel = some (.unit g u)) ∧
  (∀ (s : State) (g : Group) (u : GUnit), s.group? g.id = some g → g.unit? u.uid = some u → (∀ w ∈ s.writes, w.group ≠ g.id) → (∀ x ∈ s.atomics, x.group ≠ g.id) →
    (∀ w ∈ s.walks, ∀ va, .unit g.id u.uid va ∉ w.waiters) → g.doubleFault = false →
    (u.wait = .switchPark → readies (.switchUnpark g.id u.uid) s g u) ∧ (u.wait = .hold → readies (.interlockReissue g.id u.uid) s g u) ∧
    (u.wait = .takenSide → readies (.takenSideReady g.id u.uid) s g u) ∧ (u.wait = .stall 4 → readies (.queueStallResume g.id u.uid) s g u) ∧
    (u.wait = .parked → readies (.parkedReissue g.id u.uid) s g u)) ∧
  (∀ (s : State) (w : PendingWrite) (g : Group), s.writes.find? (fun x => decide (x.id = w.id)) = some w → s.group? g.id = some g → w.group = g.id →
    occurs (if w.reply then .atomicReply w.id else .loadComplete w.id) s fun t => t.writes = s.writes.filter fun x => decide (x.id ≠ w.id)) ∧
  (∀ (s : State) (g : Group) (r : BitVec 512) (rest : List (BitVec 512)), WaitsFor s g r rest → r.extractLsb' 104 24 = g.nextSeq → recordOk r = true →
    (r.extractLsb' 62 2).toNat = 0 → occurs (.takeRecord (.group g.id)) s fun t => ∃ g', t.group? g.id = some g' ∧ g'.queue = rest ∧ g'.nextSeq = g.nextSeq + 1) ∧
  (∀ (s : State) (c : Ctx), s.ctx? c.id = some c → s.canScan c = true → s.lagging c = none → c.atEnd = true → c.start = c.pc →
    occurs (.emitSegment c.id) s fun t => t.ctx? c.id = some { c with state := .needRecord }) ∧
  (∀ (s : State) (c : Ctx) m d a k y pc v vs, s.ctx? c.id = some c → c.state = .atJoint → c.joint = some (.up m d a k y, pc) → c.frozen = false → s.ctxWalking c = false →
    codesOk c.hint c.scope 0 (.up m d a k y) = true → hintOk c.hint (.up m d a k y) = true → (∀ p ∈ c.parties, s.performed c p = true ∧ ∃ n, p = .group n) →
    c.got.map (·.1) ++ c.parties.filterMap (fun p => (s.sends (.up m d a k y) p).map (·.1)) = v :: vs → y.toNat ≠ 0 → c.backOk pc = true →
    occurs (.upCombine c.id) s fun t => ∃ c', t.ctx? c.id = some c' ∧ c'.state = .scanning ∧ c'.joint = none) ∧
  (∀ (s : State) (c : Ctx) i pc, s.ctx? c.id = some c → c.state = .atBar → c.joint = some (i, pc) → c.frozen = false → s.allCompleted c = true → c.backOk pc = true →
    occurs (.barrierRelease c.id) s fun t => ∃ c', t.ctx? c.id = some c' ∧ c'.state = .scanning) ∧
  (∀ (s : State) (c : Ctx) (g : Group) (u : GUnit) (rest : List GUnit) (i : TrapInfo), s.ctx? c.id = some c → c.fault = some i → c.reporter = none → s.reporterOf c = some g →
    s.group? g.id = some g → g.trap.tmode = false → g.units = u :: rest → Apart g → g.draining = none → (∀ x ∈ s.atomics, x.group ≠ g.id) → (∀ x ∈ g.units, x.hint = none) →
    i.cause < 256 → occurs (.upperContextFaultDelivery c.id) s fun t => ∃ g', t.group? g.id = some g' ∧ g'.trap.tmode = true) ∧
  (∀ (s : State) (g : Group) (u : GUnit) (rest : List GUnit) (i : TrapInfo), s.group? g.id = some g → g.trap.tmode = false → g.units = u :: rest → Apart g → g.draining = none →
    (∀ x ∈ s.atomics, x.group ≠ g.id) → (∀ x ∈ g.units, x.hint = none) → i ∈ g.async → i.cause = 26 →
    occurs (.asyncTrapEntry g.id) s fun t => ∃ g', t.group? g.id = some g' ∧ g'.trap.tmode = true) ∧
  (∀ (s : State) (sector : Nat), occurs (.watchedSectorWrite sector) s fun t => ∀ c ∈ t.cores, ∀ w ∈ c.watches, w.sector ≠ sector) ∧
  (∀ s : State, occurs .tick1ms s fun t => ∀ c ∈ t.cores, c.watches = []) ∧
  (∀ (s : State) (core : Nat) (g : Group) (u : GUnit) (rest : List (Nat × Nat)) r, (s.core core).watchQueue = (g.id, u.uid) :: rest →
    (s.core core).watches.length < Config.watchEntries → s.sel = none → s.group? g.id = some g → g.unit? u.uid = some u → u.wait = .watchEntry r →
    occurs (.watchEntryGrant core) s fun t => t.sel = some (.unit g.id u.uid)) ∧
  (∀ (s : State) (b : Block) (c : Ctx) sector target woken slot, s.block? b.id = some b → (s.ctxs.find? fun x => decide (x.scope = 2) && decide (x.block = b.id)) = some c →
    s.ctx? c.id = some c → c.state = .retiring sector target woken → c.parties = [] → s.mayRetire b c = some slot → (s.groups.map (·.id)).Nodup →
    occurs (.blockRetire b.id) s fun t => ∀ g ∈ t.groups, g.block ≠ b.id) ∧
  (∀ (s : State) (g : Group) (ps : List Group), s.group? g.id = some g → s.regroupParty g = some ps → (∀ x ∈ ps, s.group? x.id = some x ∧ Apart x) → (ps.map (·.id)).Nodup →
    (s.groups.map (·.id)).Nodup → (∀ w ∈ s.writes, ∀ x ∈ ps, w.group ≠ x.id) → g.width ≤ 32 → (∀ x ∈ ps, regroupKey x = regroupKey g) →
    (∀ x ∈ ps, ∀ u i v, x.regroupUnit = some (u, i, v) → u.region = none ∧ backOut x u = false) →
    occurs (.regroupComplete g.id) s fun t => ∀ (k : Nat) x v m d a w, ps[k]? = some x → x.regroupUnit = some (v, .regroup m d a, w) → ((liveLanes ps).drop (k * g.width)).take g.width = [] → t.group? x.id = none) ∧
  (∀ (s : State) (cl p : Nat) (q : Queue) (f : Fetched) (d : LaunchDesc), (s.cluster cl).pool = [(p, .launch q.qid f.pos none)] → s.queue? q.qid = some q →
    (q.records.find? fun r => decide (r.pos = f.pos)) = some f → f.desc = some d → (∀ k ∈ s.grids, ¬(k.qid = q.qid ∧ k.pos = f.pos)) → s.ctxFree cl = true →
    (wordAt f.record 0).getLsbD 57 = false → (∀ k ∈ s.grids, k.id < s.ids) → (∀ b ∈ s.blocks, b.grid < s.ids ∧ b.id < s.ids) →
    (∀ c ∈ s.ctxs, c.grid < s.ids ∧ c.block < s.ids ∧ c.id < s.ids) → (∀ x ∈ s.groups, x.id < s.ids ∧ x.block < s.ids) → (s.cluster cl).waiting = [] → d.nblk ≠ 0 → d.psel = 0 →
    occurs (.placerTakeEntry cl) s fun t => ∃ k, t.grid? s.ids = some k ∧ k.qid = q.qid ∧ k.pos = f.pos) ∧
  (∀ (s : State) (core e : Nat) (x : Task), s.nextTask core = some x → s.freeEngine core = some e →
    occurs (.matrixTaskStart core) s fun t => ∃ y, (t.core core).engines[e]? = some (some y) ∧ y.id = x.id) ∧
  (∀ (s : State) (core e : Nat) (x : Task) (b : Block) (g : Group), ((s.core core).engines[e]?).bind id = some x → s.block? x.block = some b → b.id = x.block →
    s.group? x.group = some g → g.block = b.id → b.state = .running → b.confirmed = true → e < 2 →
    occurs (.matrixTaskCommit core e) s fun t => (t.core core).engines[e]? = some none) ∧
  (∀ (s : State) (cl ch : Nat) (c : CopyCmd), s.nextCommand cl ch = some c → (cw c 0).getLsbD 59 = false →
    occurs (.copyCommandStart cl ch) s fun t => t = s.setCommand cl ch { c with started := true }) ∧
  (∀ (s : State) (cl ch : Nat) (c : CopyCmd) (b : Block) (blk off : Nat), Runs s cl ch c → s.block? c.block = some b → (cw c 0).toNat / 2 ^ 60 = 5 → c.moved = 0 →
    (cw c 0).toNat % 2 ^ 32 = 32 → (cw c 0).getLsbD 58 = false → s.locate b (cw c 2) 32 = .pad blk off →
    occurs (.copyCommandComplete cl ch) s fun t => t = endsWith (s.storePad blk off (List.replicate 32 0)) c 0 0 32 none) ∧
  (∀ (s : State) (core sq ch blk off : Nat) (c : CopyCmd) (b : Block), s.delivering core sq = some (ch, c) → s.block? c.block = some b →
    let va := cw c 1 + BitVec.ofNat 64 c.moved
    let n := min (32 - va.toNat % 32) ((cw c 0).toNat % 2 ^ 32 - c.moved)
    s.locate b va n = .pad blk off → s.placePoison (.pad blk off) = none →
    occurs (.streamDelivery core sq) s fun t => (t.streamBytes core sq).length = (s.streamBytes core sq).length + n) ∧
  (∀ (s : State) (o : TileOp) (g : Group), s.tileOps.find? (fun x => decide (x.id = o.id)) = some o → s.tileFree o = true → s.group? g.id = some g → o.group = g.id → o.sreg ≠ 0 →
    (s.blockOf g).confirmed = true →
    (∀ load pb po rows b, o.job = .transfer load none pb po rows → s.block? pb = some b → (∀ r, some r ∈ rows → s.poisoned r.pa = none) →
      occurs (.tileTransferComplete o.id) s fun t => t.tileOps = s.tileOps.filter fun x => decide (x.id ≠ o.id)) ∧
    (∀ inval k tid lines, o.job = .maintain inval k tid lines →
      occurs (.cacheMaintenanceComplete o.id) s fun t => t.tileOps = s.tileOps.filter fun x => decide (x.id ≠ o.id)) ∧
    (∀ e image x, o.job = .describe e image → s.context? (s.blockOf g).asid = some x →
      occurs (.tdescComplete o.id) s fun t => t.tileOps = s.tileOps.filter fun x => decide (x.id ≠ o.id))) ∧
  (∀ (s : State) (k : Grid) (tag : Word), s.grid? k.id = some k → k.preempted = false → k.stopped = false → k.ended = false → k.predicted = false ∨ k.confirmed = true →
    (s.groups.map (·.id)).Nodup → occurs (.preemptionRequest k.id tag) s fun t => t.grid? k.id = some { k with preempted := true }) ∧
  (∀ (s : State) (k : Grid), s.grid? k.id = some k → (s.groups.map (·.id)).Nodup →
    (s.tasksLeft k = true → occurs (.preemptTaskDeadline k.id) s fun t => t.mem = s.mem) ∧ (s.commandsLeft k = true → occurs (.preemptCopyDeadline k.id) s fun t => t.mem = s.mem)) ∧
  (∀ (s : State) (core sched : Nat), (s.core core).dbgctl.getLsbD 25 = true → sched < 4 → occurs (.samplingPoint core sched) s fun t => t.blocks = s.blocks) ∧
  (∀ (s : State) (core : Nat) (lost : Word) (r : State), (s.core core).packets = [] → (s.core core).ovfDue = some lost →
    s.tracePut core [BitVec.ofNat 64 (7 * 2 ^ 60 + lost.toNat % 2 ^ 32 * 2 ^ 18), 0] = .done r → occurs (.traceOvfWrite core) s fun t => (t.core core).ovfDue = none) ∧
  (∀ (s : State) (x : Sector), (s.cache.find? fun y => decide (y.core = x.core) && decide (y.asid = x.asid) && decide (y.tid = x.tid) && decide (y.vsec = x.vsec) &&
      decide (y.dirty ≠ 0) && decide (y.marked = none) && !s.heldLine y) = some x → s.cache.count x = 1 →
    occurs (.dirtySectorWriteBack x.core x.asid x.tid x.vsec) s fun t => x ∉ t.cache)

/-- Events of queues, layers, translation and the manager complete: `QUEUE_MAP`, `WAIT_PACKET_SATISFIED`, `FETCH_RECORD`, `POOL_PUSH`, `RETIREMENT`, `CONFIRMATION`, the starts and ends of layer fetches and evictions, `WALK_REQUEST`, `WALK_COMPLETE`,
`FAULT_RING_POLL`, the end of a rung, and every request of OP 1 to OP 10 on operands that its row admits.
What the rules leave open here is the model's own choice or reading: log entry 162. -/
def Obligations.CompletingManagerEvents : Prop :=
  (∀ (s : State) (q : Queue) (p : Partition), s.queue? q.qid = some q → s.rungs = [] → q.thread = none → q.state ≤ 2 → q.fetchedCount < (descOf s q 2).toNat →
    s.partition? q.partition = some p → p.clusters ≠ [] → p.clusters.headD 0 / 32 < 8 → (∀ y ∈ s.queues, y.thread ≠ some (p.clusters.headD 0 / 32, 0)) →
    occurs (.queueMap q.qid) s fun t => ∃ q', t.queue? q.qid = some q' ∧ q'.state = 2 ∧ q'.thread = some (p.clusters.headD 0 / 32, 0)) ∧
  (∀ (s : State) (q : Queue) d n x, s.queue? q.qid = some q → s.rungs = [] → q.thread = some (d, n) → n < 32 → (∀ y ∈ s.queues, y.thread = some (d, n) → y = q) → q ∈ s.queues →
    q.state = 1 → q.packet = some x → x.met = true → x.pos = none → occurs (.waitPacketSatisfied (32 * d + n)) s fun t => t = stateTo s { q with packet := none } 2 0) ∧
  (∀ (s : State) (q : Queue) r d, Fetches s q → s.readRecord q q.fetchedCount = .inr (r, d) → q.timed = false → (∀ f ∈ q.records, f.pos < q.fetchedCount) →
    occurs (.fetchRecord q.qid) s fun t => ∃ q', t.queue? q.qid = some q' ∧ q'.fetchedCount = q.fetchedCount + 1) ∧
  (∀ (s : State) (q : Queue) (p : Partition) (f : Fetched) (cl : Nat), s.queue? q.qid = some q → q.timed = false → q.state ≠ 5 → s.partition? q.partition = some p →
    (q.records.filter fun r => decide (r.status = none) && r.admittedOk && !r.pushed && !r.kept).head? = some f →
    (wordAt f.record 0).toNat / 2 ^ 46 % 256 ≠ 255 → p.clusters[(wordAt f.record 0).toNat / 2 ^ 46 % 256]? = some cl → (s.cluster cl).fenced = false →
    ((s.cluster cl).pool.filter fun e => decide (e.1 = (wordAt f.record 0).toNat / 2 ^ 54 % 8)).length < 256 →
    occurs (.poolPush q.qid) s fun t => (t.cluster cl).pool.length = (s.cluster cl).pool.length + 1) ∧
  (∀ (s : State) (q : Queue) (f : Fetched) (rest : List Fetched) (st : Nat) (p : Partition) (l k : Leaf), s.queue? q.qid = some q → q.records = f :: rest → f.status = some st →
    q.packet = none → st < 8 → (∀ w ∈ s.walks, .queue q.qid ∉ w.waiters) → s.partition? q.partition = some p → (∀ a ∈ p.admitted, a.qid ≠ q.qid) → q.state = 1 ∨ q.state = 2 →
    (wordAt f.record 0).toNat / 2 ^ 60 ≠ 1 → wordAt f.record 3 = 0 → (wordAt f.record 4).toNat % 8 = 0 → wordAt f.record 4 ≠ 0 →
    Touches s q (slotOf s q f.pos) .write l → Touches s q (wordAt f.record 4) .atomic k →
    let a := leafAddr l (slotOf s q f.pos).toNat
    Touches (s.storeHome l.key a [BitVec.ofNat 8 (bytesValue (s.homeBytes l.key a 1) % 16 + 16 * st)]) q (wordAt f.record 4) .atomic k →
    occurs (.retirement q.qid) s fun t => ∃ q', t.queue? q.qid = some q' ∧ ∀ x ∈ q'.records, x.pos ≠ f.pos) ∧
  (∀ (s : State) (k : Grid) (l : Leaf), s.grid? k.id = some k → s.awaitsCount k = true → s.walkNow k.asid k.desc.slot .read true = some l → l.ord ≠ 2 →
    (s.poisoned (leafAddr l k.desc.slot.toNat)).isNone → k.desc.slot.toNat / 4096 ∉ k.walkFault →
    let w := BitVec.ofNat 64 (bytesValue (s.homeBytes l.key (leafAddr l k.desc.slot.toNat) 8))
    w.getLsbD 63 = true → w.toNat / 2 ^ 32 % 2 ^ 31 = 0 → w.toNat % 2 ^ 32 ≤ k.desc.nblk → (∀ b ∈ s.blocks, b.grid = k.id → b.index < w.toNat % 2 ^ 32 ∧ b.state = .running) →
    k.next < min k.count (w.toNat % 2 ^ 32) → k.id < s.ids → occurs (.confirmation k.id) s fun t => ∃ k', t.grid? k.id = some k' ∧ k'.confirmed = true) ∧
  (∀ (s : State) (m : Model), s.model? m.id = some m →
    (∀ n l, m.fetching = none → s.layerIn m 1 = some (n, l) → l.pages ≤ m.pool.length → s.noWeights m l = false →
      occurs (.layerFetchStart m.id) s fun t => (t.model? m.id).bind (·.fetching) = some n) ∧
    (∀ n l err, m.fetching = some n → m.layers[n]? = some l → (∀ w ∈ s.walks, .layer m.id ∉ w.waiters) → err = 1 ∨ err = 2 ∨ err = 4 →
      occurs (.layerFetchEnd m.id (.failed err)) s fun t => (t.model? m.id).map (·.fetching) = some none) ∧
    (∀ n l, m.layers[n]? = some l → (s.readRes l).toNat / 2 ^ 61 = 2 →
      occurs (.evictionComplete m.id n) s fun t => (t.model? m.id).map (·.pool) = some (m.pool ++ l.frames))) ∧
  (∀ (s : State) (w : Walk), Walking s w 0 → (s.walks.filter fun x => decide (x.phase = 1) && decide (x.engine = w.engine)).length < 16 →
    occurs (.walkRequest w.id) s fun t => t = s.setWalk { w with phase := 1 }) ∧
  (∀ (s : State) (w : Walk) (l : Leaf), Walking s w 1 → (∀ x ∈ w.waiters, Plain x) → s.walkFor w.asid w.va.toNat w.access w.level1 = .leaf l →
    occurs (.walkComplete w.id) s fun t => ∀ x ∈ t.walks, x.id ≠ w.id) ∧
  (∀ (s : State) (w : Walk) (x : AddrSpace) (log g u : Nat) (va : Word) (rest : List Waiter), (s.walks.find? fun w => decide (w.asid = x.asid) && decide (w.phase = 2)) = some w →
    s.space? x.asid = some x → RingHasRoom s x log → w.waiters = .unit g u va :: rest → occurs (.faultRingPoll x.asid) s fun t => recorded s t x w log) ∧
  (∀ (s : State) (run : RungRun) (n : Nat), (s.rungs.find? fun r => decide (r.id = run.id)) = some run → run.queues = [] → run.requests = [] → run.rung = .fence (.page n) →
    occurs (.rungComplete run.id) s fun t => t = { s with rungs := s.rungs.filter fun r => decide (r.id ≠ run.id) }) ∧
  (∀ (s : State) (r : Request) (n : Nat), CreatesPartition s r n false → (takenClusters s r n).length = n → (∀ p ∈ s.partitions, p.creating = none) → s.partitions.length ≤ 256 →
    carries (.createPartition r) s r) ∧
  (∀ (s : State) (r : Request) (p : Partition), Clean r (field 47 16) (~~~0) 0 0 0 0 → s.partition? (r.w1.toNat / 2 ^ 32 % 2 ^ 16) = some p → p.fn = r.fn → p.creating = none →
    s.readableAt r.w2.toNat 64 = true → s.context? (r.w1.toNat / 2 ^ 16 % 2 ^ 16) = none → carries (.createContext r) s r) ∧
  (∀ (s : State) (r : Request) (x : Context), Clean r (field 47 16 ||| 1) 0 0 0 0 0 → r.w1.getLsbD 0 = true → s.context? (r.w1.toNat / 2 ^ 16 % 2 ^ 16) = some x → x.fn = r.fn →
    (∀ q ∈ s.queues, q.asid ≠ r.w1.toNat / 2 ^ 16 % 2 ^ 16) → carries (.destroyContext r) s r) ∧
  (∀ (s : State) (r : Request) x p l, Clean r (field 47 16) (~~~0) (field 39 0) 0 0 0 → Owns s r x p → x.partition = p.id → p.id = r.w1.toNat / 2 ^ 32 % 2 ^ 16 → r.w2.toNat % 64 = 0 →
    s.walkNow x.asid r.w2 .write true = some l → x.asid = r.w1.toNat / 2 ^ 16 % 2 ^ 16 → l.ord ≤ 1 → GoodDescriptor s l r.w2 false → p.timed = false →
    s.queue? ((descAt s l r.w2 1).toNat / 2 ^ 16 % 2 ^ 16) = none → carries (.createQueue r) s r) ∧
  (∀ (s : State) (r : Request) (q : Queue), Clean r (field 63 16 ||| 1) (~~~0) (field 39 0) 0 0 0 → r.w1.getLsbD 0 = true → s.queue? (r.w1.toNat / 2 ^ 48) = some q →
    q.qid = r.w1.toNat / 2 ^ 48 → q.fn = r.fn → q.asid = r.w1.toNat / 2 ^ 16 % 2 ^ 16 → q.partition = r.w1.toNat / 2 ^ 32 % 2 ^ 16 → q.records = [] → q.state ≠ 3 → q.state ≠ 5 →
    carries (.destroyQueue r) s r) ∧
  (∀ (s : State) (r : Request) (x : Context) (p : Partition), let bs := s.homeBytes 0 r.w2.toNat r.w3.toNat
    let ws := bytesWords (bs.length / 8) bs
    Clean r (field 31 16) (~~~0) (~~~0) 0 0 (~~~0) → s.context? (r.w1.toNat / 2 ^ 16 % 2 ^ 16) = some x → x.asid = r.w1.toNat / 2 ^ 16 % 2 ^ 16 → x.fn = r.fn →
    s.partition? x.partition = some p → s.readableAt r.w2.toNat r.w3.toNat = true → structureFault ws bs.length = none → s.hallmarkFault bs = none → s.assay x ws bs = none →
    ∃ (t : State) (code sect index : Nat), exec (.loadImage r) s = .next ((t.writeSlot r 6 (loadStatus code sect index)).finish r (if code = 0 then 0 else 6) 0)) ∧
  (∀ (s : State) (r : Request) (x : Context) (bs : List Byte) (ls : List Layer), let n := r.w1.toNat / 2 ^ 32 % 2 ^ 16
    let asid := r.w1.toNat / 2 ^ 16 % 2 ^ 16
    let nvme := r.w6.toNat / 2 ^ 32 % 2 ^ 16
    let entries := (List.range n).map fun i => (bytesWords 8 ((bs.drop (64 * i)).take 64), i)
    Clean r (field 55 16) (~~~0) (~~~0) (~~~0) (~~~0) (field 47 0) → s.context? asid = some x → x.fn = r.fn → 1 ≤ n → n ≤ 4096 → r.w3.toNat % 8 = 0 → r.w5.toNat % 4096 = 0 →
    r.w5.toNat + 4096 * (r.w6.toNat % 2 ^ 32) ≤ 2 ^ 41 → nvme ≤ 255 → (r.w4 = 0 ∨ s.readableAt r.w4.toNat (64 * nvme) = true) → s.readRange asid r.w2 (64 * n) = some bs →
    s.tableLayers asid r.w3 entries = some ls → (∀ e ∈ entries, layerEntryOk e.1 nvme = true) → weightsApart ls = true → carries (.registerModelContext r) s r) ∧
  (∀ (s : State) (r : Request) (x : AddrSpace), Clean r (field 31 16 ||| 1) 0 0 0 0 0 → r.w1.getLsbD 0 = true → s.space? (r.w1.toNat / 2 ^ 16 % 2 ^ 16) = some x →
    x.asid = r.w1.toNat / 2 ^ 16 % 2 ^ 16 → x.fn = r.fn → (∀ p ∈ s.ports, ∀ h ∈ p.held, h.asid ≠ x.asid) → carries (.invalidate r) s r) ∧
  (∀ (s : State) (r : Request) (x : AddrSpace) (w : Walk) g u va, s.space? (r.w1.toNat / 2 ^ 16 % 2 ^ 16) = some x → x.fn = r.fn →
    (s.walks.find? fun y => decide (y.asid = r.w1.toNat / 2 ^ 16 % 2 ^ 16 ∧ y.phase = 3 ∧ y.index = r.w2.toNat % 2 ^ 30)) = some w →
    (Clean r (field 31 16) (field 29 0) 0 0 0 0 → w.waiters = [.unit g u va] → carries (.faultReplyRetry r) s r) ∧
    (∀ h x, Clean r (field 31 16 ||| 1) (field 29 0) 0 0 0 0 → r.w1.getLsbD 0 = true → w.waiters = [.unit h.id x.uid va] → w.cls ≤ 2 → Parked s h x →
      carries (.faultReplyFail r) s r)) ∧
  (∀ (s : State) (r : Request) (q : Queue), r.w0.toNat % 2 ^ 56 = 0 → s.queue? (r.w1.toNat / 2 ^ 48) = some q → q.fn = r.fn →
    (Clean r (field 63 48) (~~~0) (~~~0) 0 0 0 → (∃ k ∈ s.grids, k.qid = q.qid ∧ k.pos = r.w2.toNat ∧ k.ended = false ∧ k.preempted = false) → carries (.preemptGrid r) s r) ∧
    (∀ f, Clean r (field 63 48 ||| 1) (~~~0) (~~~0) 0 0 0 → r.w1.getLsbD 0 = true → (q.records.find? fun y => decide (y.pos = r.w2.toNat)) = some f → f.status = none →
      f.kept = true → carries (.restoreGrid r) s r)) ∧
  (∀ (s : State) (r : Request), Clean r (field 32 32 ||| field 23 0) 0 0 0 0 0 → carries (.setStopall r) s r) ∧
  (∀ (s : State) (r : Request), s.rungs = [] →
    (∀ q, ResetRequest r 0 (field 15 0) → s.queue? r.w2.toNat = some q → q.fn = r.fn → q.qid = r.w2.toNat → (s.queues.filter fun y => decide (y.qid = q.qid)) = [q] →
      occurs (.resetQueue r) s fun t => runsFor t (.queue r.w2.toNat) r) ∧
    (ResetRequest r 1 (field 17 0) → occurs (.resetEngine r) s fun t => runsFor t (.engine r.w2.toNat) r) ∧
    (∀ p, ResetRequest r 2 (~~~0) → s.partition? r.w2.toNat = some p → p.fn = r.fn → occurs (.resetPartition r) s fun t => runsFor t (.partition r.w2.toNat) r) ∧
    (ResetRequest r 3 (~~~0) → r.fn = 0 → r.w2.toNat < 8 → occurs (.resetDie r) s fun t => runsFor t (.die r.w2.toNat) r) ∧
    (ResetRequest r 4 (~~~0) → r.w2.toNat ≤ 64 → r.fn = 0 ∨ r.fn = r.w2.toNat → (s.queues.map (·.qid)).Nodup →
      occurs (.functionLevelReset r) s fun t => runsFor t (.function r.w2.toNat) r)) ∧
  (∀ (s : State) (r : Request), Clean r 5 0 0 0 0 0 → r.w1 = 5 → r.fn = 0 → occurs (.wholeDeviceReset r) s fun t => t.groups = [] ∧ t.queues = [])

/-- Events of power, debug and the outside complete: `FLL_STEP`, the ends of a window, a stretch and half issue, `DROOP_TRIP`, `BELLOWS_SAMPLE`, the rack cap and its lease, watchdogs, debug halts; AtomicOp completions; the system channel; containment and boot;
writes and reads of host, devices and peers, page and translation requests, invalidation completions; flits, timeouts and retraining; register writes, provisioning, key loads; and accesses of system cores.
What the rules leave open here is the model's own choice or reading: log entries 104 and 163. -/
def Obligations.CompletingOutsideEvents : Prop :=
  (∀ (s : State) (cl : Nat), (∀ p ∈ s.partitions, p.creating = none) → occurs (.fllStep cl) s fun t => t.groups = s.groups ∧ t.mem = s.mem) ∧
  (∀ (s : State) (cl : Nat), occurs (.currentWindowEnd cl) s fun t => (t.cluster cl).window = 0) ∧
  (∀ (s : State) (cl b : Nat), let c := s.cluster cl
    (c.droop = .stretch → c.lastStretch = some b → c.tsc.toNat ≤ b + 6 → b + 6 < 2 ^ 64 → occurs (.stretchEnd cl) s fun t => (t.cluster cl).droop = .half) ∧
    (c.droop = .half → c.tsc.toNat ≤ c.halfFrom + 64 → c.halfFrom + 64 < 2 ^ 64 → occurs (.halfIssueEnd cl) s fun t => (t.cluster cl).droop = .none)) ∧
  (∀ (s : State) (cl mv : Nat), let c := s.cluster cl
    c.droopth ≠ 0 → c.droopth ≤ mv → c.droop = .none → c.lastStretch = none → occurs (.droopTrip cl mv) s fun t => (t.cluster cl).droop = .stretch) ∧
  (∀ (s : State) (die occupied capacity f : Nat), s.bellows[die]? = some f → occurs (.bellowsSample die occupied capacity) s fun t => t = { s with bellows := t.bellows }) ∧
  (∀ (s : State) (seq : BitVec 32) (cap : BitVec 16) (lease : BitVec 32), 1 ≤ (seq - s.caps.seq).toNat → (seq - s.caps.seq).toNat < 2 ^ 31 →
    occurs (.rackCapMessage seq cap lease) s fun t => t.caps.seq = seq ∧ t.caps.cap = cap.toNat) ∧
  (∀ (s : State) (e : Nat), s.caps.expiry = some e → occurs .capLeaseExpiry s fun t => t.caps.cap = s.caps.fbcap ∧ t.caps.expiry = none) ∧
  (∀ (s : State) (c : Ctx) (k : Grid) (p : Partition), s.ctx? c.id = some c → s.grid? c.grid = some k → s.partition? k.partition = some p → p.watchLimit ≠ 0 →
    p.watchLimit ≤ c.watchdog → occurs (.watchdogFire (.blockContext c.id)) s fun t => t.ctx? c.id = some { c with watchdog := 0 }) ∧
  (∀ (s : State) (pid : BitVec 24), pid ∈ s.stopall → occurs (.debugHalt pid) s fun t => t.mem = s.mem ∧ ∀ h ∈ t.harts, h.pid = pid → h.halted = true) ∧
  (∀ (s : State) (g : Group) (h : HostAtomic), s.atomics.find? (fun x => decide (x.id = h.id)) = some h → s.group? g.id = some g → h.group = g.id → g.draining = none →
    h.acq = none → occurs (.hostAtomicopCompletion h.id false) s fun t => t.atomics = s.atomics.filter fun x => decide (x.id ≠ h.id)) ∧
  (∀ (s : State) (cl : Nat) (w : List Word), s.copyDown cl = false → systemRecordOk w = true → (wordAt w 0).toNat % 2 ^ 32 = 32 → (wordAt w 0).toNat / 2 ^ 60 = 5 →
    physOk (wordAt w 2).toNat = true → physOk ((wordAt w 2).toNat + 31) = true →
    occurs (.systemChannelCommand cl w) s fun t => (t.cluster cl).sysDone = (s.cluster cl).sysDone ++ [32]) ∧
  (∀ (s : State) (n : Nat), occurs (.containment (.page n)) s fun t => FenceUnit.page n ∈ t.poison) ∧
  (∀ s : State, occurs .boot s fun t => t.groups = [] ∧ t.queues = [] ∧ t.boot ≤ 6) ∧
  (∀ (s : State) (addr : Nat) (data : List Byte) (relaxed : Bool), data ≠ [] → physOk addr = true → addr % 32 + data.length ≤ 32 →
    occurs (.hostPostedWrite .host addr data relaxed) s fun t => t = s.storeHome 0 addr data) ∧
  (∀ (s : State) (addr n : Nat), 1 ≤ n → addr % 32 + n ≤ 32 → physOk addr = true → (s.poisoned addr).isNone →
    occurs (.hostRead .host addr n) s fun t => t.replies.head? = some (addr, s.homeBytes 0 addr n)) ∧
  (∀ (s : State) (p : RootPort) (fn a : Nat) (cls : Nat) (va : Word) (l : Leaf), s.port? p.port = some p → p.default = some a →
    (va.toNat / 2 ^ 56 = 0 → s.walkerFull a (va.toNat / 4096) 0 = false → occurs (.pageRequest p.port none va cls) s fun t => ∃ w ∈ t.walks, .rootPort p.port ∈ w.waiters) ∧
    (fn ∈ p.ats → va.toNat / 2 ^ 56 ≠ 0xFF → s.walkNow a va (if cls = 1 then .write else .read) true = some l →
      occurs (.atsTranslationRequest ⟨p.port, fn⟩ none va cls) s fun t => ∃ q, t.port? p.port = some q ∧
        { asid := a, page := va.toNat / 4096, frame := l.frame / 4096, key := l.key : HeldTranslation } ∈ q.held)) ∧
  (∀ (s : State) (p : RootPort) (v : Invalidation), s.port? p.port = some p → (s.invals.find? fun x => decide (x.id = v.id)) = some v → p.port ∈ v.ports →
    (∃ n ∈ v.ports, n ≠ p.port) → occurs (.atsInvalidateCompletion p.port v.id) s fun t => t.mem = s.mem) ∧
  (∀ (s : State) (l : LinkPort), s.link? l.port = some l →
    (∀ addr n, l.down = false → 1 ≤ n → addr % 32 + n ≤ 32 → addr + n ≤ 2 ^ 41 → (s.poisoned addr).isNone →
      occurs (.peerAccess l.port addr n .read) s fun t => t.replies.head? = some (addr, s.homeBytes 0 addr n)) ∧
    (∀ seq, l.down = false → occurs (.flitReceive l.port seq) s fun t => (t.link? l.port).map (·.acked.head?) = some (some seq)) ∧
    (l.down = false → occurs (.flitReplayTimeout l.port) s fun t => t.mem = s.mem ∧ t.groups = s.groups) ∧
    (l.down = true → occurs (.linkPortRetrain l.port) s fun t => (t.link? l.port).map (·.down) = some false)) ∧
  (∀ (s : State) (fn : Nat) (v : Word), fn ≤ 64 → occurs (.rqwidxDoorbell fn v) s (fun t => t = s.setFunc { s.func fn with rqwidx := v }) ∧
    occurs (.fnstatWrite fn v) s (fun t => t = s.setFunc { s.func fn with err := (s.func fn).err && !v.getLsbD 2 }) ∧
    occurs (.rqcfgWrite fn v) s fun t => t = s.setFunc (t.func fn)) ∧
  (∀ (s : State) (v : Word), occurs (.registerWrite .fbcap v) s fun t => t = { s with caps := { s.caps with fbcap := v.toNat % 65536 } }) ∧
  (∀ (s : State) (m : ProvisionMsg) (k0 : PubKey), s.key? 0 = some k0 → 1 ≤ actionKey m.action → actionKey m.action ≤ 15 → ecdsaOk k0.x k0.y m.bytes m.sigR m.sigS = true →
    occurs (.provisioningMessage m) s fun t => t = { s with keys := t.keys }) ∧
  (∀ (s : State) (slot : Nat), slot < 512 → occurs (.keySlotLoad slot true) s fun t => ∀ e, (slot, e) ∉ t.keySlots) ∧
  (∀ (s : State) (h : Hart) (v : Word), s.hart? h.num = some h → h.halted = false →
    occurs (.systemCoreAccess h.num (.satp v)) s fun t => (t.hart? h.num).map (·.asid) = some (v.toNat / 2 ^ 44 % 2 ^ 16))

/-! ### Statements of several parts -/

/-- A step with nothing due runs exec of the fetched word (a due event first: log entry 3); a word placed after reset runs first (log entry 1). Its parts,
each with its docstring above: `StepRuns`, `PlacedWordRuns`.
What the rules leave open here is the model's own choice or reading: log entries 1 and 3. -/
def Obligations.StepRunsFetchedWord : Prop :=
  Sys2Proof.Stated.StepRuns ∧ Sys2Proof.Stated.PlacedWordRuns

/-- Each scalar word writes its result into its destination and changes nothing else. Its parts, each with its docstring above: `ScalarArithmetic`,
`ScalarLogic`, `ScalarMoves`.
What the rules leave open here is the model's own choice or reading: log entry 91. -/
def Obligations.ScalarWords : Prop :=
  Sys2Proof.Stated.ScalarArithmetic ∧ Sys2Proof.Stated.ScalarLogic ∧ Sys2Proof.Stated.ScalarMoves

/-- Each integer, shift, move and lane-to-scalar word gives active lanes its result and leaves all else. Its parts, each with its docstring above:
`LaneArithmetic`, `LaneShifts`, `LaneMoves`, `LaneScalarMoves`. -/
def Obligations.LaneWords : Prop :=
  Sys2Proof.Stated.LaneArithmetic ∧ Sys2Proof.Stated.LaneShifts ∧ Sys2Proof.Stated.LaneMoves ∧ Sys2Proof.Stated.LaneScalarMoves

/-- Every rounding mode chooses as the mode table says, and sums and products are exact before it. Its parts, each with its docstring above:
`RoundingModes`, `ExactArithmetic`. -/
def Obligations.ExactRounding : Prop :=
  Sys2Proof.Stated.RoundingModes ∧ Sys2Proof.Stated.ExactArithmetic

/-- Float words round the exact result once; vfset compares element by element. Its parts, each with its docstring above: `FloatArithmetic`,
`FloatCompare`.
What the rules leave open here is the model's own choice or reading: log entry 9. -/
def Obligations.FloatWords : Prop :=
  Sys2Proof.Stated.FloatArithmetic ∧ Sys2Proof.Stated.FloatCompare

/-- Conversion, quantisation, codebook and packing words, and where they raise the format fault. Its parts, each with its docstring above:
`ConversionResult`, `FormatFault`, `PackAndShapeLoad`.
What the rules leave open here is the model's own choice or reading: log entries 9 and 97. -/
def Obligations.ConversionWords : Prop :=
  Sys2Proof.Stated.ConversionResult ∧ Sys2Proof.Stated.FormatFault ∧ Sys2Proof.Stated.PackAndShapeLoad

/-- Where branches, calls, returns and loops of a unit go, and where they fault. Its parts, each with its docstring above: `UnitTransfers`, `UnitLoops`,
`UnitTransferFaults`.
What the rules leave open here is the model's own choice or reading: log entries 14 and 148. -/
def Obligations.UnitControl : Prop :=
  Sys2Proof.Stated.UnitTransfers ∧ Sys2Proof.Stated.UnitLoops ∧ Sys2Proof.Stated.UnitTransferFaults

/-- Lane branches split a unit by its condition; a mask region never splits. Its parts, each with its docstring above: `LaneBranches`, `MaskRegions`.
What the rules leave open here is the model's own choice or reading: log entries 14 and 168. -/
def Obligations.Divergence : Prop :=
  Sys2Proof.Stated.LaneBranches ∧ Sys2Proof.Stated.MaskRegions

/-- What faults or holds a word before its meaning, and that an empty active mask has no effect. Its parts, each with its docstring above: `CheckFaults`,
`RegisterStalls`, `EmptyMask`.
What the rules leave open here is the model's own choice or reading: log entries 7, 15 and 56. -/
def Obligations.IssueChecks : Prop :=
  Sys2Proof.Stated.CheckFaults ∧ Sys2Proof.Stated.RegisterStalls ∧ Sys2Proof.Stated.EmptyMask

/-- Taking a trap saves the unit and enters the handler; in trap mode it is a double fault; trap, brk and rte. Its parts, each with its docstring above:
`TrapEntry`, `DoubleFault`, `TrapWords`, `ReturnFromTrap`.
What the rules leave open here is the model's own choice or reading: log entries 75, 77, 81 and 83. -/
def Obligations.TrapTaking : Prop :=
  Sys2Proof.Stated.TrapEntry ∧ Sys2Proof.Stated.DoubleFault ∧ Sys2Proof.Stated.TrapWords ∧ Sys2Proof.Stated.ReturnFromTrap

/-- csrr reads and csrw writes the control registers. Its parts, each with its docstring above: `ControlRegisterRead`, `ControlRegisterWrite`.
What the rules leave open here is the model's own choice or reading: log entries 84, 153, 154 and 159. -/
def Obligations.ControlRegisters : Prop :=
  Sys2Proof.Stated.ControlRegisterRead ∧ Sys2Proof.Stated.ControlRegisterWrite

/-- Loads read the bytes at their address and write their destination, at once or on completion. Its parts, each with its docstring above: `LoadWords`,
`WriteCompletions`.
What the rules leave open here is the model's own choice or reading: log entries 26, 27 and 33. -/
def Obligations.Loads : Prop :=
  Sys2Proof.Stated.LoadWords ∧ Sys2Proof.Stated.WriteCompletions

/-- Stores write the low bytes of their source at their address and no other byte. Its parts, each with its docstring above: `StoreWords`, `StoredBytes`.
What the rules leave open here is the model's own choice or reading: log entries 26, 133 and 161. -/
def Obligations.Stores : Prop :=
  Sys2Proof.Stated.StoreWords ∧ Sys2Proof.Stated.StoredBytes

/-- Atomic words act at the home of their bytes in one action; outside the module by a PCIe AtomicOp. Its parts, each with its docstring above:
`AtomicWords`, `OutsideAtomics`.
What the rules leave open here is the model's own choice or reading: log entries 21 and 22. -/
def Obligations.Atomics : Prop :=
  Sys2Proof.Stated.AtomicWords ∧ Sys2Proof.Stated.OutsideAtomics

/-- Fences, releases and replacements bring written bytes to their home. Its parts, each with its docstring above: `Fences`, `DirtyReplacement`.
What the rules leave open here is the model's own choice or reading: log entries 32 and 72. -/
def Obligations.FencesAndWriteBack : Prop :=
  Sys2Proof.Stated.Fences ∧ Sys2Proof.Stated.DirtyReplacement

/-- Event counters, waits on a word, and what wakes a waiting unit. Its parts, each with its docstring above: `CountersAndWaits`, `WakeUps`.
What the rules leave open here is the model's own choice or reading: log entries 20 and 29. -/
def Obligations.WaitsAndWakeUps : Prop :=
  Sys2Proof.Stated.CountersAndWaits ∧ Sys2Proof.Stated.WakeUps

/-- Tile words and their completions, and pinned fallback scratchpad. Its parts, each with its docstring above: `TileWords`, `TileCompletions`,
`PinnedScratchpad`.
What the rules leave open here is the model's own choice or reading: log entries 30, 31 and 142. -/
def Obligations.TilesAndScratchpad : Prop :=
  Sys2Proof.Stated.TileWords ∧ Sys2Proof.Stated.TileCompletions ∧ Sys2Proof.Stated.PinnedScratchpad

/-- Layer words read and hold residency words; the fetch engine moves layers in and out. Its parts, each with its docstring above: `LayerWords`,
`LayerFetches`.
What the rules leave open here is the model's own choice or reading: log entries 40, 49, 50, 51, 52, 165 and 166. -/
def Obligations.Layers : Prop :=
  Sys2Proof.Stated.LayerWords ∧ Sys2Proof.Stated.LayerFetches

/-- Shape words read and set grid shapes; a count confirms a predicted grid. Its parts, each with its docstring above: `ShapeWords`, `Confirmations`.
What the rules leave open here is the model's own choice or reading: log entries 53, 114, 115 and 167. -/
def Obligations.Shapes : Prop :=
  Sys2Proof.Stated.ShapeWords ∧ Sys2Proof.Stated.Confirmations

/-- Who issues in a cycle, and how a waiting unit becomes ready again. Its parts, each with its docstring above: `IssueOrder`, `UnitsBecomeReady`.
What the rules leave open here is the model's own choice or reading: log entries 137 and 138. -/
def Obligations.IssueAndReadiness : Prop :=
  Sys2Proof.Stated.IssueOrder ∧ Sys2Proof.Stated.UnitsBecomeReady

/-- Droop sequences, frequencies, current windows, network clock and rack caps; watchdogs; stops, samples and trace packets. Its parts, each with its
docstring above: `DroopSequence`, `PowerControl`, `Watchdogs`, `DebugEvents`.
What the rules leave open here is the model's own choice or reading: log entries 4, 87, 88, 89, 139 and 140. -/
def Obligations.PowerAndClocks : Prop :=
  Sys2Proof.Stated.DroopSequence ∧ Sys2Proof.Stated.PowerControl ∧ Sys2Proof.Stated.Watchdogs ∧ Sys2Proof.Stated.DebugEvents

/-- Page walks, their faults and replies, invalidations, and requests of root-port devices. Its parts, each with its docstring above: `Walks`,
`TranslationRequests`, `RootPortRequests`.
What the rules leave open here is the model's own choice or reading: log entries 38, 41, 42, 43 and 44. -/
def Obligations.Translation : Prop :=
  Sys2Proof.Stated.Walks ∧ Sys2Proof.Stated.TranslationRequests ∧ Sys2Proof.Stated.RootPortRequests

/-- Requests that create and destroy partitions, contexts and queues; an image that fails a check is refused and logged, else mapped. Its parts, each with
its docstring above: `PartitionRequests`, `ContextRequests`, `QueueRequests`, `ImageLoads`.
What the rules leave open here is the model's own choice or reading: log entries 40, 46, 117, 119, 120, 129, 130, 131, 132 and 162. -/
def Obligations.ManagerObjects : Prop :=
  Sys2Proof.Stated.PartitionRequests ∧ Sys2Proof.Stated.ContextRequests ∧ Sys2Proof.Stated.QueueRequests ∧ Sys2Proof.Stated.ImageLoads

/-- Requests that register models, stop processes, pre-empt and restore grids. Its parts, each with its docstring above: `ModelAndDebugRequests`,
`GridRequests`.
What the rules leave open here is the model's own choice or reading: log entries 116, 131 and 132. -/
def Obligations.GridAndModelRequests : Prop :=
  Sys2Proof.Stated.ModelAndDebugRequests ∧ Sys2Proof.Stated.GridRequests

/-- Each rung of the reset ladder: what it resets, how it ends; failed memory stays poisoned, a failed core or cluster is fenced. Its parts, each with its
docstring above: `ResetRungs`, `RungEnds`, `Containment`.
What the rules leave open here is the model's own choice or reading: log entries 123, 124, 125, 126 and 127. -/
def Obligations.ResetLadder : Prop :=
  Sys2Proof.Stated.ResetRungs ∧ Sys2Proof.Stated.RungEnds ∧ Sys2Proof.Stated.Containment

/-- Writes of function, power, debug and key registers keep what their layouts say. Its parts, each with its docstring above: `FunctionRegisters`,
`PowerAndDebugRegisters`, `Keys`.
What the rules leave open here is the model's own choice or reading: log entries 90, 118 and 121. -/
def Obligations.DeviceRegisters : Prop :=
  Sys2Proof.Stated.FunctionRegisters ∧ Sys2Proof.Stated.PowerAndDebugRegisters ∧ Sys2Proof.Stated.Keys

/-- Accesses of host, peers and devices; flits, replays and retraining of link ports; system cores. Its parts, each with its docstring above:
`OutsideAccesses`, `LinkPorts`, `SystemCores`.
What the rules leave open here is the model's own choice or reading: log entries 39, 133, 134, 135, 136, 163 and 164. -/
def Obligations.OutsideTraffic : Prop :=
  Sys2Proof.Stated.OutsideAccesses ∧ Sys2Proof.Stated.LinkPorts ∧ Sys2Proof.Stated.SystemCores

/-- Queue threads map, fetch, push and retire records in order. Its parts, each with its docstring above: `QueueMapping`, `RecordFetch`, `PoolPushes`,
`Retirements`.
What the rules leave open here is the model's own choice or reading: log entries 106, 107, 108 and 109. -/
def Obligations.QueueThreads : Prop :=
  Sys2Proof.Stated.QueueMapping ∧ Sys2Proof.Stated.RecordFetch ∧ Sys2Proof.Stated.PoolPushes ∧ Sys2Proof.Stated.Retirements

/-- Contexts emit segment records, groups take them, and joint words combine. Its parts, each with its docstring above: `RecordTaking`, `Emissions`,
`JointWords`, `RegroupResult`.
What the rules leave open here is the model's own choice or reading: log entries 57, 60, 61 and 69. -/
def Obligations.SequencerRecords : Prop :=
  Sys2Proof.Stated.RecordTaking ∧ Sys2Proof.Stated.Emissions ∧ Sys2Proof.Stated.JointWords ∧ Sys2Proof.Stated.RegroupResult

/-- Matrix tasks start and commit; an integer element is the wrapped or clamped sum. Its parts, each with its docstring above: `MatrixTasks`,
`MatrixElements`.
What the rules leave open here is the model's own choice or reading: log entries 92 and 93. -/
def Obligations.MatrixEngine : Prop :=
  Sys2Proof.Stated.MatrixTasks ∧ Sys2Proof.Stated.MatrixElements

/-- Copy commands, streams and the system channel move the bytes that they name. Its parts, each with its docstring above: `CopyCommands`,
`StreamDeliveries`, `SystemChannel`.
What the rules leave open here is the model's own choice or reading: log entries 30, 99, 100 and 104. -/
def Obligations.CopyEngine : Prop :=
  Sys2Proof.Stated.CopyCommands ∧ Sys2Proof.Stated.StreamDeliveries ∧ Sys2Proof.Stated.SystemChannel
end

