-- ==== Sys2Proof/Laws/Sparse.lean ====
section
/-!
SUPPORT. Laws of sparse contents, of records kept in lists, and of little-endian bytes.
-/

namespace Sys2Proof.Machine

/-! ### Reads and writes of sparse contents -/

section
variable {α : Type}

theorem sget_sremove_same (d : α) (m : Sparse α) (k : Nat) : sget d (sremove m k) k = d := by
  induction m with
  | nil => rfl
  | cons x m ih => by_cases h : x.1 = k <;> simp [sremove, sget, h, ih]

theorem sget_sremove_other (d : α) (m : Sparse α) {k j : Nat} (h : j ≠ k) : sget d (sremove m k) j = sget d m j := by
  induction m with
  | nil => rfl
  | cons x m ih =>
    by_cases hx : x.1 = k
    · simp [sremove, sget, hx, ih, Ne.symm h]
    · simp [sremove, sget, hx, ih]

/-- Whether a key is listed. -/
def slists (m : Sparse α) (k : Nat) : Bool := m.any fun x => decide (x.1 = k)

theorem slists_sremove (m : Sparse α) (k : Nat) : slists (sremove m k) k = false := by
  induction m with
  | nil => rfl
  | cons x m ih =>
    by_cases h : x.1 = k
    · simpa only [sremove, h, if_true] using ih
    · simpa only [sremove, h, if_false, slists, List.any_cons, decide_false, Bool.false_or] using ih

theorem sget_sinsert_same (d : α) (m : Sparse α) (k : Nat) (v : α) (h : slists m k = false) : sget d (sinsert m k v) k = v := by
  induction m with
  | nil => simp [sinsert, sget]
  | cons x m ih =>
    simp only [slists, List.any_cons, Bool.or_eq_false_iff, decide_eq_false_iff_not] at h
    by_cases hx : k < x.1
    · simp [sinsert, sget, hx]
    · simp [sinsert, sget, hx, h.1, ih h.2]

theorem sget_sinsert_other (d : α) (m : Sparse α) {k j : Nat} (v : α) (h : j ≠ k) : sget d (sinsert m k v) j = sget d m j := by
  induction m with
  | nil => simp [sinsert, sget, Ne.symm h]
  | cons x m ih =>
    by_cases hx : k < x.1
    · simp [sinsert, sget, hx, Ne.symm h]
    · simp [sinsert, sget, hx, ih]

variable [DecidableEq α]

@[simp] theorem sget_sset_same (d : α) (m : Sparse α) (k : Nat) (v : α) : sget d (sset d m k v) k = v := by
  unfold sset
  split
  · next h => rw [sget_sremove_same, h]
  · exact sget_sinsert_same d _ k v (slists_sremove m k)

theorem sget_sset_other (d : α) (m : Sparse α) {k j : Nat} (v : α) (h : j ≠ k) : sget d (sset d m k v) j = sget d m j := by
  unfold sset
  split
  · exact sget_sremove_other d m h
  · rw [sget_sinsert_other d _ v h, sget_sremove_other d m h]

theorem sget_sset (d : α) (m : Sparse α) (k j : Nat) (v : α) : sget d (sset d m k v) j = if j = k then v else sget d m j := by
  split
  · next h => rw [h, sget_sset_same]
  · next h => exact sget_sset_other d m v h

/-! ### The canonical form -/

theorem swfFrom_mono (d : α) {lo lo' : Nat} (h : lo' ≤ lo) (m : Sparse α) (hm : swfFrom d lo m = true) : swfFrom d lo' m = true := by
  cases m with
  | nil => rfl
  | cons x m =>
    simp only [swfFrom, Bool.and_eq_true, decide_eq_true_eq] at hm ⊢
    exact ⟨by omega, hm.2⟩

theorem swfFrom_filter (d : α) (p : Nat × α → Bool) (lo : Nat) (m : Sparse α) (hm : swfFrom d lo m = true) :
    swfFrom d lo (m.filter p) = true := by
  induction m generalizing lo with
  | nil => rfl
  | cons x m ih =>
    simp only [swfFrom, Bool.and_eq_true, decide_eq_true_eq] at hm
    by_cases hp : p x
    · simp only [List.filter_cons, hp, if_true, swfFrom, Bool.and_eq_true, decide_eq_true_eq]
      exact ⟨hm.1, hm.2.1, ih _ hm.2.2⟩
    · simp only [List.filter_cons, hp]
      exact ih lo (swfFrom_mono d (by omega) m hm.2.2)

theorem swfFrom_sremove (d : α) (k lo : Nat) (m : Sparse α) (hm : swfFrom d lo m = true) : swfFrom d lo (sremove m k) = true := by
  induction m generalizing lo with
  | nil => rfl
  | cons x m ih =>
    simp only [swfFrom, Bool.and_eq_true, decide_eq_true_eq] at hm
    by_cases hx : x.1 = k
    · simp only [sremove, hx, if_true]
      exact ih lo (swfFrom_mono d (by omega) m hm.2.2)
    · simp only [sremove, hx, if_false, swfFrom, Bool.and_eq_true, decide_eq_true_eq]
      exact ⟨hm.1, hm.2.1, ih _ hm.2.2⟩

theorem swfFrom_sinsert (d : α) (k lo : Nat) (v : α) (m : Sparse α) (hm : swfFrom d lo m = true) (hv : v ≠ d) (hk : lo ≤ k)
    (h : slists m k = false) : swfFrom d lo (sinsert m k v) = true := by
  induction m generalizing lo with
  | nil => simp [sinsert, swfFrom, hv, hk]
  | cons x m ih =>
    simp only [swfFrom, Bool.and_eq_true, decide_eq_true_eq] at hm
    simp only [slists, List.any_cons, Bool.or_eq_false_iff, decide_eq_false_iff_not] at h
    by_cases hx : k < x.1
    · simp only [sinsert, hx, if_true, swfFrom, Bool.and_eq_true, decide_eq_true_eq]
      exact ⟨hk, hv, by omega, hm.2⟩
    · simp only [sinsert, hx, if_false, swfFrom, Bool.and_eq_true, decide_eq_true_eq]
      exact ⟨hm.1, hm.2.1, ih _ hm.2.2 (by omega) h.2⟩

/-- A write keeps the canonical form. -/
theorem swf_sset (d : α) (k : Nat) (v : α) (m : Sparse α) (hm : swf d m = true) : swf d (sset d m k v) = true := by
  unfold sset
  split
  · exact swfFrom_sremove d k 0 m hm
  · next hv => exact swfFrom_sinsert d k 0 v _ (swfFrom_sremove d k 0 m hm) hv (by omega) (slists_sremove m k)

/-- A filter keeps the canonical form. -/
theorem swf_filter (d : α) (p : Nat × α → Bool) (m : Sparse α) (hm : swf d m = true) : swf d (m.filter p) = true :=
  swfFrom_filter d p 0 m hm

theorem swf_sdrop (d : α) (p : Nat → Bool) (m : Sparse α) (hm : swf d m = true) : swf d (sdrop p m) = true := swf_filter d _ m hm

theorem swfFrom_sget_lt (d : α) (m : Sparse α) {lo j : Nat} (hm : swfFrom d lo m = true) (hj : j < lo) : sget d m j = d := by
  induction m generalizing lo with
  | nil => rfl
  | cons x m ih =>
    simp only [swfFrom, Bool.and_eq_true, decide_eq_true_eq] at hm
    simp only [sget, show x.1 ≠ j by omega, if_false]
    exact ih hm.2.2 (by omega)

/-- Canonical contents that read alike are equal. -/
theorem swf_ext (d : α) (m n : Sparse α) (hm : swf d m = true) (hn : swf d n = true) (h : ∀ k, sget d m k = sget d n k) : m = n := by
  suffices H : ∀ (m n : Sparse α) lo lo', swfFrom d lo m = true → swfFrom d lo' n = true → (∀ k, sget d m k = sget d n k) → m = n from
    H m n 0 0 hm hn h
  intro m
  induction m with
  | nil =>
    intro n lo lo' _ hn h
    cases n with
    | nil => rfl
    | cons y n =>
      simp only [swfFrom, Bool.and_eq_true, decide_eq_true_eq] at hn
      exact absurd (h y.1).symm (by simpa [sget] using hn.2.1)
  | cons x m ih =>
    intro n lo lo' hm hn h
    cases n with
    | nil =>
      simp only [swfFrom, Bool.and_eq_true, decide_eq_true_eq] at hm
      exact absurd (h x.1) (by simpa [sget] using hm.2.1)
    | cons y n =>
      simp only [swfFrom, Bool.and_eq_true, decide_eq_true_eq] at hm hn
      have hk : x.1 = y.1 := by
        rcases Nat.lt_trichotomy x.1 y.1 with hlt | heq | hgt
        · have := h x.1
          rw [show sget d (y :: n) x.1 = d from by
            simp only [sget, show y.1 ≠ x.1 by omega, if_false]
            exact swfFrom_sget_lt d n hn.2.2 (by omega)] at this
          exact absurd this (by simpa [sget] using hm.2.1)
        · exact heq
        · have := h y.1
          rw [show sget d (x :: m) y.1 = d from by
            simp only [sget, show x.1 ≠ y.1 by omega, if_false]
            exact swfFrom_sget_lt d m hm.2.2 (by omega)] at this
          exact absurd this.symm (by simpa [sget] using hn.2.1)
      have hv : x.2 = y.2 := by simpa [sget, hk] using h x.1
      have hrest : m = n := ih n (x.1 + 1) (y.1 + 1) hm.2.2 hn.2.2 fun k => by
        by_cases hkx : k = x.1
        · rw [swfFrom_sget_lt d m hm.2.2 (by omega), swfFrom_sget_lt d n hn.2.2 (by omega)]
        · have := h k
          simpa [sget, Ne.symm hkx, show y.1 ≠ k from fun e => hkx (by omega)] using this
      rw [hrest, show x = y from Prod.ext hk hv]

end

/-! ### Records kept in a list by their number -/

section
variable {α : Type} (key : α → Nat)

theorem find?_upsert_same (x : α) (l : List α) : (upsert key x l).find? (fun y => decide (key y = key x)) = some x := by
  induction l with
  | nil => simp [upsert]
  | cons y l ih =>
    by_cases h : key y = key x
    · simp [upsert, h]
    · simp [upsert, h, ih]

theorem find?_upsert_other (x : α) (l : List α) {n : Nat} (h : n ≠ key x) :
    (upsert key x l).find? (fun y => decide (key y = n)) = l.find? fun y => decide (key y = n) := by
  induction l with
  | nil => simp [upsert, Ne.symm h]
  | cons y l ih =>
    by_cases hy : key y = key x
    · simp [upsert, hy, Ne.symm h]
    · simp only [upsert, hy, if_false, List.find?_cons, ih]

end

end Sys2Proof.Machine
end

