-- ==== Sys2Proof/Laws/State.lean ====
section
/-!
SUPPORT. What each named update of the state and of a group changes and leaves: one lemma per field per update.
-/

namespace Sys2Proof.Machine

/-! ### `State.setGroup` -/

@[simp] theorem State.setGroup_due (s : State) (x : Group) : (s.setGroup x).due = s.due := rfl
@[simp] theorem State.setGroup_sel (s : State) (x : Group) : (s.setGroup x).sel = s.sel := rfl
@[simp] theorem State.setGroup_draws (s : State) (x : Group) : (s.setGroup x).draws = s.draws := rfl
@[simp] theorem State.setGroup_steps (s : State) (x : Group) : (s.setGroup x).steps = s.steps := rfl
@[simp] theorem State.setGroup_ids (s : State) (x : Group) : (s.setGroup x).ids = s.ids := rfl
@[simp] theorem State.setGroup_tsr (s : State) (x : Group) : (s.setGroup x).tsr = s.tsr := rfl
@[simp] theorem State.setGroup_mem (s : State) (x : Group) : (s.setGroup x).mem = s.mem := rfl
@[simp] theorem State.setGroup_sectorKeys (s : State) (x : Group) : (s.setGroup x).sectorKeys = s.sectorKeys := rfl
@[simp] theorem State.setGroup_lost (s : State) (x : Group) : (s.setGroup x).lost = s.lost := rfl
@[simp] theorem State.setGroup_keySlots (s : State) (x : Group) : (s.setGroup x).keySlots = s.keySlots := rfl
@[simp] theorem State.setGroup_poison (s : State) (x : Group) : (s.setGroup x).poison = s.poison := rfl
@[simp] theorem State.setGroup_unsettled (s : State) (x : Group) : (s.setGroup x).unsettled = s.unsettled := rfl
@[simp] theorem State.setGroup_cache (s : State) (x : Group) : (s.setGroup x).cache = s.cache := rfl
@[simp] theorem State.setGroup_tlb (s : State) (x : Group) : (s.setGroup x).tlb = s.tlb := rfl
@[simp] theorem State.setGroup_mapped (s : State) (x : Group) : (s.setGroup x).mapped = s.mapped := rfl
@[simp] theorem State.setGroup_walks (s : State) (x : Group) : (s.setGroup x).walks = s.walks := rfl
@[simp] theorem State.setGroup_spaces (s : State) (x : Group) : (s.setGroup x).spaces = s.spaces := rfl
@[simp] theorem State.setGroup_spaceBase (s : State) (x : Group) : (s.setGroup x).spaceBase = s.spaceBase := rfl
@[simp] theorem State.setGroup_contexts (s : State) (x : Group) : (s.setGroup x).contexts = s.contexts := rfl
@[simp] theorem State.setGroup_partitions (s : State) (x : Group) : (s.setGroup x).partitions = s.partitions := rfl
@[simp] theorem State.setGroup_queues (s : State) (x : Group) : (s.setGroup x).queues = s.queues := rfl
@[simp] theorem State.setGroup_grids (s : State) (x : Group) : (s.setGroup x).grids = s.grids := rfl
@[simp] theorem State.setGroup_ctxs (s : State) (x : Group) : (s.setGroup x).ctxs = s.ctxs := rfl
@[simp] theorem State.setGroup_blocks (s : State) (x : Group) : (s.setGroup x).blocks = s.blocks := rfl
@[simp] theorem State.setGroup_groups (s : State) (x : Group) : (s.setGroup x).groups = upsert Group.id x s.groups := rfl
@[simp] theorem State.setGroup_clusters (s : State) (x : Group) : (s.setGroup x).clusters = s.clusters := rfl
@[simp] theorem State.setGroup_cores (s : State) (x : Group) : (s.setGroup x).cores = s.cores := rfl
@[simp] theorem State.setGroup_writes (s : State) (x : Group) : (s.setGroup x).writes = s.writes := rfl
@[simp] theorem State.setGroup_atomics (s : State) (x : Group) : (s.setGroup x).atomics = s.atomics := rfl
@[simp] theorem State.setGroup_tileOps (s : State) (x : Group) : (s.setGroup x).tileOps = s.tileOps := rfl
@[simp] theorem State.setGroup_models (s : State) (x : Group) : (s.setGroup x).models = s.models := rfl
@[simp] theorem State.setGroup_predictors (s : State) (x : Group) : (s.setGroup x).predictors = s.predictors := rfl
@[simp] theorem State.setGroup_funcs (s : State) (x : Group) : (s.setGroup x).funcs = s.funcs := rfl
@[simp] theorem State.setGroup_keys (s : State) (x : Group) : (s.setGroup x).keys = s.keys := rfl
@[simp] theorem State.setGroup_slots (s : State) (x : Group) : (s.setGroup x).slots = s.slots := rfl
@[simp] theorem State.setGroup_log (s : State) (x : Group) : (s.setGroup x).log = s.log := rfl
@[simp] theorem State.setGroup_rungs (s : State) (x : Group) : (s.setGroup x).rungs = s.rungs := rfl
@[simp] theorem State.setGroup_links (s : State) (x : Group) : (s.setGroup x).links = s.links := rfl
@[simp] theorem State.setGroup_harts (s : State) (x : Group) : (s.setGroup x).harts = s.harts := rfl
@[simp] theorem State.setGroup_ports (s : State) (x : Group) : (s.setGroup x).ports = s.ports := rfl
@[simp] theorem State.setGroup_invals (s : State) (x : Group) : (s.setGroup x).invals = s.invals := rfl
@[simp] theorem State.setGroup_stopall (s : State) (x : Group) : (s.setGroup x).stopall = s.stopall := rfl
@[simp] theorem State.setGroup_caps (s : State) (x : Group) : (s.setGroup x).caps = s.caps := rfl
@[simp] theorem State.setGroup_bellows (s : State) (x : Group) : (s.setGroup x).bellows = s.bellows := rfl
@[simp] theorem State.setGroup_boot (s : State) (x : Group) : (s.setGroup x).boot = s.boot := rfl
@[simp] theorem State.setGroup_logs (s : State) (x : Group) : (s.setGroup x).logs = s.logs := rfl
@[simp] theorem State.setGroup_shelved (s : State) (x : Group) : (s.setGroup x).shelved = s.shelved := rfl
@[simp] theorem State.setGroup_replies (s : State) (x : Group) : (s.setGroup x).replies = s.replies := rfl

/-! ### `State.setBlock` -/

@[simp] theorem State.setBlock_due (s : State) (x : Block) : (s.setBlock x).due = s.due := rfl
@[simp] theorem State.setBlock_sel (s : State) (x : Block) : (s.setBlock x).sel = s.sel := rfl
@[simp] theorem State.setBlock_draws (s : State) (x : Block) : (s.setBlock x).draws = s.draws := rfl
@[simp] theorem State.setBlock_steps (s : State) (x : Block) : (s.setBlock x).steps = s.steps := rfl
@[simp] theorem State.setBlock_ids (s : State) (x : Block) : (s.setBlock x).ids = s.ids := rfl
@[simp] theorem State.setBlock_tsr (s : State) (x : Block) : (s.setBlock x).tsr = s.tsr := rfl
@[simp] theorem State.setBlock_mem (s : State) (x : Block) : (s.setBlock x).mem = s.mem := rfl
@[simp] theorem State.setBlock_sectorKeys (s : State) (x : Block) : (s.setBlock x).sectorKeys = s.sectorKeys := rfl
@[simp] theorem State.setBlock_lost (s : State) (x : Block) : (s.setBlock x).lost = s.lost := rfl
@[simp] theorem State.setBlock_keySlots (s : State) (x : Block) : (s.setBlock x).keySlots = s.keySlots := rfl
@[simp] theorem State.setBlock_poison (s : State) (x : Block) : (s.setBlock x).poison = s.poison := rfl
@[simp] theorem State.setBlock_unsettled (s : State) (x : Block) : (s.setBlock x).unsettled = s.unsettled := rfl
@[simp] theorem State.setBlock_cache (s : State) (x : Block) : (s.setBlock x).cache = s.cache := rfl
@[simp] theorem State.setBlock_tlb (s : State) (x : Block) : (s.setBlock x).tlb = s.tlb := rfl
@[simp] theorem State.setBlock_mapped (s : State) (x : Block) : (s.setBlock x).mapped = s.mapped := rfl
@[simp] theorem State.setBlock_walks (s : State) (x : Block) : (s.setBlock x).walks = s.walks := rfl
@[simp] theorem State.setBlock_spaces (s : State) (x : Block) : (s.setBlock x).spaces = s.spaces := rfl
@[simp] theorem State.setBlock_spaceBase (s : State) (x : Block) : (s.setBlock x).spaceBase = s.spaceBase := rfl
@[simp] theorem State.setBlock_contexts (s : State) (x : Block) : (s.setBlock x).contexts = s.contexts := rfl
@[simp] theorem State.setBlock_partitions (s : State) (x : Block) : (s.setBlock x).partitions = s.partitions := rfl
@[simp] theorem State.setBlock_queues (s : State) (x : Block) : (s.setBlock x).queues = s.queues := rfl
@[simp] theorem State.setBlock_grids (s : State) (x : Block) : (s.setBlock x).grids = s.grids := rfl
@[simp] theorem State.setBlock_ctxs (s : State) (x : Block) : (s.setBlock x).ctxs = s.ctxs := rfl
@[simp] theorem State.setBlock_blocks (s : State) (x : Block) : (s.setBlock x).blocks = upsert Block.id x s.blocks := rfl
@[simp] theorem State.setBlock_groups (s : State) (x : Block) : (s.setBlock x).groups = s.groups := rfl
@[simp] theorem State.setBlock_clusters (s : State) (x : Block) : (s.setBlock x).clusters = s.clusters := rfl
@[simp] theorem State.setBlock_cores (s : State) (x : Block) : (s.setBlock x).cores = s.cores := rfl
@[simp] theorem State.setBlock_writes (s : State) (x : Block) : (s.setBlock x).writes = s.writes := rfl
@[simp] theorem State.setBlock_atomics (s : State) (x : Block) : (s.setBlock x).atomics = s.atomics := rfl
@[simp] theorem State.setBlock_tileOps (s : State) (x : Block) : (s.setBlock x).tileOps = s.tileOps := rfl
@[simp] theorem State.setBlock_models (s : State) (x : Block) : (s.setBlock x).models = s.models := rfl
@[simp] theorem State.setBlock_predictors (s : State) (x : Block) : (s.setBlock x).predictors = s.predictors := rfl
@[simp] theorem State.setBlock_funcs (s : State) (x : Block) : (s.setBlock x).funcs = s.funcs := rfl
@[simp] theorem State.setBlock_keys (s : State) (x : Block) : (s.setBlock x).keys = s.keys := rfl
@[simp] theorem State.setBlock_slots (s : State) (x : Block) : (s.setBlock x).slots = s.slots := rfl
@[simp] theorem State.setBlock_log (s : State) (x : Block) : (s.setBlock x).log = s.log := rfl
@[simp] theorem State.setBlock_rungs (s : State) (x : Block) : (s.setBlock x).rungs = s.rungs := rfl
@[simp] theorem State.setBlock_links (s : State) (x : Block) : (s.setBlock x).links = s.links := rfl
@[simp] theorem State.setBlock_harts (s : State) (x : Block) : (s.setBlock x).harts = s.harts := rfl
@[simp] theorem State.setBlock_ports (s : State) (x : Block) : (s.setBlock x).ports = s.ports := rfl
@[simp] theorem State.setBlock_invals (s : State) (x : Block) : (s.setBlock x).invals = s.invals := rfl
@[simp] theorem State.setBlock_stopall (s : State) (x : Block) : (s.setBlock x).stopall = s.stopall := rfl
@[simp] theorem State.setBlock_caps (s : State) (x : Block) : (s.setBlock x).caps = s.caps := rfl
@[simp] theorem State.setBlock_bellows (s : State) (x : Block) : (s.setBlock x).bellows = s.bellows := rfl
@[simp] theorem State.setBlock_boot (s : State) (x : Block) : (s.setBlock x).boot = s.boot := rfl
@[simp] theorem State.setBlock_logs (s : State) (x : Block) : (s.setBlock x).logs = s.logs := rfl
@[simp] theorem State.setBlock_shelved (s : State) (x : Block) : (s.setBlock x).shelved = s.shelved := rfl
@[simp] theorem State.setBlock_replies (s : State) (x : Block) : (s.setBlock x).replies = s.replies := rfl

/-! ### `State.setGrid` -/

@[simp] theorem State.setGrid_due (s : State) (x : Grid) : (s.setGrid x).due = s.due := rfl
@[simp] theorem State.setGrid_sel (s : State) (x : Grid) : (s.setGrid x).sel = s.sel := rfl
@[simp] theorem State.setGrid_draws (s : State) (x : Grid) : (s.setGrid x).draws = s.draws := rfl
@[simp] theorem State.setGrid_steps (s : State) (x : Grid) : (s.setGrid x).steps = s.steps := rfl
@[simp] theorem State.setGrid_ids (s : State) (x : Grid) : (s.setGrid x).ids = s.ids := rfl
@[simp] theorem State.setGrid_tsr (s : State) (x : Grid) : (s.setGrid x).tsr = s.tsr := rfl
@[simp] theorem State.setGrid_mem (s : State) (x : Grid) : (s.setGrid x).mem = s.mem := rfl
@[simp] theorem State.setGrid_sectorKeys (s : State) (x : Grid) : (s.setGrid x).sectorKeys = s.sectorKeys := rfl
@[simp] theorem State.setGrid_lost (s : State) (x : Grid) : (s.setGrid x).lost = s.lost := rfl
@[simp] theorem State.setGrid_keySlots (s : State) (x : Grid) : (s.setGrid x).keySlots = s.keySlots := rfl
@[simp] theorem State.setGrid_poison (s : State) (x : Grid) : (s.setGrid x).poison = s.poison := rfl
@[simp] theorem State.setGrid_unsettled (s : State) (x : Grid) : (s.setGrid x).unsettled = s.unsettled := rfl
@[simp] theorem State.setGrid_cache (s : State) (x : Grid) : (s.setGrid x).cache = s.cache := rfl
@[simp] theorem State.setGrid_tlb (s : State) (x : Grid) : (s.setGrid x).tlb = s.tlb := rfl
@[simp] theorem State.setGrid_mapped (s : State) (x : Grid) : (s.setGrid x).mapped = s.mapped := rfl
@[simp] theorem State.setGrid_walks (s : State) (x : Grid) : (s.setGrid x).walks = s.walks := rfl
@[simp] theorem State.setGrid_spaces (s : State) (x : Grid) : (s.setGrid x).spaces = s.spaces := rfl
@[simp] theorem State.setGrid_spaceBase (s : State) (x : Grid) : (s.setGrid x).spaceBase = s.spaceBase := rfl
@[simp] theorem State.setGrid_contexts (s : State) (x : Grid) : (s.setGrid x).contexts = s.contexts := rfl
@[simp] theorem State.setGrid_partitions (s : State) (x : Grid) : (s.setGrid x).partitions = s.partitions := rfl
@[simp] theorem State.setGrid_queues (s : State) (x : Grid) : (s.setGrid x).queues = s.queues := rfl
@[simp] theorem State.setGrid_grids (s : State) (x : Grid) : (s.setGrid x).grids = upsert Grid.id x s.grids := rfl
@[simp] theorem State.setGrid_ctxs (s : State) (x : Grid) : (s.setGrid x).ctxs = s.ctxs := rfl
@[simp] theorem State.setGrid_blocks (s : State) (x : Grid) : (s.setGrid x).blocks = s.blocks := rfl
@[simp] theorem State.setGrid_groups (s : State) (x : Grid) : (s.setGrid x).groups = s.groups := rfl
@[simp] theorem State.setGrid_clusters (s : State) (x : Grid) : (s.setGrid x).clusters = s.clusters := rfl
@[simp] theorem State.setGrid_cores (s : State) (x : Grid) : (s.setGrid x).cores = s.cores := rfl
@[simp] theorem State.setGrid_writes (s : State) (x : Grid) : (s.setGrid x).writes = s.writes := rfl
@[simp] theorem State.setGrid_atomics (s : State) (x : Grid) : (s.setGrid x).atomics = s.atomics := rfl
@[simp] theorem State.setGrid_tileOps (s : State) (x : Grid) : (s.setGrid x).tileOps = s.tileOps := rfl
@[simp] theorem State.setGrid_models (s : State) (x : Grid) : (s.setGrid x).models = s.models := rfl
@[simp] theorem State.setGrid_predictors (s : State) (x : Grid) : (s.setGrid x).predictors = s.predictors := rfl
@[simp] theorem State.setGrid_funcs (s : State) (x : Grid) : (s.setGrid x).funcs = s.funcs := rfl
@[simp] theorem State.setGrid_keys (s : State) (x : Grid) : (s.setGrid x).keys = s.keys := rfl
@[simp] theorem State.setGrid_slots (s : State) (x : Grid) : (s.setGrid x).slots = s.slots := rfl
@[simp] theorem State.setGrid_log (s : State) (x : Grid) : (s.setGrid x).log = s.log := rfl
@[simp] theorem State.setGrid_rungs (s : State) (x : Grid) : (s.setGrid x).rungs = s.rungs := rfl
@[simp] theorem State.setGrid_links (s : State) (x : Grid) : (s.setGrid x).links = s.links := rfl
@[simp] theorem State.setGrid_harts (s : State) (x : Grid) : (s.setGrid x).harts = s.harts := rfl
@[simp] theorem State.setGrid_ports (s : State) (x : Grid) : (s.setGrid x).ports = s.ports := rfl
@[simp] theorem State.setGrid_invals (s : State) (x : Grid) : (s.setGrid x).invals = s.invals := rfl
@[simp] theorem State.setGrid_stopall (s : State) (x : Grid) : (s.setGrid x).stopall = s.stopall := rfl
@[simp] theorem State.setGrid_caps (s : State) (x : Grid) : (s.setGrid x).caps = s.caps := rfl
@[simp] theorem State.setGrid_bellows (s : State) (x : Grid) : (s.setGrid x).bellows = s.bellows := rfl
@[simp] theorem State.setGrid_boot (s : State) (x : Grid) : (s.setGrid x).boot = s.boot := rfl
@[simp] theorem State.setGrid_logs (s : State) (x : Grid) : (s.setGrid x).logs = s.logs := rfl
@[simp] theorem State.setGrid_shelved (s : State) (x : Grid) : (s.setGrid x).shelved = s.shelved := rfl
@[simp] theorem State.setGrid_replies (s : State) (x : Grid) : (s.setGrid x).replies = s.replies := rfl

/-! ### `State.setCtx` -/

@[simp] theorem State.setCtx_due (s : State) (x : Ctx) : (s.setCtx x).due = s.due := rfl
@[simp] theorem State.setCtx_sel (s : State) (x : Ctx) : (s.setCtx x).sel = s.sel := rfl
@[simp] theorem State.setCtx_draws (s : State) (x : Ctx) : (s.setCtx x).draws = s.draws := rfl
@[simp] theorem State.setCtx_steps (s : State) (x : Ctx) : (s.setCtx x).steps = s.steps := rfl
@[simp] theorem State.setCtx_ids (s : State) (x : Ctx) : (s.setCtx x).ids = s.ids := rfl
@[simp] theorem State.setCtx_tsr (s : State) (x : Ctx) : (s.setCtx x).tsr = s.tsr := rfl
@[simp] theorem State.setCtx_mem (s : State) (x : Ctx) : (s.setCtx x).mem = s.mem := rfl
@[simp] theorem State.setCtx_sectorKeys (s : State) (x : Ctx) : (s.setCtx x).sectorKeys = s.sectorKeys := rfl
@[simp] theorem State.setCtx_lost (s : State) (x : Ctx) : (s.setCtx x).lost = s.lost := rfl
@[simp] theorem State.setCtx_keySlots (s : State) (x : Ctx) : (s.setCtx x).keySlots = s.keySlots := rfl
@[simp] theorem State.setCtx_poison (s : State) (x : Ctx) : (s.setCtx x).poison = s.poison := rfl
@[simp] theorem State.setCtx_unsettled (s : State) (x : Ctx) : (s.setCtx x).unsettled = s.unsettled := rfl
@[simp] theorem State.setCtx_cache (s : State) (x : Ctx) : (s.setCtx x).cache = s.cache := rfl
@[simp] theorem State.setCtx_tlb (s : State) (x : Ctx) : (s.setCtx x).tlb = s.tlb := rfl
@[simp] theorem State.setCtx_mapped (s : State) (x : Ctx) : (s.setCtx x).mapped = s.mapped := rfl
@[simp] theorem State.setCtx_walks (s : State) (x : Ctx) : (s.setCtx x).walks = s.walks := rfl
@[simp] theorem State.setCtx_spaces (s : State) (x : Ctx) : (s.setCtx x).spaces = s.spaces := rfl
@[simp] theorem State.setCtx_spaceBase (s : State) (x : Ctx) : (s.setCtx x).spaceBase = s.spaceBase := rfl
@[simp] theorem State.setCtx_contexts (s : State) (x : Ctx) : (s.setCtx x).contexts = s.contexts := rfl
@[simp] theorem State.setCtx_partitions (s : State) (x : Ctx) : (s.setCtx x).partitions = s.partitions := rfl
@[simp] theorem State.setCtx_queues (s : State) (x : Ctx) : (s.setCtx x).queues = s.queues := rfl
@[simp] theorem State.setCtx_grids (s : State) (x : Ctx) : (s.setCtx x).grids = s.grids := rfl
@[simp] theorem State.setCtx_ctxs (s : State) (x : Ctx) : (s.setCtx x).ctxs = upsert Ctx.id x s.ctxs := rfl
@[simp] theorem State.setCtx_blocks (s : State) (x : Ctx) : (s.setCtx x).blocks = s.blocks := rfl
@[simp] theorem State.setCtx_groups (s : State) (x : Ctx) : (s.setCtx x).groups = s.groups := rfl
@[simp] theorem State.setCtx_clusters (s : State) (x : Ctx) : (s.setCtx x).clusters = s.clusters := rfl
@[simp] theorem State.setCtx_cores (s : State) (x : Ctx) : (s.setCtx x).cores = s.cores := rfl
@[simp] theorem State.setCtx_writes (s : State) (x : Ctx) : (s.setCtx x).writes = s.writes := rfl
@[simp] theorem State.setCtx_atomics (s : State) (x : Ctx) : (s.setCtx x).atomics = s.atomics := rfl
@[simp] theorem State.setCtx_tileOps (s : State) (x : Ctx) : (s.setCtx x).tileOps = s.tileOps := rfl
@[simp] theorem State.setCtx_models (s : State) (x : Ctx) : (s.setCtx x).models = s.models := rfl
@[simp] theorem State.setCtx_predictors (s : State) (x : Ctx) : (s.setCtx x).predictors = s.predictors := rfl
@[simp] theorem State.setCtx_funcs (s : State) (x : Ctx) : (s.setCtx x).funcs = s.funcs := rfl
@[simp] theorem State.setCtx_keys (s : State) (x : Ctx) : (s.setCtx x).keys = s.keys := rfl
@[simp] theorem State.setCtx_slots (s : State) (x : Ctx) : (s.setCtx x).slots = s.slots := rfl
@[simp] theorem State.setCtx_log (s : State) (x : Ctx) : (s.setCtx x).log = s.log := rfl
@[simp] theorem State.setCtx_rungs (s : State) (x : Ctx) : (s.setCtx x).rungs = s.rungs := rfl
@[simp] theorem State.setCtx_links (s : State) (x : Ctx) : (s.setCtx x).links = s.links := rfl
@[simp] theorem State.setCtx_harts (s : State) (x : Ctx) : (s.setCtx x).harts = s.harts := rfl
@[simp] theorem State.setCtx_ports (s : State) (x : Ctx) : (s.setCtx x).ports = s.ports := rfl
@[simp] theorem State.setCtx_invals (s : State) (x : Ctx) : (s.setCtx x).invals = s.invals := rfl
@[simp] theorem State.setCtx_stopall (s : State) (x : Ctx) : (s.setCtx x).stopall = s.stopall := rfl
@[simp] theorem State.setCtx_caps (s : State) (x : Ctx) : (s.setCtx x).caps = s.caps := rfl
@[simp] theorem State.setCtx_bellows (s : State) (x : Ctx) : (s.setCtx x).bellows = s.bellows := rfl
@[simp] theorem State.setCtx_boot (s : State) (x : Ctx) : (s.setCtx x).boot = s.boot := rfl
@[simp] theorem State.setCtx_logs (s : State) (x : Ctx) : (s.setCtx x).logs = s.logs := rfl
@[simp] theorem State.setCtx_shelved (s : State) (x : Ctx) : (s.setCtx x).shelved = s.shelved := rfl
@[simp] theorem State.setCtx_replies (s : State) (x : Ctx) : (s.setCtx x).replies = s.replies := rfl

/-! ### `State.setContext` -/

@[simp] theorem State.setContext_due (s : State) (x : Context) : (s.setContext x).due = s.due := rfl
@[simp] theorem State.setContext_sel (s : State) (x : Context) : (s.setContext x).sel = s.sel := rfl
@[simp] theorem State.setContext_draws (s : State) (x : Context) : (s.setContext x).draws = s.draws := rfl
@[simp] theorem State.setContext_steps (s : State) (x : Context) : (s.setContext x).steps = s.steps := rfl
@[simp] theorem State.setContext_ids (s : State) (x : Context) : (s.setContext x).ids = s.ids := rfl
@[simp] theorem State.setContext_tsr (s : State) (x : Context) : (s.setContext x).tsr = s.tsr := rfl
@[simp] theorem State.setContext_mem (s : State) (x : Context) : (s.setContext x).mem = s.mem := rfl
@[simp] theorem State.setContext_sectorKeys (s : State) (x : Context) : (s.setContext x).sectorKeys = s.sectorKeys := rfl
@[simp] theorem State.setContext_lost (s : State) (x : Context) : (s.setContext x).lost = s.lost := rfl
@[simp] theorem State.setContext_keySlots (s : State) (x : Context) : (s.setContext x).keySlots = s.keySlots := rfl
@[simp] theorem State.setContext_poison (s : State) (x : Context) : (s.setContext x).poison = s.poison := rfl
@[simp] theorem State.setContext_unsettled (s : State) (x : Context) : (s.setContext x).unsettled = s.unsettled := rfl
@[simp] theorem State.setContext_cache (s : State) (x : Context) : (s.setContext x).cache = s.cache := rfl
@[simp] theorem State.setContext_tlb (s : State) (x : Context) : (s.setContext x).tlb = s.tlb := rfl
@[simp] theorem State.setContext_mapped (s : State) (x : Context) : (s.setContext x).mapped = s.mapped := rfl
@[simp] theorem State.setContext_walks (s : State) (x : Context) : (s.setContext x).walks = s.walks := rfl
@[simp] theorem State.setContext_spaces (s : State) (x : Context) : (s.setContext x).spaces = s.spaces := rfl
@[simp] theorem State.setContext_spaceBase (s : State) (x : Context) : (s.setContext x).spaceBase = s.spaceBase := rfl
@[simp] theorem State.setContext_contexts (s : State) (x : Context) : (s.setContext x).contexts = upsert Context.asid x s.contexts := rfl
@[simp] theorem State.setContext_partitions (s : State) (x : Context) : (s.setContext x).partitions = s.partitions := rfl
@[simp] theorem State.setContext_queues (s : State) (x : Context) : (s.setContext x).queues = s.queues := rfl
@[simp] theorem State.setContext_grids (s : State) (x : Context) : (s.setContext x).grids = s.grids := rfl
@[simp] theorem State.setContext_ctxs (s : State) (x : Context) : (s.setContext x).ctxs = s.ctxs := rfl
@[simp] theorem State.setContext_blocks (s : State) (x : Context) : (s.setContext x).blocks = s.blocks := rfl
@[simp] theorem State.setContext_groups (s : State) (x : Context) : (s.setContext x).groups = s.groups := rfl
@[simp] theorem State.setContext_clusters (s : State) (x : Context) : (s.setContext x).clusters = s.clusters := rfl
@[simp] theorem State.setContext_cores (s : State) (x : Context) : (s.setContext x).cores = s.cores := rfl
@[simp] theorem State.setContext_writes (s : State) (x : Context) : (s.setContext x).writes = s.writes := rfl
@[simp] theorem State.setContext_atomics (s : State) (x : Context) : (s.setContext x).atomics = s.atomics := rfl
@[simp] theorem State.setContext_tileOps (s : State) (x : Context) : (s.setContext x).tileOps = s.tileOps := rfl
@[simp] theorem State.setContext_models (s : State) (x : Context) : (s.setContext x).models = s.models := rfl
@[simp] theorem State.setContext_predictors (s : State) (x : Context) : (s.setContext x).predictors = s.predictors := rfl
@[simp] theorem State.setContext_funcs (s : State) (x : Context) : (s.setContext x).funcs = s.funcs := rfl
@[simp] theorem State.setContext_keys (s : State) (x : Context) : (s.setContext x).keys = s.keys := rfl
@[simp] theorem State.setContext_slots (s : State) (x : Context) : (s.setContext x).slots = s.slots := rfl
@[simp] theorem State.setContext_log (s : State) (x : Context) : (s.setContext x).log = s.log := rfl
@[simp] theorem State.setContext_rungs (s : State) (x : Context) : (s.setContext x).rungs = s.rungs := rfl
@[simp] theorem State.setContext_links (s : State) (x : Context) : (s.setContext x).links = s.links := rfl
@[simp] theorem State.setContext_harts (s : State) (x : Context) : (s.setContext x).harts = s.harts := rfl
@[simp] theorem State.setContext_ports (s : State) (x : Context) : (s.setContext x).ports = s.ports := rfl
@[simp] theorem State.setContext_invals (s : State) (x : Context) : (s.setContext x).invals = s.invals := rfl
@[simp] theorem State.setContext_stopall (s : State) (x : Context) : (s.setContext x).stopall = s.stopall := rfl
@[simp] theorem State.setContext_caps (s : State) (x : Context) : (s.setContext x).caps = s.caps := rfl
@[simp] theorem State.setContext_bellows (s : State) (x : Context) : (s.setContext x).bellows = s.bellows := rfl
@[simp] theorem State.setContext_boot (s : State) (x : Context) : (s.setContext x).boot = s.boot := rfl
@[simp] theorem State.setContext_logs (s : State) (x : Context) : (s.setContext x).logs = s.logs := rfl
@[simp] theorem State.setContext_shelved (s : State) (x : Context) : (s.setContext x).shelved = s.shelved := rfl
@[simp] theorem State.setContext_replies (s : State) (x : Context) : (s.setContext x).replies = s.replies := rfl

/-! ### `State.setPartition` -/

@[simp] theorem State.setPartition_due (s : State) (x : Partition) : (s.setPartition x).due = s.due := rfl
@[simp] theorem State.setPartition_sel (s : State) (x : Partition) : (s.setPartition x).sel = s.sel := rfl
@[simp] theorem State.setPartition_draws (s : State) (x : Partition) : (s.setPartition x).draws = s.draws := rfl
@[simp] theorem State.setPartition_steps (s : State) (x : Partition) : (s.setPartition x).steps = s.steps := rfl
@[simp] theorem State.setPartition_ids (s : State) (x : Partition) : (s.setPartition x).ids = s.ids := rfl
@[simp] theorem State.setPartition_tsr (s : State) (x : Partition) : (s.setPartition x).tsr = s.tsr := rfl
@[simp] theorem State.setPartition_mem (s : State) (x : Partition) : (s.setPartition x).mem = s.mem := rfl
@[simp] theorem State.setPartition_sectorKeys (s : State) (x : Partition) : (s.setPartition x).sectorKeys = s.sectorKeys := rfl
@[simp] theorem State.setPartition_lost (s : State) (x : Partition) : (s.setPartition x).lost = s.lost := rfl
@[simp] theorem State.setPartition_keySlots (s : State) (x : Partition) : (s.setPartition x).keySlots = s.keySlots := rfl
@[simp] theorem State.setPartition_poison (s : State) (x : Partition) : (s.setPartition x).poison = s.poison := rfl
@[simp] theorem State.setPartition_unsettled (s : State) (x : Partition) : (s.setPartition x).unsettled = s.unsettled := rfl
@[simp] theorem State.setPartition_cache (s : State) (x : Partition) : (s.setPartition x).cache = s.cache := rfl
@[simp] theorem State.setPartition_tlb (s : State) (x : Partition) : (s.setPartition x).tlb = s.tlb := rfl
@[simp] theorem State.setPartition_mapped (s : State) (x : Partition) : (s.setPartition x).mapped = s.mapped := rfl
@[simp] theorem State.setPartition_walks (s : State) (x : Partition) : (s.setPartition x).walks = s.walks := rfl
@[simp] theorem State.setPartition_spaces (s : State) (x : Partition) : (s.setPartition x).spaces = s.spaces := rfl
@[simp] theorem State.setPartition_spaceBase (s : State) (x : Partition) : (s.setPartition x).spaceBase = s.spaceBase := rfl
@[simp] theorem State.setPartition_contexts (s : State) (x : Partition) : (s.setPartition x).contexts = s.contexts := rfl
@[simp] theorem State.setPartition_partitions (s : State) (x : Partition) : (s.setPartition x).partitions = upsert Partition.id x s.partitions := rfl
@[simp] theorem State.setPartition_queues (s : State) (x : Partition) : (s.setPartition x).queues = s.queues := rfl
@[simp] theorem State.setPartition_grids (s : State) (x : Partition) : (s.setPartition x).grids = s.grids := rfl
@[simp] theorem State.setPartition_ctxs (s : State) (x : Partition) : (s.setPartition x).ctxs = s.ctxs := rfl
@[simp] theorem State.setPartition_blocks (s : State) (x : Partition) : (s.setPartition x).blocks = s.blocks := rfl
@[simp] theorem State.setPartition_groups (s : State) (x : Partition) : (s.setPartition x).groups = s.groups := rfl
@[simp] theorem State.setPartition_clusters (s : State) (x : Partition) : (s.setPartition x).clusters = s.clusters := rfl
@[simp] theorem State.setPartition_cores (s : State) (x : Partition) : (s.setPartition x).cores = s.cores := rfl
@[simp] theorem State.setPartition_writes (s : State) (x : Partition) : (s.setPartition x).writes = s.writes := rfl
@[simp] theorem State.setPartition_atomics (s : State) (x : Partition) : (s.setPartition x).atomics = s.atomics := rfl
@[simp] theorem State.setPartition_tileOps (s : State) (x : Partition) : (s.setPartition x).tileOps = s.tileOps := rfl
@[simp] theorem State.setPartition_models (s : State) (x : Partition) : (s.setPartition x).models = s.models := rfl
@[simp] theorem State.setPartition_predictors (s : State) (x : Partition) : (s.setPartition x).predictors = s.predictors := rfl
@[simp] theorem State.setPartition_funcs (s : State) (x : Partition) : (s.setPartition x).funcs = s.funcs := rfl
@[simp] theorem State.setPartition_keys (s : State) (x : Partition) : (s.setPartition x).keys = s.keys := rfl
@[simp] theorem State.setPartition_slots (s : State) (x : Partition) : (s.setPartition x).slots = s.slots := rfl
@[simp] theorem State.setPartition_log (s : State) (x : Partition) : (s.setPartition x).log = s.log := rfl
@[simp] theorem State.setPartition_rungs (s : State) (x : Partition) : (s.setPartition x).rungs = s.rungs := rfl
@[simp] theorem State.setPartition_links (s : State) (x : Partition) : (s.setPartition x).links = s.links := rfl
@[simp] theorem State.setPartition_harts (s : State) (x : Partition) : (s.setPartition x).harts = s.harts := rfl
@[simp] theorem State.setPartition_ports (s : State) (x : Partition) : (s.setPartition x).ports = s.ports := rfl
@[simp] theorem State.setPartition_invals (s : State) (x : Partition) : (s.setPartition x).invals = s.invals := rfl
@[simp] theorem State.setPartition_stopall (s : State) (x : Partition) : (s.setPartition x).stopall = s.stopall := rfl
@[simp] theorem State.setPartition_caps (s : State) (x : Partition) : (s.setPartition x).caps = s.caps := rfl
@[simp] theorem State.setPartition_bellows (s : State) (x : Partition) : (s.setPartition x).bellows = s.bellows := rfl
@[simp] theorem State.setPartition_boot (s : State) (x : Partition) : (s.setPartition x).boot = s.boot := rfl
@[simp] theorem State.setPartition_logs (s : State) (x : Partition) : (s.setPartition x).logs = s.logs := rfl
@[simp] theorem State.setPartition_shelved (s : State) (x : Partition) : (s.setPartition x).shelved = s.shelved := rfl
@[simp] theorem State.setPartition_replies (s : State) (x : Partition) : (s.setPartition x).replies = s.replies := rfl

/-! ### `State.setQueue` -/

@[simp] theorem State.setQueue_due (s : State) (x : Queue) : (s.setQueue x).due = s.due := rfl
@[simp] theorem State.setQueue_sel (s : State) (x : Queue) : (s.setQueue x).sel = s.sel := rfl
@[simp] theorem State.setQueue_draws (s : State) (x : Queue) : (s.setQueue x).draws = s.draws := rfl
@[simp] theorem State.setQueue_steps (s : State) (x : Queue) : (s.setQueue x).steps = s.steps := rfl
@[simp] theorem State.setQueue_ids (s : State) (x : Queue) : (s.setQueue x).ids = s.ids := rfl
@[simp] theorem State.setQueue_tsr (s : State) (x : Queue) : (s.setQueue x).tsr = s.tsr := rfl
@[simp] theorem State.setQueue_mem (s : State) (x : Queue) : (s.setQueue x).mem = s.mem := rfl
@[simp] theorem State.setQueue_sectorKeys (s : State) (x : Queue) : (s.setQueue x).sectorKeys = s.sectorKeys := rfl
@[simp] theorem State.setQueue_lost (s : State) (x : Queue) : (s.setQueue x).lost = s.lost := rfl
@[simp] theorem State.setQueue_keySlots (s : State) (x : Queue) : (s.setQueue x).keySlots = s.keySlots := rfl
@[simp] theorem State.setQueue_poison (s : State) (x : Queue) : (s.setQueue x).poison = s.poison := rfl
@[simp] theorem State.setQueue_unsettled (s : State) (x : Queue) : (s.setQueue x).unsettled = s.unsettled := rfl
@[simp] theorem State.setQueue_cache (s : State) (x : Queue) : (s.setQueue x).cache = s.cache := rfl
@[simp] theorem State.setQueue_tlb (s : State) (x : Queue) : (s.setQueue x).tlb = s.tlb := rfl
@[simp] theorem State.setQueue_mapped (s : State) (x : Queue) : (s.setQueue x).mapped = s.mapped := rfl
@[simp] theorem State.setQueue_walks (s : State) (x : Queue) : (s.setQueue x).walks = s.walks := rfl
@[simp] theorem State.setQueue_spaces (s : State) (x : Queue) : (s.setQueue x).spaces = s.spaces := rfl
@[simp] theorem State.setQueue_spaceBase (s : State) (x : Queue) : (s.setQueue x).spaceBase = s.spaceBase := rfl
@[simp] theorem State.setQueue_contexts (s : State) (x : Queue) : (s.setQueue x).contexts = s.contexts := rfl
@[simp] theorem State.setQueue_partitions (s : State) (x : Queue) : (s.setQueue x).partitions = s.partitions := rfl
@[simp] theorem State.setQueue_queues (s : State) (x : Queue) : (s.setQueue x).queues = upsert Queue.qid x s.queues := rfl
@[simp] theorem State.setQueue_grids (s : State) (x : Queue) : (s.setQueue x).grids = s.grids := rfl
@[simp] theorem State.setQueue_ctxs (s : State) (x : Queue) : (s.setQueue x).ctxs = s.ctxs := rfl
@[simp] theorem State.setQueue_blocks (s : State) (x : Queue) : (s.setQueue x).blocks = s.blocks := rfl
@[simp] theorem State.setQueue_groups (s : State) (x : Queue) : (s.setQueue x).groups = s.groups := rfl
@[simp] theorem State.setQueue_clusters (s : State) (x : Queue) : (s.setQueue x).clusters = s.clusters := rfl
@[simp] theorem State.setQueue_cores (s : State) (x : Queue) : (s.setQueue x).cores = s.cores := rfl
@[simp] theorem State.setQueue_writes (s : State) (x : Queue) : (s.setQueue x).writes = s.writes := rfl
@[simp] theorem State.setQueue_atomics (s : State) (x : Queue) : (s.setQueue x).atomics = s.atomics := rfl
@[simp] theorem State.setQueue_tileOps (s : State) (x : Queue) : (s.setQueue x).tileOps = s.tileOps := rfl
@[simp] theorem State.setQueue_models (s : State) (x : Queue) : (s.setQueue x).models = s.models := rfl
@[simp] theorem State.setQueue_predictors (s : State) (x : Queue) : (s.setQueue x).predictors = s.predictors := rfl
@[simp] theorem State.setQueue_funcs (s : State) (x : Queue) : (s.setQueue x).funcs = s.funcs := rfl
@[simp] theorem State.setQueue_keys (s : State) (x : Queue) : (s.setQueue x).keys = s.keys := rfl
@[simp] theorem State.setQueue_slots (s : State) (x : Queue) : (s.setQueue x).slots = s.slots := rfl
@[simp] theorem State.setQueue_log (s : State) (x : Queue) : (s.setQueue x).log = s.log := rfl
@[simp] theorem State.setQueue_rungs (s : State) (x : Queue) : (s.setQueue x).rungs = s.rungs := rfl
@[simp] theorem State.setQueue_links (s : State) (x : Queue) : (s.setQueue x).links = s.links := rfl
@[simp] theorem State.setQueue_harts (s : State) (x : Queue) : (s.setQueue x).harts = s.harts := rfl
@[simp] theorem State.setQueue_ports (s : State) (x : Queue) : (s.setQueue x).ports = s.ports := rfl
@[simp] theorem State.setQueue_invals (s : State) (x : Queue) : (s.setQueue x).invals = s.invals := rfl
@[simp] theorem State.setQueue_stopall (s : State) (x : Queue) : (s.setQueue x).stopall = s.stopall := rfl
@[simp] theorem State.setQueue_caps (s : State) (x : Queue) : (s.setQueue x).caps = s.caps := rfl
@[simp] theorem State.setQueue_bellows (s : State) (x : Queue) : (s.setQueue x).bellows = s.bellows := rfl
@[simp] theorem State.setQueue_boot (s : State) (x : Queue) : (s.setQueue x).boot = s.boot := rfl
@[simp] theorem State.setQueue_logs (s : State) (x : Queue) : (s.setQueue x).logs = s.logs := rfl
@[simp] theorem State.setQueue_shelved (s : State) (x : Queue) : (s.setQueue x).shelved = s.shelved := rfl
@[simp] theorem State.setQueue_replies (s : State) (x : Queue) : (s.setQueue x).replies = s.replies := rfl

/-! ### `State.setCore` -/

@[simp] theorem State.setCore_due (s : State) (x : Core) : (s.setCore x).due = s.due := rfl
@[simp] theorem State.setCore_sel (s : State) (x : Core) : (s.setCore x).sel = s.sel := rfl
@[simp] theorem State.setCore_draws (s : State) (x : Core) : (s.setCore x).draws = s.draws := rfl
@[simp] theorem State.setCore_steps (s : State) (x : Core) : (s.setCore x).steps = s.steps := rfl
@[simp] theorem State.setCore_ids (s : State) (x : Core) : (s.setCore x).ids = s.ids := rfl
@[simp] theorem State.setCore_tsr (s : State) (x : Core) : (s.setCore x).tsr = s.tsr := rfl
@[simp] theorem State.setCore_mem (s : State) (x : Core) : (s.setCore x).mem = s.mem := rfl
@[simp] theorem State.setCore_sectorKeys (s : State) (x : Core) : (s.setCore x).sectorKeys = s.sectorKeys := rfl
@[simp] theorem State.setCore_lost (s : State) (x : Core) : (s.setCore x).lost = s.lost := rfl
@[simp] theorem State.setCore_keySlots (s : State) (x : Core) : (s.setCore x).keySlots = s.keySlots := rfl
@[simp] theorem State.setCore_poison (s : State) (x : Core) : (s.setCore x).poison = s.poison := rfl
@[simp] theorem State.setCore_unsettled (s : State) (x : Core) : (s.setCore x).unsettled = s.unsettled := rfl
@[simp] theorem State.setCore_cache (s : State) (x : Core) : (s.setCore x).cache = s.cache := rfl
@[simp] theorem State.setCore_tlb (s : State) (x : Core) : (s.setCore x).tlb = s.tlb := rfl
@[simp] theorem State.setCore_mapped (s : State) (x : Core) : (s.setCore x).mapped = s.mapped := rfl
@[simp] theorem State.setCore_walks (s : State) (x : Core) : (s.setCore x).walks = s.walks := rfl
@[simp] theorem State.setCore_spaces (s : State) (x : Core) : (s.setCore x).spaces = s.spaces := rfl
@[simp] theorem State.setCore_spaceBase (s : State) (x : Core) : (s.setCore x).spaceBase = s.spaceBase := rfl
@[simp] theorem State.setCore_contexts (s : State) (x : Core) : (s.setCore x).contexts = s.contexts := rfl
@[simp] theorem State.setCore_partitions (s : State) (x : Core) : (s.setCore x).partitions = s.partitions := rfl
@[simp] theorem State.setCore_queues (s : State) (x : Core) : (s.setCore x).queues = s.queues := rfl
@[simp] theorem State.setCore_grids (s : State) (x : Core) : (s.setCore x).grids = s.grids := rfl
@[simp] theorem State.setCore_ctxs (s : State) (x : Core) : (s.setCore x).ctxs = s.ctxs := rfl
@[simp] theorem State.setCore_blocks (s : State) (x : Core) : (s.setCore x).blocks = s.blocks := rfl
@[simp] theorem State.setCore_groups (s : State) (x : Core) : (s.setCore x).groups = s.groups := rfl
@[simp] theorem State.setCore_clusters (s : State) (x : Core) : (s.setCore x).clusters = s.clusters := rfl
@[simp] theorem State.setCore_cores (s : State) (x : Core) : (s.setCore x).cores = upsert Core.num x s.cores := rfl
@[simp] theorem State.setCore_writes (s : State) (x : Core) : (s.setCore x).writes = s.writes := rfl
@[simp] theorem State.setCore_atomics (s : State) (x : Core) : (s.setCore x).atomics = s.atomics := rfl
@[simp] theorem State.setCore_tileOps (s : State) (x : Core) : (s.setCore x).tileOps = s.tileOps := rfl
@[simp] theorem State.setCore_models (s : State) (x : Core) : (s.setCore x).models = s.models := rfl
@[simp] theorem State.setCore_predictors (s : State) (x : Core) : (s.setCore x).predictors = s.predictors := rfl
@[simp] theorem State.setCore_funcs (s : State) (x : Core) : (s.setCore x).funcs = s.funcs := rfl
@[simp] theorem State.setCore_keys (s : State) (x : Core) : (s.setCore x).keys = s.keys := rfl
@[simp] theorem State.setCore_slots (s : State) (x : Core) : (s.setCore x).slots = s.slots := rfl
@[simp] theorem State.setCore_log (s : State) (x : Core) : (s.setCore x).log = s.log := rfl
@[simp] theorem State.setCore_rungs (s : State) (x : Core) : (s.setCore x).rungs = s.rungs := rfl
@[simp] theorem State.setCore_links (s : State) (x : Core) : (s.setCore x).links = s.links := rfl
@[simp] theorem State.setCore_harts (s : State) (x : Core) : (s.setCore x).harts = s.harts := rfl
@[simp] theorem State.setCore_ports (s : State) (x : Core) : (s.setCore x).ports = s.ports := rfl
@[simp] theorem State.setCore_invals (s : State) (x : Core) : (s.setCore x).invals = s.invals := rfl
@[simp] theorem State.setCore_stopall (s : State) (x : Core) : (s.setCore x).stopall = s.stopall := rfl
@[simp] theorem State.setCore_caps (s : State) (x : Core) : (s.setCore x).caps = s.caps := rfl
@[simp] theorem State.setCore_bellows (s : State) (x : Core) : (s.setCore x).bellows = s.bellows := rfl
@[simp] theorem State.setCore_boot (s : State) (x : Core) : (s.setCore x).boot = s.boot := rfl
@[simp] theorem State.setCore_logs (s : State) (x : Core) : (s.setCore x).logs = s.logs := rfl
@[simp] theorem State.setCore_shelved (s : State) (x : Core) : (s.setCore x).shelved = s.shelved := rfl
@[simp] theorem State.setCore_replies (s : State) (x : Core) : (s.setCore x).replies = s.replies := rfl

/-! ### `State.setCluster` -/

@[simp] theorem State.setCluster_due (s : State) (x : Cluster) : (s.setCluster x).due = s.due := rfl
@[simp] theorem State.setCluster_sel (s : State) (x : Cluster) : (s.setCluster x).sel = s.sel := rfl
@[simp] theorem State.setCluster_draws (s : State) (x : Cluster) : (s.setCluster x).draws = s.draws := rfl
@[simp] theorem State.setCluster_steps (s : State) (x : Cluster) : (s.setCluster x).steps = s.steps := rfl
@[simp] theorem State.setCluster_ids (s : State) (x : Cluster) : (s.setCluster x).ids = s.ids := rfl
@[simp] theorem State.setCluster_tsr (s : State) (x : Cluster) : (s.setCluster x).tsr = s.tsr := rfl
@[simp] theorem State.setCluster_mem (s : State) (x : Cluster) : (s.setCluster x).mem = s.mem := rfl
@[simp] theorem State.setCluster_sectorKeys (s : State) (x : Cluster) : (s.setCluster x).sectorKeys = s.sectorKeys := rfl
@[simp] theorem State.setCluster_lost (s : State) (x : Cluster) : (s.setCluster x).lost = s.lost := rfl
@[simp] theorem State.setCluster_keySlots (s : State) (x : Cluster) : (s.setCluster x).keySlots = s.keySlots := rfl
@[simp] theorem State.setCluster_poison (s : State) (x : Cluster) : (s.setCluster x).poison = s.poison := rfl
@[simp] theorem State.setCluster_unsettled (s : State) (x : Cluster) : (s.setCluster x).unsettled = s.unsettled := rfl
@[simp] theorem State.setCluster_cache (s : State) (x : Cluster) : (s.setCluster x).cache = s.cache := rfl
@[simp] theorem State.setCluster_tlb (s : State) (x : Cluster) : (s.setCluster x).tlb = s.tlb := rfl
@[simp] theorem State.setCluster_mapped (s : State) (x : Cluster) : (s.setCluster x).mapped = s.mapped := rfl
@[simp] theorem State.setCluster_walks (s : State) (x : Cluster) : (s.setCluster x).walks = s.walks := rfl
@[simp] theorem State.setCluster_spaces (s : State) (x : Cluster) : (s.setCluster x).spaces = s.spaces := rfl
@[simp] theorem State.setCluster_spaceBase (s : State) (x : Cluster) : (s.setCluster x).spaceBase = s.spaceBase := rfl
@[simp] theorem State.setCluster_contexts (s : State) (x : Cluster) : (s.setCluster x).contexts = s.contexts := rfl
@[simp] theorem State.setCluster_partitions (s : State) (x : Cluster) : (s.setCluster x).partitions = s.partitions := rfl
@[simp] theorem State.setCluster_queues (s : State) (x : Cluster) : (s.setCluster x).queues = s.queues := rfl
@[simp] theorem State.setCluster_grids (s : State) (x : Cluster) : (s.setCluster x).grids = s.grids := rfl
@[simp] theorem State.setCluster_ctxs (s : State) (x : Cluster) : (s.setCluster x).ctxs = s.ctxs := rfl
@[simp] theorem State.setCluster_blocks (s : State) (x : Cluster) : (s.setCluster x).blocks = s.blocks := rfl
@[simp] theorem State.setCluster_groups (s : State) (x : Cluster) : (s.setCluster x).groups = s.groups := rfl
@[simp] theorem State.setCluster_clusters (s : State) (x : Cluster) : (s.setCluster x).clusters = upsert Cluster.num x s.clusters := rfl
@[simp] theorem State.setCluster_cores (s : State) (x : Cluster) : (s.setCluster x).cores = s.cores := rfl
@[simp] theorem State.setCluster_writes (s : State) (x : Cluster) : (s.setCluster x).writes = s.writes := rfl
@[simp] theorem State.setCluster_atomics (s : State) (x : Cluster) : (s.setCluster x).atomics = s.atomics := rfl
@[simp] theorem State.setCluster_tileOps (s : State) (x : Cluster) : (s.setCluster x).tileOps = s.tileOps := rfl
@[simp] theorem State.setCluster_models (s : State) (x : Cluster) : (s.setCluster x).models = s.models := rfl
@[simp] theorem State.setCluster_predictors (s : State) (x : Cluster) : (s.setCluster x).predictors = s.predictors := rfl
@[simp] theorem State.setCluster_funcs (s : State) (x : Cluster) : (s.setCluster x).funcs = s.funcs := rfl
@[simp] theorem State.setCluster_keys (s : State) (x : Cluster) : (s.setCluster x).keys = s.keys := rfl
@[simp] theorem State.setCluster_slots (s : State) (x : Cluster) : (s.setCluster x).slots = s.slots := rfl
@[simp] theorem State.setCluster_log (s : State) (x : Cluster) : (s.setCluster x).log = s.log := rfl
@[simp] theorem State.setCluster_rungs (s : State) (x : Cluster) : (s.setCluster x).rungs = s.rungs := rfl
@[simp] theorem State.setCluster_links (s : State) (x : Cluster) : (s.setCluster x).links = s.links := rfl
@[simp] theorem State.setCluster_harts (s : State) (x : Cluster) : (s.setCluster x).harts = s.harts := rfl
@[simp] theorem State.setCluster_ports (s : State) (x : Cluster) : (s.setCluster x).ports = s.ports := rfl
@[simp] theorem State.setCluster_invals (s : State) (x : Cluster) : (s.setCluster x).invals = s.invals := rfl
@[simp] theorem State.setCluster_stopall (s : State) (x : Cluster) : (s.setCluster x).stopall = s.stopall := rfl
@[simp] theorem State.setCluster_caps (s : State) (x : Cluster) : (s.setCluster x).caps = s.caps := rfl
@[simp] theorem State.setCluster_bellows (s : State) (x : Cluster) : (s.setCluster x).bellows = s.bellows := rfl
@[simp] theorem State.setCluster_boot (s : State) (x : Cluster) : (s.setCluster x).boot = s.boot := rfl
@[simp] theorem State.setCluster_logs (s : State) (x : Cluster) : (s.setCluster x).logs = s.logs := rfl
@[simp] theorem State.setCluster_shelved (s : State) (x : Cluster) : (s.setCluster x).shelved = s.shelved := rfl
@[simp] theorem State.setCluster_replies (s : State) (x : Cluster) : (s.setCluster x).replies = s.replies := rfl

/-! ### `State.poke` -/

@[simp] theorem State.poke_due (s : State) (pa : Nat) (b : Byte) : (s.poke pa b).due = s.due := rfl
@[simp] theorem State.poke_sel (s : State) (pa : Nat) (b : Byte) : (s.poke pa b).sel = s.sel := rfl
@[simp] theorem State.poke_draws (s : State) (pa : Nat) (b : Byte) : (s.poke pa b).draws = s.draws := rfl
@[simp] theorem State.poke_steps (s : State) (pa : Nat) (b : Byte) : (s.poke pa b).steps = s.steps := rfl
@[simp] theorem State.poke_ids (s : State) (pa : Nat) (b : Byte) : (s.poke pa b).ids = s.ids := rfl
@[simp] theorem State.poke_tsr (s : State) (pa : Nat) (b : Byte) : (s.poke pa b).tsr = s.tsr := rfl
@[simp] theorem State.poke_mem (s : State) (pa : Nat) (b : Byte) : (s.poke pa b).mem = sset emptyByte s.mem pa b := rfl
@[simp] theorem State.poke_sectorKeys (s : State) (pa : Nat) (b : Byte) : (s.poke pa b).sectorKeys = s.sectorKeys := rfl
@[simp] theorem State.poke_lost (s : State) (pa : Nat) (b : Byte) : (s.poke pa b).lost = s.lost := rfl
@[simp] theorem State.poke_keySlots (s : State) (pa : Nat) (b : Byte) : (s.poke pa b).keySlots = s.keySlots := rfl
@[simp] theorem State.poke_poison (s : State) (pa : Nat) (b : Byte) : (s.poke pa b).poison = s.poison := rfl
@[simp] theorem State.poke_unsettled (s : State) (pa : Nat) (b : Byte) : (s.poke pa b).unsettled = s.unsettled := rfl
@[simp] theorem State.poke_cache (s : State) (pa : Nat) (b : Byte) : (s.poke pa b).cache = s.cache := rfl
@[simp] theorem State.poke_tlb (s : State) (pa : Nat) (b : Byte) : (s.poke pa b).tlb = s.tlb := rfl
@[simp] theorem State.poke_mapped (s : State) (pa : Nat) (b : Byte) : (s.poke pa b).mapped = s.mapped := rfl
@[simp] theorem State.poke_walks (s : State) (pa : Nat) (b : Byte) : (s.poke pa b).walks = s.walks := rfl
@[simp] theorem State.poke_spaces (s : State) (pa : Nat) (b : Byte) : (s.poke pa b).spaces = s.spaces := rfl
@[simp] theorem State.poke_spaceBase (s : State) (pa : Nat) (b : Byte) : (s.poke pa b).spaceBase = s.spaceBase := rfl
@[simp] theorem State.poke_contexts (s : State) (pa : Nat) (b : Byte) : (s.poke pa b).contexts = s.contexts := rfl
@[simp] theorem State.poke_partitions (s : State) (pa : Nat) (b : Byte) : (s.poke pa b).partitions = s.partitions := rfl
@[simp] theorem State.poke_queues (s : State) (pa : Nat) (b : Byte) : (s.poke pa b).queues = s.queues := rfl
@[simp] theorem State.poke_grids (s : State) (pa : Nat) (b : Byte) : (s.poke pa b).grids = s.grids := rfl
@[simp] theorem State.poke_ctxs (s : State) (pa : Nat) (b : Byte) : (s.poke pa b).ctxs = s.ctxs := rfl
@[simp] theorem State.poke_blocks (s : State) (pa : Nat) (b : Byte) : (s.poke pa b).blocks = s.blocks := rfl
@[simp] theorem State.poke_groups (s : State) (pa : Nat) (b : Byte) : (s.poke pa b).groups = s.groups := rfl
@[simp] theorem State.poke_clusters (s : State) (pa : Nat) (b : Byte) : (s.poke pa b).clusters = s.clusters := rfl
@[simp] theorem State.poke_cores (s : State) (pa : Nat) (b : Byte) : (s.poke pa b).cores = s.cores := rfl
@[simp] theorem State.poke_writes (s : State) (pa : Nat) (b : Byte) : (s.poke pa b).writes = s.writes := rfl
@[simp] theorem State.poke_atomics (s : State) (pa : Nat) (b : Byte) : (s.poke pa b).atomics = s.atomics := rfl
@[simp] theorem State.poke_tileOps (s : State) (pa : Nat) (b : Byte) : (s.poke pa b).tileOps = s.tileOps := rfl
@[simp] theorem State.poke_models (s : State) (pa : Nat) (b : Byte) : (s.poke pa b).models = s.models := rfl
@[simp] theorem State.poke_predictors (s : State) (pa : Nat) (b : Byte) : (s.poke pa b).predictors = s.predictors := rfl
@[simp] theorem State.poke_funcs (s : State) (pa : Nat) (b : Byte) : (s.poke pa b).funcs = s.funcs := rfl
@[simp] theorem State.poke_keys (s : State) (pa : Nat) (b : Byte) : (s.poke pa b).keys = s.keys := rfl
@[simp] theorem State.poke_slots (s : State) (pa : Nat) (b : Byte) : (s.poke pa b).slots = s.slots := rfl
@[simp] theorem State.poke_log (s : State) (pa : Nat) (b : Byte) : (s.poke pa b).log = s.log := rfl
@[simp] theorem State.poke_rungs (s : State) (pa : Nat) (b : Byte) : (s.poke pa b).rungs = s.rungs := rfl
@[simp] theorem State.poke_links (s : State) (pa : Nat) (b : Byte) : (s.poke pa b).links = s.links := rfl
@[simp] theorem State.poke_harts (s : State) (pa : Nat) (b : Byte) : (s.poke pa b).harts = s.harts := rfl
@[simp] theorem State.poke_ports (s : State) (pa : Nat) (b : Byte) : (s.poke pa b).ports = s.ports := rfl
@[simp] theorem State.poke_invals (s : State) (pa : Nat) (b : Byte) : (s.poke pa b).invals = s.invals := rfl
@[simp] theorem State.poke_stopall (s : State) (pa : Nat) (b : Byte) : (s.poke pa b).stopall = s.stopall := rfl
@[simp] theorem State.poke_caps (s : State) (pa : Nat) (b : Byte) : (s.poke pa b).caps = s.caps := rfl
@[simp] theorem State.poke_bellows (s : State) (pa : Nat) (b : Byte) : (s.poke pa b).bellows = s.bellows := rfl
@[simp] theorem State.poke_boot (s : State) (pa : Nat) (b : Byte) : (s.poke pa b).boot = s.boot := rfl
@[simp] theorem State.poke_logs (s : State) (pa : Nat) (b : Byte) : (s.poke pa b).logs = s.logs := rfl
@[simp] theorem State.poke_shelved (s : State) (pa : Nat) (b : Byte) : (s.poke pa b).shelved = s.shelved := rfl
@[simp] theorem State.poke_replies (s : State) (pa : Nat) (b : Byte) : (s.poke pa b).replies = s.replies := rfl

/-! ### `State.later` -/

@[simp] theorem State.later_due (s : State) (e : Instr) : (s.later e).due = s.due ++ [e] := rfl
@[simp] theorem State.later_sel (s : State) (e : Instr) : (s.later e).sel = s.sel := rfl
@[simp] theorem State.later_draws (s : State) (e : Instr) : (s.later e).draws = s.draws := rfl
@[simp] theorem State.later_steps (s : State) (e : Instr) : (s.later e).steps = s.steps := rfl
@[simp] theorem State.later_ids (s : State) (e : Instr) : (s.later e).ids = s.ids := rfl
@[simp] theorem State.later_tsr (s : State) (e : Instr) : (s.later e).tsr = s.tsr := rfl
@[simp] theorem State.later_mem (s : State) (e : Instr) : (s.later e).mem = s.mem := rfl
@[simp] theorem State.later_sectorKeys (s : State) (e : Instr) : (s.later e).sectorKeys = s.sectorKeys := rfl
@[simp] theorem State.later_lost (s : State) (e : Instr) : (s.later e).lost = s.lost := rfl
@[simp] theorem State.later_keySlots (s : State) (e : Instr) : (s.later e).keySlots = s.keySlots := rfl
@[simp] theorem State.later_poison (s : State) (e : Instr) : (s.later e).poison = s.poison := rfl
@[simp] theorem State.later_unsettled (s : State) (e : Instr) : (s.later e).unsettled = s.unsettled := rfl
@[simp] theorem State.later_cache (s : State) (e : Instr) : (s.later e).cache = s.cache := rfl
@[simp] theorem State.later_tlb (s : State) (e : Instr) : (s.later e).tlb = s.tlb := rfl
@[simp] theorem State.later_mapped (s : State) (e : Instr) : (s.later e).mapped = s.mapped := rfl
@[simp] theorem State.later_walks (s : State) (e : Instr) : (s.later e).walks = s.walks := rfl
@[simp] theorem State.later_spaces (s : State) (e : Instr) : (s.later e).spaces = s.spaces := rfl
@[simp] theorem State.later_spaceBase (s : State) (e : Instr) : (s.later e).spaceBase = s.spaceBase := rfl
@[simp] theorem State.later_contexts (s : State) (e : Instr) : (s.later e).contexts = s.contexts := rfl
@[simp] theorem State.later_partitions (s : State) (e : Instr) : (s.later e).partitions = s.partitions := rfl
@[simp] theorem State.later_queues (s : State) (e : Instr) : (s.later e).queues = s.queues := rfl
@[simp] theorem State.later_grids (s : State) (e : Instr) : (s.later e).grids = s.grids := rfl
@[simp] theorem State.later_ctxs (s : State) (e : Instr) : (s.later e).ctxs = s.ctxs := rfl
@[simp] theorem State.later_blocks (s : State) (e : Instr) : (s.later e).blocks = s.blocks := rfl
@[simp] theorem State.later_groups (s : State) (e : Instr) : (s.later e).groups = s.groups := rfl
@[simp] theorem State.later_clusters (s : State) (e : Instr) : (s.later e).clusters = s.clusters := rfl
@[simp] theorem State.later_cores (s : State) (e : Instr) : (s.later e).cores = s.cores := rfl
@[simp] theorem State.later_writes (s : State) (e : Instr) : (s.later e).writes = s.writes := rfl
@[simp] theorem State.later_atomics (s : State) (e : Instr) : (s.later e).atomics = s.atomics := rfl
@[simp] theorem State.later_tileOps (s : State) (e : Instr) : (s.later e).tileOps = s.tileOps := rfl
@[simp] theorem State.later_models (s : State) (e : Instr) : (s.later e).models = s.models := rfl
@[simp] theorem State.later_predictors (s : State) (e : Instr) : (s.later e).predictors = s.predictors := rfl
@[simp] theorem State.later_funcs (s : State) (e : Instr) : (s.later e).funcs = s.funcs := rfl
@[simp] theorem State.later_keys (s : State) (e : Instr) : (s.later e).keys = s.keys := rfl
@[simp] theorem State.later_slots (s : State) (e : Instr) : (s.later e).slots = s.slots := rfl
@[simp] theorem State.later_log (s : State) (e : Instr) : (s.later e).log = s.log := rfl
@[simp] theorem State.later_rungs (s : State) (e : Instr) : (s.later e).rungs = s.rungs := rfl
@[simp] theorem State.later_links (s : State) (e : Instr) : (s.later e).links = s.links := rfl
@[simp] theorem State.later_harts (s : State) (e : Instr) : (s.later e).harts = s.harts := rfl
@[simp] theorem State.later_ports (s : State) (e : Instr) : (s.later e).ports = s.ports := rfl
@[simp] theorem State.later_invals (s : State) (e : Instr) : (s.later e).invals = s.invals := rfl
@[simp] theorem State.later_stopall (s : State) (e : Instr) : (s.later e).stopall = s.stopall := rfl
@[simp] theorem State.later_caps (s : State) (e : Instr) : (s.later e).caps = s.caps := rfl
@[simp] theorem State.later_bellows (s : State) (e : Instr) : (s.later e).bellows = s.bellows := rfl
@[simp] theorem State.later_boot (s : State) (e : Instr) : (s.later e).boot = s.boot := rfl
@[simp] theorem State.later_logs (s : State) (e : Instr) : (s.later e).logs = s.logs := rfl
@[simp] theorem State.later_shelved (s : State) (e : Instr) : (s.later e).shelved = s.shelved := rfl
@[simp] theorem State.later_replies (s : State) (e : Instr) : (s.later e).replies = s.replies := rfl

/-! ### `State.logged` -/

@[simp] theorem State.logged_due (s : State) (e : LogEntry) : (s.logged e).due = s.due := rfl
@[simp] theorem State.logged_sel (s : State) (e : LogEntry) : (s.logged e).sel = s.sel := rfl
@[simp] theorem State.logged_draws (s : State) (e : LogEntry) : (s.logged e).draws = s.draws := rfl
@[simp] theorem State.logged_steps (s : State) (e : LogEntry) : (s.logged e).steps = s.steps := rfl
@[simp] theorem State.logged_ids (s : State) (e : LogEntry) : (s.logged e).ids = s.ids := rfl
@[simp] theorem State.logged_tsr (s : State) (e : LogEntry) : (s.logged e).tsr = s.tsr := rfl
@[simp] theorem State.logged_mem (s : State) (e : LogEntry) : (s.logged e).mem = s.mem := rfl
@[simp] theorem State.logged_sectorKeys (s : State) (e : LogEntry) : (s.logged e).sectorKeys = s.sectorKeys := rfl
@[simp] theorem State.logged_lost (s : State) (e : LogEntry) : (s.logged e).lost = s.lost := rfl
@[simp] theorem State.logged_keySlots (s : State) (e : LogEntry) : (s.logged e).keySlots = s.keySlots := rfl
@[simp] theorem State.logged_poison (s : State) (e : LogEntry) : (s.logged e).poison = s.poison := rfl
@[simp] theorem State.logged_unsettled (s : State) (e : LogEntry) : (s.logged e).unsettled = s.unsettled := rfl
@[simp] theorem State.logged_cache (s : State) (e : LogEntry) : (s.logged e).cache = s.cache := rfl
@[simp] theorem State.logged_tlb (s : State) (e : LogEntry) : (s.logged e).tlb = s.tlb := rfl
@[simp] theorem State.logged_mapped (s : State) (e : LogEntry) : (s.logged e).mapped = s.mapped := rfl
@[simp] theorem State.logged_walks (s : State) (e : LogEntry) : (s.logged e).walks = s.walks := rfl
@[simp] theorem State.logged_spaces (s : State) (e : LogEntry) : (s.logged e).spaces = s.spaces := rfl
@[simp] theorem State.logged_spaceBase (s : State) (e : LogEntry) : (s.logged e).spaceBase = s.spaceBase := rfl
@[simp] theorem State.logged_contexts (s : State) (e : LogEntry) : (s.logged e).contexts = s.contexts := rfl
@[simp] theorem State.logged_partitions (s : State) (e : LogEntry) : (s.logged e).partitions = s.partitions := rfl
@[simp] theorem State.logged_queues (s : State) (e : LogEntry) : (s.logged e).queues = s.queues := rfl
@[simp] theorem State.logged_grids (s : State) (e : LogEntry) : (s.logged e).grids = s.grids := rfl
@[simp] theorem State.logged_ctxs (s : State) (e : LogEntry) : (s.logged e).ctxs = s.ctxs := rfl
@[simp] theorem State.logged_blocks (s : State) (e : LogEntry) : (s.logged e).blocks = s.blocks := rfl
@[simp] theorem State.logged_groups (s : State) (e : LogEntry) : (s.logged e).groups = s.groups := rfl
@[simp] theorem State.logged_clusters (s : State) (e : LogEntry) : (s.logged e).clusters = s.clusters := rfl
@[simp] theorem State.logged_cores (s : State) (e : LogEntry) : (s.logged e).cores = s.cores := rfl
@[simp] theorem State.logged_writes (s : State) (e : LogEntry) : (s.logged e).writes = s.writes := rfl
@[simp] theorem State.logged_atomics (s : State) (e : LogEntry) : (s.logged e).atomics = s.atomics := rfl
@[simp] theorem State.logged_tileOps (s : State) (e : LogEntry) : (s.logged e).tileOps = s.tileOps := rfl
@[simp] theorem State.logged_models (s : State) (e : LogEntry) : (s.logged e).models = s.models := rfl
@[simp] theorem State.logged_predictors (s : State) (e : LogEntry) : (s.logged e).predictors = s.predictors := rfl
@[simp] theorem State.logged_funcs (s : State) (e : LogEntry) : (s.logged e).funcs = s.funcs := rfl
@[simp] theorem State.logged_keys (s : State) (e : LogEntry) : (s.logged e).keys = s.keys := rfl
@[simp] theorem State.logged_slots (s : State) (e : LogEntry) : (s.logged e).slots = s.slots := rfl
@[simp] theorem State.logged_log (s : State) (e : LogEntry) : (s.logged e).log = s.log ++ [e] := rfl
@[simp] theorem State.logged_rungs (s : State) (e : LogEntry) : (s.logged e).rungs = s.rungs := rfl
@[simp] theorem State.logged_links (s : State) (e : LogEntry) : (s.logged e).links = s.links := rfl
@[simp] theorem State.logged_harts (s : State) (e : LogEntry) : (s.logged e).harts = s.harts := rfl
@[simp] theorem State.logged_ports (s : State) (e : LogEntry) : (s.logged e).ports = s.ports := rfl
@[simp] theorem State.logged_invals (s : State) (e : LogEntry) : (s.logged e).invals = s.invals := rfl
@[simp] theorem State.logged_stopall (s : State) (e : LogEntry) : (s.logged e).stopall = s.stopall := rfl
@[simp] theorem State.logged_caps (s : State) (e : LogEntry) : (s.logged e).caps = s.caps := rfl
@[simp] theorem State.logged_bellows (s : State) (e : LogEntry) : (s.logged e).bellows = s.bellows := rfl
@[simp] theorem State.logged_boot (s : State) (e : LogEntry) : (s.logged e).boot = s.boot := rfl
@[simp] theorem State.logged_logs (s : State) (e : LogEntry) : (s.logged e).logs = s.logs := rfl
@[simp] theorem State.logged_shelved (s : State) (e : LogEntry) : (s.logged e).shelved = s.shelved := rfl
@[simp] theorem State.logged_replies (s : State) (e : LogEntry) : (s.logged e).replies = s.replies := rfl

/-! ### Lookups after updates of other records -/

@[simp] theorem State.group_setBlock (s : State) (x : Block) (n : Nat) : (s.setBlock x).group? n = s.group? n := rfl
@[simp] theorem State.group_setGrid (s : State) (x : Grid) (n : Nat) : (s.setGrid x).group? n = s.group? n := rfl
@[simp] theorem State.group_setCtx (s : State) (x : Ctx) (n : Nat) : (s.setCtx x).group? n = s.group? n := rfl
@[simp] theorem State.group_setContext (s : State) (x : Context) (n : Nat) : (s.setContext x).group? n = s.group? n := rfl
@[simp] theorem State.group_setPartition (s : State) (x : Partition) (n : Nat) : (s.setPartition x).group? n = s.group? n := rfl
@[simp] theorem State.group_setQueue (s : State) (x : Queue) (n : Nat) : (s.setQueue x).group? n = s.group? n := rfl
@[simp] theorem State.group_setCore (s : State) (x : Core) (n : Nat) : (s.setCore x).group? n = s.group? n := rfl
@[simp] theorem State.group_setCluster (s : State) (x : Cluster) (n : Nat) : (s.setCluster x).group? n = s.group? n := rfl
@[simp] theorem State.group_poke (s : State) (pa : Nat) (b : Byte) (n : Nat) : (s.poke pa b).group? n = s.group? n := rfl
@[simp] theorem State.group_later (s : State) (e : Instr) (n : Nat) : (s.later e).group? n = s.group? n := rfl
@[simp] theorem State.group_logged (s : State) (e : LogEntry) (n : Nat) : (s.logged e).group? n = s.group? n := rfl
@[simp] theorem State.block_setGroup (s : State) (x : Group) (n : Nat) : (s.setGroup x).block? n = s.block? n := rfl
@[simp] theorem State.block_setGrid (s : State) (x : Grid) (n : Nat) : (s.setGrid x).block? n = s.block? n := rfl
@[simp] theorem State.block_setCtx (s : State) (x : Ctx) (n : Nat) : (s.setCtx x).block? n = s.block? n := rfl
@[simp] theorem State.block_setContext (s : State) (x : Context) (n : Nat) : (s.setContext x).block? n = s.block? n := rfl
@[simp] theorem State.block_setPartition (s : State) (x : Partition) (n : Nat) : (s.setPartition x).block? n = s.block? n := rfl
@[simp] theorem State.block_setQueue (s : State) (x : Queue) (n : Nat) : (s.setQueue x).block? n = s.block? n := rfl
@[simp] theorem State.block_setCore (s : State) (x : Core) (n : Nat) : (s.setCore x).block? n = s.block? n := rfl
@[simp] theorem State.block_setCluster (s : State) (x : Cluster) (n : Nat) : (s.setCluster x).block? n = s.block? n := rfl
@[simp] theorem State.block_poke (s : State) (pa : Nat) (b : Byte) (n : Nat) : (s.poke pa b).block? n = s.block? n := rfl
@[simp] theorem State.block_later (s : State) (e : Instr) (n : Nat) : (s.later e).block? n = s.block? n := rfl
@[simp] theorem State.block_logged (s : State) (e : LogEntry) (n : Nat) : (s.logged e).block? n = s.block? n := rfl
@[simp] theorem State.blockOf_setGroup (s : State) (x : Group) (g : Group) : (s.setGroup x).blockOf g = s.blockOf g := rfl
@[simp] theorem State.blockOf_setGrid (s : State) (x : Grid) (g : Group) : (s.setGrid x).blockOf g = s.blockOf g := rfl
@[simp] theorem State.blockOf_setCtx (s : State) (x : Ctx) (g : Group) : (s.setCtx x).blockOf g = s.blockOf g := rfl
@[simp] theorem State.blockOf_setContext (s : State) (x : Context) (g : Group) : (s.setContext x).blockOf g = s.blockOf g := rfl
@[simp] theorem State.blockOf_setPartition (s : State) (x : Partition) (g : Group) : (s.setPartition x).blockOf g = s.blockOf g := rfl
@[simp] theorem State.blockOf_setQueue (s : State) (x : Queue) (g : Group) : (s.setQueue x).blockOf g = s.blockOf g := rfl
@[simp] theorem State.blockOf_setCore (s : State) (x : Core) (g : Group) : (s.setCore x).blockOf g = s.blockOf g := rfl
@[simp] theorem State.blockOf_setCluster (s : State) (x : Cluster) (g : Group) : (s.setCluster x).blockOf g = s.blockOf g := rfl
@[simp] theorem State.blockOf_poke (s : State) (pa : Nat) (b : Byte) (g : Group) : (s.poke pa b).blockOf g = s.blockOf g := rfl
@[simp] theorem State.blockOf_later (s : State) (e : Instr) (g : Group) : (s.later e).blockOf g = s.blockOf g := rfl
@[simp] theorem State.blockOf_logged (s : State) (e : LogEntry) (g : Group) : (s.logged e).blockOf g = s.blockOf g := rfl
@[simp] theorem State.grid_setGroup (s : State) (x : Group) (n : Nat) : (s.setGroup x).grid? n = s.grid? n := rfl
@[simp] theorem State.grid_setBlock (s : State) (x : Block) (n : Nat) : (s.setBlock x).grid? n = s.grid? n := rfl
@[simp] theorem State.grid_setCtx (s : State) (x : Ctx) (n : Nat) : (s.setCtx x).grid? n = s.grid? n := rfl
@[simp] theorem State.grid_setContext (s : State) (x : Context) (n : Nat) : (s.setContext x).grid? n = s.grid? n := rfl
@[simp] theorem State.grid_setPartition (s : State) (x : Partition) (n : Nat) : (s.setPartition x).grid? n = s.grid? n := rfl
@[simp] theorem State.grid_setQueue (s : State) (x : Queue) (n : Nat) : (s.setQueue x).grid? n = s.grid? n := rfl
@[simp] theorem State.grid_setCore (s : State) (x : Core) (n : Nat) : (s.setCore x).grid? n = s.grid? n := rfl
@[simp] theorem State.grid_setCluster (s : State) (x : Cluster) (n : Nat) : (s.setCluster x).grid? n = s.grid? n := rfl
@[simp] theorem State.grid_poke (s : State) (pa : Nat) (b : Byte) (n : Nat) : (s.poke pa b).grid? n = s.grid? n := rfl
@[simp] theorem State.grid_later (s : State) (e : Instr) (n : Nat) : (s.later e).grid? n = s.grid? n := rfl
@[simp] theorem State.grid_logged (s : State) (e : LogEntry) (n : Nat) : (s.logged e).grid? n = s.grid? n := rfl
@[simp] theorem State.ctx_setGroup (s : State) (x : Group) (n : Nat) : (s.setGroup x).ctx? n = s.ctx? n := rfl
@[simp] theorem State.ctx_setBlock (s : State) (x : Block) (n : Nat) : (s.setBlock x).ctx? n = s.ctx? n := rfl
@[simp] theorem State.ctx_setGrid (s : State) (x : Grid) (n : Nat) : (s.setGrid x).ctx? n = s.ctx? n := rfl
@[simp] theorem State.ctx_setContext (s : State) (x : Context) (n : Nat) : (s.setContext x).ctx? n = s.ctx? n := rfl
@[simp] theorem State.ctx_setPartition (s : State) (x : Partition) (n : Nat) : (s.setPartition x).ctx? n = s.ctx? n := rfl
@[simp] theorem State.ctx_setQueue (s : State) (x : Queue) (n : Nat) : (s.setQueue x).ctx? n = s.ctx? n := rfl
@[simp] theorem State.ctx_setCore (s : State) (x : Core) (n : Nat) : (s.setCore x).ctx? n = s.ctx? n := rfl
@[simp] theorem State.ctx_setCluster (s : State) (x : Cluster) (n : Nat) : (s.setCluster x).ctx? n = s.ctx? n := rfl
@[simp] theorem State.ctx_poke (s : State) (pa : Nat) (b : Byte) (n : Nat) : (s.poke pa b).ctx? n = s.ctx? n := rfl
@[simp] theorem State.ctx_later (s : State) (e : Instr) (n : Nat) : (s.later e).ctx? n = s.ctx? n := rfl
@[simp] theorem State.ctx_logged (s : State) (e : LogEntry) (n : Nat) : (s.logged e).ctx? n = s.ctx? n := rfl
@[simp] theorem State.context_setGroup (s : State) (x : Group) (n : Nat) : (s.setGroup x).context? n = s.context? n := rfl
@[simp] theorem State.context_setBlock (s : State) (x : Block) (n : Nat) : (s.setBlock x).context? n = s.context? n := rfl
@[simp] theorem State.context_setGrid (s : State) (x : Grid) (n : Nat) : (s.setGrid x).context? n = s.context? n := rfl
@[simp] theorem State.context_setCtx (s : State) (x : Ctx) (n : Nat) : (s.setCtx x).context? n = s.context? n := rfl
@[simp] theorem State.context_setPartition (s : State) (x : Partition) (n : Nat) : (s.setPartition x).context? n = s.context? n := rfl
@[simp] theorem State.context_setQueue (s : State) (x : Queue) (n : Nat) : (s.setQueue x).context? n = s.context? n := rfl
@[simp] theorem State.context_setCore (s : State) (x : Core) (n : Nat) : (s.setCore x).context? n = s.context? n := rfl
@[simp] theorem State.context_setCluster (s : State) (x : Cluster) (n : Nat) : (s.setCluster x).context? n = s.context? n := rfl
@[simp] theorem State.context_poke (s : State) (pa : Nat) (b : Byte) (n : Nat) : (s.poke pa b).context? n = s.context? n := rfl
@[simp] theorem State.context_later (s : State) (e : Instr) (n : Nat) : (s.later e).context? n = s.context? n := rfl
@[simp] theorem State.context_logged (s : State) (e : LogEntry) (n : Nat) : (s.logged e).context? n = s.context? n := rfl
@[simp] theorem State.partition_setGroup (s : State) (x : Group) (n : Nat) : (s.setGroup x).partition? n = s.partition? n := rfl
@[simp] theorem State.partition_setBlock (s : State) (x : Block) (n : Nat) : (s.setBlock x).partition? n = s.partition? n := rfl
@[simp] theorem State.partition_setGrid (s : State) (x : Grid) (n : Nat) : (s.setGrid x).partition? n = s.partition? n := rfl
@[simp] theorem State.partition_setCtx (s : State) (x : Ctx) (n : Nat) : (s.setCtx x).partition? n = s.partition? n := rfl
@[simp] theorem State.partition_setContext (s : State) (x : Context) (n : Nat) : (s.setContext x).partition? n = s.partition? n := rfl
@[simp] theorem State.partition_setQueue (s : State) (x : Queue) (n : Nat) : (s.setQueue x).partition? n = s.partition? n := rfl
@[simp] theorem State.partition_setCore (s : State) (x : Core) (n : Nat) : (s.setCore x).partition? n = s.partition? n := rfl
@[simp] theorem State.partition_setCluster (s : State) (x : Cluster) (n : Nat) : (s.setCluster x).partition? n = s.partition? n := rfl
@[simp] theorem State.partition_poke (s : State) (pa : Nat) (b : Byte) (n : Nat) : (s.poke pa b).partition? n = s.partition? n := rfl
@[simp] theorem State.partition_later (s : State) (e : Instr) (n : Nat) : (s.later e).partition? n = s.partition? n := rfl
@[simp] theorem State.partition_logged (s : State) (e : LogEntry) (n : Nat) : (s.logged e).partition? n = s.partition? n := rfl
@[simp] theorem State.queue_setGroup (s : State) (x : Group) (n : Nat) : (s.setGroup x).queue? n = s.queue? n := rfl
@[simp] theorem State.queue_setBlock (s : State) (x : Block) (n : Nat) : (s.setBlock x).queue? n = s.queue? n := rfl
@[simp] theorem State.queue_setGrid (s : State) (x : Grid) (n : Nat) : (s.setGrid x).queue? n = s.queue? n := rfl
@[simp] theorem State.queue_setCtx (s : State) (x : Ctx) (n : Nat) : (s.setCtx x).queue? n = s.queue? n := rfl
@[simp] theorem State.queue_setContext (s : State) (x : Context) (n : Nat) : (s.setContext x).queue? n = s.queue? n := rfl
@[simp] theorem State.queue_setPartition (s : State) (x : Partition) (n : Nat) : (s.setPartition x).queue? n = s.queue? n := rfl
@[simp] theorem State.queue_setCore (s : State) (x : Core) (n : Nat) : (s.setCore x).queue? n = s.queue? n := rfl
@[simp] theorem State.queue_setCluster (s : State) (x : Cluster) (n : Nat) : (s.setCluster x).queue? n = s.queue? n := rfl
@[simp] theorem State.queue_poke (s : State) (pa : Nat) (b : Byte) (n : Nat) : (s.poke pa b).queue? n = s.queue? n := rfl
@[simp] theorem State.queue_later (s : State) (e : Instr) (n : Nat) : (s.later e).queue? n = s.queue? n := rfl
@[simp] theorem State.queue_logged (s : State) (e : LogEntry) (n : Nat) : (s.logged e).queue? n = s.queue? n := rfl
@[simp] theorem State.core_setGroup (s : State) (x : Group) (n : Nat) : (s.setGroup x).core n = s.core n := rfl
@[simp] theorem State.core_setBlock (s : State) (x : Block) (n : Nat) : (s.setBlock x).core n = s.core n := rfl
@[simp] theorem State.core_setGrid (s : State) (x : Grid) (n : Nat) : (s.setGrid x).core n = s.core n := rfl
@[simp] theorem State.core_setCtx (s : State) (x : Ctx) (n : Nat) : (s.setCtx x).core n = s.core n := rfl
@[simp] theorem State.core_setContext (s : State) (x : Context) (n : Nat) : (s.setContext x).core n = s.core n := rfl
@[simp] theorem State.core_setPartition (s : State) (x : Partition) (n : Nat) : (s.setPartition x).core n = s.core n := rfl
@[simp] theorem State.core_setQueue (s : State) (x : Queue) (n : Nat) : (s.setQueue x).core n = s.core n := rfl
@[simp] theorem State.core_setCluster (s : State) (x : Cluster) (n : Nat) : (s.setCluster x).core n = s.core n := rfl
@[simp] theorem State.core_poke (s : State) (pa : Nat) (b : Byte) (n : Nat) : (s.poke pa b).core n = s.core n := rfl
@[simp] theorem State.core_later (s : State) (e : Instr) (n : Nat) : (s.later e).core n = s.core n := rfl
@[simp] theorem State.core_logged (s : State) (e : LogEntry) (n : Nat) : (s.logged e).core n = s.core n := rfl
@[simp] theorem State.cluster_setGroup (s : State) (x : Group) (n : Nat) : (s.setGroup x).cluster n = s.cluster n := rfl
@[simp] theorem State.cluster_setBlock (s : State) (x : Block) (n : Nat) : (s.setBlock x).cluster n = s.cluster n := rfl
@[simp] theorem State.cluster_setGrid (s : State) (x : Grid) (n : Nat) : (s.setGrid x).cluster n = s.cluster n := rfl
@[simp] theorem State.cluster_setCtx (s : State) (x : Ctx) (n : Nat) : (s.setCtx x).cluster n = s.cluster n := rfl
@[simp] theorem State.cluster_setContext (s : State) (x : Context) (n : Nat) : (s.setContext x).cluster n = s.cluster n := rfl
@[simp] theorem State.cluster_setPartition (s : State) (x : Partition) (n : Nat) : (s.setPartition x).cluster n = s.cluster n := rfl
@[simp] theorem State.cluster_setQueue (s : State) (x : Queue) (n : Nat) : (s.setQueue x).cluster n = s.cluster n := rfl
@[simp] theorem State.cluster_setCore (s : State) (x : Core) (n : Nat) : (s.setCore x).cluster n = s.cluster n := rfl
@[simp] theorem State.cluster_poke (s : State) (pa : Nat) (b : Byte) (n : Nat) : (s.poke pa b).cluster n = s.cluster n := rfl
@[simp] theorem State.cluster_later (s : State) (e : Instr) (n : Nat) : (s.later e).cluster n = s.cluster n := rfl
@[simp] theorem State.cluster_logged (s : State) (e : LogEntry) (n : Nat) : (s.logged e).cluster n = s.cluster n := rfl
@[simp] theorem State.epoch_setGroup (s : State) (x : Group) (k : Nat) : (s.setGroup x).epoch k = s.epoch k := rfl
@[simp] theorem State.epoch_setBlock (s : State) (x : Block) (k : Nat) : (s.setBlock x).epoch k = s.epoch k := rfl
@[simp] theorem State.epoch_setGrid (s : State) (x : Grid) (k : Nat) : (s.setGrid x).epoch k = s.epoch k := rfl
@[simp] theorem State.epoch_setCtx (s : State) (x : Ctx) (k : Nat) : (s.setCtx x).epoch k = s.epoch k := rfl
@[simp] theorem State.epoch_setContext (s : State) (x : Context) (k : Nat) : (s.setContext x).epoch k = s.epoch k := rfl
@[simp] theorem State.epoch_setPartition (s : State) (x : Partition) (k : Nat) : (s.setPartition x).epoch k = s.epoch k := rfl
@[simp] theorem State.epoch_setQueue (s : State) (x : Queue) (k : Nat) : (s.setQueue x).epoch k = s.epoch k := rfl
@[simp] theorem State.epoch_setCore (s : State) (x : Core) (k : Nat) : (s.setCore x).epoch k = s.epoch k := rfl
@[simp] theorem State.epoch_setCluster (s : State) (x : Cluster) (k : Nat) : (s.setCluster x).epoch k = s.epoch k := rfl
@[simp] theorem State.epoch_poke (s : State) (pa : Nat) (b : Byte) (k : Nat) : (s.poke pa b).epoch k = s.epoch k := rfl
@[simp] theorem State.epoch_later (s : State) (e : Instr) (k : Nat) : (s.later e).epoch k = s.epoch k := rfl
@[simp] theorem State.epoch_logged (s : State) (e : LogEntry) (k : Nat) : (s.logged e).epoch k = s.epoch k := rfl
@[simp] theorem State.homeByte_setGroup (s : State) (x : Group) (k p : Nat) : (s.setGroup x).homeByte k p = s.homeByte k p := rfl
@[simp] theorem State.homeByte_setBlock (s : State) (x : Block) (k p : Nat) : (s.setBlock x).homeByte k p = s.homeByte k p := rfl
@[simp] theorem State.homeByte_setGrid (s : State) (x : Grid) (k p : Nat) : (s.setGrid x).homeByte k p = s.homeByte k p := rfl
@[simp] theorem State.homeByte_setCtx (s : State) (x : Ctx) (k p : Nat) : (s.setCtx x).homeByte k p = s.homeByte k p := rfl
@[simp] theorem State.homeByte_setContext (s : State) (x : Context) (k p : Nat) : (s.setContext x).homeByte k p = s.homeByte k p := rfl
@[simp] theorem State.homeByte_setPartition (s : State) (x : Partition) (k p : Nat) : (s.setPartition x).homeByte k p = s.homeByte k p := rfl
@[simp] theorem State.homeByte_setQueue (s : State) (x : Queue) (k p : Nat) : (s.setQueue x).homeByte k p = s.homeByte k p := rfl
@[simp] theorem State.homeByte_setCore (s : State) (x : Core) (k p : Nat) : (s.setCore x).homeByte k p = s.homeByte k p := rfl
@[simp] theorem State.homeByte_setCluster (s : State) (x : Cluster) (k p : Nat) : (s.setCluster x).homeByte k p = s.homeByte k p := rfl
@[simp] theorem State.homeByte_later (s : State) (e : Instr) (k p : Nat) : (s.later e).homeByte k p = s.homeByte k p := rfl
@[simp] theorem State.homeByte_logged (s : State) (e : LogEntry) (k p : Nat) : (s.logged e).homeByte k p = s.homeByte k p := rfl

/-! ### Lookups after updates of their own record -/

@[simp] theorem State.group_setGroup_same (s : State) (x : Group) : (s.setGroup x).group? x.id = some x :=
  find?_upsert_same Group.id x _

theorem State.group_setGroup_other (s : State) (x : Group) {n : Nat} (h : n ≠ x.id) : (s.setGroup x).group? n = s.group? n :=
  find?_upsert_other Group.id x _ h

@[simp] theorem State.block_setBlock_same (s : State) (x : Block) : (s.setBlock x).block? x.id = some x :=
  find?_upsert_same Block.id x _

theorem State.block_setBlock_other (s : State) (x : Block) {n : Nat} (h : n ≠ x.id) : (s.setBlock x).block? n = s.block? n :=
  find?_upsert_other Block.id x _ h

@[simp] theorem State.grid_setGrid_same (s : State) (x : Grid) : (s.setGrid x).grid? x.id = some x :=
  find?_upsert_same Grid.id x _

theorem State.grid_setGrid_other (s : State) (x : Grid) {n : Nat} (h : n ≠ x.id) : (s.setGrid x).grid? n = s.grid? n :=
  find?_upsert_other Grid.id x _ h

@[simp] theorem State.ctx_setCtx_same (s : State) (x : Ctx) : (s.setCtx x).ctx? x.id = some x :=
  find?_upsert_same Ctx.id x _

theorem State.ctx_setCtx_other (s : State) (x : Ctx) {n : Nat} (h : n ≠ x.id) : (s.setCtx x).ctx? n = s.ctx? n :=
  find?_upsert_other Ctx.id x _ h

@[simp] theorem State.context_setContext_same (s : State) (x : Context) : (s.setContext x).context? x.asid = some x :=
  find?_upsert_same Context.asid x _

theorem State.context_setContext_other (s : State) (x : Context) {n : Nat} (h : n ≠ x.asid) : (s.setContext x).context? n = s.context? n :=
  find?_upsert_other Context.asid x _ h

@[simp] theorem State.partition_setPartition_same (s : State) (x : Partition) : (s.setPartition x).partition? x.id = some x :=
  find?_upsert_same Partition.id x _

theorem State.partition_setPartition_other (s : State) (x : Partition) {n : Nat} (h : n ≠ x.id) : (s.setPartition x).partition? n = s.partition? n :=
  find?_upsert_other Partition.id x _ h

@[simp] theorem State.queue_setQueue_same (s : State) (x : Queue) : (s.setQueue x).queue? x.qid = some x :=
  find?_upsert_same Queue.qid x _

theorem State.queue_setQueue_other (s : State) (x : Queue) {n : Nat} (h : n ≠ x.qid) : (s.setQueue x).queue? n = s.queue? n :=
  find?_upsert_other Queue.qid x _ h

@[simp] theorem State.core_setCore_same (s : State) (x : Core) : (s.setCore x).core x.num = x := by
  simp only [State.core, State.setCore, find?_upsert_same Core.num x, Option.getD_some]

theorem State.core_setCore_other (s : State) (x : Core) {n : Nat} (h : n ≠ x.num) : (s.setCore x).core n = s.core n := by
  simp only [State.core, State.setCore, find?_upsert_other Core.num x _ h]

@[simp] theorem State.cluster_setCluster_same (s : State) (x : Cluster) : (s.setCluster x).cluster x.num = x := by
  simp only [State.cluster, State.setCluster, find?_upsert_same Cluster.num x, Option.getD_some]

theorem State.cluster_setCluster_other (s : State) (x : Cluster) {n : Nat} (h : n ≠ x.num) : (s.setCluster x).cluster n = s.cluster n := by
  simp only [State.cluster, State.setCluster, find?_upsert_other Cluster.num x _ h]

/-! ### Named updates of a group -/

/-! `Group.setUnit` -/

@[simp] theorem Group.setUnit_id (g : Group) (u : GUnit) : (g.setUnit u).id = g.id := by unfold Group.setUnit; split <;> rfl
@[simp] theorem Group.setUnit_core (g : Group) (u : GUnit) : (g.setUnit u).core = g.core := by unfold Group.setUnit; split <;> rfl
@[simp] theorem Group.setUnit_slot (g : Group) (u : GUnit) : (g.setUnit u).slot = g.slot := by unfold Group.setUnit; split <;> rfl
@[simp] theorem Group.setUnit_gang (g : Group) (u : GUnit) : (g.setUnit u).gang = g.gang := by unfold Group.setUnit; split <;> rfl
@[simp] theorem Group.setUnit_width (g : Group) (u : GUnit) : (g.setUnit u).width = g.width := by unfold Group.setUnit; split <;> rfl
@[simp] theorem Group.setUnit_block (g : Group) (u : GUnit) : (g.setUnit u).block = g.block := by unfold Group.setUnit; split <;> rfl
@[simp] theorem Group.setUnit_index (g : Group) (u : GUnit) : (g.setUnit u).index = g.index := by unfold Group.setUnit; split <;> rfl
@[simp] theorem Group.setUnit_free (g : Group) (u : GUnit) : (g.setUnit u).free = g.free := by unfold Group.setUnit; split <;> rfl
@[simp] theorem Group.setUnit_sregs (g : Group) (u : GUnit) : (g.setUnit u).sregs = g.sregs := by unfold Group.setUnit; split <;> rfl
@[simp] theorem Group.setUnit_pending (g : Group) (u : GUnit) : (g.setUnit u).pending = g.pending := by unfold Group.setUnit; split <;> rfl
@[simp] theorem Group.setUnit_unread (g : Group) (u : GUnit) : (g.setUnit u).unread = g.unread := by unfold Group.setUnit; split <;> rfl
@[simp] theorem Group.setUnit_tokFaults (g : Group) (u : GUnit) : (g.setUnit u).tokFaults = g.tokFaults := by unfold Group.setUnit; split <;> rfl
@[simp] theorem Group.setUnit_vregs (g : Group) (u : GUnit) : (g.setUnit u).vregs = g.vregs := by unfold Group.setUnit; split <;> rfl
@[simp] theorem Group.setUnit_chunks (g : Group) (u : GUnit) : (g.setUnit u).chunks = g.chunks := by unfold Group.setUnit; split <;> rfl
@[simp] theorem Group.setUnit_vwin (g : Group) (u : GUnit) : (g.setUnit u).vwin = g.vwin := by unfold Group.setUnit; split <;> rfl
@[simp] theorem Group.setUnit_preds (g : Group) (u : GUnit) : (g.setUnit u).preds = g.preds := by unfold Group.setUnit; split <;> rfl
@[simp] theorem Group.setUnit_gens (g : Group) (u : GUnit) : (g.setUnit u).gens = g.gens := by unfold Group.setUnit; split <;> rfl
@[simp] theorem Group.setUnit_live (g : Group) (u : GUnit) : (g.setUnit u).live = g.live := by unfold Group.setUnit; split <;> rfl
@[simp] theorem Group.setUnit_rgmap (g : Group) (u : GUnit) : (g.setUnit u).rgmap = g.rgmap := by unfold Group.setUnit; split <;> rfl
@[simp] theorem Group.setUnit_fflg (g : Group) (u : GUnit) : (g.setUnit u).fflg = g.fflg := by unfold Group.setUnit; split <;> rfl
@[simp] theorem Group.setUnit_role (g : Group) (u : GUnit) : (g.setUnit u).role = g.role := by unfold Group.setUnit; split <;> rfl
@[simp] theorem Group.setUnit_acbase (g : Group) (u : GUnit) : (g.setUnit u).acbase = g.acbase := by unfold Group.setUnit; split <;> rfl
@[simp] theorem Group.setUnit_aclim (g : Group) (u : GUnit) : (g.setUnit u).aclim = g.aclim := by unfold Group.setUnit; split <;> rfl
@[simp] theorem Group.setUnit_qb (g : Group) (u : GUnit) : (g.setUnit u).qb = g.qb := by unfold Group.setUnit; split <;> rfl
@[simp] theorem Group.setUnit_dvals (g : Group) (u : GUnit) : (g.setUnit u).dvals = g.dvals := by unfold Group.setUnit; split <;> rfl
@[simp] theorem Group.setUnit_queue (g : Group) (u : GUnit) : (g.setUnit u).queue = g.queue := by unfold Group.setUnit; split <;> rfl
@[simp] theorem Group.setUnit_nextSeq (g : Group) (u : GUnit) : (g.setUnit u).nextSeq = g.nextSeq := by unfold Group.setUnit; split <;> rfl
@[simp] theorem Group.setUnit_segment (g : Group) (u : GUnit) : (g.setUnit u).segment = g.segment := by unfold Group.setUnit; split <;> rfl
@[simp] theorem Group.setUnit_baseDepth (g : Group) (u : GUnit) : (g.setUnit u).baseDepth = g.baseDepth := by unfold Group.setUnit; split <;> rfl
@[simp] theorem Group.setUnit_nextUid (g : Group) (u : GUnit) : (g.setUnit u).nextUid = g.nextUid := by unfold Group.setUnit; split <;> rfl
@[simp] theorem Group.setUnit_recon (g : Group) (u : GUnit) : (g.setUnit u).recon = g.recon := by unfold Group.setUnit; split <;> rfl
@[simp] theorem Group.setUnit_trap (g : Group) (u : GUnit) : (g.setUnit u).trap = g.trap := by unfold Group.setUnit; split <;> rfl
@[simp] theorem Group.setUnit_doubleFault (g : Group) (u : GUnit) : (g.setUnit u).doubleFault = g.doubleFault := by unfold Group.setUnit; split <;> rfl
@[simp] theorem Group.setUnit_halted (g : Group) (u : GUnit) : (g.setUnit u).halted = g.halted := by unfold Group.setUnit; split <;> rfl
@[simp] theorem Group.setUnit_async (g : Group) (u : GUnit) : (g.setUnit u).async = g.async := by unfold Group.setUnit; split <;> rfl
@[simp] theorem Group.setUnit_draining (g : Group) (u : GUnit) : (g.setUnit u).draining = g.draining := by unfold Group.setUnit; split <;> rfl
@[simp] theorem Group.setUnit_replay (g : Group) (u : GUnit) : (g.setUnit u).replay = g.replay := by unfold Group.setUnit; split <;> rfl
@[simp] theorem Group.setUnit_lastIssue (g : Group) (u : GUnit) : (g.setUnit u).lastIssue = g.lastIssue := by unfold Group.setUnit; split <;> rfl
@[simp] theorem Group.setUnit_pid (g : Group) (u : GUnit) : (g.setUnit u).pid = g.pid := by unfold Group.setUnit; split <;> rfl
@[simp] theorem Group.setUnit_thread (g : Group) (u : GUnit) : (g.setUnit u).thread = g.thread := by unfold Group.setUnit; split <;> rfl
@[simp] theorem Group.setUnit_trace (g : Group) (u : GUnit) : (g.setUnit u).trace = g.trace := by unfold Group.setUnit; split <;> rfl

/-! `Group.setS` -/

@[simp] theorem Group.setS_id (g : Group) (r : Nat) (v : Word) : (g.setS r v).id = g.id := by unfold Group.setS; split <;> rfl
@[simp] theorem Group.setS_core (g : Group) (r : Nat) (v : Word) : (g.setS r v).core = g.core := by unfold Group.setS; split <;> rfl
@[simp] theorem Group.setS_slot (g : Group) (r : Nat) (v : Word) : (g.setS r v).slot = g.slot := by unfold Group.setS; split <;> rfl
@[simp] theorem Group.setS_gang (g : Group) (r : Nat) (v : Word) : (g.setS r v).gang = g.gang := by unfold Group.setS; split <;> rfl
@[simp] theorem Group.setS_width (g : Group) (r : Nat) (v : Word) : (g.setS r v).width = g.width := by unfold Group.setS; split <;> rfl
@[simp] theorem Group.setS_block (g : Group) (r : Nat) (v : Word) : (g.setS r v).block = g.block := by unfold Group.setS; split <;> rfl
@[simp] theorem Group.setS_index (g : Group) (r : Nat) (v : Word) : (g.setS r v).index = g.index := by unfold Group.setS; split <;> rfl
@[simp] theorem Group.setS_free (g : Group) (r : Nat) (v : Word) : (g.setS r v).free = g.free := by unfold Group.setS; split <;> rfl
@[simp] theorem Group.setS_pending (g : Group) (r : Nat) (v : Word) : (g.setS r v).pending = g.pending := by unfold Group.setS; split <;> rfl
@[simp] theorem Group.setS_vregs (g : Group) (r : Nat) (v : Word) : (g.setS r v).vregs = g.vregs := by unfold Group.setS; split <;> rfl
@[simp] theorem Group.setS_chunks (g : Group) (r : Nat) (v : Word) : (g.setS r v).chunks = g.chunks := by unfold Group.setS; split <;> rfl
@[simp] theorem Group.setS_vwin (g : Group) (r : Nat) (v : Word) : (g.setS r v).vwin = g.vwin := by unfold Group.setS; split <;> rfl
@[simp] theorem Group.setS_preds (g : Group) (r : Nat) (v : Word) : (g.setS r v).preds = g.preds := by unfold Group.setS; split <;> rfl
@[simp] theorem Group.setS_gens (g : Group) (r : Nat) (v : Word) : (g.setS r v).gens = g.gens := by unfold Group.setS; split <;> rfl
@[simp] theorem Group.setS_live (g : Group) (r : Nat) (v : Word) : (g.setS r v).live = g.live := by unfold Group.setS; split <;> rfl
@[simp] theorem Group.setS_rgmap (g : Group) (r : Nat) (v : Word) : (g.setS r v).rgmap = g.rgmap := by unfold Group.setS; split <;> rfl
@[simp] theorem Group.setS_fflg (g : Group) (r : Nat) (v : Word) : (g.setS r v).fflg = g.fflg := by unfold Group.setS; split <;> rfl
@[simp] theorem Group.setS_role (g : Group) (r : Nat) (v : Word) : (g.setS r v).role = g.role := by unfold Group.setS; split <;> rfl
@[simp] theorem Group.setS_acbase (g : Group) (r : Nat) (v : Word) : (g.setS r v).acbase = g.acbase := by unfold Group.setS; split <;> rfl
@[simp] theorem Group.setS_aclim (g : Group) (r : Nat) (v : Word) : (g.setS r v).aclim = g.aclim := by unfold Group.setS; split <;> rfl
@[simp] theorem Group.setS_qb (g : Group) (r : Nat) (v : Word) : (g.setS r v).qb = g.qb := by unfold Group.setS; split <;> rfl
@[simp] theorem Group.setS_dvals (g : Group) (r : Nat) (v : Word) : (g.setS r v).dvals = g.dvals := by unfold Group.setS; split <;> rfl
@[simp] theorem Group.setS_queue (g : Group) (r : Nat) (v : Word) : (g.setS r v).queue = g.queue := by unfold Group.setS; split <;> rfl
@[simp] theorem Group.setS_nextSeq (g : Group) (r : Nat) (v : Word) : (g.setS r v).nextSeq = g.nextSeq := by unfold Group.setS; split <;> rfl
@[simp] theorem Group.setS_segment (g : Group) (r : Nat) (v : Word) : (g.setS r v).segment = g.segment := by unfold Group.setS; split <;> rfl
@[simp] theorem Group.setS_baseDepth (g : Group) (r : Nat) (v : Word) : (g.setS r v).baseDepth = g.baseDepth := by unfold Group.setS; split <;> rfl
@[simp] theorem Group.setS_units (g : Group) (r : Nat) (v : Word) : (g.setS r v).units = g.units := by unfold Group.setS; split <;> rfl
@[simp] theorem Group.setS_nextUid (g : Group) (r : Nat) (v : Word) : (g.setS r v).nextUid = g.nextUid := by unfold Group.setS; split <;> rfl
@[simp] theorem Group.setS_recon (g : Group) (r : Nat) (v : Word) : (g.setS r v).recon = g.recon := by unfold Group.setS; split <;> rfl
@[simp] theorem Group.setS_handler (g : Group) (r : Nat) (v : Word) : (g.setS r v).handler = g.handler := by unfold Group.setS; split <;> rfl
@[simp] theorem Group.setS_trap (g : Group) (r : Nat) (v : Word) : (g.setS r v).trap = g.trap := by unfold Group.setS; split <;> rfl
@[simp] theorem Group.setS_doubleFault (g : Group) (r : Nat) (v : Word) : (g.setS r v).doubleFault = g.doubleFault := by unfold Group.setS; split <;> rfl
@[simp] theorem Group.setS_halted (g : Group) (r : Nat) (v : Word) : (g.setS r v).halted = g.halted := by unfold Group.setS; split <;> rfl
@[simp] theorem Group.setS_async (g : Group) (r : Nat) (v : Word) : (g.setS r v).async = g.async := by unfold Group.setS; split <;> rfl
@[simp] theorem Group.setS_draining (g : Group) (r : Nat) (v : Word) : (g.setS r v).draining = g.draining := by unfold Group.setS; split <;> rfl
@[simp] theorem Group.setS_replay (g : Group) (r : Nat) (v : Word) : (g.setS r v).replay = g.replay := by unfold Group.setS; split <;> rfl
@[simp] theorem Group.setS_lastIssue (g : Group) (r : Nat) (v : Word) : (g.setS r v).lastIssue = g.lastIssue := by unfold Group.setS; split <;> rfl
@[simp] theorem Group.setS_pid (g : Group) (r : Nat) (v : Word) : (g.setS r v).pid = g.pid := by unfold Group.setS; split <;> rfl
@[simp] theorem Group.setS_thread (g : Group) (r : Nat) (v : Word) : (g.setS r v).thread = g.thread := by unfold Group.setS; split <;> rfl
@[simp] theorem Group.setS_trace (g : Group) (r : Nat) (v : Word) : (g.setS r v).trace = g.trace := by unfold Group.setS; split <;> rfl

/-! `Group.setVreg` -/

@[simp] theorem Group.setVreg_id (g : Group) (r l : Nat) (v : Word32) : (g.setVreg r l v).id = g.id := rfl
@[simp] theorem Group.setVreg_core (g : Group) (r l : Nat) (v : Word32) : (g.setVreg r l v).core = g.core := rfl
@[simp] theorem Group.setVreg_slot (g : Group) (r l : Nat) (v : Word32) : (g.setVreg r l v).slot = g.slot := rfl
@[simp] theorem Group.setVreg_gang (g : Group) (r l : Nat) (v : Word32) : (g.setVreg r l v).gang = g.gang := rfl
@[simp] theorem Group.setVreg_width (g : Group) (r l : Nat) (v : Word32) : (g.setVreg r l v).width = g.width := rfl
@[simp] theorem Group.setVreg_block (g : Group) (r l : Nat) (v : Word32) : (g.setVreg r l v).block = g.block := rfl
@[simp] theorem Group.setVreg_index (g : Group) (r l : Nat) (v : Word32) : (g.setVreg r l v).index = g.index := rfl
@[simp] theorem Group.setVreg_free (g : Group) (r l : Nat) (v : Word32) : (g.setVreg r l v).free = g.free := rfl
@[simp] theorem Group.setVreg_sregs (g : Group) (r l : Nat) (v : Word32) : (g.setVreg r l v).sregs = g.sregs := rfl
@[simp] theorem Group.setVreg_pending (g : Group) (r l : Nat) (v : Word32) : (g.setVreg r l v).pending = g.pending := rfl
@[simp] theorem Group.setVreg_unread (g : Group) (r l : Nat) (v : Word32) : (g.setVreg r l v).unread = g.unread := rfl
@[simp] theorem Group.setVreg_tokFaults (g : Group) (r l : Nat) (v : Word32) : (g.setVreg r l v).tokFaults = g.tokFaults := rfl
@[simp] theorem Group.setVreg_chunks (g : Group) (r l : Nat) (v : Word32) : (g.setVreg r l v).chunks = g.chunks := rfl
@[simp] theorem Group.setVreg_vwin (g : Group) (r l : Nat) (v : Word32) : (g.setVreg r l v).vwin = g.vwin := rfl
@[simp] theorem Group.setVreg_preds (g : Group) (r l : Nat) (v : Word32) : (g.setVreg r l v).preds = g.preds := rfl
@[simp] theorem Group.setVreg_gens (g : Group) (r l : Nat) (v : Word32) : (g.setVreg r l v).gens = g.gens := rfl
@[simp] theorem Group.setVreg_live (g : Group) (r l : Nat) (v : Word32) : (g.setVreg r l v).live = g.live := rfl
@[simp] theorem Group.setVreg_rgmap (g : Group) (r l : Nat) (v : Word32) : (g.setVreg r l v).rgmap = g.rgmap := rfl
@[simp] theorem Group.setVreg_fflg (g : Group) (r l : Nat) (v : Word32) : (g.setVreg r l v).fflg = g.fflg := rfl
@[simp] theorem Group.setVreg_role (g : Group) (r l : Nat) (v : Word32) : (g.setVreg r l v).role = g.role := rfl
@[simp] theorem Group.setVreg_acbase (g : Group) (r l : Nat) (v : Word32) : (g.setVreg r l v).acbase = g.acbase := rfl
@[simp] theorem Group.setVreg_aclim (g : Group) (r l : Nat) (v : Word32) : (g.setVreg r l v).aclim = g.aclim := rfl
@[simp] theorem Group.setVreg_qb (g : Group) (r l : Nat) (v : Word32) : (g.setVreg r l v).qb = g.qb := rfl
@[simp] theorem Group.setVreg_dvals (g : Group) (r l : Nat) (v : Word32) : (g.setVreg r l v).dvals = g.dvals := rfl
@[simp] theorem Group.setVreg_queue (g : Group) (r l : Nat) (v : Word32) : (g.setVreg r l v).queue = g.queue := rfl
@[simp] theorem Group.setVreg_nextSeq (g : Group) (r l : Nat) (v : Word32) : (g.setVreg r l v).nextSeq = g.nextSeq := rfl
@[simp] theorem Group.setVreg_segment (g : Group) (r l : Nat) (v : Word32) : (g.setVreg r l v).segment = g.segment := rfl
@[simp] theorem Group.setVreg_baseDepth (g : Group) (r l : Nat) (v : Word32) : (g.setVreg r l v).baseDepth = g.baseDepth := rfl
@[simp] theorem Group.setVreg_units (g : Group) (r l : Nat) (v : Word32) : (g.setVreg r l v).units = g.units := rfl
@[simp] theorem Group.setVreg_nextUid (g : Group) (r l : Nat) (v : Word32) : (g.setVreg r l v).nextUid = g.nextUid := rfl
@[simp] theorem Group.setVreg_recon (g : Group) (r l : Nat) (v : Word32) : (g.setVreg r l v).recon = g.recon := rfl
@[simp] theorem Group.setVreg_handler (g : Group) (r l : Nat) (v : Word32) : (g.setVreg r l v).handler = g.handler := rfl
@[simp] theorem Group.setVreg_trap (g : Group) (r l : Nat) (v : Word32) : (g.setVreg r l v).trap = g.trap := rfl
@[simp] theorem Group.setVreg_doubleFault (g : Group) (r l : Nat) (v : Word32) : (g.setVreg r l v).doubleFault = g.doubleFault := rfl
@[simp] theorem Group.setVreg_halted (g : Group) (r l : Nat) (v : Word32) : (g.setVreg r l v).halted = g.halted := rfl
@[simp] theorem Group.setVreg_async (g : Group) (r l : Nat) (v : Word32) : (g.setVreg r l v).async = g.async := rfl
@[simp] theorem Group.setVreg_draining (g : Group) (r l : Nat) (v : Word32) : (g.setVreg r l v).draining = g.draining := rfl
@[simp] theorem Group.setVreg_replay (g : Group) (r l : Nat) (v : Word32) : (g.setVreg r l v).replay = g.replay := rfl
@[simp] theorem Group.setVreg_lastIssue (g : Group) (r l : Nat) (v : Word32) : (g.setVreg r l v).lastIssue = g.lastIssue := rfl
@[simp] theorem Group.setVreg_pid (g : Group) (r l : Nat) (v : Word32) : (g.setVreg r l v).pid = g.pid := rfl
@[simp] theorem Group.setVreg_thread (g : Group) (r l : Nat) (v : Word32) : (g.setVreg r l v).thread = g.thread := rfl
@[simp] theorem Group.setVreg_trace (g : Group) (r l : Nat) (v : Word32) : (g.setVreg r l v).trace = g.trace := rfl

/-! `Group.setV` -/

@[simp] theorem Group.setV_id (g : Group) (f l : Nat) (v : Word32) : (g.setV f l v).id = g.id := rfl
@[simp] theorem Group.setV_core (g : Group) (f l : Nat) (v : Word32) : (g.setV f l v).core = g.core := rfl
@[simp] theorem Group.setV_slot (g : Group) (f l : Nat) (v : Word32) : (g.setV f l v).slot = g.slot := rfl
@[simp] theorem Group.setV_gang (g : Group) (f l : Nat) (v : Word32) : (g.setV f l v).gang = g.gang := rfl
@[simp] theorem Group.setV_width (g : Group) (f l : Nat) (v : Word32) : (g.setV f l v).width = g.width := rfl
@[simp] theorem Group.setV_block (g : Group) (f l : Nat) (v : Word32) : (g.setV f l v).block = g.block := rfl
@[simp] theorem Group.setV_index (g : Group) (f l : Nat) (v : Word32) : (g.setV f l v).index = g.index := rfl
@[simp] theorem Group.setV_free (g : Group) (f l : Nat) (v : Word32) : (g.setV f l v).free = g.free := rfl
@[simp] theorem Group.setV_sregs (g : Group) (f l : Nat) (v : Word32) : (g.setV f l v).sregs = g.sregs := rfl
@[simp] theorem Group.setV_pending (g : Group) (f l : Nat) (v : Word32) : (g.setV f l v).pending = g.pending := rfl
@[simp] theorem Group.setV_unread (g : Group) (f l : Nat) (v : Word32) : (g.setV f l v).unread = g.unread := rfl
@[simp] theorem Group.setV_tokFaults (g : Group) (f l : Nat) (v : Word32) : (g.setV f l v).tokFaults = g.tokFaults := rfl
@[simp] theorem Group.setV_chunks (g : Group) (f l : Nat) (v : Word32) : (g.setV f l v).chunks = g.chunks := rfl
@[simp] theorem Group.setV_vwin (g : Group) (f l : Nat) (v : Word32) : (g.setV f l v).vwin = g.vwin := rfl
@[simp] theorem Group.setV_preds (g : Group) (f l : Nat) (v : Word32) : (g.setV f l v).preds = g.preds := rfl
@[simp] theorem Group.setV_gens (g : Group) (f l : Nat) (v : Word32) : (g.setV f l v).gens = g.gens := rfl
@[simp] theorem Group.setV_live (g : Group) (f l : Nat) (v : Word32) : (g.setV f l v).live = g.live := rfl
@[simp] theorem Group.setV_rgmap (g : Group) (f l : Nat) (v : Word32) : (g.setV f l v).rgmap = g.rgmap := rfl
@[simp] theorem Group.setV_fflg (g : Group) (f l : Nat) (v : Word32) : (g.setV f l v).fflg = g.fflg := rfl
@[simp] theorem Group.setV_role (g : Group) (f l : Nat) (v : Word32) : (g.setV f l v).role = g.role := rfl
@[simp] theorem Group.setV_acbase (g : Group) (f l : Nat) (v : Word32) : (g.setV f l v).acbase = g.acbase := rfl
@[simp] theorem Group.setV_aclim (g : Group) (f l : Nat) (v : Word32) : (g.setV f l v).aclim = g.aclim := rfl
@[simp] theorem Group.setV_qb (g : Group) (f l : Nat) (v : Word32) : (g.setV f l v).qb = g.qb := rfl
@[simp] theorem Group.setV_dvals (g : Group) (f l : Nat) (v : Word32) : (g.setV f l v).dvals = g.dvals := rfl
@[simp] theorem Group.setV_queue (g : Group) (f l : Nat) (v : Word32) : (g.setV f l v).queue = g.queue := rfl
@[simp] theorem Group.setV_nextSeq (g : Group) (f l : Nat) (v : Word32) : (g.setV f l v).nextSeq = g.nextSeq := rfl
@[simp] theorem Group.setV_segment (g : Group) (f l : Nat) (v : Word32) : (g.setV f l v).segment = g.segment := rfl
@[simp] theorem Group.setV_baseDepth (g : Group) (f l : Nat) (v : Word32) : (g.setV f l v).baseDepth = g.baseDepth := rfl
@[simp] theorem Group.setV_units (g : Group) (f l : Nat) (v : Word32) : (g.setV f l v).units = g.units := rfl
@[simp] theorem Group.setV_nextUid (g : Group) (f l : Nat) (v : Word32) : (g.setV f l v).nextUid = g.nextUid := rfl
@[simp] theorem Group.setV_recon (g : Group) (f l : Nat) (v : Word32) : (g.setV f l v).recon = g.recon := rfl
@[simp] theorem Group.setV_handler (g : Group) (f l : Nat) (v : Word32) : (g.setV f l v).handler = g.handler := rfl
@[simp] theorem Group.setV_trap (g : Group) (f l : Nat) (v : Word32) : (g.setV f l v).trap = g.trap := rfl
@[simp] theorem Group.setV_doubleFault (g : Group) (f l : Nat) (v : Word32) : (g.setV f l v).doubleFault = g.doubleFault := rfl
@[simp] theorem Group.setV_halted (g : Group) (f l : Nat) (v : Word32) : (g.setV f l v).halted = g.halted := rfl
@[simp] theorem Group.setV_async (g : Group) (f l : Nat) (v : Word32) : (g.setV f l v).async = g.async := rfl
@[simp] theorem Group.setV_draining (g : Group) (f l : Nat) (v : Word32) : (g.setV f l v).draining = g.draining := rfl
@[simp] theorem Group.setV_replay (g : Group) (f l : Nat) (v : Word32) : (g.setV f l v).replay = g.replay := rfl
@[simp] theorem Group.setV_lastIssue (g : Group) (f l : Nat) (v : Word32) : (g.setV f l v).lastIssue = g.lastIssue := rfl
@[simp] theorem Group.setV_pid (g : Group) (f l : Nat) (v : Word32) : (g.setV f l v).pid = g.pid := rfl
@[simp] theorem Group.setV_thread (g : Group) (f l : Nat) (v : Word32) : (g.setV f l v).thread = g.thread := rfl
@[simp] theorem Group.setV_trace (g : Group) (f l : Nat) (v : Word32) : (g.setV f l v).trace = g.trace := rfl

/-! `Group.setP` -/

@[simp] theorem Group.setP_id (g : Group) (n : Nat) (m v : Mask) : (g.setP n m v).id = g.id := by unfold Group.setP; split <;> rfl
@[simp] theorem Group.setP_core (g : Group) (n : Nat) (m v : Mask) : (g.setP n m v).core = g.core := by unfold Group.setP; split <;> rfl
@[simp] theorem Group.setP_slot (g : Group) (n : Nat) (m v : Mask) : (g.setP n m v).slot = g.slot := by unfold Group.setP; split <;> rfl
@[simp] theorem Group.setP_gang (g : Group) (n : Nat) (m v : Mask) : (g.setP n m v).gang = g.gang := by unfold Group.setP; split <;> rfl
@[simp] theorem Group.setP_width (g : Group) (n : Nat) (m v : Mask) : (g.setP n m v).width = g.width := by unfold Group.setP; split <;> rfl
@[simp] theorem Group.setP_block (g : Group) (n : Nat) (m v : Mask) : (g.setP n m v).block = g.block := by unfold Group.setP; split <;> rfl
@[simp] theorem Group.setP_index (g : Group) (n : Nat) (m v : Mask) : (g.setP n m v).index = g.index := by unfold Group.setP; split <;> rfl
@[simp] theorem Group.setP_free (g : Group) (n : Nat) (m v : Mask) : (g.setP n m v).free = g.free := by unfold Group.setP; split <;> rfl
@[simp] theorem Group.setP_sregs (g : Group) (n : Nat) (m v : Mask) : (g.setP n m v).sregs = g.sregs := by unfold Group.setP; split <;> rfl
@[simp] theorem Group.setP_pending (g : Group) (n : Nat) (m v : Mask) : (g.setP n m v).pending = g.pending := by unfold Group.setP; split <;> rfl
@[simp] theorem Group.setP_unread (g : Group) (n : Nat) (m v : Mask) : (g.setP n m v).unread = g.unread := by unfold Group.setP; split <;> rfl
@[simp] theorem Group.setP_tokFaults (g : Group) (n : Nat) (m v : Mask) : (g.setP n m v).tokFaults = g.tokFaults := by unfold Group.setP; split <;> rfl
@[simp] theorem Group.setP_vregs (g : Group) (n : Nat) (m v : Mask) : (g.setP n m v).vregs = g.vregs := by unfold Group.setP; split <;> rfl
@[simp] theorem Group.setP_chunks (g : Group) (n : Nat) (m v : Mask) : (g.setP n m v).chunks = g.chunks := by unfold Group.setP; split <;> rfl
@[simp] theorem Group.setP_vwin (g : Group) (n : Nat) (m v : Mask) : (g.setP n m v).vwin = g.vwin := by unfold Group.setP; split <;> rfl
@[simp] theorem Group.setP_gens (g : Group) (n : Nat) (m v : Mask) : (g.setP n m v).gens = g.gens := by unfold Group.setP; split <;> rfl
@[simp] theorem Group.setP_live (g : Group) (n : Nat) (m v : Mask) : (g.setP n m v).live = g.live := by unfold Group.setP; split <;> rfl
@[simp] theorem Group.setP_rgmap (g : Group) (n : Nat) (m v : Mask) : (g.setP n m v).rgmap = g.rgmap := by unfold Group.setP; split <;> rfl
@[simp] theorem Group.setP_fflg (g : Group) (n : Nat) (m v : Mask) : (g.setP n m v).fflg = g.fflg := by unfold Group.setP; split <;> rfl
@[simp] theorem Group.setP_role (g : Group) (n : Nat) (m v : Mask) : (g.setP n m v).role = g.role := by unfold Group.setP; split <;> rfl
@[simp] theorem Group.setP_acbase (g : Group) (n : Nat) (m v : Mask) : (g.setP n m v).acbase = g.acbase := by unfold Group.setP; split <;> rfl
@[simp] theorem Group.setP_aclim (g : Group) (n : Nat) (m v : Mask) : (g.setP n m v).aclim = g.aclim := by unfold Group.setP; split <;> rfl
@[simp] theorem Group.setP_qb (g : Group) (n : Nat) (m v : Mask) : (g.setP n m v).qb = g.qb := by unfold Group.setP; split <;> rfl
@[simp] theorem Group.setP_dvals (g : Group) (n : Nat) (m v : Mask) : (g.setP n m v).dvals = g.dvals := by unfold Group.setP; split <;> rfl
@[simp] theorem Group.setP_queue (g : Group) (n : Nat) (m v : Mask) : (g.setP n m v).queue = g.queue := by unfold Group.setP; split <;> rfl
@[simp] theorem Group.setP_nextSeq (g : Group) (n : Nat) (m v : Mask) : (g.setP n m v).nextSeq = g.nextSeq := by unfold Group.setP; split <;> rfl
@[simp] theorem Group.setP_segment (g : Group) (n : Nat) (m v : Mask) : (g.setP n m v).segment = g.segment := by unfold Group.setP; split <;> rfl
@[simp] theorem Group.setP_baseDepth (g : Group) (n : Nat) (m v : Mask) : (g.setP n m v).baseDepth = g.baseDepth := by unfold Group.setP; split <;> rfl
@[simp] theorem Group.setP_units (g : Group) (n : Nat) (m v : Mask) : (g.setP n m v).units = g.units := by unfold Group.setP; split <;> rfl
@[simp] theorem Group.setP_nextUid (g : Group) (n : Nat) (m v : Mask) : (g.setP n m v).nextUid = g.nextUid := by unfold Group.setP; split <;> rfl
@[simp] theorem Group.setP_recon (g : Group) (n : Nat) (m v : Mask) : (g.setP n m v).recon = g.recon := by unfold Group.setP; split <;> rfl
@[simp] theorem Group.setP_handler (g : Group) (n : Nat) (m v : Mask) : (g.setP n m v).handler = g.handler := by unfold Group.setP; split <;> rfl
@[simp] theorem Group.setP_trap (g : Group) (n : Nat) (m v : Mask) : (g.setP n m v).trap = g.trap := by unfold Group.setP; split <;> rfl
@[simp] theorem Group.setP_doubleFault (g : Group) (n : Nat) (m v : Mask) : (g.setP n m v).doubleFault = g.doubleFault := by unfold Group.setP; split <;> rfl
@[simp] theorem Group.setP_halted (g : Group) (n : Nat) (m v : Mask) : (g.setP n m v).halted = g.halted := by unfold Group.setP; split <;> rfl
@[simp] theorem Group.setP_async (g : Group) (n : Nat) (m v : Mask) : (g.setP n m v).async = g.async := by unfold Group.setP; split <;> rfl
@[simp] theorem Group.setP_draining (g : Group) (n : Nat) (m v : Mask) : (g.setP n m v).draining = g.draining := by unfold Group.setP; split <;> rfl
@[simp] theorem Group.setP_replay (g : Group) (n : Nat) (m v : Mask) : (g.setP n m v).replay = g.replay := by unfold Group.setP; split <;> rfl
@[simp] theorem Group.setP_lastIssue (g : Group) (n : Nat) (m v : Mask) : (g.setP n m v).lastIssue = g.lastIssue := by unfold Group.setP; split <;> rfl
@[simp] theorem Group.setP_pid (g : Group) (n : Nat) (m v : Mask) : (g.setP n m v).pid = g.pid := by unfold Group.setP; split <;> rfl
@[simp] theorem Group.setP_thread (g : Group) (n : Nat) (m v : Mask) : (g.setP n m v).thread = g.thread := by unfold Group.setP; split <;> rfl
@[simp] theorem Group.setP_trace (g : Group) (n : Nat) (m v : Mask) : (g.setP n m v).trace = g.trace := by unfold Group.setP; split <;> rfl

/-! `Group.setGen` -/

@[simp] theorem Group.setGen_id (g : Group) (l : Nat) (v : Word32) : (g.setGen l v).id = g.id := rfl
@[simp] theorem Group.setGen_core (g : Group) (l : Nat) (v : Word32) : (g.setGen l v).core = g.core := rfl
@[simp] theorem Group.setGen_slot (g : Group) (l : Nat) (v : Word32) : (g.setGen l v).slot = g.slot := rfl
@[simp] theorem Group.setGen_gang (g : Group) (l : Nat) (v : Word32) : (g.setGen l v).gang = g.gang := rfl
@[simp] theorem Group.setGen_width (g : Group) (l : Nat) (v : Word32) : (g.setGen l v).width = g.width := rfl
@[simp] theorem Group.setGen_block (g : Group) (l : Nat) (v : Word32) : (g.setGen l v).block = g.block := rfl
@[simp] theorem Group.setGen_index (g : Group) (l : Nat) (v : Word32) : (g.setGen l v).index = g.index := rfl
@[simp] theorem Group.setGen_free (g : Group) (l : Nat) (v : Word32) : (g.setGen l v).free = g.free := rfl
@[simp] theorem Group.setGen_sregs (g : Group) (l : Nat) (v : Word32) : (g.setGen l v).sregs = g.sregs := rfl
@[simp] theorem Group.setGen_pending (g : Group) (l : Nat) (v : Word32) : (g.setGen l v).pending = g.pending := rfl
@[simp] theorem Group.setGen_unread (g : Group) (l : Nat) (v : Word32) : (g.setGen l v).unread = g.unread := rfl
@[simp] theorem Group.setGen_tokFaults (g : Group) (l : Nat) (v : Word32) : (g.setGen l v).tokFaults = g.tokFaults := rfl
@[simp] theorem Group.setGen_vregs (g : Group) (l : Nat) (v : Word32) : (g.setGen l v).vregs = g.vregs := rfl
@[simp] theorem Group.setGen_chunks (g : Group) (l : Nat) (v : Word32) : (g.setGen l v).chunks = g.chunks := rfl
@[simp] theorem Group.setGen_vwin (g : Group) (l : Nat) (v : Word32) : (g.setGen l v).vwin = g.vwin := rfl
@[simp] theorem Group.setGen_preds (g : Group) (l : Nat) (v : Word32) : (g.setGen l v).preds = g.preds := rfl
@[simp] theorem Group.setGen_live (g : Group) (l : Nat) (v : Word32) : (g.setGen l v).live = g.live := rfl
@[simp] theorem Group.setGen_rgmap (g : Group) (l : Nat) (v : Word32) : (g.setGen l v).rgmap = g.rgmap := rfl
@[simp] theorem Group.setGen_fflg (g : Group) (l : Nat) (v : Word32) : (g.setGen l v).fflg = g.fflg := rfl
@[simp] theorem Group.setGen_role (g : Group) (l : Nat) (v : Word32) : (g.setGen l v).role = g.role := rfl
@[simp] theorem Group.setGen_acbase (g : Group) (l : Nat) (v : Word32) : (g.setGen l v).acbase = g.acbase := rfl
@[simp] theorem Group.setGen_aclim (g : Group) (l : Nat) (v : Word32) : (g.setGen l v).aclim = g.aclim := rfl
@[simp] theorem Group.setGen_qb (g : Group) (l : Nat) (v : Word32) : (g.setGen l v).qb = g.qb := rfl
@[simp] theorem Group.setGen_dvals (g : Group) (l : Nat) (v : Word32) : (g.setGen l v).dvals = g.dvals := rfl
@[simp] theorem Group.setGen_queue (g : Group) (l : Nat) (v : Word32) : (g.setGen l v).queue = g.queue := rfl
@[simp] theorem Group.setGen_nextSeq (g : Group) (l : Nat) (v : Word32) : (g.setGen l v).nextSeq = g.nextSeq := rfl
@[simp] theorem Group.setGen_segment (g : Group) (l : Nat) (v : Word32) : (g.setGen l v).segment = g.segment := rfl
@[simp] theorem Group.setGen_baseDepth (g : Group) (l : Nat) (v : Word32) : (g.setGen l v).baseDepth = g.baseDepth := rfl
@[simp] theorem Group.setGen_units (g : Group) (l : Nat) (v : Word32) : (g.setGen l v).units = g.units := rfl
@[simp] theorem Group.setGen_nextUid (g : Group) (l : Nat) (v : Word32) : (g.setGen l v).nextUid = g.nextUid := rfl
@[simp] theorem Group.setGen_recon (g : Group) (l : Nat) (v : Word32) : (g.setGen l v).recon = g.recon := rfl
@[simp] theorem Group.setGen_handler (g : Group) (l : Nat) (v : Word32) : (g.setGen l v).handler = g.handler := rfl
@[simp] theorem Group.setGen_trap (g : Group) (l : Nat) (v : Word32) : (g.setGen l v).trap = g.trap := rfl
@[simp] theorem Group.setGen_doubleFault (g : Group) (l : Nat) (v : Word32) : (g.setGen l v).doubleFault = g.doubleFault := rfl
@[simp] theorem Group.setGen_halted (g : Group) (l : Nat) (v : Word32) : (g.setGen l v).halted = g.halted := rfl
@[simp] theorem Group.setGen_async (g : Group) (l : Nat) (v : Word32) : (g.setGen l v).async = g.async := rfl
@[simp] theorem Group.setGen_draining (g : Group) (l : Nat) (v : Word32) : (g.setGen l v).draining = g.draining := rfl
@[simp] theorem Group.setGen_replay (g : Group) (l : Nat) (v : Word32) : (g.setGen l v).replay = g.replay := rfl
@[simp] theorem Group.setGen_lastIssue (g : Group) (l : Nat) (v : Word32) : (g.setGen l v).lastIssue = g.lastIssue := rfl
@[simp] theorem Group.setGen_pid (g : Group) (l : Nat) (v : Word32) : (g.setGen l v).pid = g.pid := rfl
@[simp] theorem Group.setGen_thread (g : Group) (l : Nat) (v : Word32) : (g.setGen l v).thread = g.thread := rfl
@[simp] theorem Group.setGen_trace (g : Group) (l : Nat) (v : Word32) : (g.setGen l v).trace = g.trace := rfl

/-! `Group.raise` -/

@[simp] theorem Group.raise_id (g : Group) (fl : BitVec 6) : (g.raise fl).id = g.id := rfl
@[simp] theorem Group.raise_core (g : Group) (fl : BitVec 6) : (g.raise fl).core = g.core := rfl
@[simp] theorem Group.raise_slot (g : Group) (fl : BitVec 6) : (g.raise fl).slot = g.slot := rfl
@[simp] theorem Group.raise_gang (g : Group) (fl : BitVec 6) : (g.raise fl).gang = g.gang := rfl
@[simp] theorem Group.raise_width (g : Group) (fl : BitVec 6) : (g.raise fl).width = g.width := rfl
@[simp] theorem Group.raise_block (g : Group) (fl : BitVec 6) : (g.raise fl).block = g.block := rfl
@[simp] theorem Group.raise_index (g : Group) (fl : BitVec 6) : (g.raise fl).index = g.index := rfl
@[simp] theorem Group.raise_free (g : Group) (fl : BitVec 6) : (g.raise fl).free = g.free := rfl
@[simp] theorem Group.raise_sregs (g : Group) (fl : BitVec 6) : (g.raise fl).sregs = g.sregs := rfl
@[simp] theorem Group.raise_pending (g : Group) (fl : BitVec 6) : (g.raise fl).pending = g.pending := rfl
@[simp] theorem Group.raise_unread (g : Group) (fl : BitVec 6) : (g.raise fl).unread = g.unread := rfl
@[simp] theorem Group.raise_tokFaults (g : Group) (fl : BitVec 6) : (g.raise fl).tokFaults = g.tokFaults := rfl
@[simp] theorem Group.raise_vregs (g : Group) (fl : BitVec 6) : (g.raise fl).vregs = g.vregs := rfl
@[simp] theorem Group.raise_chunks (g : Group) (fl : BitVec 6) : (g.raise fl).chunks = g.chunks := rfl
@[simp] theorem Group.raise_vwin (g : Group) (fl : BitVec 6) : (g.raise fl).vwin = g.vwin := rfl
@[simp] theorem Group.raise_preds (g : Group) (fl : BitVec 6) : (g.raise fl).preds = g.preds := rfl
@[simp] theorem Group.raise_gens (g : Group) (fl : BitVec 6) : (g.raise fl).gens = g.gens := rfl
@[simp] theorem Group.raise_live (g : Group) (fl : BitVec 6) : (g.raise fl).live = g.live := rfl
@[simp] theorem Group.raise_rgmap (g : Group) (fl : BitVec 6) : (g.raise fl).rgmap = g.rgmap := rfl
@[simp] theorem Group.raise_role (g : Group) (fl : BitVec 6) : (g.raise fl).role = g.role := rfl
@[simp] theorem Group.raise_acbase (g : Group) (fl : BitVec 6) : (g.raise fl).acbase = g.acbase := rfl
@[simp] theorem Group.raise_aclim (g : Group) (fl : BitVec 6) : (g.raise fl).aclim = g.aclim := rfl
@[simp] theorem Group.raise_qb (g : Group) (fl : BitVec 6) : (g.raise fl).qb = g.qb := rfl
@[simp] theorem Group.raise_dvals (g : Group) (fl : BitVec 6) : (g.raise fl).dvals = g.dvals := rfl
@[simp] theorem Group.raise_queue (g : Group) (fl : BitVec 6) : (g.raise fl).queue = g.queue := rfl
@[simp] theorem Group.raise_nextSeq (g : Group) (fl : BitVec 6) : (g.raise fl).nextSeq = g.nextSeq := rfl
@[simp] theorem Group.raise_segment (g : Group) (fl : BitVec 6) : (g.raise fl).segment = g.segment := rfl
@[simp] theorem Group.raise_baseDepth (g : Group) (fl : BitVec 6) : (g.raise fl).baseDepth = g.baseDepth := rfl
@[simp] theorem Group.raise_units (g : Group) (fl : BitVec 6) : (g.raise fl).units = g.units := rfl
@[simp] theorem Group.raise_nextUid (g : Group) (fl : BitVec 6) : (g.raise fl).nextUid = g.nextUid := rfl
@[simp] theorem Group.raise_recon (g : Group) (fl : BitVec 6) : (g.raise fl).recon = g.recon := rfl
@[simp] theorem Group.raise_handler (g : Group) (fl : BitVec 6) : (g.raise fl).handler = g.handler := rfl
@[simp] theorem Group.raise_trap (g : Group) (fl : BitVec 6) : (g.raise fl).trap = g.trap := rfl
@[simp] theorem Group.raise_doubleFault (g : Group) (fl : BitVec 6) : (g.raise fl).doubleFault = g.doubleFault := rfl
@[simp] theorem Group.raise_halted (g : Group) (fl : BitVec 6) : (g.raise fl).halted = g.halted := rfl
@[simp] theorem Group.raise_async (g : Group) (fl : BitVec 6) : (g.raise fl).async = g.async := rfl
@[simp] theorem Group.raise_draining (g : Group) (fl : BitVec 6) : (g.raise fl).draining = g.draining := rfl
@[simp] theorem Group.raise_replay (g : Group) (fl : BitVec 6) : (g.raise fl).replay = g.replay := rfl
@[simp] theorem Group.raise_lastIssue (g : Group) (fl : BitVec 6) : (g.raise fl).lastIssue = g.lastIssue := rfl
@[simp] theorem Group.raise_pid (g : Group) (fl : BitVec 6) : (g.raise fl).pid = g.pid := rfl
@[simp] theorem Group.raise_thread (g : Group) (fl : BitVec 6) : (g.raise fl).thread = g.thread := rfl
@[simp] theorem Group.raise_trace (g : Group) (fl : BitVec 6) : (g.raise fl).trace = g.trace := rfl

@[simp] theorem Group.raise_fflg (g : Group) (fl : BitVec 6) : (g.raise fl).fflg = g.fflg ||| fl := rfl

end Sys2Proof.Machine
end

