-- ==== Sys2Proof/Laws/Regs.lean ====
section
/-!
SUPPORT. Reads of registers after writes of registers (R39 to R42).
-/

namespace Sys2Proof.Machine

/-! ### Group scalars -/

@[simp] theorem Group.s_zero (g : Group) : g.s 0 = 0 := rfl

theorem Group.s_setS (g : Group) {d r : Nat} (v : Word) (hd : d < 32) :
    (g.setS d v).s r = if r = 0 then 0 else if r = d then v else g.s r := by
  unfold Group.setS Group.s
  by_cases h0 : r = 0
  · simp [h0]
  · by_cases hd0 : d = 0
    · simp [h0, hd0]
    · simp only [h0, hd0, if_false]
      by_cases h : r = d
      · subst h
        simp [hd]
      · simp [h, Ne.symm h]

/-- A register holds what was written to it, unless it is s0. -/
theorem Group.s_setS_same (g : Group) {d : Nat} (v : Word) (hd : d < 32) (h0 : d ≠ 0) : (g.setS d v).s d = v := by
  rw [g.s_setS v hd]
  simp [h0]

/-- Writing a scalar leaves every other as it was. -/
theorem Group.s_setS_other (g : Group) {d r : Nat} (v : Word) (hd : d < 32) (h : r ≠ d) : (g.setS d v).s r = g.s r := by
  rw [g.s_setS v hd]
  by_cases h0 : r = 0 <;> simp [h0, h]

/-- A write to s0 is discarded (R41). -/
@[simp] theorem Group.setS_zero (g : Group) (v : Word) : g.setS 0 v = g := rfl

/-! ### Vector registers -/

theorem vkey_inj {r r' l l' : Nat} (hl : l < 32) (hl' : l' < 32) : 32 * r + l = 32 * r' + l' ↔ r = r' ∧ l = l' := by omega

theorem Group.v_setV (g : Group) (f l f' l' : Nat) (v : Word32) (hl : l < 32) (hl' : l' < 32) :
    (g.setV f l v).v f' l' = if f' = f ∧ l' = l then v else g.v f' l' := by
  unfold Group.setV Group.v Group.setVreg Group.vreg
  rw [sget_sset]
  have : 32 * (g.vwin + f') + l' = 32 * (g.vwin + f) + l ↔ f' = f ∧ l' = l := by omega
  simp only [this]

theorem mem_lanesOf {m : Mask} {l : Nat} : l ∈ lanesOf m ↔ l < 32 ∧ m.getLsbD l = true := by
  simp [lanesOf, and_comm]

theorem lanesOf_lt {m : Mask} {l : Nat} (h : l ∈ lanesOf m) : l < 32 := (mem_lanesOf.1 h).1

theorem Group.setVs_nil (g : Group) (f : Nat) : g.setVs f [] = g := rfl

theorem Group.setVs_cons (g : Group) (f : Nat) (w : Nat × Word32) (ws : List (Nat × Word32)) :
    g.setVs f (w :: ws) = (g.setV f w.1 w.2).setVs f ws := rfl

/-- Writing lanes of a register changes only its field `vregs`. -/
theorem Group.setVs_eq (g : Group) (f : Nat) (ws : List (Nat × Word32)) : g.setVs f ws = { g with vregs := (g.setVs f ws).vregs } := by
  induction ws generalizing g with
  | nil => rfl
  | cons w ws ih => rw [Group.setVs_cons, ih]; rfl

theorem Group.v_setVs (g : Group) (f : Nat) (ls : List Nat) (hls : ∀ l ∈ ls, l < 32) (h : Nat → Word32) (f' l' : Nat) (hl' : l' < 32) :
    (g.setVs f (ls.map fun l => (l, h l))).v f' l' = if f' = f ∧ l' ∈ ls then h l' else g.v f' l' := by
  induction ls generalizing g with
  | nil => simp [Group.setVs]
  | cons l ls ih =>
    rw [List.map_cons, Group.setVs_cons, ih _ fun x hx => hls x (List.mem_cons_of_mem _ hx)]
    rw [Group.v_setV _ _ _ _ _ _ (hls l (List.mem_cons_self ..)) hl']
    by_cases hf : f' = f
    · by_cases hl : l' = l
      · simp [hf, hl]
      · simp [hf, hl]
    · simp [hf]

/-! ### Predicates -/

@[simp] theorem Group.p_zero (g : Group) : g.p 0 = ~~~0 := rfl

theorem Group.p_setP (g : Group) {n n' : Nat} (m v : Mask) (hn : n < 8) :
    (g.setP n m v).p n' = if n' = n ∧ n ≠ 0 then (g.p n &&& ~~~m) ||| (v &&& m) else g.p n' := by
  unfold Group.setP
  by_cases h0 : n = 0
  · simp [h0]
  · simp only [h0, if_false, ne_eq, not_false_eq_true, and_true]
    unfold Group.p
    by_cases h : n' = n
    · subst h
      simp [h0, hn]
    · by_cases h0' : n' = 0
      · simp [h0', Ne.symm h0]
      · simp [h, h0', Ne.symm h]

/-- A write to p0 is discarded (R41). -/
@[simp] theorem Group.setP_zero (g : Group) (m v : Mask) : g.setP 0 m v = g := rfl

end Sys2Proof.Machine
end

