-- ==== Sys2Proof/Laws/Ops.lean ====
section
/-!
SUPPORT. What issuing a word does besides the word's own effect: the trace, the charge, the scheduler's run, the settling of units; and
with it when a word completes, and what it leaves as it was.
-/

namespace Sys2Proof.Machine

/-! ### Frames -/

theorem OnlyGroup.refl (n : Nat) (s : State) : OnlyGroup n s s := ⟨rfl, fun _ _ => rfl, fun _ => rfl, fun _ => rfl, rfl⟩

theorem OnlyGroup.trans {n : Nat} {r s t : State} (h : OnlyGroup n r s) (h' : OnlyGroup n s t) : OnlyGroup n r t where
  rest := by rw [h'.rest, h.rest]
  others := fun m hm => (h'.others m hm).trans (h.others m hm)
  clusters := fun m => (h'.clusters m).trans (h.clusters m)
  cores := fun m => (h'.cores m).trans (h.cores m)
  cache := h'.cache.trans h.cache

theorem OnlyGroup.sel (n : Nat) (s : State) (a : Option Agent) : OnlyGroup n s { s with sel := a } :=
  ⟨rfl, fun _ _ => rfl, fun _ => rfl, fun _ => rfl, rfl⟩

theorem OnlyGroup.steps (n : Nat) (s : State) (k : Nat) : OnlyGroup n s { s with steps := k } :=
  ⟨rfl, fun _ _ => rfl, fun _ => rfl, fun _ => rfl, rfl⟩

theorem OnlyGroup.setGroup (s : State) (g : Group) : OnlyGroup g.id s (s.setGroup g) :=
  ⟨rfl, fun _ h => s.group_setGroup_other g h, fun _ => rfl, fun _ => rfl, rfl⟩

/-- A core's record replaced by one that issuing words may leave. -/
theorem OnlyGroup.setCore (n : Nat) (s : State) (c : Core) (h : c.still = (s.core c.num).still) : OnlyGroup n s (s.setCore c) :=
  ⟨rfl, fun _ _ => rfl, fun _ => rfl, fun m => by
    by_cases hm : m = c.num
    · rw [hm, s.core_setCore_same, h]
    · rw [s.core_setCore_other c hm], rfl⟩

theorem OnlyGroup.setCluster (n : Nat) (s : State) (c : Cluster) (h : c.still = (s.cluster c.num).still) : OnlyGroup n s (s.setCluster c) :=
  ⟨rfl, fun _ _ => rfl, fun m => by
    by_cases hm : m = c.num
    · rw [hm, s.cluster_setCluster_same, h]
    · rw [s.cluster_setCluster_other c hm], fun _ => rfl, rfl⟩

theorem OnlyGroup.touched (n : Nat) (s : State) (f : Sector → Sector) (h : ∀ x, (f x).still = x.still) :
    OnlyGroup n s { s with cache := s.cache.map f } :=
  ⟨rfl, fun _ _ => rfl, fun _ => rfl, fun _ => rfl, by simp [Function.comp_def, h]⟩

theorem State.core_num (s : State) (n : Nat) : (s.core n).num = n := by
  unfold State.core
  cases h : s.cores.find? fun c => decide (c.num = n) with
  | none => rfl
  | some c => simpa using List.find?_some h

theorem State.cluster_num (s : State) (n : Nat) : (s.cluster n).num = n := by
  unfold State.cluster
  cases h : s.clusters.find? fun c => decide (c.num = n) with
  | none => rfl
  | some c => simpa using List.find?_some h

theorem State.group_id {s : State} {n : Nat} {g : Group} (h : s.group? n = some g) : g.id = n := by
  simpa using List.find?_some h

theorem Group.unit_uid {g : Group} {n : Nat} {u : GUnit} (h : g.unit? n = some u) : u.uid = n := by
  simpa using List.find?_some h

theorem SameRegs.refl (g : Group) : SameRegs g g := rfl

theorem SameRegs.trans {a b c : Group} (h : SameRegs a b) (h' : SameRegs b c) : SameRegs a c := by
  unfold SameRegs at *
  rw [h', h]

theorem SameRegs.symm {a b : Group} (h : SameRegs a b) : SameRegs b a := by
  unfold SameRegs at *
  rw [h]

theorem SameRegs.id_eq {a b : Group} (h : SameRegs a b) : b.id = a.id := by rw [h]

theorem SameRegs.s_eq {a b : Group} (h : SameRegs a b) (r : Nat) : b.s r = a.s r := by rw [h]; rfl

theorem SameRegs.v_eq {a b : Group} (h : SameRegs a b) (f l : Nat) : b.v f l = a.v f l := by rw [h]; rfl

theorem SameRegs.p_eq {a b : Group} (h : SameRegs a b) (n : Nat) : b.p n = a.p n := by rw [h]; rfl

/-! ### The trace -/

theorem State.packet_only (n : Nat) (s : State) (g : Group) (ws : List Word) : OnlyGroup n s (s.packet g ws) := by
  refine OnlyGroup.setCore n s _ ?_
  simp [Core.still, s.core_num]

/-- What the trace may change in a group. -/
def TraceOnly (g g' : Group) : Prop := g' = { g with trace := g'.trace, unread := g'.unread }

theorem TraceOnly.refl (g : Group) : TraceOnly g g := rfl

theorem TraceOnly.trans {a b c : Group} (h : TraceOnly a b) (h' : TraceOnly b c) : TraceOnly a c := by
  unfold TraceOnly at *
  rw [h', h]

theorem TraceOnly.same {a b : Group} (h : TraceOnly a b) : SameRegs a b := by
  unfold SameRegs
  rw [h]

theorem Group.wrotePacket_trace (g : Group) : TraceOnly g g.wrotePacket := by
  unfold Group.wrotePacket Group.syncFor
  dsimp only
  split <;> rfl

theorem State.traceValue_only (s : State) (g : Group) (u : GUnit) (a b : Nat) (ws : List Word) :
    OnlyGroup g.id s (s.traceValue g u a b ws).1 ∧ TraceOnly g (s.traceValue g u a b ws).2 := by
  unfold State.traceValue
  split
  · exact ⟨s.packet_only _ _ _, g.wrotePacket_trace⟩
  · exact ⟨OnlyGroup.refl _ _, rfl⟩

theorem State.traceTaken_only (s : State) (g : Group) (u : GUnit) (pc target : Word) :
    OnlyGroup g.id s (s.traceTaken g u pc target).1 ∧ TraceOnly g (s.traceTaken g u pc target).2 := by
  unfold State.traceTaken
  split
  · exact ⟨s.packet_only _ _ _, g.wrotePacket_trace⟩
  · exact ⟨OnlyGroup.refl _ _, rfl⟩

theorem State.traceIssue_only (s : State) (g : Group) (u : GUnit) :
    OnlyGroup g.id s (s.traceIssue g u).1 ∧ TraceOnly g (s.traceIssue g u).2 := by
  unfold State.traceIssue
  split
  · split
    · exact ⟨(s.packet_only _ _ _).trans (OnlyGroup.touched _ _ _ fun _ => rfl), rfl⟩
    · split
      · exact ⟨OnlyGroup.refl _ _, rfl⟩
      · exact ⟨s.packet_only _ _ _, g.wrotePacket_trace.trans rfl⟩
  · exact ⟨OnlyGroup.refl _ _, rfl⟩

/-- A fold that threads the state and a group, each step of which touches only the trace. -/
theorem foldl_trace {α : Type} (f : State × Group → α → State × Group)
    (hf : ∀ sg x, OnlyGroup sg.2.id sg.1 (f sg x).1 ∧ TraceOnly sg.2 (f sg x).2) (xs : List α) (sg : State × Group) :
    OnlyGroup sg.2.id sg.1 (xs.foldl f sg).1 ∧ TraceOnly sg.2 (xs.foldl f sg).2 := by
  induction xs generalizing sg with
  | nil => exact ⟨OnlyGroup.refl _ _, rfl⟩
  | cons x xs ih =>
    have h := hf sg x
    have hid : (f sg x).2.id = sg.2.id := h.2.same.id_eq
    have h' := ih (f sg x)
    rw [hid] at h'
    exact ⟨h.1.trans h'.1, h.2.trans h'.2⟩

theorem State.traceWord_only (s : State) (g : Group) (u : GUnit) (i : Instr) :
    OnlyGroup g.id s (s.traceWord g u i).1 ∧ TraceOnly g (s.traceWord g u i).2 := by
  unfold State.traceWord
  split
  · exact ⟨OnlyGroup.refl _ _, rfl⟩
  · have h := s.traceIssue_only g u
    dsimp only
    split
    · exact h
    · have h' := foldl_trace (fun sg r =>
        ((sg.1.traceValue sg.2 u 1 0 [sg.2.s r]).1,
          { (sg.1.traceValue sg.2 u 1 0 [sg.2.s r]).2 with
            unread := (sg.1.traceValue sg.2 u 1 0 [sg.2.s r]).2.unread &&& ~~~((1#32) <<< r) }))
        (fun sg x => ⟨(sg.1.traceValue_only sg.2 u 1 0 [sg.2.s x]).1, (sg.1.traceValue_only sg.2 u 1 0 [sg.2.s x]).2.trans rfl⟩)
        ((sReads i).eraseDups.filter fun r => (s.traceIssue g u).2.unread.getLsbD r) (s.traceIssue g u)
      rw [h.2.same.id_eq] at h'
      exact ⟨h.1.trans h'.1, h.2.trans h'.2⟩

/-! ### Units -/

/-- What the settling of units may change in a group. -/
def UnitsOnly (g g' : Group) : Prop := g' = { g with units := g'.units, recon := g'.recon }

theorem UnitsOnly.refl (g : Group) : UnitsOnly g g := rfl

theorem UnitsOnly.trans {a b c : Group} (h : UnitsOnly a b) (h' : UnitsOnly b c) : UnitsOnly a c := by
  unfold UnitsOnly at *
  rw [h', h]

theorem UnitsOnly.same {a b : Group} (h : UnitsOnly a b) : SameRegs a b := by
  unfold SameRegs
  rw [h]

theorem leaveEntries_units (g : Group) (u : GUnit) (p : Recon → Bool) : UnitsOnly g (leaveEntries g u p).1 := by
  unfold leaveEntries
  dsimp only
  generalize (entriesLeft g p 33 u.entry).1 = ls
  induction ls generalizing g with
  | nil => rfl
  | cons e ls ih =>
    rw [List.foldl_cons]
    refine UnitsOnly.trans ?_ (ih _)
    split <;> rfl

theorem fuse_units (k : Nat) (g : Group) (e : Nat) (r : Recon) : UnitsOnly g (fuse k g e r) := by
  unfold fuse
  dsimp only
  split <;> rfl

theorem settleEntries_units (k n : Nat) (g : Group) : UnitsOnly g (settleEntries k n g) := by
  induction n generalizing g with
  | zero => rfl
  | succ n ih =>
    unfold settleEntries
    split
    · exact UnitsOnly.trans (b := g.freeRecon _) rfl (ih _)
    · split
      · exact UnitsOnly.trans (fuse_units _ _ _ _) (ih _)
      · rfl

theorem endUnits_units (g : Group) : UnitsOnly g (endUnits g) := by
  unfold endUnits
  generalize g.units = us
  induction us generalizing g with
  | nil => rfl
  | cons u0 us ih =>
    rw [List.foldl_cons]
    refine UnitsOnly.trans ?_ (ih _)
    split
    · split
      · exact UnitsOnly.trans (leaveEntries_units _ _ _) rfl
      · rfl
    · rfl

theorem fuseAtEnd_units (g : Group) : UnitsOnly g (fuseAtEnd g) := by
  unfold fuseAtEnd
  split
  · split <;> rfl
  · rfl

theorem settleUnits_units (k n : Nat) (g : Group) : UnitsOnly g (settleUnits k n g) := by
  induction n generalizing g with
  | zero => exact fuseAtEnd_units g
  | succ n ih =>
    unfold settleUnits
    dsimp only
    split
    · exact fuseAtEnd_units g
    · exact UnitsOnly.trans ((settleEntries_units _ _ _).trans (endUnits_units _)) (ih _)

/-- A group put back: only its units, its entries and its trace may change. -/
theorem State.putBack_after (s : State) (g : Group) : After g.id s g (s.putBack g) := by
  unfold State.putBack
  have h := foldl_trace (fun sg (e : GUnit × Word) => sg.1.traceTaken sg.2 e.1 e.1.pc e.2)
    (fun sg e => sg.1.traceTaken_only sg.2 e.1 e.1.pc e.2) (fusingEdges g) (s, g)
  dsimp only
  generalize hp : (fusingEdges g).foldl (fun sg (e : GUnit × Word) => sg.1.traceTaken sg.2 e.1 e.1.pc e.2) (s, g) = p at h ⊢
  have hid : (settleUnits p.1.steps 64 p.2).id = g.id := by
    rw [(settleUnits_units _ _ _).same.id_eq, h.2.same.id_eq]
  refine ⟨h.1.trans ?_, settleUnits p.1.steps 64 p.2, ?_, h.2.same.trans (settleUnits_units _ _ _).same⟩
  · rw [← hid]
    exact OnlyGroup.setGroup _ _
  · rw [← hid]
    exact State.group_setGroup_same _ _

/-! ### Charges and runs -/

theorem State.account_only (n : Nat) (s : State) (g : Group) (u : GUnit) (i : Instr) : OnlyGroup n s (s.account g u i) := by
  unfold State.account
  dsimp only
  refine ((OnlyGroup.setCluster n s _ ?_).trans (OnlyGroup.setCore n _ _ ?_)).trans (OnlyGroup.steps _ _ _)
  · simp [Cluster.still, s.cluster_num]
  · simp [Core.still, State.core_num]

theorem State.endRun_only (n : Nat) (s : State) (g : Group) : OnlyGroup n s (s.endRun g) := by
  unfold State.endRun
  dsimp only
  split
  · exact OnlyGroup.setCore n s _ (by simp [Core.still, s.core_num])
  · exact OnlyGroup.refl _ _

theorem State.setRun_only (n : Nat) (s : State) (g : Group) (uid : Nat) : OnlyGroup n s (s.setRun g uid) := by
  unfold State.setRun
  dsimp only
  split
  · exact OnlyGroup.setCore n s _ (by simp [Core.still, s.core_num])
  · exact OnlyGroup.refl _ _

/-! ### Completion -/

theorem Group.setUnit_same (g : Group) (u : GUnit) : SameRegs g (g.setUnit u) := by
  unfold Group.setUnit
  split <;> rfl

theorem After.of_setGroup {n : Nat} {s s' : State} {g g' : Group} (h : OnlyGroup n s s') (hid : g'.id = n) (hg : SameRegs g g') :
    After n s g (s'.setGroup g') := by
  subst hid
  exact ⟨h.trans (OnlyGroup.setGroup _ _), g', State.group_setGroup_same _ _, hg⟩

theorem After.of_putBack {n : Nat} {s s' : State} {g g' : Group} (h : OnlyGroup n s s') (hid : g'.id = n) (hg : SameRegs g g') :
    After n s g (s'.putBack g') := by
  subst hid
  have h' := s'.putBack_after g'
  obtain ⟨g2, h2, h3⟩ := h'.group
  exact ⟨h.trans h'.only, g2, h2, hg.trans h3⟩

theorem State.issued_only (s : State) (i : Instr) (g0 : Group) (u0 : GUnit) (g : Group) (u : GUnit) (b : Bool) :
    OnlyGroup g.id s (s.issued i g0 u0 g u b).1 ∧ TraceOnly { g with lastIssue := s.steps } (s.issued i g0 u0 g u b).2 := by
  unfold State.issued
  dsimp only
  split
  · have h := s.traceTaken_only g u0 u0.pc (nextUnit i u b).pc
    refine ⟨(h.1.trans (OnlyGroup.sel _ _ _)).trans (State.account_only _ _ _ _ _), ?_⟩
    unfold Group.issuedAt TraceOnly
    rw [h.2]
  · exact ⟨(OnlyGroup.sel _ _ _).trans (State.account_only _ _ _ _ _), rfl⟩

theorem State.leaveWord_after (s : State) (i : Instr) (g : Group) (u : GUnit) : After g.id s g (s.leaveWord i g u) := by
  unfold State.leaveWord
  dsimp only
  have hs : ∀ b : Bool, OnlyGroup g.id s (if b = true then s else s.endRun g) := by
    intro b
    split
    · exact OnlyGroup.refl _ _
    · exact s.endRun_only _ _
  split
  · exact After.of_setGroup (hs _) (Group.setUnit_same _ _).id_eq (Group.setUnit_same _ _)
  · exact After.of_putBack (hs _) (Group.setUnit_same _ _).id_eq (Group.setUnit_same _ _)

theorem After.trans_only {n : Nat} {r s t : State} {g : Group} (h : OnlyGroup n r s) (h' : After n s g t) : After n r g t :=
  ⟨h.trans h'.only, h'.group⟩

theorem After.trans_same {n : Nat} {s t : State} {g g' : Group} (h : SameRegs g g') (h' : After n s g' t) : After n s g t := by
  obtain ⟨g2, h2, h3⟩ := h'.group
  exact ⟨h'.only, g2, h2, h.trans h3⟩

theorem atEnd_congr {g g' : Group} {u u' : GUnit} (h1 : g'.trap.tmode = g.trap.tmode) (h2 : g'.baseDepth = g.baseDepth)
    (h3 : g'.segment = g.segment) (h4 : u'.stack = u.stack) (h5 : u'.pc = u.pc) : atEnd g' u' = atEnd g u := by
  unfold atEnd atBase GUnit.depth
  rw [h1, h2, h3, h4, h5]

/-- A word completes without a fault where its next PC does not end its segment inside a region (R126, R157, R167). -/
theorem State.completeWord_after (s : State) (i : Instr) (g0 : Group) (u0 : GUnit) (g : Group) (u : GUnit) (b : Bool)
    (h2 : u.region = none ∨ g.trap.tmode = true ∨ atEnd g (nextUnit i u b) = false) :
    After g.id s g (s.completeWord i g0 u0 g u b) := by
  unfold State.completeWord
  dsimp only
  have h := s.issued_only i g0 u0 g u b
  generalize hp : s.issued i g0 u0 g u b = p at h ⊢
  obtain ⟨s1, g1⟩ := p
  obtain ⟨hs, hg⟩ := h
  dsimp only at hs hg ⊢
  have hsame : SameRegs g g1 := SameRegs.trans (b := { g with lastIssue := s.steps }) rfl hg.same
  have hid : g1.id = g.id := hsame.id_eq
  have hreg : ((nextUnit i u b).spent i s.steps).region = u.region := by
    unfold nextUnit
    split
    · split <;> rfl
    · rfl
  rw [if_neg]
  · have h' := s1.leaveWord_after i g1 ((nextUnit i u b).spent i s.steps)
    rw [hid] at h'
    exact (h'.trans_same hsame).trans_only hs
  · have hat : atEnd g1 ((nextUnit i u b).spent i s.steps) = atEnd g (nextUnit i u b) :=
      atEnd_congr (by rw [hg]) (by rw [hg]) (by rw [hg]) rfl rfl
    have ht : g1.trap.tmode = g.trap.tmode := by rw [hg]
    rw [hreg, ht, hat]
    rcases h2 with h | h | h <;> simp [h]

/-- Where falling through raises no fault, a word that falls through completes (R126, R157, R167). -/
theorem State.completeWord_falls (s : State) (i : Instr) (g0 : Group) (u0 : GUnit) (g : Group) (u : GUnit) (hi : isHint i = false)
    (hc : FallsClear g u) : After g.id s g (s.completeWord i g0 u0 g u true) := by
  refine s.completeWord_after i g0 u0 g u true ?_
  rw [show nextUnit i u true = backEdge u by simp [nextUnit, hi]]
  exact hc.2

/-- Where falling through is clear, no back edge leaves the segment (R126). -/
theorem FallsClear.edge {i : Instr} {g : Group} {u0 u : GUnit} (hc : FallsClear g u) (hi : isHint i = false) (hp : u.pc = u0.pc) :
    edgeOut i g u0 u = false := by
  have hn : nextUnit i u true = backEdge u := by simp [nextUnit, hi]
  unfold edgeOut takesEdge
  rw [hn]
  rcases hc.1 with h | h
  · simp [h, hp]
  · have h' : inSegment g (backEdge u) (backEdge u).pc = true := h
    simp [h']

/-! ### Issuing -/

/-- A word whose meaning answers `ok` completes: exec of it is the completion of that answer. -/
theorem issueWith_ok {fin : State → Nat → State} {i : Instr} {s : State} {body : State → Group → GUnit → Res} {g : Group} {u : GUnit}
    (h : Issues i s g u) {s' : State} {g' : Group} {u' : GUnit}
    (hb : body (s.traceWord g u i).1 (s.traceWord g u i).2 u = .ok s' g' u') (he : edgeOut i g' u u' = false) :
    issueWith fin i s body = .next (s'.completeWord i g u g' u' true) := by
  unfold issueWith
  simp only [h.selected, h.group, h.unit, h.checks, h.free, h.sound, hb, he, Bool.false_eq_true, if_false]

/-- A word of its group alone, under no mask: it completes with the group that its meaning answers. -/
theorem issueReg_after {i : Instr} {s : State} {g : Group} {u : GUnit} {f : Group → GUnit → Group} (h : Issues i s g u)
    (hi : isHint i = false) (hc : FallsClear g u)
    (hf : ∀ g1, TraceOnly g g1 → SameRegs (f g u) (f g1 u) ∧ (f g1 u).id = g.id ∧ (f g1 u).trap = g.trap ∧
      (f g1 u).baseDepth = g.baseDepth ∧ (f g1 u).segment = g.segment) :
    ∃ t, issueReg i s f = .next t ∧ After g.id s (f g u) t := by
  have ht := s.traceWord_only g u i
  obtain ⟨h1, h2, h3, h4, h5⟩ := hf _ ht.2
  have hc' : FallsClear (f (s.traceWord g u i).2 u) u := by
    refine ⟨?_, ?_⟩
    · rcases hc.1 with hp | hp
      · exact .inl hp
      · refine .inr ?_
        rw [← hp]
        unfold inSegment atBase
        rw [h3, h4, h5]
    · rw [h3, atEnd_congr (u' := backEdge u) (u := backEdge u) (by rw [h3]) h4 h5 rfl rfl]
      exact hc.2
  refine ⟨_, issueWith_ok (fin := fun s _ => s) (body := fun s g u => .ok s (f g u) u) h rfl (hc'.edge hi rfl), ?_⟩
  have hd := State.completeWord_falls (s.traceWord g u i).1 i g u (f (s.traceWord g u i).2 u) u hi hc'
  rw [h2] at hd
  exact (hd.trans_same h1).trans_only ht.1

/-- Where falling through is clear stays clear in a group of the same segment, mode and base. -/
theorem FallsClear.congr {g g' : Group} {u u' : GUnit} (hc : FallsClear g u) (ht : g'.trap.tmode = g.trap.tmode)
    (hb : g'.baseDepth = g.baseDepth) (hs : g'.segment = g.segment) (hp : u'.pc = u.pc) (hl : u'.loops = u.loops) (hk : u'.stack = u.stack)
    (hr : u'.region = u.region) : FallsClear g' u' := by
  have he : backEdge u' = { u' with pc := (backEdge u).pc, loops := (backEdge u).loops } := by
    unfold backEdge
    simp only [hp, hl]
  refine ⟨?_, ?_⟩
  · rw [he]
    rcases hc.1 with h | h
    · exact .inl (by simpa [hp] using h)
    · refine .inr ?_
      rw [← h]
      unfold inSegment atBase GUnit.depth
      simp only [ht, hb, hs, hk]
  · rw [ht, hr, he]
    rcases hc.2 with h | h | h
    · exact .inl h
    · exact .inr (.inl h)
    · refine .inr (.inr ?_)
      rw [← h]
      exact atEnd_congr ht hb hs hk rfl

/-- A word whose meaning answers `ok` with the unit at the word completes where falling through is clear: besides the meaning's own change of
the state it changes only the group, whose registers are those that the meaning answers. -/
theorem issueWith_after {fin : State → Nat → State} {i : Instr} {s : State} {body : State → Group → GUnit → Res} {g : Group} {u : GUnit}
    (h : Issues i s g u) (hi : isHint i = false) (hc : FallsClear g u) {s' : State} {g' : Group} {u' : GUnit}
    (hb : body (s.traceWord g u i).1 (s.traceWord g u i).2 u = .ok s' g' u') (hid : g'.id = g.id) (ht : g'.trap.tmode = g.trap.tmode)
    (hbd : g'.baseDepth = g.baseDepth) (hs : g'.segment = g.segment) (hp : u'.pc = u.pc) (hl : u'.loops = u.loops) (hk : u'.stack = u.stack)
    (hr : u'.region = u.region) : ∃ t, issueWith fin i s body = .next t ∧ After g.id s' g' t := by
  have hc' := hc.congr ht hbd hs hp hl hk hr
  refine ⟨_, issueWith_ok h hb (hc'.edge hi hp), ?_⟩
  have hd := State.completeWord_falls s' i g u g' u' hi hc'
  rwa [hid] at hd

/-- A word of its group alone, under its active mask. -/
theorem issueLanes_after {i : Instr} {s : State} {g : Group} {u : GUnit} {f : Group → GUnit → Mask → Group} (h : Issues i s g u)
    (hi : isHint i = false) (hc : FallsClear g u)
    (hf : ∀ g1, TraceOnly g g1 → SameRegs (f g u (activeMask g u (predField i))) (f g1 u (activeMask g u (predField i))) ∧
      (f g1 u (activeMask g u (predField i))).id = g.id ∧ (f g1 u (activeMask g u (predField i))).trap = g.trap ∧
      (f g1 u (activeMask g u (predField i))).baseDepth = g.baseDepth ∧ (f g1 u (activeMask g u (predField i))).segment = g.segment) :
    ∃ t, issueLanes i s f = .next t ∧
      After g.id s (if activeMask g u (predField i) = 0 then g else f g u (activeMask g u (predField i))) t := by
  have ht := s.traceWord_only g u i
  obtain ⟨h1, h2, h3, h4, h5⟩ := hf _ ht.2
  have hm : activeMask (s.traceWord g u i).2 u (predField i) = activeMask g u (predField i) := by
    rw [ht.2]
    rfl
  by_cases h0 : activeMask g u (predField i) = 0
  · obtain ⟨t, he, ha⟩ := issueWith_after (fin := fun s _ => s) (body := fun s g u =>
        .ok s (if activeMask g u (predField i) = 0 then g else f g u (activeMask g u (predField i))) u) h hi hc rfl
      (by simp only [hm, h0, if_true]; exact ht.2.same.id_eq) (by simp only [hm, h0, if_true]; rw [ht.2])
      (by simp only [hm, h0, if_true]; rw [ht.2]) (by simp only [hm, h0, if_true]; rw [ht.2]) rfl rfl rfl rfl
    refine ⟨t, he, ?_⟩
    simp only [hm, h0, if_true] at ha ⊢
    exact (ha.trans_same ht.2.same).trans_only ht.1
  · obtain ⟨t, he, ha⟩ := issueWith_after (fin := fun s _ => s) (body := fun s g u =>
        .ok s (if activeMask g u (predField i) = 0 then g else f g u (activeMask g u (predField i))) u) h hi hc rfl
      (by simp only [hm, h0, if_false]; exact h2) (by simp only [hm, h0, if_false]; rw [h3])
      (by simp only [hm, h0, if_false]; exact h4) (by simp only [hm, h0, if_false]; exact h5) rfl rfl rfl rfl
    refine ⟨t, he, ?_⟩
    simp only [hm, h0, if_false] at ha ⊢
    exact (ha.trans_same h1).trans_only ht.1

end Sys2Proof.Machine
end

