-- ==== Sys2Proof/Laws/Lanes.lean ====
section
/-!
SUPPORT. What a word does that writes registers lane by lane: one lane's step, the fold over the active lanes, and the word as a whole.
-/

namespace Sys2Proof.Machine

/-- From `g` to `g'` lane `l` alone changes: its `n` registers from field `d` on hold `rs`, its generator `x`, and `fl` is ORed into FFLG. -/
structure LaneStep (d n l : Nat) (rs : List Word32) (fl : BitVec 6) (x : Word32) (g g' : Group) : Prop where
  regs : ∀ k l', l' < 32 → g'.vreg k l' = if l' = l ∧ g.vwin + d ≤ k ∧ k < g.vwin + d + n then rs.getD (k - (g.vwin + d)) 0 else g.vreg k l'
  gens : ∀ l', l' < 32 → g'.gen l' = if l' = l then x else g.gen l'
  flags : g'.fflg = g.fflg ||| fl
  rest : g' = { g with vregs := g'.vregs, gens := g'.gens, fflg := g'.fflg }

/-- The fold over some lanes of a step that changes each alone. -/
structure LaneFold (d n : Nat) (ls : List Nat) (rs : Nat → List Word32) (fl : Nat → BitVec 6) (x : Nat → Word32) (g g' : Group) : Prop where
  regs : ∀ k l, l < 32 → g'.vreg k l = if l ∈ ls ∧ g.vwin + d ≤ k ∧ k < g.vwin + d + n then (rs l).getD (k - (g.vwin + d)) 0 else g.vreg k l
  gens : ∀ l, l < 32 → g'.gen l = if l ∈ ls then x l else g.gen l
  flags : g'.fflg = ls.foldl (fun f l => f ||| fl l) g.fflg
  rest : g' = { g with vregs := g'.vregs, gens := g'.gens, fflg := g'.fflg }

theorem foldl_lanes {d n : Nat} {rs : Nat → List Word32} {fl : Nat → BitVec 6} {x : Nat → Word32} {F : Group → Nat → Group}
    {ls : List Nat} (hF : ∀ g l, l ∈ ls → LaneStep d n l (rs l) (fl l) (x l) g (F g l)) (g : Group) :
    LaneFold d n ls rs fl x g (ls.foldl F g) := by
  induction ls generalizing g with
  | nil => exact ⟨by simp, by simp, rfl, rfl⟩
  | cons a ls ih =>
    have h1 := hF g a (by simp)
    have h2 := ih (fun g l hl => hF g l (by simp [hl])) (F g a)
    have hw : (F g a).vwin = g.vwin := by rw [h1.rest]
    refine ⟨?_, ?_, ?_, ?_⟩
    · intro k l hl
      rw [List.foldl_cons, h2.regs k l hl, h1.regs k l hl, hw]
      by_cases hm : l ∈ ls
      · by_cases hk : g.vwin + d ≤ k ∧ k < g.vwin + d + n <;> simp [hm, hk]
      · by_cases ha : l = a
        · subst ha
          simp [hm]
        · simp [hm, ha]
    · intro l hl
      rw [List.foldl_cons, h2.gens l hl, h1.gens l hl]
      by_cases hm : l ∈ ls
      · simp [hm]
      · by_cases ha : l = a
        · subst ha
          simp [hm]
        · simp [hm, ha]
    · rw [List.foldl_cons, h2.flags, h1.flags, List.foldl_cons]
    · rw [List.foldl_cons, h2.rest]
      rw [h1.rest]

/-- The same fold where no lane's generator moves. -/
theorem foldl_lanes_still {d n : Nat} {rs : Nat → List Word32} {fl : Nat → BitVec 6} {F : Group → Nat → Group} {ls : List Nat}
    (hF : ∀ g l, l ∈ ls → LaneStep d n l (rs l) (fl l) (g.gen l) g (F g l)) (g : Group) :
    LaneFold d n ls rs fl g.gen g (ls.foldl F g) := by
  induction ls generalizing g with
  | nil => exact ⟨by simp, by simp, rfl, rfl⟩
  | cons a ls ih =>
    have h1 := hF g a (by simp)
    have h2 := ih (fun g l hl => hF g l (by simp [hl])) (F g a)
    have hw : (F g a).vwin = g.vwin := by rw [h1.rest]
    have hgen : ∀ l, l < 32 → (F g a).gen l = g.gen l := by
      intro l hl
      rw [h1.gens l hl]
      split
      · next h => rw [h]
      · rfl
    refine ⟨?_, ?_, ?_, ?_⟩
    · intro k l hl
      rw [List.foldl_cons, h2.regs k l hl, h1.regs k l hl, hw]
      by_cases hm : l ∈ ls
      · by_cases hk : g.vwin + d ≤ k ∧ k < g.vwin + d + n <;> simp [hm, hk]
      · by_cases ha : l = a
        · subst ha
          simp [hm]
        · simp [hm, ha]
    · intro l hl
      rw [List.foldl_cons, h2.gens l hl, hgen l hl]
      simp
    · rw [List.foldl_cons, h2.flags, h1.flags, List.foldl_cons]
    · rw [List.foldl_cons, h2.rest]
      rw [h1.rest]

/-- Registers of one lane written from a field on. -/
def putRegs (g : Group) (d l n : Nat) (v : Nat → Word32) : Group := (List.range n).foldl (fun g r => g.setV (d + r) l (v r)) g

theorem Group.setV_eq (g : Group) (f l : Nat) (v : Word32) : g.setV f l v = { g with vregs := (g.setV f l v).vregs } := rfl

theorem putRegs_rest (g : Group) (d l n : Nat) (v : Nat → Word32) : putRegs g d l n v = { g with vregs := (putRegs g d l n v).vregs } := by
  unfold putRegs
  generalize List.range n = ls
  induction ls generalizing g with
  | nil => rfl
  | cons a ls ih => rw [List.foldl_cons, ih, g.setV_eq]

theorem Group.vreg_setVreg (g : Group) (r l : Nat) (v : Word32) (k l' : Nat) (hl : l < 32) (hl' : l' < 32) :
    (g.setVreg r l v).vreg k l' = if k = r ∧ l' = l then v else g.vreg k l' := by
  unfold Group.setVreg Group.vreg
  rw [sget_sset]
  simp only [vkey_inj hl' hl]

theorem putRegs_vreg (g : Group) (d l n : Nat) (v : Nat → Word32) (hl : l < 32) (k l' : Nat) (hl' : l' < 32) :
    (putRegs g d l n v).vreg k l' = if l' = l ∧ g.vwin + d ≤ k ∧ k < g.vwin + d + n then v (k - (g.vwin + d)) else g.vreg k l' := by
  induction n with
  | zero =>
    rw [if_neg (by omega)]
    rfl
  | succ n ih =>
    have hs : putRegs g d l (n + 1) v = (putRegs g d l n v).setV (d + n) l (v n) := by
      unfold putRegs
      rw [List.range_succ, List.foldl_append]
      rfl
    have hw : (putRegs g d l n v).vwin = g.vwin := by rw [putRegs_rest]
    rw [hs]
    unfold Group.setV
    rw [Group.vreg_setVreg _ _ _ _ _ _ hl hl', ih, hw]
    by_cases hk : k = g.vwin + (d + n) ∧ l' = l
    · obtain ⟨rfl, rfl⟩ := hk
      rw [if_pos ⟨rfl, rfl⟩, if_pos (by omega)]
      congr 1
      omega
    · rw [if_neg hk]
      by_cases h2 : l' = l ∧ g.vwin + d ≤ k ∧ k < g.vwin + d + n
      · rw [if_pos h2, if_pos (by omega)]
      · rw [if_neg h2, if_neg (by omega)]

/-- Registers, generator and flags of one lane. -/
theorem laneStep_put (g : Group) (d n l : Nat) (v : Nat → Word32) (fl : BitVec 6) (x : Word32) (hl : l < 32) :
    LaneStep d n l ((List.range n).map v) fl x g (((putRegs g d l n v).setGen l x).raise fl) := by
  refine ⟨?_, ?_, ?_, ?_⟩
  · intro k l' hl'
    have h := putRegs_vreg g d l n v hl k l' hl'
    have h' : (((putRegs g d l n v).setGen l x).raise fl).vreg k l' = (putRegs g d l n v).vreg k l' := rfl
    rw [h', h]
    by_cases hk : l' = l ∧ g.vwin + d ≤ k ∧ k < g.vwin + d + n
    · rw [if_pos hk, if_pos hk]
      have : k - (g.vwin + d) < n := by omega
      simp [List.getD, this]
    · rw [if_neg hk, if_neg hk]
  · intro l' hl'
    have hg : (putRegs g d l n v).gens = g.gens := by rw [putRegs_rest]
    unfold Group.raise Group.setGen Group.gen
    rw [hg]
    dsimp only
    by_cases h : l' = l
    · subst h
      simp [hl]
    · simp [h, Ne.symm h]
  · have hg : (putRegs g d l n v).fflg = g.fflg := by rw [putRegs_rest]
    unfold Group.raise Group.setGen
    dsimp only
    rw [hg]
  · rw [putRegs_rest]
    rfl

/-- Registers and flags of one lane, its generator standing. -/
theorem laneStep_putRegs (g : Group) (d n l : Nat) (v : Nat → Word32) (fl : BitVec 6) (hl : l < 32) :
    LaneStep d n l ((List.range n).map v) fl (g.gen l) g ((putRegs g d l n v).raise fl) := by
  have h := laneStep_put g d n l v fl (g.gen l) hl
  have hg : ((putRegs g d l n v).setGen l (g.gen l)) = putRegs g d l n v := by
    rw [putRegs_rest]
    unfold Group.setGen Group.gen
    congr 1
    apply Vector.ext
    intro i hi
    rw [Vector.getElem_setIfInBounds]
    by_cases h : l = i
    · subst h
      simp [hl]
    · simp [h]
  rwa [hg] at h

/-- One register written in some lanes, no flag raised. -/
theorem setVs_fold (g : Group) (d : Nat) (ls : List Nat) (hls : ∀ l ∈ ls, l < 32) (h : Nat → Word32) :
    LaneFold d 1 ls (fun l => [h l]) (fun _ => 0) g.gen g (g.setVs d (ls.map fun l => (l, h l))) := by
  have hf := foldl_lanes_still (d := d) (n := 1) (rs := fun l => [h l]) (fl := fun _ => 0) (F := fun g l => g.setV d l (h l)) (ls := ls)
    (fun g l hl => by
      have := laneStep_putRegs g d 1 l (fun _ => h l) 0 (hls l hl)
      have he : ((putRegs g d l 1 fun _ => h l).raise 0) = g.setV d l (h l) := by
        have hz : ∀ g : Group, g.raise 0 = g := fun g => by
          have h0 : g.fflg ||| 0 = g.fflg := BitVec.or_zero
          unfold Group.raise
          rw [h0]
        rw [hz]
        rfl
      rwa [he] at this) g
  have he : g.setVs d (ls.map fun l => (l, h l)) = ls.foldl (fun g l => g.setV d l (h l)) g := by
    unfold Group.setVs
    rw [List.foldl_map]
  rw [he]
  exact hf

/-- One register written in some lanes with the flags of each lane (R67, R71). -/
theorem writeLanes_fold (g : Group) (d : Nat) (m : Mask) (f : Nat → Word32 × BitVec 6) :
    LaneFold d 1 (lanesOf m) (fun l => [(f l).1]) (fun l => (f l).2) g.gen g (writeLanes g d m f) := by
  have h := setVs_fold g d (lanesOf m) (fun l => lanesOf_lt) fun l => (f l).1
  have hr : (g.setVs d ((lanesOf m).map fun l => (l, (f l).1))).fflg = g.fflg := by rw [Group.setVs_eq]
  have hor : ∀ (ls : List Nat) (a b : BitVec 6), a ||| ls.foldl (fun fl l => fl ||| (f l).2) b = ls.foldl (fun fl l => fl ||| (f l).2) (a ||| b) := by
    intro ls
    induction ls with
    | nil => intros; rfl
    | cons c ls ih => intro a b; rw [List.foldl_cons, List.foldl_cons, ih, BitVec.or_assoc]
  refine ⟨h.regs, h.gens, ?_, ?_⟩
  · unfold writeLanes Group.raise
    rw [hr]
    simp [hor]
  · unfold writeLanes Group.raise
    rw [h.rest]

/-- A masked word whose group change is such a fold completes, and its group is the fold's. -/
theorem issueLanes_fold {i : Instr} {s : State} {g : Group} {u : GUnit} {f : Group → GUnit → Mask → Group} (h : Issues i s g u)
    (hi : isHint i = false) (hc : FallsClear g u) {d n : Nat} {rs : Nat → List Word32} {fl : Nat → BitVec 6} {x : Nat → Word32}
    (hf : ∀ g1, TraceOnly g g1 → LaneFold d n (lanesOf (activeMask g u (predField i))) rs fl x g1 (f g1 u (activeMask g u (predField i))))
    (hs : ∀ g1, TraceOnly g g1 → SameRegs (f g u (activeMask g u (predField i))) (f g1 u (activeMask g u (predField i)))) :
    ∃ t g', issueLanes i s f = .next t ∧ OnlyGroup g.id s t ∧ t.group? g.id = some g' ∧
      OnlyLanes g g' d n (activeMask g u (predField i)) ∧
      (∀ l, l < 32 → (activeMask g u (predField i)).getLsbD l = true → g'.gen l = x l ∧ ∀ k, k < n → g'.v (d + k) l = (rs l).getD k 0) ∧
      g'.fflg = (lanesOf (activeMask g u (predField i))).foldl (fun f l => f ||| fl l) g.fflg := by
  obtain ⟨t, h1, h2⟩ := issueLanes_after (f := f) h hi hc (by
    intro g1 ht
    have hl := (hf g1 ht).rest
    refine ⟨hs g1 ht, ?_, ?_, ?_, ?_⟩ <;> rw [hl] <;> rw [ht])
  obtain ⟨g', h3, h4⟩ := h2.group
  have hg := hf g rfl
  generalize activeMask g u (predField i) = m at *
  have hor : ∀ (ls : List Nat) (a : BitVec 6), a &&& ls.foldl (fun f l => f ||| fl l) a = a := by
    intro ls
    induction ls with
    | nil => intro a; simp
    | cons b ls ih =>
      intro a
      rw [List.foldl_cons]
      have := ih (a ||| fl b)
      ext j hj
      have hj2 := congrArg (fun z => z.getLsbD j) this
      simp only [BitVec.getLsbD_and, BitVec.getLsbD_or] at hj2
      rw [← BitVec.getLsbD_eq_getElem, ← BitVec.getLsbD_eq_getElem, BitVec.getLsbD_and]
      cases ha : a.getLsbD j <;> simp [ha] at hj2 ⊢
      exact hj2
  refine ⟨t, g', h1, h2.only, h3, ?_, ?_, ?_⟩
  · by_cases h0 : m = 0
    · rw [if_pos h0] at h4
      refine ⟨?_, ?_, ?_, ?_⟩
      · intro r l _ _; rw [h4]; rfl
      · intro l _; rw [h4]; rfl
      · rw [h4]; simp
      · rw [h4]
    · rw [if_neg h0] at h4
      refine ⟨?_, ?_, ?_, ?_⟩
      · intro r l hl hn
        have hv : g'.vreg r l = (f g u m).vreg r l := by rw [h4]; rfl
        rw [hv, hg.regs r l hl, if_neg]
        rintro ⟨ha, hb⟩
        exact hn ⟨(mem_lanesOf.1 ha).2, hb⟩
      · intro l hm
        have hv : g'.gen l = (f g u m).gen l := by rw [h4]; rfl
        rw [hv]
        by_cases hl : l < 32
        · rw [hg.gens l hl, if_neg]
          intro ha
          rw [(mem_lanesOf.1 ha).2] at hm
          exact absurd hm (by simp)
        · unfold Group.gen
          rw [Vector.getElem?_eq_none (by omega), Vector.getElem?_eq_none (by omega)]
      · have hv : g'.fflg = (f g u m).fflg := by rw [h4]
        rw [hv, hg.flags]
        exact hor _ _
      · rw [h4]
        rw [hg.rest]
  · intro l hl hm
    have h0 : m ≠ 0 := by
      rintro rfl
      simp at hm
    rw [if_neg h0] at h4
    have hmem : l ∈ lanesOf m := mem_lanesOf.2 ⟨hl, hm⟩
    have hv : g'.gen l = (f g u m).gen l := by rw [h4]; rfl
    refine ⟨by rw [hv, hg.gens l hl, if_pos hmem], ?_⟩
    intro k hk
    have hw : g'.vwin = g.vwin := by rw [h4]; rw [hg.rest]
    have hv2 : g'.v (d + k) l = (f g u m).vreg (g.vwin + (d + k)) l := by
      unfold Group.v
      rw [hw, h4]
      rfl
    rw [hv2, hg.regs _ l hl, if_pos ⟨hmem, by omega, by omega⟩]
    congr 1
    omega
  · by_cases h0 : m = 0
    · rw [if_pos h0] at h4
      have : lanesOf m = [] := by
        rw [h0]
        decide
      rw [this, h4]
      rfl
    · rw [if_neg h0] at h4
      have hv : g'.fflg = (f g u m).fflg := by rw [h4]
      rw [hv, hg.flags]

end Sys2Proof.Machine
end

