-- ==== Sys2Proof/Laws/Memory.lean ====
section
/-!
SUPPORT. Every operation over memory keeps its canonical form, and the machine right after reset has it. `State.poke` is the only operation that
writes a byte of memory; what loses memory (R351, R427) takes cells away.
-/

namespace Sys2Proof.Machine

/-- Memory right after reset is in canonical form. -/
theorem State.reset_wf : Memory.wf State.reset.mem = true := rfl

/-- Cells taken away leave the canonical form. -/
theorem Memory.wf_filter (p : Host.Cell → Bool) {mem : List Host.Cell} (h : Memory.wf mem = true) : Memory.wf (mem.filter p) = true :=
  swfFrom_filter emptyByte p 0 mem h

/-- One stored byte keeps the canonical form. -/
theorem State.poke_wf {s : State} (pa : Nat) (b : Byte) (h : Memory.wf s.mem = true) : Memory.wf (s.poke pa b).mem = true :=
  swf_sset emptyByte pa b s.mem h

/-- Bytes stored one after another keep it. -/
theorem State.pokes_wf {s : State} (pa : Nat) (bs : List Byte) (h : Memory.wf s.mem = true) : Memory.wf (s.pokes pa bs).mem = true := by
  induction bs generalizing s pa with
  | nil => exact h
  | cons b bs ih => exact ih (pa + 1) (s.poke_wf pa b h)

/-- Turning a sector into what it reads as under a key keeps it. -/
theorem State.renew_wf {s : State} (key pa : Nat) (h : Memory.wf s.mem = true) : Memory.wf (s.renew key pa).mem = true := by
  unfold State.renew
  dsimp only
  generalize (isHbm pa && _) = c
  cases c
  · exact h
  · exact s.pokes_wf _ _ h

@[simp] theorem State.keyed_mem (s : State) (key pa : Nat) : (s.keyed key pa).mem = s.mem := by
  unfold State.keyed
  split <;> rfl

@[simp] theorem State.notify_mem (s : State) (sector : Nat) : (s.notify sector).mem = s.mem := by
  unfold State.notify
  dsimp only
  split <;> rfl

/-- Bytes put where they lie keep it. -/
theorem State.putHome_wf {s : State} (key pa : Nat) (bs : List Byte) (h : Memory.wf s.mem = true) : Memory.wf (s.putHome key pa bs).mem = true := by
  simpa [State.putHome] using State.pokes_wf pa bs (s.renew_wf key pa h)

/-- A write that a dead link port may lose keeps it, where the write itself does. -/
theorem State.settles_wf {s : State} (pa : Nat) (k : State → State) (h : Memory.wf s.mem = true)
    (hk : ∀ t : State, Memory.wf t.mem = true → Memory.wf (k t).mem = true) : Memory.wf (s.settles pa k).mem = true := by
  unfold State.settles
  split
  · dsimp only
    split
    · exact h
    · exact hk _ h
  · exact hk s h

/-- A store at a home keeps it. -/
theorem State.storeHome_wf {s : State} (key pa : Nat) (bs : List Byte) (h : Memory.wf s.mem = true) : Memory.wf (s.storeHome key pa bs).mem = true :=
  s.settles_wf pa _ h fun t ht => t.putHome_wf key pa bs ht

/-- A masked store of a sector keeps it. -/
theorem State.storeMasked_wf {s : State} (key pa : Nat) (mask : BitVec 32) (data : BitVec 256) (h : Memory.wf s.mem = true) :
    Memory.wf (s.storeMasked key pa mask data).mem = true := by
  unfold State.storeMasked
  split
  · exact h
  · refine s.settles_wf pa _ h fun t ht => ?_
    simp only [State.notify_mem, State.keyed_mem]
    generalize lanesOf mask = ls
    have hr := t.renew_wf key pa ht
    generalize t.renew key pa = u at hr
    induction ls generalizing u with
    | nil => exact hr
    | cons i ls ih => exact ih _ (u.poke_wf _ _ hr)

/-- A store of several sectors keeps it. -/
theorem State.storeRange_wf {s : State} (key pa : Nat) (bs : List Byte) (h : Memory.wf s.mem = true) : Memory.wf (s.storeRange key pa bs).mem = true := by
  unfold State.storeRange
  generalize bs.length / 32 + 2 = fuel
  induction fuel generalizing s pa bs with
  | zero => exact h
  | succ n ih =>
    unfold State.storeRange.go
    split
    · exact h
    · exact ih _ _ (s.storeHome_wf key pa _ h)

/-- What is written back from caches keeps it. -/
theorem State.writeBack_wf {s : State} (p : Sector → Bool) (h : Memory.wf s.mem = true) : Memory.wf (s.writeBack p).mem = true := by
  unfold State.writeBack
  dsimp only
  generalize s.cache.filter _ = xs
  induction xs generalizing s with
  | nil => exact h
  | cons x xs ih => exact ih (s.storeMasked_wf x.key x.pa x.dirty x.data h)

/-- A die that loses its HBM keeps it. -/
theorem State.loseHbm_wf {s : State} (die : Nat) (h : Memory.wf s.mem = true) : Memory.wf (s.loseHbm die).mem = true := Memory.wf_filter _ h

/-- Power-off keeps it. -/
theorem State.powerOff_wf {s : State} (h : Memory.wf s.mem = true) : Memory.wf s.powerOff.mem = true := Memory.wf_filter _ h

end Sys2Proof.Machine
end

