-- ==== Sys2Proof/Laws/Stand.lean ====
section
/-!
SUPPORT. Where a unit stands after its word: the settling of the group's other units leaves it at the PC that the word gave it.
-/

namespace Sys2Proof.Machine

/-- Unit `u` is in a group, and no other unit of the group has its number. -/
def Holds (u : GUnit) (g : Group) : Prop := u ∈ g.units ∧ ∀ x ∈ g.units, x.uid = u.uid → x = u

/-- A unit that neither has arrived nor has completed its segment. -/
def Going (u : GUnit) : Prop := u.wait ≠ .arrived ∧ u.wait ≠ .segmentDone ∧ u.wait ≠ .joint

theorem mem_sortBy {α : Type} (k : α → Nat) (xs : List α) (x : α) : x ∈ sortBy k xs ↔ x ∈ xs := by
  unfold sortBy
  have hins : ∀ (y : α) (ys : List α), x ∈ insertBy k y ys ↔ x = y ∨ x ∈ ys := by
    intro y ys
    induction ys with
    | nil => simp [insertBy]
    | cons z zs ih =>
      unfold insertBy
      split
      · simp
      · simp only [List.mem_cons, ih]
        constructor
        · rintro (h | h | h) <;> simp [h]
        · rintro (h | h | h) <;> simp [h]
  have hfold : ∀ (ys acc : List α), x ∈ ys.foldl (fun acc x => insertBy k x acc) acc ↔ x ∈ ys ∨ x ∈ acc := by
    intro ys
    induction ys with
    | nil => simp
    | cons y ys ih =>
      intro acc
      rw [List.foldl_cons, ih, hins, List.mem_cons]
      constructor
      · rintro (h | h | h) <;> simp [h]
      · rintro ((h | h) | h) <;> simp [h]
  rw [hfold]
  simp

theorem mem_sortUnits (us : List GUnit) (u : GUnit) : u ∈ sortUnits us ↔ u ∈ us := mem_sortBy _ _ _

theorem Holds.congr {u : GUnit} {g g' : Group} (h : Holds u g) (hg : g'.units = g.units) : Holds u g' := by
  unfold Holds
  rw [hg]
  exact h

theorem leaveEntries_same (g : Group) (u : GUnit) (p : Recon → Bool) : (leaveEntries g u p).1.units = g.units := by
  unfold leaveEntries
  dsimp only
  generalize (entriesLeft g p 33 u.entry).1 = ls
  induction ls generalizing g with
  | nil => rfl
  | cons e ls ih =>
    rw [List.foldl_cons, ih]
    split <;> rfl

theorem fuse_holds {u : GUnit} (hu : u.wait ≠ .arrived) (k : Nat) {g : Group} (h : Holds u g) (e : Nat) (r : Recon) : Holds u (fuse k g e r) := by
  unfold fuse
  dsimp only
  split
  · exact h.congr rfl
  · next lead rest hl =>
    have hlead : lead ∈ g.units ∧ lead.wait = .arrived := by
      have : lead ∈ sortUnits (g.units.filter fun u => decide (u.wait = .arrived) && decide (u.entry = some e)) := by rw [hl]; simp
      rw [mem_sortUnits, List.mem_filter] at this
      simp at this
      exact ⟨this.1, this.2.1⟩
    refine ⟨?_, ?_⟩
    · rw [mem_sortUnits]
      refine List.mem_cons_of_mem _ (List.mem_filter.2 ⟨h.1, ?_⟩)
      simp [hu]
    · intro x hx hid
      rw [mem_sortUnits, List.mem_cons, List.mem_filter] at hx
      rcases hx with rfl | ⟨hx, -⟩
      · have : lead.uid = u.uid := by
          rw [← hid]
          split <;> rfl
        have := h.2 lead hlead.1 this
        rw [this] at hlead
        exact absurd hlead.2 hu
      · exact h.2 x hx hid

theorem settleEntries_holds {u : GUnit} (hu : u.wait ≠ .arrived) (k n : Nat) {g : Group} (h : Holds u g) : Holds u (settleEntries k n g) := by
  induction n generalizing g with
  | zero => exact h
  | succ n ih =>
    unfold settleEntries
    split
    · exact ih (h.congr rfl)
    · split
      · exact ih (fuse_holds hu _ h _ _)
      · exact h

/-- A step of the loop over the units that complete their segment. -/
def endUnit (g : Group) (u0 : GUnit) : Group :=
  match g.units.find? fun x => decide (x.uid = u0.uid) with
  | some u =>
    if (decide (u.wait = .ready)) && atEnd g u && !u.region.isSome then
      let (g, u) := leaveEntries g u fun _ => true
      { g with units := g.units.map fun x => if x.uid = u.uid then { u with wait := .segmentDone } else x }
    else g
  | none => g

theorem endUnits_eq (g : Group) : endUnits g = g.units.foldl endUnit g := rfl

theorem endUnit_holds {u : GUnit} {g : Group} (h : Holds u g) (hu : u.wait ≠ .ready ∨ atEnd g u = false) (u0 : GUnit) : Holds u (endUnit g u0) := by
  unfold endUnit
  split
  · next x hx =>
    split
    · next hc =>
      have hxm : x ∈ g.units := List.mem_of_find?_eq_some hx
      have hne : x.uid ≠ u.uid := by
        intro he
        have := h.2 x hxm he
        subst this
        simp only [Bool.and_eq_true, decide_eq_true_eq] at hc
        rcases hu with hu | hu
        · exact hu hc.1.1
        · rw [hu] at hc
          simp at hc
      have hus : (leaveEntries g x fun _ => true).1.units = g.units := leaveEntries_same _ _ _
      have hid : (leaveEntries g x fun _ => true).2.uid = x.uid := rfl
      dsimp only
      refine ⟨?_, ?_⟩
      · dsimp only
        rw [hus, hid]
        exact List.mem_map.2 ⟨u, h.1, by simp [Ne.symm hne]⟩
      · intro y hy hyid
        dsimp only at hy
        rw [hus, hid] at hy
        obtain ⟨z, hz, rfl⟩ := List.mem_map.1 hy
        by_cases hzx : z.uid = x.uid
        · rw [if_pos hzx] at hyid
          exact absurd hyid hne
        · rw [if_neg hzx] at hyid ⊢
          exact h.2 z hz hyid
    · exact h
  · exact h

theorem endUnit_frame (g : Group) (u0 : GUnit) : UnitsOnly g (endUnit g u0) := by
  unfold endUnit
  split
  · split
    · exact UnitsOnly.trans (leaveEntries_units _ _ _) rfl
    · rfl
  · rfl

theorem UnitsOnly.atEnd {g g' : Group} (h : UnitsOnly g g') (u : GUnit) : Machine.atEnd g' u = Machine.atEnd g u := by
  rw [h]
  rfl

theorem endUnits_holds {u : GUnit} {g : Group} (h : Holds u g) (hu : u.wait ≠ .ready ∨ atEnd g u = false) : Holds u (endUnits g) := by
  rw [endUnits_eq]
  have H : ∀ (us : List GUnit) (g : Group), Holds u g → (u.wait ≠ .ready ∨ atEnd g u = false) → Holds u (us.foldl endUnit g) := by
    intro us
    induction us with
    | nil => exact fun g h _ => h
    | cons a us ih =>
      intro g h hu
      rw [List.foldl_cons]
      exact ih _ (endUnit_holds h hu a) (by rw [(endUnit_frame g a).atEnd]; exact hu)
  exact H _ _ h hu

theorem fuseAtEnd_holds {u : GUnit} {g : Group} (h : Holds u g) (hu : u.wait ≠ .segmentDone ∧ u.wait ≠ .joint) : Holds u (fuseAtEnd g) := by
  unfold fuseAtEnd
  split
  · next ha =>
    have := List.all_eq_true.1 ha u h.1
    simp [unitDone, hu.1, hu.2] at this
  · exact h

theorem settleUnits_holds {u : GUnit} (k n : Nat) {g : Group} (h : Holds u g) (hg : Going u) (hu : u.wait ≠ .ready ∨ atEnd g u = false) :
    Holds u (settleUnits k n g) := by
  induction n generalizing g with
  | zero => exact fuseAtEnd_holds h hg.2
  | succ n ih =>
    unfold settleUnits
    dsimp only
    split
    · exact fuseAtEnd_holds h hg.2
    · have hu' : u.wait ≠ .ready ∨ atEnd (settleEntries k 64 g) u = false := by
        rw [(settleEntries_units k 64 g).atEnd]
        exact hu
      refine ih (endUnits_holds (settleEntries_holds hg.1 k 64 h) hu') ?_
      rw [(endUnits_units _).atEnd]
      exact hu'

/-! ### The group's only unit -/

/-- A unit as the end of its segment may leave it. -/
def Ended (u u' : GUnit) : Prop := u' = { u with wait := u'.wait, entry := u'.entry } ∧ u'.wait ≠ .arrived

theorem fuse_one (k : Nat) (g : Group) (e : Nat) (r : Recon) {u : GUnit} (h : g.units = [u]) (hu : u.wait ≠ .arrived) :
    (fuse k g e r).units = [u] := by
  unfold fuse
  dsimp only
  rw [h]
  have hs : sortUnits ([] : List GUnit) = [] := rfl
  simp only [List.filter_cons, hu, decide_false, Bool.false_and, Bool.false_eq_true, if_false, List.filter_nil, hs]
  exact h

theorem settleEntries_one (k n : Nat) {g : Group} {u : GUnit} (h : g.units = [u]) (hu : u.wait ≠ .arrived) :
    (settleEntries k n g).units = [u] := by
  induction n generalizing g with
  | zero => exact h
  | succ n ih =>
    unfold settleEntries
    split
    · exact ih h
    · split
      · exact ih (fuse_one k g _ _ h hu)
      · exact h

theorem endUnits_one {g : Group} {u : GUnit} (h : g.units = [u]) (hu : u.wait ≠ .arrived) : ∃ u', (endUnits g).units = [u'] ∧ Ended u u' := by
  rw [endUnits_eq, h]
  simp only [List.foldl_cons, List.foldl_nil]
  unfold endUnit
  rw [h]
  simp only [List.find?_cons, decide_true]
  split
  · refine ⟨{ (leaveEntries g u fun _ => true).2 with wait := .segmentDone }, ?_, rfl, by simp⟩
    have : (leaveEntries g u fun _ => true).2.uid = u.uid := rfl
    dsimp only
    rw [leaveEntries_same, h, this]
    simp
  · exact ⟨u, h, rfl, hu⟩

theorem fuseAtEnd_one {g : Group} {u : GUnit} (h : g.units = [u]) : (fuseAtEnd g).units = [u] := by
  unfold fuseAtEnd
  rw [h]
  have hs : sortUnits [u] = [u] := rfl
  rw [hs]
  split <;> exact h

theorem settleUnits_one (k n : Nat) {g : Group} {u : GUnit} (h : g.units = [u]) (hu : u.wait ≠ .arrived) :
    ∃ u', (settleUnits k n g).units = [u'] ∧ Ended u u' := by
  induction n generalizing g u with
  | zero => exact ⟨u, fuseAtEnd_one h, rfl, hu⟩
  | succ n ih =>
    unfold settleUnits
    dsimp only
    split
    · exact ⟨u, fuseAtEnd_one h, rfl, hu⟩
    · obtain ⟨u1, h1, h2⟩ := endUnits_one (settleEntries_one k 64 h hu) hu
      obtain ⟨u2, h3, h4⟩ := ih h1 h2.2
      refine ⟨u2, h3, ?_, h4.2⟩
      have e1 := h2.1
      have e2 := h4.1
      rw [e1] at e2
      exact e2

/-! ### After a word -/

theorem Group.setUnit_holds {g : Group} {u : GUnit} (ht : g.trap.tmode = false) (h : (g.units.any fun x => decide (x.uid = u.uid)) = true) :
    Holds u (g.setUnit u) := by
  unfold Group.setUnit
  rw [ht]
  simp only [Bool.false_eq_true, if_false]
  obtain ⟨x, hx, hid⟩ := List.any_eq_true.1 h
  refine ⟨List.mem_map.2 ⟨x, hx, if_pos (by simpa using hid)⟩, ?_⟩
  intro y hy hyid
  obtain ⟨z, hz, rfl⟩ := List.mem_map.1 hy
  by_cases hzu : z.uid = u.uid
  · simp [hzu]
  · simp only [hzu, if_false] at hyid

theorem State.putBack_group (s : State) (g : Group) :
    ∃ g1, TraceOnly g g1 ∧ (s.putBack g).group? g.id = some (settleUnits (s.putBack g).steps 64 g1) := by
  unfold State.putBack
  have h := foldl_trace (fun sg (e : GUnit × Word) => sg.1.traceTaken sg.2 e.1 e.1.pc e.2)
    (fun sg e => sg.1.traceTaken_only sg.2 e.1 e.1.pc e.2) (fusingEdges g) (s, g)
  dsimp only
  generalize hp : (fusingEdges g).foldl (fun sg (e : GUnit × Word) => sg.1.traceTaken sg.2 e.1 e.1.pc e.2) (s, g) = p at h ⊢
  refine ⟨p.2, h.2, ?_⟩
  have hid : (settleUnits p.1.steps 64 p.2).id = g.id := by rw [(settleUnits_units _ _ _).same.id_eq, h.2.same.id_eq]
  rw [← hid]
  exact State.group_setGroup_same _ _

/-- What a unit keeps of another: all but its wait, entry, hint, checks skipped, unfinished lanes and age. -/
theorem Stands.of_putBack {s : State} {g : Group} {u : GUnit} (ht : g.trap.tmode = false) (hu : Going u)
    (h : (g.units.any fun x => decide (x.uid = u.uid)) = true) (he : u.wait ≠ .ready ∨ atEnd g u = false ∨ ∃ u0, g.units = [u0]) :
    Stands (s.putBack (g.setUnit u)) g.id u := by
  have hid : (g.setUnit u).id = g.id := (g.setUnit_same u).id_eq
  obtain ⟨g1, hg1, h1⟩ := s.putBack_group (g.setUnit u)
  rw [hid] at h1
  have hH : Holds u (g.setUnit u) := Group.setUnit_holds ht h
  have hH1 : Holds u g1 := hH.congr (by rw [hg1])
  have htm : (settleUnits (s.putBack (g.setUnit u)).steps 64 g1).trap.tmode = false := by
    have : (g.setUnit u).trap = g.trap := by rw [(g.setUnit_same u)]
    rw [settleUnits_units _ _ _, hg1]
    rw [this]
    exact ht
  have hat : atEnd g1 u = atEnd g u := by
    rw [hg1]
    unfold Group.setUnit
    split <;> rfl
  by_cases hone : ∃ u0, g.units = [u0]
  · obtain ⟨u0, h0⟩ := hone
    have hu1 : g1.units = [u] := by
      rw [hg1]
      unfold Group.setUnit
      rw [ht, h0]
      rw [h0] at h
      simp at h
      simp [h]
    obtain ⟨u', h2, h3⟩ := settleUnits_one (s.putBack (g.setUnit u)).steps 64 hu1 hu.1
    refine ⟨_, u', h1, ?_, ?_⟩
    · unfold Group.active
      rw [htm, h2]
      simp
    · have := h3.1
      rw [this]
  · have hu2 : u.wait ≠ .ready ∨ atEnd g1 u = false := by
      rw [hat]
      rcases he with he | he | he
      · exact .inl he
      · exact .inr he
      · exact absurd he hone
    have := settleUnits_holds (s.putBack (g.setUnit u)).steps 64 hH1 hu hu2
    refine ⟨_, u, h1, ?_, rfl⟩
    unfold Group.active
    rw [htm]
    exact this.1

theorem parks_going {i : Instr} {g : Group} {u : GUnit} (h : Going u) : Going (if parks i g u then { u with wait := .switchPark } else u) := by
  split
  · exact ⟨by simp, by simp, by simp⟩
  · exact h

/-- After its word a unit that goes on stands where the word left it. -/
theorem State.leaveWord_stands {s : State} {i : Instr} {g : Group} {u : GUnit} (hu : Going u)
    (h : g.trap.tmode = true ∨ (g.units.any fun x => decide (x.uid = u.uid)) = true)
    (he : g.trap.tmode = true ∨ u.wait ≠ .ready ∨ atEnd g u = false ∨ ∃ u0, g.units = [u0]) : Stands (s.leaveWord i g u) g.id u := by
  unfold State.leaveWord
  dsimp only
  generalize hu1 : (if parks i g u then { u with wait := .switchPark } else u) = u1
  have hg1 : Going u1 := by
    rw [← hu1]
    exact parks_going hu
  have hsame : u1 = { u with wait := u1.wait } := by
    rw [← hu1]
    split <;> rfl
  have hst : ∀ t, Stands t g.id u1 → Stands t g.id u := by
    rintro t ⟨g', u', h1, h2, h3⟩
    refine ⟨g', u', h1, h2, ?_⟩
    rw [hsame] at h3
    exact h3
  apply hst
  have hr : u1.wait = .ready → u.wait = .ready := by
    rw [← hu1]
    split
    · simp
    · exact id
  split
  · next ht =>
    refine ⟨g.setUnit u1, u1, ?_, ?_, rfl⟩
    · rw [← (g.setUnit_same u1).id_eq]
      exact State.group_setGroup_same _ _
    · unfold Group.active Group.setUnit
      simp [ht]
  · next ht =>
    simp only [Bool.not_eq_true] at ht
    refine Stands.of_putBack ht hg1 ?_ ?_
    · rcases h with h | h
      · rw [ht] at h
        exact absurd h (by simp)
      · rw [hsame]
        exact h
    · rcases he with he | he | he | he
      · rw [ht] at he
        exact absurd he (by simp)
      · exact .inl fun hw => he (hr hw)
      · exact .inr (.inl (by rw [hsame]; exact he))
      · exact .inr (.inr he)

/-- A unit is among those of its group that may issue, in the form that a word's completion needs. -/
theorem Group.unit_any {g : Group} {n : Nat} {u : GUnit} (h : g.unit? n = some u) :
    g.trap.tmode = true ∨ (g.units.any fun x => decide (x.uid = u.uid)) = true := by
  cases ht : g.trap.tmode with
  | true => exact .inl rfl
  | false =>
    refine .inr ?_
    unfold Group.unit? Group.active at h
    rw [ht] at h
    exact List.any_eq_true.2 ⟨u, List.mem_of_find?_eq_some h, by simp⟩

/-- A word completes, and its unit stands at the word's next PC, where nothing faults it there. -/
theorem State.completeWord_stands {s : State} {i : Instr} {g0 : Group} {u0 : GUnit} {g : Group} {u : GUnit} {b : Bool}
    (h2 : u.region = none ∨ g.trap.tmode = true ∨ atEnd g (nextUnit i u b) = false) (hu : Going u)
    (h : g.trap.tmode = true ∨ (g.units.any fun x => decide (x.uid = u.uid)) = true)
    (he : g.trap.tmode = true ∨ u.wait ≠ .ready ∨ atEnd g (nextUnit i u b) = false ∨ ∃ u0, g.units = [u0]) :
    Stands (s.completeWord i g0 u0 g u b) g.id (nextUnit i u b) := by
  unfold State.completeWord
  dsimp only
  have hi := s.issued_only i g0 u0 g u b
  generalize hp : s.issued i g0 u0 g u b = p at hi ⊢
  obtain ⟨s1, g1⟩ := p
  obtain ⟨-, hg⟩ := hi
  dsimp only at hg ⊢
  have hid : g1.id = g.id := by rw [hg]
  have hreg : (nextUnit i u b).region = u.region := by
    unfold nextUnit
    split
    · split <;> rfl
    · rfl
  have hw : (nextUnit i u b).wait = u.wait := by
    unfold nextUnit
    split
    · split <;> rfl
    · rfl
  have huid : (nextUnit i u b).uid = u.uid := by
    unfold nextUnit
    split
    · split <;> rfl
    · rfl
  have hat : atEnd g1 ((nextUnit i u b).spent i s.steps) = atEnd g (nextUnit i u b) :=
    atEnd_congr (by rw [hg]) (by rw [hg]) (by rw [hg]) rfl rfl
  have ht : g1.trap.tmode = g.trap.tmode := by rw [hg]
  have hus : g1.units = g.units := by rw [hg]
  rw [if_neg]
  · have hs : Stands (s1.leaveWord i g1 ((nextUnit i u b).spent i s.steps)) g1.id ((nextUnit i u b).spent i s.steps) := by
      refine State.leaveWord_stands ?_ ?_ ?_
      · unfold Going GUnit.spent
        simp only [hw]
        exact hu
      · rw [ht, hus]
        unfold GUnit.spent
        simp only [huid]
        exact h
      · rw [hat, ht, hus]
        unfold GUnit.spent
        simp only [hw]
        exact he
    rw [hid] at hs
    obtain ⟨g', u', e1, e2, e3⟩ := hs
    exact ⟨g', u', e1, e2, e3⟩
  · rw [show ((nextUnit i u b).spent i s.steps).region = u.region from hreg, ht, hat]
    rcases h2 with h | h | h <;> simp [h]

/-! ### Issuing a word that transfers control, falls through, or faults -/

theorem issueWith_jump {fin : State → Nat → State} {i : Instr} {s : State} {body : State → Group → GUnit → Res} {g : Group} {u : GUnit}
    (h : Issues i s g u) {s' : State} {g' : Group} {u' : GUnit}
    (hb : body (s.traceWord g u i).1 (s.traceWord g u i).2 u = .jump s' g' u') :
    issueWith fin i s body = .next (s'.completeWord i g u g' u' false) := by
  unfold issueWith
  simp only [h.selected, h.group, h.unit, h.checks, h.free, h.sound, hb]

/-- A word whose meaning answers a fault changes nothing before the trap. -/
theorem issueWith_trap {fin : State → Nat → State} {i : Instr} {s : State} {body : State → Group → GUnit → Res} {g : Group} {u : GUnit}
    (h : Issues i s g u) {t : TrapInfo} (hb : body (s.traceWord g u i).1 (s.traceWord g u i).2 u = .trap t) :
    issueWith fin i s body = .next (s.takeTrap g.id u.uid t 0 false) := by
  unfold issueWith
  simp only [h.selected, h.group, h.unit, h.checks, h.free, h.sound, hb]

theorem Alone.apart {g : Group} {u0 u : GUnit} (h : Alone g u0 ∨ atEnd g u = false) :
    g.trap.tmode = true ∨ u0.wait ≠ .ready ∨ atEnd g u = false ∨ ∃ u0, g.units = [u0] := by
  rcases h with h | h
  · rcases h with h | h
    · exact .inr (.inr (.inr ⟨_, h.2.1⟩))
    · exact .inl h.1
  · exact .inr (.inr (.inl h))

/-- A word that transfers control completes, and its unit stands at the target: `g'` is the group with the registers that the word left. -/
theorem GoesTo.of_jump {i : Instr} {s : State} {g : Group} {u : GUnit} {body : State → Group → GUnit → Res} (h : Issues i s g u) {s0 s' : State}
    {g' : Group} {u' : GUnit} (he : exec i s = issue i s body) (hb : body (s.traceWord g u i).1 (s.traceWord g u i).2 u = .jump s' g' u')
    (hs : OnlyGroup g.id s0 s') (hg : SameRegs g g') (ht : g'.trap = g.trap) (hd : g'.baseDepth = g.baseDepth) (hsg : g'.segment = g.segment)
    (hus : g'.units = g.units) (hu : u'.uid = u.uid) (hw : u'.wait = .ready) (hl : LandsClear g u') (ha : Alone g u ∨ atEnd g u' = false) :
    GoesTo i s s0 g u' := by
  have hat : atEnd g' u' = atEnd g u' := atEnd_congr (by rw [ht]) hd hsg rfl rfl
  have hn : nextUnit i u' false = u' := rfl
  have hland : u'.region = none ∨ g'.trap.tmode = true ∨ atEnd g' (nextUnit i u' false) = false := by
    rw [hn, hat, ht]
    exact hl
  have h1 := State.completeWord_after s' i g u g' u' false hland
  have h2 := State.completeWord_stands (s := s') (i := i) (g0 := g) (u0 := u) (g := g') (u := u') (b := false) hland
    (by unfold Going; rw [hw]; exact ⟨by simp, by simp, by simp⟩) (by
      have := Group.unit_any h.unit
      rw [ht, hus, hu]
      exact this) (by
      rw [hn, hat, ht, hus]
      rcases Alone.apart ha with h' | h' | h' | h'
      · exact .inl h'
      · exact absurd h.ready h'
      · exact .inr (.inr (.inl h'))
      · exact .inr (.inr (.inr h')))
  have hid : g'.id = g.id := hg.id_eq
  rw [hid] at h1 h2
  exact ⟨_, by rw [he]; exact issueWith_jump h hb, (h1.trans_same hg).trans_only hs, h2⟩

/-- A word that falls through completes, and its unit stands at the next word or the back edge: `gg` holds the registers that the word left. -/
theorem GoesTo.of_fall {i : Instr} {s : State} {g : Group} {u : GUnit} {body : State → Group → GUnit → Res} (h : Issues i s g u)
    (hi : isHint i = false) {s0 s' : State} {g' gg : Group} {u' : GUnit} (he : exec i s = issue i s body)
    (hb : body (s.traceWord g u i).1 (s.traceWord g u i).2 u = .ok s' g' u') (hs : OnlyGroup g.id s0 s') (hg : SameRegs gg g')
    (hid : gg.id = g.id) (ht : g'.trap = g.trap) (hd : g'.baseDepth = g.baseDepth) (hsg : g'.segment = g.segment) (hus : g'.units = g.units)
    (hu : u'.uid = u.uid) (hw : u'.wait = .ready) (hpc : u'.pc = u.pc) (hl : MayFall g u u') : GoesTo i s s0 gg (backEdge u') := by
  have hat : ∀ x, atEnd g' x = atEnd g x := fun x => atEnd_congr (by rw [ht]) hd hsg rfl rfl
  have hn : nextUnit i u' true = backEdge u' := by simp [nextUnit, hi]
  have hF : FallsClear g' u' := hl.clear.congr (by rw [ht]) hd hsg rfl rfl rfl rfl
  have hland : u'.region = none ∨ g'.trap.tmode = true ∨ atEnd g' (nextUnit i u' true) = false := by
    rw [hn]
    exact hF.2
  have h1 := State.completeWord_after s' i g u g' u' true hland
  have h2 := State.completeWord_stands (s := s') (i := i) (g0 := g) (u0 := u) (g := g') (u := u') (b := true) hland
    (by unfold Going; rw [hw]; exact ⟨by simp, by simp, by simp⟩) (by
      have := Group.unit_any h.unit
      rw [ht, hus, hu]
      exact this) (by
      rw [hn, hat, ht, hus]
      rcases Alone.apart hl.apart with h' | h' | h' | h'
      · exact .inl h'
      · exact absurd h.ready h'
      · exact .inr (.inr (.inl h'))
      · exact .inr (.inr (.inr h')))
  have hid' : g'.id = g.id := hg.id_eq.trans hid
  rw [hid'] at h1 h2
  rw [hn] at h2
  refine ⟨_, by rw [he]; exact issueWith_ok h hb (hF.edge hi hpc), ?_, ?_⟩
  · rw [hid]
    exact (h1.trans_same hg).trans_only hs
  · rw [hid]
    exact h2

/-- A scoped word of a unit. -/
theorem atScope_unit {i : Instr} {s : State} {k : BitVec 3} {own : State → Ctx → CtxRes} {grp : State → Group → GUnit → Res} {g : Group} {u : GUnit}
    (h : Issues i s g u) :
    atScope i s k own grp = issue i s fun s g u => if 2 ≤ k.toNat then .trap (scopeFault i u) else grp s g u := by
  unfold atScope
  rw [h.selected]

end Sys2Proof.Machine
end

