-- ==== Sys2Proof/Tests/Slice0.lean ====
section
/-!
SUPPORT. Tests: an ill-formed word for each check of the word itself, words of every family written out from the spec's encodings, small
steps whose results the spec gives, and for every statement of this slice concrete states and operands that meet its hypotheses.
-/

open Sys2Proof Sys2Proof.Machine Sys2Proof.Stated

set_option Elab.async false

namespace Sys2Proof.Tests

/-! ### A small machine -/

/-- A launch of four blocks. -/
def desc : LaunchDesc :=
  { entry := 0x1000, nblk := 4, cset := 0, ngrp := 0, width := 4, split := 128, fused := false, fallback := false, carve := 16, regp := 64,
    acres := 16, chmask := 3, sqmask := 3, savebase := 0, savestride := 0, roleof := 0,
    roles := [{ entry := 0, valloc := 8, vwin := 0, valid := true }], gargs := [], bargs := [], pred := 0, slot := 0, psel := 0, site := 0,
    aslice := 0, abase := 0 }

/-- A grid with all its blocks placed. -/
def grid : Grid :=
  { id := 50, asid := 77, partition := 3, home := 0, qid := 7, pos := 5, prio := 2, timed := false, desc := desc, next := 4, count := 4,
    ranks := [0], predicted := false, confirmed := true, tail := false, restore := none, preempted := false, stopped := false,
    ended := false, status := 0, k0 := 4, walkFault := [], cursors := [] }

/-- A partition of two clusters. -/
def part : Partition :=
  { id := 3, fn := 1, clusters := [0, 1], timed := false, floor := 2, share := 8, suspBase := 0, suspSlots := 2, watchLimit := 100,
    admitted := [], creating := none }

/-- A context with a trap vector and a kernel whose entry 0 is at 0x1040. -/
def context : Context :=
  { asid := 77, fn := 1, partition := 3, tvec := some 0x4000, rtver := 0, shapes := [], tensors := [],
    kernels := [{ start := 0x1000, entries := [some 0x1040] }], codeTop := 0, images := 0 }

/-- A queue that is busy, its descriptor in host memory. -/
def queue : Queue :=
  { qid := 7, fn := 1, asid := 77, partition := 3, desc := 2 ^ 48 + 0x8000, descVa := 0x6000, timed := false, state := 2, err := 0, gen := 0,
    fetchedCount := 5, thread := some (0, 0), idleSince := 0, records := [], pid := 9, tid := 1, restores := [], descKey := 0, walkFault := [],
    packet := none }

/-- A block with 4 KiB of scratchpad, 16 chunks of registers in reserve and 64 rows of accumulators. -/
def block : Block :=
  { noBlock 10 with grid := 50, asid := 77, held := 1, carve := 4096, pad := [(0, 7), (64, 9)], regPool := [{ sched := 0, gang := 0, slices := 1, chunks := 16 }], acRows := 64, acResv := 16 }

/-- The block's context. -/
def bctx : Ctx :=
  { id := 60, scope := 2, grid := 50, block := 10, cluster := 0, rank := 0, regs := Vector.replicate 16 5, pc := 0x1000, start := 0x1000,
    segment := .upTo 0x0F00 0x1100, baseDepth := 0, dvals := Vector.replicate 6 0, sdv := 0, sd := Vector.replicate 6 0, loops := [], stack := [],
    queue := [], nextSeq := 0, links := [{ dest := .group 11, key := 0, seq := 0, behind := 0 }], log := [], logging := false, logBase := 0, state := .scanning,
    frozen := false, saved := false, fault := none, reporter := none, walkFault := none, joint := none, sent := none, parties := [], got := [], hint := none,
    watchdog := 0, watchMark := 0 }

/-- A ready unit of four lanes. -/
def unit : GUnit :=
  { uid := 0, mask := 0xF, pc := 0x1000, fmt := Config.fmtReset, loops := [], stack := [], entry := none, region := none, wait := .ready,
    hint := none, unfinished := none, ordered := false, skipBp := false, since := 0 }

/-- A group of one unit: `s1` 3, `s2` the scratchpad window, `s3`, `s6`, `s7`, `s8` and `s11` the pages below, `s9` a window that names no storage,
`s10` a misaligned address, `s4` 64, every other scalar 0; `v1` 5 in lane 1. -/
def group : Group :=
  { newGroup 11 block 0 { slot := 0, gang := 0 } 4 8 0 0 0 0x1000 9 0 0 with
    segment := .upTo 0x0F00 0x1200, units := [unit],
    sregs := Vector.ofFn fun i : Fin 32 => ([0, 3, 0xFF00000000000000, 0x2000, 64, 0, 0x3000, 0x4000, 0x5000, 0xFF02000000000000, 0x2001, 0x6000] : List Word).getD i.val 0, vregs := [(33, 5)],
    preds := Vector.replicate 8 0x5, dvals := Vector.replicate 6 8 }

/-- A page of the context. -/
def page (p frame ord key : Nat) : TlbEntry :=
  { asid := 77, page := p, leaf := { frame := frame, r := true, w := true, x := true, p := false, ord := ord, key := key } }

/-- The machine: page 1 holds code, page 2 lies in module HBM, page 3 there on an unordered page, page 4 in host memory,
page 5 nowhere, and page 6 is of the reserved kind. -/
def world : State :=
  { State.reset with
    ids := 100, sel := some (.unit 11 0), groups := [group], blocks := [block], grids := [grid], partitions := [part], contexts := [context],
    queues := [queue], ctxs := [bctx], keySlots := [(0, 1), (1, 5)],
    tlb := [page 1 (2 ^ 48 + 0x1000) 1 0, page 2 0x10000 1 1, page 3 0x11000 2 1, page 4 (2 ^ 48 + 0x4000) 1 0, page 6 0x12000 3 1],
    spaces := [{ asid := 77, fn := 1, w0 := 0x20, root := 0, ring := 0, nextIndex := 0 }],
    clusters := [{ clusterReset 0 with partition := some 3 }, { clusterReset 1 with partition := some 3 }] }

/-- The group with another unit in place of its own, and the machine with that group. -/
def only (u : GUnit) : Group := { group with units := [u] }

/-- The machine with a group in place of its own. -/
def having (g : Group) : State := { world with groups := [g] }

/-! ### What a word about to issue needs, as data -/

theorem issues_of {i : Instr} {s : State} {g : Group} {u : GUnit}
    (h : s.sel = some (.unit g.id u.uid) ∧ s.group? g.id = some g ∧ g.unit? u.uid = some u ∧ u.wait = .ready ∧ gate g u i = none ∧
      s.stallOf g u i = none ∧ tokenFault g u i = none) :
    Issues i s g u := ⟨h.1, h.2.1, h.2.2.1, h.2.2.2.1, h.2.2.2.2.1, h.2.2.2.2.2.1, h.2.2.2.2.2.2⟩

/-- A unit that falls through to the next word of its segment. -/
theorem fallsClear_of {g : Group} {u : GUnit} (h : (backEdge u).pc = u.pc + 4 ∧ u.region = none) : FallsClear g u := ⟨.inl h.1, .inl h.2⟩

theorem mayFall_of {g : Group} {u : GUnit} (h : (backEdge u).pc = u.pc + 4 ∧ u.region = none ∧ atEnd g (backEdge u) = false) : MayFall g u u :=
  ⟨fallsClear_of ⟨h.1, h.2.1⟩, .inr h.2.2⟩

theorem mayGo_of {g : Group} {u0 u : GUnit} (h : inSegment g u0 u.pc = true ∧ u.region = none ∧ atEnd g u = false) : MayGo g u0 u :=
  ⟨h.1, .inl h.2.1, .inr h.2.2⟩

/-- The state and the unit from which most words are tried. -/
theorem falls : FallsClear group unit := fallsClear_of (by decide +kernel)

theorem mayFall : MayFall group unit unit := mayFall_of (by decide +kernel)

/-- Whether a word issues from the small machine. -/
def tried (i : Instr) : Bool :=
  decide (gate group unit i = none) && decide (world.stallOf group unit i = none) && decide (tokenFault group unit i = none)

theorem tried_issues {i : Instr} (h : tried i = true) : Issues i world group unit := by
  simp only [tried, Bool.and_eq_true, decide_eq_true_eq] at h
  exact ⟨rfl, by decide +kernel, by decide +kernel, rfl, h.1.1, h.1.2, h.2⟩

theorem all_tried {l : List Instr} (h : l.all tried = true) : ∀ i ∈ l, Issues i world group unit ∧ FallsClear group unit ∧ MayFall group unit unit :=
  fun i hi => ⟨tried_issues (List.all_eq_true.mp h i hi), falls, mayFall⟩

/-! ### Words that issue: witnesses of the statements about one word -/

/-- ScalarWords, SelectWords, ControlRegisterRead: each word issues and falls through, with a destination and with `s0`. -/
theorem witness_ScalarWords : ∀ i ∈ ([.sadd 0 5 1 4 0, .ssub 0 0 1 4 1, .smul 0 5 1 4 2, .smulh 0 31 1 4 3, .sdiv 0 5 1 0 2, .smin 0 5 1 4 0, .smax 0 5 1 4 0,
    .sand 0 5 1 4 0, .sor 0 5 1 4 0, .sxor 0 5 1 4 0, .sshl 0 5 1 4 0, .sshr 0 5 1 4 1, .ssar 0 5 1 4 2, .sset 0 5 1 4 0 5, .sli 0 5 1 0x1FFF,
    .slui 0 5 1 0x2000, .fmtGet 0 5, .tsc 0 5, .tsr 0 0, .ssel 0 5 1 4 0, .ssel 0 0 1 4 3, .csrr 0 5 0x000, .csrr 0 5 0x022] : List Instr),
    Issues i world group unit ∧ FallsClear group unit ∧ MayFall group unit unit := all_tried (by decide +kernel)

/-- LaneWords, SelectWords, BitwiseWords: each word issues, with a mask, with all lanes and with an empty mask. -/
theorem witness_LaneWords : ∀ i ∈ ([.vadd 0 0 2 1 3 0, .vsub 0 1 2 1 3 1, .vmul 0 0 63 1 3 0, .vmulh 0 0 2 1 3 0, .vmin 0 0 2 1 3 1, .vmax 0 0 2 1 3 0,
    .vmad 0 0 2 1 3 0, .vaddImm 0 0 2 1 0xFF 0, .vmulImm 0 0 2 1 0xFF 1, .vsat 0 0 2 1 1 0, .vsat 0 0 2 1 32 1, .vshl 0 0 2 1 3, .vshr 0 0 2 1 3,
    .vsar 0 0 2 1 3, .vshlImm 0 0 2 1 31 0, .vshrImm 0 0 2 1 0 0, .vsarImm 0 0 2 1 31 1, .vmov 0 0 2 1, .vbcast 0 0 2 1, .vlane 0 0 2, .vmovImm 0 0 2 0x80,
    .vrand 0 1 2, .vshfl 0 0 2 1 4 0, .vshfl 0 0 2 1 4 3, .vvoteBallot 0 0 5 1, .vvoteBallot 0 0 0 1, .vext 0 0 5 1 1, .vins 0 0 2 4 1, .vins 0 1 2 4 4,
    .vsel 0 0 2 1 3 0, .vsel 0 0 2 1 3 7, .vabs 0 0 2 1, .vand 0 0 2 1 3, .vor 0 0 2 1 3, .vxor 0 0 2 1 3, .vandn 0 0 2 1 3, .vclz 0 0 2 1, .vpopc 0 0 2 1] : List Instr),
    Issues i world group unit ∧ FallsClear group unit ∧ MayFall group unit unit := all_tried (by decide +kernel)

/-- The element and the width that the moves between a lane and a scalar need. -/
theorem witness_LaneWords_width : group.width ≤ 32 ∧ group.width ∈ [4, 8, 16, 32] := by decide

/-- PredicateResult. -/
theorem witness_PredicateResult : ∀ i ∈ ([.vset 0 0 0 1 1 3 0, .vset 0 1 5 7 1 3 1, .vsetImm 0 0 2 1 1 0x7F 0, .pand 0 0 1 2 3, .por 0 0 1 2 3, .pxor 0 0 7 2 3,
    .pnot 0 0 1 2, .vvoteAll 0 0 1 2, .vvoteAny 0 1 1 2] : List Instr),
    Issues i world group unit ∧ FallsClear group unit ∧ MayFall group unit unit := all_tried (by decide +kernel)

/-- FloatWords and SpecialFunctions: every type that each word has. -/
theorem witness_FloatWords : ∀ i ∈ ([.vfadd 0 0 2 4 6 0, .vfadd 0 0 2 1 3 1, .vfsub 0 0 2 1 3 2, .vfmul 0 0 2 1 3 3, .vfma 0 0 2 1 3 4, .vfmin 0 0 2 1 3 1,
    .vfmax 0 0 2 4 6 0, .vfset 0 0 0 1 1 3 1, .vfset 0 0 6 7 4 6 0, .vfrcp 0 0 2 4 0, .vfrsq 0 0 2 1 1, .vfsqrt 0 0 2 1 2, .vfex2 0 0 2 1 1, .vflg2 0 0 2 1 1,
    .vfsin 0 0 2 1 3, .vfcos 0 0 2 1 1] : List Instr),
    Issues i world group unit ∧ FallsClear group unit ∧ MayFall group unit unit := all_tried (by decide +kernel)

/-- TreeResult. -/
theorem witness_TreeResult : ∀ i ∈ ([.vred 0 0 2 1 0 5, .vred 0 0 2 1 2 2, .vred 0 0 2 4 3 0, .vscan 0 0 2 1 1 0, .vscan 0 1 2 4 3 1] : List Instr),
    Issues i world group unit ∧ FallsClear group unit ∧ MayFall group unit unit := all_tried (by decide +kernel)

/-- ConversionWords: conversions between formats of one, of fewer and of more bits, quantisation with BFMT 0 to 3, its reverse, the codebook. -/
theorem witness_ConversionWords : ∀ i ∈ ([.vcvt 0 0 2 1 1 1, .vcvt 0 0 4 8 0 1, .vcvt 0 0 4 8 4 1, .vcvt 0 0 4 8 9 10, .vquant 0 0 4 8 4, .vquant 0 0 4 8 9,
    .vdq 0 0 8 4 4, .vcbdec 0 0 8 1] : List Instr),
    Issues i world group unit ∧ FallsClear group unit ∧ MayFall group unit unit := all_tried (by decide +kernel)

theorem witness_ConversionWords_fmt : fmtB unit.fmt ≤ 3 ∧ fmtScm unit.fmt ≠ 3 := by decide +kernel

/-- A unit whose FMT names no float format as BFMT, and one whose SCM is 3. -/
def badB : GUnit := { unit with fmt := 0x0000000001000141 }

def badScm : GUnit := { unit with fmt := 0x0000000001060111 }

/-- FormatFault: a BFMT of 4, and SCM 3. -/
theorem witness_FormatFault :
    (Issues (.vquant 0 0 4 8 4) (having (only badB)) (only badB) badB ∧ Issues (.vdq 0 0 8 4 4) (having (only badB)) (only badB) badB ∧ 3 < fmtB badB.fmt ∧
      activeMask (only badB) badB 0 ≠ 0) ∧
    Issues (.vquant 0 0 4 8 4) (having (only badScm)) (only badScm) badScm ∧ fmtScm badScm.fmt = 3 ∧ activeMask (only badScm) badScm 0 ≠ 0 :=
  ⟨⟨issues_of (by decide +kernel), issues_of (by decide +kernel), by decide +kernel, by decide +kernel⟩,
    issues_of (by decide +kernel), by decide +kernel, by decide +kernel⟩

/-- PackAndShapeLoad: the formats at both ends of those that `spk24` packs, and those just beyond them. -/
def packer (a : Nat) : GUnit := { unit with fmt := BitVec.ofNat 64 (0x1000110 + a) }

theorem witness_spk24 : ∀ a ∈ [3, 4, 9, 10], Issues (.spk24 0 0 2 4 6) (having (only (packer a))) (only (packer a)) (packer a) ∧
    FallsClear (only (packer a)) (packer a) ∧ activeMask (only (packer a)) (packer a) 0 ≠ 0 ∧ fmtA (packer a).fmt = a := by
  intro a ha
  simp only [List.mem_cons, List.not_mem_nil, or_false] at ha
  rcases ha with rfl | rfl | rfl | rfl <;> exact ⟨issues_of (by decide +kernel), fallsClear_of (by decide +kernel), by decide +kernel, by decide +kernel⟩

/-- A block whose class is timed, and the machine with it. -/
def timed : State := { world with blocks := [{ block with timed := true }] }

theorem witness_cbld :
    (Issues (.cbld 0 2) world group unit ∧ (group.s 2).toNat % 64 = 0 ∧ world.block? 10 = some block ∧ MayFall group unit unit ∧
      (∀ k, k < 64 → world.placeAt group .read 32 (group.s 2 + BitVec.ofNat 64 (32 * k)) = .hit (.pad block.id (0 + 32 * k)) ∧
        world.transferAt group.id (.pad block.id (0 + 32 * k)) 32 = false) ∧ world.context? (world.blockOf group).asid = some context ∧
      ∀ t ∈ (world.core group.core).allTasks, ¬(t.group = group.id ∧ taskA t.record = 11 ∧ taskCbt t.record = fmtCbt unit.fmt)) ∧
    (Issues (.cbld 0 3) timed group unit ∧ (timed.blockOf group).timed = true ∧ (group.s 3).toNat / 2 ^ 56 ≠ 0xFF) ∧
    (Issues (.cbld 0 1) world group unit ∧ (world.blockOf group).timed = false ∧ (group.s 1).toNat % 64 ≠ 0) :=
  ⟨⟨tried_issues (by decide +kernel), by decide +kernel, by decide +kernel, mayFall, by decide +kernel, by decide +kernel, by decide +kernel⟩,
    ⟨issues_of (by decide +kernel), by decide +kernel, by decide +kernel⟩,
    ⟨tried_issues (by decide +kernel), by decide +kernel, by decide +kernel⟩⟩

/-! ### Control of units -/

/-- A unit with loop levels and a call open. -/
def deep : GUnit := { unit with loops := [{ count := 2, first := 0x0F00, last := 0x1008 }], stack := [{ ret := 0x1020, loops := 0 }] }

/-- UnitTransfers: jumps, both outcomes of a branch at group scope, a call, and a return. -/
theorem witness_UnitTransfers :
    (∀ i ∈ ([.jmp 0 0 0xFFFF, .jmp 0 1 4, .br 0 1 1 4, .br 0 1 0 4, .call 0 0 4, .call 0 1 4] : List Instr), Issues i world group unit) ∧
    MayGo group unit { unit with pc := offsetFrom unit 0xFFFF } ∧ MayGo group unit { unit with pc := offsetFrom unit 4 } ∧
    group.s 1 ≠ 0 ∧ group.s 0 = 0 ∧ MayFall group unit unit ∧ unit.stack.length ≠ Config.callDepth ∧
    (let u' := { unit with pc := offsetFrom unit 4, stack := [{ ret := 0x1004, loops := 0 }] }
     LandsClear group u' ∧ atEnd group u' = false) ∧
    (Issues (.ret 0 0) (having (only deep)) (only deep) deep ∧ deep.stack = { ret := 0x1020, loops := 0 } :: [] ∧ atBase (only deep) deep = false ∧
      (backEdgeFrom (0x1020 - 4) []).2 = 0x1020 ∧ Alone (only deep) deep) :=
  ⟨fun i hi => tried_issues (List.all_eq_true.mp (by decide +kernel) i hi), mayGo_of (by decide +kernel), mayGo_of (by decide +kernel), by decide +kernel,
    by decide +kernel, mayFall, by decide, ⟨.inl rfl, by decide +kernel⟩, issues_of (by decide +kernel), rfl, by decide +kernel, by decide +kernel,
    .inl ⟨rfl, rfl, rfl⟩⟩

/-- A unit in a loop. -/
def looping : GUnit := { unit with loops := [{ count := 2, first := 0x0F00, last := 0x1010 }] }

/-- UnitLoops: a loop entered and one skipped, a level left and one kept. -/
theorem witness_UnitLoops :
    (Issues (.loop 0 0 1 4) world group unit ∧ Issues (.loop 0 1 0 4) world group unit ∧ bodyOutside (atBase group unit) group.segment (offsetFrom unit 4) = false ∧
      group.s 1 ≠ 0 ∧ group.s 0 = 0 ∧ unit.loops.length ≠ Config.loopLevels ∧ LandsClear group { unit with pc := offsetFrom unit 4 } ∧ Alone group unit) ∧
    (Issues (.lbrk 0 1 1) (having (only looping)) (only looping) looping ∧ Issues (.lbrk 0 1 0) (having (only looping)) (only looping) looping ∧
      MayGo (only looping) looping { looping with pc := 0x1014, loops := [] } ∧ MayFall (only looping) looping looping) :=
  ⟨⟨tried_issues (by decide +kernel), tried_issues (by decide +kernel), by decide +kernel, by decide +kernel, by decide +kernel, by decide, .inl rfl,
      .inl ⟨rfl, rfl, rfl⟩⟩,
    issues_of (by decide +kernel), issues_of (by decide +kernel), mayGo_of (by decide +kernel), mayFall_of (by decide +kernel)⟩

/-- A unit with full call stack and full loop levels, at the base depth of its group. -/
def full : GUnit :=
  { unit with stack := List.replicate Config.callDepth { ret := 0x1020, loops := 0 }, loops := List.replicate Config.loopLevels { count := 2, first := 0x0F00, last := 0x1010 } }

/-- UnitTransferFaults: targets just beyond the segment, words of wider scopes, stacks full and empty. -/
theorem witness_UnitTransferFaults :
    (∀ i ∈ ([.jmp 0 2 4, .jmp 0 0 0x82, .br 0 2 1 4, .br 0 1 1 0x82, .call 0 4 4, .ret 0 2, .ret 0 0, .loop 0 2 1 4, .loop 0 0 1 0x82, .lbrk 0 2 1, .lbrk 0 0 1,
      .bar 0 2, .up 0 5 5 3 0, .up 0 5 5 2 0] : List Instr), Issues i world group unit) ∧
    inSegment group unit (offsetFrom unit 0x81) = true ∧ inSegment group unit (offsetFrom unit 0x82) = false ∧
    bodyOutside (atBase group unit) group.segment (offsetFrom unit 0x82) = true ∧ atLast group unit unit.pc = false ∧
    (let g := { only full with baseDepth := Config.callDepth }
     Issues (.call 0 0 4) (having g) g full ∧ Issues (.ret 0 0) (having g) g full ∧ atBase g full = true ∧ full.stack ≠ [] ∧
     Issues (.loop 0 0 1 4) (having g) g full ∧ bodyOutside (atBase g full) g.segment (offsetFrom full 4) = false ∧ full.loops.length = Config.loopLevels) :=
  ⟨fun i hi => tried_issues (List.all_eq_true.mp (by decide +kernel) i hi), by decide +kernel, by decide +kernel, by decide +kernel, by decide +kernel,
    issues_of (by decide +kernel), issues_of (by decide +kernel), by decide +kernel, by decide, issues_of (by decide +kernel), by decide +kernel, by decide⟩
/-! ### Divergence, hints and contexts -/

/-- LaneBranches: a condition that agrees in the unit's lanes, one that no lane meets, and one that differs. -/
theorem witness_LaneBranches :
    (∀ c ∈ [0, 1, 2], Issues (.br 0 0 c 4) (having { group with preds := #v[0, 0, 0x5, 0, 0, 0, 0, 0] }) { group with preds := #v[0, 0, 0x5, 0, 0, 0, 0, 0] } unit) ∧
    (let g := { group with preds := #v[0, 0, 0x5, 0, 0, 0, 0, 0] }
     branchEntry g unit ≠ none ∧ unit.mask &&& g.p 0 = unit.mask ∧ unit.mask &&& g.p 1 = 0 ∧ unit.mask &&& g.p 2 = 0x5 ∧ unit.region = none ∧
     MayGo g unit { unit with pc := offsetFrom unit 4 } ∧ MayFall g unit unit ∧ (∀ x ∈ g.units, x.uid < g.nextUid) ∧ g.trap.tmode = false ∧
     inSegment g unit (offsetFrom unit 4) = true ∧ atEnd g (backEdge unit) = false) := by
  refine ⟨fun c hc => ?_, by decide +kernel, by decide +kernel, by decide +kernel, by decide +kernel, rfl, mayGo_of (by decide +kernel),
    mayFall_of (by decide +kernel), by decide +kernel, rfl, by decide +kernel, by decide +kernel⟩
  simp only [List.mem_cons, List.not_mem_nil, or_false] at hc
  rcases hc with rfl | rfl | rfl <;> exact issues_of (by decide +kernel)

/-- A unit inside a region. -/
def masked : GUnit := { unit with region := some 0xF }

/-- MaskRegions: opening and closing a region, and the words inside one; `p1` holds in every lane of the region, `p2` in none, `p3` in some. -/
def regional : Group := { only masked with preds := #v[0, 0xF, 0, 0x5, 0, 0, 0, 0] }

theorem witness_MaskRegions :
    (Issues (.maskAll 0) world group unit ∧ Issues (.maskRest 0) world group unit ∧ unit.region = none ∧ group.trap.tmode = false ∧
      FallsClear group { unit with region := some unit.mask } ∧ Alone group unit) ∧
    (∀ i ∈ ([.maskRest 0, .maskAll 0, .exit 0, .rcv 0, .br 0 0 1 4, .br 0 0 2 4, .br 0 0 3 4] : List Instr), Issues i (having regional) regional masked) ∧
    FallsClear regional masked ∧ FallsClear regional { masked with region := none } ∧ Alone regional masked ∧
    MayGo regional masked { masked with pc := offsetFrom masked 4 } ∧ inSegment regional masked (offsetFrom masked 4) = true ∧
    regional.live &&& regional.p 1 = regional.live ∧ regional.live &&& regional.p 2 = 0 ∧ regional.live &&& regional.p 3 = 0x5 := by
  refine ⟨⟨tried_issues (by decide +kernel), tried_issues (by decide +kernel), rfl, rfl, ⟨.inl rfl, .inr (.inr (by decide +kernel))⟩, .inl ⟨rfl, rfl, rfl⟩⟩, fun i hi => ?_, ⟨.inl rfl, .inr (.inr (by decide +kernel))⟩,
    ⟨.inl rfl, .inl rfl⟩, .inl ⟨rfl, rfl, rfl⟩, ⟨by decide +kernel, .inr (.inr (by decide +kernel)), .inr (by decide +kernel)⟩, by decide +kernel, by decide +kernel, by decide +kernel, by decide +kernel⟩
  simp only [List.mem_cons, List.not_mem_nil, or_false] at hi
  rcases hi with rfl | rfl | rfl | rfl | rfl | rfl | rfl <;> exact issues_of (by decide +kernel)

/-- UnitWords: each of them, the hints among them; `fmt.set` of a value that FMT may hold, and of one that it may not. -/
theorem witness_UnitWords :
    (∀ i ∈ ([.nop 0, .yield 0, .fmtSet 0 5, .fmtSet 0 2, .downRead 0 5 3 1, .hintImm 0 0xFFFFFF, .hintMod 0 1 0, .hintSched 0 1 2] : List Instr),
      Issues i world group unit ∧ FallsClear group unit ∧ MayFall group unit unit) ∧
    fmtOk (group.s 5) = true ∧ fmtOk (group.s 2) = false ∧ (hintOf (.hintImm 0 0xFFFFFF)).isSome ∧ (hintOf (.hintMod 0 1 0)).isSome ∧
    (hintOf (.hintSched 0 1 2)).isSome := ⟨all_tried (by decide +kernel), by decide +kernel, by decide +kernel, rfl, rfl, rfl⟩

theorem ctxIssues_of {i : Instr} {s : State} {c : Ctx} (h : s.sel = some (.context c.id) ∧ s.ctx? c.id = some c ∧ (c.frozen = false ∧ c.state = .scanning) ∧
    codesOk c.hint c.scope 0 i = true ∧ hintOk c.hint i = true) : CtxIssues i s c := ⟨h.1, h.2.1, h.2.2.1, h.2.2.2.1, h.2.2.2.2⟩

/-- The small machine with a block context selected. -/
def scanning (c : Ctx) : State := { world with ctxs := [c], sel := some (.context 60) }

/-- A context with a call and a loop open, and one whose registers hold zeros. -/
def deepCtx : Ctx := { bctx with stack := [{ ret := 0x1020, loops := 1 }], loops := [{ count := 2, first := 0x0F00, last := 0x1010 }] }

def zeroCtx : Ctx := { deepCtx with regs := Vector.replicate 16 0 }

/-- ContextTransfers: each word of a block context, with registers that hold 5 and with zeros. -/
theorem witness_ContextTransfers :
    (∀ i ∈ ([.jmp 0 2 4, .br 0 2 1 4, .call 0 2 4, .ret 0 2, .loop 0 2 1 4, .lbrk 0 2 1, .downSend 0 5 1 2, .downRead 0 1 5 2, .bar 0 2] : List Instr),
      CtxIssues i (scanning deepCtx) deepCtx ∧ CtxIssues i (scanning zeroCtx) zeroCtx) ∧
    (scanning deepCtx).readsEarly deepCtx 1 = false ∧ (scanning zeroCtx).readsEarly zeroCtx 1 = false ∧ deepCtx.r 1 ≠ 0 ∧ zeroCtx.r 1 = 0 ∧
    deepCtx.inSegment (ctxOffset deepCtx 4) = true ∧ ctxMayFall deepCtx ∧ deepCtx.stack.length ≠ Config.callDepth ∧ deepCtx.atBase = false ∧
    (backEdgeFrom (0x1020 - 4) (deepCtx.loops.drop 0)).2 = 0x1020 ∧ bodyOutside deepCtx.atBase deepCtx.segment (ctxOffset deepCtx 4) = false ∧
    deepCtx.loops.length ≠ Config.loopLevels ∧ deepCtx.inSegment (0x1010 + 4) = true ∧ deepCtx.hint = none := by
  refine ⟨fun i hi => ?_, by decide +kernel, by decide +kernel, by decide +kernel, by decide +kernel, by decide +kernel, .inl (by decide +kernel), by decide, by decide +kernel, by decide +kernel,
    by decide +kernel, by decide, by decide +kernel, rfl⟩
  simp only [List.mem_cons, List.not_mem_nil, or_false] at hi
  rcases hi with rfl | rfl | rfl | rfl | rfl | rfl | rfl | rfl | rfl <;> exact ⟨ctxIssues_of (by decide +kernel), ctxIssues_of (by decide +kernel)⟩

/-! ### Checks, stalls and traps -/

theorem chosen_of {s : State} {g : Group} {u : GUnit} (h : s.sel = some (.unit g.id u.uid) ∧ s.group? g.id = some g ∧ g.unit? u.uid = some u) : Chosen s g u :=
  ⟨h.1, h.2.1, h.2.2⟩

/-- A unit outside its segment, one with a hint that its word cannot use, and a group with few registers. -/
def astray : GUnit := { unit with pc := 0x1300 }

def hinted : GUnit := { unit with hint := some (.modifier 1 0) }

def small : Group := { group with chunks := 1 }

/-- IssueChecks: each check that fails, and the words that pass it and fail the next. -/
theorem witness_CheckFaults :
    (Chosen (having (only astray)) (only astray) astray ∧ strayed (only astray) astray = true) ∧
    (Chosen world group unit ∧ strayed group unit = false ∧ codesOk unit.hint 0 (fmtB unit.fmt) (.vadd 0 0 2 1 3 2) = false ∧ (encodeNat (.vadd 0 0 2 1 3 2)).isSome) ∧
    (Chosen (having (only hinted)) (only hinted) hinted ∧ hintOk hinted.hint (.sadd 0 5 1 4 0) = false) ∧
    (privileged (.rte 0) = true ∧ group.trap.tmode = false ∧ gate group unit (.rte 0) ≠ none) ∧
    (csrWritable false 0x003 = false ∧ privileged (.csrw 0 1 0x003) = false ∧ (encodeNat (.csrw 0 1 0x003)).isSome) ∧
    (Chosen (having small) small unit ∧ (7, 1) ∈ vReads (fmtB unit.fmt) (.vmov 0 0 8 7) ++ vWrites (fmtB unit.fmt) (.vmov 0 0 8 7) ∧
      (8, 1) ∈ vWrites (fmtB unit.fmt) (.vmov 0 0 8 7) ∧ small.valloc = small.vwin + 7 + 1) :=
  ⟨⟨chosen_of (by decide +kernel), by decide +kernel⟩, ⟨chosen_of (by decide +kernel), by decide +kernel, by decide +kernel, by decide +kernel⟩,
    ⟨chosen_of (by decide +kernel), by decide +kernel⟩, ⟨rfl, rfl, by decide +kernel⟩, ⟨by decide +kernel, by decide +kernel, by decide +kernel⟩,
    chosen_of (by decide +kernel), by decide +kernel, by decide +kernel, by decide +kernel⟩

/-- A group whose `s5` is a pending token; writes of `s5` and of `v2` that are awaited; a completed token that carries a fault. -/
def tokened : Group := { group with pending := 0x20 }

def awaiting : State :=
  { world with writes := [{ id := 90, group := 11, vreg := none, sreg := 5, lanes := [(0, 1)], reply := false },
                          { id := 91, group := 11, vreg := some (2, false), sreg := 0, lanes := [(0, 1)], reply := false }] }

/-- An AtomicOp to host memory in flight that will write `s5`. -/
def inFlight : State :=
  { world with atomics := [{ id := 92, group := 11, unit := 0, lanes := 0xF, op := 0, wide := false, place := .phys (2 ^ 48 + 0x4000) 1 0 0x4000, operand := 1, swap := 0,
                             sreg := 5, acq := none }] }

def faulty : Group := { group with tokFaults := [(5, { cause := 17, tval := 3, tstat := 0, tlane := 0 })] }

theorem witness_RegisterStalls :
    (Chosen (having tokened) tokened unit ∧ gate tokened unit (.sadd 0 6 5 5 0) = none ∧ 5 ∈ sReads (.sadd 0 6 5 5 0) ++ sWrites (.sadd 0 6 5 5 0) ∧ tokened.isPending 5 = true) ∧
    (Chosen awaiting group unit ∧ gate group unit (.sadd 0 6 5 5 0) = none ∧ (∀ r ∈ sReads (.sadd 0 6 5 5 0) ++ sWrites (.sadd 0 6 5 5 0), group.isPending r = false) ∧
      (∃ w ∈ awaiting.writes, w.group = group.id ∧ w.vreg = none ∧ w.sreg ≠ 0 ∧ w.sreg ∈ sReads (.sadd 0 6 5 5 0) ++ sWrites (.sadd 0 6 5 5 0))) ∧
    (gate group unit (.vmov 0 0 2 1) = none ∧ activeMask group unit (predField (.vmov 0 0 2 1)) ≠ 0 ∧
      (∃ w ∈ awaiting.writes, w.group = group.id ∧ w.vreg = some (2, false) ∧ (2, 1) ∈ vReads (fmtB unit.fmt) (.vmov 0 0 2 1) ++ vWrites (fmtB unit.fmt) (.vmov 0 0 2 1))) ∧
    (Chosen (having faulty) faulty unit ∧ gate faulty unit (.sadd 0 6 5 5 0) = none ∧ (having faulty).stallOf faulty unit (.sadd 0 6 5 5 0) = none ∧
      maskEmpty faulty unit (.sadd 0 6 5 5 0) = false ∧ 5 ∈ sReads (.sadd 0 6 5 5 0)) ∧
    (Chosen inFlight group unit ∧ (∃ x ∈ inFlight.atomics, x.group = group.id ∧ x.sreg ≠ 0 ∧ x.sreg ∈ sReads (.sadd 0 6 5 5 0) ++ sWrites (.sadd 0 6 5 5 0))) ∧
    (gate group unit (.fence 0 4) = none ∧ hasMask (.fence 0 4) = false ∧ (∀ r ∈ sReads (.fence 0 4) ++ sWrites (.fence 0 4), group.isPending r = false) ∧
      inFlight.heldUp group unit (.fence 0 4) = false ∧ inFlight.streamHeld group unit (.fence 0 4) = false ∧ ordersFar (.fence 0 4) = true) ∧
    (maskEmpty { group with preds := Vector.replicate 8 0 } unit (.vadd 0 1 2 1 3 0) = true) :=
  ⟨⟨chosen_of (by decide +kernel), by decide +kernel, by decide +kernel, by decide +kernel⟩,
    ⟨chosen_of (by decide +kernel), by decide +kernel, by decide +kernel, by decide +kernel⟩,
    ⟨by decide +kernel, by decide +kernel, ⟨{ id := 91, group := 11, vreg := some (2, false), sreg := 0, lanes := [(0, 1)], reply := false }, by decide +kernel, rfl, rfl, by decide +kernel⟩⟩,
    ⟨chosen_of (by decide +kernel), by decide +kernel, by decide +kernel, by decide +kernel, by decide +kernel⟩,
    ⟨chosen_of (by decide +kernel), by decide +kernel⟩,
    ⟨by decide +kernel, by decide +kernel, by decide +kernel, by decide +kernel, by decide +kernel, by decide +kernel⟩, by decide +kernel⟩

/-- A group whose predicate 1 holds in no lane. -/
def noLane : Group := { group with preds := Vector.replicate 8 0 }

theorem witness_EmptyMask : Issues (.vadd 0 1 2 1 3 0) (having noLane) noLane unit ∧ FallsClear noLane unit ∧ hasMask (.vadd 0 1 2 1 3 0) = true ∧
    activeMask noLane unit (predField (.vadd 0 1 2 1 3 0)) = 0 ∧ Issues (.vst 0 1 2 1 3 4) (having noLane) noLane unit ∧ hasMask (.vst 0 1 2 1 3 4) = true :=
  ⟨issues_of (by decide +kernel), fallsClear_of (by decide +kernel), rfl, by decide +kernel, issues_of (by decide +kernel), rfl⟩

/-- A group in trap mode, its handler unit at 0x4000 and its unit saved. -/
def handler : GUnit := { unit with uid := 5, pc := 0x4000, region := some 0xF }

def trapped : Group := { group with handler := some handler, nextUid := 6, trap := { group.trap with tmode := true, tcause := 3, tval := 77 } }

/-- The machine with the handler unit selected. -/
def inTrap : State := { world with groups := [trapped], sel := some (.unit 11 5) }

theorem apart_of {g : Group} (h : ∀ x ∈ g.units, ∀ y ∈ g.units, x.uid = y.uid → x = y) : Apart g := h

theorem apart : Apart group := apart_of (by decide +kernel)

/-- TrapTaking and TrapAndReturn. -/
theorem witness_TrapTaking :
    (world.group? group.id = some group ∧ group.trap.tmode = false ∧ unit ∈ group.units ∧ Apart group ∧ world.beginsStop group.pid 3 = false ∧
      world.atomics.any (fun x => decide (x.group = group.id)) = false ∧ inFlight.atomics.any (fun x => decide (x.group = group.id)) = true ∧ inFlight.group? group.id = some group) ∧
    (inTrap.group? trapped.id = some trapped ∧ trapped.trap.tmode = true ∧ trapped.handler = some handler ∧ inTrap.block? trapped.block = some block ∧
      inTrap.grid? block.grid = some grid ∧ inTrap.queue? grid.qid = some queue) :=
  ⟨⟨by decide +kernel, rfl, by decide +kernel, apart, by decide +kernel, rfl, by decide +kernel, by decide +kernel⟩, by decide +kernel, rfl, rfl, by decide +kernel, by decide +kernel, by decide +kernel⟩

theorem witness_TrapAndReturn :
    (Issues (.trap 0 16383) world group unit ∧ Issues (.brk 0) world group unit ∧ group.trap.tmode = false ∧ Apart group) ∧
    (Issues (.rte 0) inTrap trapped handler ∧ trapped.trap.tmode = true ∧ trapped.replay = [] ∧ Apart trapped ∧ trapped.segment ≠ .none ∧ unit ∈ trapped.units ∧
      trapped.units = [unit]) :=
  ⟨⟨tried_issues (by decide +kernel), tried_issues (by decide +kernel), rfl, apart⟩, issues_of (by decide +kernel), rfl, rfl, apart_of (by decide +kernel), by decide +kernel,
    by decide +kernel, rfl⟩

/-- ControlRegisters: each register that `csrw` writes, at level 1; a value that FMT may not hold; a binding of a reserved kind. -/
theorem witness_ControlRegisters :
    (∀ c ∈ [0x000, 0x001, 0x002, 0x005, 0x006, 0x007, 0x010, 0x01F, 0x100, 0x101, 0x102, 0x103, 0x104, 0x106, 0x108, 0x10B, 0x10C],
      Issues (.csrw 0 2 (BitVec.ofNat 12 c)) inTrap trapped handler ∧ Issues (.csrr 0 5 (BitVec.ofNat 12 c)) inTrap trapped handler) ∧
    fmtOk (trapped.s 2) = false ∧ fmtOk (trapped.s 0) = true ∧ inTrap.bindingOk trapped (trapped.s 2) = false ∧ MayFall trapped handler handler ∧
    FallsClear trapped handler ∧ trapped.units[trapped.trap.tunit]? = some unit ∧ inTrap.context? (inTrap.blockOf trapped).asid = some context := by
  refine ⟨fun c hc => ?_, by decide +kernel, by decide +kernel, by decide +kernel, ⟨⟨.inl (by decide +kernel), .inr (.inl rfl)⟩, .inl (.inr ⟨rfl, rfl⟩)⟩, ⟨.inl (by decide +kernel), .inr (.inl rfl)⟩,
    by decide +kernel, by decide +kernel⟩
  simp only [List.mem_cons, List.not_mem_nil, or_false] at hc
  rcases hc with rfl | rfl | rfl | rfl | rfl | rfl | rfl | rfl | rfl | rfl | rfl | rfl | rfl | rfl | rfl | rfl | rfl <;>
    exact ⟨issues_of (by decide +kernel), issues_of (by decide +kernel)⟩

/-! ### Memory -/

theorem reaches_of {s : State} {g : Group} {c : Access} {n : Nat} {va : Word} {pl : Place} (h : ((s.blockOf g).timed = true → va.toNat / 2 ^ 56 = 0xFF) ∧
    va.toNat % n = 0 ∧ s.placeAt g c n va = .hit pl ∧ s.transferAt g.id pl n = false) : Reaches s g c n va pl := ⟨h.1, h.2.1, h.2.2.1, h.2.2.2⟩

/-- The places that the small machine's addresses name: scratchpad, module HBM, an unordered page, host memory. -/
def padPlace : Place := .pad 10 0

def hbm : Place := .phys 0x10000 1 1 0x2000

def loose : Place := .phys 0x11000 2 1 0x3000

def host : Place := .phys (2 ^ 48 + 0x4000) 1 0 0x4000

/-- Lanes that all reach one place. -/
theorem lanes_reach {c : Access} {n : Nat} {p : Nat} {addr : Group → GUnit → Nat → Word} {pl : Place}
    (h : ∀ l ∈ lanesOf (activeMask group unit p), addr group unit l = group.s 2 ∧ pl = padPlace ∨ addr group unit l = group.s 3 ∧ pl = hbm)
    (h2 : Reaches world group c n (group.s 2) padPlace) (h3 : Reaches world group c n (group.s 3) hbm) :
    ∀ l ∈ lanesOf (activeMask group unit p), Reaches world group c n (addr group unit l) pl := by
  intro l hl
  rcases h l hl with ⟨ha, hp⟩ | ⟨ha, hp⟩ <;> rw [ha, hp]
  · exact h2
  · exact h3

/-- Loads: from scratchpad and from module HBM, of each width, an acquire, a destination `s0`, and lane loads of each form. -/
theorem witness_Loads :
    (∀ i ∈ ([.sld 0 5 2 0 0 1 0 0, .sld 0 5 3 0 3 0 0 0, .sld 0 0 3 0 3 0 1 3, .vld 0 0 2 3 2 0, .vld 0 0 2 3 3 5, .vldImm 0 0 2 2 0, .vldAcq 0 0 2 3 3 3, .vldu 0 0 2 2 4, .vldu 0 0 2 3 5,
      .vprf 0 0 3 3] : List Instr), Issues i world group unit ∧ FallsClear group unit ∧ MayFall group unit unit) ∧
    Reaches world group .read 1 (sumAddr group 2 0) padPlace ∧ Reaches world group .read 8 (sumAddr group 3 0) hbm ∧ Readable world group hbm ∧ Readable world group padPlace ∧
    (∀ l ∈ lanesOf (activeMask group unit 0), Reaches world group .read 1 (offsetAddr 3 2 group unit l) padPlace) ∧
    (∀ l ∈ lanesOf (activeMask group unit 0), Reaches world group .read 8 (offsetAddr 3 3 group unit l) hbm) ∧
    (∀ l ∈ lanesOf (activeMask group unit 0), Reaches world group .read 4 (wordAddr 2 0 group unit l) (.pad 10 (4 * l))) ∧
    activeMask group unit 0 ≠ 0 ∧ unit.unfinished = none := by
  refine ⟨all_tried (by decide +kernel), reaches_of (by decide +kernel), reaches_of (by decide +kernel), .inr (by decide +kernel), .inl rfl, ?_, ?_, ?_, by decide +kernel, rfl⟩
  · exact lanes_reach (by decide +kernel) (reaches_of (by decide +kernel)) (reaches_of (by decide +kernel))
  · exact lanes_reach (by decide +kernel) (reaches_of (by decide +kernel)) (reaches_of (by decide +kernel))
  · intro l hl
    have h : ∀ l ∈ lanesOf (activeMask group unit 0), ((world.blockOf group).timed = true → (wordAddr 2 0 group unit l).toNat / 2 ^ 56 = 0xFF) ∧
      (wordAddr 2 0 group unit l).toNat % 4 = 0 ∧ world.placeAt group .read 4 (wordAddr 2 0 group unit l) = .hit (.pad 10 (4 * l)) ∧
      world.transferAt group.id (.pad 10 (4 * l)) 4 = false := by decide +kernel
    exact reaches_of (h l hl)

/-- Loads: a completion of a scalar, of a pair, and of an atomic's reply. -/
theorem witness_WriteCompletions : ∀ w ∈ ([{ id := 90, group := 11, vreg := none, sreg := 5, lanes := [(0, 1)], reply := true },
      { id := 91, group := 11, vreg := some (2, true), sreg := 0, lanes := [(0, 1), (3, 4)], reply := false }] : List PendingWrite),
    ({ world with writes := [{ id := 90, group := 11, vreg := none, sreg := 5, lanes := [(0, 1)], reply := true },
      { id := 91, group := 11, vreg := some (2, true), sreg := 0, lanes := [(0, 1), (3, 4)], reply := false }] } : State).writes.find? (fun x => decide (x.id = w.id)) = some w ∧
    w.group = group.id ∧ (∀ x ∈ w.lanes, x.1 < 32) ∧ w.lanes.Pairwise (fun x y => x.1 ≠ y.1) := by decide +kernel

/-- Stores: into scratchpad and module HBM, a release, and lane stores of each form. -/
theorem witness_Stores :
    (∀ i ∈ ([.sst 0 1 2 0 0 0 0, .sst 0 1 3 0 3 2 3, .vst 0 0 2 3 2 0, .vst 0 0 2 3 3 5, .vstImm 0 0 2 2 0, .vstRel 0 0 2 3 3 3] : List Instr),
      Issues i world group unit ∧ FallsClear group unit ∧ MayFall group unit unit) ∧
    Reaches world group .write 1 (sumAddr group 2 0) padPlace ∧ Reaches world group .write 8 (sumAddr group 3 0) hbm ∧
    (∀ l ∈ lanesOf (activeMask group unit 0), Reaches world group .write 1 (offsetAddr 3 2 group unit l) padPlace) ∧
    (∀ l ∈ lanesOf (activeMask group unit 0), Reaches world group .write 8 (offsetAddr 3 3 group unit l) hbm) ∧
    world.storeHolds group (some 3) [(0, sumAddr group 3 0, hbm)] = false ∧
    world.storeHolds group none ((lanesOf (activeMask group unit 0)).map fun l => (l, offsetAddr 3 3 group unit l, hbm)) = false ∧ (∀ x ∈ world.tileOps, x.group ≠ group.id) ∧ NoneLost world group :=
  ⟨all_tried (by decide +kernel), reaches_of (by decide +kernel), reaches_of (by decide +kernel),
    lanes_reach (by decide +kernel) (reaches_of (by decide +kernel)) (reaches_of (by decide +kernel)),
    lanes_reach (by decide +kernel) (reaches_of (by decide +kernel)) (reaches_of (by decide +kernel)), by decide +kernel, by decide +kernel, by decide, rfl⟩

/-- Stores: the three kinds of places: scratchpad, a cached place at the last bytes of its sector, and host memory, which nothing caches. -/
theorem witness_StoredBytes : world.block? block.id = some block ∧ (world.accessor group).unconfirmed = false ∧ 0x10018 % 32 + 8 ≤ 32 ∧
    cacheable (placeRef 0x10018 1 1 0x2018) = true ∧ cacheable (placeRef (2 ^ 48 + 0x4000) 1 0 0x4000) = false ∧ world.portDown ((2 ^ 48 + 0x4000) / 32 * 32) = false ∧
    isHbm (2 ^ 48 + 0x4000) = false ∧ cacheable (placeRef 0x10000 0 1 0x2000) = false ∧ isHbm 0x10000 = true ∧ world.epoch 1 ≠ 0 ∧
    world.noWay (world.accessor group) (placeRef 0x10018 1 1 0x2018) = false := by decide +kernel

/-- AccessFaults: in a timed block outside the windows; misaligned; no storage; a reserved page; a page that is not translated. -/
theorem witness_AccessFaults :
    (∀ i ∈ ([.sld 0 5 10 0 3 0 0 0, .sst 0 5 10 0 1 0 0, .atomAdd 0 5 10 1 0 0 0, .sld 0 5 9 0 0 0 0 0, .sst 0 1 11 0 3 0 0, .atomCas 0 5 11 1 1 0 0, .atomMin 0 5 11 1 1 0 0 0, .sld 0 5 8 0 3 0 0 0,
      .sst 0 5 8 0 0 0 0] : List Instr), Issues i world group unit) ∧
    (Issues (.sld 0 5 3 0 3 0 0 0) timed group unit ∧ (timed.blockOf group).timed = true ∧ (sumAddr group 3 0).toNat / 2 ^ 56 ≠ 0xFF) ∧
    (world.blockOf group).timed = false ∧ (sumAddr group 10 0).toNat % 8 ≠ 0 ∧ (sumAddr group 10 0).toNat % 2 ≠ 0 ∧ (group.s 10).toNat % 4 ≠ 0 ∧
    world.locate (world.blockOf group) (sumAddr group 9 0) 1 = .nowhere ∧ world.placeAt group .write 8 (sumAddr group 11 0) = .badKind ∧
    world.placeAt group .atomic 8 (group.s 11) = .badKind ∧ world.placeAt group .read 8 (sumAddr group 8 0) = .miss ∧
    world.locate (world.blockOf group) (sumAddr group 8 0) 8 ≠ .nowhere ∧
    world.walkerFull (world.blockOf group).asid ((sumAddr group 8 0).toNat / 4096) (dieOfCore group.core) = false := by
  refine ⟨fun i hi => tried_issues (List.all_eq_true.mp (by decide +kernel) i hi), ⟨issues_of (by decide +kernel), by decide +kernel, by decide +kernel⟩, by decide +kernel, by decide +kernel,
    by decide +kernel, by decide +kernel, by decide +kernel, by decide +kernel, by decide +kernel, by decide +kernel, by decide +kernel, by decide +kernel⟩

/-- Atomics: in scratchpad and in module HBM, each operation, with acquire, release and neither. -/
theorem witness_Atomics :
    (∀ i ∈ ([.atomAdd 0 5 2 1 0 0 0, .atomAnd 0 5 3 1 1 1 3, .atomOr 0 5 3 1 1 2 4, .atomXor 0 0 3 1 0 0 0, .atomMin 0 5 3 1 0 1 0 0, .atomMin 0 5 3 1 1 0 0 0, .atomMax 0 5 3 1 0 0 0 0,
      .atomXchg 0 5 3 1 1 0 0, .atomCas 0 5 3 30 1 0 0] : List Instr), Issues i world group unit ∧ FallsClear group unit ∧ MayFall group unit unit) ∧
    Reaches world group .atomic 4 (group.s 2) padPlace ∧ Reaches world group .atomic 8 (group.s 3) hbm ∧ placeOrd hbm ≠ 2 ∧ placeOrd padPlace ≠ 2 ∧ (world.blockOf group).confirmed = true ∧
    atHost hbm = false ∧ atDevice hbm = false ∧ NoneLost world group ∧ world.placePoison hbm = none ∧ (∀ x ∈ world.tileOps, x.group ≠ group.id) :=
  ⟨all_tried (by decide +kernel), reaches_of (by decide +kernel), reaches_of (by decide +kernel), by decide, by decide, by decide +kernel, by decide +kernel, by decide +kernel, rfl, by decide +kernel, by decide⟩

/-- An AtomicOp, and the machine with it in flight. -/
def flight : HostAtomic := { id := 90, group := 11, unit := 0, lanes := 0xF, op := 2, wide := true, place := host, operand := 0, swap := 4, sreg := 5, acq := none }

def flying : State := { world with atomics := [flight], sel := none }

/-- Atomics outside the module: on an unordered page, as AtomicOps, and both completions. -/
theorem witness_OutsideAtomics :
    (Issues (.atomAnd 0 5 6 1 1 0 0) world group unit ∧ Reaches world group .atomic 8 (group.s 6) loose ∧ placeOrd loose = 2) ∧
    (Issues (.atomAdd 0 5 7 1 0 0 0) world group unit ∧ Issues (.atomXchg 0 5 7 1 0 1 0) world group unit ∧ Issues (.atomCas 0 5 7 1 0 2 4) world group unit ∧
      Issues (.atomOr 0 5 7 1 0 0 0) world group unit ∧ Issues (.evinc 0 7 1 4) world group unit ∧ va8 world group .atomic false (group.s 7) host ∧
      Reaches world group .atomic 4 (group.s 7) host ∧ placeOrd host ≠ 2 ∧ atHost host = true ∧ (world.blockOf group).confirmed = true ∧ (∀ x ∈ world.tileOps, x.group ≠ group.id) ∧
      NoneLost world group ∧ MayFall group unit unit) ∧
    (flying.atomics.find? (fun x => decide (x.id = flight.id)) = some flight ∧ flying.group? 11 = some group ∧ flight.group = group.id ∧ group.draining = none ∧ group.trap.tmode = false ∧
      unit ∈ group.units ∧ unit.uid = flight.unit ∧ Apart group ∧ flight.acq = none ∧ flight.place = .phys (2 ^ 48 + 0x4000) 1 0 0x4000 ∧
      ∀ x ∈ flying.atomics, x.id ≠ flight.id → x.group ≠ group.id) :=
  ⟨⟨tried_issues (by decide +kernel), reaches_of (by decide +kernel), rfl⟩,
    ⟨tried_issues (by decide +kernel), tried_issues (by decide +kernel), tried_issues (by decide +kernel), tried_issues (by decide +kernel), tried_issues (by decide +kernel),
      ⟨by decide +kernel, by decide +kernel, by decide +kernel, by decide +kernel⟩, reaches_of (by decide +kernel), by decide, by decide +kernel, by decide +kernel, by decide, rfl, mayFall⟩,
    by decide +kernel, by decide +kernel, rfl, rfl, rfl, by decide +kernel, rfl, apart, rfl, rfl, by decide +kernel⟩

/-- A sector that the group's cache alone holds dirty, and the machine with it. -/
def dirtySector : Sector :=
  { core := 0, asid := 77, tid := 0, line := (linearLine 0x2000).no, row := 0, vsec := 0x100, pa := 0x10000, ord := 1, key := 1,
    data := 0x1234, dirty := 3, marked := none, stale := false, moves := [], touch := [], fenced := false }

def dirtied : State := { world with cache := [dirtySector] }

/-- FencesAndWriteBack: each fence, in a bulk and in a timed block, and a dirty sector. -/
theorem witness_FencesAndWriteBack :
    (∀ i ∈ ([.fence 0 0, .fence 0 4, .fenceAcq 0 3, .fenceRel 0 2, .fenceFlush 0] : List Instr), Issues i world group unit ∧ FallsClear group unit ∧ MayFall group unit unit) ∧
    (Issues (.fenceFlush 0) timed group unit ∧ (timed.blockOf group).timed = true) ∧ SoleDirty dirtied (dirtied.accessor group) dirtySector ∧ (dirtied.accessor group).fused = false ∧
    (dirtied.cache.find? fun y => decide (y.core = dirtySector.core) && decide (y.asid = dirtySector.asid) && decide (y.tid = dirtySector.tid) && decide (y.vsec = dirtySector.vsec) &&
      decide (y.dirty ≠ 0) && decide (y.marked = none)) = some dirtySector ∧ (dirtied.separateViews (dirtied.accessor group)).cache = [] ∧ dirtySector.ord ≠ 2 ∧
    NoneLost world group ∧ NoneLost dirtied group := by
  refine ⟨all_tried (by decide +kernel), ⟨issues_of (by decide +kernel), by decide +kernel⟩, ⟨by decide +kernel, ?_, by decide +kernel, by decide +kernel⟩, by decide +kernel, by decide +kernel, by decide +kernel, by decide, rfl, rfl⟩
  intro y hy hne
  simp only [dirtied, List.mem_cons, List.not_mem_nil, or_false] at hy
  exact absurd hy hne

theorem va8_of {s : State} {g : Group} {c : Access} {b : Bool} {va : Word} {pl : Place} (h : (b = true → (s.blockOf g).timed = true → va.toNat / 2 ^ 56 = 0xFF) ∧ va.toNat % 8 = 0 ∧
    s.placeAt g c 8 va = .hit pl ∧ s.transferAt g.id pl 8 = false) : va8 s g c b va pl := ⟨h.1, h.2.1, h.2.2.1, h.2.2.2⟩

/-- WaitsAndWakeUps: scratchpad's first word is 7, `s1` is 3 and `s0` 0; the word of module HBM is 0. -/
theorem witness_CountersAndWaits :
    (∀ i ∈ ([.evinc 0 3 1 3, .waita 0 5 2 1, .waita 0 5 3 0, .suspend 0 1 0x2 4, .suspend 0 1 2 4, .wakea 0 3] : List Instr), Issues i world group unit ∧ FallsClear group unit ∧ MayFall group unit unit) ∧
    va8 world group .atomic false (group.s 3) hbm ∧ va8 world group .read true (group.s 2) padPlace ∧ va8 world group .read true (group.s 3) hbm ∧
    BitVec.ofNat 64 (world.homeValue padPlace 8) ≠ group.s 1 ∧ BitVec.ofNat 64 ({ world with keySlots := [(1, 5)], sectorKeys := [] }.homeValue hbm 8) = group.s 0 ∧
    (world.core group.core).watches.length < Config.watchEntries ∧ (group.id, unit.uid) ∉ (world.core group.core).watchQueue ∧ (world.core group.core).watchQueue = [] ∧
    va8 world group .read false (group.s 2) padPlace ∧ world.homeValue padPlace 8 < (group.s 3).toNat ∧ MayGo group unit { unit with pc := offsetFrom unit 4 } ∧
    world.placeAt group .read 1 (group.s 3) = .hit hbm ∧ world.transferAt group.id hbm 1 = false :=
  ⟨all_tried (by decide +kernel), va8_of (by decide +kernel), va8_of (by decide +kernel), va8_of (by decide +kernel), by decide +kernel, by decide +kernel, by decide, by decide +kernel, by decide +kernel,
    va8_of (by decide +kernel), by decide +kernel, mayGo_of (by decide +kernel), by decide +kernel, by decide +kernel⟩

/-- The first word of scratchpad reaches a target of 3, which `s1` holds beside the window in another group's `s0`-pair: here `s2` with `s3` above it stays below. -/
def reached : Group := { group with sregs := group.sregs.setIfInBounds 3 7 }

theorem witness_suspend_reached : Issues (.suspend 0 1 2 4) (having reached) reached unit ∧ (reached.s (2 + 1)).toNat ≤ (having reached).homeValue padPlace 8 ∧
    va8 (having reached) reached .read false (reached.s 2) padPlace := ⟨issues_of (by decide +kernel), by decide +kernel, va8_of (by decide +kernel)⟩

/-- A sleeping unit with its watch entry, one that waits for a translation, and one that waits for a watch entry. -/
def sleeper : GUnit := { unit with wait := .suspended 77 }

def asleep : State := { (having (only sleeper)).setCore { coreReset 0 with watches := [{ sector := 77, group := 11, unit := 0 }] } with sel := none }

def asker : GUnit := { unit with wait := .watchEntry 11 }

theorem witness_WakeUps : Sleeps asleep (only sleeper) sleeper 77 ∧
    (let s := { (having (only asker)).setCore { coreReset 0 with watchQueue := [(11, 0)] } with sel := none }
     (s.core 0).watchQueue = (11, 0) :: [] ∧ (s.core 0).watches.length < Config.watchEntries ∧ s.group? 11 = some (only asker) ∧ (only asker).unit? 0 = some asker) :=
  ⟨⟨by decide +kernel, ⟨by decide +kernel, by decide +kernel, .inl rfl⟩, by decide +kernel, by decide +kernel, by decide +kernel⟩, by decide +kernel, by decide, by decide +kernel, by decide +kernel⟩

/-! ### Tiles, scratchpad and queues -/

/-- The group with some scalars at other values. -/
def setting (rs : List (Nat × Word)) : Group := { group with sregs := rs.foldl (fun v r => v.setIfInBounds r.1 r.2) group.sregs }

/-- Tile operands: rows at the window in `s2`, the tile's pair in `s20` and `s21`. -/
def tiled (lo hi : Word) : Group := setting [(20, lo), (21, hi)]

/-- The references of the eight sectors of the linear tile at 0x2000. -/
def tileRefs : List (Option SectorRef) :=
  (List.range 8).map fun k => some { line := linearLine 0x2000, row := k, vsec := 0x100 + k, pa := 0x10000 + 32 * k, ord := 1, key := 1 }

theorem namesTile_of {s : State} {g : Group} {a b : BitVec 5} {t : Tile} (h : (s.blockOf g).timed = false ∧
    ((g.s a.toNat).toNat % 32 = 0 ∧ ((g.s (b.toNat + 1)).toNat / 2 ^ 52 = 0 → (g.s b.toNat).toNat % 256 = 0)) ∧ (g.s (b.toNat + 1)).getLsbD 48 = false ∧
    True) (hn : s.nameTile (s.blockOf g).asid (g.s (b.toNat + 1)) (g.s b.toNat) = .inl t) : NamesTile s g a b t := ⟨h.1, h.2.1, h.2.2.1, hn⟩

/-- The linear tile at 0x2000. -/
def tile : Tile := { id := 0, lines := [linearLine 0x2000], desc := none }

theorem rows_reach (load : Bool) (h : (tileRows tile).map (fun r => (having (tiled 0x2000 0)).rowPlace 77 false (if load then .read else .write) r.1 r.2.1 r.2.2) =
    tileRefs.map fun r => match r with
      | some r => .hit r
      | none => .absent) : RowsReach (having (tiled 0x2000 0)) (tiled 0x2000 0) 2 tile load 10 0 tileRefs :=
  ⟨by decide +kernel, h, by decide, by decide +kernel, by decide +kernel⟩

/-- TilesAndScratchpad: transfers of a linear tile and pairs that name none; the class fault, a misaligned row address; maintenance; descriptors. -/
theorem witness_TileWords :
    (∀ i ∈ ([.tld 0 5 2 20 0 0, .tst 0 5 2 20 3 2, .tcln 0 5 20 3, .tinv 0 5 20 4] : List Instr), Issues i (having (tiled 0x2000 0)) (tiled 0x2000 0) unit) ∧
    NamesTile (having (tiled 0x2000 0)) (tiled 0x2000 0) 2 20 tile ∧ RowsReach (having (tiled 0x2000 0)) (tiled 0x2000 0) 2 tile true 10 0 tileRefs ∧
    RowsReach (having (tiled 0x2000 0)) (tiled 0x2000 0) 2 tile false 10 0 tileRefs ∧
    (∀ hi ∈ [2 ^ 48, 2 ^ 49, 7 * 2 ^ 49, 1, 2 ^ 52, 4095 * 2 ^ 52], Issues (.tld 0 5 2 20 0 0) (having (tiled 0x2000 (BitVec.ofNat 64 hi))) (tiled 0x2000 (BitVec.ofNat 64 hi)) unit) ∧
    (Issues (.tst 0 5 3 20 0 0) timed group unit ∧ (timed.blockOf group).timed = true ∧ Issues (.tcln 0 5 20 2) timed group unit) ∧
    (Issues (.tld 0 5 10 20 0 0) world group unit ∧ (group.s 10).toNat % 32 ≠ 0) ∧ world.descriptor (world.blockOf group).asid 4095 = none ∧
    world.nameTile 77 (1#64 <<< 52) 0 = .inr 1 ∧ MayFall (tiled 0x2000 0) unit unit ∧
    NoneLost (having (tiled 0x2000 0)) (tiled 0x2000 0) := by
  refine ⟨fun i hi => ?_, namesTile_of (by decide +kernel) rfl, rows_reach true (by decide +kernel), rows_reach false (by decide +kernel), fun hi h => ?_,
    ⟨issues_of (by decide +kernel), by decide +kernel, issues_of (by decide +kernel)⟩, ⟨tried_issues (by decide +kernel), by decide +kernel⟩, by decide +kernel, rfl, mayFall_of (by decide +kernel), rfl⟩
  · simp only [List.mem_cons, List.not_mem_nil, or_false] at hi
    rcases hi with rfl | rfl | rfl | rfl <;> exact issues_of (by decide +kernel)
  · simp only [List.mem_cons, List.not_mem_nil, or_false] at h
    rcases h with rfl | rfl | rfl | rfl | rfl | rfl <;> exact issues_of (by decide +kernel)

/-- `tdesc` of entry numbers at the ends of their ranges; its image in scratchpad is zero from byte 65 on, so VALID is 0. -/
theorem witness_tdesc : ∀ e ∈ [0, 1, 4095, 4096],
    Issues (.tdesc 0 5 20 21) (having (setting [(20, BitVec.ofNat 64 e), (21, 0xFF00000000000000)])) (setting [(20, BitVec.ofNat 64 e), (21, 0xFF00000000000000)]) unit := by
  intro e he
  simp only [List.mem_cons, List.not_mem_nil, or_false] at he
  rcases he with rfl | rfl | rfl | rfl <;> exact issues_of (by decide +kernel)

theorem witness_tdesc_image :
    world.placeAt group .read 64 (group.s 2) = .hit (.pad 10 0) ∧ world.transferAt group.id (.pad 10 0) 64 = false ∧ world.padPoison 10 = none ∧ world.block? 10 = some block ∧
    (BitVec.ofNat 512 (bytesValue (padBytes block 0 64))).getLsbD 63 = false ∧ descOk (BitVec.ofNat 512 (2 ^ 63)) = false := by decide +kernel

/-- The machine with a tile operation in flight. -/
def working (job : TileJob) : State := { world with tileOps := [{ id := 90, group := 11, sreg := 5, job := job }] }

/-- TilesAndScratchpad: the completion of each kind of operation; a transfer with an absent row. -/
theorem witness_TileCompletions : ∀ job ∈ ([.transfer true none 10 0 (none :: tileRefs), .transfer false none 10 0 tileRefs, .maintain true 3 0 none,
      .maintain false 3 0 (some [linearLine 0x2000]), .describe 1 0] : List TileJob),
    (working job).tileOps.find? (fun x => decide (x.id = 90)) = some { id := 90, group := 11, sreg := 5, job := job } ∧
    (working job).tileFree { id := 90, group := 11, sreg := 5, job := job } = true ∧ (working job).group? 11 = some group ∧ ((working job).blockOf group).confirmed = true := by decide +kernel

theorem witness_TileCompletions_rows : world.block? 10 = some block ∧ (tileRefs.all fun r => match r with
      | some r => cacheable r && decide (world.poisoned r.pa = none) && !world.noWay (world.accessor group) r
      | none => true) = true ∧ world.context? (world.blockOf group).asid = some context ∧
    ((List.range 8).all fun j => (List.range 8).all fun k => decide (j = k) || decide (((tileRefs[j]?).bind id).map (·.vsec) ≠ ((tileRefs[k]?).bind id).map (·.vsec))) = true := by decide +kernel

/-- A block without a carve-out, two lines of it pinned, and the machine with it. -/
def pinning : State := { world with blocks := [{ block with carve := 0, pad := [], pinned := [2, 3] }] }

/-- TilesAndScratchpad: ranges that are good, overlap, do not lie on lines, and reach the end of the address range; the next pinned run. -/
theorem witness_PinnedScratchpad :
    (∀ x ∈ [((0 : Nat), (1 : Nat)), (512, 1), (128, 1), (0, 0), (0, 257), (2 ^ 24 - 256, 1), (2 ^ 24 - 256, 2)], ∀ i ∈ ([.spalloc 0 5 20 21, .spfree 0 20 21, .spnext 0 5 20] : List Instr),
      tried i = true ∧ gate (setting [(20, BitVec.ofNat 64 x.1), (21, BitVec.ofNat 64 x.2)]) unit i = none) ∧
    Issues (.spalloc 0 5 4 1) pinning group unit ∧ Issues (.spfree 0 4 1) pinning group unit ∧ Issues (.spnext 0 5 4) pinning group unit ∧ MayFall group unit unit ∧
    pinFits pinning.pinnedSets ([0].map fun l => pinSet (pinning.cluster (clusterOfCore group.core)).fused group.core (cacheSets (pinning.core group.core).split) l) = true ∧
    (pinning.blockOf group).carve = 0 ∧ (∀ l ∈ [0], l ∉ (pinning.blockOf group).pinned) ∧ pinning.transferAt group.id (.pad group.block 0) 256 = false :=
  ⟨by decide +kernel, issues_of (by decide +kernel), issues_of (by decide +kernel), issues_of (by decide +kernel), mayFall, by decide +kernel, by decide +kernel, by decide +kernel, by decide +kernel⟩

/-- A group whose queue register 2 holds a binding. -/
def bound (v : Word) : Group := { group with qb := group.qb.setIfInBounds 2 v }

/-- The machine with a continuation in the pool of the group's cluster and 20 bytes in stream queue 0. -/
def fed (g : Group) : State :=
  { (having g).setCluster { clusterReset 0 with partition := some 3, pool := [(1, .cont [1, 2, 3]), (4, .cont [9])] } with
    cores := [{ coreReset 0 with streams := [{ sq := 0, bytes := (List.range 20).map fun n => (90, BitVec.ofNat 8 n) }] }] }

/-- QueueWords: bindings of each kind, a pool with continuations and an empty one, a stream with enough bytes and without. -/
theorem witness_QueueWords :
    (∀ k ∈ [0, 1, 2, 3, 4], (having (bound (BitVec.ofNat 64 (k * 2 ^ 60)))).bindingOk (bound (BitVec.ofNat 64 (k * 2 ^ 60))) (BitVec.ofNat 64 (k * 2 ^ 60)) = true ∧
      ∀ i ∈ ([.qbind 0 2 5, .qpush 0 2 20 7, .qtryPush 0 2 20 0 1, .qpop 0 2 24 7, .qtryPop 0 2 20 0 7, .qstat 0 2 5, .twait 0 5, .vqpop 0 0 2 2] : List Instr),
        gate (bound (BitVec.ofNat 64 (k * 2 ^ 60))) unit i = none ∧ (fed (bound (BitVec.ofNat 64 (k * 2 ^ 60)))).stallOf (bound (BitVec.ofNat 64 (k * 2 ^ 60))) unit i = none ∧
        tokenFault (bound (BitVec.ofNat 64 (k * 2 ^ 60))) unit i = none) ∧
    (∀ k ∈ [5, 15], world.bindingOk group (BitVec.ofNat 64 (k * 2 ^ 60)) = false) ∧
    (fed (bound (3 <<< 60))).nextCont 0 = some (4, [9]) ∧ (having (bound (3 <<< 60))).nextCont 0 = none ∧ (fed (bound (3 <<< 60))).poolCount 0 0 < Config.poolEntries ∧
    4 * group.width ≤ ((fed (bound (4 <<< 60))).streamBytes 0 0).length ∧ ((having (bound (4 <<< 60))).streamBytes 0 0).length < 4 * group.width ∧ activeMask group unit 0 ≠ 0 := by
  decide +kernel

theorem witness_QueueWords_push :
    (Issues (.qpush 0 2 20 7) (having (bound (3 <<< 60))) (bound (3 <<< 60)) unit ∧ ((having (bound (3 <<< 60))).blockOf (bound (3 <<< 60))).confirmed = true ∧ MayFall (bound (3 <<< 60)) unit unit) ∧
    Issues (.qpop 0 2 20 7) (fed (bound (3 <<< 60))) (bound (3 <<< 60)) unit ∧ Issues (.vqpop 0 0 2 2) (fed (bound (4 <<< 60))) (bound (4 <<< 60)) unit ∧ FallsClear (bound (4 <<< 60)) unit :=
  ⟨⟨issues_of (by decide +kernel), by decide +kernel, mayFall_of (by decide +kernel)⟩, issues_of (by decide +kernel), issues_of (by decide +kernel), fallsClear_of (by decide +kernel)⟩

/-- A group that pushes a zero command of 32 bytes at its scratchpad to a channel that the launch gives. -/
def pusher : Group :=
  { bound (1 <<< 60) with sregs := [(20, (5 <<< 60) + (5 <<< 49) + 32), (22, 0xFF00000000000000)].foldl (fun (v : Vector Word 32) r => v.setIfInBounds r.1 r.2) group.sregs }

theorem witness_QueueWords_channel : ∃ s' g', ((having pusher).traceWord pusher unit (.qpush 0 2 20 7)).1.pushTo ((having pusher).traceWord pusher unit (.qpush 0 2 20 7)).2 2 (1 <<< 60)
    (entryOf pusher 20 7) false = some (.ok s' g') ∧ g'.id = 11 := by
  have h : (match ((having pusher).traceWord pusher unit (.qpush 0 2 20 7)).1.pushTo ((having pusher).traceWord pusher unit (.qpush 0 2 20 7)).2 2 (1 <<< 60) (entryOf pusher 20 7) false with
    | some (.ok _ g') => decide (g'.id = 11)
    | _ => false) = true := by decide +kernel
  split at h
  · next s' g' he => exact ⟨s', g', he, of_decide_eq_true h⟩
  · cases h

/-! ### Register pool, ends of units, accumulators -/

/-- The group with two operands in `s20` and `s21`. -/
def operands (x y : Word) : Group := setting [(20, x), (21, y)]

/-- RegisterPool: claims of nothing, of one chunk and of more than a group holds or the pool has; chunks given back, and more than are held; the ends of the window. -/
theorem witness_RegisterPool :
    (∀ n ∈ [0, 8, 192, 200, 4, 64, 72, 248, 256], ∀ i ∈ ([.claim 0 5 20, .giveback 0 20, .vwin 0 20] : List Instr),
      gate (operands (BitVec.ofNat 64 n) 0) unit i = none ∧ (having (operands (BitVec.ofNat 64 n) 0)).stallOf (operands (BitVec.ofNat 64 n) 0) unit i = none ∧
      tokenFault (operands (BitVec.ofNat 64 n) 0) unit i = none) ∧
    Issues (.claim 0 5 20) (having (operands 8 0)) (operands 8 0) unit ∧ Issues (.giveback 0 20) (having (operands 8 0)) (operands 8 0) unit ∧ Issues (.vwin 0 20) (having (operands 248 0)) (operands 248 0) unit ∧
    (block.poolOf (operands 8 0) = 16 ∧ block.poolOf { group with gang := 1 } = 0) ∧
    MayFall (operands 8 0) unit unit ∧ (having (operands 8 0)).streamUnread (operands 8 0) = false ∧ (having (operands 8 0)).writesAbove (operands 8 0) 1 = false :=
  ⟨by decide +kernel, issues_of (by decide +kernel), issues_of (by decide +kernel), issues_of (by decide +kernel), by decide +kernel, mayFall_of (by decide +kernel), by decide +kernel, by decide +kernel⟩

/-- `role` of the preset that the launch has, of one that it has not, and in trap mode. -/
theorem witness_role :
    Issues (.role 0 0) world group unit ∧ Whole group unit ∧ Drained world group ∧
    world.roleOf group 0 = some ({ entry := 0, valloc := 8, vwin := 0, valid := true }, 0x1000) ∧ (∃ x, world.block? group.block = some x ∧ world.blockOf group = x) ∧
    group.segment = .upTo 0x0F00 0x1200 ∧ world.writesAbove group (group.chunks - 1) = false ∧
    Issues (.role 0 1) world group unit ∧ world.roleOf group 3 = none ∧ group.s 1 = 3 ∧ Issues (.role 0 1) inTrap trapped handler :=
  ⟨tried_issues (by decide +kernel), ⟨rfl, rfl, rfl, rfl⟩, ⟨by decide +kernel, by decide +kernel⟩, by decide +kernel, ⟨block, by decide +kernel, by decide +kernel⟩, rfl, by decide +kernel,
    tried_issues (by decide +kernel), by decide +kernel, by decide +kernel, issues_of (by decide +kernel)⟩

/-- `spawn` of two groups at entry 0, of none, of 33, and at an entry that the kernel has not. -/
theorem witness_spawn :
    (∀ x ∈ [((0 : Nat), (2 : Nat)), (0, 0), (0, 32), (0, 33), (1, 1)],
      gate (operands (BitVec.ofNat 64 x.1) (BitVec.ofNat 64 x.2)) unit (.spawn 0 5 20 21) = none ∧ (having (operands (BitVec.ofNat 64 x.1) (BitVec.ofNat 64 x.2))).stallOf (operands (BitVec.ofNat 64 x.1) (BitVec.ofNat 64 x.2)) unit (.spawn 0 5 20 21) = none) ∧
    Issues (.spawn 0 5 20 21) (having (operands 0 2)) (operands 0 2) unit ∧ MayFall (operands 0 2) unit unit ∧
    ((having (operands 0 2)).context? 77).bind (fun x => (kernelAt x unit.pc).bind fun k => (k.entries[0]?).bind id) = some 0x1040 ∧
    ((spawnSeats 2 ((having (operands 0 2)).slotsOf 0) ((having (operands 0 2)).blockOf (operands 0 2)).regPool 1 8).map (·.1.length)) = some 2 ∧
    (spawnSeats 3 ((having (operands 0 3)).slotsOf 0) ((having (operands 0 3)).blockOf (operands 0 3)).regPool 1 8) = none ∧ (having (operands 0 2)).block? 10 = some ((having (operands 0 2)).blockOf (operands 0 2)) ∧
    (∀ x ∈ (having (operands 0 2)).groups, x.id < (having (operands 0 2)).ids) ∧ 2 ≤ ((having (operands 0 2)).newIndices ((having (operands 0 2)).blockOf (operands 0 2)) 2).length :=
  ⟨by decide +kernel, issues_of (by decide +kernel), mayFall_of (by decide +kernel), by decide +kernel, by decide +kernel, by decide +kernel, by decide +kernel, by decide +kernel, by decide +kernel⟩

/-- A group divided in two, its first unit with two of the four lanes. -/
def half : GUnit := { unit with mask := 0x3 }

def other : GUnit := { unit with uid := 1, mask := 0xC, pc := 0x1100 }

def divided : Group := { group with units := [half, other], nextUid := 2 }

/-- A unit that waits for others at the entry that its lane branch made, and its group. -/
def arriving : GUnit := { half with entry := some 3 }

def joining (depth : Nat) : Group := { divided with units := [arriving, { other with entry := some 3 }], recon := [(3, { fmts := 0, join := 0xF, arr := 0, bpc := 0, depth := depth, parent := none })] }

/-- A group at the last word of its segment. -/
def last : Group := { group with segment := .upTo 0x0F00 0x1000 }

/-- GroupEnds: `exit` of one unit of two and of the last unit of a group that is not its block's last; `rcv` at the entry's depth and deeper. -/
theorem witness_GroupEnds :
    (Issues (.exit 0) (having divided) divided half ∧ divided.trap.tmode = false ∧ half.region = none ∧ divided.recon = [] ∧ half ∈ divided.units ∧ divided.live &&& ~~~half.mask ≠ 0 ∧
      (∀ x ∈ divided.units, x.uid ≠ half.uid → x.wait = .ready ∧ atEnd divided x = false)) ∧
    (Issues (.exit 0) { world with groups := [group, { group with id := 12, index := 1 }] } group unit ∧ group.live &&& ~~~unit.mask = 0 ∧ block.onCore = true) ∧
    (Issues (.rcv 0) (having (joining 0)) (joining 0) arriving ∧ arriving.region = none ∧ arriving.entry = some 3 ∧ (joining 0).recon? 3 = some { fmts := 0, join := 0xF, arr := 0, bpc := 0, depth := 0, parent := none } ∧
      arriving.depth = 0 ∧ arriving ∈ (joining 0).units ∧ Apart (joining 0) ∧ (0xF : Mask) ≠ 0 ||| arriving.mask ∧ (∃ x ∈ (joining 0).units, x.uid ≠ arriving.uid ∧ x.wait = .ready ∧ atEnd (joining 0) x = false)) ∧
    (Issues (.rcv 0) (having (joining 1)) (joining 1) arriving ∧ MayFall (joining 1) arriving arriving) ∧
    (Issues (.regroup 0 5 0) world group unit ∧ Whole group unit ∧ (group.s 0).getLsbD group.index = false ∧
      Issues (.regroup 0 5 20) (having (operands 1 0)) (operands 1 0) unit ∧ Whole (operands 1 0) unit ∧ Drained (having (operands 1 0)) (operands 1 0) ∧
      ((operands 1 0).s 20).getLsbD (operands 1 0).index = true ∧ ((operands 1 0).s 20).setWidth 32 &&& ~~~((having (operands 1 0)).blockOf (operands 1 0)).held = 0 ∧
      Issues (.regroup 0 5 0) (having divided) divided half ∧ 1 < divided.units.length) ∧
    (Issues (.up 0 5 5 2 1) (having last) last unit ∧ Whole last unit ∧ atLast last unit unit.pc = true ∧ (backEdge unit).pc = unit.pc + 4 ∧ Issues (.suspend 0 2 5 4) (having last) last unit ∧
      ((having last).blockOf last).confirmed = true ∧ Drained (having last) last ∧ Issues (.suspend 0 2 5 4) world group unit ∧ atLast group unit unit.pc = false) :=
  ⟨⟨issues_of (by decide +kernel), rfl, rfl, rfl, by decide +kernel, by decide +kernel, by decide +kernel⟩, ⟨issues_of (by decide +kernel), by decide +kernel, rfl⟩,
    ⟨issues_of (by decide +kernel), rfl, rfl, by decide +kernel, by decide +kernel, by decide +kernel, apart_of (by decide +kernel), by decide, by decide +kernel⟩, ⟨issues_of (by decide +kernel), mayFall_of (by decide +kernel)⟩,
    ⟨tried_issues (by decide +kernel), ⟨rfl, rfl, rfl, rfl⟩, by decide +kernel, issues_of (by decide +kernel), ⟨rfl, rfl, rfl, rfl⟩, ⟨by decide +kernel, by decide +kernel⟩, by decide +kernel, by decide +kernel,
      issues_of (by decide +kernel), by decide⟩,
    issues_of (by decide +kernel), ⟨rfl, rfl, rfl, rfl⟩, by decide +kernel, by decide +kernel, issues_of (by decide +kernel), by decide +kernel, ⟨by decide +kernel, by decide +kernel⟩, tried_issues (by decide +kernel), by decide +kernel⟩

/-- A group with the window of rows 16 to 47, and a task of it over rows 16 to 17. -/
def windowed (x y : Word) : Group := { operands x y with acbase := 16, aclim := 48 }

def task (group : Nat) : Task :=
  { id := 70, group := group, block := 10, record := List.replicate 8 0, row := 16, rows := 2, window := (16, 48), deps := [], streams := [], kept := [], shapes := [], queue := 0, binding := 0 }

def tasking (g : Group) (owner : Nat) : State := (having g).setCore { coreReset 0 with tasks := [task owner] }

/-- AccumulatorWords: windows that are good, that are too large, and not in units of 16; rows claimed and freed at the ends of what there is; cells inside and outside the window, reserved bits, and rows that a task names. -/
theorem witness_AccumulatorWords :
    (∀ v ∈ [0x300010, 0x400000, 0x410000, 0x500010, 0x300011, 0x10300010], gate (windowed 0 (BitVec.ofNat 64 v)) unit (.acwinSet 0 5 20 21) = none ∧ (having (windowed 0 (BitVec.ofNat 64 v))).stallOf (windowed 0 (BitVec.ofNat 64 v)) unit (.acwinSet 0 5 20 21) = none) ∧
    (Issues (.acwinSet 0 5 20 21) (having (windowed 0 0x300010)) (windowed 0 0x300010) unit ∧ MayFall (windowed 0 0x300010) unit unit ∧ (windowed 0 0x300010).free = false ∧ (windowed 0 0x300010).index = 0 ∧
      ((having (windowed 0 0x300010)).groupsOf 10).find? (fun x => decide (x.index = ((windowed 0 0x300010).s 20).toNat)) = some (windowed 0 0x300010) ∧ (∀ w ∈ (having (windowed 0 0x300010)).otherWindows block 11, overlapping (16, 48) w = false) ∧
      (∀ t ∈ ((having (windowed 0 0x300010)).core 0).allTasks, t.group ≠ 11) ∧ (∃ t ∈ ((tasking (windowed 0 0x300010) 11).core 0).allTasks, t.group = 11)) ∧
    (∀ n ∈ [15, 16, 48, 64, 2048, 2064], ∀ i ∈ ([.acwinClaim 0 5 20, .acwinFree 0 5 20] : List Instr), gate (windowed (BitVec.ofNat 64 n) 0) unit i = none ∧ (having (windowed (BitVec.ofNat 64 n) 0)).stallOf (windowed (BitVec.ofNat 64 n) 0) unit i = none) ∧
    (∀ v ∈ [0x0, 0x001F, 0xC01F, 0xD01F, 0x0020, 0x0800, 0x10000], ∀ i ∈ ([.acrd 0 0 2 20, .acwr 0 0 2 20, .acclr 0 20] : List Instr), gate (windowed (BitVec.ofNat 64 v) 0) unit i = none ∧ (having (windowed (BitVec.ofNat 64 v) 0)).stallOf (windowed (BitVec.ofNat 64 v) 0) unit i = none) ∧
    (Issues (.acrd 0 0 2 20) (having (windowed 0x1F 0)) (windowed 0x1F 0) unit ∧ Issues (.acwr 0 0 2 20) (having (windowed 0x1F 0)) (windowed 0x1F 0) unit ∧ Issues (.acclr 0 20) (having (windowed 0x1F 0)) (windowed 0x1F 0) unit ∧
      FallsClear (windowed 0x1F 0) unit ∧ activeMask (windowed 0x1F 0) unit 0 ≠ 0) ∧
    (Issues (.acwr 0 0 2 20) (tasking (windowed 0 0) 11) (windowed 0 0) unit ∧ RowBusy (tasking (windowed 0 0) 11) (windowed 0 0) 16 ∧ ¬RowBusy (tasking (windowed 0 0) 12) (windowed 0 0) 16) ∧
    (laneCell 0xD01F 2 = (31, 15) ∧ laneCell 0xD01F 3 = (32, 0)) :=
  ⟨by decide +kernel, ⟨issues_of (by decide +kernel), mayFall_of (by decide +kernel), rfl, rfl, by decide +kernel, by decide +kernel, by decide +kernel, by decide +kernel⟩, by decide +kernel, by decide +kernel,
    ⟨issues_of (by decide +kernel), issues_of (by decide +kernel), issues_of (by decide +kernel), fallsClear_of (by decide +kernel), by decide +kernel⟩,
    ⟨issues_of (by decide +kernel), ⟨task 11, by decide +kernel, by decide +kernel⟩, by
      intro h
      obtain ⟨t, ht, hg, -⟩ := h
      have : ∀ t ∈ ((tasking (windowed 0 0) 12).core (windowed 0 0).core).allTasks, t.group ≠ (windowed 0 0).id := by decide +kernel
      exact this t ht hg⟩, by decide +kernel⟩

/-! ### Layers, completion, shapes, images -/

/-- A layer whose residency word lies in host memory, a model of two such layers, and the machine where the first word reads `w`. -/
def layer (pa : Nat) : Layer :=
  { check := 0, srcaddr := 0, srclen := 512, srckind := 1, srcq := 0, wsize := 512, wbase := 0x100000, pin := false, resWord := pa, resKey := 0, frames := [], since := 0 }

def model : Model :=
  { id := 40, asid := 77, lookahead := 1, pri := 0, layers := [layer (2 ^ 48 + 0x4000), layer (2 ^ 48 + 0x4008)], pool := [0x777000], nvmeTable := 0, nvmeEntries := 1, fetching := none }

def layered (w : Nat) (holds : Nat) (isTimed : Bool) : State :=
  { world with blocks := [{ block with holds := List.replicate holds (2 ^ 48 + 0x4000, 0), timed := isTimed }], models := [model] }.pokes (2 ^ 48 + 0x4000) (valueBytes 8 w)

theorem namesLayer (w holds : Nat) (t : Bool) (h : (layered w holds t).placeAt group .read 8 (group.s 7) = .hit (.phys (2 ^ 48 + 0x4000) 1 0 0x4000) ∧
    (layered w holds t).placePoison (.phys (2 ^ 48 + 0x4000) 1 0 0x4000) = none ∧ (layered w holds t).transferAt group.id (.phys (2 ^ 48 + 0x4000) 1 0 0x4000) 8 = false ∧
    (layered w holds t).layerAt ((layered w holds t).blockOf group).asid (2 ^ 48 + 0x4000) = some (model, 0, layer (2 ^ 48 + 0x4000))) :
    NamesLayer (layered w holds t) group (group.s 7) model 0 (layer (2 ^ 48 + 0x4000)) :=
  ⟨by decide +kernel, _, _, _, _, h.1, by decide, h.2.1, h.2.2.1, h.2.2.2⟩

/-- Layers: a resident layer without and with 16 holds, a failed one, and an absent one in a timed block. -/
theorem witness_LayerWords :
    (∀ x ∈ [((3 : Nat) * 2 ^ 61 + 2 ^ 40, (0 : Nat), false), (3 * 2 ^ 61, 15, false), (3 * 2 ^ 61, 16, false), (4 * 2 ^ 61 + 2 * 2 ^ 32, 0, false), (0, 0, true)],
      ((layered x.1 x.2.1 x.2.2).readRes (layer (2 ^ 48 + 0x4000))).toNat = x.1 ∧
      ∀ i ∈ ([.lacq 0 5 7, .lrel 0 7, .lstat 0 5 7, .lstatRetry 0 5 7] : List Instr), gate group unit i = none ∧ (layered x.1 x.2.1 x.2.2).stallOf group unit i = none) ∧
    NamesLayer (layered (3 * 2 ^ 61 + 2 ^ 40) 1 false) group (group.s 7) model 0 (layer (2 ^ 48 + 0x4000)) ∧ NamesLayer (layered (4 * 2 ^ 61) 0 false) group (group.s 7) model 0 (layer (2 ^ 48 + 0x4000)) ∧
    NamesLayer (layered 0 0 true) group (group.s 7) model 0 (layer (2 ^ 48 + 0x4000)) ∧
    Issues (.lacq 0 5 7) (layered (3 * 2 ^ 61 + 2 ^ 40) 1 false) group unit ∧ Issues (.lrel 0 7) (layered (3 * 2 ^ 61 + 2 ^ 40) 1 false) group unit ∧ Issues (.lstatRetry 0 5 7) (layered (4 * 2 ^ 61) 0 false) group unit ∧
    Issues (.lacq 0 5 7) (layered 0 0 true) group unit ∧ MayFall group unit unit ∧ Untiled (layered (3 * 2 ^ 61 + 2 ^ 40) 1 false) group ∧ ((layered (3 * 2 ^ 61 + 2 ^ 40) 1 false).blockOf group).confirmed = true ∧
    ((layered (3 * 2 ^ 61 + 2 ^ 40) 1 false).core group.core).watches.length < Config.watchEntries ∧ ((layered (3 * 2 ^ 61 + 2 ^ 40) 1 false).core group.core).watchQueue = [] ∧
    (((layered 0 0 false).setCore { coreReset 0 with watches := List.replicate 64 { sector := 1, group := 12, unit := 0 } }).core group.core).watches.length = Config.watchEntries :=
  ⟨by decide +kernel, namesLayer _ _ _ (by decide +kernel), namesLayer _ _ _ (by decide +kernel), namesLayer _ _ _ (by decide +kernel), issues_of (by decide +kernel), issues_of (by decide +kernel),
    issues_of (by decide +kernel), issues_of (by decide +kernel), mayFall, (by intro x hx; cases hx), by decide +kernel, by decide, by decide +kernel, by decide +kernel⟩

/-- Layers: a fetch that may start and one for which the pool has too few pages, an eviction, and the ends of a fetch. -/
theorem witness_LayerFetches :
    ((layered (2 ^ 61) 0 false).model? 40 = some model ∧ model.fetching = none ∧ (layered (2 ^ 61) 0 false).layerIn model 1 = some (0, layer (2 ^ 48 + 0x4000)) ∧ (layer (2 ^ 48 + 0x4000)).pages ≤ model.pool.length ∧
      (layered (2 ^ 61) 0 false).noWeights model (layer (2 ^ 48 + 0x4000)) = false ∧ ({ layered (2 ^ 61) 0 false with spaces := [] } : State).noWeights model (layer (2 ^ 48 + 0x4000)) = true) ∧
    (let m := { model with pool := [], layers := [layer (2 ^ 48 + 0x4000), layer (2 ^ 48 + 0x4008)] }
     let s := { (layered (2 ^ 61) 0 false).pokes (2 ^ 48 + 0x4008) (valueBytes 8 (3 * 2 ^ 61)) with models := [m] }
     s.model? 40 = some m ∧ s.layerIn m 1 = some (0, layer (2 ^ 48 + 0x4000)) ∧ m.pool.length < (layer (2 ^ 48 + 0x4000)).pages ∧ s.layerIn m 2 = none ∧ s.victim m = some (1, layer (2 ^ 48 + 0x4008))) ∧
    (((layered (2 * 2 ^ 61) 0 false).readRes (layer (2 ^ 48 + 0x4000))).toNat / 2 ^ 61 = 2 ∧ model.layers[0]? = some (layer (2 ^ 48 + 0x4000))) ∧
    (let m := { model with fetching := some 0 }
     let s := { layered (2 ^ 61) 0 false with models := [m] }
     s.model? 40 = some m ∧ m.fetching = some 0 ∧ (∀ w ∈ s.walks, .layer 40 ∉ w.waiters) ∧ (layer (2 ^ 48 + 0x4000)).srckind = 1 ∧ (layer (2 ^ 48 + 0x4000)).srclen = (layer (2 ^ 48 + 0x4000)).wsize ∧ (s.nvmeReads m (layer (2 ^ 48 + 0x4000))).isSome ∧
      (List.replicate 512 (0 : Byte)).length = (layer (2 ^ 48 + 0x4000)).wsize) := by decide +kernel

/-- A fetched continuation record, complete or not, and the machine with three of them in a queue in the error state. -/
def fetched (pos kind : Nat) (status : Option Nat) : Fetched :=
  { pos := pos, record := [BitVec.ofNat 64 (kind * 2 ^ 60), 0, 0, 0, 0, 0, 0, 9], desc := none, pushed := true, status := status, depMet := true, admittedOk := true, kept := false, watchdog := 0, gen := 0, die := 0,
    holder := none, hit := false }

def erred : Queue := { queue with records := [fetched 4 2 none, fetched 5 2 (some 0), fetched 6 1 none], state := 4, fetchedCount := 4 }

/-- `s20` holds a handle, `s21` an address; the descriptor's RIDX is 4, WIDX 6 and ERRPOS 4; the join counter at 0x4080 in host memory's page is 2. -/
def completing (h va : Nat) : Group := operands (BitVec.ofNat 64 h) (BitVec.ofNat 64 va)

def completion (g : Group) (count : Nat) : State :=
  (({ having g with queues := [erred] }.pokes (2 ^ 48 + 0x8008) (valueBytes 8 (4 * 2 ^ 60 + 4 * 2 ^ 32) ++ valueBytes 8 6 ++ valueBytes 8 4)).pokes (2 ^ 48 + 0x8030) (valueBytes 8 4)).pokes 0x10080 (valueBytes 8 count)

theorem signals_of {s : State} {g : Group} {va : Word} {pl : Place} (h : va8 s g .atomic false va pl) (h2 : placeOrd pl ≠ 2 ∧ atHost pl = false ∧ atDevice pl = false ∧ s.placePoison pl = none) (h3 : (s.blockOf g).confirmed = true)
    (h4 : Untiled s g) : Signals s g va pl := ⟨h, h2, h3, h4⟩

/-- What the handles of the tests name. -/
theorem witness_handles :
    (∃ q r, handleOf (completion group 2) 77 (BitVec.ofNat 64 (7 * 2 ^ 48 + 4)) = .record q r) ∧ handleOf (completion group 2) 77 (BitVec.ofNat 64 (7 * 2 ^ 48 + 5)) = .complete ∧
    handleOf (completion group 2) 77 (BitVec.ofNat 64 (7 * 2 ^ 48 + 2 ^ 32 + 4)) = .stale ∧ handleOf (completion group 2) 77 (BitVec.ofNat 64 (9 * 2 ^ 48 + 4)) = .nothing :=
  ⟨⟨_, _, rfl⟩, rfl, rfl, rfl⟩

/-- CompletionWords: handles of each kind, the join counter at 0, 1 and 2, and signals; a queue that restarts, one that is not in error, and none. -/
theorem witness_CompletionWords :
    (∀ x ∈ [((0 : Nat), (0 : Nat)), (7 * 2 ^ 48 + 4, 0), (7 * 2 ^ 48 + 5, 0), (7 * 2 ^ 48 + 2 ^ 32 + 4, 0), (9 * 2 ^ 48 + 4, 0), (0, 0x2080)], ∀ i ∈ ([.wdone 0 5 20 21, .wdoneFail 0 5 20 21] : List Instr),
      gate (completing x.1 x.2) unit i = none ∧ (completion (completing x.1 x.2) 2).stallOf (completing x.1 x.2) unit i = none) ∧
    (Issues (.wdone 0 5 20 21) (completion (completing 0 0x2080) 1) (completing 0 0x2080) unit ∧ (completion (completing 0 0x2080) 1).outstanding (completing 0 0x2080) = 0 ∧
      (completion (completing 0 0x2080) 1).placeAt (completing 0 0x2080) .atomic 128 0x2080 = .hit (.phys 0x10080 1 1 0x2080) ∧ ((completion (completing 0 0x2080) 1).clustersOf ((completion (completing 0 0x2080) 1).partOf (completing 0 0x2080)))[0]? = some 0 ∧
      MayFall (completing 0 0x2080) unit unit ∧ Untiled (completion (completing 0 0x2080) 1) (completing 0 0x2080)) ∧
    (Issues (.wsig 0 3 1) world group unit ∧ Signals world group (group.s 3) hbm) ∧
    (Issues (.qrestart 0 5 11) (completion group 2) group unit ∧ (completion group 2).queues.find? (fun q => decide (q.asid = 77) && decide (q.descVa = group.s 11)) = some erred ∧ erred.state = 4 ∧
      (((completion group 2).release ((completion group 2).accessor group) 4).descWord erred 6).toNat = 4 ∧ (((completion group 2).release ((completion group 2).accessor group) 4).descWord erred 3).toNat = 4 ∧
      4 < ((completion group 2).release ((completion group 2).accessor group) 4).widx erred ∧ Issues (.qrestart 0 5 11) world group unit ∧ queue.state ≠ 4 ∧ queue.descVa = group.s 11 ∧ Issues (.qrestart 0 5 3) world group unit ∧
      world.queues.find? (fun q => decide (q.asid = 77) && decide (q.descVa = group.s 3)) = none) :=
  ⟨by decide +kernel, ⟨issues_of (by decide +kernel), by decide +kernel, by decide +kernel, by decide +kernel, mayFall_of (by decide +kernel), by intro x hx; cases hx⟩,
    ⟨tried_issues (by decide +kernel), signals_of (va8_of (by decide +kernel)) (by decide +kernel) (by decide +kernel) (by intro x hx; cases hx)⟩,
    issues_of (by decide +kernel), by decide +kernel, rfl, by decide +kernel, by decide +kernel, by decide +kernel, tried_issues (by decide +kernel), by decide, by decide +kernel, tried_issues (by decide +kernel), by decide +kernel⟩

/-- The machine with an unconfirmed block, and with a launch whose arena slices lie at 0x4000. -/
def unconfirmed : State := { world with blocks := [{ block with confirmed := false }] }

def arena (cursor : Nat) (g : Group) : State := ({ having g with mapped := [page 4 (2 ^ 48 + 0x4000) 1 0], grids := [{ grid with desc := { desc with abase := 0x4000, aslice := 1 } }] }.pokes (2 ^ 48 + 0x4000) (valueBytes 8 cursor))

/-- Shapes: the words, before and after confirmation; a slot and a count beyond 32 bits; arena room, none, and a request that is not a multiple of 256 bytes. -/
theorem witness_ShapeWords :
    (Issues (.shpSet 0 5 3 1) world group unit ∧ Issues (.shpSet 0 5 3 2) world group unit ∧ Signals world group (group.s 3) hbm ∧ 2 ^ 32 ≤ (group.s 2).toNat ∧ (group.s 1).toNat < 2 ^ 32) ∧
    (Issues (.shpGet 0 5) world group unit ∧ Issues (.shpConf 0 5) world group unit ∧ world.grid? (world.blockOf group).grid = some grid ∧ (world.blockOf group).confirmed = true ∧
      Issues (.shpConf 0 5) unconfirmed group unit ∧ (unconfirmed.blockOf group).confirmed = false) ∧
    (∀ n ∈ [0, 256, 255, 3840, 4096], gate (operands (BitVec.ofNat 64 n) 0) unit (.salloc 0 5 20) = none) ∧
    (Issues (.salloc 0 5 20) (arena 0 (operands 3840 0)) (operands 3840 0) unit ∧ MayFall (operands 3840 0) unit unit ∧
      (match (arena 0 (operands 3840 0)).reach 77 (sliceAddr { desc with abase := 0x4000, aslice := 1 } 0) .atomic true [] with
        | .found _ pa => decide (pa = 2 ^ 48 + 0x4000)
        | _ => false) = true ∧
      (match world.reach 77 0x5000 .atomic true [5] with
        | .fail => true
        | _ => false) = true) :=
  ⟨⟨tried_issues (by decide +kernel), tried_issues (by decide +kernel), signals_of (va8_of (by decide +kernel)) (by decide +kernel) (by decide +kernel) (by intro x hx; cases hx), by decide +kernel, by decide +kernel⟩,
    ⟨tried_issues (by decide +kernel), tried_issues (by decide +kernel), by decide +kernel, by decide +kernel, issues_of (by decide +kernel), by decide +kernel⟩, by decide +kernel,
    issues_of (by decide +kernel), mayFall_of (by decide +kernel), by decide +kernel, by decide +kernel⟩

/-- A predicted grid whose slot at 0x4020 holds `w`, and whose grid context waits for the count. -/
def predicted : Grid := { grid with desc := { desc with nblk := 6, slot := 0x4020, psel := 1 }, predicted := true, confirmed := false, next := 2, count := 4 }

def awaited (w : Nat) : State :=
  { world with mapped := [page 4 (2 ^ 48 + 0x4000) 1 0], grids := [predicted], blocks := [{ block with confirmed := false, index := 1 }], ctxs := [{ bctx with id := 61, scope := 4, links := [], state := .unconfirmed }] }.pokes (2 ^ 48 + 0x4020) (valueBytes 8 w)

/-- Shapes: an open slot, a count below, at and above the prediction. -/
theorem witness_Confirmations : ∀ w ∈ [4, 2 ^ 63 + 3, 2 ^ 63 + 4, 2 ^ 63 + 6],
    (awaited w).grid? 50 = some predicted ∧ (awaited w).awaitsCount predicted = true ∧ (awaited w).walkNow 77 0x4020 .read true = some { frame := 2 ^ 48 + 0x4000, r := true, w := true, x := true, p := false, ord := 1, key := 0 } ∧
    ((awaited w).poisoned (2 ^ 48 + 0x4020)).isNone ∧ predicted.next < min predicted.count 3 ∧ predicted.desc.slot.toNat / 4096 ∉ predicted.walkFault ∧ predicted.id < (awaited w).ids ∧
    bytesValue ((awaited w).homeBytes 0 (2 ^ 48 + 0x4020) 8) = w ∧ (∀ b ∈ (awaited w).blocks, b.grid = 50 → b.index < 3 ∧ b.state = .running) := by decide +kernel

/-! ### Images of contexts and units -/

/-- The selector of `seqsv` and `seqld` in `s20`, the image at the window in `s2`, in trap mode. -/
def keeper (sel : Nat) : Group := { trapped with sregs := group.sregs.setIfInBounds 20 (BitVec.ofNat 64 sel) }

/-- Scratchpad that holds words. -/
def padWith (ws : List Word) : List Host.Cell :=
  ((ws.flatMap fun w => valueBytes 8 w.toNat).zipIdx.filter fun x => decide (x.1 ≠ 0)).map fun x => (x.2, x.1)

/-- The machine whose block's context is frozen, with an image in scratchpad. -/
def keeping (sel : Nat) (ws : List Word) : State :=
  { inTrap with groups := [keeper sel], blocks := [{ block with pad := padWith ws }], ctxs := [{ bctx with frozen := true }] }

theorem mayFallHandler (sel : Nat) (h : (backEdge handler).pc = handler.pc + 4) : MayFall (keeper sel) handler handler :=
  ⟨⟨.inl h, .inr (.inl rfl)⟩, .inl (.inr ⟨rfl, rfl⟩)⟩

theorem imageAt_of {s : State} {g : Group} {c : Access} {va : Word} {n : Nat} {b : Block} {off : Nat} (h : (va.toNat % 64 = 0 ∧ s.block? b.id = some b ∧ off % 32 = 0 ∧
    (c = .write → (s.blockOf g).confirmed = true) ∧ (c = .read → s.padPoison b.id = none)) ∧ ∀ k ∈ List.range (n / 32), s.placeAt g c 32 (va + BitVec.ofNat 64 (32 * k)) = .hit (.pad b.id (off + 32 * k)) ∧
      s.transferAt g.id (.pad b.id (off + 32 * k)) 32 = false) : ImageAt s g c va n b off :=
  ⟨h.1.1, h.1.2.1, h.1.2.2.1, h.1.2.2.2.1, h.1.2.2.2.2, fun k hk => h.2 k (List.mem_range.mpr hk)⟩

/-- The images of the small machine: the group's, the frozen context's, and that of the trapped group's units. -/
def gImage : List Word := groupImage (keeper 1)

def cImage : List Word := ctxImage { bctx with frozen := true }

def fImage : List Word := fragImage trapped

/-- ContextImages: `seqsv` of the group and of the block's context, `fragsv`; `seqld` of either and of a header of another scope; `fragld` of the saved image, of one
whose header is another's and of one that names no entry; `tmark`. -/
theorem witness_ContextImages :
    (Issues (.seqsv 0 5 2 20) (keeping 1 []) (keeper 1) handler ∧ Issues (.seqsv 0 5 2 20) (keeping 2 []) (keeper 2) handler ∧
      ImageAt (keeping 1 []) (keeper 1) .write ((keeper 1).s 2) ((8 * gImage.length + 63) / 64 * 64) { block with pad := [] } 0 ∧
      ImageAt (keeping 2 []) (keeper 2) .write ((keeper 2).s 2) ((8 * cImage.length + 63) / 64 * 64) { block with pad := [] } 0 ∧
      ((keeping 2 []).ctxs.find? fun c => decide (c.scope = 2) && decide (c.block = ((keeping 2 []).blockOf (keeper 2)).id)) = some { bctx with frozen := true }) ∧
    (Issues (.fragsv 0 5 2) (keeping 1 []) (keeper 1) handler ∧ ImageAt (keeping 1 []) (keeper 1) .write ((keeper 1).s 2) (1280 + 256 * 1 + 128 * 0) { block with pad := [] } 0) ∧
    (Issues (.seqld 0 5 2 20) (keeping 1 gImage) (keeper 1) handler ∧ Issues (.seqld 0 5 2 20) (keeping 2 cImage) (keeper 2) handler ∧ Issues (.seqld 0 5 2 20) (keeping 2 gImage) (keeper 2) handler ∧
      ImageAt (keeping 1 gImage) (keeper 1) .read ((keeper 1).s 2) 512 { block with pad := padWith gImage } 0 ∧
      ImageAt (keeping 2 cImage) (keeper 2) .read ((keeper 2).s 2) 576 { block with pad := padWith cImage } 0 ∧
      (let head := padWords { block with pad := padWith gImage } 0 8
       fieldOf head 0 63 56 = 1 ∧ fieldOf head 0 55 53 = 1 ∧ fieldOf head 0 48 32 = 0 ∧ (512 + 64 * fieldOf head 0 52 49 + 8 * fieldOf head 0 48 32 + 63) / 64 * 64 = 512) ∧
      (let head := padWords { block with pad := padWith cImage } 0 8
       fieldOf head 0 63 56 = 1 ∧ fieldOf head 0 55 53 = 2 ∧ fieldOf head 0 48 32 = bctx.links.length ∧ (512 + 64 * fieldOf head 0 52 49 + 8 * fieldOf head 0 48 32 + 63) / 64 * 64 = 576)) ∧
    (Issues (.fragld 0 5 2) (keeping 1 fImage) (keeper 1) handler ∧ Issues (.fragld 0 5 2) (keeping 1 gImage) (keeper 1) handler ∧
      ImageAt (keeping 1 fImage) (keeper 1) .read ((keeper 1).s 2) 1536 { block with pad := padWith fImage } 0 ∧
      (let head := padWords { block with pad := padWith fImage } 0 8
       fieldOf head 0 63 56 = 1 ∧ fieldOf head 1 39 32 = (keeper 1).width ∧ fieldOf head 1 44 40 < fieldOf head 0 55 50 ∧ fieldOf head 0 49 44 ≤ 32 ∧ fieldOf head 0 55 50 ≤ 32 ∧
        1280 + 256 * fieldOf head 0 55 50 + 128 * fieldOf head 0 49 44 = 1536) ∧
      fragOk (keeper 1) (fragOf (keeping 1 fImage).steps (keeper 1).nextUid (padWords { block with pad := padWith fImage } 0 192)) = true ∧
      fragOk (keeper 1) (fragOf (keeping 1 fImage).steps (keeper 1).nextUid ((padWords { block with pad := padWith fImage } 0 192).map (· ||| 0xFFFF))) = false) ∧
    Issues (.tmark 0 3) world group unit ∧ MayFall (keeper 1) handler handler ∧ MayFall (keeper 2) handler handler :=
  ⟨⟨issues_of (by decide +kernel), issues_of (by decide +kernel), imageAt_of (by decide +kernel), imageAt_of (by decide +kernel), by decide +kernel⟩,
    ⟨issues_of (by decide +kernel), imageAt_of (by decide +kernel)⟩,
    ⟨issues_of (by decide +kernel), issues_of (by decide +kernel), issues_of (by decide +kernel), imageAt_of (by decide +kernel), imageAt_of (by decide +kernel), by decide +kernel, by decide +kernel⟩,
    ⟨issues_of (by decide +kernel), issues_of (by decide +kernel), imageAt_of (by decide +kernel), by decide +kernel, by decide +kernel, by decide +kernel⟩,
    tried_issues (by decide +kernel), mayFallHandler 1 (by decide +kernel), mayFallHandler 2 (by decide +kernel)⟩

/-! ### Issue, waiting, power and debug -/

/-- A second group on slot 4, and the machine in which the scheduler 0 of core 0 has a history. -/
def group2 : Group := { group with id := 12, slot := 4, lastIssue := 5 }

def issuing (sc : Sched) : State := { ({ world with groups := [group, group2] }.setCore { coreReset 0 with scheds := Vector.replicate 4 sc }) with sel := none }

theorem mayIssue_of {s : State} {core sched : Nat} {g : Group} {u : GUnit} (h : (g ∈ s.groups ∧ g.core = core ∧ g.slot % 4 = sched) ∧ (u ∈ g.active ∧ (u.wait = .ready ∨ u.wait = .edgeOut)) ∧
    (u.region ≠ none ∨ ∀ x ∈ g.active, x.region = none) ∧ g.doubleFault = false ∧ g.draining = none ∧ s.stoppedGrid g = false ∧ (u.hint ≠ none ∨ s.mustTrap g = false)) : MayIssue s core sched g u := ⟨h.1, h.2.1, h.2.2.1, h.2.2.2⟩

/-- IssueAndReadiness: two groups that may issue, with no history, after a run of 31 and of 32 issue cycles, and with an overdue unit; a first slot that is taken. -/
theorem witness_IssueOrder : ∀ sc ∈ ([schedReset, { schedReset with run := some (12, 0), runLen := 31 }, { schedReset with run := some (12, 0), runLen := 32 },
      { schedReset with recent := List.replicate 32 9 }, { schedReset with first := some (12, 3, false) }] : List Sched),
    MayIssue (issuing sc) 0 0 group unit ∧ MayIssue (issuing sc) 0 0 group2 unit ∧ ((issuing sc).core 0).fenced = false ∧ ((issuing sc).cluster (clusterOfCore 0)).fenced = false ∧
    ((issuing sc).core 0).packets = [] ∧ (((issuing sc).core 0).scheds[0]?).getD schedReset = sc := by
  intro sc h
  simp only [List.mem_cons, List.not_mem_nil, or_false] at h
  rcases h with rfl | rfl | rfl | rfl | rfl <;>
    exact ⟨mayIssue_of (by decide +kernel), mayIssue_of (by decide +kernel), by decide +kernel, by decide +kernel, by decide +kernel, by decide +kernel⟩

theorem witness_overdue : Overdue { schedReset with recent := List.replicate 32 9 } unit := ⟨by decide +kernel, by decide +kernel⟩

/-- IssueAndReadiness: a unit in each wait. -/
theorem witness_UnitsBecomeReady : ∀ w ∈ ([.switchPark, .hold, .takenSide, .stall 4, .parked] : List Wait),
    let g := only { unit with wait := w }
    (having g).group? g.id = some g ∧ g.unit? 0 = some { unit with wait := w } ∧ (∀ x ∈ (having g).writes, x.group ≠ g.id) ∧ (∀ x ∈ (having g).atomics, x.group ≠ g.id) ∧ (∀ x ∈ (having g).walks, x.waiters = []) ∧ g.doubleFault = false := by decide +kernel

/-- A debug halt and a pre-emption that are due. -/
def halts : TrapInfo := { cause := 26, tval := 0, tstat := 0, tlane := 0xF }

def preempts : TrapInfo := { cause := 24, tval := 5, tstat := 0, tlane := 0xF }

def asked (l : List TrapInfo) : Group := { group with async := l }

/-- AsyncEntry: a pre-emption alone, and before a debug halt; a context's fault. -/
theorem witness_AsyncEntry :
    (∀ l ∈ [[preempts], [preempts, halts], [halts]], (having (asked l)).group? 11 = some (asked l) ∧ (asked l).trap.tmode = false ∧ (∀ x ∈ (asked l).units, x.hint = none) ∧ (having (asked l)).outstanding (asked l) = 0 ∧ (asked l).draining = none ∧ (∀ x ∈ (having (asked l)).atomics, x.group ≠ (asked l).id) ∧
      ((∀ x ∈ (asked l).async, x.cause ≠ 26) ∧ (asked l).async.head? = some preempts ∨ halts ∈ (asked l).async ∧ ∀ x ∈ (asked l).async, x.cause = 26 → x = halts)) ∧
    Apart (asked [preempts]) ∧
    (let c := { bctx with fault := some { cause := 5, tval := 8, tstat := 2, tlane := 0 } }
     let s : State := { world with ctxs := [c] }
     s.ctx? 60 = some c ∧ c.reporter = none ∧ s.reporterOf c = some group ∧ s.group? 11 = some group) :=
  ⟨by decide +kernel, apart_of (by decide +kernel), by decide +kernel⟩

/-- A cluster whose clock stands at 100. -/
def ticking (d : Droop) (l : Option Nat) : State :=
  world.setCluster { clusterReset 0 with partition := some 3, tsc := 100, droop := d, lastStretch := l, halfFrom := 80, droopth := 40, target := 9 }

/-- PowerAndClocks: each stage of a droop sequence, with a last stretch that began 70 and 69 cycles ago; frequencies; a window; a rack cap, newer and not; a lease. -/
theorem witness_PowerAndClocks :
    (∀ d ∈ [Droop.none, .stretch, .half], ∀ b ∈ [none, some 31, some 32, some 97], let c := (ticking d b).cluster 0
      c.droop = d ∧ c.lastStretch = b ∧ c.droopth ≠ 0 ∧ c.droopth ≤ 40 ∧ 39 < c.droopth ∧ c.tsc.toNat = 100 ∧ c.tsc.toNat ≤ c.halfFrom + 64) ∧
    ((ticking .none none).partitions.all (fun p => p.creating.isNone) = true ∧ ((ticking .none none).cluster 0).step ≠ ((ticking .none none).cluster 0).target ∧ world.bellows[7]? = some 800 ∧ world.bellows[8]? = none) ∧
    ((1 ≤ ((1 : BitVec 32) - world.caps.seq).toNat ∧ ((1 : BitVec 32) - world.caps.seq).toNat < 2 ^ 31) ∧ ¬(1 ≤ ((0 : BitVec 32) - world.caps.seq).toNat) ∧
      ({ world with caps := { world.caps with expiry := some 5 } } : State).caps.expiry = some 5) := by decide +kernel

/-- A record of a queue that is next to be pushed, its watchdog at its partition's limit. -/
def watched : Queue := { queue with records := [{ fetched 4 2 none with pushed := false, watchdog := 100 }] }

/-- WatchdogsAndDebug: a context's and a queue's watchdog at the limit; a stop; sampling and trace rings. -/
def debugged (g : Group) : State :=
  { (having g).setCore { coreReset 0 with dbgctl := BitVec.ofNat 64 (2 ^ 25 + 12 * 2 ^ 27 + 12 * 2 ^ 32 + 2 ^ 23 + 77), smpbase := 0x4000, trbase := 0x4000, ovfDue := some 7 } with
    mapped := [page 4 (2 ^ 48 + 0x4000) 1 0], stopall := [9] }

theorem witness_WatchdogsAndDebug :
    (∀ n ∈ [99, 100], let c := { bctx with watchdog := n }
      let s : State := { world with ctxs := [c] }
      s.ctx? c.id = some c ∧ s.grid? c.grid = some grid ∧ s.partition? grid.partition = some part ∧ part.watchLimit = 100) ∧
    (let s : State := { world with queues := [watched] }
     s.threadQueue 0 = some watched ∧ s.queue? 7 = some watched ∧ watched.nextPush = some { fetched 4 2 none with pushed := false, watchdog := 100 } ∧ s.partition? watched.partition = some part) ∧
    (let g := { group with halted := true, pid := 9 }
     let s := debugged g
     9 ∈ s.stopall ∧ s.group? g.id = some g ∧ (s.core 0).dbgctl.getLsbD 25 = true ∧ s.sampledGroup 0 0 = some g ∧ s.sampledGroup 0 1 = none ∧ g.units[g.trap.tunit]? = some unit ∧
       (∀ x ∈ s.groups, x.id = g.id → x = g) ∧ g.core = 0 ∧ (s.blockOf g).asid = (s.core 0).dbgctl.toNat % 2 ^ 16 ∧ (s.core 0).packets = [] ∧ (s.core 0).ovfDue = some 7 ∧
       (match s.ringPut ((s.core 0).dbgctl.toNat % 2 ^ 16) (s.core 0).smpbase ((s.core 0).dbgctl.toNat / 2 ^ 27 % 2 ^ 5) (sampleRecord s g unit 0 21 unit.pc) with
         | .done _ => true
         | _ => false) = true ∧
       (match s.tracePut 0 [BitVec.ofNat 64 (7 * 2 ^ 60 + 7 * 2 ^ 18), 0] with
         | .done _ => true
         | _ => false) = true) := by decide +kernel

/-! ### Translation and requests to the manager -/

/-- A parked unit that waits for a walk at 0x7654321008, and the walk in each phase. -/
def parkedUnit : GUnit := { unit with wait := .parked }

def walk (phase cls : Nat) (va : Nat) : Walk :=
  { id := 33, asid := 77, page := va / 4096, cls := cls, level1 := false, waiters := [.unit 11 0 (BitVec.ofNat 64 va)], die := 0, phase := phase, index := 9, prot := false, va := BitVec.ofNat 64 va }

/-- The machine with a walk, its address space with word 0 `w0`, and a fault ring of 2^4 records in host memory that has been read up to record `read`. -/
def walking (w : Walk) (w0 : Word) (read : Nat) : State :=
  ({ having (only parkedUnit) with
      walks := [w], mapped := [page 4 (2 ^ 48 + 0x4000) 1 0],
      spaces := [{ asid := 77, fn := 1, w0 := w0, root := BitVec.ofNat 64 (2 ^ 48 + 0x400000), ring := BitVec.ofNat 64 (2 ^ 48 + 0x10000), nextIndex := 18 }] }.pokes (2 ^ 48 + 0x10008) (valueBytes 8 read ++ valueBytes 8 4))

theorem walking_of {s : State} {w : Walk} {n : Nat} (h : s.walk? w.id = some w ∧ w.phase = n ∧ ∀ x ∈ s.walks, x.id = w.id → x = w) : Walking s w n := ⟨h.1, h.2.1, h.2.2⟩

theorem parked_of {s : State} {g : Group} {u : GUnit} (h : s.group? g.id = some g ∧ (u ∈ g.units ∧ g.unit? u.uid = some u ∧ ∀ x ∈ g.units, ∀ y ∈ g.units, x.uid = y.uid → x = y) ∧
    (u.wait = .parked ∧ u.hint = none) ∧ g.trap.tmode = false ∧ g.draining = none ∧ ∀ x ∈ s.atomics, x.group ≠ g.id) : Parked s g u := ⟨h.1, ⟨h.2.1.1, h.2.1.2.1, h.2.1.2.2⟩, h.2.2.1, h.2.2.2⟩

theorem ring_of {s : State} {x : AddrSpace} {n : Nat} (h : (x.ring.toNat % 64 = 0 ∧ (isHbm x.ring.toNat = true ∨ isHost x.ring.toNat = true)) ∧
    (bytesValue (s.homeBytes 0 (x.ring.toNat + 16) 8) = n ∧ 4 ≤ n ∧ n ≤ 16) ∧
    (BitVec.ofNat 64 x.nextIndex - BitVec.ofNat 64 (bytesValue (s.homeBytes 0 (x.ring.toNat + 8) 8))).toNat < 2 ^ n) : RingHasRoom s x n := ⟨h.1, h.2.1, h.2.2⟩

def spaceOf (s : State) : AddrSpace := (s.space? 77).getD { asid := 0, fn := 0, w0 := 0, root := 0, ring := 0, nextIndex := 0 }

/-- A page that the host has mapped, and a page for which its tables hold nothing. -/
def there : Nat := 0x4008

def absent : Nat := 0x7654321008

/-- Translation: a walk that is asked for and one that finds a leaf. -/
theorem witness_Walks :
    Walking (walking (walk 0 0 there) 0x20 18) (walk 0 0 there) 0 ∧ Walking (walking (walk 1 0 there) 0x20 18) (walk 1 0 there) 1 ∧ Parked (walking (walk 1 0 there) 0x20 18) (only parkedUnit) parkedUnit ∧ OnlyWalk (walking (walk 1 0 there) 0x20 18) (walk 1 0 there) 11 0 ∧ (∀ x ∈ (walk 1 0 there).waiters, Plain x) ∧
      ((walking (walk 0 0 there) 0x20 18).walks.filter fun x => decide (x.phase = 1) && decide (x.engine = (walk 0 0 there).engine)).length < 16 ∧
      (walking (walk 1 0 there) 0x20 18).walkFor 77 there (walk 1 0 there).access false = .leaf { frame := 2 ^ 48 + 0x4000, r := true, w := true, x := true, p := false, ord := 1, key := 0 } :=
  ⟨walking_of (by decide +kernel), walking_of (by decide +kernel), parked_of (by decide +kernel), by intro y hy h; rw [show y = walk 1 0 there from List.mem_singleton.mp hy] at h; exact absurd rfl h,
    (by intro x hx; rw [List.mem_singleton.mp hx]; exact ⟨(by intro k h; cases h), (by intro q h; cases h)⟩), by decide +kernel, by decide +kernel⟩

/-- What a faulting walk of a class finds. -/
def finds (cls : Nat) (w0 : Word) : Bool :=
  decide ((walking (walk 1 cls absent) w0 3).walkFor 77 absent (walk 1 cls absent).access false = .notPresent) && decide (((walking (walk 1 cls absent) w0 3).space? 77).map (·.replays) = some (decide (w0 = 0xA0))) &&
    decide ((walk 1 cls absent).waiters = [.unit (only parkedUnit).id parkedUnit.uid (BitVec.ofNat 64 absent)]) && ((walking (walk 1 cls absent) w0 3).walks.all fun y => !decide (y.asid = 77 ∧ y.phase = 2))

/-- Translation: faults of each class, with and without a ring. -/
theorem witness_Walks_faults : finds 0 0x20 = true ∧ finds 1 0x20 = true ∧ finds 2 0x20 = true ∧ finds 0 0xA0 = true ∧ finds 1 0xA0 = true ∧ finds 2 0xA0 = true := by decide +kernel

/-- Translation: a fault without a ring, with room from the last free record of a ring on, and with a full ring; one that is held. -/
theorem witness_Walks_ring :
    Walking (walking (walk 1 1 absent) 0x20 18) (walk 1 1 absent) 1 ∧ Parked (walking (walk 1 1 absent) 0x20 18) (only parkedUnit) parkedUnit ∧ Walking (walking (walk 1 1 absent) 0xA0 3) (walk 1 1 absent) 1 ∧
      RingHasRoom (walking (walk 1 1 absent) 0xA0 3) (spaceOf (walking (walk 1 1 absent) 0xA0 3)) 4 ∧ RingHasRoom (walking (walk 2 1 absent) 0xA0 3) (spaceOf (walking (walk 2 1 absent) 0xA0 3)) 4 :=
  ⟨walking_of (by decide +kernel), parked_of (by decide +kernel), walking_of (by decide +kernel), ring_of (by decide +kernel), ring_of (by decide +kernel)⟩

theorem witness_Walks_full : (walking (walk 1 1 absent) 0xA0 2).ringRoom (spaceOf (walking (walk 1 1 absent) 0xA0 2)) = .full := by decide +kernel

theorem witness_Walks_held : ((walking (walk 2 1 absent) 0xA0 3).walks.find? fun w => decide (w.asid = 77) && decide (w.phase = 2)) = some (walk 2 1 absent) := by decide +kernel

/-- A request of function 1. -/
def req (w1 w2 w3 w4 w5 w6 : Nat) : Request :=
  { fn := 1, slot := some 4, w0 := 0, w1 := BitVec.ofNat 64 w1, w2 := BitVec.ofNat 64 w2, w3 := BitVec.ofNat 64 w3, w4 := BitVec.ofNat 64 w4, w5 := BitVec.ofNat 64 w5, w6 := BitVec.ofNat 64 w6 }

theorem clean_of {r : Request} {m1 m2 m3 m4 m5 m6 : Word} (h : r.w0.toNat % 2 ^ 56 = 0 ∧ r.w1 &&& ~~~m1 = 0 ∧ r.w2 &&& ~~~m2 = 0 ∧ r.w3 &&& ~~~m3 = 0 ∧ r.w4 &&& ~~~m4 = 0 ∧
    r.w5 &&& ~~~m5 = 0 ∧ r.w6 &&& ~~~m6 = 0) : Clean r m1 m2 m3 m4 m5 m6 := ⟨h.1, h.2⟩

/-- A root port whose device holds a translation of page 4. -/
def rport (held : List (Nat × Nat)) : RootPort :=
  { port := 2, pasids := [(5, 77)], default := none, ats := [1], held := held.map (fun h => { asid := h.1, page := h.2, frame := 2 ^ 36 + h.2, key := 0 }), replies := [] }

/-- Translation: invalidations of a range and of all, with and without a device that holds a translation; the device's completions; replies to a fault. -/
theorem witness_TranslationRequests :
    (Clean (req (77 * 65536) 0x2000 0x2000 0 0 0) (field 31 16 ||| 1) (~~~0) (~~~0) 0 0 0 ∧ Clean (req (77 * 65536 + 1) 0 0 0 0 0) (field 31 16 ||| 1) 0 0 0 0 0 ∧ (∃ x, world.space? 77 = some x ∧ x.fn = 1) ∧
      (∀ p ∈ ({ world with ports := [rport []] } : State).ports, ∀ h ∈ p.held, h.asid ≠ 77) ∧ ∃ h ∈ (rport [(77, 4)]).held, h.asid = 77) ∧
    (let v : Invalidation := { id := 90, asid := 77, first := 4, count := some 1, request := some (req (77 * 65536) 0x4000 0x1000 0 0 0), ports := [2] }
     let s : State := { world with ports := [rport [(77, 4), (77, 5)]], invals := [v, { v with id := 91, ports := [2, 3] }] }
     s.port? 2 = some (rport [(77, 4), (77, 5)]) ∧ (s.invals.find? fun x => decide (x.id = 90)) = some v ∧ (s.invals.find? fun x => decide (x.id = 91)) = some { v with id := 91, ports := [2, 3] }) ∧
    (Clean (req (77 * 65536) 9 0 0 0 0) (field 31 16) (field 29 0) 0 0 0 0 ∧ Clean (req (77 * 65536 + 1) 9 0 0 0 0) (field 31 16 ||| 1) (field 29 0) 0 0 0 0 ∧ Clean (req (77 * 65536) 8 0 0 0 0) (field 31 16) (field 29 0) 0 0 0 0 ∧
      ((walking (walk 3 1 absent) 0xA0 3).walks.find? fun y => decide (y.asid = 77 ∧ y.phase = 3 ∧ y.index = 9)) = some (walk 3 1 absent) ∧ Parked (walking (walk 3 1 absent) 0xA0 3) (only parkedUnit) parkedUnit ∧
      ∀ w ∈ (walking (walk 3 1 absent) 0xA0 3).walks, ¬(w.asid = 77 ∧ w.phase = 3 ∧ w.index = 8)) :=
  ⟨⟨clean_of (by decide +kernel), clean_of (by decide +kernel), ⟨spaceOf world, by decide +kernel⟩, by decide +kernel, by decide +kernel⟩, by decide +kernel,
    clean_of (by decide +kernel), clean_of (by decide +kernel), clean_of (by decide +kernel), by decide +kernel, parked_of (by decide +kernel), by decide +kernel⟩

/-- Translation: PASIDs known and unknown; addresses in and outside the canonical range; a page that is there and one that is not. -/
theorem witness_RootPortRequests : (let s := { walking (walk 0 0 there) 0x20 18 with ports := [rport []] }
    s.port? 2 = some (rport []) ∧ (s.walkNow 77 (BitVec.ofNat 64 there) .read true).isSome ∧ (s.walkNow 77 (BitVec.ofNat 64 absent) .write true).isNone ∧ s.walkerFull 77 (absent / 4096) 0 = false ∧ 1 ∈ (rport []).ats ∧ 2 ∉ (rport []).ats) ∧
    ((rport []).pasids.find? fun x => decide (x.1 = 5)) = some (5, 77) ∧ ((rport []).pasids.find? fun x => decide (x.1 = 6)) = none ∧ (BitVec.ofNat 64 (2 ^ 56) : Word).toNat / 2 ^ 56 ≠ 0 := by decide +kernel

/-- A machine with only clusters 0 and 1 of a partition, and with the clusters of die 0 at step 20. -/
def stepped : State := { world with clusters := (List.range 32).map fun n => { clusterReset n with partition := if n < 2 then some 3 else none, step := 20, target := 20 } }

theorem creates_of {s : State} {r : Request} {n : Nat} {t : Bool} (h : (r.w1.toNat % 2 ^ 16 = n ∧ 1 ≤ n ∧ n ≤ 256) ∧ r.w1.getLsbD 16 = t ∧ r.w2.toNat % 32 ≤ 28 ∧ (r.w3.toNat % 256 = 255 ∨ r.w3.toNat % 256 < 8))
    (hc : Clean r (field 16 0) (if t then field 13 8 ||| field 4 0 else 0) (field 7 0) 0 0 0) : CreatesPartition s r n t := ⟨hc, h.1, h.2.1, h.2.2.1, h.2.2.2⟩

/-- ManagerObjects: creations of 1, 254 (all that are free) and 255 clusters, from any die and from die 7; timed ones that wait for their clusters and do not. -/
theorem witness_PartitionRequests :
    (CreatesPartition world (req 1 0 255 0 0 0) 1 false ∧ CreatesPartition world (req 254 0 7 0 0 0) 254 false ∧ CreatesPartition world (req 255 0 0 0 0 0) 255 false ∧
      CreatesPartition world (req (3 + 65536) (20 + 256 * 10) 0 0 0 0) 3 true) ∧
    ((takenClusters world (req 1 0 255 0 0 0) 1).length = 1 ∧ (takenClusters world (req 254 0 7 0 0 0) 254).length = 254 ∧ (takenClusters world (req 255 0 0 0 0 0) 255).length < 255 ∧
      (takenClusters world (req (3 + 65536) (20 + 256 * 10) 0 0 0 0) 3).length = 3 ∧ (∀ c ∈ takenClusters world (req (3 + 65536) (20 + 256 * 10) 0 0 0 0) 3, 10 + sharesOn world (c / 32) ≤ 64) ∧
      (∀ p ∈ world.partitions, p.creating = none) ∧ world.partitions.length ≤ 256 ∧ (∃ c ∈ takenClusters world (req (3 + 65536) (20 + 256 * 10) 0 0 0 0) 3, (world.cluster c).step < 20) ∧
      ∀ c ∈ takenClusters stepped (req (3 + 65536) (20 + 256 * 10) 0 0 0 0) 3, 20 ≤ (stepped.cluster c).step) :=
  ⟨⟨creates_of (by decide +kernel) (clean_of (by decide +kernel)), creates_of (by decide +kernel) (clean_of (by decide +kernel)), creates_of (by decide +kernel) (clean_of (by decide +kernel)),
    creates_of (by decide +kernel) (clean_of (by decide +kernel))⟩, by decide +kernel⟩

/-- ManagerObjects: a context that is created, one whose ASID is in use, and ones destroyed with and without queues. -/
theorem witness_ContextRequests :
    Clean (req (78 * 65536 + 3 * 2 ^ 32) (2 ^ 48 + 0x8000) 0 0 0 0) (field 47 16) (~~~0) 0 0 0 0 ∧ Clean (req (77 * 65536 + 3 * 2 ^ 32) (2 ^ 48 + 0x8000) 0 0 0 0) (field 47 16) (~~~0) 0 0 0 0 ∧
    Clean (req (77 * 65536 + 1) 0 0 0 0 0) (field 47 16 ||| 1) 0 0 0 0 0 ∧
    (world.partition? 3 = some part ∧ part.fn = 1 ∧ part.creating = none ∧ world.readableAt (2 ^ 48 + 0x8000) 64 = true ∧ world.context? 78 = none ∧ world.context? 77 = some context ∧ context.fn = 1 ∧
      (∃ q ∈ world.queues, q.asid = 77) ∧ (∀ q ∈ ({ world with queues := [] } : State).queues, q.asid ≠ 77) ∧
      (world.spaceBase.toNat + 64 * 78) % 64 = 0 ∧ world.spaceBase.toNat + 64 * 78 + 64 ≤ 2 ^ 41 ∧ world.epoch 0 ≠ 0) :=
  ⟨clean_of (by decide +kernel), clean_of (by decide +kernel), clean_of (by decide +kernel), by decide +kernel⟩

/-- The machine with a queue descriptor of QID `qid` at 0x4000, its ring of 2^log records. -/
def describing (qid log : Nat) (s : State) : State :=
  ({ s with mapped := [page 4 (2 ^ 48 + 0x4000) 1 0] }.pokes (2 ^ 48 + 0x4000) (valueBytes 8 0x7000 ++ valueBytes 8 (qid * 65536 + log * 2 ^ 32 + 0x4321 * 2 ^ 52) ++ valueBytes 8 5 ++ valueBytes 8 3 ++ valueBytes 8 0 ++ valueBytes 8 8))

/-- The leaf of page 4. -/
def leaf4 : Leaf := { frame := 2 ^ 48 + 0x4000, r := true, w := true, x := true, p := false, ord := 1, key := 0 }

theorem good_of {s : State} {l : Leaf} {va : Word} {t : Bool} (h : (descAt s l va 0).toNat % 64 = 0 ∧ (1 ≤ (descAt s l va 1).toNat / 2 ^ 32 % 32 ∧ (descAt s l va 1).toNat / 2 ^ 32 % 32 ≤ 16) ∧
    (descAt s l va 1).getLsbD 0 = t ∧ (descAt s l va 1).toNat / 2 % 2 ^ 15 = 0 ∧ (descAt s l va 1).toNat / 2 ^ 37 % 2 ^ 15 = 0 ∧ descAt s l va 7 = 0) : GoodDescriptor s l va t :=
  ⟨h.1, h.2.1, h.2.2.1, h.2.2.2⟩

/-- ManagerObjects: a queue that is created, with rings of the least and the most records, one whose QID is in use, and ones that may and may not be destroyed. -/
theorem witness_QueueRequests :
    (∀ log ∈ [1, 16], (describing 9 log world).walkNow 77 0x4000 .write true = some leaf4 ∧ (describing 9 log world).queue? 9 = none ∧ (descAt (describing 9 log world) leaf4 0x4000 1).toNat / 2 ^ 16 % 2 ^ 16 = 9) ∧
    (Clean (req (77 * 65536 + 3 * 2 ^ 32) 0x4000 0x123456789A 0 0 0) (field 47 16) (~~~0) (field 39 0) 0 0 0 ∧ Owns (describing 9 16 world) (req (77 * 65536 + 3 * 2 ^ 32) 0x4000 0 0 0 0) context part ∧
      context.partition = part.id ∧ part.timed = false ∧ GoodDescriptor (describing 9 1 world) leaf4 0x4000 false ∧ GoodDescriptor (describing 9 16 world) leaf4 0x4000 false ∧
      GoodDescriptor (describing 7 16 world) leaf4 0x4000 false ∧ (describing 7 16 world).queue? 7 = some queue ∧ (descAt (describing 7 16 world) leaf4 0x4000 1).toNat / 2 ^ 16 % 2 ^ 16 = 7) ∧
    (Clean (req (7 * 2 ^ 48 + 3 * 2 ^ 32 + 77 * 65536 + 1) 0x6000 0 0 0 0) (field 63 16 ||| 1) (~~~0) (field 39 0) 0 0 0 ∧ world.queue? 7 = some queue ∧ queue.records = [] ∧ queue.state ≠ 3 ∧ queue.state ≠ 5 ∧
      erred.records ≠ [] ∧ ({ world with queues := [erred] } : State).queue? 7 = some erred) :=
  ⟨by decide +kernel, ⟨clean_of (by decide +kernel), ⟨by decide +kernel, by decide +kernel⟩, by decide +kernel, by decide, good_of (by decide +kernel), good_of (by decide +kernel), good_of (by decide +kernel),
    by decide +kernel, by decide +kernel⟩, clean_of (by decide +kernel), by decide +kernel⟩

/-- An image of one section of code of one kind of words, whose format version is `fmaj`, without its hallmark; its hallmark under key 5; and the key, the public key of the private key 3. -/
def image (fmaj : Nat) : List Byte :=
  wordsBytes ([0x004E454854495554, BitVec.ofNat 64 (fmaj + 2 ^ 48), 0, 512, 384, 0, 7] ++ List.replicate 25 0 ++ [0xC01, 320, 64, 64] ++ List.replicate 12 0)

def hallmark (keyid r s : Nat) : List Byte := valueBytes 2 keyid ++ List.replicate 14 0 ++ bigBytes 48 r ++ bigBytes 48 s ++ List.replicate 16 0

def imageKey : PubKey := { id := 5, x := 0x77A41D4606FFA1464793C7E5FDC7D98CB9D3910202DCD06BEA4F240D3566DA6B408BBAE5026580D02D7E5C70500C831, y := 0xC995F7CA0B0C42837D0BBE9602A9FC998520B41C85115AA5F7684C0EDC111EACC24ABD6BE4B5D298B65F28600A2F1DF1, revoked := false, firmware := false, floor := 0 }

/-- Images, their signatures made outside Lean: one that passes, one of format version 2, one under an unknown key, and one with a wrong signature. -/
def signed : List Byte := image 1 ++ hallmark 5 0x11DE24A2C251C777573CAC5EA025E467F208E51DBFF98FC54F6661CBE56583B037882F4A1CA297E60ABCDBC3836D84BC 0xA88F73563D3C58EA27FAA39462E28BA11D0207398DA390C593CC0E1BAF4BF84F6D0E68485E25757C855F40E395D5FEDE

def later : List Byte := image 2 ++ hallmark 5 0x11DE24A2C251C777573CAC5EA025E467F208E51DBFF98FC54F6661CBE56583B037882F4A1CA297E60ABCDBC3836D84BC 0x17FC2512CB1EBD2DFA71B8EFDE4B9F0A542317162DC647A75B2F39230218A99CB6CEAB769555EA78AAF48BCB4EA05520

def unknownKey : List Byte := image 1 ++ hallmark 6 0x11DE24A2C251C777573CAC5EA025E467F208E51DBFF98FC54F6661CBE56583B037882F4A1CA297E60ABCDBC3836D84BC 0xA88F73563D3C58EA27FAA39462E28BA11D0207398DA390C593CC0E1BAF4BF84F6D0E68485E25757C855F40E395D5FEDE

def forged : List Byte := image 1 ++ hallmark 5 0x11DE24A2C251C777573CAC5EA025E467F208E51DBFF98FC54F6661CBE56583B037882F4A1CA297E60ABCDBC3836D84BC 0x17FC2512CB1EBD2DFA71B8EFDE4B9F0A542317162DC647A75B2F39230218A99CB6CEAB769555EA78AAF48BCB4EA05520

/-- The machine with the key, and with the image whose bytes stand at 0x20000 in host memory. -/
def loading : State := { world with keys := [imageKey] }

theorem test_hallmark_passes : loading.hallmarkFault signed = none := by decide +kernel

theorem test_hallmark_forged : loading.hallmarkFault forged = some 3 := by decide +kernel

/-- ImageLoads: the request, and what each check says of each image. -/
theorem witness_ImageLoads :
    Clean (req (77 * 65536) (2 ^ 48 + 0x20000) 512 0 0 0) (field 31 16) (~~~0) (~~~0) 0 0 (~~~0) ∧ loading.context? 77 = some context ∧ loading.partition? context.partition = some part ∧ loading.readableAt (2 ^ 48 + 0x20000) 512 = true ∧
    structureFault (bytesWords 64 (List.replicate 512 (0 : Byte))) 512 = some 0xFFFF ∧ structureFault (bytesWords 64 signed) 512 = none ∧ structureFault (bytesWords 64 later) 512 = none ∧
    structureFault (bytesWords 64 unknownKey) 512 = none ∧ loading.hallmarkFault unknownKey = some 2 ∧ loading.hallmarkFault later = none ∧ loading.assay context (bytesWords 64 later) later = some 4 ∧
    loading.assay context (bytesWords 64 signed) signed = none :=
  ⟨clean_of (by decide +kernel), by decide +kernel⟩

/-- The image that passes stands in memory. -/
theorem witness_ImageLoads_bytes : ({ loading with mem := ((signed.zipIdx.filter fun x => decide (x.1 ≠ 0)).map fun x => (2 ^ 48 + 0x20000 + x.2, x.1)) } : State).homeBytes 0 (2 ^ 48 + 0x20000) 512 = signed := by decide +kernel

/-- A model's table of one layer at 0x4000, its residency word at 0x4800. -/
def registering : State :=
  { world with mapped := [page 4 (2 ^ 48 + 0x4000) 1 0] }.pokes (2 ^ 48 + 0x4010) (valueBytes 8 0x100000)

/-- GridAndModelRequests: a model of one layer; a stop of a process; pre-emption and restore of grids. -/
theorem witness_GridAndModelRequests :
    (Clean (req (7 * 2 ^ 48) 5 99 0 0 0) (field 63 48) (~~~0) (~~~0) 0 0 0 ∧ Clean (req (7 * 2 ^ 48 + 1) 5 99 0 0 0) (field 63 48 ||| 1) (~~~0) (~~~0) 0 0 0 ∧ Clean (req (9 + 2 ^ 32) 0 0 0 0 0) (field 32 32 ||| field 23 0) 0 0 0 0 0) ∧
    (world.queue? 7 = some queue ∧ queue.fn = 1 ∧ (world.grids.filter fun k => decide (k.qid = 7) && decide (k.pos = 5) && !k.ended && !k.preempted) = [grid] ∧
      (world.grids.filter fun k => decide (k.qid = 7) && decide (k.pos = 6) && !k.ended && !k.preempted) = []) ∧
    (let f := { fetched 5 2 none with kept := true }
     let h := { fetched 6 2 none with record := [BitVec.ofNat 64 (2 * 2 ^ 60 + 2 ^ 57), 0, 0, 0, 0, 0, 0, 9], depMet := false }
     let q := { queue with records := [f, h], fetchedCount := 7 }
     (q.records.find? fun y => decide (y.pos = 5)) = some f ∧ f.status = none ∧ f.kept = true ∧ (q.records.find? fun y => decide (y.pos = 6)) = some h ∧ h.kept = false ∧ (wordAt h.record 0).getLsbD 57 = true ∧ h.depMet = false ∧
       (∀ y ∈ q.restores, y.1 ≠ 6) ∧ (∀ f ∈ q.records, f.pos ≠ 7) ∧ q.fetchedCount ≤ 7 ∧ (∀ f ∈ q.records, f.pos ≠ 4) ∧ 4 < q.fetchedCount) ∧
    (let r := req (77 * 65536 + 2 ^ 32 + 2 ^ 48) 0x4000 0x4800 0 0x200000 (1 : Nat)
     let bs := (registering.readRange 77 r.w2 64).getD []
     let entries := (List.range 1).map fun i => (bytesWords 8 ((bs.drop (64 * i)).take 64), i)
     Clean r (field 55 16) (~~~0) (~~~0) (~~~0) (~~~0) (field 47 0) ∧ registering.context? 77 = some context ∧ registering.readRange 77 r.w2 64 = some bs ∧ (registering.tableLayers 77 r.w3 entries).isSome ∧
       (∀ e ∈ entries, layerEntryOk e.1 0 = true) ∧ ((registering.tableLayers 77 r.w3 entries).map weightsApart) = some true) :=
  ⟨⟨clean_of (by decide +kernel), clean_of (by decide +kernel), clean_of (by decide +kernel)⟩, by decide +kernel, by decide +kernel, clean_of (by decide +kernel), by decide +kernel⟩

/-! ### Resets, device registers and what stands outside -/

/-- A queue with two covered records, one of which says RST, and one that is not covered; and the run that resets it. -/
def resetting : Queue :=
  { queue with state := 5, records := [{ fetched 5 1 none with hit := true }, { fetched 6 1 none with hit := true, record := [BitVec.ofNat 64 (2 ^ 60 + 2 ^ 58), 0, 0, 0, 0, 0, 0, 0] }, fetched 7 1 (some 0)] }

def rungRun (r : Rung) (queues : List Nat) (requests : List Request) : RungRun := { id := 80, rung := r, queues := queues, requests := requests }

/-- ResetLadder: each request with its operands, a task that an engine loses, and the ends of rungs with and without a queue. -/
theorem witness_ResetRungs :
    (world.queues.map (·.qid)).Nodup ∧ (Clean (req 0 7 0 0 0 0) 0 (field 15 0) 0 0 0 0 ∧ Clean (req 1 262143 0 0 0 0) 1 (field 17 0) 0 0 0 0 ∧ Clean (req 2 3 0 0 0 0) 2 (~~~0) 0 0 0 0 ∧ Clean (req 3 7 0 0 0 0) 3 (~~~0) 0 0 0 0 ∧ Clean (req 4 1 0 0 0 0) 4 (~~~0) 0 0 0 0) ∧
    (world.rungs = [] ∧ (req 0 7 0 0 0 0).slot = some 4 ∧ world.queue? 7 = some queue ∧ (world.queues.filter fun y => decide (y.qid = 7)) = [queue] ∧ world.partition? 3 = some part ∧ part.fn = 1) ∧
    (let s := world.setCore { coreReset 0 with engines := #v[none, some (task 11)] }
     (s.core 0).engines[1024 / 1024 % 2]? = some (some (task 11)) ∧ 1024 / 8 % 4 = 0 ∧ 0 = 16 * (32 * (1024 % 8) + 1024 / 32 % 32) + 1024 / 2048 % 16) ∧
    (let s := { world with rungs := [rungRun (.partition 3) [] []] }
     (s.rungs.find? fun r => decide (r.id = 80)) = some (rungRun (.partition 3) [] [])) ∧
    (let s := { world with rungs := [rungRun (.fence (.page 3)) [] []] }
     (s.rungs.find? fun r => decide (r.id = 80)) = some (rungRun (.fence (.page 3)) [] [])) ∧
    (let run := rungRun (.queue 7) [7] [req 0 7 0 0 0 0]
     let s := { world with rungs := [run], queues := [resetting] }
     (s.rungs.find? fun r => decide (r.id = 80)) = some run ∧ s.queue? 7 = some resetting ∧ (∀ x ∈ s.rungs, x.id ≠ run.id → 7 ∉ x.queues) ∧ (s.queues.filter fun y => decide (y.qid = 7)) = [resetting]) :=
  ⟨by decide +kernel, ⟨clean_of (by decide +kernel), clean_of (by decide +kernel), clean_of (by decide +kernel), clean_of (by decide +kernel), clean_of (by decide +kernel)⟩, by decide +kernel, by decide +kernel, by decide +kernel, by decide +kernel, by decide +kernel⟩

/-- Containment and PowerOn: a core and a cluster that are and are not fenced; the request of a whole-device reset. -/
theorem witness_Containment_PowerOn :
    ((world.core 4095).fenced = false ∧ ((world.setCore { coreReset 4095 with fenced := true }).core 4095).fenced = true ∧ (world.cluster 255).fenced = false ∧
      ((world.setCluster { clusterReset 255 with fenced := true }).cluster 255).fenced = true ∧ world.rungs = []) ∧
    Clean { req 5 0 0 0 0 0 with fn := 0 } 5 0 0 0 0 0 ∧ ({ req 5 0 0 0 0 0 with fn := 0 } : Request).w1 = 5 ∧ ({ req 5 0 0 0 0 0 with fn := 0 } : Request).fn = 0 :=
  ⟨by decide +kernel, clean_of (by decide +kernel), by decide, rfl⟩

/-- A message of one byte that key 0 of the test has signed, and one that it has not. -/
def message (a : ProvisionAction) (sig : Nat) : ProvisionMsg := { action := a, bytes := [1], sigR := 0x11DE24A2C251C777573CAC5EA025E467F208E51DBFF98FC54F6661CBE56583B037882F4A1CA297E60ABCDBC3836D84BC, sigS := sig }

/-- The machine whose key 0 is the public key of the private key 3, with key 5 revoked and at floor 9. -/
def provisioned : State := { world with keys := [{ imageKey with id := 0 }, { imageKey with revoked := true, floor := 9 }] }

theorem test_provisioning_signature : ecdsaOk imageKey.x imageKey.y [1] 0x11DE24A2C251C777573CAC5EA025E467F208E51DBFF98FC54F6661CBE56583B037882F4A1CA297E60ABCDBC3836D84BC 0x5A27DE145C622471236F696CDF188BC534E8BB7EBB39830BA3ED67DDED88F816B84FF32403DE27419EE78DED5A4EFEB3 = true := by decide +kernel

/-- DeviceRegisters: rings enabled and not, with LOG2 at each bound; clusters of a bulk and of a timed partition. -/
theorem witness_DeviceRegisters :
    ((world.setFunc { funcReset 64 with en := true }).func 64).en = true ∧ (world.func 0).en = false ∧ ([0x20, 0x21, 0x30, 0x31].all fun v : Word => v.getLsbD 5) = true ∧
    world.timedPartition 255 = none ∧ ({ world with partitions := [{ part with timed := true }] } : State).timedPartition 1 ≠ none := by decide +kernel

/-- DeviceRegisters: bases and comparators. -/
theorem witness_DeviceRegisters_values : (0xFFFFF000 : Word).toNat % 4096 = 0 ∧ (0x01FFFFFFFFFFFFFC : Word).toNat / 2 ^ 57 % 32 = 0 ∧ (0x01FFFFFFFFFFFFFC : Word).toNat % 4 = 0 ∧
    (0x0200000000000000 : Word).toNat / 2 ^ 57 % 32 ≠ 0 ∧ (0xFFFF0000FFFFFFFF : Word).toNat / 2 ^ 32 % 65536 = 0 := by decide +kernel

/-- DeviceRegisters: keys and actions. -/
theorem witness_DeviceRegisters_keys : provisioned.key? 0 = some { imageKey with id := 0 } ∧ provisioned.key? 5 = some { imageKey with revoked := true, floor := 9 } ∧ provisioned.key? 15 = none := by decide +kernel

theorem witness_DeviceRegisters_actions : (∀ a ∈ [ProvisionAction.setKey 15 1 2, .setKey 1 1 2, .revoke 5, .setFirmwareFlag 5 true, .raiseFloor 5 10], 1 ≤ actionKey a ∧ actionKey a ≤ 15) ∧
    ¬1 ≤ actionKey (.revoke 0) := by decide +kernel

/-- OutsideTraffic: posted writes within a sector and across two, to host memory and to module HBM; reads of good and of bad data; devices with and without an ASID and a leaf; a port. -/
theorem witness_OutsideTraffic :
    (∀ n ∈ [4, 8], (0x10000 : Nat) % n = 0 ∧ 0x10000 + n ≤ 2 ^ 41 ∧ bytesValue (world.homeBytes 0 0x10000 n) ≠ 1 + bytesValue (world.homeBytes 0 0x10000 n)) ∧
    (physOk (2 ^ 48 + 0x11F) = true ∧ (2 ^ 48 + 0x11F) % 32 + 1 ≤ 32 ∧ physOk 0x10000 = true ∧ (∀ i ∈ List.range 33, physOk (2 ^ 48 + 0x11F + i) = true) ∧ (world.poisoned 0x10000).isNone) ∧
    ((({ world with poison := [.page (0x10000 / 4096)] } : State).poisoned 0x10000).isSome) ∧
    (let p := { rport [] with default := some 77 }
     let s := { world with ports := [p], mapped := [page 4 (2 ^ 48 + 0x4000) 1 0] }
     s.port? 2 = some p ∧ p.default = some 77 ∧ (p.pasids.find? fun x => decide (x.1 = 6)) = none ∧ s.walkNow 77 0x4000 .write true = some leaf4 ∧ (s.walkNow 77 0x9000 .write true).isNone) ∧
    (∀ l ∈ [({ port := 3, down := false, expect := 7, unacked := [], replays := 0, acked := [] } : LinkPort), { port := 3, down := false, expect := 0xFFFF, unacked := [], replays := 8, acked := [] },
        { port := 3, down := true, expect := 7, unacked := [], replays := 0, acked := [] }], ({ world with links := [l] } : State).link? 3 = some l) := by decide +kernel

/-- A hart whose caches are empty, and the machine with its pages: page 1 in host memory, page 2 in module HBM, page 3 there on a device page. -/
def hart : Hart := { num := 4, asid := 77, pid := 0, thread := 0, halted := false, cache := [], reserved := none, lastLoad := 0 }

def harted : State := { world with harts := [hart], mapped := [page 1 (2 ^ 48 + 0x1000) 1 0, page 2 0x5000 1 1, page 3 0x6000 0 1] }

/-- SystemCores: pages of each kind, and a page that is not there. -/
theorem witness_SystemCores :
    harted.hart? 4 = some hart ∧ (let s1 := ((harted.hartDrift hart).1).setHart (harted.hartDrift hart).2
     (harted.hartDrift hart).2 = hart ∧
     (∀ x ∈ [((0x1004 : Word), 2 ^ 48 + 0x1000, 1), (0x2018, 0x5000, 1), (0x3004, 0x6000, 0)], ∀ a ∈ [Access.read, .write, .atomic], (s1.walkNow 77 x.1 a true).map (fun l => (l.frame, l.ord)) = some (x.2.1, x.2.2)) ∧
     (s1.walkNow 77 0x5000 .read true).isNone ∧ (s1.walkNow 77 0x5000 .write true).isNone ∧ (s1.poisoned 0x5018).isNone ∧ (s1.poisoned (2 ^ 48 + 0x1004)).isNone ∧ (s1.poisoned 0x6004).isNone) := by decide +kernel

/-! ### Queue threads -/

/-- A queue whose ring of 16 records lies at 0x4000, its descriptor words as given, with other queues beside it; words at 0x4100 on. -/
def ringed (q : Queue) (widx : Nat) (others : List Queue) (ws : List (Nat × Nat)) : State :=
  let s : State := { world with queues := q :: others, mapped := [page 4 (2 ^ 48 + 0x4000) 1 0] }
  ([(0x8000, 0x4000), (0x8008, 7 * 2 ^ 16 + 4 * 2 ^ 32 + 2 * 2 ^ 60), (0x8010, widx), (0x8018, 3), (0x8020, 0x4800)] ++ ws).foldl (fun (s : State) (x : Nat × Nat) => s.pokes (2 ^ 48 + x.1) (valueBytes 8 x.2)) s

def neighbour : Queue := { queue with qid := 8, thread := some (0, 0), state := 1, desc := 2 ^ 48 + 0x8100 }

/-- QueueThreads: a queue without a thread in each state of which it may be mapped, beside none and beside one that holds the lowest thread; no record left, and one. -/
theorem witness_QueueMapping_map : ∀ st ∈ [0, 1, 2], let q := { queue with thread := none, state := st }
    (ringed q 6 [neighbour] []).queue? 7 = some q ∧ q.fetchedCount < (descOf (ringed q 6 [neighbour] []) q 2).toNat ∧ ¬q.fetchedCount < (descOf (ringed q 5 [] []) q 2).toNat ∧ (ringed q 6 [neighbour] []).partition? 3 = some part ∧
    (∀ y ∈ (ringed q 6 [neighbour] []).queues, y.thread ≠ some (0, 1)) ∧ (∀ t' ∈ List.range 1, ∃ y ∈ (ringed q 6 [neighbour] []).queues, y.thread = some (0, t')) ∧ (∀ y ∈ (ringed q 6 [] []).queues, y.thread ≠ some (0, 0)) := by decide +kernel

/-- A record that waits for the word at 0x4900. -/
def dependent : Fetched := { fetched 4 2 none with record := [BitVec.ofNat 64 (2 ^ 61), 0, 0, 0, 0, 0x4900, 77, 0], depMet := false, pushed := false, admittedOk := false }

/-- QueueThreads: an idle queue whose packet is not yet armed, one whose packet has held, and one whose packet a write of its sector tests; a dependence before its
packet is armed, whose word is DEPVAL and one below it, and after its packet has held. -/
theorem witness_QueueMapping_wait : (∀ x ∈ [none, some { armedFor world (queue.descVa + 16) 5 (queue.desc + 16) 0 none with met := true }, some { armedFor world (queue.descVa + 16) 5 (queue.desc + 16) 0 none with met := false }],
    let q := { queue with thread := some (0, 3), state := 1, packet := x }
    (ringed q 6 [neighbour] []).queue? 7 = some q ∧ (∀ y ∈ (ringed q 6 [neighbour] []).queues, y.thread = some (0, 3) → y = q) ∧ q ∈ (ringed q 6 [neighbour] []).queues ∧
      q.fetchedCount < (descOf (ringed q 6 [neighbour] []) q 2).toNat ∧ (q.records.find? fun r => decide (r.status = none) && !r.depMet) = none) ∧
    (let q := { queue with thread := some (0, 31), records := [dependent], packet := some { armedFor world 0x4900 77 (2 ^ 48 + 0x4900) 0 (some 4) with met := true } }
     (ringed q 5 [] []).queue? 7 = some q ∧ q.state = 2 ∧ dependent.pos = 4 ∧ (q.records.find? fun r => decide (r.status = none) && !r.depMet) = some dependent) ∧
    (∀ v ∈ [77, 76], let q := { queue with thread := some (0, 31), records := [dependent] }
      let s := ringed q 5 [] [(0x4900, v)]
      (q.records.find? fun r => decide (r.status = none) && !r.depMet) = some dependent ∧ (wordAt dependent.record 0).getLsbD 57 = false ∧ wordAt dependent.record 5 ≠ 0 ∧ s.walkNow 77 (wordAt dependent.record 5) .read true = some leaf4 ∧
        (s.poisoned (leafAddr leaf4 (wordAt dependent.record 5).toNat)).isNone ∧ bytesValue (s.homeBytes leaf4.key (leafAddr leaf4 (wordAt dependent.record 5).toNat) 8) = v) := by decide +kernel

theorem fetches_of {s : State} {q : Queue} (h : s.queue? q.qid = some q ∧ (q.state = 2 ∧ q.thread ≠ none ∧ s.rungs = []) ∧ q.fetchedCount < (descOf s q 2).toNat ∧ q.records.length < 16 ∧
    ∀ f ∈ q.records, f.pos ≠ q.fetchedCount ∧ (f.status ≠ none ∨ f.kept = true ∨ (if q.timed then f.admittedOk else f.pushed) = true) ∧ (f.status ≠ none ∨ f.depMet = true)) : Fetches s q := ⟨h.1, h.2.1, h.2.2.1, h.2.2.2.1, h.2.2.2.2⟩

/-- A queue that fetches its record 5, whose word 0 is `w0` and whose word 5 is `dep`. -/
def fetcher : Queue := { queue with records := [fetched 4 2 none] }

def fetching (w0 dep : Nat) : State := ringed fetcher 7 [] [(0x4140, w0), (0x4148, 0x100), (0x4150, 5), (0x4168, dep)]

/-- QueueThreads: a FENCE record, a CONT record without and with a dependence, a record of KIND 3 and one that says TIMED. -/
theorem witness_RecordFetch :
    Fetches (fetching 0 0) fetcher ∧ Fetches (fetching (2 ^ 61 + 255 * 2 ^ 46) 0) fetcher ∧ Fetches (fetching (2 ^ 61 + 255 * 2 ^ 46) 0x4900) fetcher ∧ Fetches (fetching (3 * 2 ^ 60) 0) fetcher ∧ Fetches (fetching (2 ^ 59) 0) fetcher ∧
    (∀ x ∈ [(0, 0), (2 ^ 61 + 255 * 2 ^ 46, 0), (2 ^ 61 + 255 * 2 ^ 46, 0x4900)], ((fetching x.1 x.2).readRecord fetcher 5).isRight = true ∧ fetcher.fetchedCount + 1 < (descOf (fetching x.1 x.2) fetcher 2).toNat) ∧
    (∀ x ∈ [3 * 2 ^ 60, 2 ^ 59], ((fetching x 0).readRecord fetcher 5).isLeft = true ∧ ((fetching x 0).readRange 77 (slotOf (fetching x 0) fetcher 5) 64).isSome) ∧ fetcher.records ≠ [] ∧ (∀ f ∈ fetcher.records, f.pos < fetcher.fetchedCount) :=
  ⟨fetches_of (by decide +kernel), fetches_of (by decide +kernel), fetches_of (by decide +kernel), fetches_of (by decide +kernel), fetches_of (by decide +kernel), by decide +kernel⟩

/-- QueueThreads: a queue whose written records are all fetched, its thread's packet armed. -/
theorem witness_RecordFetch_idle : let q := { queue with thread := some (0, 3), records := [fetched 4 2 none], packet := some (armedFor world (queue.descVa + 16) 5 (queue.desc + 16) 0 none) }
    (ringed q 5 [] []).queue? 7 = some q ∧ q.state = 2 ∧ (descOf (ringed q 5 [] []) q 2).toNat ≤ q.fetchedCount ∧ (∀ f ∈ q.records, f.status ≠ none ∨ f.pushed = true) ∧ q.timed = false ∧ q.packet ≠ none := by decide +kernel

/-- QueueThreads: a CONT record and a LAUNCH record for the partition's last cluster, its pool one entry below its 256. -/
theorem witness_PoolPushes : ∀ kind ∈ [1, 2],
    let f := { fetched 4 kind none with record := [BitVec.ofNat 64 (kind * 2 ^ 60 + 3 * 2 ^ 54 + 2 ^ 46), 44, 0, 0, 0, 0, 77, 0], pushed := false }
    let q := { queue with records := [fetched 3 2 (some 0), f] }
    let s := { world with queues := [q], clusters := [{ clusterReset 1 with partition := some 3, pool := List.replicate 255 (3, .cont []) }] }
    s.queue? 7 = some q ∧ q.timed = false ∧ q.state ≠ 5 ∧ s.partition? 3 = some part ∧ (q.records.filter fun r => decide (r.status = none) && r.admittedOk && !r.pushed && !r.kept).head? = some f ∧
      (wordAt f.record 0).toNat / 2 ^ 46 % 256 ≠ 255 ∧ part.clusters[(wordAt f.record 0).toNat / 2 ^ 46 % 256]? = some 1 ∧ (s.cluster 1).fenced = false ∧ ((s.cluster 1).pool.filter fun e => decide (e.1 = 3)).length = 255 := by decide +kernel

theorem touches_of {s : State} {q : Queue} {va : Word} {c : Access} {l : Leaf} (h : s.walkNow q.asid va c true = some l ∧ l.ord ≠ 2 ∧ (s.poisoned (leafAddr l va.toNat)).isNone ∧ va.toNat / 4096 ∉ q.walkFault) :
    Touches s q va c l := h

/-- QueueThreads: a complete CONT record whose signal word is its queue's and one whose signal word is its own; the last record in the ring and not. -/
theorem witness_Retirements : ∀ sig ∈ [0, 0x4808], ∀ widx ∈ [5, 6],
    let f := { fetched 4 2 (some 3) with record := [BitVec.ofNat 64 (2 ^ 61), 44, 0, 0, BitVec.ofNat 64 sig, 0, 77, 15] }
    let q := { queue with records := [f] }
    let s := ringed q widx [] []
    let sg := if wordAt f.record 4 = 0 then descOf s q 4 else wordAt f.record 4
    let s1 := s.storeHome 0 (leafAddr leaf4 (slotOf s q 4).toNat) [BitVec.ofNat 8 (bytesValue (s.homeBytes 0 (leafAddr leaf4 (slotOf s q 4).toNat) 1) % 16 + 16 * 3)]
    q.packet = none ∧ descOf s1 q 4 = descOf s q 4 ∧ s.portDown q.desc = false ∧ s1.walkNow 77 sg .atomic true = some leaf4 ∧ (s1.poisoned (leafAddr leaf4 sg.toNat)).isNone ∧ sg.toNat / 4096 ∉ q.walkFault ∧
    s.queue? 7 = some q ∧ q.records = [f] ∧ f.status = some 3 ∧ (∀ w ∈ s.walks, Waiter.queue 7 ∉ w.waiters) ∧ s.partition? 3 = some part ∧ (∀ a ∈ part.admitted, a.qid ≠ 7) ∧ (wordAt f.record 0).toNat / 2 ^ 60 ≠ 1 ∧ wordAt f.record 3 = 0 ∧
      sg.toNat % 8 = 0 ∧ Touches s q (slotOf s q 4) .write leaf4 ∧ Touches s q sg .atomic leaf4 := by
  intro sig hs widx hw
  simp only [List.mem_cons, List.not_mem_nil, or_false] at hs hw
  rcases hs with rfl | rfl <;> rcases hw with rfl | rfl <;>
    exact ⟨rfl, by decide +kernel, by decide +kernel, by decide +kernel, by decide +kernel, by decide +kernel, by decide +kernel, rfl, rfl, by decide +kernel, by decide +kernel, by decide +kernel, by decide +kernel, by decide +kernel, by decide +kernel, touches_of (by decide +kernel), touches_of (by decide +kernel)⟩

/-! ### Sequencers, placer, engines and pre-emption -/

/-- A record for the group: kind, sequence number, with decision values 1 and 5. -/
def record (kind seq : Nat) : BitVec 512 := withSeq (mkRecord kind 2 0x1000 0x1040 0x22 (Vector.ofFn fun i => BitVec.ofNat 64 (100 + i.val))) (BitVec.ofNat 24 seq)

/-- The group whose unit has completed its segment, with that record first in its queue; it expects number 7. -/
def idle (r : BitVec 512) : Group := { only { unit with wait := .segmentDone } with nextSeq := 7, queue := [r, record 0 8] }

def idling (r : BitVec 512) : State := { having (idle r) with sel := none }

theorem waitsFor_of {s : State} {g : Group} {r : BitVec 512} {rest : List (BitVec 512)} (h : s.group? g.id = some g ∧ (g.trap.tmode = false ∧ g.async = [] ∧ g.draining = none) ∧ (g.units ≠ [] ∧ ∀ u ∈ g.units, u.wait = .segmentDone) ∧
    g.queue = r :: rest) : WaitsFor s g r rest := ⟨h.1, h.2.1, h.2.2.1, h.2.2.2⟩

/-- SequencerRecords: the expected record, END, an older number up to the oldest, a later number up to the latest, and a record whose reserved bit is set; a context's record. -/
theorem witness_RecordTaking :
    WaitsFor (idling (record 0 7)) (idle (record 0 7)) (record 0 7) [record 0 8] ∧ WaitsFor (idling (record 1 7)) (idle (record 1 7)) (record 1 7) [record 0 8] ∧ WaitsFor (idling (record 0 6)) (idle (record 0 6)) (record 0 6) [record 0 8] ∧
    WaitsFor (idling (record 0 8)) (idle (record 0 8)) (record 0 8) [record 0 8] ∧ WaitsFor (idling (record 0 7 ||| 1 <<< 65)) (idle (record 0 7 ||| 1 <<< 65)) (record 0 7 ||| 1 <<< 65) [record 0 8] ∧ Apart (idle (record 0 8)) ∧
    (recordOk (record 0 7) = true ∧ recordOk (record 1 7) = true ∧ recordOk (record 0 7 ||| 1 <<< 65) = false ∧ ((record 0 7).extractLsb' 62 2).toNat = 0 ∧ ((record 1 7).extractLsb' 62 2).toNat = 1 ∧
      (∀ n ∈ [6, 7 + 2 ^ 23], 2 ^ 23 ≤ ((record 0 n).extractLsb' 104 24 - (7 : BitVec 24)).toNat) ∧ ∀ n ∈ [8, 6 + 2 ^ 23], (record 0 n).extractLsb' 104 24 ≠ 7 ∧ ((record 0 n).extractLsb' 104 24 - (7 : BitVec 24)).toNat < 2 ^ 23) ∧
    (let c := { bctx with queue := [record 0 7], nextSeq := 7, state := .needRecord }
     ({ world with ctxs := [c] } : State).ctx? 60 = some c ∧ c.frozen = false) :=
  ⟨waitsFor_of (by decide +kernel), waitsFor_of (by decide +kernel), waitsFor_of (by decide +kernel), waitsFor_of (by decide +kernel), waitsFor_of (by decide +kernel), apart_of (by decide +kernel), by decide +kernel, by decide +kernel⟩

/-- A context at the end of its segment that has and has not scanned words, and the machine with it. -/
def atEndCtx (start : Word) : Ctx := { bctx with pc := 0x1104, start := start, sdv := 9, logging := true, log := [] }

def emitting (c : Ctx) : State := { world with ctxs := [c], sel := none }

/-- A context at a word in memory. -/
def scans (i : Instr) : State := (emitting bctx).pokes (2 ^ 48 + 0x1000) (valueBytes 4 ((encodeNat i).getD 0))

/-- What stands at the context's PC. -/
def stands (s : State) (f : Standing → Bool) : Bool :=
  match s.standing bctx with
  | .inr x => f x
  | .inl _ => false

/-- SequencerRecords: emissions of nothing and of a segment; a word of the context's own and one of another scope that has no meaning for it. -/
theorem witness_Emissions :
    (∀ n ∈ [0x1104, 0x1000], let c := atEndCtx (BitVec.ofNat 64 n)
      (emitting c).ctx? 60 = some c ∧ (emitting c).canScan c = true ∧ (emitting c).lagging c = none ∧ c.atEnd = true ∧ c.links = [{ dest := .group 11, key := 0, seq := 0, behind := 0 }] ∧ (emitting c).group? 11 = some group) ∧
    ((scans (.jmp 0 2 3)).ctx? 60 = some bctx ∧ (scans (.jmp 0 2 3)).canScan bctx = true ∧ (scans (.jmp 0 2 3)).lagging bctx = none ∧ bctx.atEnd = false ∧ bctx.start = bctx.pc ∧
      stands (scans (.jmp 0 2 3)) (fun x => decide (x.cls = .own) && decide (x.word = some (.jmp 0 2 3))) = true ∧
      stands (scans (.jmp 0 3 3)) (fun x => decide (x.cls = .foreign) && decide ((x.pc + 4 - bctx.start).toNat ≤ 2 ^ 26)) = true) := by decide +kernel

/-- Two groups that stand at a joint word with values 7 and `v`, and the context above them. -/
def joinMember (n : Nat) (v : Word) (i : Instr) : Group := { only { unit with wait := .joint } with id := 11 + n, index := n, slot := n, sregs := group.sregs.setIfInBounds 7 v, nextSeq := 0, segment := .upTo 0x1000 0x1000, queue := [], async := [],
                                                                                                              tokFaults := [], pending := if i = .nop 0 then 1 else 0 }

def jointCtx (i : Instr) : Ctx := { bctx with state := .atJoint, joint := some (i, 0x1000), parties := [.group 11, .group 12], links := [{ dest := .group 11, key := 0, seq := 0, behind := 0 }, { dest := .group 12, key := 1, seq := 0, behind := 0 }] }

def jointed (i : Instr) (v : Word) : State := { world with groups := [joinMember 0 7 i, joinMember 1 v i], ctxs := [jointCtx i], sel := none }

/-- SequencerRecords: a joint word at which both groups have sent, with values that agree and do not, in each mode; a barrier that all have reached; a block that may retire. -/
theorem witness_JointWords :
    (∀ y ∈ List.range 6, let i := Instr.up 0 5 7 2 (BitVec.ofNat 3 y)
      (∀ v ∈ [7, 9], let s := jointed i (BitVec.ofNat 64 v)
        s.ctx? 60 = some (jointCtx i) ∧ s.ctxWalking (jointCtx i) = false ∧ (∀ p ∈ (jointCtx i).parties, s.performed (jointCtx i) p = true) ∧
          (jointCtx i).got.map (·.1) ++ (jointCtx i).parties.filterMap (fun p => (s.sends i p).map (·.1)) = [7, BitVec.ofNat 64 v] ∧ (jointCtx i).backOk 0x1000 = true ∧ codesOk none 2 0 i = true ∧ hintOk none i = true ∧ (jointCtx i).hint = none)) ∧
    (let i := Instr.up 0 5 7 2 6
     (jointed i 7).ctx? 60 = some (jointCtx i) ∧ (jointed i 7).ctxWalking (jointCtx i) = false ∧ (∀ p ∈ (jointCtx i).parties, (jointed i 7).performed (jointCtx i) p = true) ∧ codesOk none 2 0 i = false) ∧
    (let c := { bctx with state := .atBar, joint := some (.bar 0 2, 0x1000) }
     let s : State := { world with ctxs := [c], groups := [idle 0] }
     s.ctx? 60 = some c ∧ ({ s with groups := [{ idle 0 with queue := [] }] } : State).allCompleted c = true ∧ c.backOk 0x1000 = true) ∧
    (let c := { bctx with state := .retiring 77 0x1044 true, parties := [] }
     let s : State := { world with ctxs := [c], groups := [{ idle 0 with queue := [] }] }
     s.block? 10 = some block ∧ (s.ctxs.find? fun x => decide (x.scope = 2) && decide (x.block = 10)) = some c ∧ s.ctx? 60 = some c ∧ (s.mayRetire block c).isSome ∧ ∀ x ∈ s.groups, ∀ y ∈ s.groups, x.id = y.id → x = y) := by decide +kernel

/-- Two groups at a `regroup` whose mask register holds 3, the second's live lanes as given. -/
def regrouper (n live key : Nat) : Group :=
  { only { unit with wait := .regrouping (.regroup 0 4 5) (BitVec.ofNat 64 key), mask := BitVec.ofNat 32 live } with id := 11 + n, index := n, slot := n, live := BitVec.ofNat 32 live, sregs := group.sregs.setIfInBounds 5 3 }

def regrouping (live key : Nat) : State := { world with groups := [regrouper 0 0xF 3, regrouper 1 live key], sel := none }

/-- SequencerRecords: two groups that regroup, both with lanes, one left without a lane, and two that do not agree. -/
theorem witness_RegroupResult : ∀ x ∈ [(0x5, 3), (0, 3), (0x5, 7)], let s := regrouping x.1 x.2
    s.group? 11 = some (regrouper 0 0xF 3) ∧ s.regroupParty (regrouper 0 0xF 3) = some s.groups ∧ (s.groups.map (·.id)).Nodup ∧ (∀ w ∈ s.writes, ∀ y ∈ s.groups, w.group ≠ y.id) ∧
    s.groups.all (fun y => decide (s.group? y.id = some y) && decide ((y.regroupUnit.map fun z => z.1.region.isNone && !backOut y z.1) = some true)) = true ∧ s.atomics = [] ∧ (regrouper 0 0xF 3).width ≤ 32 ∧
    (x.2 = 3 → ∀ y ∈ s.groups, regroupKey y = regroupKey (regrouper 0 0xF 3)) ∧ (x.2 = 7 → ∃ y ∈ s.groups, regroupKey y ≠ regroupKey (regrouper 0 0xF 3)) := by decide +kernel

theorem witness_RegroupResult_apart : ∀ x ∈ [(0x5, 3), (0, 3), (0x5, 7)], Apart (regrouper 0 0xF 3) ∧ Apart (regrouper 1 x.1 x.2) :=
  fun x _ => ⟨apart_of (by decide +kernel), by intro a ha b hb _; rw [List.mem_singleton.mp ha, List.mem_singleton.mp hb]⟩

/-- A record whose launch a cluster's placer begins. -/
def launched : Fetched := { fetched 4 1 none with record := [BitVec.ofNat 64 (2 ^ 60 + 5 * 2 ^ 54), 0, 0, 0, 0, 0, 0, 9], desc := some desc }

/-- Placements: pools of continuations alone, of a resume entry whose block is gone, and of a launch. -/
theorem witness_Placements :
    (∀ e ∈ ((world.setCluster { clusterReset 0 with pool := [(3, .cont [1]), (0, .cont [])] }).cluster 0).pool, ∃ ws ∈ [[1], []], e.2 = PoolEntry.cont ws) ∧
    (((world.setCluster { clusterReset 0 with pool := [(3, .resume 9)] }).cluster 0).pool = [(3, .resume 9)] ∧ world.block? 9 = none) ∧
    (let q := { queue with records := [launched] }
     let s : State := { world.setCluster { clusterReset 0 with partition := some 3, pool := [(5, .launch 7 4 none)] } with queues := [q], grids := [], ctxs := [], groups := [], blocks := [] }
     (s.cluster 0).pool = [(5, .launch 7 4 none)] ∧ s.queue? 7 = some q ∧ (q.records.find? fun r => decide (r.pos = 4)) = some launched ∧ launched.desc = some desc ∧ (∀ k ∈ s.grids, ¬(k.qid = 7 ∧ k.pos = 4)) ∧ s.ctxFree 0 = true ∧
       (wordAt launched.record 0).getLsbD 57 = false ∧ (∀ k ∈ s.grids, k.id < s.ids) ∧ (s.cluster 0).waiting = [] ∧ desc.nblk ≠ 0 ∧ desc.psel = 0) := by decide +kernel

/-- A task in the list of its core, with a task beside it on an engine, and a task on an engine. -/
def queued : State := world.setCore { coreReset 0 with tasks := [{ task 11 with deps := [71] }, { task 11 with id := 71, row := 20 }], engines := #v[some { task 11 with id := 75, row := 30 }, none] }

def onEngine (record : List Word) : State := world.setCore { coreReset 0 with engines := #v[none, some { task 11 with record := record }] }

/-- MatrixEngine: a task that starts; tasks that commit, whose named block has ended, and whose metadata is malformed; sums in range, at and beyond each bound. -/
theorem witness_MatrixEngine :
    (queued.nextTask 0 = some { task 11 with id := 71, row := 20 } ∧ queued.freeEngine 0 = some 1) ∧
    (∀ w ∈ [0, 2 ^ 30 + 9 * 2 ^ 24], let r : List Word := [0, BitVec.ofNat 64 w, 0, 0, 0, 0, 0, 0]
      ((((onEngine r).core 0).engines[1]?).bind id = some { task 11 with record := r } ∧ (onEngine r).block? 10 = some block ∧ (onEngine r).group? 11 = some group ∧ block.state = .running ∧ block.confirmed = true)) ∧
    (let s : State := onEngine (List.replicate 8 0)
     s.taskError block (List.replicate 8 0) = none ∧ ((s.setCore { s.core 0 with fenced := true }).taskError block (List.replicate 8 0)).isSome ∧
     s.memberGone block (List.replicate 8 0) = false ∧ s.metadataBad block (List.replicate 8 0) = false ∧ s.memberGone block [0, BitVec.ofNat 64 (2 ^ 30 + 9 * 2 ^ 24), 0, 0, 0, 0, 0, 0] = true) ∧
    (∀ x ∈ [((2 : Int) ^ 31 - 2, true), (2 ^ 31 - 1, false)], (decide ((BitVec.ofNat 32 1).toInt + ([(x.1, (1 : Int))].map fun y => y.1 * y.2).sum < 2 ^ 31)) = x.2) := by decide +kernel

/-- A copy command that fills 32 bytes of scratchpad, at a destination. -/
def command (kind dst : Nat) : CopyCmd :=
  { id := 90, group := 11, block := 10, asid := 77, core := 0, record := [BitVec.ofNat 64 (kind * 2 ^ 60 + 5 * 2 ^ 49 + 32), 0, BitVec.ofNat 64 dst, 0x1122334455667788, 0, 0, 0, 0], level1 := false, queue := 0, binding := 0, started := true,
    moved := 0, popped := 0, kept := [], walkFault := none }

def copying (c : CopyCmd) : State := world.setCluster ((clusterReset 0).setChannel 2 [c, { c with id := 91, started := false }])

theorem runs_of {s : State} {cl ch : Nat} {c : CopyCmd} (h : s.runningCommand cl ch = some c ∧ c.isStream = false ∧ s.channelWalks cl ch = false ∧ s.copyDown cl = false ∧ s.unconfirmedWrite c = false) : Runs s cl ch c := ⟨h.1, h.2.1, h.2.2.1, h.2.2.2.1, h.2.2.2.2⟩

/-- CopyEngine: commands that start, with and without an acquire; a fill and a zero that reach scratchpad, a page that walks, and a window that names no storage. -/
theorem witness_CopyEngine :
    ((copying { command 4 0 with started := false }).nextCommand 0 2 = some { command 4 0 with started := false } ∧ (cw (command 4 0) 0).getLsbD 59 = false ∧
      (let c := { command 4 0 with started := false, record := (command 4 0).record.set 0 (BitVec.ofNat 64 (4 * 2 ^ 60 + 2 ^ 59 + 2 ^ 55 + 32)) }
       (copying c).nextCommand 0 2 = some c ∧ (cw c 0).getLsbD 59 = true)) ∧
    (Runs (copying (command 4 0xFF00000000000040)) 0 2 (command 4 0xFF00000000000040) ∧ Runs (copying (command 5 0xFF00000000000040)) 0 2 (command 5 0xFF00000000000040) ∧ Runs (copying (command 5 0x7770000000)) 0 2 (command 5 0x7770000000) ∧
      Runs (copying (command 4 0xFF02000000000000)) 0 2 (command 4 0xFF02000000000000)) ∧
    ((copying (command 4 0xFF00000000000040)).block? 10 = some block ∧ (∀ k ∈ [4, 5], (cw (command k 0) 0).toNat / 2 ^ 60 = k ∧ (cw (command k 0) 0).toNat % 2 ^ 32 = 32 ∧ (cw (command k 0) 0).getLsbD 58 = false) ∧
      world.locate block 0xFF00000000000040 32 = .pad 10 0x40 ∧ world.locate block 0x7770000000 32 = .translated 0x7770000000 ∧ world.translate 77 0x7770000000 .write false = none ∧ world.locate block 0xFF02000000000000 32 = .nowhere) :=
  ⟨by decide +kernel, ⟨runs_of (by decide +kernel), runs_of (by decide +kernel), runs_of (by decide +kernel), runs_of (by decide +kernel)⟩, by decide +kernel⟩

/-- CopyEngine: a zero command of two sectors whose first has been moved; a walker with room. -/
theorem witness_CopyEngine_advance :
    (let c := { command 5 0xFF00000000000040 with record := [BitVec.ofNat 64 (5 * 2 ^ 60 + 64), 0, 0xFF00000000000040, 0, 0, 0, 0, 0], moved := 1 }
     let s := world.setCluster ((clusterReset 0).setChannel 2 [c])
     Runs s 0 2 c ∧ s.nextCommand 0 2 = none ∧ s.block? 10 = some block ∧ (cw c 0).toNat / 2 ^ 60 = 5 ∧ (cw c 0).toNat % 2 ^ 32 = 32 * 2 ∧ c.moved < 2 ∧ s.locate block (cw c 2 + BitVec.ofNat 64 (32 * c.moved)) 32 = .pad 10 0x60) ∧
    (copying (command 5 0x7770000000)).walkerFull 77 (0x7770000000 / 4096) 0 = false ∧ (command 5 0x7770000000).walkFault = none :=
  ⟨⟨runs_of (by decide +kernel), by decide +kernel⟩, by decide +kernel⟩

/-- CopyEngine: a stream that delivers; records for the system channel. -/
theorem witness_Streams_SystemChannel :
    (let c := { command 6 0 with record := [BitVec.ofNat 64 (6 * 2 ^ 60 + 128 + 3 * 2 ^ 44), 0xFF00000000000040, 0, 0, 0, 0, 0, 0], moved := 32 }
     let s := world.setCluster ((clusterReset 0).setChannel 2 [c])
     s.delivering 0 3 = some (2, c) ∧ s.block? 10 = some block ∧ s.locate block (cw c 1 + BitVec.ofNat 64 c.moved) (min (32 - (cw c 1 + BitVec.ofNat 64 c.moved).toNat % 32) ((cw c 0).toNat % 2 ^ 32 - c.moved)) = .pad 10 0x60 ∧ s.placePoison (.pad 10 0x60) = none) ∧ world.copyDown 0 = false ∧
    (∀ x ∈ [(0, 2 ^ 48 + 0x8000), (4, 0), (5, 0)], systemRecordOk [BitVec.ofNat 64 (x.1 * 2 ^ 60 + 32), BitVec.ofNat 64 x.2, BitVec.ofNat 64 (2 ^ 48 + 0x8040), 0, 0, 0, 0, 0] = true) ∧
    systemRecordOk [BitVec.ofNat 64 (5 * 2 ^ 60 + 33), 0, BitVec.ofNat 64 (2 ^ 48 + 0x8040), 0, 0, 0, 0, 0] = false ∧
    physOk (2 ^ 48 + 0x8040 + 31) = true ∧ physOk (2 ^ 44) = false ∧ systemRecordOk [BitVec.ofNat 64 (5 * 2 ^ 60 + 32), 0, BitVec.ofNat 64 (2 ^ 44), 0, 0, 0, 0, 0] = true ∧ (world.poisoned (2 ^ 48 + 0x8000)).isNone := by decide +kernel

/-- A grid that has been asked to stop, with a task and a command that are still under way. -/
def stopping : State :=
  let g := { group with async := [{ cause := 24, tval := 88, tstat := 0, tlane := 0xF }] }
  ({ (having g).setCluster ((clusterReset 0).setChannel 2 [command 5 0xFF00000000000040]) with grids := [{ grid with preempted := true }] }).setCore { coreReset 0 with engines := #v[some (task 11), none] }

/-- Preemption: grids that run, have ended, are unconfirmed, and none; the two deadlines. -/
theorem witness_Preemption :
    (world.grid? 50 = some grid ∧ world.grid? 51 = none ∧ grid.preempted = false ∧ grid.ended = false ∧ grid.predicted = false ∧ (world.groups.map (·.id)).Nodup ∧ (world.blockOf group).grid = 50) ∧
    (let k := { grid with predicted := true, confirmed := false }
     ({ world with grids := [k] } : State).grid? 50 = some k ∧ k.desc.abase = 0 ∧ (∀ w ∈ world.walks, .grid 50 ∉ w.waiters) ∧ k.stopped = false) ∧ ({ world with grids := [{ grid with ended := true }] } : State).grid? 50 = some { grid with ended := true } ∧
    (stopping.grid? 50 = some { grid with preempted := true } ∧ (stopping.groups.map (·.id)).Nodup ∧ stopping.tasksLeft { grid with preempted := true } = true ∧ stopping.commandsLeft { grid with preempted := true } = true ∧
      ∀ g ∈ stopping.groups, (stopping.blockOf g).grid = 50 ∧ g.owesRte = true ∧ g.trap.tmode = false) := by decide +kernel


/-! ### Words -/

/-- Whether each word decodes to the instruction beside it. -/
def reads (l : List (Nat × Instr)) : Bool :=
  l.all fun x =>
    match decodeWord x.1 with
    | .ok i => decide (i = x.2)
    | .error _ => false

theorem decodes_of {w : Nat} {i : Instr} (h : reads [(w, i)] = true) : decodeWord w = .ok i := by
  cases e : decodeWord w with
  | ok j => simp [reads, e] at h; rw [h]
  | error _ => simp [reads, e] at h

/-- Whether each word is refused with the reason given. -/
def refusesWords (e : DecodeError) (l : List Nat) : Bool :=
  l.all fun w =>
    match decodeWord w with
    | .ok _ => false
    | .error x => decide (x = e)

/-- Control and sequencer words, each from its opcode, format and function in R36 and R47. -/
theorem test_words_control : reads [
    (0x01FA6BA3, .br 0 7 26 27555), (0x02609A85, .jmp 0 3 39557), (0x83604517, .call 1 3 17687), (0x04800000, .ret 0 4),
    (0x85F1AB4F, .loop 1 7 17 43855), (0x86480000, .lbrk 1 2 8), (0x87A00000, .bar 1 5), (0x88000000, .nop 1), (0x08000001, .rcv 0),
    (0x88000002, .exit 1), (0x88000003, .maskAll 1), (0x08000004, .maskRest 0), (0x08000005, .yield 0), (0x896F8178, .up 1 13 30 5 7),
    (0x0A9A81C0, .downSend 0 19 10 7), (0x8ABD0120, .downRead 1 23 20 4), (0x8BFE0000, .claim 1 31 24), (0x0B044001, .giveback 0 17),
    (0x8B020002, .vwin 1 8), (0x0B6D4003, .regroup 0 13 21), (0x8B070004, .role 1 28), (0x8C969C00, .spawn 1 18 26 14),
    (0x8DA949FA, .suspend 1 5 9 18938), (0x0E030000, .fmtSet 0 12), (0x8E800001, .fmtGet 1 16)] = true := by decide +kernel

/-- Group scalar words, each from its opcode, format and function in R36 and R47. -/
theorem test_words_scalar : reads [
    (0x90F49300, .sadd 1 30 18 9 2), (0x90DDBB10, .ssub 1 27 22 29 2), (0x108E9320, .smul 0 17 26 9 2), (0x105566B0, .smulh 0 10 21 19 1),
    (0x10A65140, .sdiv 0 20 25 8 2), (0x107D1BD0, .smin 0 15 20 13 3), (0x905A7760, .smax 1 11 9 27 2), (0x1153B280, .sand 0 10 14 25 1),
    (0x91549710, .sor 1 10 18 11 2), (0x116565A0, .sxor 0 12 21 18 3), (0x115592B0, .sshl 0 10 22 9 1), (0x91A7F7C0, .sshr 1 20 31 27 3),
    (0x118C31D0, .ssar 0 17 16 24 3), (0x128C3150, .sset 0 17 16 24 2 5), (0x13F26C10, .ssel 0 30 9 22 16), (0x94AB9BFF, .sli 1 21 14 7167),
    (0x9547B912, .slui 1 8 30 14610), (0x967321EA, .sld 1 14 12 16 3 1 2 5), (0x17BBD7AC, .sst 0 23 15 11 3 2 6)] = true := by decide +kernel

/-- Vector integer words, each from its opcode, format and function in R36 and R47. -/
theorem test_words_integer : reads [
    (0x205570B6, .vadd 0 2 42 56 22 6), (0xA1F5DFED, .vsub 1 7 43 47 61 5), (0x225D774C, .vmul 0 2 58 59 41 4),
    (0xA3CA3DBC, .vmulh 1 6 20 30 55 4), (0xA4D021B3, .vmad 1 6 32 16 54 3), (0x25A937C2, .vmin 0 5 18 27 56 2),
    (0xA64D3EE4, .vmax 1 2 26 31 28 4), (0x27EFC600, .vabs 0 7 31 35), (0xA84CF8B0, .vand 1 2 25 60 22), (0xA8597F79, .vor 1 2 50 63 47),
    (0xA8A8B12A, .vxor 1 5 17 24 37), (0xA8CD215B, .vandn 1 6 26 16 43), (0xA9B8ED58, .vshl 1 5 49 54 43), (0x29B65319, .vshr 0 5 44 41 35),
    (0x29D029EA, .vsar 0 6 32 20 61), (0xAAF26A00, .vclz 1 7 36 53), (0x2AFC7201, .vpopc 0 7 56 57), (0xAB9B66C9, .vsat 1 4 54 51 25 1),
    (0xAC732DD4, .vsel 1 3 38 22 58 4), (0xADEB6E9D, .vset 1 7 2 6 55 19 5), (0xAFF167EB, .vsetImm 1 7 4 2 51 245 1)] = true := by decide +kernel

/-- Predicate, move, immediate and group-wide words, each from its opcode, format and function in R36 and R47. -/
theorem test_words_predicate : reads [
    (0x30420628, .pand 0 2 4 3 5), (0xB0810C19, .por 1 4 2 6 3), (0x30628C22, .pxor 0 3 5 6 4), (0x30E10A03, .pnot 0 7 2 5),
    (0x315C5200, .vmov 0 2 56 41), (0xB14D9E01, .vbcast 1 2 27 15), (0xB1490002, .vlane 1 2 18), (0x31750003, .vrand 0 3 42),
    (0xB249BEF5, .vaddImm 1 2 19 31 122 1), (0xB3DBAD19, .vmulImm 1 6 55 22 140 1), (0xB5DBB419, .vshlImm 1 6 55 26 12 1),
    (0xB554F8B3, .vshrImm 1 2 41 60 25 1), (0xB5B1BF19, .vsarImm 1 5 35 31 12 1), (0xB6B0008C, .vmovImm 1 5 32 70),
    (0xB8810A00, .vvoteAll 1 4 2 5), (0x38E10A01, .vvoteAny 0 7 2 5), (0x386B0402, .vvoteBallot 0 3 22 2), (0x39AAEE5B, .vshfl 0 5 21 55 11 3),
    (0x3AD1A60C, .vred 0 6 35 19 1 4), (0xBBB2C217, .vscan 1 5 37 33 2 7), (0x3CCC6CF8, .vext 0 6 24 54 31), (0x3DDC2470, .vins 0 6 56 18 14)] = true := by decide +kernel

/-- Float and conversion words, each from its opcode, format and function in R36 and R47. -/
theorem test_words_float : reads [
    (0xC051C54E, .vfadd 1 2 35 34 41 6), (0xC1AE530C, .vfsub 1 5 28 41 33 4), (0x4253D99B, .vfmul 0 2 39 44 51 3),
    (0x437B4F97, .vfma 0 3 54 39 50 7), (0x449A6FFD, .vfmin 0 4 52 55 63 5), (0xC54D53B5, .vfmax 1 2 26 41 54 5),
    (0xC65EA14B, .vfset 1 2 7 5 16 41 3), (0x47925A28, .vfrcp 0 4 36 45 5), (0x4751EE19, .vfrsq 0 2 35 55 3), (0xC779D822, .vfsqrt 1 3 51 44 4),
    (0x4793AA3B, .vfex2 0 4 39 21 7), (0x477AFE3C, .vflg2 0 3 53 63 7), (0xC7BC5825, .vfsin 1 5 56 44 4), (0x4776D23E, .vfcos 0 3 45 41 7),
    (0xC8F4B68A, .vcvt 1 7 41 27 4 5), (0xC99FAAC0, .vquant 1 4 63 21 6), (0x4AD6A360, .vdq 0 6 45 17 11), (0xCBB27E00, .vcbdec 1 5 36 63)] = true := by decide +kernel

/-- Memory, atomic, fence, tile and tensor words, each from its opcode, format and function in R36 and R47. -/
theorem test_words_memory : reads [
    (0xD0D7C8FF, .vld 1 6 47 36 31 7), (0xD1B51EF4, .vldImm 1 5 42 15 122), (0xD2555CD5, .vst 1 2 42 46 26 5),
    (0x538A1EDA, .vstImm 0 4 20 15 109), (0x544D00FB, .vldu 0 2 26 31 3), (0xD5805E48, .vprf 1 4 47 9), (0x56F348DB, .vldAcq 0 7 38 36 27 3),
    (0xD7923695, .vstRel 1 4 36 27 18 5), (0xD87C503E, .atomAdd 1 15 17 8 1 3 6), (0xD8C7E673, .atomAnd 1 24 31 19 1 2 3),
    (0xD8DFA0B6, .atomOr 1 27 30 16 1 2 6), (0xD84ABCFE, .atomXor 1 9 10 30 1 3 6), (0x58E79D76, .atomMin 0 28 30 14 1 1 2 6),
    (0x58BC99F5, .atomMax 0 23 18 12 1 1 2 5), (0xD9C6FE3A, .atomXchg 1 24 27 31 1 3 2), (0x59E4B733, .atomCas 0 28 18 27 1 2 3),
    (0x5A000002, .fence 0 2), (0xDA00000D, .fenceAcq 1 5), (0x5A000014, .fenceRel 0 4), (0x5A000018, .fenceFlush 0),
    (0x5B03BA04, .evinc 0 14 29 4), (0xDC976C00, .waita 1 18 29 22), (0x5C050001, .wakea 0 20), (0xDD7FD458, .tld 1 15 31 10 2 3),
    (0x5DCDA049, .tst 0 25 22 16 2 1), (0xDD783EA2, .tcln 1 15 31 5), (0x5D701063, .tinv 0 14 8 3), (0x5DDBF204, .tdesc 0 27 15 25),
    (0xDE827000, .spalloc 1 16 9 24), (0x5E06B201, .spfree 0 26 25), (0xDE9D4002, .spnext 1 19 21)] = true := by decide +kernel

/-- Queue, token and matrix words, each from its opcode, format and function in R36 and R47. -/
theorem test_words_queue : reads [
    (0xE08F8000, .qbind 1 8 31), (0xE1AD2000, .qpush 1 10 26 2), (0x6297D000, .qpop 0 9 15 5), (0x636AC00A, .qtryPush 0 6 21 4 5),
    (0x63ECB00F, .qtryPop 0 14 25 3 7), (0x64EE8000, .qstat 0 14 29), (0x65060000, .twait 0 24), (0x666F9A00, .vqpop 0 3 31 13),
    (0x68877400, .acwinSet 0 16 29 26), (0x6887C001, .acwinClaim 0 16 31), (0x68A38002, .acwinFree 0 20 14), (0x695980C0, .acrd 0 2 51 24),
    (0xEACA00A8, .acwr 1 6 20 21), (0xEB048000, .acclr 1 18), (0x6CBC4D90, .spk24 0 5 56 38 50), (0xED02C000, .cbld 1 11)] = true := by decide +kernel

/-- Layer, admission, shape, system and hint words, each from its opcode, format and function in R36 and R47. -/
theorem test_words_system : reads [
    (0x70564000, .lacq 0 10 25), (0xF105C000, .lrel 1 23), (0xF2FF0000, .lstat 1 31 28), (0xF2774001, .lstatRetry 1 14 29),
    (0xF3432600, .wdone 1 8 12 19), (0xF3EF1C01, .wdoneFail 1 29 28 14), (0xF4031600, .wsig 1 12 11), (0xF5D28000, .qrestart 1 26 10),
    (0x768E7000, .shpSet 0 17 25 24), (0xF6F80001, .shpGet 1 31), (0x76600002, .shpConf 0 12), (0xF7A5C000, .salloc 1 20 23),
    (0xF8002881, .trap 1 10369), (0xF9900609, .csrr 1 18 1545), (0xF9066D16, .csrw 1 25 3350), (0x7A45E200, .seqsv 0 8 23 17),
    (0xFAD5BC01, .seqld 1 26 22 30), (0xFACC4002, .fragsv 1 25 17), (0x7A534003, .fragld 0 10 13), (0xFA000004, .rte 1), (0x7B000000, .brk 0),
    (0x7B058001, .tmark 0 22), (0x7B600002, .tsc 0 12), (0x7BD00003, .tsr 0 26), (0xFCAA66F0, .hintImm 1 11167472), (0xFDF00000, .hintMod 1 7 2),
    (0xFE000007, .hintSched 1 1 3)] = true := by decide +kernel

/-- Words that the spec writes out in its worked examples. -/
theorem test_words_worked : reads [
    (0x35028A05, .vshlImm 0 0 5 5 2 1), (0xD0008A1C, .vld 1 0 1 5 3 4), (0x7D080000, .hintMod 0 0 1), (0x20010008, .vadd 0 0 2 0 1 0),
    (0x2F088000, .vsetImm 0 0 2 1 0 0 0), (0x05410005, .loop 0 2 1 5), (0x09118098, .up 0 2 6 2 3), (0x61247000, .qpush 0 2 8 7),
    (0x70310000, .lacq 0 6 4), (0x71010000, .lrel 0 4), (0x68190A00, .acwinSet 0 3 4 5), (0x63157005, .qtryPop 0 1 10 7 2),
    (0x6C020C28, .spk24 0 0 4 6 5), (0x3A018410, .vred 0 0 3 2 2 0), (0x490400E0, .vquant 0 0 8 0 7), (0x7A000004, .rte 0),
    (0x78000005, .trap 0 5), (0x6B068000, .acclr 0 26)] = true := by decide +kernel

/-- Opcodes that the map does not assign, and the all-zero and all-ones words (R47, R48). -/
theorem test_unassigned : refusesWords .unassignedOpcode
    [0x00000000, 0x00FFFFFF, 0x0F000000, 0x18000000, 0x1F000000, 0x2E000000, 0x34000000, 0x37000000, 0x3E000000, 0x3F000000, 0x4C000000, 0x5F000000,
     0x67000000, 0x6E000000, 0x6F000000, 0x7F000000, 0xFFFFFFFF, 0x8F000000] = true := by decide +kernel

/-- Reserved fields that are not zero and functions that are not listed (R47, R48). -/
theorem test_reserved : refusesWords .reservedField
    [0x02010000, 0x04000001, 0x06000001, 0x08000006, 0x08000200, 0x09000001, 0x0A000001, 0x0B000005, 0x0B080001, 0x0C000001, 0x0E000002,
     0x10000001, 0x10000070, 0x11000060, 0x13000020, 0x16000001, 0x17000040, 0x27000001, 0x28000004, 0x29000003, 0x2A000002, 0x2B000002,
     0x30040000, 0x30000004, 0x31000004, 0x31000202, 0x35000040, 0x35000180, 0x36000001, 0x38000003, 0x39000004, 0x39000100, 0x3A000020,
     0x3C000001, 0x47000007, 0x48000001, 0x49000001, 0x4B000001, 0x50000100, 0x51000001, 0x54000200, 0x55008000, 0x59000040, 0x5A000020,
     0x5A000019, 0x5B000008, 0x5C000002, 0x5D000005, 0x5E000003, 0x60001000, 0x61000001, 0x63000010, 0x64001000, 0x65000001, 0x66002000,
     0x69000001, 0x6B000001, 0x6D000001, 0x70000001, 0x72000002, 0x73000002, 0x75000001, 0x76000003, 0x77000001, 0x78004000, 0x79001000,
     0x7A000005, 0x7B000004, 0x7D000001, 0x7E000008] = true := by decide +kernel

/-- Bytes too few for a word are refused by name. -/
theorem test_truncated : decode [0x08, 0x00, 0x01] = .error .truncated := rfl

/-- An ill-formed term for each check of the word itself (R38, R40, R41, R47, R49). -/
theorem test_illFormed : ([
    .br 0 5 0 0, .br 0 0 8 0, .br 0 2 16 0, .br 0 3 8 0, .jmp 0 5 1, .call 0 6 1, .ret 0 7, .loop 0 5 0 9, .loop 0 1 3 1, .lbrk 0 4 16, .bar 0 1, .bar 0 5,
    .up 0 1 1 1 0, .up 0 1 1 5 0, .up 0 1 1 2 6, .up 0 16 1 2 0, .up 0 1 16 3 0, .downSend 0 1 1 1, .downSend 0 6 1 2, .downSend 0 1 16 2,
    .downRead 0 1 1 4, .downRead 0 1 6 1, .downRead 0 16 1 2, .suspend 0 3 1 1, .suspend 0 1 31 1, .sset 0 1 1 1 2 6, .sld 0 1 1 1 2 0 2 0,
    .sld 0 1 1 1 2 0 1 5, .sld 0 1 1 1 3 1 0 0, .sld 0 1 1 1 2 0 0 1, .sst 0 1 1 1 2 1 0, .sst 0 1 1 1 2 2 5, .sst 0 1 1 1 2 0 1,
    .vadd 0 0 1 1 1 2, .vsat 0 0 1 1 0 0, .vsat 0 0 1 1 33 0, .vset 0 0 6 1 1 1 0, .vset 0 0 0 0 1 1 0, .vset 0 0 0 1 1 1 2,
    .vsetImm 0 0 6 1 1 1 0, .vsetImm 0 0 0 0 1 1 0, .pand 0 0 0 1 1, .pnot 0 0 0 1, .vvoteAll 0 0 0 1, .vred 0 0 2 2 0 6, .vred 0 0 2 2 2 3,
    .vscan 0 0 1 2 3 0, .vfadd 0 0 2 2 2 5, .vfadd 0 0 2 2 1 0, .vfset 0 0 7 1 2 2 0, .vfset 0 0 0 0 2 2 1, .vfset 0 0 0 1 2 2 5,
    .vfset 0 0 0 1 1 2 0, .vfrcp 0 0 2 2 4, .vfrcp 0 0 1 2 0, .vfex2 0 0 2 2 0, .vfex2 0 0 2 2 4, .vcvt 0 0 0 0 11 1, .vcvt 0 0 0 0 1 11,
    .vcvt 0 0 1 0 0 1, .vcvt 0 0 0 1 1 0, .vquant 0 0 0 0 3, .vquant 0 0 1 0 7, .vdq 0 0 0 0 10, .vdq 0 0 0 1 7, .vcbdec 0 0 2 0,
    .vld 0 0 1 1 1 6, .vld 0 0 1 1 1 5, .vst 0 0 1 1 1 1, .vst 0 0 1 1 1 5, .vldu 0 0 1 1 6, .vldAcq 0 0 1 1 1 5, .vstRel 0 0 1 1 1 5,
    .atomAdd 0 1 1 1 0 3 0, .atomMin 0 1 1 1 0 0 0 5, .atomCas 0 1 1 31 0 0 0, .fence 0 5, .fenceAcq 0 5, .fenceRel 0 5, .evinc 0 1 1 5,
    .tld 0 1 1 1 0 2, .tld 0 1 1 1 1 0, .tld 0 1 1 31 0 0, .tst 0 1 1 1 0 1, .tst 0 1 1 1 5 2, .tst 0 1 1 31 0 0, .tcln 0 1 1 5, .tinv 0 1 31 0,
    .qpush 0 1 31 1, .qpop 0 1 25 7, .qtryPush 0 1 1 0 0, .qtryPop 0 1 31 1 1, .spk24 0 0 1 1 2, .spk24 0 0 2 2 2, .csrr 0 1 0xE, .csrw 0 1 0x23,
    .hintMod 0 6 0, .hintMod 0 0 2, .hintMod 0 0 0, .hintSched 0 0 3] : List Instr).all (fun i => !decide (WellFormed i)) = true := by decide +kernel

/-- Terms beside them that are well-formed. -/
theorem test_wellFormed : ([
    .br 0 0 7 0, .br 0 2 15 0, .br 0 3 7 0, .loop 0 1 3 2, .bar 0 4, .up 0 7 15 3 5, .downSend 0 5 15 2, .downRead 0 15 5 2, .suspend 0 1 30 1,
    .sset 0 1 1 1 2 5, .sld 0 1 1 1 3 0 1 4, .sst 0 1 1 1 2 2 4, .vadd 0 0 1 1 1 1, .vsat 0 0 1 1 32 0, .vset 0 0 5 1 1 1 1, .vred 0 0 1 1 2 2,
    .vscan 0 0 2 2 3 0, .vfadd 0 0 2 2 2 0, .vfset 0 0 6 1 1 1 4, .vfrcp 0 0 1 1 3, .vcvt 0 0 2 1 0 1, .vquant 0 0 8 0 7, .vcbdec 0 0 4 1,
    .vld 0 0 2 1 1 5, .vst 0 0 1 1 1 4, .atomCas 0 1 1 30 1 2 4, .fence 0 4, .tld 0 1 1 30 4 1, .qpush 0 1 24 7, .qtryPop 0 1 24 7 1,
    .spk24 0 0 1 2 2, .csrr 0 1 0x112, .hintMod 0 5 1, .hintSched 0 1 2] : List Instr).all (fun i => decide (WellFormed i)) = true := by decide +kernel

/-! ### The words of a step -/

/-- The machine with a word at the unit's PC, and one with a word at the context's. -/
def unitScans : State := world.pokes (2 ^ 48 + 0x1000) (valueBytes 4 0x10298F00)

/-- StepRunsFetchedWord: a unit and a context whose PC holds a word, and an event that is due. -/
theorem witness_StepRunsFetchedWord :
    (unitScans.due = [] ∧ unitScans.sel = some (.unit 11 0) ∧ unitScans.fetchUnit 11 0 = .inr 0x10298F00 ∧
      decodeWord 0x10298F00 = .ok (.sadd 0 5 6 7 2)) ∧
    (let s := { scans (.jmp 0 2 3) with sel := some (.context 60) }
     s.due = [] ∧ s.sel = some (.context 60) ∧ s.fetchContext 60 = .inr 0x02400003 ∧ decodeWord 0x02400003 = .ok (.jmp 0 2 3)) ∧
    ({ world with due := [.tick1ms] } : State).due = .tick1ms :: [] :=
  ⟨⟨rfl, rfl, by decide +kernel, decodes_of (by decide +kernel)⟩, ⟨rfl, rfl, by decide +kernel, decodes_of (by decide +kernel)⟩, rfl⟩

/-- PlacedWordRunsFirst, EncodeOfDecode, EncodingRoundTrips: words that decode, and an instruction that encodes. -/
theorem witness_Words :
    decodeWord (0x20010008 % 2 ^ 32) = .ok (.vadd 0 0 2 0 1 0) ∧ 0xD0008A1C < 2 ^ 32 ∧ decodeWord 0xD0008A1C = .ok (.vld 1 0 1 5 3 4) ∧
    encodeNat (.vld 1 0 1 5 3 4) = some 0xD0008A1C :=
  ⟨decodes_of (by decide +kernel), by decide, decodes_of (by decide +kernel), by decide +kernel⟩

/-- A step from the machine after reset with one word placed. -/
def placed : State := State.reset.withFetchWord 32 0x10298F00

/-- MemoryCanonical: the placed word runs and answers a next state. -/
theorem witness_MemoryCanonical : Memory.wf placed.mem = true ∧ ∃ t, step placed = .next t := by
  refine ⟨by decide +kernel, ?_⟩
  have h : (match step placed with | .next _ => true | _ => false) = true := by decide +kernel
  cases e : step placed with
  | next t => exact ⟨t, rfl⟩
  | fault _ => rw [e] at h; cases h
  | refused _ => rw [e] at h; cases h

/-- ExactRounding, SpecialFunctions: a number that is not zero, and exponents in order. -/
theorem witness_ExactRounding : 0 < 3 ∧ (-2 : Int) ≤ 4 ∧ (-2 : Int) ≤ -2 ∧ (0 : Nat) < 1 := by decide

/-! ### Small steps whose results the spec gives -/

/-- The state that a word leaves, and its group there. -/
def ran (i : Instr) (s : State) : State :=
  match exec i s with
  | .next t => t
  | .fault _ => s
  | .refused _ => s

def ranGroup (i : Instr) (g : Group) : Group := ((ran i (having g)).group? 11).getD group

/-- The group with vector registers of lanes 0 to 3, each list one register's, and its unit's FMT. -/
def lanes (fmt : Word) (vs : List (Nat × List Nat)) : Group :=
  let g := only { unit with fmt := fmt }
  vs.foldl (fun g x => g.setVs x.1 (x.2.zipIdx.map fun y => (y.2, BitVec.ofNat 32 y.1))) g

/-- Register `f` of lanes 0 to 3. -/
def readLanes (g : Group) (f : Nat) : List Nat := (List.range 4).map fun l => (g.v f l).toNat

/-- R58's worked case: 0x3F80C000 to BF16 in mode `rs` with generator 1 gives 0x3F80 and NX; the generator advances once for each of the two
elements, to 0x00042021 and then by the same rule to 0x04080601. -/
theorem test_stochastic :
    let t := ranGroup (.vcvt 0 0 4 2 2 1) ((lanes 0x0000000001004111 [(2, [0x3F80C000])]).setGen 0 1)
    (t.v 4 0).toNat = 0x3F80 ∧ t.fflg = NX ∧ (t.gen 0).toNat = 0x04080601 := by decide +kernel

/-- The same value in mode `rn` gives 0x3F81 (R58). -/
theorem test_nearest : ((ranGroup (.vcvt 0 0 4 2 2 1) (lanes 0x0000000001000111 [(2, [0x3F80C000])])).v 4 0).toNat = 0x3F81 := by decide +kernel

/-- R106: index 0x02A5 with the reset shape table. -/
theorem test_vcbdec :
    let t := ranGroup (.vcbdec 0 0 4 2) (lanes 0x0000000001000111 [(2, [0x02A5])])
    (t.v 4 0).toNat = 0x28A00080 ∧ (t.v 5 0).toNat = 0xB030AC28 ∧ t.fflg = 0 := by decide +kernel

/-- The rows of R103's worked case. -/
def quantRows : Group :=
  lanes 0x0000000000440111 [(0, [0x3F800000, 0xBF800000, 0x42200000, 0x427C0000]), (1, [0xBFC00000, 0x3FE00000, 0xC2100000, 0xC2200000]),
    (2, [0x3FA00000, 0x3FC00000, 0x42400000, 0x42000000]), (3, [0x3F800000, 0x3F800000, 0x42040000, 0x42700000])]

/-- R103's worked case: `vquant.s8 v8, v0`. -/
theorem test_vquant :
    let t := ranGroup (.vquant 0 0 8 0 7) quantRows
    readLanes t 8 = [0x4050A040, 0x406070C0, 0x4260B850, 0x7840B07E] ∧ readLanes t 9 = [0x00017979, 0x00007979, 0x00017E7E, 0x00007E7E] ∧
      t.fflg = 0 := by decide +kernel

/-- R105: `vdq.s8` of those words gives the rows back. -/
theorem test_vdq :
    let t := ranGroup (.vdq 0 0 0 8 7) (lanes 0x0000000000440111
      [(8, [0x4050A040, 0x406070C0, 0x4260B850, 0x7840B07E]), (9, [0x00017979, 0x00007979, 0x00017E7E, 0x00007E7E])])
    (List.range 4).map (readLanes t) = (List.range 4).map (readLanes quantRows) ∧ t.fflg = 0 := by decide +kernel

/-- R110's worked case: the tree gives 2^24 + 2 in every lane, with NX. -/
theorem test_vred :
    let t := ranGroup (.vred 0 0 3 2 2 0) (lanes 0x0000000001000111 [(2, [0x4B800000, 0x3F800000, 0x3F800000, 0x3F800000])])
    readLanes t 3 = [0x4B800001, 0x4B800001, 0x4B800001, 0x4B800001] ∧ t.fflg = NX := by decide +kernel

/-- R110's scan of the same lanes. -/
theorem test_vscan :
    readLanes (ranGroup (.vscan 0 0 3 2 2 0) (lanes 0x0000000001000111 [(2, [0x4B800000, 0x3F800000, 0x3F800000, 0x3F800000])])) 3 =
      [0x4B800000, 0x4B800000, 0x4B800000, 0x4B800001] := by decide +kernel

/-- R303's example with AFMT 4: `spk24 v4, v6, v5`. -/
theorem test_spk24 :
    let t := ranGroup (.spk24 0 0 4 6 5) (lanes 0x0000000001000144 [(6, [0x4030C438]), (7, [0x28A80080])])
    (t.v 4 0).toNat = 0x28A840C4 ∧ (t.v 5 0).toNat = 0xED := by decide +kernel

/-- Scalar corners of R77: the most negative number by −1 gives itself, and a division by 0 gives all ones. -/
theorem test_sdiv :
    (ranGroup (.sdiv 0 5 20 21 2) (setting [(20, 0x8000000000000000), (21, 0xFFFFFFFFFFFFFFFF)])).s 5 = 0x8000000000000000 ∧
    (ranGroup (.sdiv 0 5 20 21 3) (setting [(20, 7), (21, 0)])).s 5 = 0xFFFFFFFFFFFFFFFF := by decide +kernel

/-- R79 to R81: a comparison by type, and an immediate that is negative. -/
theorem test_sset_sli :
    (ranGroup (.sset 0 5 20 21 2 2) (setting [(20, 0xFFFFFFFFFFFFFFFF), (21, 1)])).s 5 = 1 ∧
    (ranGroup (.sset 0 5 20 21 3 2) (setting [(20, 0xFFFFFFFFFFFFFFFF), (21, 1)])).s 5 = 0 ∧
    (ranGroup (.sli 0 5 20 0x3FFF) (setting [(20, 7)])).s 5 = 6 := by decide +kernel

/-- R84: a sum wraps; R45: `hint.mod sat` clamps it. -/
theorem test_vadd :
    readLanes (ranGroup (.vadd 0 0 3 2 2 0) (lanes 0x0000000001000111 [(2, [0x7FFFFFFF, 1, 0x80000000, 0])])) 3 = [0xFFFFFFFE, 2, 0, 0] := by
  decide +kernel

theorem test_vadd_sat :
    let g := lanes 0x0000000001000111 [(2, [0x7FFFFFFF, 1, 0x80000000, 0])]
    let t := ((ran (.vadd 0 0 3 2 2 0) (having { g with units := g.units.map fun u => { u with hint := some (.modifier 0 1) } })).group? 11).getD g
    readLanes t 3 = [0x7FFFFFFF, 2, 0x80000000, 0] ∧ t.fflg = SA := by decide +kernel

/-- R96: 1.5 × 2 + 0.25 with one rounding; an exact result sets no flag. -/
theorem test_vfma :
    let t := ranGroup (.vfma 0 0 2 3 4 1) (lanes 0x0000000001000111 [(2, [0x3FC00000]), (3, [0x40000000]), (4, [0x3E800000])])
    (t.v 2 0).toNat = 0x40500000 ∧ t.fflg = 0 := by decide +kernel

/-- R127's example: record number 5, segment 0x0110 to 0x0114, `d1` = 0x40, sent by a block context. -/
theorem test_record : (recordWords (withSeq (mkRecord 0 2 0x0110 0x0114 0b000010 #v[0, 0x40, 0, 0, 0, 0]) 5)).map (·.toNat) =
    [0x0200000000000044, 0x0000050000012000, 0, 0x40, 0, 0, 0, 0] := by decide +kernel

/-- R160's example: groups 0 and 1 of width 8 with live lanes 0, 2, 5 and 1, 3, 4, 6, 7. -/
def regroupPair : State :=
  let g (n live : Nat) : Group :=
    { only { unit with wait := .regrouping (.regroup 0 9 8) 3, mask := BitVec.ofNat 32 live } with
      id := 11 + n, index := n, slot := n, width := 8, live := BitVec.ofNat 32 live, sregs := group.sregs.setIfInBounds 8 3, vregs := [(32 + 1, n + 5)] }
  { world with groups := [g 0 0b00100101, g 1 0b11011010], sel := none }

theorem test_regroup :
    let t := ran (.regroupComplete 11) regroupPair
    ((t.group? 11).map fun g => (g.s 9, (g.rgmap[0]?).getD 0)) = some (8, 0x0090230840500800) ∧ ((t.group? 11).map fun g => (g.v 1 3).toNat) = some 6 ∧
      t.group? 12 = none := by decide +kernel

/-- R206's example: the header of the fragments' image, and the units' first words. -/
def fragmented : Group :=
  { group with
    width := 8, live := 0xFF, recon := [(0, { fmts := Config.fmtReset, join := 0xFF, arr := 0, bpc := 0x81, depth := 0, parent := none }), (1, { fmts := Config.fmtReset, join := 0xAD, arr := 0xA4, bpc := 0x83, depth := 0, parent := some 0 })],
    units := [{ unit with uid := 2, mask := 0x09, pc := 0x0214, entry := some 1 }, { unit with uid := 1, mask := 0x52, pc := 0x021C, entry := some 0 },
      { unit with uid := 0, mask := 0xA4, pc := 0x0214, entry := some 1, wait := .arrived }] }

theorem test_fragImage : ((fragImage fragmented).take 2).map (·.toNat) = [0x010C000000000800, 0x0000000800000003] ∧
    (fragmented.units.map fun u => ((unitWords u)[0]?.getD 0).toNat) = [0x0000002100000009, 0x0000002000000052, 0x000000A1000000A4] := by decide +kernel

/-- R391's worked walk: ASID 7's tables, with 16 entries that form one page of 64 KiB. -/
def walkTables : State :=
  let es : List (Nat × Nat) := (List.range 16).map fun k => (0x100102000 + 8 * (96 + k), 0x0050000312400163 + 0x1000 * k)
  let s := { world with keySlots := [(0, 1), (1, 5), (5, 2)], spaces := [{ asid := 7, fn := 1, w0 := 0x20, root := 0x100000000, ring := 0, nextIndex := 0 }] }
  ([(0x100000000, 0x0000000100100001), (0x100100800, 0x0000000100101001), (0x100101000, 0x0000000100102001)] ++ es).foldl
    (fun (s : State) (x : Nat × Nat) => s.pokes x.1 (valueBytes 8 x.2)) s

/-- The load's frame, ordering kind and key slot, and the store that finds W = 0. -/
theorem test_walk :
    (match walkTables.walkFor 7 0x000000400006A010 .read false with
     | .leaf l => decide (l.frame = 0x31240A000 ∧ l.ord = 1 ∧ l.key = 5)
     | _ => false) = true ∧
    walkTables.walkFor 7 0x000000400006A010 .write false = .protection := by decide +kernel

/-- The rack-cap sequence of R408's example: SEQ 41 is newer than 40 and applies, and 39 is not and is ignored. -/
def capped : State := { world with caps := { world.caps with seq := 40, cap := 3600, expiry := some 500 } }

theorem test_rackCap :
    let t := ran (.rackCapMessage 41 3000 300) capped
    (t.caps.seq, t.caps.cap) = (41, 3000) ∧ (ran (.rackCapMessage 39 4000 300) t).caps = t.caps ∧ (ran (.rackCapMessage 41 3000 300) t).caps = t.caps := by
  decide +kernel


/-- Of the worked task of "The matrix engine", the block: row 0 of A is all ones, and rows 0 and 15 of B hold −8 and 7. -/
def workedPad : Block :=
  let row (at_ : Nat) (v : Int) : List Host.Cell := (List.range 32).map fun n => (at_ + n, BitVec.ofInt 8 v)
  { block with pad := row 0 1 ++ row 0x200 (-8) ++ row 0x3E0 7 }

/-- The task: K 32, INT8 into INT32, token `s24`. -/
def workedTask : Task :=
  { task 11 with
    record := [0x0D8001DE80000000, 0x0000010000000000, 0x200, 0x0000010000000200, 0x200, 0x20000, 0, 0], row := 0, rows := 16, window := (0, 16) }

/-- Row 0 of the result at columns 0, 1 and 15, and CYC. -/
theorem test_matrixTask :
    let as := (world.operandRows workedPad workedTask 1 0).1
    let bs := (world.operandRows workedPad workedTask 3 0).1
    (taskResult workedPad workedTask (as.take 1) [bs.getD 0 [], bs.getD 1 [], bs.getD 15 []]) =
      ([(0, 0, BitVec.ofInt 32 (-256)), (0, 1, 0), (0, 2, 224)], 0) ∧
    taskCycles workedTask.record = 44 := by decide +kernel
/-! ### Where words and events complete -/

theorem lanesReach_of {i : Instr} {s : State} {g : Group} {u : GUnit} {c : Access} {n : Nat} {addr : Group → GUnit → Nat → Word} (pl : Nat → Place) (h0 : u.unfinished = none)
    (h : ∀ l ∈ lanesOf (activeMask g u (predField i)), ((s.blockOf g).timed = true → (addr g u l).toNat / 2 ^ 56 = 0xFF) ∧ (addr g u l).toNat % n = 0 ∧
      s.placeAt g c n (addr g u l) = .hit (pl l) ∧ s.transferAt g.id (pl l) n = false ∧ (c = .read → s.placePoison (pl l) = none)) : LanesReach i s g u c n addr :=
  ⟨h0, pl, fun l hl => ⟨reaches_of ⟨(h l hl).1, (h l hl).2.1, (h l hl).2.2.1, (h l hl).2.2.2.1⟩, fun hc => .inr ((h l hl).2.2.2.2 hc)⟩⟩

theorem performs_of {s : State} {g : Group} {n : Nat} {va : Word} {o : BitVec 2} {k : BitVec 3} {pl : Place} (h : Reaches s g .atomic n va pl)
    (h2 : (placeOrd pl ≠ 2 ∧ atHost pl = false ∧ atDevice pl = false ∧ s.placePoison pl = none) ∧ (s.blockOf g).confirmed = true ∧ s.tileOps = []) (h3 : NoneLost s g) : Performs s g n va o k pl :=
  ⟨h, h2.1, h2.2.1, (by intro x hx; rw [h2.2.2] at hx; cases hx), fun _ _ => h3⟩

theorem untiled_world : Untiled world group := by intro x hx; cases hx

/-- CompletingAccesses: each word issues; its lanes reach scratchpad or module HBM; atomics there, the last a release of the whole system; a word of memory that differs from the operand. -/
theorem witness_CompletingAccesses :
    (∀ i ∈ ([.vfrcp 0 0 2 4 0, .vfrsq 0 0 2 1 1, .vfsqrt 0 0 2 1 2, .vfex2 0 0 2 1 1, .vflg2 0 0 2 1 1, .vfsin 0 0 2 1 3, .vfcos 0 0 2 1 1, .sld 0 5 2 0 0 1 0 0, .vld 0 0 2 3 3 5, .vldImm 0 0 2 2 0,
      .vldAcq 0 0 2 3 3 3, .vldu 0 0 2 2 4, .vprf 0 0 3 3, .vstRel 0 0 2 3 3 3, .atomAdd 0 5 2 1 0 0 0, .atomAnd 0 5 3 1 1 1 3, .atomOr 0 5 3 1 1 2 4, .atomXor 0 0 3 1 0 0 0, .atomMin 0 5 3 1 0 1 0 0,
      .atomMax 0 5 3 1 0 0 0 0, .atomXchg 0 5 3 1 1 0 0, .atomCas 0 5 3 30 1 0 0, .fence 0 0, .fenceAcq 0 3, .fenceRel 0 2, .fenceFlush 0, .evinc 0 3 1 4, .waita 0 5 2 1, .wakea 0 3] : List Instr),
      Issues i world group unit ∧ FallsClear group unit ∧ MayFall group unit unit) ∧
    (Reaches world group .read 1 (sumAddr group 2 0) padPlace ∧ Readable world group padPlace ∧ LanesReach (.vld 0 0 2 3 3 5) world group unit .read (byteCount 5) (offsetAddr 3 3) ∧
      LanesReach (.vldImm 0 0 2 2 0) world group unit .read 4 (wordAddr 2 0) ∧ LanesReach (.vldAcq 0 0 2 3 3 3) world group unit .read 4 (offsetAddr 3 3) ∧ Reaches world group .read (byteCount 4) (group.s 2) padPlace ∧
      LanesReach (.vstRel 0 0 2 3 3 3) world group unit .write 4 (offsetAddr 3 3)) ∧
    (Performs world group (atomBytes 0) (group.s 2) 0 0 padPlace ∧ Performs world group (atomBytes 1) (group.s 3) 2 4 hbm ∧ Performs world group 8 (group.s 3) 2 4 hbm) ∧
    (Untiled world group ∧ (world.blockOf group).confirmed = true ∧ (world.blockOf group).timed = false ∧ NoneLost world group) ∧
    (unit.region = none ∧ va8 world group .read true (group.s 2) padPlace ∧ placeOrd padPlace ≠ 2 ∧ world.placePoison padPlace = none ∧
      BitVec.ofNat 64 ((world.expelPlace (world.accessor group) padPlace).homeValue padPlace 8) ≠ group.s 1) ∧
    (world.placeAt group .read 1 (group.s 3) = .hit hbm ∧ world.transferAt group.id hbm 1 = false) := by
  refine ⟨all_tried (by decide +kernel), ⟨reaches_of (by decide +kernel), .inr (by decide +kernel), lanesReach_of (fun _ => hbm) rfl (by decide +kernel), lanesReach_of (fun l => .pad 10 (4 * l)) rfl (by decide +kernel),
      lanesReach_of (fun _ => hbm) rfl (by decide +kernel), reaches_of (by decide +kernel), lanesReach_of (fun _ => hbm) rfl (by decide +kernel)⟩,
    ⟨performs_of (reaches_of (by decide +kernel)) (by decide +kernel) rfl, performs_of (reaches_of (by decide +kernel)) (by decide +kernel) rfl, performs_of (reaches_of (by decide +kernel)) (by decide +kernel) rfl⟩,
    ⟨untiled_world, by decide +kernel, by decide +kernel, rfl⟩, ⟨rfl, va8_of (by decide +kernel), by decide, by decide +kernel, by decide +kernel⟩, by decide +kernel⟩

theorem windowKept_of {s : State} {b : Block} {g : Group} (h : (g.acbase.toNat % 16 = 0 ∧ g.aclim.toNat % 16 = 0 ∧ g.acbase.toNat ≤ g.aclim.toNat ∧ g.aclim.toNat ≤ b.acRows) ∧
    ∀ w ∈ s.otherWindows b g.id, overlapping (g.acbase.toNat, g.aclim.toNat) w = false) : WindowKept s b g := ⟨h.1.1, h.1.2.1, h.1.2.2.1, h.1.2.2.2, h.2⟩

theorem idleRows {s : State} {g : Group} (h : (s.core g.core).allTasks = []) (n : Nat) : ¬RowBusy s g n := by
  intro ⟨t, ht, _⟩
  rw [h] at ht
  cases ht

/-- CompletingQueueWords: a tile that reaches (`witness_TileWords`), pinned and other scratchpad, a binding that the launch has, pools with room and with a continuation, a stream with bytes; a window of rows 16
to 47 and its first and last rows; the other words have no further condition. -/
theorem witness_CompletingQueueWords :
    (Issues (.tld 0 5 2 20 0 0) (having (tiled 0x2000 0)) (tiled 0x2000 0) unit ∧ ((having (tiled 0x2000 0)).blockOf (tiled 0x2000 0)).confirmed = true ∧ ((having (tiled 0x2000 0)).blockOf (tiled 0x2000 0)).timed = false) ∧
    (Issues (.tdesc 0 5 1 2) world group unit ∧ (group.s 2).toNat % 64 = 0 ∧ world.placeAt group .read 64 (group.s 2) = .hit (.pad 10 0) ∧ world.padPoison 10 = none ∧ world.transferAt group.id (.pad 10 0) 64 = false ∧
      (world.block? 10).isSome) ∧
    (∀ i ∈ ([.spalloc 0 5 4 1, .spfree 0 4 1, .spnext 0 5 4, .qbind 0 2 5, .qstat 0 2 5, .twait 0 5, .acwinSet 0 5 4 1, .acwinClaim 0 5 4, .acwinFree 0 5 4] : List Instr),
      Issues i world group unit ∧ FallsClear group unit ∧ MayFall group unit unit) ∧
    (world.transferAt group.id (.pad group.block (group.s 4).toNat) (256 * (group.s 1).toNat) = false ∧ world.bindingOk group (group.s 5) = true ∧ (group.binding 2).toNat / 2 ^ 60 ≠ 4 ∧
      (world.groupsOf 10).find? (fun x => decide (x.index = (group.s 4).toNat)) = none) ∧
    (let g := bound (3 <<< 60)
     MayFall g unit unit ∧ (∀ i ∈ ([.qpush 0 2 20 7, .qtryPush 0 2 20 0 1, .qpop 0 2 24 7, .qtryPop 0 2 20 0 7] : List Instr), gate g unit i = none ∧ (fed g).stallOf g unit i = none ∧ tokenFault g unit i = none) ∧
       (g.binding 2).toNat / 2 ^ 60 = 3 ∧ ((fed g).blockOf g).confirmed = true ∧ (fed g).poolCount 0 ((g.binding 2).toNat / 256 % 8) < Config.poolEntries ∧ (fed g).tileOps = [] ∧ (fed g).nextCont (clusterOfCore g.core) ≠ none) ∧
    (let g := bound (4 <<< 60)
     MayFall g unit unit ∧ Issues (.vqpop 0 0 2 2) (fed g) g unit ∧ activeMask g unit 0 ≠ 0 ∧ (g.binding 2).toNat / 2 ^ 60 = 4 ∧ 4 * g.width ≤ ((fed g).streamBytes g.core ((g.binding 2).toNat % 16)).length) ∧
    (∀ v ∈ [(0x0 : Nat), 0x1F], let g := windowed (BitVec.ofNat 64 v) 0
      WindowKept (having g) ((having g).blockOf g) g ∧ (∀ n, ¬RowBusy (having g) g n) ∧ (∀ l ∈ lanesOf (activeMask g unit 0), (laneCell (g.s 20) l).1 < g.aclim.toNat - g.acbase.toNat) ∧ (g.s 20).toNat / 2 ^ 16 = 0 ∧ (g.s 20).toNat / 2 ^ 11 % 2 = 0 ∧
        (g.s 20).toNat / 2 ^ 27 = 0 ∧ (g.s 20).toNat / 2 ^ 11 % 2 ^ 5 = 0 ∧ (g.s 20).toNat % 2 ^ 11 + ((g.s 20).toNat / 2 ^ 16 % 2 ^ 11 + 1) ≤ g.aclim.toNat - g.acbase.toNat ∧ (having g).block? 10 = some block) ∧
    (∀ i ∈ ([.acrd 0 0 2 20, .acwr 0 0 2 20, .acclr 0 20] : List Instr), gate (windowed 0x1F 0) unit i = none ∧ (having (windowed 0x1F 0)).stallOf (windowed 0x1F 0) unit i = none) ∧
    (MayFall (only (packer 4)) (packer 4) (packer 4) ∧ 4 ≤ fmtA (packer 4).fmt ∧ fmtA (packer 4).fmt ≤ 9 ∧ fmtA (packer 9).fmt = 9) ∧
    ((world.core group.core).allTasks = [] ∧ (world.context? (world.blockOf group).asid).isSome) := by
  refine ⟨⟨issues_of (by decide +kernel), by decide +kernel, by decide +kernel⟩, ⟨tried_issues (by decide +kernel), by decide +kernel⟩, all_tried (by decide +kernel), by decide +kernel, ⟨mayFall_of (by decide +kernel), by decide +kernel⟩,
    ⟨mayFall_of (by decide +kernel), issues_of (by decide +kernel), by decide +kernel, by decide +kernel, by decide +kernel⟩, ?_, by decide +kernel, ⟨mayFall_of (by decide +kernel), by decide +kernel⟩, by decide +kernel⟩
  intro v hv
  simp only [List.mem_cons, List.not_mem_nil, or_false] at hv
  rcases hv with rfl | rfl <;> exact ⟨windowKept_of (by decide +kernel), idleRows (by decide +kernel), by decide +kernel⟩

/-- CompletingControlWords: a resident layer with a hold (`witness_LayerWords`); handles without a join counter; shape words; images (`witness_ContextImages`); control registers and clocks; hints, a trap,
a breakpoint, and the return of a trapped group. -/
theorem witness_CompletingControlWords :
    (NamesLayer (layered (3 * 2 ^ 61 + 2 ^ 40) 1 false) group (group.s 7) model 0 (layer (2 ^ 48 + 0x4000)) ∧ (let s := layered (3 * 2 ^ 61 + 2 ^ 40) 1 false
      (∀ i ∈ ([.lacq 0 5 7, .lrel 0 7, .lstat 0 5 7, .lstatRetry 0 5 7] : List Instr), gate group unit i = none ∧ s.stallOf group unit i = none ∧ tokenFault group unit i = none) ∧ (s.blockOf group).confirmed = true ∧
      (s.core group.core).watches.length < Config.watchEntries ∧ (s.core group.core).watchQueue = [] ∧ (s.readRes (layer (2 ^ 48 + 0x4000))).toNat / 2 ^ 61 = 3 ∧ (s.blockOf group).holds.length < 16 ∧
      (s.readRes (layer (2 ^ 48 + 0x4000))).toNat / 2 ^ 40 % 2 ^ 16 < 2 ^ 16 - 1 ∧ (∃ h ∈ (s.blockOf group).holds, h.1 = 2 ^ 48 + 0x4000) ∧ s.tileOps = [])) ∧
    (∀ h ∈ [(0 : Nat), 7 * 2 ^ 48 + 4, 7 * 2 ^ 48 + 5, 7 * 2 ^ 48 + 2 ^ 32 + 4], let g := completing h 0
      (∀ i ∈ ([.wdone 0 5 20 21, .wdoneFail 0 5 20 21] : List Instr), gate g unit i = none ∧ (completion g 2).stallOf g unit i = none) ∧ ((completion g 2).blockOf g).confirmed = true ∧ (completion g 2).outstanding g = 0 ∧ (completion g 2).tileOps = [] ∧ g.s 21 = 0) ∧
    (Signals world group (group.s 3) hbm ∧ NoneLost world group) ∧
    ((completion group 2).queues.find? (fun q => decide (q.asid = 77) && decide (q.descVa = group.s 11)) = some erred ∧ erred.state = 4 ∧ (let s1 := (completion group 2).release ((completion group 2).accessor group) 4
      (s1.descWord erred 6).toNat = (s1.descWord erred 3).toNat ∧ (s1.descWord erred 3).toNat < s1.widx erred ∧ s1.queue? erred.qid = some erred)) ∧
    (∀ i ∈ ([.wsig 0 3 1, .shpSet 0 5 3 1, .shpGet 0 5, .shpConf 0 5, .tmark 0 3, .csrr 0 5 0x022, .csrr 0 0 0x000, .csrw 0 1 0x001, .tsc 0 5, .tsr 0 5, .hintMod 0 5 1, .hintImm 0 9, .hintSched 0 1 2] : List Instr), Issues i world group unit ∧ FallsClear group unit ∧ MayFall group unit unit) ∧
    (world.grid? (world.blockOf group).grid = some grid ∧ (world.blockOf group).confirmed = true) ∧
    (Issues (.seqsv 0 5 2 20) (keeping 1 []) (keeper 1) handler ∧ (keeper 1).s 20 = 1 ∧ ImageAt (keeping 1 []) (keeper 1) .write ((keeper 1).s 2) ((8 * (groupImage (keeper 1)).length + 63) / 64 * 64) { block with pad := [] } 0) ∧
    (∀ c ∈ [0x100, 0x102, 0x103, 0x104, 0x108, 0x109, 0x10A, 0x10B, 0x10C], gate trapped handler (.csrw 0 1 (BitVec.ofNat 12 c)) = none) ∧
    (Issues (.trap 0 0x3FFF) world group unit ∧ Issues (.brk 0) world group unit ∧ group.trap.tmode = false ∧ Apart group ∧ world.atomics.any (fun x => decide (x.group = group.id)) = false) ∧
    (Issues (.rte 0) inTrap trapped handler ∧ trapped.trap.tmode = true ∧ trapped.replay = [] ∧ Apart trapped ∧ trapped.segment ≠ .none) := by
  exact ⟨⟨namesLayer _ _ _ (by decide +kernel), by decide +kernel⟩, by decide +kernel, ⟨signals_of (va8_of (by decide +kernel)) (by decide +kernel) (by decide +kernel) untiled_world, rfl⟩, by decide +kernel, all_tried (by decide +kernel), by decide +kernel,
    ⟨issues_of (by decide +kernel), by decide +kernel, imageAt_of (by decide +kernel)⟩, by decide +kernel, ⟨tried_issues (by decide +kernel), tried_issues (by decide +kernel), rfl, apart, by decide +kernel⟩,
    issues_of (by decide +kernel), rfl, by decide +kernel, apart_of (by decide +kernel), by decide⟩

/-- A context that has faulted, one that may retire its block, and the machine with each. -/
def failing : Ctx := { bctx with fault := some { cause := 5, tval := 8, tstat := 2, tlane := 0 } }

def retiring : Ctx := { bctx with state := .retiring 77 0x1044 true, parties := [] }

/-- CompletingGroupEvents: units, writes, records, contexts, engines and tiles, each in the state that its event needs; `witness_IssueOrder`, `witness_RegroupResult`, `witness_TileCompletions` and
`witness_WatchdogsAndDebug` show those of the other events. -/
theorem witness_CompletingGroupEvents :
    (∀ w ∈ ([.switchPark, .hold, .takenSide, .stall 4, .parked] : List Wait), let g := only { unit with wait := w }
      (having g).group? g.id = some g ∧ g.unit? 0 = some { unit with wait := w } ∧ (having g).writes = [] ∧ (having g).atomics = [] ∧ (having g).walks = [] ∧ g.doubleFault = false) ∧
    (WaitsFor (idling (record 0 7)) (idle (record 0 7)) (record 0 7) [record 0 8] ∧ (record 0 7).extractLsb' 104 24 = (idle (record 0 7)).nextSeq ∧ recordOk (record 0 7) = true ∧ ((record 0 7).extractLsb' 62 2).toNat = 0) ∧
    (let c := atEndCtx 0x1104
     (emitting c).ctx? 60 = some c ∧ (emitting c).canScan c = true ∧ (emitting c).lagging c = none ∧ c.atEnd = true ∧ c.start = c.pc) ∧
    (∀ y ∈ List.range' 1 5, let i := Instr.up 0 5 7 2 (BitVec.ofNat 3 y)
      let s := jointed i 9
      s.ctx? 60 = some (jointCtx i) ∧ (jointCtx i).frozen = false ∧ s.ctxWalking (jointCtx i) = false ∧ codesOk none 2 0 i = true ∧ hintOk none i = true ∧ (∀ p ∈ (jointCtx i).parties, s.performed (jointCtx i) p = true) ∧
        (jointCtx i).parties = [.group 11, .group 12] ∧ (jointCtx i).got.map (·.1) ++ (jointCtx i).parties.filterMap (fun p => (s.sends i p).map (·.1)) = [7, 9] ∧ (BitVec.ofNat 3 y).toNat ≠ 0 ∧ (jointCtx i).backOk 0x1000 = true) ∧
    (let s : State := { world with ctxs := [failing] }
     s.ctx? 60 = some failing ∧ failing.reporter = none ∧ s.reporterOf failing = some group ∧ s.group? 11 = some group ∧ group.trap.tmode = false ∧ group.draining = none ∧ s.atomics = [] ∧ unit.hint = none) ∧
    ((asked [preempts, halts]).trap.tmode = false ∧ halts ∈ (asked [preempts, halts]).async ∧ halts.cause = 26 ∧ (asked [preempts, halts]).units = unit :: [] ∧ Apart (asked [preempts, halts])) ∧
    (let s : State := { world with ctxs := [retiring], groups := [{ idle 0 with queue := [] }] }
     s.block? 10 = some block ∧ (s.ctxs.find? fun x => decide (x.scope = 2) && decide (x.block = 10)) = some retiring ∧ s.ctx? 60 = some retiring ∧ (s.mayRetire block retiring).isSome ∧ (s.groups.map (·.id)).Nodup) ∧
    (let q := { queue with records := [launched] }
     let s : State := { world.setCluster { clusterReset 0 with partition := some 3, pool := [(5, .launch 7 4 none)] } with queues := [q], grids := [], ctxs := [], groups := [], blocks := [] }
     (s.cluster 0).pool = [(5, .launch 7 4 none)] ∧ s.queue? 7 = some q ∧ launched.desc = some desc ∧ s.ctxFree 0 = true ∧ (s.cluster 0).waiting = [] ∧ desc.nblk ≠ 0 ∧ desc.psel = 0) ∧
    (queued.nextTask 0 = some { task 11 with id := 71, row := 20 } ∧ queued.freeEngine 0 = some 1 ∧ (((onEngine (List.replicate 8 0)).core 0).engines[1]?).bind id = some (task 11) ∧ group.block = block.id) ∧
    ((working (.transfer false none 10 0 tileRefs)).tileFree { id := 90, group := 11, sreg := 5, job := .transfer false none 10 0 tileRefs } = true ∧ (tileRefs.all fun r => match r with
      | some r => decide (world.poisoned r.pa = none)
      | none => true) = true) ∧
    ((dirtied.cache.find? fun y => decide (y.core = 0) && decide (y.asid = 77) && decide (y.tid = 0) && decide (y.vsec = 0x100) && decide (y.dirty ≠ 0) && decide (y.marked = none) && !dirtied.heldLine y) = some dirtySector ∧
      dirtied.cache.count dirtySector = 1) :=
  ⟨by decide +kernel, ⟨waitsFor_of (by decide +kernel), by decide +kernel⟩, by decide +kernel, by decide +kernel, by decide +kernel, ⟨rfl, by decide +kernel, rfl, rfl, apart_of (by decide +kernel)⟩, by decide +kernel, by decide +kernel, by decide +kernel,
    by decide +kernel, by decide +kernel⟩

/-- A record that waits to be pushed, and a complete one whose signal word is its own. -/
def unpushed : Fetched := { fetched 4 1 none with record := [BitVec.ofNat 64 (2 ^ 60 + 3 * 2 ^ 54 + 2 ^ 46), 44, 0, 0, 0, 0, 77, 0], pushed := false }

def signalled : Fetched := { fetched 4 2 (some 3) with record := [BitVec.ofNat 64 (2 ^ 61), 44, 0, 0, 0x4808, 0, 77, 15] }

/-- CompletingManagerEvents: queues that map, wait, fetch, push and retire; a grid that is confirmed; layers, walks and a rung; requests of each OP, with `witness_QueueRequests`,
`witness_ImageLoads` and `witness_GridAndModelRequests` for those that need memory. -/
theorem witness_CompletingManagerEvents :
    (let q := { queue with thread := none }
     let s := ringed q 6 [] []
     s.queue? 7 = some q ∧ s.rungs = [] ∧ q.state ≤ 2 ∧ q.fetchedCount < (descOf s q 2).toNat ∧ s.partition? 3 = some part ∧ part.clusters.headD 0 = 0 ∧ ∀ y ∈ s.queues, y.thread ≠ some (0, 0)) ∧
    (let q := { queue with thread := some (0, 3), state := 1, packet := some { armedFor world (queue.descVa + 16) 5 (queue.desc + 16) 0 none with met := true } }
     let s := ringed q 6 [neighbour] []
     s.queue? 7 = some q ∧ s.rungs = [] ∧ (∀ y ∈ s.queues, y.thread = some (0, 3) → y = q) ∧ q ∈ s.queues) ∧
    (Fetches (fetching 0 0) fetcher ∧ ((fetching 0 0).readRecord fetcher fetcher.fetchedCount).isRight = true ∧ fetcher.timed = false ∧ ∀ f ∈ fetcher.records, f.pos < fetcher.fetchedCount) ∧
    (let q := { queue with records := [unpushed] }
     let s := { world with queues := [q], clusters := [{ clusterReset 1 with partition := some 3, pool := List.replicate 255 (3, .cont []) }] }
     s.queue? 7 = some q ∧ q.state ≠ 5 ∧ (q.records.filter fun r => decide (r.status = none) && r.admittedOk && !r.pushed && !r.kept).head? = some unpushed ∧ part.clusters[(wordAt unpushed.record 0).toNat / 2 ^ 46 % 256]? = some 1 ∧
       (s.cluster 1).fenced = false ∧ ((s.cluster 1).pool.filter fun e => decide (e.1 = (wordAt unpushed.record 0).toNat / 2 ^ 54 % 8)).length = 255) ∧
    (let q := { queue with records := [signalled] }
     let s := ringed q 6 [] []
     let a := leafAddr leaf4 (slotOf s q 4).toNat
     q.packet = none ∧ Touches s q (slotOf s q 4) .write leaf4 ∧ Touches s q 0x4808 .atomic leaf4 ∧ Touches (s.storeHome leaf4.key a [BitVec.ofNat 8 (bytesValue (s.homeBytes leaf4.key a 1) % 16 + 16 * 3)]) q 0x4808 .atomic leaf4 ∧ part.admitted = [] ∧ s.walks = []) ∧
    (awaited (2 ^ 63 + 3)).awaitsCount predicted = true ∧
    (model.fetching = none ∧ (layered (2 ^ 61) 0 false).layerIn model 1 = some (0, layer (2 ^ 48 + 0x4000)) ∧ ((layered (2 * 2 ^ 61) 0 false).readRes (layer (2 ^ 48 + 0x4000))).toNat / 2 ^ 61 = 2) ∧
    (Walking (walking (walk 0 0 there) 0x20 18) (walk 0 0 there) 0 ∧ Walking (walking (walk 1 0 there) 0x20 18) (walk 1 0 there) 1 ∧ RingHasRoom (walking (walk 2 1 absent) 0xA0 3) (spaceOf (walking (walk 2 1 absent) 0xA0 3)) 4) ∧
    ((({ world with rungs := [rungRun (.fence (.page 3)) [] []] } : State).rungs.find? fun r => decide (r.id = 80)) = some (rungRun (.fence (.page 3)) [] [])) ∧
    (CreatesPartition world (req 1 0 255 0 0 0) 1 false ∧ (takenClusters world (req 1 0 255 0 0 0) 1).length = 1 ∧ (∀ p ∈ world.partitions, p.creating = none) ∧ world.partitions.length ≤ 256) ∧
    (Clean (req (77 * 65536 + 1) 0 0 0 0 0) (field 47 16 ||| 1) 0 0 0 0 0 ∧ ({ world with queues := [] } : State).context? 77 = some context ∧ Clean (req (77 * 65536 + 1) 0 0 0 0 0) (field 31 16 ||| 1) 0 0 0 0 0 ∧ world.space? 77 = some (spaceOf world) ∧ world.ports = []) ∧
    (Clean (req (77 * 65536 + 1) 9 0 0 0 0) (field 31 16 ||| 1) (field 29 0) 0 0 0 0 ∧ (walk 3 1 absent).waiters = [.unit 11 0 (BitVec.ofNat 64 absent)] ∧ Parked (walking (walk 3 1 absent) 0xA0 3) (only parkedUnit) parkedUnit) ∧
    (Clean (req (7 * 2 ^ 48) 5 99 0 0 0) (field 63 48) (~~~0) (~~~0) 0 0 0 ∧ (∃ k ∈ world.grids, k.qid = 7 ∧ k.pos = 5 ∧ k.ended = false ∧ k.preempted = false)) ∧
    (ResetRequest (req 0 7 0 0 0 0) 0 (field 15 0) ∧ ResetRequest (req 1 262143 0 0 0 0) 1 (field 17 0) ∧ ResetRequest (req 2 3 0 0 0 0) 2 (~~~0) ∧ ResetRequest { req 3 7 0 0 0 0 with fn := 0 } 3 (~~~0) ∧ ResetRequest (req 4 1 0 0 0 0) 4 (~~~0) ∧
      (world.queues.map (·.qid)).Nodup) :=
  ⟨by decide +kernel, by decide +kernel, ⟨fetches_of (by decide +kernel), by decide +kernel⟩, by decide +kernel, ⟨rfl, touches_of (by decide +kernel), touches_of (by decide +kernel), touches_of (by decide +kernel), by decide +kernel⟩,
    by decide +kernel, by decide +kernel, ⟨walking_of (by decide +kernel), walking_of (by decide +kernel), ring_of (by decide +kernel)⟩, by decide +kernel,
    ⟨creates_of (by decide +kernel) (clean_of (by decide +kernel)), by decide +kernel⟩, ⟨clean_of (by decide +kernel), by decide +kernel, clean_of (by decide +kernel), by decide +kernel⟩,
    ⟨clean_of (by decide +kernel), rfl, parked_of (by decide +kernel)⟩, ⟨clean_of (by decide +kernel), by decide +kernel⟩,
    ⟨clean_of (by decide +kernel), by decide +kernel, 4, rfl⟩, ⟨clean_of (by decide +kernel), by decide +kernel, 4, rfl⟩, ⟨clean_of (by decide +kernel), by decide +kernel, 4, rfl⟩, ⟨clean_of (by decide +kernel), by decide +kernel, 4, rfl⟩,
    ⟨clean_of (by decide +kernel), by decide +kernel, 4, rfl⟩, by decide +kernel⟩

/-- CompletingOutsideEvents: clocks, caps and watchdogs at their bounds; an AtomicOp in flight; a record for the system channel; ports, links, functions, keys and a hart. -/
theorem witness_CompletingOutsideEvents :
    (∀ p ∈ world.partitions, p.creating = none) ∧
    (∀ b ∈ [94, 97, 100], let c := (ticking .stretch (some b)).cluster 0
      c.droop = .stretch ∧ c.lastStretch = some b ∧ c.tsc.toNat ≤ b + 6 ∧ b + 6 < 2 ^ 64) ∧
    (let c := (ticking .half none).cluster 0
     c.droop = .half ∧ c.tsc.toNat ≤ c.halfFrom + 64 ∧ c.halfFrom + 64 < 2 ^ 64) ∧
    (let c := (ticking .none none).cluster 0
     c.droopth ≠ 0 ∧ c.droopth ≤ 40 ∧ c.droop = .none ∧ c.lastStretch = none) ∧
    (world.bellows[7]? = some 800 ∧ 1 ≤ ((0x7FFFFFFF : BitVec 32) - world.caps.seq).toNat ∧ ((0x7FFFFFFF : BitVec 32) - world.caps.seq).toNat < 2 ^ 31 ∧ ({ world with caps := { world.caps with expiry := some 5 } } : State).caps.expiry = some 5) ∧
    (let c := { bctx with watchdog := 100 }
     let s : State := { world with ctxs := [c] }
     s.ctx? 60 = some c ∧ s.grid? c.grid = some grid ∧ s.partition? grid.partition = some part ∧ part.watchLimit ≠ 0 ∧ part.watchLimit ≤ c.watchdog) ∧
    ((debugged group).stopall = [9] ∧ flying.atomics.find? (fun x => decide (x.id = flight.id)) = some flight ∧ flying.group? 11 = some group ∧ flight.acq = none ∧ group.draining = none) ∧
    (let w : List Word := [BitVec.ofNat 64 (5 * 2 ^ 60 + 32), 0, BitVec.ofNat 64 (2 ^ 48 + 0x8040), 0, 0, 0, 0, 0]
     world.copyDown 0 = false ∧ systemRecordOk w = true ∧ (wordAt w 0).toNat % 2 ^ 32 = 32 ∧ (wordAt w 0).toNat / 2 ^ 60 = 5 ∧ physOk (wordAt w 2).toNat = true ∧ physOk ((wordAt w 2).toNat + 31) = true) ∧
    (physOk 0x10018 = true ∧ 0x10018 % 32 + 8 ≤ 32 ∧ (world.poisoned 0x10018).isNone ∧ 0x10018 + 8 ≤ 2 ^ 41) ∧
    (let p := { rport [] with default := some 77 }
     let s := { world with ports := [p], mapped := [page 4 (2 ^ 48 + 0x4000) 1 0] }
     s.port? 2 = some p ∧ p.default = some 77 ∧ s.walkerFull 77 4 0 = false ∧ 1 ∈ p.ats ∧ s.walkNow 77 0x4000 .write true = some leaf4 ∧ s.walkNow 77 0x4000 .read true = some leaf4) ∧
    (let v : Invalidation := { id := 90, asid := 77, first := 4, count := some 1, request := none, ports := [2, 3] }
     let s : State := { world with ports := [rport [(77, 4)]], invals := [v] }
     s.port? 2 = some (rport [(77, 4)]) ∧ (s.invals.find? fun x => decide (x.id = 90)) = some v ∧ 2 ∈ v.ports ∧ ∃ n ∈ v.ports, n ≠ 2) ∧
    (∀ d ∈ [true, false], let l : LinkPort := { port := 3, down := d, expect := 7, unacked := [], replays := 0, acked := [] }
      ({ world with links := [l] } : State).link? 3 = some l) ∧
    (provisioned.key? 0 = some { imageKey with id := 0 } ∧ actionKey (.raiseFloor 5 10) = 5 ∧ harted.hart? 4 = some hart ∧ hart.halted = false) :=
  ⟨by decide +kernel, by decide +kernel, by decide +kernel, by decide +kernel, by decide +kernel, by decide +kernel, by decide +kernel, by decide +kernel, by decide +kernel, by decide +kernel, by decide +kernel, by decide +kernel, by decide +kernel⟩

end Sys2Proof.Tests
end

/-!
Fields of an instruction word (R33, R36): a word of a known opcode is its fields put in their places, and only those.
-/

namespace Sys2Proof.Decoding

open Sys2Proof.Stated

theorem eq_bfld_iff {n : Nat} (x : BitVec n) (w lo : Nat) : x = bfld w lo n ↔ x.toNat = w / 2 ^ lo % 2 ^ n := by
  rw [← BitVec.toNat_inj, bfld, BitVec.toNat_ofNat]

/-- A number below 2^32 of a given opcode is the masked word of its own fields and no others, the low nine bits free (R36). -/
theorem eq_maskedWord_add_iff {w op r : Nat} (hw : w < 2 ^ 32) (hop : w / 2 ^ 24 % 2 ^ 7 = op) (hr : r < 2 ^ 9)
    (m : BitVec 1) (p : BitVec 3) (d a : BitVec 6) :
    w = maskedWord op m p d a + r ↔ m = bfld w 31 1 ∧ p = bfld w 21 3 ∧ d = bfld w 15 6 ∧ a = bfld w 9 6 ∧ r = fld w 0 9 := by
  have hm := m.isLt
  have hp := p.isLt
  have hd := d.isLt
  have ha := a.isLt
  simp only [eq_bfld_iff, fld, maskedWord]
  omega

theorem eq_maskedWord_iff {w op : Nat} (hw : w < 2 ^ 32) (hop : w / 2 ^ 24 % 2 ^ 7 = op) (m : BitVec 1) (p : BitVec 3) (d a : BitVec 6) :
    w = maskedWord op m p d a ↔ m = bfld w 31 1 ∧ p = bfld w 21 3 ∧ d = bfld w 15 6 ∧ a = bfld w 9 6 ∧ fld w 0 9 = 0 := by
  rw [← Nat.add_zero (maskedWord op m p d a), eq_maskedWord_add_iff hw hop (Nat.two_pow_pos 9), eq_comm (a := 0)]

/-- The low nine bits of a word as a six-bit field above a three-bit one (R36). -/
theorem add_eq_low_iff (w : Nat) {n : Nat} (hn : n < 2 ^ 3) (b : BitVec 6) :
    b.toNat * 2 ^ 3 + n = fld w 0 9 ↔ b = bfld w 3 6 ∧ n = fld w 0 3 := by
  have hb := b.isLt
  simp only [eq_bfld_iff, fld]
  omega

/-- A masked word of two sources: its fields, with `n` the low three bits (R36). -/
theorem eq_maskedWord_pair_iff {w op n : Nat} (hw : w < 2 ^ 32) (hop : w / 2 ^ 24 % 2 ^ 7 = op) (hn : n < 2 ^ 3)
    (m : BitVec 1) (p : BitVec 3) (d a b : BitVec 6) :
    w = maskedWord op m p d a + b.toNat * 2 ^ 3 + n ↔
      m = bfld w 31 1 ∧ p = bfld w 21 3 ∧ d = bfld w 15 6 ∧ a = bfld w 9 6 ∧ b = bfld w 3 6 ∧ n = fld w 0 3 := by
  have hb := b.isLt
  rw [Nat.add_assoc, eq_maskedWord_add_iff hw hop (by omega), add_eq_low_iff w hn]

/-- A word of four scalar fields and nothing between the third and the last (R36, R80). -/
theorem eq_scalarWord_iff {w op : Nat} (hw : w < 2 ^ 32) (hop : w / 2 ^ 24 % 2 ^ 7 = op) (m : BitVec 1) (d a b c : BitVec 5) :
    w = m.toNat * 2 ^ 31 + op * 2 ^ 24 + d.toNat * 2 ^ 19 + a.toNat * 2 ^ 14 + b.toNat * 2 ^ 9 + c.toNat ↔
      m = bfld w 31 1 ∧ d = bfld w 19 5 ∧ a = bfld w 14 5 ∧ b = bfld w 9 5 ∧ c = bfld w 0 5 ∧ fld w 5 4 = 0 := by
  have hm := m.isLt
  have hd := d.isLt
  have ha := a.isLt
  have hb := b.isLt
  have hc := c.isLt
  simp only [eq_bfld_iff, fld]
  omega

/-! ### The opcodes of the selects and of the bitwise words -/

theorem decodeOp13_ok_iff (w : Nat) (i : Instr) : decodeOp13 w = .ok i ↔
    fld w 5 4 = 0 ∧ i = .ssel (bfld w 31 1) (bfld w 19 5) (bfld w 14 5) (bfld w 9 5) (bfld w 0 5) := by
  unfold decodeOp13
  split <;> simp [*, eq_comm (a := i)]

theorem decodeOp27_ok_iff (w : Nat) (i : Instr) : decodeOp27 w = .ok i ↔
    fld w 0 9 = 0 ∧ i = .vabs (bfld w 31 1) (bfld w 21 3) (bfld w 15 6) (bfld w 9 6) := by
  unfold decodeOp27
  split <;> simp [*, eq_comm (a := i)]

/-- The words of opcode 0x28 by their function value (R87). -/
def BitwiseRow (m : BitVec 1) (p : BitVec 3) (d a b : BitVec 6) (f : Nat) (i : Instr) : Prop :=
  (f = 0 ∧ i = .vand m p d a b) ∨ (f = 1 ∧ i = .vor m p d a b) ∨ (f = 2 ∧ i = .vxor m p d a b) ∨ (f = 3 ∧ i = .vandn m p d a b)

theorem BitwiseRow.lt {m : BitVec 1} {p : BitVec 3} {d a b : BitVec 6} {f : Nat} {i : Instr} (h : BitwiseRow m p d a b f i) : f < 2 ^ 3 := by
  unfold BitwiseRow at h
  omega

theorem decodeOp28_ok_iff (w : Nat) (i : Instr) : decodeOp28 w = .ok i ↔
    BitwiseRow (bfld w 31 1) (bfld w 21 3) (bfld w 15 6) (bfld w 9 6) (bfld w 3 6) (fld w 0 3) i := by
  unfold decodeOp28 BitwiseRow
  repeat' split
  all_goals simp [*, eq_comm (a := i)]

/-- The words of opcode 0x2A by their function value (R89). -/
def CountRow (m : BitVec 1) (p : BitVec 3) (d a : BitVec 6) (f : Nat) (i : Instr) : Prop :=
  (f = 0 ∧ i = .vclz m p d a) ∨ (f = 1 ∧ i = .vpopc m p d a)

theorem CountRow.lt {m : BitVec 1} {p : BitVec 3} {d a : BitVec 6} {f : Nat} {i : Instr} (h : CountRow m p d a f i) : f < 2 ^ 9 := by
  unfold CountRow at h
  omega

theorem decodeOp2A_ok_iff (w : Nat) (i : Instr) : decodeOp2A w = .ok i ↔
    CountRow (bfld w 31 1) (bfld w 21 3) (bfld w 15 6) (bfld w 9 6) (fld w 0 9) i := by
  unfold decodeOp2A CountRow
  repeat' split
  all_goals simp [*, eq_comm (a := i)]

section
variable {w : Nat} {i : Instr} (hw : w < 2 ^ 32)
include hw

/-- Opcode 0x13 is `ssel` alone (R80). -/
theorem decodeWord_ssel_iff (hop : w / 2 ^ 24 % 2 ^ 7 = 0x13) : decodeWord w = .ok i ↔
    ∃ (m : BitVec 1) (d a b c : BitVec 5), i = .ssel m d a b c ∧
      w = m.toNat * 2 ^ 31 + 0x13 * 2 ^ 24 + d.toNat * 2 ^ 19 + a.toNat * 2 ^ 14 + b.toNat * 2 ^ 9 + c.toNat := by
  have hd : decodeWord w = decodeOp13 w := by simp only [decodeWord, fld, hop]
  simp only [hd, decodeOp13_ok_iff, eq_scalarWord_iff hw hop]
  constructor
  · rintro ⟨h0, rfl⟩
    exact ⟨_, _, _, _, _, rfl, rfl, rfl, rfl, rfl, rfl, h0⟩
  · rintro ⟨_, _, _, _, _, rfl, rfl, rfl, rfl, rfl, rfl, h0⟩
    exact ⟨h0, rfl⟩

/-- Opcode 0x2C is `vsel` alone (R91). -/
theorem decodeWord_vsel_iff (hop : w / 2 ^ 24 % 2 ^ 7 = 0x2C) : decodeWord w = .ok i ↔
    ∃ (m : BitVec 1) (p : BitVec 3) (d a b : BitVec 6) (n : BitVec 3), i = .vsel m p d a b n ∧
      w = maskedWord 0x2C m p d a + b.toNat * 2 ^ 3 + n.toNat := by
  have hd : decodeWord w = decodeOp2C w := by simp only [decodeWord, fld, hop]
  have hn : ∀ n : BitVec 3, n.toNat = fld w 0 3 ↔ n = bfld w 0 3 := fun n => by simp [eq_bfld_iff, fld]
  simp only [hd, decodeOp2C, Except.ok.injEq, eq_maskedWord_pair_iff hw hop (BitVec.isLt _), hn]
  constructor
  · rintro rfl
    exact ⟨_, _, _, _, _, _, rfl, rfl, rfl, rfl, rfl, rfl, rfl⟩
  · rintro ⟨_, _, _, _, _, _, rfl, rfl, rfl, rfl, rfl, rfl, rfl⟩
    rfl

/-- Opcode 0x27 is `vabs` alone (R86). -/
theorem decodeWord_vabs_iff (hop : w / 2 ^ 24 % 2 ^ 7 = 0x27) : decodeWord w = .ok i ↔
    ∃ (m : BitVec 1) (p : BitVec 3) (d a : BitVec 6), i = .vabs m p d a ∧ w = maskedWord 0x27 m p d a := by
  have hd : decodeWord w = decodeOp27 w := by simp only [decodeWord, fld, hop]
  simp only [hd, decodeOp27_ok_iff, eq_maskedWord_iff hw hop]
  constructor
  · rintro ⟨h0, rfl⟩
    exact ⟨_, _, _, _, rfl, rfl, rfl, rfl, rfl, h0⟩
  · rintro ⟨_, _, _, _, rfl, rfl, rfl, rfl, rfl, h0⟩
    exact ⟨h0, rfl⟩

/-- Opcode 0x28 holds the bitwise words alone (R87). -/
theorem decodeWord_bitwise_iff (hop : w / 2 ^ 24 % 2 ^ 7 = 0x28) : decodeWord w = .ok i ↔
    ∃ (m : BitVec 1) (p : BitVec 3) (d a b : BitVec 6) (f : Nat), BitwiseRow m p d a b f i ∧
      w = maskedWord 0x28 m p d a + b.toNat * 2 ^ 3 + f := by
  have hd : decodeWord w = decodeOp28 w := by simp only [decodeWord, fld, hop]
  rw [hd, decodeOp28_ok_iff]
  constructor
  · intro h
    exact ⟨_, _, _, _, _, _, h, (eq_maskedWord_pair_iff hw hop h.lt _ _ _ _ _).2 ⟨rfl, rfl, rfl, rfl, rfl, rfl⟩⟩
  · rintro ⟨m, p, d, a, b, f, h, he⟩
    obtain ⟨rfl, rfl, rfl, rfl, rfl, rfl⟩ := (eq_maskedWord_pair_iff hw hop h.lt _ _ _ _ _).1 he
    exact h

/-- Opcode 0x2A holds the two counts alone (R89). -/
theorem decodeWord_count_iff (hop : w / 2 ^ 24 % 2 ^ 7 = 0x2A) : decodeWord w = .ok i ↔
    ∃ (m : BitVec 1) (p : BitVec 3) (d a : BitVec 6) (f : Nat), CountRow m p d a f i ∧ w = maskedWord 0x2A m p d a + f := by
  have hd : decodeWord w = decodeOp2A w := by simp only [decodeWord, fld, hop]
  rw [hd, decodeOp2A_ok_iff]
  constructor
  · intro h
    exact ⟨_, _, _, _, _, h, (eq_maskedWord_add_iff hw hop h.lt _ _ _ _).2 ⟨rfl, rfl, rfl, rfl, rfl⟩⟩
  · rintro ⟨m, p, d, a, f, h, he⟩
    obtain ⟨rfl, rfl, rfl, rfl, rfl⟩ := (eq_maskedWord_add_iff hw hop h.lt _ _ _ _).1 he
    exact h

end

end Sys2Proof.Decoding

/-!
Words whose result is one scalar or one lane register computed from the registers before the word (R70, R71, R76).
-/

namespace Sys2Proof.Machine

open Sys2Proof.Stated

/-- A value read from a group that what the trace remembers does not change. -/
def TraceFree {α : Type} (f : Group → α) : Prop := ∀ g t r, f { g with trace := t, unread := r } = f g

theorem TraceFree.eq {α : Type} {f : Group → α} (hf : TraceFree f) {g g1 : Group} (h : TraceOnly g g1) : f g1 = f g := by
  rw [h]
  exact hf _ _ _

/-! ### One scalar -/

theorem Group.setS_same {g g1 : Group} (h : TraceOnly g g1) (d : Nat) (v : Word) : SameRegs (g.setS d v) (g1.setS d v) := by
  rw [h]
  unfold Group.setS
  split <;> rfl

/-- A group with the registers that a write of a scalar leaves is the group with that scalar written. -/
theorem ScalarWritten.of_setS {g g' : Group} {d : Nat} {v : Word} (hd : d < 32) (h : SameRegs (g.setS d v) g') : ScalarWritten g g' d v := by
  refine ⟨?_, ?_, ?_, ?_⟩
  · rw [h.s_eq, g.s_setS v hd]
    simp
  · intro r hr
    rw [h.s_eq, g.s_setS_other v hd hr]
  · rw [h]
    unfold Group.setS
    split <;> rfl
  · rw [h]
    unfold Group.setS
    split <;> rfl

/-- A word that is the write of one scalar, computed from the registers, writes that scalar and nothing else. -/
theorem writesScalar_of_issueReg {i : Instr} {d : BitVec 5} {f : Group → GUnit → Word} (hi : isHint i = false)
    (he : ∀ s, exec i s = issueReg i s fun g u => g.setS d.toNat (f g u)) (hf : TraceFree f) :
    writesScalar i d fun _ g u => f g u := by
  intro s g u h hc
  obtain ⟨t, h1, h2⟩ := issueReg_after (f := fun g u => g.setS d.toNat (f g u)) h hi hc (by
    intro g1 ht
    have hs := Group.setS_same ht d.toNat (f g u)
    have hx := (ScalarWritten.of_setS d.isLt hs).rest
    rw [congrFun (hf.eq ht) u]
    refine ⟨hs, ?_, ?_, ?_, ?_⟩ <;> rw [hx])
  obtain ⟨g', h3, h4⟩ := h2.group
  exact ⟨t, g', by rw [he, h1], h2.only, h3, ScalarWritten.of_setS d.isLt h4⟩

/-! ### One register, lane by lane -/

theorem Group.setVs_trace (g : Group) (f : Nat) (ws : List (Nat × Word32)) (t : TraceState) (r : BitVec 32) :
    ({ g with trace := t, unread := r } : Group).setVs f ws = { g.setVs f ws with trace := t, unread := r } := by
  induction ws generalizing g with
  | nil => rfl
  | cons w ws ih => exact ih (g.setV f w.1 w.2)

theorem Group.setVs_same {g g1 : Group} (h : TraceOnly g g1) (f : Nat) (ws : List (Nat × Word32)) :
    SameRegs (g.setVs f ws) (g1.setVs f ws) := by
  have hg : g1 = { g with trace := g1.trace, unread := g1.unread } := h
  have hs := g.setVs_trace f ws g1.trace g1.unread
  rw [← hg] at hs
  rw [hs]
  rfl

/-- A word of one value per lane, computed from the registers, writes it in the active lanes, raises no flag and moves no generator. -/
theorem writesLanes_of_laneWord {i : Instr} {d : BitVec 6} {f x : Group → Nat → Word32} (hi : isHint i = false)
    (he : ∀ s, exec i s = laneWord i d.toNat f s) (hf : TraceFree f) (hx : ∀ g l, l < 32 → f g l = x g l) :
    writesLanes i d 1 fun _ g _ l => plain g l (x g l) := by
  intro s g u h hc _
  obtain ⟨t, g', h1, h2, h3, h4, h5, h6⟩ := issueLanes_fold (d := d.toNat) (n := 1) (rs := fun l => [f g l]) (fl := fun _ => 0) (x := g.gen)
    (f := fun g _ m => g.setVs d.toNat ((lanesOf m).map fun l => (l, f g l))) h hi hc
    (by
      intro g1 ht
      have hfold := setVs_fold g1 d.toNat (lanesOf (activeMask g u (predField i))) (fun _ => lanesOf_lt) (f g)
      have hg : g1.gen = g.gen := by rw [ht]; rfl
      rw [hg] at hfold
      rwa [hf.eq ht])
    (by
      intro g1 ht
      rw [hf.eq ht]
      exact Group.setVs_same ht _ _)
  refine ⟨t, g', by rw [he]; exact h1, h2, h3, h4, ?_, h6⟩
  intro l hl hm
  have hlane := h5 l hl hm
  rw [hx g l hl] at hlane
  exact hlane

theorem unaryOp_of_laneWord {word : BitVec 1 → BitVec 3 → BitVec 6 → BitVec 6 → Instr} {f : Word32 → Word32}
    (hi : ∀ m p d a, isHint (word m p d a) = false)
    (he : ∀ m p d a s, exec (word m p d a) s = laneWord (word m p d a) d.toNat (fun g l => f (g.v a.toNat l)) s) : unaryOp word f :=
  fun m p d a => writesLanes_of_laneWord (hi m p d a) (he m p d a) (fun _ _ _ => rfl) fun _ _ _ => rfl

theorem bitOp_of_laneWord {word : BitVec 1 → BitVec 3 → BitVec 6 → BitVec 6 → BitVec 6 → Instr} {f : Word32 → Word32 → Word32}
    (hi : ∀ m p d a b, isHint (word m p d a b) = false)
    (he : ∀ m p d a b s, exec (word m p d a b) s =
      laneWord (word m p d a b) d.toNat (fun g l => f (g.v a.toNat l) (g.v b.toNat l)) s) : bitOp word f :=
  fun m p d a b => writesLanes_of_laneWord (hi m p d a b) (he m p d a b) (fun _ _ _ => rfl) fun _ _ _ => rfl

/-! ### The values of the selects and of `vabs` -/

/-- Predicate 0 is true in every lane (R41). -/
theorem Group.p_getLsbD_iff (g : Group) (n : BitVec 3) {l : Nat} (hl : l < 32) :
    (n = 0 ∨ (g.p n.toNat).getLsbD l = true) ↔ (g.p n.toNat).getLsbD l = true := by
  refine or_iff_right_of_imp ?_
  rintro rfl
  rw [show (0 : BitVec 3).toNat = 0 from rfl, g.p_zero, BitVec.getLsbD_not]
  simp [hl]

/-- Negating the least number of 32 bits gives it back, so that its magnitude is itself (R86). -/
theorem magnitude_eq (x : Word32) :
    (if x.toInt < 0 then -x else x) = if x = 0x80000000#32 then 0x80000000#32 else if x.toInt < 0 then -x else x := by
  by_cases hx : x = 0x80000000#32
  · subst hx
    decide
  · rw [if_neg hx]

end Sys2Proof.Machine

namespace Sys2Proof.LaneWords

open Sys2Proof.Machine Sys2Proof.Stated Sys2Proof.Decoding

theorem ssel_writesScalar (m : BitVec 1) (d a b c : BitVec 5) :
    writesScalar (.ssel m d a b c) d fun _ g _ => if g.s c.toNat ≠ 0 then g.s a.toNat else g.s b.toNat :=
  writesScalar_of_issueReg rfl (fun _ => rfl) fun _ _ _ => rfl

theorem vsel_writesLanes (m : BitVec 1) (p : BitVec 3) (d a b : BitVec 6) (n : BitVec 3) :
    writesLanes (.vsel m p d a b n) d 1 fun _ g _ l =>
      plain g l (if n = 0 ∨ (g.p n.toNat).getLsbD l = true then g.v a.toNat l else g.v b.toNat l) := by
  refine writesLanes_of_laneWord (f := fun g l => if (g.p n.toNat).getLsbD l then g.v a.toNat l else g.v b.toNat l)
    rfl (fun _ => rfl) (fun _ _ _ => rfl) ?_
  intro g l hl
  simp only [g.p_getLsbD_iff n hl]

theorem vabs_writes : unaryOp .vabs fun x => if x = 0x80000000#32 then 0x80000000#32 else if x.toInt < 0 then -x else x := by
  simp only [← magnitude_eq]
  exact unaryOp_of_laneWord (fun _ _ _ _ => rfl) fun _ _ _ _ _ => rfl

/-- Settles O5: each select completes with the value that its rule names, and its opcode decodes to nothing else. -/
theorem selectWords : Obligations.SelectWords :=
  ⟨ssel_writesScalar, fun _ _ hw hop => decodeWord_ssel_iff hw hop, vsel_writesLanes, fun _ _ hw hop => decodeWord_vsel_iff hw hop⟩

/-- Settles O6: each word is a lane word of its rule's value, and the rows of its opcode are all that decode there. -/
theorem bitwiseWords : Obligations.BitwiseWords :=
  ⟨vabs_writes,
    bitOp_of_laneWord (fun _ _ _ _ _ => rfl) fun _ _ _ _ _ _ => rfl,
    bitOp_of_laneWord (fun _ _ _ _ _ => rfl) fun _ _ _ _ _ _ => rfl,
    bitOp_of_laneWord (fun _ _ _ _ _ => rfl) fun _ _ _ _ _ _ => rfl,
    bitOp_of_laneWord (fun _ _ _ _ _ => rfl) fun _ _ _ _ _ _ => rfl,
    unaryOp_of_laneWord (fun _ _ _ _ => rfl) fun _ _ _ _ _ => rfl,
    unaryOp_of_laneWord (fun _ _ _ _ => rfl) fun _ _ _ _ _ => rfl,
    fun _ _ hw hop => decodeWord_vabs_iff hw hop, fun _ _ hw hop => decodeWord_bitwise_iff hw hop,
    fun _ _ hw hop => decodeWord_count_iff hw hop⟩

end Sys2Proof.LaneWords
